-- ==== Sys2Proof/Word.lean ====
section
/-! DEFINITION. Word types and the plainest bit access: bytes, 32-bit words, 64-bit registers, 96-bit
records (R227). -/
namespace Sys2Proof

/-- A byte of memory. -/
abbrev Byte := BitVec 8

/-- A 32-bit word: the value of a token, a literal. -/
abbrev Word := BitVec 32

/-- A 64-bit sequencer or system register. -/
abbrev Reg := BitVec 64

/-- A 96-bit record (R227). -/
abbrev Rec := BitVec 96

end Sys2Proof
end

