-- ==== Sys2Proof/Syntax.lean ====
section
/-! DEFINITION. The instruction set and the device's steps: one constructor of `Instr` per row of
spec/opcode_table.json. Node records and commands carry their fields already taken apart (R228, R233).
Lean's runtime gives fields to at most 245 constructors of one type, so the fields of a sequence record
(R231) stand beside its row, in `SeqRec`, and what a step without an encoding takes from outside stands
in `Input`; the machine's state holds both while the step runs. -/
namespace Sys2Proof

/-- The type codes of R234, in code order. -/
inductive Ty where
  | i32 | n32 | i16 | n16 | i8 | n8 | f32 | bf16 | f16 | f8e4 | f8e5 | qn4 | pred | csa | tile | untyped
  deriving DecidableEq, Repr, Inhabited

/-- A destination byte (R229): a local node's port, a data out-port, a predicate out-port, or none. -/
inductive Dest where
  | node (n : Fin 32) (port : Fin 4)
  | out (k : Fin 16)
  | predOut (k : Fin 16)
  | discard
  deriving DecidableEq, Repr, Inhabited

/-- Literal select, the ls field of R228. -/
inductive LitSel where
  | absent | port0 | port1 | port2
  deriving DecidableEq, Repr, Inhabited

/-- Predicate gating, the pg field of R228 and R59. -/
inductive Gate where
  | ungated | ifTrue | ifFalse | consume
  deriving DecidableEq, Repr, Inhabited

/-- The fields of an N-form record besides its opcode (R228). `gather` is ax[8:6], `ax` is ax[5:0]. -/
structure NodeRec where
  ty : Ty
  md : BitVec 4
  da : Dest
  db : Dest
  ls : LitSel
  pg : Gate
  gather : BitVec 3
  ax : BitVec 6
  ex : BitVec 16
  lit : BitVec 32
  deriving DecidableEq, Repr, Inhabited

/-- The sources of a Q-form record (R232). -/
inductive QSrc where
  | w (i : Fin 8) | m (i : Fin 3) | tg | im | q (i : Fin 2) | zr
  deriving DecidableEq, Repr, Inhabited

/-- The destinations of a Q-form record (R232). -/
inductive QDst where
  | w (i : Fin 8) | da | db | discard
  deriving DecidableEq, Repr, Inhabited

/-- The fields of a Q-form record besides its opcode (R231). -/
structure SeqRec where
  ty : Ty
  md : BitVec 4
  qd : QDst
  qa : QSrc
  qb : QSrc
  qc : QSrc
  last : Bool
  im : BitVec 32
  deriving DecidableEq, Repr, Inhabited

/-- The fields of a C-form record besides its opcode (R233). -/
structure CmdRec where
  ty : Ty
  md : BitVec 4
  d : BitVec 5
  s : BitVec 5
  t : BitVec 5
  ext : BitVec 31
  imm : BitVec 32
  deriving DecidableEq, Repr, Inhabited

/-- One image measured at boot (R217): its SHA-384 digest and whether its signature holds. -/
structure BootImage where
  digest : BitVec 384
  signed : Bool
  deriving DecidableEq, Repr, Inhabited

/-- How the memory system answers a request (R130, R438, R445, R453): with data, with data an error
code corrected, or with an uncorrected error of the given cause code. -/
inductive MemReply where
  | data
  | corrected
  | uncorrected (cause : BitVec 16)
  deriving DecidableEq, Repr, Inhabited

/-- What the 256-byte flits of one message between packages carry (R224, R331, R332, R333): that a member of a
ring has opened it with the given list, a ring slot's bytes, a returned slot count, or a chunk of a ring's collective
of the given number, final or still gathering contributions (R225). -/
inductive FlitBody where
  | ringOpened (member : Nat) (members : List Nat)
  | ringSlot (vf ring : Nat) (bytes : List (BitVec 8))
  | ringCredit (vf ring : Nat)
  | collective (vf ring seq chunk : Nat) (final : Bool) (bytes : List (BitVec 8))
  deriving DecidableEq, Repr, Inhabited

/-- A flit: the package it is addressed to and its body (R224). -/
structure Flit where
  dest : Nat
  body : FlitBody
  deriving DecidableEq, Repr, Inhabited

/-- How a training of a Xipex link ends (R451). -/
inductive TrainOutcome where
  | up | failed | loopbackFailed
  deriving DecidableEq, Repr, Inhabited

/-- What a device step without an encoding takes from its surroundings: which unit it concerns, a
reading, a register value, the data of a message. -/
inductive Input where
  | absent
  | index (a : Nat)
  | pair (a b : Nat)
  | triple (a b c : Nat)
  | quad (a b c d : Nat)
  | word (a : Nat) (v : BitVec 64)
  | register (fn : Option Nat) (offset : Nat) (v : BitVec 64)
  | images (l : List BootImage)
  | nonce (v : BitVec 256)
  | reply (a : Nat) (r : MemReply)
  | flagged (a : Nat) (b : Bool)
  | cause (a : Nat) (c : BitVec 16)
  | ring (vf ring : Nat) (bytes : List (BitVec 8))
  | flit (link : Nat) (f : Flit)
  | cxl (addr : Nat) (write : Option (List (BitVec 8)))
  | train (link : Nat) (o : TrainOutcome)
  deriving DecidableEq, Repr, Inhabited

/-- Every record and every step of spec/opcode_table.json. -/
inductive Instr where
  -- node records (N-form)
  /-- R262: Node passes its port-0 token unchanged, keeping its kind. -/
  | pass (f : NodeRec)
  /-- R262: Node emits its literal when triggered on port 0. -/
  | const (f : NodeRec)
  /-- R262: Node consumes its operands and emits nothing. -/
  | sink (f : NodeRec)
  /-- R262: Node emits one completion token once all of its inputs have met. -/
  | join (f : NodeRec)
  /-- R263: Node integer addition, wrapped or saturated. -/
  | add (f : NodeRec)
  /-- R263: Node integer subtraction. -/
  | sub (f : NodeRec)
  /-- R263: Node integer multiplication. -/
  | mul (f : NodeRec)
  /-- R264: Node high half of the exact integer product. -/
  | mulh (f : NodeRec)
  /-- R263: Node integer multiply-add of three operands. -/
  | mad (f : NodeRec)
  /-- R265: Node integer division toward zero, raising DZ on a zero divisor. -/
  | div (f : NodeRec)
  /-- R265: Node integer remainder with the sign of the dividend. -/
  | rem (f : NodeRec)
  /-- R263: Node integer minimum. -/
  | min (f : NodeRec)
  /-- R263: Node integer maximum. -/
  | max (f : NodeRec)
  /-- R263: Node integer absolute value. -/
  | abs (f : NodeRec)
  /-- R263: Node integer negation. -/
  | neg (f : NodeRec)
  /-- R266: Node bitwise AND. -/
  | and (f : NodeRec)
  /-- R266: Node bitwise OR. -/
  | or (f : NodeRec)
  /-- R266: Node bitwise XOR. -/
  | xor (f : NodeRec)
  /-- R266: Node bitwise complement. -/
  | not (f : NodeRec)
  /-- R267: Node left shift, wrapped or saturated. -/
  | shl (f : NodeRec)
  /-- R267: Node logical right shift. -/
  | shr (f : NodeRec)
  /-- R267: Node arithmetic right shift. -/
  | sar (f : NodeRec)
  /-- R266: Node left rotation by op1 mod width. -/
  | rotl (f : NodeRec)
  /-- R266: Node count of leading zeros. -/
  | clz (f : NodeRec)
  /-- R266: Node population count. -/
  | popc (f : NodeRec)
  /-- R268: Node bit-field extract under a control word. -/
  | bfx (f : NodeRec)
  /-- R268: Node bit-field insert under a control word. -/
  | bfi (f : NodeRec)
  /-- R269: Node selects op0 or op1 by the predicate. -/
  | sel (f : NodeRec)
  /-- R269: Node integer comparison emitting a predicate. -/
  | cmp (f : NodeRec)
  /-- R270: Node reads a field of the work identifier bound to its tag. -/
  | idx (f : NodeRec)
  /-- R270: Node reads half of the work identifier bound to its tag. -/
  | wid (f : NodeRec)
  /-- R271: Node floating addition with one rounding. -/
  | fadd (f : NodeRec)
  /-- R271: Node floating subtraction. -/
  | fsub (f : NodeRec)
  /-- R271: Node floating multiplication. -/
  | fmul (f : NodeRec)
  /-- R271: Node fused multiply-add with one rounding. -/
  | ffma (f : NodeRec)
  /-- R272: Node floating minimum. -/
  | fmin (f : NodeRec)
  /-- R272: Node floating maximum. -/
  | fmax (f : NodeRec)
  /-- R272: Node clears the sign bit. -/
  | fabs (f : NodeRec)
  /-- R272: Node inverts the sign bit. -/
  | fneg (f : NodeRec)
  /-- R271: Node floating comparison emitting a predicate. -/
  | fcmp (f : NodeRec)
  /-- R273: Node floating-to-floating conversion. -/
  | fcvt (f : NodeRec)
  /-- R273: Node integer-to-floating conversion. -/
  | itof (f : NodeRec)
  /-- R273: Node floating-to-integer conversion. -/
  | ftoi (f : NodeRec)
  /-- R275: Node special function 2^x. -/
  | exp2 (f : NodeRec)
  /-- R275: Node special function log2 x. -/
  | log2 (f : NodeRec)
  /-- R275: Node special function reciprocal. -/
  | rcp (f : NodeRec)
  /-- R275: Node special function reciprocal square root. -/
  | rsq (f : NodeRec)
  /-- R275: Node square root. -/
  | sqrt (f : NodeRec)
  /-- R275: Node sine to da and cosine to db. -/
  | sincos (f : NodeRec)
  /-- R275: Node hyperbolic tangent. -/
  | tanh (f : NodeRec)
  /-- R274: Node rounds to an integral floating value. -/
  | frnd (f : NodeRec)
  /-- R274: Node multiplies by 2^op1 with one rounding. -/
  | fscale (f : NodeRec)
  /-- R274: Node classifies a floating value into a one-hot mask. -/
  | fclass (f : NodeRec)
  /-- R276: Node sends its data token to da or db by the predicate. -/
  | steer (f : NodeRec)
  /-- R278: Node passes each token arriving on either port. -/
  | merge (f : NodeRec)
  /-- R277: Node passes the token of the port that the predicate chooses. -/
  | cmerge (f : NodeRec)
  /-- R276: Node passes or drops its token by the predicate. -/
  | gate (f : NodeRec)
  /-- R276: Node predicate negation. -/
  | pnot (f : NodeRec)
  /-- R276: Node predicate AND. -/
  | pand (f : NodeRec)
  /-- R276: Node predicate OR. -/
  | por (f : NodeRec)
  /-- R276: Node predicate XOR. -/
  | pxor (f : NodeRec)
  /-- R279: Node draws a tag from a loop region and re-emits under it. -/
  | tagnew (f : NodeRec)
  /-- R280: Node returns its tag to the loop region and emits under an outer tag. -/
  | tagret (f : NodeRec)
  /-- R281: Node emits op0 under the tag op1. -/
  | tagset (f : NodeRec)
  /-- R281: Node emits its firing tag as a value. -/
  | tagget (f : NodeRec)
  /-- R282: Node emits its counter and a wrap predicate, then advances it. -/
  | count (f : NodeRec)
  /-- R283: Node emits its literal once at the start of each run of its act. -/
  | init (f : NodeRec)
  /-- R284: Node runs a Q-sequence with its matched operands. -/
  | fire (f : NodeRec)
  /-- R286: Node forwards op0 once port 1 has also arrived. -/
  | order (f : NodeRec)
  /-- R287: Node retires the iteration or queues the thread at another act. -/
  | done (f : NodeRec)
  /-- R288: Node raises the program trap with its cause code. -/
  | trapn (f : NodeRec)
  /-- R276: Node turns its predicate into a data token. -/
  | ptest (f : NodeRec)
  /-- R290: Node loads a value or tile packet through a handle. -/
  | ld (f : NodeRec)
  /-- R291: Node stores a value or tile into the store hold. -/
  | st (f : NodeRec)
  /-- R292: Node waits for full granules, reads them and empties them. -/
  | ldfeTake (f : NodeRec)
  /-- R292: Node waits for full granules and reads them, leaving them full. -/
  | ldfePeek (f : NodeRec)
  /-- R292: Node waits for empty granules, writes them and sets them full. -/
  | stfe (f : NodeRec)
  /-- R292: Node writes granules at once and sets them full. -/
  | stfeOvw (f : NodeRec)
  /-- R293: Node atomic integer add, pinning the line until commit. -/
  | amoAdd (f : NodeRec)
  /-- R293: Node atomic bitwise AND. -/
  | amoAnd (f : NodeRec)
  /-- R293: Node atomic bitwise OR. -/
  | amoOr (f : NodeRec)
  /-- R293: Node atomic bitwise XOR. -/
  | amoXor (f : NodeRec)
  /-- R293: Node atomic minimum. -/
  | amoMin (f : NodeRec)
  /-- R293: Node atomic maximum. -/
  | amoMax (f : NodeRec)
  /-- R293: Node atomic swap. -/
  | amoSwap (f : NodeRec)
  /-- R293: Node atomic FP32 add. -/
  | amoFadd (f : NodeRec)
  /-- R294: Node compare-and-swap on bit patterns. -/
  | cas (f : NodeRec)
  /-- R295: Node waits until earlier accesses have performed at its scope, then completes. -/
  | fence (f : NodeRec)
  /-- R82: Node reads a name and decrements its use count. -/
  | nrdTake (f : NodeRec)
  /-- R82: Node reads a name without consuming a use. -/
  | nrdPeek (f : NodeRec)
  /-- R83: Node writes a name into its fold slot, stalling while the slot is occupied. -/
  | nwr (f : NodeRec)
  /-- R88: Node reports the state of a name without waiting. -/
  | nprobe (f : NodeRec)
  /-- R347: Tile node applies a scalar opcode to every element. -/
  | vmap (f : NodeRec)
  /-- R348: Tile node fused multiply-add. -/
  | vfma (f : NodeRec)
  /-- R349: Tile node exact sum along rows or columns. -/
  | vredSum (f : NodeRec)
  /-- R349: Tile node maximum along rows or columns. -/
  | vredMax (f : NodeRec)
  /-- R349: Tile node minimum along rows or columns. -/
  | vredMin (f : NodeRec)
  /-- R349: Tile node prefix sum. -/
  | vscanSum (f : NodeRec)
  /-- R349: Tile node prefix maximum. -/
  | vscanMax (f : NodeRec)
  /-- R349: Tile node prefix minimum. -/
  | vscanMin (f : NodeRec)
  /-- R350: Tile node elementwise comparison producing a mask. -/
  | vcmpm (f : NodeRec)
  /-- R351: Tile node packs the rows or columns a mask selects. -/
  | vcompress (f : NodeRec)
  /-- R351: Tile node spreads rows or columns under a mask. -/
  | vexpand (f : NodeRec)
  /-- R352: Tile node selects the top k rows per column as a mask. -/
  | vtopk (f : NodeRec)
  /-- R352: Tile node selects the top k rows per column as indices. -/
  | vtopkIdx (f : NodeRec)
  /-- R353: Tile node row softmax. -/
  | vsoft (f : NodeRec)
  /-- R354: Tile node quantises rows with a power-of-two row scale. -/
  | vquant (f : NodeRec)
  /-- R354: Tile node dequantises a scaled packet. -/
  | vdeq (f : NodeRec)
  /-- R354: Tile node converts every element. -/
  | vcvt (f : NodeRec)
  /-- R355: Tile node transposes a packet. -/
  | vtransp (f : NodeRec)
  /-- R355: Tile node extracts a sub-block. -/
  | vslice (f : NodeRec)
  /-- R355: Tile node concatenates two packets. -/
  | vcat (f : NodeRec)
  /-- R356: Tile node reads one header field. -/
  | vhdr (f : NodeRec)
  /-- R356: Tile node rewrites one header field. -/
  | vhdrSet (f : NodeRec)
  /-- R357: Tile node builds a packet filled with a scalar. -/
  | vbcast (f : NodeRec)
  /-- R358: Tile node fills the elements a mask does not keep. -/
  | vmaskKeep (f : NodeRec)
  /-- R358: Tile node fills the elements beyond the causal limit. -/
  | vmaskCausal (f : NodeRec)
  /-- R358: Tile node fills the elements beyond a length. -/
  | vmaskLength (f : NodeRec)
  /-- R365: Node multiplies A rows by B in vitrine slots into accumulator rows. -/
  | mxrow (f : NodeRec)
  /-- R367: Node drains completed accumulator rows in KEEP mode. -/
  | mxdrain (f : NodeRec)
  /-- R368: Node routes a packet by a route-table entry. -/
  | mxsteer (f : NodeRec)
  /-- R370: Node forms attention scores of a key packet against held queries. -/
  | score (f : NodeRec)
  /-- R371: Node pairs a score tile with its value packet. -/
  | pair (f : NodeRec)
  /-- R372: Node joins a pair into the online-softmax numerator and denominator. -/
  | acc (f : NodeRec)
  /-- R373: Node resolves csa values to FP32, optionally dividing. -/
  | norm (f : NodeRec)
  /-- R374: Node applies rotary position rotation to row pairs. -/
  | rope (f : NodeRec)
  -- sequencer commands (C-form)
  /-- R308: Transfer to a computed act. -/
  | jmp (f : CmdRec)
  /-- R308: Conditional transfer to an act, otherwise as NEXT. -/
  | br (f : CmdRec)
  /-- R308: Command pushes an act number onto the return stack. -/
  | call (f : CmdRec)
  /-- R308: Command pops the return stack into a register. -/
  | ret (f : CmdRec)
  /-- R303: Command loads a sign-extended immediate. -/
  | li (f : CmdRec)
  /-- R303: Command loads the upper half of a register. -/
  | lih (f : CmdRec)
  /-- R303: Command copies a register. -/
  | mov (f : CmdRec)
  /-- R303: Sequencer 64-bit addition. -/
  | addCmd (f : CmdRec)
  /-- R303: Sequencer 64-bit subtraction. -/
  | subCmd (f : CmdRec)
  /-- R303: Sequencer 64-bit multiplication. -/
  | mulCmd (f : CmdRec)
  /-- R303: Sequencer bitwise AND. -/
  | andCmd (f : CmdRec)
  /-- R303: Sequencer bitwise OR. -/
  | orCmd (f : CmdRec)
  /-- R303: Sequencer bitwise XOR. -/
  | xorCmd (f : CmdRec)
  /-- R303: Sequencer left shift. -/
  | shlCmd (f : CmdRec)
  /-- R303: Sequencer logical right shift. -/
  | shrCmd (f : CmdRec)
  /-- R303: Sequencer arithmetic right shift. -/
  | sarCmd (f : CmdRec)
  /-- R303: Sequencer comparison writing 0 or 1. -/
  | cmpCmd (f : CmdRec)
  /-- R303: Sequencer minimum. -/
  | minCmd (f : CmdRec)
  /-- R303: Sequencer maximum. -/
  | maxCmd (f : CmdRec)
  /-- R305: Sequencer load through a handle. -/
  | lds (f : CmdRec)
  /-- R305: Sequencer store through a handle, performed before the next command. -/
  | sts (f : CmdRec)
  /-- R304: Command reads a system register. -/
  | mfs (f : CmdRec)
  /-- R304: Command writes a system register field by field. -/
  | mts (f : CmdRec)
  /-- R307: Command waits until an event counter reaches a value. -/
  | wait (f : CmdRec)
  /-- R307: Command adds to an event counter indivisibly. -/
  | sig (f : CmdRec)
  /-- R306: Command reads the package nanosecond timer. -/
  | time (f : CmdRec)
  /-- R306: Command reads origin-cell cycles since the region was fused. -/
  | timeCyc (f : CmdRec)
  /-- R306: Command reads a region performance counter. -/
  | perf (f : CmdRec)
  /-- R310: Command creates a region at a free placement and starts its entry act. -/
  | fuse (f : CmdRec)
  /-- R311: Command waits for a fused region to be Free and returns its a1. -/
  | split (f : CmdRec)
  /-- R312: Command loads an act's configuration into the idle bank. -/
  | cfgLoad (f : CmdRec)
  /-- R313: Command starts the act's iteration space and holds until it completes. -/
  | cfgRun (f : CmdRec)
  /-- R312: Command reports the act that choose_act names now. -/
  | cfgNext (f : CmdRec)
  /-- R317: Command installs a launch header and queues threads in thread mode. -/
  | launch (f : CmdRec)
  /-- R314: Command writes one circuit entry of the active bank. -/
  | circ (f : CmdRec)
  /-- R315: Command waits for quiescence. -/
  | quiesce (f : CmdRec)
  /-- R315: Command reads the detector counts without waiting. -/
  | quiesceProbe (f : CmdRec)
  /-- R318: Command saves a sealed region's state and frees it. -/
  | ctxSave (f : CmdRec)
  /-- R318: Command restores a saved region once its placement is free. -/
  | ctxLoad (f : CmdRec)
  /-- R318: Command saves one region and loads an image into its placement indivisibly. -/
  | ctxSwap (f : CmdRec)
  /-- R319: Command binds a handle or its shadow to a buffer. -/
  | bufMap (f : CmdRec)
  /-- R319: Command unbinds a handle or its shadow. -/
  | bufUnmap (f : CmdRec)
  /-- R320: Command reads a word of a capability record. -/
  | cap (f : CmdRec)
  /-- R322: Command writes a stream descriptor. -/
  | strmDef (f : CmdRec)
  /-- R322: Command sets one dimension of a stream. -/
  | strmDim (f : CmdRec)
  /-- R323: Command marks streams to start with the next run. -/
  | strmGo (f : CmdRec)
  /-- R114: Command holds masked streams in the next run until the others drain. -/
  | strmBar (f : CmdRec)
  /-- R323: Command stops streams after their access in progress. -/
  | strmEnd (f : CmdRec)
  /-- R324: Command writes a residency range register, walking changed ways. -/
  | rsv (f : CmdRec)
  /-- R324: Command writes the SAMP field of a range register. -/
  | samp (f : CmdRec)
  /-- R325: Sequencer fence waiting for earlier accesses at a scope. -/
  | fenceCmd (f : CmdRec)
  /-- R325: Command writes back modified vault copies of a range. -/
  | flush (f : CmdRec)
  /-- R325: Command writes back and invalidates vault copies of a range. -/
  | inv (f : CmdRec)
  /-- R117: Command sets the full bits of a scratch range, releasing waiters. -/
  | feFill (f : CmdRec)
  /-- R117: Command clears the full bits of a scratch range, releasing waiters. -/
  | feEmpty (f : CmdRec)
  /-- R325: Command requests a range into the hall's cache ways. -/
  | pref (f : CmdRec)
  /-- R77: Command declares an unchecked fold. -/
  | fold (f : CmdRec)
  /-- R90: Command checks a fold's lattice and writes the result code. -/
  | foldchk (f : CmdRec)
  /-- R94: Command moves a live fold's occupants to a new lattice. -/
  | refold (f : CmdRec)
  /-- R97: Command reads a fold's occupancy counts. -/
  | nstat (f : CmdRec)
  /-- R98: Command retires a statement's fold. -/
  | ndrop (f : CmdRec)
  /-- R96: Command writes a name Full, stalling while the slot is occupied. -/
  | nseed (f : CmdRec)
  /-- R328: Engine command copies bytes between buffers. -/
  | copy (f : CmdRec)
  /-- R328: Engine command copies bytes into a handle's shadow. -/
  | copySh (f : CmdRec)
  /-- R329: Command exchanges a handle with its shadow and raises its version. -/
  | publ (f : CmdRec)
  /-- R330: Engine command copies words and sends each as a token. -/
  | mcast (f : CmdRec)
  /-- R331: Command joins packages into a ring once all have opened it. -/
  | ringOpen (f : CmdRec)
  /-- R332: Engine command sends a slot to the ring successor. -/
  | ringPut (f : CmdRec)
  /-- R332: Command returns a slot credit and waits for the next filled slot. -/
  | ringTake (f : CmdRec)
  /-- R333: Engine command all-reduce sum over a ring. -/
  | collSum (f : CmdRec)
  /-- R333: Engine command all-reduce maximum. -/
  | collMax (f : CmdRec)
  /-- R333: Engine command all-reduce minimum. -/
  | collMin (f : CmdRec)
  /-- R333: Engine command reduce-scatter. -/
  | collRs (f : CmdRec)
  /-- R333: Engine command all-gather. -/
  | collAg (f : CmdRec)
  /-- R333: Engine command broadcast. -/
  | collBc (f : CmdRec)
  /-- R334: Command waits for an engine ticket to complete. -/
  | ewait (f : CmdRec)
  /-- R334: Command stops an engine ticket after its granule in progress. -/
  | ecancel (f : CmdRec)
  /-- R360: Command claims a plinth and slots all or nothing. -/
  | claim (f : CmdRec)
  /-- R360: Command releases a plinth or slots, zeroing them. -/
  | release (f : CmdRec)
  /-- R361: Command loads a B packet into a vitrine slot. -/
  | opld (f : CmdRec)
  /-- R362: Command sets a plinth's mode. -/
  | mxCfg (f : CmdRec)
  /-- R368: Command writes a route-table entry. -/
  | mxRoute (f : CmdRec)
  /-- R363: Command arms a drain target on a KEEP-mode plinth. -/
  | mxGo (f : CmdRec)
  /-- R363: Command waits for armed drain writes and disarms the target. -/
  | mxStop (f : CmdRec)
  /-- R375: Command creates a gallery and binds its three streams. -/
  | galOpen (f : CmdRec)
  /-- R376: Command waits for idle and closes a gallery. -/
  | galClose (f : CmdRec)
  /-- R177: Command appends positions computed in place. -/
  | galAppend (f : CmdRec)
  /-- R183: Command inserts a registry entry and starts a limit-shift wave. -/
  | splice (f : CmdRec)
  /-- R184: Command removes positions at and beyond p by a wave. -/
  | galCut (f : CmdRec)
  /-- R377: Command registers a document version. -/
  | prov (f : CmdRec)
  /-- R377: Command revokes a document version. -/
  | provRev (f : CmdRec)
  /-- R378: Command hands a spliced segment to its conservator. -/
  | repair (f : CmdRec)
  /-- R378: Command waits until a repair has made its segment Live. -/
  | repairWait (f : CmdRec)
  /-- R379: Command binds a layer handle to a cast. -/
  | deltaBind (f : CmdRec)
  /-- R194: Command runs the delta engine incrementally or fully on a cast. -/
  | deltaRun (f : CmdRec)
  /-- R195: Command makes a cast Cold. -/
  | deltaRef (f : CmdRec)
  /-- R195: Command unbinds and scrubs a cast. -/
  | deltaInv (f : CmdRec)
  /-- R195: Command reads a delta counter. -/
  | deltaStat (f : CmdRec)
  /-- R335: Command raises the program trap. -/
  | trap (f : CmdRec)
  /-- R404: Handler end: the held issue or command issues again. -/
  | tretRetry (f : CmdRec)
  /-- R335: Command fences at system scope and raises an MSI-X vector. -/
  | sysc (f : CmdRec)
  /-- R336: Guest places a hypervisor call and waits for the reply. -/
  | hcall (f : CmdRec)
  /-- R336: Service sequencer takes the oldest untaken call. -/
  | hcallTake (f : CmdRec)
  /-- R336: Service sequencer reads a caller's argument. -/
  | hcallArg (f : CmdRec)
  /-- R336: Service sequencer replies to a call and frees its entry. -/
  | hcallRet (f : CmdRec)
  /-- R206: Privileged tier-2 freeze of a region to a save slot. -/
  | freeze (f : CmdRec)
  /-- R337: Privileged restore of a region from a save slot. -/
  | thaw (f : CmdRec)
  /-- R204: Privileged tier-1 snapshot by markers. -/
  | snap (f : CmdRec)
  /-- R200: Privileged definition of a wing rectangle, scrubbing its halls. -/
  | wingDef (f : CmdRec)
  /-- R200: Privileged release of a wing. -/
  | wingDefRel (f : CmdRec)
  /-- R200: Privileged writing of a wing's routes and filters, opening its ports. -/
  | wingRoute (f : CmdRec)
  /-- R201: Privileged binding of a virtual function to a wing. -/
  | vfBind (f : CmdRec)
  /-- R201: Privileged unbinding of a virtual function after releasing its contexts. -/
  | vfBindRel (f : CmdRec)
  /-- R338: Privileged bulk scrub of ownerless frames into the clean pool. -/
  | scrub (f : CmdRec)
  /-- R339: Command appends a firmware note to the registrar. -/
  | audit (f : CmdRec)
  /-- R303: Command does nothing. -/
  | nop
  /-- R309: Command waits for fused regions to be Free, then frees the region and scrubs it. -/
  | halt
  /-- R308: Transfer to the next act, or to the block scheduler's choice in thread mode. -/
  | next
  /-- R312: Command waits for quiescence and seals the region. -/
  | cfgSeal
  /-- R404: Handler end: held lanes emit final poison. -/
  | tretPoison
  /-- R404: Handler end: poison and discard of the held lanes' invocations. -/
  | tretDiscard
  /-- R404: Handler end: region fault. -/
  | tretAbort
  -- sequence records (Q-form); the fields are in a `SeqRec`
  /-- R258: Sequence record copies a source to a temporary. -/
  | passQ
  /-- R262: Sequence record writes its immediate to a temporary. -/
  | constQ
  /-- R263: Sequence record integer addition. -/
  | addQ
  /-- R263: Sequence record integer subtraction. -/
  | subQ
  /-- R263: Sequence record integer multiplication. -/
  | mulQ
  /-- R264: Sequence record high product. -/
  | mulhQ
  /-- R263: Sequence record integer multiply-add. -/
  | madQ
  /-- R265: Sequence record integer division. -/
  | divQ
  /-- R265: Sequence record integer remainder. -/
  | remQ
  /-- R263: Sequence record integer minimum. -/
  | minQ
  /-- R263: Sequence record integer maximum. -/
  | maxQ
  /-- R263: Sequence record absolute value. -/
  | absQ
  /-- R263: Sequence record negation. -/
  | negQ
  /-- R266: Sequence record bitwise AND. -/
  | andQ
  /-- R266: Sequence record bitwise OR. -/
  | orQ
  /-- R266: Sequence record bitwise XOR. -/
  | xorQ
  /-- R266: Sequence record bitwise complement. -/
  | notQ
  /-- R267: Sequence record left shift. -/
  | shlQ
  /-- R267: Sequence record logical right shift. -/
  | shrQ
  /-- R267: Sequence record arithmetic right shift. -/
  | sarQ
  /-- R266: Sequence record rotate left. -/
  | rotlQ
  /-- R266: Sequence record leading-zero count. -/
  | clzQ
  /-- R266: Sequence record population count. -/
  | popcQ
  /-- R268: Sequence record bit-field extract. -/
  | bfxQ
  /-- R268: Sequence record bit-field insert. -/
  | bfiQ
  /-- R269: Sequence record selects by bit 0 of qc. -/
  | selQ
  /-- R269: Sequence record integer comparison. -/
  | cmpQ
  /-- R270: Sequence record reads a field of tg's identifier. -/
  | idxQ
  /-- R270: Sequence record reads half of tg's identifier. -/
  | widQ
  /-- R271: Sequence record floating addition. -/
  | faddQ
  /-- R271: Sequence record floating subtraction. -/
  | fsubQ
  /-- R271: Sequence record floating multiplication. -/
  | fmulQ
  /-- R271: Sequence record fused multiply-add. -/
  | ffmaQ
  /-- R272: Sequence record floating minimum. -/
  | fminQ
  /-- R272: Sequence record floating maximum. -/
  | fmaxQ
  /-- R272: Sequence record floating absolute value. -/
  | fabsQ
  /-- R272: Sequence record floating negation. -/
  | fnegQ
  /-- R271: Sequence record floating comparison. -/
  | fcmpQ
  /-- R273: Sequence record floating conversion. -/
  | fcvtQ
  /-- R273: Sequence record integer-to-floating conversion. -/
  | itofQ
  /-- R273: Sequence record floating-to-integer conversion. -/
  | ftoiQ
  /-- R275: Sequence record 2^x. -/
  | exp2Q
  /-- R275: Sequence record log2. -/
  | log2Q
  /-- R275: Sequence record reciprocal. -/
  | rcpQ
  /-- R275: Sequence record reciprocal square root. -/
  | rsqQ
  /-- R275: Sequence record square root. -/
  | sqrtQ
  /-- R275: Sequence record sine and cosine into two temporaries. -/
  | sincosQ
  /-- R275: Sequence record hyperbolic tangent. -/
  | tanhQ
  /-- R274: Sequence record round to integral. -/
  | frndQ
  /-- R274: Sequence record scale by a power of two. -/
  | fscaleQ
  /-- R274: Sequence record classification. -/
  | fclassQ
  /-- R276: Sequence record predicate negation. -/
  | pnotQ
  /-- R276: Sequence record predicate AND. -/
  | pandQ
  /-- R276: Sequence record predicate OR. -/
  | porQ
  /-- R276: Sequence record predicate XOR. -/
  | pxorQ
  /-- R285: Sequence record sends a data token to the FIRE node's da or db once a place is free. -/
  | emit
  /-- R285: Sequence record sends a predicate token to the FIRE node's da or db. -/
  | emitp
  -- steps of the device's own agents and inputs from outside (no encoding); the data is in an `Input`
  /-- R214: PF allocation command assigns a clean frame to a wing, waiting while the pool is empty. -/
  | fralloc
  /-- R214: PF allocation command removes a frame's owner and queues it for scrub. -/
  | frfree
  /-- R213: Host write of MBCTL.GO places the root region and starts the root launch. -/
  | go
  /-- R106: Host write of TINV starts a translation invalidation. -/
  | tinv
  /-- R106: An invalidation completes when no cache or walk can hold a covered entry. -/
  | translationInvalidationDone
  /-- R212: Host write of a BAR0 register that has no behaviour of its own. -/
  | registerWrite
  /-- R435: Host write-one-to-clear of SCRUBST.RESCRUB. -/
  | rescrubClear
  /-- R435: Host advances the error-ring consumer index. -/
  | errptrConsumerWrite
  /-- R222: Host acknowledges exported registrar entries, freeing buffer space. -/
  | registrarConsumerAdvance
  /-- R222: Registrar exports the next buffered entry to the host ring. -/
  | registrarExport
  /-- R217: Assertion of power-good starts measured boot, wipe and hall release. -/
  | powerGood
  /-- R219: Life-cycle state advances, wiping memories and logging. -/
  | lifeCycleTransition
  /-- R218: Curator signs an attestation report over measurements and a nonce. -/
  | attestationReport
  /-- R30: A hall sensor reading sets the hall's clock ceiling. -/
  | hallTemperatureReading
  /-- R461: A hall sensor at or above 105 °C stops the hall's clock. -/
  | thermalHold
  /-- R461: Both sensors below 100 °C; the clock resumes at 0.9 GHz. -/
  | thermalHoldEnd
  /-- R461: An HBM stack at or above 95 °C halves its bandwidth. -/
  | hbmThrottle
  /-- R461: An HBM stack below 90 °C returns to full bandwidth. -/
  | hbmThrottleEnd
  /-- R461: A trip temperature asserts THERMTRIP and all state is lost. -/
  | thermtrip
  /-- R198: End of a 65,536-cycle window changes the hall clock by at most one step. -/
  | dvfsWindowEnd
  /-- R198: A 1 µs clock step change completes. -/
  | clockStepEnd
  /-- R202: A slice's home-hall cycle count expires; the virtual function is pre-empted. -/
  | sliceEnd
  /-- R202: A slice's wall-time cap expires; remaining cycles go to FORF. -/
  | sliceWallCap
  /-- R67: Every 64 origin-cell cycles the detector scans its four counts. -/
  | quiescenceScan
  /-- R417: Silence timer reaches SILLIM with no external request: deadlock record and region fault. -/
  | silenceExpiry
  /-- R417: Silence timer reaches MEMLIM with external requests outstanding: record and restart. -/
  | memoryWaitExpiry
  /-- R419: A waiting sequencer command reaches MEMLIM and writes a record. -/
  | sequencerWaitExpiry
  /-- R455: A tier-1 snapshot not sealed within PTMO escalates to a freeze. -/
  | snapshotTimeout
  /-- R209: A pre-emption's 20 µs wait for a CTX.SWAP expires and it proceeds. -/
  | swapWaitExpiry
  /-- R56: Each cycle a cell chooses a context and gathers and issues instances of one node. -/
  | cellIssue
  /-- R47: A token reaches a node port and is stored, matched or fires the node. -/
  | tokenArrival
  /-- R50: A freed frame entry reinjects the lowest-tag queued token of its cell and context. -/
  | overflowReinject
  /-- R25: A token packet arrives at a mesh port and is accepted or discarded by wing. -/
  | meshPacketArrival
  /-- R68: Receiving region's acknowledgement lets the sender count a token consumed. -/
  | handoverAck
  /-- R52: A full elastic buffer gains a place and a held producer may fire. -/
  | bufferPlaceFree
  /-- R60: The iteration counter steps, draws a tag and starts an iteration. -/
  | counterStep
  /-- R388: An act admits a thread, binds a tag and sends its index tokens. -/
  | threadAdmit
  /-- R40: A configuration load into the idle bank ends. -/
  | configLoadEnd
  /-- R69: The space is exhausted and the region quiescent; CFG.RUN returns. -/
  | runComplete
  /-- R44: At a run's end the block scheduler chooses the next act. -/
  | blockSchedulerDecision
  /-- R71: A done tile invocation commits its held stores and names at one point. -/
  | invocationCommit
  /-- R130: A memory request is answered and its tokens are emitted. -/
  | memoryAccessComplete
  /-- R105: A page walk completes, filling translation caches or faulting. -/
  | translationWalkComplete
  /-- R110: The way-change walker finishes and the way takes its new use. -/
  | wayChangeWalkEnd
  /-- R122: Back-invalidate snoop invalidating all vault copies. -/
  | bisnpinv
  /-- R122: Back-invalidate snoop downgrading vault copies to Shared. -/
  | bisnpdata
  /-- R122: Back-invalidate snoop writing back a Modified copy. -/
  | bisnpcur
  /-- R112: A stream's address generator issues its next element access. -/
  | streamAccess
  /-- R114: A barrier lifts once the other streams have drained. -/
  | streamBarrierLift
  /-- R113: A stream's last access performs and it sends its finish bit. -/
  | streamDrained
  /-- R178: A request-stream token enters the head link as a block read. -/
  | galleryBlockRead
  /-- R185: A block read reaches a link and is forwarded, renumbered, served or made to wait. -/
  | galleryReadAtLink
  /-- R184: A splice or cut wave makes its indivisible update at the next link. -/
  | limitShiftWave
  /-- R188: All threads of a repair layer retire; the conservator copies, selects and starts the next layer. -/
  | repairLayerDone
  /-- R390: A staging copy performs and WMARK is raised, releasing waiting reads. -/
  | repairCopyDone
  /-- R447: A repair is cancelled and its segment becomes Stale. -/
  | repairCancel
  /-- R196: A delta run ends, the cast becomes Warm and the next queued run starts. -/
  | deltaRunEnd
  /-- R301: An engine command finishes its writes and its ticket completes. -/
  | engineCommandComplete
  /-- R450: An engine command faults and its ticket ends in error. -/
  | engineCommandFault
  /-- R192: A ring send fills a receive slot at the successor. -/
  | ringSlotFilled
  /-- R192: A returned slot count raises the sender's free count. -/
  | ringCreditReturn
  /-- R452: A ring loses a member; its pending operations end in error. -/
  | ringBreak
  /-- R204: A marker arrives at a cell; when all inputs have one the cell saves and forwards markers. -/
  | markerArrival
  /-- R216: Release scrubbing completes and a registrar entry is written. -/
  | contextScrubComplete
  /-- R215: A scrub engine takes the next frame from the scrub queue. -/
  | frameScrubStart
  /-- R215: A frame scrub finishes and the frame joins the clean pool or is rescrubbed. -/
  | frameScrubDone
  /-- R439: A targeted self-test ends, marking the error transient or lasting. -/
  | selfTestEnd
  /-- R445: An annex port fails to train, goes down or signals viral; its lines are quarantined. -/
  | annexPortLost
  /-- R445: An annex request unanswered for 2 ms loses its port. -/
  | annexRequestTimeout
  /-- R446: The PF retrains a lost annex port and new accesses proceed. -/
  | annexPortRetrain
  /-- R224: A flit arrives on a Xipex link and is delivered or forwarded. -/
  | xipexFlitReceive
  /-- R451: A flit fails its CRC and is retried, retraining after 16 retries. -/
  | xipexCrcError
  /-- R451: Training fails three times and the link is down. -/
  | xipexLinkDown
  /-- R453: Uncorrectable error or surprise down on the host link fails host-window requests. -/
  | hostLinkError
  /-- R453: A host-window completion times out after 50 ms. -/
  | hostCompletionTimeout
  /-- R453: A VF function-level reset releases its contexts and clears MBCTL. -/
  | functionLevelReset
  /-- R453: A reset of the physical function releases every wing. -/
  | pfReset
  /-- R454: Uncorrected error in a routing table closes the hall's ports. -/
  | routeTableError
  /-- R211: The host reads or writes an HBM range exposed as HDM-H over the host port's CXL.mem. -/
  | hostCxlMemAccess
  /-- R360: The zeroing of a released vitrine slot ends, and any CLAIM waiting on that slot proceeds. -/
  | slotZeroingEnd
  /-- R453: The host link returns after a failure, and the waiting MSI-X messages, registrar exports and error-ring writes proceed. -/
  | hostLinkUp
  /-- R451: A Xipex link finishes retraining: the link comes up, or the attempt counts toward a down link, or a failed loopback self-test retires the link. -/
  | xipexRetrainEnd
  /-- R220: A tenant key is loaded, and a registrar entry of KIND 0x06 is written. -/
  | keyLoaded
  deriving DecidableEq, Repr, Inhabited

end Sys2Proof
end

