-- ==== Sys2Proof/Machine/Admit.lean ====
section
/-! DEFINITION. Which field values each record admits (R229, R230, R232, R234 to R237, R242, R256,
R259 and the tables of the instruction reference). A node or sequence record outside these is refused
at load with reason 5, and a command record outside them is ILLREC (R416). -/
namespace Sys2Proof.Machine

/-- The code of a type (R234). -/
def tyCode : Ty → Nat
  | .i32 => 0 | .n32 => 1 | .i16 => 2 | .n16 => 3 | .i8 => 4 | .n8 => 5 | .f32 => 6 | .bf16 => 7
  | .f16 => 8 | .f8e4 => 9 | .f8e5 => 10 | .qn4 => 11 | .pred => 12 | .csa => 13 | .tile => 14
  | .untyped => 15

/-- The type of a 4-bit code (R234). -/
def tyOfCode : Nat → Ty
  | 0 => .i32 | 1 => .n32 | 2 => .i16 | 3 => .n16 | 4 => .i8 | 5 => .n8 | 6 => .f32 | 7 => .bf16
  | 8 => .f16 | 9 => .f8e4 | 10 => .f8e5 | 11 => .qn4 | 12 => .pred | 13 => .csa | 14 => .tile
  | _ => .untyped

/-- The integer types, ty 0 to 5 (R146). -/
def ints : List Ty := [.i32, .n32, .i16, .n16, .i8, .n8]
/-- The floating types, ty 6 to 10 (R148). -/
def floats : List Ty := [.f32, .bf16, .f16, .f8e4, .f8e5]
/-- The types of the special functions (R170). -/
def special : List Ty := [.f32, .bf16, .f16]
/-- ty 0 to 10. -/
def numbers : List Ty := ints ++ floats
/-- ty 0 to 12. -/
def scalars : List Ty := numbers ++ [.qn4, .pred]
/-- ty 0 to 12 and 14 (R262, R286, R341). -/
def scalarsTile : List Ty := scalars ++ [.tile]
/-- ty 0 to 10 and 14. -/
def numbersTile : List Ty := numbers ++ [.tile]
/-- ty 6 to 10 and 14. -/
def floatsTile : List Ty := floats ++ [.tile]
/-- The types of LD and ST (R289). -/
def memTypes : List Ty := numbers ++ [.tile]
/-- The types of LDFE, STFE, NRD and NWR (R289, R296). -/
def feTypes : List Ty := [.i32, .n32, .f32, .tile]
/-- The types of CAS and of AMO min, max and swap (R289, R293). -/
def amoTypes : List Ty := [.i32, .n32, .f32]
/-- The types of LDS and STS (R305). -/
def seqTypes : List Ty := ints ++ [.f32, .untyped]

/-- Which md values a record admits (R235, R236, R259). -/
inductive MdRule where
  | zero | sat | round | intCond | floatCond | norm | tyCond | tySum | tyCvt | tileSub | one | two
  deriving DecidableEq, Repr

/-- How a record uses lit (R237, R256). -/
inductive LitRule where
  | operand | typed | any | zero | low16 | name | topk | bcast | drain
  deriving DecidableEq, Repr

/-- Which of da and db a node may use. -/
inductive DestRule where
  | both | first | nowhere
  deriving DecidableEq, Repr

/-- How a sequence record uses im besides as a source (R258). -/
inductive ImRule where
  | sourceOnly | typed | level | half | source
  deriving DecidableEq, Repr

/-- What a node record admits: its opcode, types, md, required and optional ports, literal selects,
the use of lit, the bits of ax[5:0] and ex it names, whether it must have gather limit 1, its
destinations, and the bits that tell rows of one opcode apart. -/
structure NodeRule where
  op : Nat
  tys : List Ty
  md : MdRule
  ports : List Nat
  opt : List Nat := []
  lits : Option (List LitSel) := none
  lit : LitRule := .operand
  ax : Nat := 0
  ex : Nat := 0
  single : Bool := false
  dests : DestRule := .both
  axSel : Nat × Nat := (0, 0)
  exSel : Nat × Nat := (0, 0)
  deriving Repr

/-- What a sequence record admits. -/
structure SeqRule where
  op : Nat
  tys : List Ty
  md : MdRule
  arity : Nat
  im : ImRule := .sourceOnly
  emits : Bool := false
  deriving Repr

/-- What a command record admits: its opcode, which registers it names, the bits of ext and imm it
names, its types and md, and the bits that tell rows of one opcode apart. -/
structure CmdRule where
  op : Nat
  d : Bool := false
  s : Bool := false
  t : Bool := false
  ext : Nat := 0
  imm : Nat := 0
  tys : List Ty := [.untyped]
  md : MdRule := .zero
  extSel : Nat × Nat := (0, 0)
  immSel : Nat × Nat := (0, 0)
  mdSel : Nat × Nat := (0, 0)
  deriving Repr

/-- The rule of each node record, from the tables of R262 to R296 and R346 to R369; `none` for every
other constructor. -/
def nodeRule : Instr → Option (NodeRec × NodeRule)
  | .pass f => some (f, { op := 0x00, tys := scalarsTile, md := .zero, ports := [0] })
  | .const f => some (f, { op := 0x01, tys := scalars, md := .zero, ports := [0], lit := .typed })
  | .sink f => some (f, { op := 0x02, tys := [.untyped], md := .zero, ports := [0], opt := [1, 2], dests := .nowhere })
  | .join f => some (f, { op := 0x03, tys := [.untyped], md := .zero, ports := [0, 1], opt := [2] })
  | .add f => some (f, { op := 0x04, tys := ints, md := .sat, ports := [0, 1] })
  | .sub f => some (f, { op := 0x05, tys := ints, md := .sat, ports := [0, 1] })
  | .mul f => some (f, { op := 0x06, tys := ints, md := .sat, ports := [0, 1] })
  | .mulh f => some (f, { op := 0x07, tys := ints, md := .zero, ports := [0, 1] })
  | .mad f => some (f, { op := 0x08, tys := ints, md := .sat, ports := [0, 1, 2] })
  | .div f => some (f, { op := 0x09, tys := ints, md := .sat, ports := [0, 1] })
  | .rem f => some (f, { op := 0x0A, tys := ints, md := .zero, ports := [0, 1] })
  | .min f => some (f, { op := 0x0B, tys := ints, md := .zero, ports := [0, 1] })
  | .max f => some (f, { op := 0x0C, tys := ints, md := .zero, ports := [0, 1] })
  | .abs f => some (f, { op := 0x0D, tys := ints, md := .sat, ports := [0] })
  | .neg f => some (f, { op := 0x0E, tys := ints, md := .sat, ports := [0] })
  | .and f => some (f, { op := 0x10, tys := ints, md := .zero, ports := [0, 1] })
  | .or f => some (f, { op := 0x11, tys := ints, md := .zero, ports := [0, 1] })
  | .xor f => some (f, { op := 0x12, tys := ints, md := .zero, ports := [0, 1] })
  | .not f => some (f, { op := 0x13, tys := ints, md := .zero, ports := [0] })
  | .shl f => some (f, { op := 0x14, tys := ints, md := .sat, ports := [0, 1] })
  | .shr f => some (f, { op := 0x15, tys := ints, md := .zero, ports := [0, 1] })
  | .sar f => some (f, { op := 0x16, tys := ints, md := .zero, ports := [0, 1] })
  | .rotl f => some (f, { op := 0x17, tys := ints, md := .zero, ports := [0, 1] })
  | .clz f => some (f, { op := 0x18, tys := ints, md := .zero, ports := [0] })
  | .popc f => some (f, { op := 0x19, tys := ints, md := .zero, ports := [0] })
  | .bfx f => some (f, { op := 0x1A, tys := ints, md := .zero, ports := [0, 1] })
  | .bfi f => some (f, { op := 0x1B, tys := ints, md := .zero, ports := [0, 1, 2] })
  | .sel f => some (f, { op := 0x1C, tys := scalars, md := .zero, ports := [0, 1, 3] })
  | .cmp f => some (f, { op := 0x1D, tys := ints, md := .intCond, ports := [0, 1] })
  | .idx f => some (f, { op := 0x1E, tys := [.n32], md := .zero, ports := [0], lit := .any, ax := 0x7 })
  | .wid f => some (f, { op := 0x1F, tys := [.n32], md := .zero, ports := [0], lit := .zero, ax := 0x1 })
  | .fadd f => some (f, { op := 0x20, tys := floats, md := .round, ports := [0, 1] })
  | .fsub f => some (f, { op := 0x21, tys := floats, md := .round, ports := [0, 1] })
  | .fmul f => some (f, { op := 0x22, tys := floats, md := .round, ports := [0, 1] })
  | .ffma f => some (f, { op := 0x23, tys := floats, md := .round, ports := [0, 1, 2] })
  | .fmin f => some (f, { op := 0x24, tys := floats, md := .round, ports := [0, 1] })
  | .fmax f => some (f, { op := 0x25, tys := floats, md := .round, ports := [0, 1] })
  | .fabs f => some (f, { op := 0x26, tys := floats, md := .round, ports := [0] })
  | .fneg f => some (f, { op := 0x27, tys := floats, md := .round, ports := [0] })
  | .fcmp f => some (f, { op := 0x28, tys := floats, md := .floatCond, ports := [0, 1] })
  | .fcvt f => some (f, { op := 0x29, tys := floats, md := .round, ports := [0], ex := 0xF })
  | .itof f => some (f, { op := 0x2A, tys := floats, md := .round, ports := [0], ex := 0xF })
  | .ftoi f => some (f, { op := 0x2B, tys := ints, md := .round, ports := [0], ex := 0xF })
  | .exp2 f => some (f, { op := 0x2C, tys := special, md := .round, ports := [0] })
  | .log2 f => some (f, { op := 0x2D, tys := special, md := .round, ports := [0] })
  | .rcp f => some (f, { op := 0x2E, tys := special, md := .round, ports := [0] })
  | .rsq f => some (f, { op := 0x2F, tys := special, md := .round, ports := [0] })
  | .sqrt f => some (f, { op := 0x30, tys := special, md := .round, ports := [0] })
  | .sincos f => some (f, { op := 0x31, tys := special, md := .round, ports := [0] })
  | .tanh f => some (f, { op := 0x32, tys := special, md := .round, ports := [0] })
  | .frnd f => some (f, { op := 0x33, tys := floats, md := .round, ports := [0] })
  | .fscale f => some (f, { op := 0x34, tys := floats, md := .round, ports := [0, 1] })
  | .fclass f => some (f, { op := 0x35, tys := floats, md := .zero, ports := [0] })
  | .steer f => some (f, { op := 0x40, tys := scalarsTile, md := .zero, ports := [0, 3] })
  | .merge f => some (f, { op := 0x41, tys := scalarsTile, md := .zero, ports := [0, 1] })
  | .cmerge f => some (f, { op := 0x42, tys := scalarsTile, md := .zero, ports := [0, 1, 3] })
  | .gate f => some (f, { op := 0x43, tys := scalarsTile, md := .zero, ports := [0, 3] })
  | .pnot f => some (f, { op := 0x44, tys := [.pred], md := .zero, ports := [0] })
  | .pand f => some (f, { op := 0x45, tys := [.pred], md := .zero, ports := [0, 1] })
  | .por f => some (f, { op := 0x46, tys := [.pred], md := .zero, ports := [0, 1] })
  | .pxor f => some (f, { op := 0x47, tys := [.pred], md := .zero, ports := [0, 1] })
  | .tagnew f => some (f, { op := 0x48, tys := scalars, md := .zero, ports := [0], ax := 0xF })
  | .tagret f => some (f, { op := 0x49, tys := scalars, md := .zero, ports := [0, 1], ax := 0xF })
  | .tagset f => some (f, { op := 0x4A, tys := scalars, md := .zero, ports := [0, 1] })
  | .tagget f => some (f, { op := 0x4B, tys := [.n32], md := .zero, ports := [0] })
  | .count f => some (f, { op := 0x4C, tys := [.n32], md := .zero, ports := [0], lit := .any })
  | .init f => some (f, { op := 0x4D, tys := scalars, md := .zero, ports := [], lit := .typed, ex := 0xFFF })
  | .fire f => some (f, { op := 0x4E, tys := [.untyped], md := .zero, ports := [], opt := [0, 1, 2], ex := 0x1FF })
  | .order f => some (f, { op := 0x4F, tys := scalarsTile, md := .zero, ports := [0, 1] })
  | .done f => some (f, { op := 0x50, tys := [.n32], md := .zero, ports := [0], dests := .nowhere })
  | .trapn f => some (f, { op := 0x51, tys := scalars, md := .zero, ports := [0], lit := .low16, dests := .nowhere })
  | .ptest f => some (f, { op := 0x52, tys := [.n32], md := .zero, ports := [3] })
  | .ld f => some (f, { op := 0x60, tys := memTypes, md := .zero, ports := [0], opt := [1], ex := 0xFF })
  | .st f => some (f, { op := 0x61, tys := memTypes, md := .zero, ports := [0, 1], opt := [2], ex := 0xFF })
  | .ldfeTake f => some (f, { op := 0x62, tys := feTypes, md := .zero, ports := [0], opt := [1], ax := 0x8, ex := 0xFF, axSel := (0x8, 0x8) })
  | .ldfePeek f => some (f, { op := 0x62, tys := feTypes, md := .zero, ports := [0], opt := [1], ex := 0xFF, axSel := (0x8, 0x0) })
  | .stfe f => some (f, { op := 0x63, tys := feTypes, md := .zero, ports := [0, 1], opt := [2], ex := 0xFF, axSel := (0x10, 0x0) })
  | .stfeOvw f => some (f, { op := 0x63, tys := feTypes, md := .zero, ports := [0, 1], opt := [2], ax := 0x10, ex := 0xFF, axSel := (0x10, 0x10) })
  | .amoAdd f => some (f, { op := 0x64, tys := [.i32, .n32], md := .zero, ports := [0, 1], opt := [2], ex := 0xFFF, exSel := (0xF00, 0x0) })
  | .amoAnd f => some (f, { op := 0x64, tys := [.i32, .n32], md := .zero, ports := [0, 1], opt := [2], ex := 0xFFF, exSel := (0xF00, 0x100) })
  | .amoOr f => some (f, { op := 0x64, tys := [.i32, .n32], md := .zero, ports := [0, 1], opt := [2], ex := 0xFFF, exSel := (0xF00, 0x200) })
  | .amoXor f => some (f, { op := 0x64, tys := [.i32, .n32], md := .zero, ports := [0, 1], opt := [2], ex := 0xFFF, exSel := (0xF00, 0x300) })
  | .amoMin f => some (f, { op := 0x64, tys := amoTypes, md := .zero, ports := [0, 1], opt := [2], ex := 0xFFF, exSel := (0xF00, 0x400) })
  | .amoMax f => some (f, { op := 0x64, tys := amoTypes, md := .zero, ports := [0, 1], opt := [2], ex := 0xFFF, exSel := (0xF00, 0x500) })
  | .amoSwap f => some (f, { op := 0x64, tys := amoTypes, md := .zero, ports := [0, 1], opt := [2], ex := 0xFFF, exSel := (0xF00, 0x600) })
  | .amoFadd f => some (f, { op := 0x64, tys := [.f32], md := .round, ports := [0, 1], opt := [2], ex := 0xFFF, exSel := (0xF00, 0x700) })
  | .cas f => some (f, { op := 0x65, tys := amoTypes, md := .zero, ports := [0, 1, 2], ex := 0xFF })
  | .fence f => some (f, { op := 0x66, tys := [.untyped], md := .zero, ports := [0], ax := 0x7, single := true })
  | .nrdTake f => some (f, { op := 0x68, tys := feTypes, md := .zero, ports := [0], opt := [1], lit := .name, ax := 0xF, ex := 0xFFF, axSel := (0x8, 0x8) })
  | .nrdPeek f => some (f, { op := 0x68, tys := feTypes, md := .zero, ports := [0], opt := [1], lit := .name, ax := 0x7, ex := 0xFFF, axSel := (0x8, 0x0) })
  | .nwr f => some (f, { op := 0x69, tys := feTypes, md := .zero, ports := [0], opt := [1], lit := .name, ax := 0x7, ex := 0xFFF })
  | .nprobe f => some (f, { op := 0x6A, tys := [.n32], md := .zero, ports := [0], lit := .name, ax := 0x7, ex := 0xFFF })
  | .vmap f => some (f, { op := 0x80, tys := numbersTile, md := .tileSub, ports := [0], lits := some [.port1], ax := 0x10, ex := 0xFF, single := true })
  | .vfma f => some (f, { op := 0x81, tys := floatsTile, md := .round, ports := [0, 1, 2], lits := some [.port1, .port2], ax := 0x10, single := true })
  | .vredSum f => some (f, { op := 0x82, tys := numbers, md := .tySum, ports := [0], lits := some [], ex := 0x7, single := true, exSel := (0x3, 0x0) })
  | .vredMax f => some (f, { op := 0x82, tys := numbersTile, md := .zero, ports := [0], lits := some [], ex := 0x7, single := true, exSel := (0x3, 0x1) })
  | .vredMin f => some (f, { op := 0x82, tys := numbersTile, md := .zero, ports := [0], lits := some [], ex := 0x7, single := true, exSel := (0x3, 0x2) })
  | .vscanSum f => some (f, { op := 0x83, tys := numbers, md := .tySum, ports := [0], lits := some [], ex := 0xF, single := true, exSel := (0x3, 0x0) })
  | .vscanMax f => some (f, { op := 0x83, tys := numbersTile, md := .zero, ports := [0], lits := some [], ex := 0xF, single := true, exSel := (0x3, 0x1) })
  | .vscanMin f => some (f, { op := 0x83, tys := numbersTile, md := .zero, ports := [0], lits := some [], ex := 0xF, single := true, exSel := (0x3, 0x2) })
  | .vcmpm f => some (f, { op := 0x84, tys := numbers, md := .tyCond, ports := [0, 1], lits := some [.port1], ax := 0x10, single := true })
  | .vcompress f => some (f, { op := 0x85, tys := [.tile], md := .zero, ports := [0, 1], lits := some [], ex := 0x4, single := true })
  | .vexpand f => some (f, { op := 0x86, tys := [.tile], md := .zero, ports := [0, 1], opt := [2], lits := some [], ex := 0x4, single := true })
  | .vtopk f => some (f, { op := 0x87, tys := numbers, md := .zero, ports := [0], lits := some [], lit := .topk, single := true, exSel := (0x1, 0x0) })
  | .vtopkIdx f => some (f, { op := 0x87, tys := numbers, md := .zero, ports := [0], lits := some [], lit := .topk, ex := 0x1, single := true, exSel := (0x1, 0x1) })
  | .vsoft f => some (f, { op := 0x88, tys := floats, md := .round, ports := [0], opt := [1], lits := some [], lit := .any, single := true })
  | .vquant f => some (f, { op := 0x89, tys := [.i8, .f8e4, .f8e5], md := .round, ports := [0], lits := some [], single := true })
  | .vdeq f => some (f, { op := 0x8A, tys := special, md := .round, ports := [0], lits := some [], single := true })
  | .vcvt f => some (f, { op := 0x8B, tys := numbers, md := .tyCvt, ports := [0], lits := some [], single := true })
  | .vtransp f => some (f, { op := 0x8C, tys := [.tile], md := .zero, ports := [0], lits := some [], single := true })
  | .vslice f => some (f, { op := 0x8D, tys := [.tile], md := .zero, ports := [0, 1], lits := some [.port1], single := true })
  | .vcat f => some (f, { op := 0x8E, tys := [.tile], md := .zero, ports := [0, 1], lits := some [], ex := 0x4, single := true })
  | .vhdr f => some (f, { op := 0x8F, tys := [.tile], md := .zero, ports := [0], lits := some [], ex := 0x7, single := true, exSel := (0x8, 0x0) })
  | .vhdrSet f => some (f, { op := 0x8F, tys := [.tile], md := .zero, ports := [0, 1], lits := some [.port1], ex := 0xF, single := true, exSel := (0x8, 0x8) })
  | .vbcast f => some (f, { op := 0x90, tys := numbers, md := .zero, ports := [0], lits := some [], lit := .bcast, single := true })
  | .vmaskKeep f => some (f, { op := 0x91, tys := [.tile], md := .zero, ports := [0, 1], lits := some [], lit := .any, ex := 0x3, single := true, exSel := (0x3, 0x0) })
  | .vmaskCausal f => some (f, { op := 0x91, tys := [.tile], md := .zero, ports := [0, 1], lits := some [], lit := .any, ex := 0x3, single := true, exSel := (0x3, 0x1) })
  | .vmaskLength f => some (f, { op := 0x91, tys := [.tile], md := .zero, ports := [0, 1], lits := some [], lit := .any, ex := 0x3, single := true, exSel := (0x3, 0x2) })
  | .mxrow f => some (f, { op := 0xA0, tys := [.tile], md := .zero, ports := [0], lits := some [], ex := 0xFF3, single := true })
  | .mxdrain f => some (f, { op := 0xA1, tys := [.tile], md := .zero, ports := [0], lits := some [], lit := .drain, ex := 0x3, single := true })
  | .mxsteer f => some (f, { op := 0xA2, tys := [.tile], md := .zero, ports := [0, 1], lits := some [.port1], single := true, dests := .nowhere })
  | .score f => some (f, { op := 0xA3, tys := [.f32], md := .zero, ports := [0], lits := some [], lit := .any, ex := 0xF3, single := true })
  | .pair f => some (f, { op := 0xA4, tys := [.tile], md := .zero, ports := [0, 1], lits := some [], single := true, dests := .first })
  | .acc f => some (f, { op := 0xA5, tys := [.tile], md := .zero, ports := [0, 1], lits := some [.port1], ex := 0xFF3, single := true })
  | .norm f => some (f, { op := 0xA6, tys := [.f32], md := .norm, ports := [0], opt := [1], lits := some [], single := true })
  | .rope f => some (f, { op := 0xA7, tys := floatsTile, md := .round, ports := [0], opt := [1], lits := some [], lit := .any, single := true })
  | _ => none

/-- The rule of each sequence record, from the tables of R262 to R276 and R285; `none` for every other
constructor. -/
def seqRule : Instr → Option SeqRule
  | .passQ => some { op := 0x00, tys := scalarsTile, md := .zero, arity := 1 }
  | .constQ => some { op := 0x01, tys := scalars, md := .zero, arity := 0, im := .typed }
  | .addQ => some { op := 0x04, tys := ints, md := .sat, arity := 2 }
  | .subQ => some { op := 0x05, tys := ints, md := .sat, arity := 2 }
  | .mulQ => some { op := 0x06, tys := ints, md := .sat, arity := 2 }
  | .mulhQ => some { op := 0x07, tys := ints, md := .zero, arity := 2 }
  | .madQ => some { op := 0x08, tys := ints, md := .sat, arity := 3 }
  | .divQ => some { op := 0x09, tys := ints, md := .sat, arity := 2 }
  | .remQ => some { op := 0x0A, tys := ints, md := .zero, arity := 2 }
  | .minQ => some { op := 0x0B, tys := ints, md := .zero, arity := 2 }
  | .maxQ => some { op := 0x0C, tys := ints, md := .zero, arity := 2 }
  | .absQ => some { op := 0x0D, tys := ints, md := .sat, arity := 1 }
  | .negQ => some { op := 0x0E, tys := ints, md := .sat, arity := 1 }
  | .andQ => some { op := 0x10, tys := ints, md := .zero, arity := 2 }
  | .orQ => some { op := 0x11, tys := ints, md := .zero, arity := 2 }
  | .xorQ => some { op := 0x12, tys := ints, md := .zero, arity := 2 }
  | .notQ => some { op := 0x13, tys := ints, md := .zero, arity := 1 }
  | .shlQ => some { op := 0x14, tys := ints, md := .sat, arity := 2 }
  | .shrQ => some { op := 0x15, tys := ints, md := .zero, arity := 2 }
  | .sarQ => some { op := 0x16, tys := ints, md := .zero, arity := 2 }
  | .rotlQ => some { op := 0x17, tys := ints, md := .zero, arity := 2 }
  | .clzQ => some { op := 0x18, tys := ints, md := .zero, arity := 1 }
  | .popcQ => some { op := 0x19, tys := ints, md := .zero, arity := 1 }
  | .bfxQ => some { op := 0x1A, tys := ints, md := .zero, arity := 2 }
  | .bfiQ => some { op := 0x1B, tys := ints, md := .zero, arity := 3 }
  | .selQ => some { op := 0x1C, tys := scalars, md := .zero, arity := 3 }
  | .cmpQ => some { op := 0x1D, tys := ints, md := .intCond, arity := 2 }
  | .idxQ => some { op := 0x1E, tys := [.n32], md := .zero, arity := 0, im := .level }
  | .widQ => some { op := 0x1F, tys := [.n32], md := .zero, arity := 0, im := .half }
  | .faddQ => some { op := 0x20, tys := floats, md := .round, arity := 2 }
  | .fsubQ => some { op := 0x21, tys := floats, md := .round, arity := 2 }
  | .fmulQ => some { op := 0x22, tys := floats, md := .round, arity := 2 }
  | .ffmaQ => some { op := 0x23, tys := floats, md := .round, arity := 3 }
  | .fminQ => some { op := 0x24, tys := floats, md := .round, arity := 2 }
  | .fmaxQ => some { op := 0x25, tys := floats, md := .round, arity := 2 }
  | .fabsQ => some { op := 0x26, tys := floats, md := .round, arity := 1 }
  | .fnegQ => some { op := 0x27, tys := floats, md := .round, arity := 1 }
  | .fcmpQ => some { op := 0x28, tys := floats, md := .floatCond, arity := 2 }
  | .fcvtQ => some { op := 0x29, tys := floats, md := .round, arity := 1, im := .source }
  | .itofQ => some { op := 0x2A, tys := floats, md := .round, arity := 1, im := .source }
  | .ftoiQ => some { op := 0x2B, tys := ints, md := .round, arity := 1, im := .source }
  | .exp2Q => some { op := 0x2C, tys := special, md := .round, arity := 1 }
  | .log2Q => some { op := 0x2D, tys := special, md := .round, arity := 1 }
  | .rcpQ => some { op := 0x2E, tys := special, md := .round, arity := 1 }
  | .rsqQ => some { op := 0x2F, tys := special, md := .round, arity := 1 }
  | .sqrtQ => some { op := 0x30, tys := special, md := .round, arity := 1 }
  | .sincosQ => some { op := 0x31, tys := special, md := .round, arity := 1 }
  | .tanhQ => some { op := 0x32, tys := special, md := .round, arity := 1 }
  | .frndQ => some { op := 0x33, tys := floats, md := .round, arity := 1 }
  | .fscaleQ => some { op := 0x34, tys := floats, md := .round, arity := 2 }
  | .fclassQ => some { op := 0x35, tys := floats, md := .zero, arity := 1 }
  | .pnotQ => some { op := 0x44, tys := [.pred], md := .zero, arity := 1 }
  | .pandQ => some { op := 0x45, tys := [.pred], md := .zero, arity := 2 }
  | .porQ => some { op := 0x46, tys := [.pred], md := .zero, arity := 2 }
  | .pxorQ => some { op := 0x47, tys := [.pred], md := .zero, arity := 2 }
  | .emit => some { op := 0xC0, tys := numbers, md := .zero, arity := 1, emits := true }
  | .emitp => some { op := 0xC1, tys := [.pred], md := .zero, arity := 1, emits := true }
  | _ => none

/-- The fields of a command that names no operand: only md may differ from zero (R404). -/
def bareCmd (md : Nat) : CmdRec :=
  { ty := .untyped, md := BitVec.ofNat 4 md, d := 0, s := 0, t := 0, ext := 0, imm := 0 }

/-- The rule of each sequencer command, from R303 to R339 and R360 to R381; `none` for every other
constructor. -/
def cmdRule : Instr → Option (CmdRec × CmdRule)
  | .nop => some (bareCmd 0, { op := 0x00 })
  | .halt => some (bareCmd 0, { op := 0x01 })
  | .jmp f => some (f, { op := 0x02, s := true, imm := 0xFFFFFFFF })
  | .br f => some (f, { op := 0x03, s := true, t := true, imm := 0xFF, tys := [.i32, .n32], md := .intCond })
  | .call f => some (f, { op := 0x04, imm := 0xFF })
  | .ret f => some (f, { op := 0x05, d := true })
  | .li f => some (f, { op := 0x06, d := true, imm := 0xFFFFFFFF })
  | .lih f => some (f, { op := 0x07, d := true, imm := 0xFFFFFFFF })
  | .mov f => some (f, { op := 0x08, d := true, s := true })
  | .addCmd f => some (f, { op := 0x09, d := true, s := true, t := true, imm := 0xFFFFFFFF })
  | .subCmd f => some (f, { op := 0x0A, d := true, s := true, t := true, imm := 0xFFFFFFFF })
  | .mulCmd f => some (f, { op := 0x0B, d := true, s := true, t := true, imm := 0xFFFFFFFF })
  | .andCmd f => some (f, { op := 0x0C, d := true, s := true, t := true, imm := 0xFFFFFFFF })
  | .orCmd f => some (f, { op := 0x0D, d := true, s := true, t := true, imm := 0xFFFFFFFF })
  | .xorCmd f => some (f, { op := 0x0E, d := true, s := true, t := true, imm := 0xFFFFFFFF })
  | .shlCmd f => some (f, { op := 0x0F, d := true, s := true, t := true, imm := 0xFFFFFFFF })
  | .shrCmd f => some (f, { op := 0x10, d := true, s := true, t := true, imm := 0xFFFFFFFF })
  | .sarCmd f => some (f, { op := 0x11, d := true, s := true, t := true, imm := 0xFFFFFFFF })
  | .cmpCmd f => some (f, { op := 0x12, d := true, s := true, t := true, imm := 0xFFFFFFFF, tys := [.i32, .n32], md := .intCond })
  | .minCmd f => some (f, { op := 0x13, d := true, s := true, t := true, imm := 0xFFFFFFFF, tys := [.i32, .n32] })
  | .maxCmd f => some (f, { op := 0x14, d := true, s := true, t := true, imm := 0xFFFFFFFF, tys := [.i32, .n32] })
  | .lds f => some (f, { op := 0x15, d := true, s := true, ext := 0xFF, imm := 0xFFFFFFFF, tys := seqTypes })
  | .sts f => some (f, { op := 0x16, s := true, t := true, ext := 0xFF, imm := 0xFFFFFFFF, tys := seqTypes })
  | .mfs f => some (f, { op := 0x17, d := true, imm := 0x3FF })
  | .mts f => some (f, { op := 0x18, s := true, imm := 0x3FF })
  | .wait f => some (f, { op := 0x19, d := true, s := true, ext := 0xFF })
  | .sig f => some (f, { op := 0x1A, t := true, ext := 0xFF, imm := 0xFFFFFFFF })
  | .time f => some (f, { op := 0x1B, d := true, ext := 0x1, extSel := (0x1, 0x0) })
  | .timeCyc f => some (f, { op := 0x1B, d := true, ext := 0x1, extSel := (0x1, 0x1) })
  | .perf f => some (f, { op := 0x1C, d := true, imm := 0xFF })
  | .next => some (bareCmd 0, { op := 0x1D })
  | .fuse f => some (f, { op := 0x30, d := true, s := true, imm := 0x3FFFFFFF })
  | .split f => some (f, { op := 0x31, d := true, s := true })
  | .cfgLoad f => some (f, { op := 0x32, imm := 0xFF })
  | .cfgSeal => some (bareCmd 0, { op := 0x33 })
  | .cfgRun f => some (f, { op := 0x34, s := true, t := true, imm := 0xFFFFFFFF })
  | .cfgNext f => some (f, { op := 0x35, d := true })
  | .launch f => some (f, { op := 0x36, s := true, t := true })
  | .circ f => some (f, { op := 0x37, s := true, imm := 0x7F3F })
  | .quiesce f => some (f, { op := 0x38, d := true, ext := 0x1, extSel := (0x1, 0x0) })
  | .quiesceProbe f => some (f, { op := 0x38, d := true, ext := 0x1, extSel := (0x1, 0x1) })
  | .ctxSave f => some (f, { op := 0x39, s := true, t := true })
  | .ctxLoad f => some (f, { op := 0x3A, d := true, t := true })
  | .ctxSwap f => some (f, { op := 0x3B, s := true, t := true })
  | .bufMap f => some (f, { op := 0x3C, s := true, t := true, imm := 0x7FFFF })
  | .bufUnmap f => some (f, { op := 0x3D, imm := 0x400FF })
  | .cap f => some (f, { op := 0x3E, d := true, s := true, imm := 0xFF })
  | .strmDef f => some (f, { op := 0x50, s := true, ext := 0xFF, imm := 0xFFFFF })
  | .strmDim f => some (f, { op := 0x51, s := true, t := true, imm := 0x7F })
  | .strmGo f => some (f, { op := 0x52, imm := 0xFFFF })
  | .strmBar f => some (f, { op := 0x53, imm := 0xFFFF })
  | .strmEnd f => some (f, { op := 0x54, imm := 0xFFFF })
  | .rsv f => some (f, { op := 0x55, s := true, t := true, imm := 0x7 })
  | .samp f => some (f, { op := 0x56, s := true, imm := 0x7 })
  | .fenceCmd f => some (f, { op := 0x57, ext := 0x7 })
  | .flush f => some (f, { op := 0x58, s := true, t := true, ext := 0xFF })
  | .inv f => some (f, { op := 0x59, s := true, t := true, ext := 0xFF })
  | .feFill f => some (f, { op := 0x5A, s := true, t := true, ext := 0xFF })
  | .feEmpty f => some (f, { op := 0x5B, s := true, t := true, ext := 0xFF })
  | .pref f => some (f, { op := 0x5C, s := true, t := true, ext := 0xFF })
  | .fold f => some (f, { op := 0x70, s := true, imm := 0xFFF })
  | .foldchk f => some (f, { op := 0x71, d := true, imm := 0xFFF })
  | .refold f => some (f, { op := 0x72, d := true, s := true, imm := 0xFFF })
  | .nstat f => some (f, { op := 0x73, d := true, imm := 0xFFF })
  | .ndrop f => some (f, { op := 0x74, imm := 0xFFF })
  | .nseed f => some (f, { op := 0x75, s := true, t := true, imm := 0xFFF })
  | .copy f => some (f, { op := 0x80, d := true, s := true, t := true, imm := 0xFFFFFFFF })
  | .copySh f => some (f, { op := 0x81, d := true, s := true, t := true, imm := 0xFFFFFFFF })
  | .publ f => some (f, { op := 0x82, imm := 0xFF })
  | .mcast f => some (f, { op := 0x83, d := true, s := true, t := true, ext := 0xFFFF, imm := 0xFFFFFFFF })
  | .ringOpen f => some (f, { op := 0x84, d := true, s := true })
  | .ringPut f => some (f, { op := 0x85, d := true, s := true, imm := 0xF })
  | .ringTake f => some (f, { op := 0x86, d := true, ext := 0x1F, imm := 0xF })
  | .collSum f => some (f, { op := 0x87, d := true, s := true, t := true, ext := 0x7FFFFFFF, imm := 0x3FFFF, tys := [.i32, .f32, .bf16], immSel := (0xF0, 0x0) })
  | .collMax f => some (f, { op := 0x87, d := true, s := true, t := true, ext := 0x7FFFFFFF, imm := 0x3FFFF, tys := [.i32, .f32, .bf16], immSel := (0xF0, 0x10) })
  | .collMin f => some (f, { op := 0x87, d := true, s := true, t := true, ext := 0x7FFFFFFF, imm := 0x3FFFF, tys := [.i32, .f32, .bf16], immSel := (0xF0, 0x20) })
  | .collRs f => some (f, { op := 0x87, d := true, s := true, t := true, ext := 0x7FFFFFFF, imm := 0x3FFFF, tys := [.i32, .f32, .bf16], immSel := (0xF0, 0x30) })
  | .collAg f => some (f, { op := 0x87, d := true, s := true, t := true, ext := 0x7FFFFFFF, imm := 0x3FFFF, tys := [.i32, .f32, .bf16], immSel := (0xF0, 0x40) })
  | .collBc f => some (f, { op := 0x87, d := true, s := true, t := true, ext := 0x7FFFFFFF, imm := 0x3FFFF, tys := [.i32, .f32, .bf16], immSel := (0xF0, 0x50) })
  | .ewait f => some (f, { op := 0x88, s := true })
  | .ecancel f => some (f, { op := 0x89, d := true, s := true })
  | .claim f => some (f, { op := 0xA0, d := true, imm := 0xFFFF0007 })
  | .release f => some (f, { op := 0xA1, imm := 0xFFFF0007 })
  | .opld f => some (f, { op := 0xA2, s := true, imm := 0x1F3 })
  | .mxCfg f => some (f, { op := 0xA3, imm := 0x7FFF })
  | .mxRoute f => some (f, { op := 0xA4, s := true, imm := 0x7 })
  | .mxGo f => some (f, { op := 0xA5, s := true, t := true, imm := 0x7 })
  | .mxStop f => some (f, { op := 0xA6, imm := 0x7 })
  | .galOpen f => some (f, { op := 0xB0, d := true, s := true })
  | .galClose f => some (f, { op := 0xB1, imm := 0xFF })
  | .galAppend f => some (f, { op := 0xB2, s := true, t := true, imm := 0xFF })
  | .splice f => some (f, { op := 0xB3, s := true, t := true, imm := 0xFF })
  | .galCut f => some (f, { op := 0xB4, s := true, imm := 0xFF })
  | .prov f => some (f, { op := 0xB5, d := true, s := true, md := .one, mdSel := (0xF, 0x0) })
  | .provRev f => some (f, { op := 0xB5, s := true, t := true, md := .one, mdSel := (0xF, 0x1) })
  | .repair f => some (f, { op := 0xB6, d := true, s := true, t := true, ext := 0xFF, imm := 0xFFFFFF })
  | .repairWait f => some (f, { op := 0xB7, s := true })
  | .deltaBind f => some (f, { op := 0xC0, s := true, imm := 0xFF })
  | .deltaRun f => some (f, { op := 0xC1, d := true, imm := 0x3FF })
  | .deltaRef f => some (f, { op := 0xC2, imm := 0xFF })
  | .deltaInv f => some (f, { op := 0xC3, imm := 0xFF })
  | .deltaStat f => some (f, { op := 0xC4, d := true, imm := 0xFFFF })
  | .trap f => some (f, { op := 0xE0, s := true, imm := 0xFFFF })
  | .tretRetry f => some (f, { op := 0xE1, imm := 0x1F, md := .two, mdSel := (0xF, 0x0) })
  | .tretPoison => some (bareCmd 1, { op := 0xE1, md := .two, mdSel := (0xF, 0x1) })
  | .tretDiscard => some (bareCmd 2, { op := 0xE1, md := .two, mdSel := (0xF, 0x2) })
  | .tretAbort => some (bareCmd 3, { op := 0xE1, md := .two, mdSel := (0xF, 0x3) })
  | .sysc f => some (f, { op := 0xE2, imm := 0x1F })
  | .hcall f => some (f, { op := 0xE3, d := true, s := true, imm := 0xFFFF, md := .two, mdSel := (0xF, 0x0) })
  | .hcallTake f => some (f, { op := 0xE3, d := true, md := .two, mdSel := (0xF, 0x1) })
  | .hcallArg f => some (f, { op := 0xE3, d := true, s := true, md := .two, mdSel := (0xF, 0x2) })
  | .hcallRet f => some (f, { op := 0xE3, s := true, t := true, md := .two, mdSel := (0xF, 0x3) })
  | .freeze f => some (f, { op := 0xE4, s := true, imm := 0x3FF })
  | .thaw f => some (f, { op := 0xE5, s := true, imm := 0x3FF })
  | .snap f => some (f, { op := 0xE6, s := true, imm := 0x3FF })
  | .wingDef f => some (f, { op := 0xE8, s := true, t := true, imm := 0x3F, md := .one, mdSel := (0xF, 0x0) })
  | .wingDefRel f => some (f, { op := 0xE8, imm := 0x3F, md := .one, mdSel := (0xF, 0x1) })
  | .wingRoute f => some (f, { op := 0xE9, imm := 0x3F })
  | .vfBind f => some (f, { op := 0xEA, s := true, imm := 0x3F, md := .one, mdSel := (0xF, 0x0) })
  | .vfBindRel f => some (f, { op := 0xEA, s := true, imm := 0x3F, md := .one, mdSel := (0xF, 0x1) })
  | .scrub f => some (f, { op := 0xEB, s := true, t := true })
  | .audit f => some (f, { op := 0xEC, s := true })
  | _ => none

/-- A type of ty 0 to 5. -/
def isInt (t : Ty) : Bool := ints.contains t
/-- A type of ty 6 to 10. -/
def isFloat (t : Ty) : Bool := floats.contains t
/-- The signed integer types (R146). -/
def isSigned : Ty → Bool
  | .i32 | .i16 | .i8 => true
  | _ => false

/-- The width of a type in bits; qn4 is 4 and the types without elements are 32 (R146, R148, R155). -/
def tyWidth : Ty → Nat
  | .i16 | .n16 | .bf16 | .f16 => 16
  | .i8 | .n8 | .f8e4 | .f8e5 => 8
  | .qn4 => 4
  | _ => 32

/-- The sub-opcodes VMAP admits (R347): arity, whether the elements are floating, and whether md may
hold the saturate or rounding bits the scalar entry allows (R263, R266, R271, R274). -/
def vmapSub (sub : Nat) : Option (Nat × Bool × MdRule) :=
  if sub = 0x04 ∨ sub = 0x05 ∨ sub = 0x06 ∨ sub = 0x09 ∨ sub = 0x14 then some (2, false, .sat)
  else if sub = 0x07 ∨ sub = 0x0A ∨ sub = 0x0B ∨ sub = 0x0C then some (2, false, .zero)
  else if sub = 0x0D ∨ sub = 0x0E then some (1, false, .sat)
  else if sub = 0x10 ∨ sub = 0x11 ∨ sub = 0x12 ∨ sub = 0x15 ∨ sub = 0x16 ∨ sub = 0x17 then some (2, false, .zero)
  else if sub = 0x13 ∨ sub = 0x18 ∨ sub = 0x19 then some (1, false, .zero)
  else if sub = 0x1A then some (2, false, .zero)
  else if sub = 0x20 ∨ sub = 0x21 ∨ sub = 0x22 ∨ sub = 0x24 ∨ sub = 0x25 ∨ sub = 0x34 then some (2, true, .round)
  else if sub = 0x26 ∨ sub = 0x27 ∨ sub = 0x2C ∨ sub = 0x2D ∨ sub = 0x2E ∨ sub = 0x2F ∨ sub = 0x30 ∨ sub = 0x32
      ∨ sub = 0x33 then some (1, true, .round)
  else if sub = 0x35 then some (1, true, .zero)
  else none

/-- The md bits a rule admits for a record of type `t` (R235, R236, R259). -/
def mdAdmits (m : MdRule) (t : Ty) (md : Nat) : Bool :=
  match m with
  | .zero => md == 0
  | .sat => md ≤ 1
  | .round => true
  | .intCond => md ≤ 5
  | .floatCond => md ≤ 7
  | .norm => md % 4 == 0
  | .tyCond => if isInt t then md ≤ 5 else md ≤ 7
  | .tySum => if isInt t then md ≤ 1 else true
  | .tyCvt => if isInt t then md == 0 || md == 4 else true
  | .tileSub => true
  | .one => md ≤ 1
  | .two => md ≤ 3

/-- The literal fits the type it is read in (R237): 16-bit types take bits [15:0], 8-bit types bits
[7:0], a predicate 0 or 1; no literal stands for a tile. -/
def litFits (t : Ty) (lit : Nat) : Bool :=
  match t with
  | .pred => lit ≤ 1
  | .tile | .csa => false
  | .untyped => true
  | t => lit < 2 ^ tyWidth t

/-- The type in which the literal of a node record is read (R237); `none` where the loader does not
know it, as for tile nodes, or where the value is ignored. DEDUCED, log 37. -/
def litType (i : Instr) (f : NodeRec) : Option Ty :=
  match i with
  | .shl _ | .shr _ | .sar _ | .rotl _ | .bfx _ => if f.ls = .port1 then some .n32 else some f.ty
  | .bfi _ => if f.ls = .port2 then some .n32 else some f.ty
  | .fscale _ => if f.ls = .port1 then some .i32 else some f.ty
  | .fcvt _ | .itof _ | .ftoi _ => some (tyOfCode (f.ex.toNat % 16))
  | .tagret _ | .tagset _ => if f.ls = .port1 then some .n32 else some f.ty
  | .ld _ | .ldfeTake _ | .ldfePeek _ => some .n32
  | .st _ | .stfe _ | .stfeOvw _ | .amoAdd _ | .amoAnd _ | .amoOr _ | .amoXor _ | .amoMin _ | .amoMax _ | .amoSwap _
  | .amoFadd _ | .cas _ => if f.ls = .port1 ∨ (f.ls = .port2 ∧ i = .cas f) then some f.ty else some .n32
  | .vmap _ | .vfma _ | .vcmpm _ | .vslice _ | .vhdrSet _ | .mxsteer _ | .acc _ => none
  | .sink _ | .join _ | .fire _ | .fence _ => none
  | .order _ => if f.ls = .port1 then none else some f.ty
  | _ => some f.ty

/-- The port number a literal select names. -/
def litPort : LitSel → Option Nat
  | .absent => none
  | .port0 => some 0
  | .port1 => some 1
  | .port2 => some 2

/-- The use of lit that a node record's rule admits (R237, R256). -/
def litAdmits (i : Instr) (f : NodeRec) (r : NodeRule) : Bool :=
  let lit := f.lit.toNat
  match r.lit with
  | .operand =>
    match litPort f.ls with
    | none => lit == 0
    | some p =>
      (match r.lits with
       | some ls => ls.contains f.ls
       | none => r.ports.contains p || r.opt.contains p)
      && (match litType i f with | some t => litFits t lit | none => true)
  | .typed => f.ls == .absent && litFits f.ty lit
  | .any => f.ls == .absent
  | .zero => f.ls == .absent && lit == 0
  | .low16 => f.ls == .absent && lit < 0x10000
  | .name => f.ls == .absent && f.ax.toNat % 8 ≤ 6 && (f.ax.toNat % 8 != 0 || lit == 0)
  | .topk => f.ls == .absent && lit != 0
  | .bcast => f.ls == .absent && lit < 0x10000 && 1 ≤ lit % 256 && lit % 256 ≤ 128 && 1 ≤ lit / 256 && lit / 256 ≤ 128
  | .drain => f.ls == .absent && lit ≤ 128

/-- The rules that one node record states beyond its table row. -/
def nodeExtra : Instr → Bool
  | .idx f => 1 ≤ f.ax.toNat % 8 && f.ax.toNat % 8 ≤ 6
  | .fcvt f => 6 ≤ f.ex.toNat % 16 && f.ex.toNat % 16 ≤ 10
  | .itof f => f.ex.toNat % 16 ≤ 5
  | .ftoi f => 6 ≤ f.ex.toNat % 16 && f.ex.toNat % 16 ≤ 10
  | .fence f => f.ax.toNat % 8 ≤ 5
  | .init f | .sel f | .steer f | .cmerge f | .gate f | .ptest f => f.pg == .ungated
  | .vmap f =>
    match vmapSub f.ex.toNat with
    | none => false
    | some (n, fl, m) =>
      (n == 2 || f.ls == .absent) && (if f.ex.toNat = 0x35 then f.ty == .n32 || f.ty == .tile else f.ty == .tile || (if fl then isFloat f.ty else isInt f.ty))
      && mdAdmits m (if fl then .f32 else .i32) f.md.toNat
  | .mxrow f | .mxdrain f | .score f | .acc f => f.ex.toNat % 4 ≤ 2
  | _ => true

/-- A node record is admissible (R416). -/
def nodeAdmits (i : Instr) (f : NodeRec) (r : NodeRule) : Bool :=
  r.tys.contains f.ty && mdAdmits r.md f.ty f.md.toNat && litAdmits i f r
  && (f.ax.toNat &&& r.ax == f.ax.toNat) && (f.ax.toNat &&& r.axSel.1 == r.axSel.2)
  && (f.ex.toNat &&& r.ex == f.ex.toNat) && (f.ex.toNat &&& r.exSel.1 == r.exSel.2)
  && (!r.single || f.gather == 1)
  && (match r.dests with
      | .both => true
      | .first => f.db == .discard
      | .nowhere => f.da == .discard && f.db == .discard)
  && nodeExtra i

/-- A record's sources beyond its arity are coded 15 (R232). -/
def sourcesAdmit (f : SeqRec) (arity : Nat) : Bool :=
  (0 < arity || f.qa == .zr) && (1 < arity || f.qb == .zr) && (2 < arity || f.qc == .zr)

/-- The type in which source number `k` of a sequence record is read (R237, R258). -/
def seqSourceType (i : Instr) (f : SeqRec) (k : Nat) : Ty :=
  match i with
  | .shlQ | .shrQ | .sarQ | .rotlQ | .bfxQ => if k = 1 then .n32 else f.ty
  | .bfiQ => if k = 2 then .n32 else f.ty
  | .selQ => if k = 2 then .n32 else f.ty
  | .fscaleQ => if k = 1 then .i32 else f.ty
  | .fcvtQ | .itofQ | .ftoiQ => tyOfCode (f.im.toNat % 16)
  | _ => f.ty

/-- The use of im that a sequence record's rule admits (R237, R258, R270, R273). -/
def imAdmits (i : Instr) (f : SeqRec) (r : SeqRule) : Bool :=
  let im := f.im.toNat
  let named := f.qa == .im || f.qb == .im || f.qc == .im
  match r.im with
  | .sourceOnly =>
    (named || im == 0)
    && (f.qa != .im || litFits (seqSourceType i f 0) im) && (f.qb != .im || litFits (seqSourceType i f 1) im)
    && (f.qc != .im || litFits (seqSourceType i f 2) im)
  | .typed => litFits f.ty im
  | .level => 1 ≤ im && im ≤ 6
  | .half => im ≤ 1
  | .source => im < 16

/-- A sequence record is admissible (R232, R258, R285, R416). -/
def seqAdmits (i : Instr) (f : SeqRec) (r : SeqRule) : Bool :=
  r.tys.contains f.ty && mdAdmits r.md f.ty f.md.toNat && sourcesAdmit f r.arity && imAdmits i f r
  && (match f.qd with
      | .da | .db => r.emits
      | .w k => !r.emits && (match i with | .sincosQ => k.val ≤ 6 | _ => true)
      | .discard => !r.emits)
  && (!r.emits || f.im == 0)
  && (match i with
      | .fcvtQ | .ftoiQ => 6 ≤ f.im.toNat && f.im.toNat ≤ 10
      | .itofQ => f.im.toNat ≤ 5
      | _ => true)

/-- The rules that one command states beyond its table row (R306, R314, R325, R332, R333). -/
def cmdExtra : Instr → Bool
  | .perf f => f.imm.toNat ≤ 5
  | .fenceCmd f => f.ext.toNat ≤ 5
  | .circ f => if f.imm.toNat / 0x4000 = 1 then f.imm.toNat % 0x100 == 0 else true
  | .ringTake f => f.ext.toNat / 16 == 1 || f.ext == 0
  | .collSum f | .collMax f | .collMin f | .collRs f | .collAg f => f.imm.toNat / 256 == 0
  | _ => true

/-- A command record is admissible (R233, R298, R416). -/
def cmdAdmits (i : Instr) (f : CmdRec) (r : CmdRule) : Bool :=
  r.tys.contains f.ty && mdAdmits r.md f.ty f.md.toNat
  && (r.d || f.d == 0) && (r.s || f.s == 0) && (r.t || f.t == 0)
  && (f.ext.toNat &&& r.ext == f.ext.toNat) && (f.ext.toNat &&& r.extSel.1 == r.extSel.2)
  && (f.imm.toNat &&& r.imm == f.imm.toNat) && (f.imm.toNat &&& r.immSel.1 == r.immSel.2)
  && (f.md.toNat &&& r.mdSel.1 == r.mdSel.2)
  && cmdExtra i

/-- The fields of a sequence record are admissible for its row. -/
def seqFieldsAdmit (i : Instr) (f : SeqRec) : Bool :=
  match seqRule i with
  | some r => seqAdmits i f r
  | none => false

/-- An instruction is well formed when the fields it carries are admissible; a sequence record's fields
are judged by `seqFieldsAdmit`, and a device step has no record. -/
def admits (i : Instr) : Bool :=
  match nodeRule i with
  | some (f, r) => nodeAdmits i f r
  | none =>
    match seqRule i with
    | some _ => true
    | none =>
      match cmdRule i with
      | some (f, r) => cmdAdmits i f r
      | none => false

end Sys2Proof.Machine
end

