-- ==== Sys2Proof/WellFormed.lean ====
section
/-! DEFINITION. Well-formed instructions: the records whose every field value their entries admit
(R416). The admissible values are in Machine/Admit.lean. -/
namespace Sys2Proof

/-- The record's fields are all admitted (R416); false of a device step, which has no record. -/
def Instr.wf (i : Instr) : Bool := Machine.admits i

end Sys2Proof
end

