-- ==== Sys2Proof/Decode.lean ====
section
/-! DEFINITION. The decoder of 96-bit records (R227 to R243) and, after it, the encoder. The decoder is
total and rejects by name. -/
namespace Sys2Proof

/-- Why a record has no meaning (R416). -/
inductive DecodeError where
  /-- fewer than the 12 bytes of a record -/
  | short
  /-- form 11 -/
  | reservedForm
  /-- an opcode the form's map leaves reserved, or one not legal in the form (R242) -/
  | reservedOpcode (op : Nat)
  /-- a reserved destination byte, pg value or Q code -/
  | reservedField
  /-- a field value the entry does not admit -/
  | inadmissible
  deriving DecidableEq, Repr

/-- Bits `[lo + width − 1 : lo]` of a record. -/
def bitField (r : Rec) (lo width : Nat) : Nat := r.toNat / 2 ^ lo % 2 ^ width

/-- A destination byte (R229). -/
def destOfCode (b : Nat) : Option Dest :=
  if b < 0x80 then some (.node (Fin.ofNat 32 (b / 4)) (Fin.ofNat 4 b))
  else if b < 0x90 then some (.out (Fin.ofNat 16 b))
  else if b < 0xA0 then some (.predOut (Fin.ofNat 16 b))
  else if b = 0xFF then some .discard
  else none

/-- The ls field (R228). -/
def litSelOfCode : Nat → LitSel
  | 1 => .port0
  | 2 => .port1
  | 3 => .port2
  | _ => .absent

/-- The pg field (R228). -/
def gateOfCode : Nat → Option Gate
  | 0 => some .ungated
  | 1 => some .ifTrue
  | 2 => some .ifFalse
  | 4 => some .consume
  | _ => none

/-- A Q-form source code (R232). -/
def qsrcOfCode (c : Nat) : QSrc :=
  if c < 8 then .w (Fin.ofNat 8 c)
  else if c < 11 then .m (Fin.ofNat 3 (c - 8))
  else if c = 11 then .tg
  else if c = 12 then .im
  else if c < 15 then .q (Fin.ofNat 2 (c - 13))
  else .zr

/-- A Q-form destination code (R232). -/
def qdstOfCode (c : Nat) : Option QDst :=
  if c < 8 then some (.w (Fin.ofNat 8 c))
  else if c = 8 then some .da
  else if c = 9 then some .db
  else if c = 15 then some .discard
  else none

/-- The fields of an N-form record (R228). -/
def nodeFields (r : Rec) : Option NodeRec :=
  match destOfCode (bitField r 70 8), destOfCode (bitField r 62 8), gateOfCode (bitField r 57 3) with
  | some da, some db, some pg =>
    some {
      ty := Machine.tyOfCode (bitField r 82 4), md := BitVec.ofNat 4 (bitField r 78 4), da := da, db := db
      ls := litSelOfCode (bitField r 60 2), pg := pg, gather := BitVec.ofNat 3 (bitField r 54 3)
      ax := BitVec.ofNat 6 (bitField r 48 6), ex := BitVec.ofNat 16 (bitField r 32 16)
      lit := BitVec.ofNat 32 (bitField r 0 32) }
  | _, _, _ => none

/-- The fields of a Q-form record (R231); bits 60 to 32 must be zero. -/
def seqFields (r : Rec) : Option SeqRec :=
  match qdstOfCode (bitField r 74 4) with
  | some qd =>
    if bitField r 32 29 = 0 then
      some {
        ty := Machine.tyOfCode (bitField r 82 4), md := BitVec.ofNat 4 (bitField r 78 4), qd := qd
        qa := qsrcOfCode (bitField r 70 4), qb := qsrcOfCode (bitField r 66 4), qc := qsrcOfCode (bitField r 62 4)
        last := bitField r 61 1 == 1, im := BitVec.ofNat 32 (bitField r 0 32) }
    else none
  | none => none

/-- The fields of a C-form record (R233). -/
def cmdFields (r : Rec) : CmdRec :=
  { ty := Machine.tyOfCode (bitField r 82 4), md := BitVec.ofNat 4 (bitField r 78 4)
    d := BitVec.ofNat 5 (bitField r 73 5), s := BitVec.ofNat 5 (bitField r 68 5), t := BitVec.ofNat 5 (bitField r 63 5)
    ext := BitVec.ofNat 31 (bitField r 32 31), imm := BitVec.ofNat 32 (bitField r 0 32) }

/-- The node record of an opcode, by the N/Q map (R241, R242) and, where rows share an opcode, by the
field that tells them apart. -/
def nodeOf (op : Nat) (f : NodeRec) : Option Instr :=
  match op with
  | 0x00 => some (.pass f)
  | 0x01 => some (.const f)
  | 0x02 => some (.sink f)
  | 0x03 => some (.join f)
  | 0x04 => some (.add f)
  | 0x05 => some (.sub f)
  | 0x06 => some (.mul f)
  | 0x07 => some (.mulh f)
  | 0x08 => some (.mad f)
  | 0x09 => some (.div f)
  | 0x0A => some (.rem f)
  | 0x0B => some (.min f)
  | 0x0C => some (.max f)
  | 0x0D => some (.abs f)
  | 0x0E => some (.neg f)
  | 0x10 => some (.and f)
  | 0x11 => some (.or f)
  | 0x12 => some (.xor f)
  | 0x13 => some (.not f)
  | 0x14 => some (.shl f)
  | 0x15 => some (.shr f)
  | 0x16 => some (.sar f)
  | 0x17 => some (.rotl f)
  | 0x18 => some (.clz f)
  | 0x19 => some (.popc f)
  | 0x1A => some (.bfx f)
  | 0x1B => some (.bfi f)
  | 0x1C => some (.sel f)
  | 0x1D => some (.cmp f)
  | 0x1E => some (.idx f)
  | 0x1F => some (.wid f)
  | 0x20 => some (.fadd f)
  | 0x21 => some (.fsub f)
  | 0x22 => some (.fmul f)
  | 0x23 => some (.ffma f)
  | 0x24 => some (.fmin f)
  | 0x25 => some (.fmax f)
  | 0x26 => some (.fabs f)
  | 0x27 => some (.fneg f)
  | 0x28 => some (.fcmp f)
  | 0x29 => some (.fcvt f)
  | 0x2A => some (.itof f)
  | 0x2B => some (.ftoi f)
  | 0x2C => some (.exp2 f)
  | 0x2D => some (.log2 f)
  | 0x2E => some (.rcp f)
  | 0x2F => some (.rsq f)
  | 0x30 => some (.sqrt f)
  | 0x31 => some (.sincos f)
  | 0x32 => some (.tanh f)
  | 0x33 => some (.frnd f)
  | 0x34 => some (.fscale f)
  | 0x35 => some (.fclass f)
  | 0x40 => some (.steer f)
  | 0x41 => some (.merge f)
  | 0x42 => some (.cmerge f)
  | 0x43 => some (.gate f)
  | 0x44 => some (.pnot f)
  | 0x45 => some (.pand f)
  | 0x46 => some (.por f)
  | 0x47 => some (.pxor f)
  | 0x48 => some (.tagnew f)
  | 0x49 => some (.tagret f)
  | 0x4A => some (.tagset f)
  | 0x4B => some (.tagget f)
  | 0x4C => some (.count f)
  | 0x4D => some (.init f)
  | 0x4E => some (.fire f)
  | 0x4F => some (.order f)
  | 0x50 => some (.done f)
  | 0x51 => some (.trapn f)
  | 0x52 => some (.ptest f)
  | 0x60 => some (.ld f)
  | 0x61 => some (.st f)
  | 0x62 =>
    match f.ax.toNat &&& 0x8 with
    | 0x8 => some (.ldfeTake f)
    | 0x0 => some (.ldfePeek f)
    | _ => none
  | 0x63 =>
    match f.ax.toNat &&& 0x10 with
    | 0x0 => some (.stfe f)
    | 0x10 => some (.stfeOvw f)
    | _ => none
  | 0x64 =>
    match f.ex.toNat &&& 0xF00 with
    | 0x0 => some (.amoAdd f)
    | 0x100 => some (.amoAnd f)
    | 0x200 => some (.amoOr f)
    | 0x300 => some (.amoXor f)
    | 0x400 => some (.amoMin f)
    | 0x500 => some (.amoMax f)
    | 0x600 => some (.amoSwap f)
    | 0x700 => some (.amoFadd f)
    | _ => none
  | 0x65 => some (.cas f)
  | 0x66 => some (.fence f)
  | 0x68 =>
    match f.ax.toNat &&& 0x8 with
    | 0x8 => some (.nrdTake f)
    | 0x0 => some (.nrdPeek f)
    | _ => none
  | 0x69 => some (.nwr f)
  | 0x6A => some (.nprobe f)
  | 0x80 => some (.vmap f)
  | 0x81 => some (.vfma f)
  | 0x82 =>
    match f.ex.toNat &&& 0x3 with
    | 0x0 => some (.vredSum f)
    | 0x1 => some (.vredMax f)
    | 0x2 => some (.vredMin f)
    | _ => none
  | 0x83 =>
    match f.ex.toNat &&& 0x3 with
    | 0x0 => some (.vscanSum f)
    | 0x1 => some (.vscanMax f)
    | 0x2 => some (.vscanMin f)
    | _ => none
  | 0x84 => some (.vcmpm f)
  | 0x85 => some (.vcompress f)
  | 0x86 => some (.vexpand f)
  | 0x87 =>
    match f.ex.toNat &&& 0x1 with
    | 0x0 => some (.vtopk f)
    | 0x1 => some (.vtopkIdx f)
    | _ => none
  | 0x88 => some (.vsoft f)
  | 0x89 => some (.vquant f)
  | 0x8A => some (.vdeq f)
  | 0x8B => some (.vcvt f)
  | 0x8C => some (.vtransp f)
  | 0x8D => some (.vslice f)
  | 0x8E => some (.vcat f)
  | 0x8F =>
    match f.ex.toNat &&& 0x8 with
    | 0x0 => some (.vhdr f)
    | 0x8 => some (.vhdrSet f)
    | _ => none
  | 0x90 => some (.vbcast f)
  | 0x91 =>
    match f.ex.toNat &&& 0x3 with
    | 0x0 => some (.vmaskKeep f)
    | 0x1 => some (.vmaskCausal f)
    | 0x2 => some (.vmaskLength f)
    | _ => none
  | 0xA0 => some (.mxrow f)
  | 0xA1 => some (.mxdrain f)
  | 0xA2 => some (.mxsteer f)
  | 0xA3 => some (.score f)
  | 0xA4 => some (.pair f)
  | 0xA5 => some (.acc f)
  | 0xA6 => some (.norm f)
  | 0xA7 => some (.rope f)
  | _ => none

/-- The sequence record of an opcode, by the N/Q map (R241, R242). -/
def seqOf (op : Nat) : Option Instr :=
  match op with
  | 0x00 => some .passQ
  | 0x01 => some .constQ
  | 0x04 => some .addQ
  | 0x05 => some .subQ
  | 0x06 => some .mulQ
  | 0x07 => some .mulhQ
  | 0x08 => some .madQ
  | 0x09 => some .divQ
  | 0x0A => some .remQ
  | 0x0B => some .minQ
  | 0x0C => some .maxQ
  | 0x0D => some .absQ
  | 0x0E => some .negQ
  | 0x10 => some .andQ
  | 0x11 => some .orQ
  | 0x12 => some .xorQ
  | 0x13 => some .notQ
  | 0x14 => some .shlQ
  | 0x15 => some .shrQ
  | 0x16 => some .sarQ
  | 0x17 => some .rotlQ
  | 0x18 => some .clzQ
  | 0x19 => some .popcQ
  | 0x1A => some .bfxQ
  | 0x1B => some .bfiQ
  | 0x1C => some .selQ
  | 0x1D => some .cmpQ
  | 0x1E => some .idxQ
  | 0x1F => some .widQ
  | 0x20 => some .faddQ
  | 0x21 => some .fsubQ
  | 0x22 => some .fmulQ
  | 0x23 => some .ffmaQ
  | 0x24 => some .fminQ
  | 0x25 => some .fmaxQ
  | 0x26 => some .fabsQ
  | 0x27 => some .fnegQ
  | 0x28 => some .fcmpQ
  | 0x29 => some .fcvtQ
  | 0x2A => some .itofQ
  | 0x2B => some .ftoiQ
  | 0x2C => some .exp2Q
  | 0x2D => some .log2Q
  | 0x2E => some .rcpQ
  | 0x2F => some .rsqQ
  | 0x30 => some .sqrtQ
  | 0x31 => some .sincosQ
  | 0x32 => some .tanhQ
  | 0x33 => some .frndQ
  | 0x34 => some .fscaleQ
  | 0x35 => some .fclassQ
  | 0x44 => some .pnotQ
  | 0x45 => some .pandQ
  | 0x46 => some .porQ
  | 0x47 => some .pxorQ
  | 0xC0 => some .emit
  | 0xC1 => some .emitp
  | _ => none

/-- The command of an opcode, by the C map (R243) and, where rows share an opcode, by the field that
tells them apart. -/
def cmdOf (op : Nat) (f : CmdRec) : Option Instr :=
  match op with
  | 0x00 => some .nop
  | 0x01 => some .halt
  | 0x02 => some (.jmp f)
  | 0x03 => some (.br f)
  | 0x04 => some (.call f)
  | 0x05 => some (.ret f)
  | 0x06 => some (.li f)
  | 0x07 => some (.lih f)
  | 0x08 => some (.mov f)
  | 0x09 => some (.addCmd f)
  | 0x0A => some (.subCmd f)
  | 0x0B => some (.mulCmd f)
  | 0x0C => some (.andCmd f)
  | 0x0D => some (.orCmd f)
  | 0x0E => some (.xorCmd f)
  | 0x0F => some (.shlCmd f)
  | 0x10 => some (.shrCmd f)
  | 0x11 => some (.sarCmd f)
  | 0x12 => some (.cmpCmd f)
  | 0x13 => some (.minCmd f)
  | 0x14 => some (.maxCmd f)
  | 0x15 => some (.lds f)
  | 0x16 => some (.sts f)
  | 0x17 => some (.mfs f)
  | 0x18 => some (.mts f)
  | 0x19 => some (.wait f)
  | 0x1A => some (.sig f)
  | 0x1B =>
    match f.ext.toNat &&& 0x1 with
    | 0x0 => some (.time f)
    | 0x1 => some (.timeCyc f)
    | _ => none
  | 0x1C => some (.perf f)
  | 0x1D => some .next
  | 0x30 => some (.fuse f)
  | 0x31 => some (.split f)
  | 0x32 => some (.cfgLoad f)
  | 0x33 => some .cfgSeal
  | 0x34 => some (.cfgRun f)
  | 0x35 => some (.cfgNext f)
  | 0x36 => some (.launch f)
  | 0x37 => some (.circ f)
  | 0x38 =>
    match f.ext.toNat &&& 0x1 with
    | 0x0 => some (.quiesce f)
    | 0x1 => some (.quiesceProbe f)
    | _ => none
  | 0x39 => some (.ctxSave f)
  | 0x3A => some (.ctxLoad f)
  | 0x3B => some (.ctxSwap f)
  | 0x3C => some (.bufMap f)
  | 0x3D => some (.bufUnmap f)
  | 0x3E => some (.cap f)
  | 0x50 => some (.strmDef f)
  | 0x51 => some (.strmDim f)
  | 0x52 => some (.strmGo f)
  | 0x53 => some (.strmBar f)
  | 0x54 => some (.strmEnd f)
  | 0x55 => some (.rsv f)
  | 0x56 => some (.samp f)
  | 0x57 => some (.fenceCmd f)
  | 0x58 => some (.flush f)
  | 0x59 => some (.inv f)
  | 0x5A => some (.feFill f)
  | 0x5B => some (.feEmpty f)
  | 0x5C => some (.pref f)
  | 0x70 => some (.fold f)
  | 0x71 => some (.foldchk f)
  | 0x72 => some (.refold f)
  | 0x73 => some (.nstat f)
  | 0x74 => some (.ndrop f)
  | 0x75 => some (.nseed f)
  | 0x80 => some (.copy f)
  | 0x81 => some (.copySh f)
  | 0x82 => some (.publ f)
  | 0x83 => some (.mcast f)
  | 0x84 => some (.ringOpen f)
  | 0x85 => some (.ringPut f)
  | 0x86 => some (.ringTake f)
  | 0x87 =>
    match f.imm.toNat &&& 0xF0 with
    | 0x0 => some (.collSum f)
    | 0x10 => some (.collMax f)
    | 0x20 => some (.collMin f)
    | 0x30 => some (.collRs f)
    | 0x40 => some (.collAg f)
    | 0x50 => some (.collBc f)
    | _ => none
  | 0x88 => some (.ewait f)
  | 0x89 => some (.ecancel f)
  | 0xA0 => some (.claim f)
  | 0xA1 => some (.release f)
  | 0xA2 => some (.opld f)
  | 0xA3 => some (.mxCfg f)
  | 0xA4 => some (.mxRoute f)
  | 0xA5 => some (.mxGo f)
  | 0xA6 => some (.mxStop f)
  | 0xB0 => some (.galOpen f)
  | 0xB1 => some (.galClose f)
  | 0xB2 => some (.galAppend f)
  | 0xB3 => some (.splice f)
  | 0xB4 => some (.galCut f)
  | 0xB5 =>
    match f.md.toNat &&& 0xF with
    | 0x0 => some (.prov f)
    | 0x1 => some (.provRev f)
    | _ => none
  | 0xB6 => some (.repair f)
  | 0xB7 => some (.repairWait f)
  | 0xC0 => some (.deltaBind f)
  | 0xC1 => some (.deltaRun f)
  | 0xC2 => some (.deltaRef f)
  | 0xC3 => some (.deltaInv f)
  | 0xC4 => some (.deltaStat f)
  | 0xE0 => some (.trap f)
  | 0xE1 =>
    match f.md.toNat &&& 0xF with
    | 0x0 => some (.tretRetry f)
    | 0x1 => some .tretPoison
    | 0x2 => some .tretDiscard
    | 0x3 => some .tretAbort
    | _ => none
  | 0xE2 => some (.sysc f)
  | 0xE3 =>
    match f.md.toNat &&& 0xF with
    | 0x0 => some (.hcall f)
    | 0x1 => some (.hcallTake f)
    | 0x2 => some (.hcallArg f)
    | 0x3 => some (.hcallRet f)
    | _ => none
  | 0xE4 => some (.freeze f)
  | 0xE5 => some (.thaw f)
  | 0xE6 => some (.snap f)
  | 0xE8 =>
    match f.md.toNat &&& 0xF with
    | 0x0 => some (.wingDef f)
    | 0x1 => some (.wingDefRel f)
    | _ => none
  | 0xE9 => some (.wingRoute f)
  | 0xEA =>
    match f.md.toNat &&& 0xF with
    | 0x0 => some (.vfBind f)
    | 0x1 => some (.vfBindRel f)
    | _ => none
  | 0xEB => some (.scrub f)
  | 0xEC => some (.audit f)
  | _ => none

/-- What a record holds: its row and, for a sequence record, its fields (R227). -/
structure Decoded where
  instr : Instr
  seq : Option SeqRec := none
  deriving DecidableEq, Repr

/-- A command's fields are the record's: a command without operands is read only from a record whose
operand fields are zero (R233). -/
def keepsFields (i : Instr) (f : CmdRec) : Bool :=
  match Machine.cmdRule i with
  | some (g, _) => g == f
  | none => false

/-- The record before its field values are checked: its form, opcode and fields (R227). -/
def decodeRaw (r : Rec) : Except DecodeError Decoded :=
  let op := bitField r 86 8
  match bitField r 94 2 with
  | 0 =>
    match nodeFields r with
    | none => .error .reservedField
    | some f => match nodeOf op f with | some i => .ok { instr := i } | none => .error (.reservedOpcode op)
  | 1 =>
    match seqFields r with
    | none => .error .reservedField
    | some f => match seqOf op with | some i => .ok { instr := i, seq := some f } | none => .error (.reservedOpcode op)
  | 2 =>
    match cmdOf op (cmdFields r) with
    | some i => if keepsFields i (cmdFields r) then .ok { instr := i } else .error .inadmissible
    | none => .error (.reservedOpcode op)
  | _ => .error .reservedForm

/-- Every field value of a decoded record is one its entry admits (R416). -/
def Decoded.wf (d : Decoded) : Bool :=
  match d.seq with
  | none => d.instr.wf && (Machine.seqRule d.instr).isNone
  | some f => Machine.seqFieldsAdmit d.instr f

/-- What a record holds, refused by name where it has no meaning (R227 to R243, R416). -/
def decode (r : Rec) : Except DecodeError Decoded :=
  match decodeRaw r with
  | .ok d => if d.wf then .ok d else .error .inadmissible
  | .error e => .error e

/-- A 32-bit word from four bytes, little-endian. -/
def wordOfBytes (a b c d : Byte) : Nat := a.toNat + 0x100 * b.toNat + 0x10000 * c.toNat + 0x1000000 * d.toNat

/-- A record from its 12 bytes in memory: three little-endian words, bits [95:64] first (R227). -/
def recOfBytes : List Byte → Option Rec
  | a :: b :: c :: d :: e :: f :: g :: h :: i :: j :: k :: l :: _ =>
    some (BitVec.ofNat 96 (wordOfBytes a b c d * 2 ^ 64 + wordOfBytes e f g h * 2 ^ 32 + wordOfBytes i j k l))
  | _ => none

/-- The instruction that the next 12 bytes hold, with the bytes after it. -/
def decodeBytes (bs : List Byte) : Except DecodeError (Decoded × List Byte) :=
  match recOfBytes bs with
  | none => .error .short
  | some r =>
    match decode r with
    | .ok d => .ok (d, bs.drop 12)
    | .error e => .error e

/-- The bytes of a number, `n` of them, lowest first. -/
def bytesOfNat (n w : Nat) : List Byte :=
  match n with
  | 0 => []
  | n + 1 => BitVec.ofNat 8 w :: bytesOfNat n (w / 256)

/-- The instruction read from a table word: bit 0 is the least significant bit of the first word, and
each word is little-endian, so the record's 12 bytes are the word's bytes from the lowest. A record has
96 bits, whatever number of them the table gives. -/
def decodeTableWord (nbits w : Nat) : Option Instr :=
  match decodeBytes (bytesOfNat 12 (w % 2 ^ min nbits 96)) with
  | .ok (d, _) => some d.instr
  | .error _ => none

/-! ### The encoder -/

/-- The byte of a destination (R229). -/
def destCode : Dest → Nat
  | .node n p => 4 * n.val + p.val
  | .out k => 0x80 + k.val
  | .predOut k => 0x90 + k.val
  | .discard => 0xFF

/-- The code of a literal select (R228). -/
def litSelCode : LitSel → Nat
  | .absent => 0
  | .port0 => 1
  | .port1 => 2
  | .port2 => 3

/-- The code of a gate (R228). -/
def gateCode : Gate → Nat
  | .ungated => 0
  | .ifTrue => 1
  | .ifFalse => 2
  | .consume => 4

/-- The code of a Q-form source (R232). -/
def qsrcCode : QSrc → Nat
  | .w i => i.val
  | .m i => 8 + i.val
  | .tg => 11
  | .im => 12
  | .q i => 13 + i.val
  | .zr => 15

/-- The code of a Q-form destination (R232). -/
def qdstCode : QDst → Nat
  | .w i => i.val
  | .da => 8
  | .db => 9
  | .discard => 15

/-- An N-form record from its opcode and fields (R228). -/
def encodeNode (op : Nat) (f : NodeRec) : Rec :=
  BitVec.ofNat 96
    (op * 2 ^ 86 + Machine.tyCode f.ty * 2 ^ 82 + f.md.toNat * 2 ^ 78 + destCode f.da * 2 ^ 70 + destCode f.db * 2 ^ 62
      + litSelCode f.ls * 2 ^ 60 + gateCode f.pg * 2 ^ 57 + f.gather.toNat * 2 ^ 54 + f.ax.toNat * 2 ^ 48
      + f.ex.toNat * 2 ^ 32 + f.lit.toNat)

/-- A Q-form record from its opcode and fields (R231). -/
def encodeSeq (op : Nat) (f : SeqRec) : Rec :=
  BitVec.ofNat 96
    (2 ^ 94 + op * 2 ^ 86 + Machine.tyCode f.ty * 2 ^ 82 + f.md.toNat * 2 ^ 78 + qdstCode f.qd * 2 ^ 74
      + qsrcCode f.qa * 2 ^ 70 + qsrcCode f.qb * 2 ^ 66 + qsrcCode f.qc * 2 ^ 62 + f.last.toNat * 2 ^ 61 + f.im.toNat)

/-- A C-form record from its opcode and fields (R233). -/
def encodeCmd (op : Nat) (f : CmdRec) : Rec :=
  BitVec.ofNat 96
    (2 * 2 ^ 94 + op * 2 ^ 86 + Machine.tyCode f.ty * 2 ^ 82 + f.md.toNat * 2 ^ 78 + f.d.toNat * 2 ^ 73
      + f.s.toNat * 2 ^ 68 + f.t.toNat * 2 ^ 63 + f.ext.toNat * 2 ^ 32 + f.imm.toNat)

/-- The record of what `decode` answers; `none` for a device step, which has no encoding. -/
def encode (d : Decoded) : Option Rec :=
  match d.seq with
  | some f =>
    match Machine.seqRule d.instr with
    | some r => some (encodeSeq r.op f)
    | none => none
  | none =>
    match Machine.nodeRule d.instr with
    | some (f, r) => some (encodeNode r.op f)
    | none =>
      match Machine.cmdRule d.instr with
      | some (f, r) => some (encodeCmd r.op f)
      | none => none

end Sys2Proof
end

