-- ==== Sys2Proof/Config.lean ====
section
/-! DEFINITION. What the specification leaves to the part or leaves free. Every constant here is opaque:
nothing in Lean can evaluate it, so what is proved holds for every value of it. The assumption log names
each one. -/
namespace Sys2Proof.Config

/-- Who moves next when no move is laid out: a number that `Machine.freeTurn` turns into a move (DESIGN CHOICE, log 1). -/
opaque freeChoice : Nat → Nat
/-- The input that a free device step takes from outside (DESIGN CHOICE, log 1). -/
opaque freeInput : Nat → Input
/-- The free device step (DESIGN CHOICE, log 1). -/
opaque freeEvent : Nat → Instr
/-- Nanoseconds that pass between two steps (DESIGN CHOICE, log 2). -/
opaque freeNs : Nat → Nat
/-- The record that the physical function's root program holds at a program counter (R199, DESIGN CHOICE, log 6). -/
opaque serviceRecord : Nat → Rec
/-- The value of a sequence temporary read before it is written, by configuration and place (R232, DESIGN CHOICE, log 11). -/
opaque freshTemp : Nat → Nat → Nat → BitVec 32
/-- SAVESZ, fixed for the part from power-on (R412, DESIGN CHOICE, log 7). -/
opaque saveSize : Nat
/-- The byte at an offset of a written save image (R208 gives its contents, not its layout; DESIGN CHOICE, log 7). -/
opaque saveByte : Nat → Nat → BitVec 8
/-- The vault tile a line is homed in, a fixed hash of PA[47:6] (R111, DESIGN CHOICE, log 15). -/
opaque homeTile : Nat → Nat
/-- The 8-bit residency hash of R119 (DESIGN CHOICE, log 15). -/
opaque residencyHash : Nat → Nat
/-- The row of an HBM line within its channel: the specification gives R440's rows no addresses (DESIGN CHOICE, log 24). -/
opaque hbmRow : Nat → Nat
/-- The range of the annex that a 256-byte block lies in, the ports that a range is interleaved across, and whether it is HDM-DB: the
annex decoders fix them (R121, DESIGN CHOICE, log 15). -/
opaque annexRange : Nat → Nat
opaque annexPorts : Nat → List Nat
opaque annexShared : Nat → Bool
/-- Candidate results of the special functions, in FP32, brought into the error bounds of R170 where they
are used (DESIGN CHOICE, log 10). -/
opaque exp2Bits : BitVec 32 → BitVec 32
opaque log2Bits : BitVec 32 → BitVec 32
opaque rsqBits : BitVec 32 → BitVec 32
opaque rcpBits : BitVec 32 → BitVec 32
opaque sinBits : BitVec 32 → BitVec 32
opaque cosBits : BitVec 32 → BitVec 32
opaque tanhBits : BitVec 32 → BitVec 32
/-- The ECDSA P-384 signature of an attestation report's bytes (R218, DESIGN CHOICE, log 16). -/
opaque signature : List (BitVec 8) → BitVec 768
/-- SHA-384 of a byte string (R217, R220, DESIGN CHOICE, log 16). -/
opaque sha384 : List (BitVec 8) → BitVec 384
/-- The hall, wing and function whose registers the service sequencer's MFS and MTS at a program counter name:
the specification gives that sequencer none of its own (R244, DESIGN CHOICE, log 18). -/
opaque serviceHall : Nat → Nat
opaque serviceWing : Nat → Nat
opaque serviceVf : Nat → Nat
/-- The version of a capability record, by its identifier (R223, DESIGN CHOICE, log 19). -/
opaque capVersion : Nat → Nat
/-- A byte that no store of this package left: what a pool device holds of a line whose only copy was quarantined
(R446), or what another host wrote (R122, DESIGN CHOICE, log 20). -/
opaque freeByte : Nat → BitVec 8
/-- DATA of a registrar entry whose kind R220 gives none (DESIGN CHOICE, log 23). -/
opaque entryData : Nat → BitVec 256
/-- The exponent of an incremental row whose largest difference is infinite, which R194 does not state (DEDUCED, log 85). -/
opaque deltaExponent : Nat → Int
/-- Energy estimate and other readings the part keeps for itself (DESIGN CHOICE, log 2). -/
opaque freeReading : Nat → Nat

end Sys2Proof.Config
end

