-- ==== Sys2Proof/Machine/State.lean ====
section
/-! DEFINITION. The machine's state, as plain data, and the state after reset. Collections are lists of
number and value in ascending order of number (`KMap`); the operations on them are in Machine/Ops.lean. A
field's comment names the rule that gives it. -/
namespace Sys2Proof.Machine

/-- A finite map from numbers, in ascending order, no number twice. -/
abbrev KMap (α : Type) := List (Nat × α)

/-- Bytes by address, ascending, no entry equal to what an unlisted address reads as (0, DESIGN CHOICE, log 4). -/
abbrev Memory := List Host.Cell

/-- The kinds of a token (R46). -/
inductive TokenKind where
  | data | completion | poison | marker
  deriving DecidableEq, Repr

/-- A token without its destination (R46); a tile token has the packet's bytes (R340). `past` lists the
invocations, by serial, whose held stores the token descends from (R130, R135). -/
structure Token where
  value : BitVec 32
  tag : Nat
  kind : TokenKind := .data
  packet : List Byte := []
  past : List Nat := []
  deriving DecidableEq, Repr

/-- Where a circuit or a local destination byte leads (R229, R248). -/
inductive Place where
  | port (cell node port : Nat)
  | queue (cell q : Nat)
  | stream (k : Nat)
  deriving DecidableEq, Repr

/-- The four mesh ports of a hall (R9). -/
inductive MeshPort where
  | north | east | south | west
  deriving DecidableEq, Repr

/-- A token packet on the mesh (R239): the hall whose router holds it, the circuit 0 to 15 of the port it came by (R9), the token. -/
structure Packet where
  hall : Nat
  circuit : Nat
  token : Token
  deriving DecidableEq, Repr

/-- One destination's elastic buffer (R52), the packets on the mesh toward it (R239), the places it has
freed but not reported, and the hand-overs it has not acknowledged (R68). -/
structure Chan where
  src : Nat
  hall : Nat
  ctx : Nat
  wing : Nat
  place : Place
  depth : Nat
  outside : Bool
  queue : List Token := []
  flight : List Packet := []
  freed : Nat := 0
  unacked : Nat := 0
  /-- hand-overs that a router discarded: they are never acknowledged (R454) -/
  lost : Nat := 0
  deriving DecidableEq, Repr

/-- A cell's two in-queues (R62). -/
structure InQueues where
  q0 : List Token := []
  q1 : List Token := []
  deriving DecidableEq, Repr

/-- A frame entry that holds a token (R13, R47 to R49); `own` says which pool it came from. -/
structure FrameEntry where
  token : Token
  own : Bool
  deriving DecidableEq, Repr

/-- A token waiting in the overflow queue for a place (R50). -/
structure Overflow where
  cell : Nat
  ctx : Nat
  key : Nat
  token : Token
  deriving DecidableEq, Repr

/-- One lane's firing: its tag and the operands by port (R47, R56); `moment` counts the steps before its match. -/
structure Lane where
  tag : Nat
  ops : KMap Token
  moment : Nat := 0
  deriving DecidableEq, Repr

/-- A matched instance in a ready queue (R56). -/
structure Inst where
  cell : Nat
  node : Nat
  lane : Lane
  deriving DecidableEq, Repr

/-- The issue being carried out: the region, cell and node, the lanes, and md bits a handler added (R404). -/
structure Issue where
  rid : Nat
  cell : Nat
  node : Nat
  lanes : List Lane
  mdSet : Nat := 0
  retry : Bool := false
  /-- the row of an A packet at which a retried MXROW goes on (R365) -/
  row : Nat := 0
  deriving DecidableEq, Repr

/-- A running Q-sequence of one FIRE issue (R61, R284): lanes with their temporaries; a lane that has
stopped at a trap has `stopped`. `bad` gives the code of the final poison that stands in place of a temporary's value (R396). -/
structure SeqLane where
  lane : Lane
  temps : KMap (BitVec 32) := []
  bad : KMap Nat := []
  stopped : Bool := false
  popped : List Token := []
  past : List Nat := []
  deriving DecidableEq, Repr

structure SeqRun where
  rid : Nat
  cell : Nat
  node : Nat
  index : Nat
  start : Nat
  lanes : List SeqLane
  da : Dest
  db : Dest
  mdSet : Nat := 0
  retry : Bool := false
  deriving DecidableEq, Repr

/-- A raised trap (R396 to R401): its cause, source, operand, where it was raised, the lanes held, for each the destinations that
it would have fed, and the two addresses a record of it carries. -/
structure TrapRec where
  code : Nat
  src : Nat := 0
  operand : Nat := 0
  iv : Nat := 0
  seq : Bool := false
  act : Nat := 0
  cmd : Nat := 0
  cell : Nat := 0
  node : Nat := 0
  laneMask : Nat := 0
  held : List Lane := []
  fed : List (List Dest) := []
  word8 : Nat := 0
  word9 : Nat := 0
  drain : Option (Nat × Nat) := none
  seqRun : Option SeqRun := none
  arrival : Option (Nat × Token) := none
  row : Nat := 0
  deriving DecidableEq, Repr

/-- A stream's descriptor (R112, R249, R322): all six dimensions as they were written, of which the first `count` are enumerated. -/
structure StreamDesc where
  tile : Nat
  slot : Nat
  write : Bool
  fmt : Ty
  fe : Nat
  handle : Nat
  origin : Nat
  count : Nat
  dims : List (Nat × Int)
  deriving DecidableEq, Repr

/-- A stream of a region (R112 to R114, R323). `next` is the element number reached, `pushed` the elements pushed since
the descriptor was written (R463). `held` is the token that a write stream has taken from its circuit for the access in progress
(R382), `done` the bytes of that access that have been moved (R127), `walk` the page walk that it waits for (R105); `ending` says that
STRM.END stops it after that access (R113). -/
structure Stream where
  desc : StreamDesc
  next : Nat := 0
  pushed : Nat := 0
  marked : Bool := false
  barMark : Bool := false
  barred : Bool := false
  running : Bool := false
  started : Bool := false
  drained : Bool := true
  poisonReported : Bool := false
  gallery : Option Nat := none
  held : Option Token := none
  done : List Byte := []
  walk : Option (Nat × Nat) := none
  ending : Bool := false
  deriving DecidableEq, Repr

/-- A node record in element memory, with the first cell and the size of its replication group (R58). -/
structure NodeEntry where
  record : Rec
  base : Nat
  size : Nat
  deriving DecidableEq, Repr

/-- One element-memory bank with the rest of its act's configuration (R36, R39, R249), its loop regions'
free lists and bindings (R53 to R55), COUNT counters (R282) and the md a handler keeps (R404). -/
structure Bank where
  act : Option Nat := none
  nodes : KMap NodeEntry := []
  seqs : KMap Rec := []
  circuits : KMap (BitVec 256) := []
  loops : KMap (Nat × Nat) := []
  rates : KMap Nat := []
  inits : List (BitVec 64) := []
  free : KMap (List Nat) := []
  binds : KMap Nat := []
  counts : KMap Nat := []
  keep : KMap Nat := []
  deriving DecidableEq, Repr

/-- A registry entry's state (R182). -/
inductive DocState where
  | current | superseded | revoked
  deriving DecidableEq, Repr

/-- A document-registry entry (R182). -/
structure DocEntry where
  doc : Nat
  ver : Nat
  base : Nat
  len : Nat
  handle : Nat
  lstride : Nat
  state : DocState
  deriving DecidableEq, Repr

/-- How far an agent has come with the pieces of memory that an access wider than a granule reads and writes, each one event (R127): what
each gave, in order (a write gives nothing), and the page walk it waits for (R105). -/
structure Progress where
  got : List (List Byte) := []
  walk : Option (Nat × Nat) := none
  deriving DecidableEq, Repr

/-- A sequencer (R37, R297, R308, R399): registers a1 to a31, the act and command index (prologue 0 to 63,
epilogue 64 to 79), the handler's act and command index, the return stack, and what a command waits for. `progress` counts what a
command over a range has done, `walk` is the page walk that the command waits for or has waited for, with the address it was for (R105), `entry` the registry entry
that a SPLICE has read (R376), `pieces` how far the command has come with a wide access, `swap` the identifier of the context that a CTX.SWAP has saved and whose placement it is still to load (R209). -/
structure Sequencer where
  regs : List Reg
  act : Nat := 0
  index : Nat := 0
  handler : Option (Nat × Nat) := none
  stack : List Nat := []
  waiting : Bool := false
  waitStart : Nat := 0
  service : Nat := 0
  progress : Nat := 0
  walk : Option (Nat × Nat) := none
  entry : Option DocEntry := none
  pieces : Progress := {}
  swap : Option Nat := none
  deriving DecidableEq, Repr

/-- The system registers of region scope (R244, R396 to R399) and GWIDTH's counts (R57). DEDUCED, log 99. -/
structure RegionRegs where
  lostTerm : Nat := 0
  probUnder : Nat := 0
  thresh : Nat := 0
  trapEn : BitVec 64 := 0x03E80032#64 <<< 32
  trapVec : BitVec 64 := 0
  gwIssues : Nat := 0
  gwInsts : Nat := 0
  perf : List Nat := [0, 0, 0, 0, 0, 0]
  deriving DecidableEq, Repr

/-- The states of a region (R40). -/
inductive RegionState where
  | free | idle | loading | running | sealed | snapshotting | frozen
  deriving DecidableEq, Repr

/-- A run of an act (R38): the next iteration's identifier and how many are left, whether the nest has its start bit and has not sent its
finish bit (R60), the tags drawn, the iterations started and not retired, and the threads admitted. -/
structure Run where
  next : Nat := 0
  left : Nat := 0
  counting : Bool := false
  drawn : List Nat := []
  started : List Nat := []
  admitted : Nat := 0
  deriving DecidableEq, Repr

/-- The quiescence detector: the four counts of its last scan and how many scans in a row were zero (R67, R315). -/
structure Detector where
  tokens : Nat := 0
  frames : Nat := 0
  requests : Nat := 0
  handovers : Nat := 0
  zeros : Nat := 0
  deriving DecidableEq, Repr

/-- A plinth's accumulator element (R162): a finite (V, E) or a special value. -/
inductive Csa where
  | fin (v : Int) (e : Nat)
  | posInf | negInf | nan
  deriving DecidableEq, Repr

/-- ACC's state for one tag of a node (R372): per query row the maximum and the denominator, the accumulator rows
taken, the pairs joined and the finish count. -/
structure AccTag where
  maxima : List (Option Int)
  dens : List Csa
  rows : List Nat
  joined : Nat
  count : Option Nat
  /-- an uncorrected error has met one of its rows (R438) -/
  poison : Option Nat := none
  deriving DecidableEq, Repr

/-- A tier-1 pre-emption in progress (R204, R455): the save slot, absent at a slice's end, the cells that have not saved, and
when it began. -/
structure Snapshot where
  slot : Option Nat
  pending : List Nat
  start : Nat
  deriving DecidableEq, Repr

/-- A program image read at GO (R213, R249): its act blocks and buffer table. -/
structure Program where
  acts : List (List Byte) := []
  origin : Nat := 0
  shape : Nat := 0
  plinths : Nat := 0
  deriving DecidableEq, Repr

/-- A thread waiting at an act entry (R42, R287): its work identifier. -/
abbrev Thread := Nat

/-- A region (R18 to R22, R36 to R69). -/
structure Region where
  hall : Nat
  ctx : Nat
  shape : Nat
  origin : Nat
  vf : Nat
  wing : Nat
  root : Bool
  parent : Option Nat
  fres : Nat
  state : RegionState
  prior : RegionState := .idle
  seq : Sequencer
  sys : RegionRegs := {}
  header : BitVec 128
  program : Program
  active : Bank := {}
  idle : Bank := {}
  loading : Option Nat := none
  run : Run := {}
  runs : Nat := 0
  threads : KMap (List Thread) := []
  ages : KMap Nat := []
  preload : Option Nat := none
  frames : KMap FrameEntry := []
  queues : KMap InQueues := []
  ready : List Inst := []
  fires : List SeqRun := []
  streams : KMap Stream := []
  routes : KMap Nat := []
  /-- the start and finish bits that the control network has carried in the run, in order (R60, R240) -/
  control : List (BitVec 32) := []
  acc : KMap AccTag := []
  traps : List TrapRec := []
  trap : Option TrapRec := none
  /-- issues that a handler has retried and that have not fired again (R404) -/
  again : List Issue := []
  detector : Detector := {}
  tickets : Nat := 0
  children : List Nat := []
  /-- what SPLIT returns, by the identifier of the child that ended, the earliest first (R311) -/
  results : KMap (List (BitVec 64)) := []
  snapshot : Option Snapshot := none
  /-- the number of the image that holds the region while a pre-emption has stopped it (R204, R206) -/
  saved : Option Nat := none
  /-- the end of a slice stopped it (R202) -/
  autoSaved : Bool := false
  /-- its run has ended and the block scheduler is to decide (R44) -/
  deciding : Bool := false
  silence : Nat := 0
  releasing : Bool := false
  /-- LAUNCH has replaced the launch that the banks were loaded for (R210) -/
  relaunched : Bool := false
  /-- an image restored it Sealed with a run in progress, which its CFG.RUN goes on with (R318) -/
  midRun : Bool := false
  /-- how a stalled NSEED ended: served, or failed with a trap (R96, R426, R427) -/
  seed : Option (Option TrapRec) := none
  deriving DecidableEq, Repr

/-- A memory request of a node (R130, R289 to R294, R418). -/
inductive MemOp where
  | load | store (data : List Byte) | loadFE (take : Bool) | storeFE (beyond : Bool) (data : List Byte)
  | amo (op : Nat) (arg : BitVec 32) (md : Nat) | cas (expected new : BitVec 32) | fence (scope : Nat)
  /-- a served request whose tokens wait for places (R52) -/
  | reply (a b : Option Token)
  /-- a write that a commit sent to another hall's scratch or the host window (R136) -/
  | posted (data : List Byte) (serial : Nat)
  /-- a drain target's write of an accumulator row (R363) -/
  | drain (plinth row : Nat) (data : List Byte)
  deriving DecidableEq, Repr

/-- What a request waits for (R417, R418). -/
inductive Phase where
  | walking | issued | granule | pinned | hold | fenced
  deriving DecidableEq, Repr

/-- A memory request. `locs` gives the locations of the later pages it reaches, by the page's first address, `need` the address it
walks for, `got` the bytes that a wide read has read (R127), `moment` the step of its issue; a snoop met the fill of a line that it waits
for where `snooped` (R123). -/
structure Req where
  rid : Nat
  cell : Nat
  node : Nat
  lane : Lane
  wid : Option Nat
  op : MemOp
  ty : Ty
  da : Dest
  db : Dest
  va : Nat
  loc : Option Nat
  len : Nat
  phase : Phase
  number : Nat
  retry : Bool := false
  walk : Nat := 0
  locs : KMap Nat := []
  need : Nat := 0
  got : List Byte := []
  snooped : Bool := false
  moment : Nat := 0
  deriving DecidableEq, Repr

/-- A waiting NRD, a stalled NWR or, with cell 64, a stalled NSEED (R81, R83, R87, R96). -/
structure NameReq where
  rid : Nat
  cell : Nat
  node : Nat
  lane : Lane
  stmt : Nat
  name : Nat
  take : Bool
  write : Bool
  inv : Option Nat
  ty : Ty
  uses : Nat
  data : List Byte
  word : Nat
  da : Dest
  db : Dest
  retry : Bool := false
  deriving DecidableEq, Repr

/-- A held store in a store hold, in order of arrival (R71), with the guest address it was made at; `atomic` marks the write half of
an AMO or CAS (R134). -/
structure Held where
  inv : Nat
  addr : Nat
  data : List Byte
  vf : Nat
  va : Nat
  atomic : Bool := false
  deriving DecidableEq, Repr

/-- An open tile invocation (R71, R80, R409): its region and prefix, the iterations not retired, those that
retired, and the discard mark with the code of its first poison. `serial` is never used twice. -/
structure Invocation where
  rid : Nat
  serial : Nat
  first : Nat
  live : Nat
  retired : List Nat
  discarded : Option Nat
  poisoned : Nat
  deriving DecidableEq, Repr

/-- A slot's state (R79). -/
inductive SlotState where
  | empty | held | full | moving
  deriving DecidableEq, Repr

/-- A fold slot: its header (R78) and its value tile. -/
structure FoldSlot where
  iv : Nat
  stmt : Nat
  state : SlotState
  uses : Nat
  wr : Bool
  rd : Bool
  inv : Nat
  tile : List Byte
  /-- a poison marker lies on the value tile (R438) -/
  bad : Bool := false
  deriving DecidableEq, Repr

/-- A fold's declaration (R75). -/
structure Lattice where
  stmt : Nat
  size : Nat
  uses : Nat
  skewed : Bool
  m : List Nat
  stride : List Nat
  coef : List Int
  modulus : Nat
  base : Nat
  dists : List (List Int)
  deriving DecidableEq, Repr

/-- The check state of a fold (R92). -/
inductive CheckState where
  | unchecked | accepted | refused
  deriving DecidableEq, Repr

/-- A live fold, of a function's region; `gate` holds the new lattice while a REFOLD has the gate closed (R94). -/
structure Fold where
  owner : Nat
  vf : Nat := 0
  lattice : Lattice
  check : CheckState
  slots : KMap FoldSlot
  gate : Option Lattice := none
  deriving DecidableEq, Repr

/-- A vitrine slot's packet and the OPLD parameters it was loaded with (R207, R359); a slot that ACC filled has none. -/
structure VitSlot where
  packet : List Byte
  tr : Bool
  ref : Option Nat
  deriving DecidableEq, Repr

/-- An accumulator row (R359, R365); `completed` is the cell, node and tag of the firing that completed it. -/
structure AccRow where
  tag : Nat
  complete : Bool
  nextChunk : Nat
  elems : List Csa
  completed : Nat × Nat × Nat := (0, 0, 0)
  /-- an uncorrected error has met it: it emits final poison with this code (R438) -/
  poison : Option Nat := none
  deriving DecidableEq, Repr

/-- MX.CFG's setting (R362). -/
structure MxCfg where
  afmt : Ty
  n : Nat
  keep : Bool
  sparse : Bool
  deriving DecidableEq, Repr

/-- A drain target (R363). -/
structure Drain where
  ref : Nat
  pitch : Nat
  base : Nat
  shadow : Bool
  deriving DecidableEq, Repr

/-- An A packet in work at a plinth, or waiting behind one: its next row, and the code of a row that a
disposition poisoned (R365, R366, R396, R418). -/
structure PlinthJob where
  rid : Nat
  cell : Nat
  node : Nat
  lane : Lane
  row : Nat
  retry : Bool := false
  poison : Option Nat := none
  deriving DecidableEq, Repr

structure Plinth where
  holder : Option Nat := none
  slotHolder : KMap Nat := []
  slots : KMap VitSlot := []
  zeroing : List Nat := []
  cfg : Option MxCfg := none
  rows : KMap AccRow := []
  drain : Option Drain := none
  jobs : List PlinthJob := []
  rotor : Nat := 0
  deriving DecidableEq, Repr

/-- The MESI states of a cached line (R111). -/
inductive Mesi where
  | modified | exclusive | shared
  deriving DecidableEq, Repr

/-- A vault copy of a line: the way of its home tile that holds it (R111), the range register of the retained class it is of (R119);
`quarantined` as in R445. -/
structure CacheLine where
  mesi : Mesi
  way : Nat
  range : Option Nat := none
  quarantined : Bool := false
  deriving DecidableEq, Repr

/-- A translation held by a hall (R105): the page it leads to, the page size's exponent, the rights of both stages and when it was
filled. -/
structure TlbEntry where
  base : Nat
  size : Nat
  write : Bool
  atomic : Bool
  filled : Nat
  deriving DecidableEq, Repr

/-- A page walk (R105): the function and the 64 KiB of its first miss, the halls that asked, and whether an invalidation met it. -/
structure Walk where
  vf : Nat
  page : Nat
  hall : Nat
  joined : List Nat
  number : Nat
  stale : Bool := false
  started : Bool := true
  deriving DecidableEq, Repr

/-- A way under the way-change walker and the use it will take (R110, R120). -/
structure WayWalk where
  tile : Nat
  way : Nat
  use : Nat
  /-- the range register that the way will be reserved to (R120) -/
  range : Option Nat := none
  deriving DecidableEq, Repr

structure Hall where
  wing : Option Nat := none
  powered : Bool := false
  filter : Option Nat := none
  portsOpen : Bool := false
  /-- the routing table: the port toward each hall of the wing (R24) -/
  table : KMap MeshPort := []
  released : Bool := false
  freq : Nat := 2700
  step : Option Nat := none
  ceiling : Nat := 2700
  /-- thousandths of a cycle of the own clock that have passed, and had when the window began; those of the window in which a producer
  was held, and those starved (R198) -/
  cycles : Nat := 0
  windowStart : Nat := 0
  pressed : Nat := 0
  starved : Nat := 0
  temps : Nat × Nat := (0, 0)
  /-- in thermal hold, and since when (R461) -/
  held : Bool := false
  heldSince : Nat := 0
  vtuse : List Nat
  walking : List WayWalk := []
  /-- the range register that a way is reserved to, by 16 times the tile plus the way (R119, R120) -/
  reserved : KMap Nat := []
  spare : List (Nat × Nat) := []
  cache : KMap CacheLine := []
  tlb : KMap TlbEntry := []
  overflow : List Overflow := []
  invs : KMap Invocation := []
  hold : List Held := []
  pins : KMap Nat := []
  folds : KMap Fold := []
  plinths : List Plinth := [{}, {}, {}]
  served : KMap Nat := []
  credits : KMap Nat := []
  deriving DecidableEq, Repr

/-- A segment's state (R175, R447). -/
inductive SegState where
  | live | spliced | repairing | stale
  deriving DecidableEq, Repr

/-- A segment entry (R175). -/
structure Segment where
  state : SegState
  wmark : Nat
  start : Nat
  len : Nat
  rot : Int
  skip : Nat
  handle : Nat
  doc : Nat
  ver : Nat
  lstride : Nat
  reg : Nat
  id : Nat
  deriving DecidableEq, Repr

/-- A gallery link (R174, R184). -/
structure Link where
  hall : Nat
  tile : Nat
  limit : Nat := 0
  gen : Nat := 0
  segs : List Segment := []
  deriving DecidableEq, Repr

/-- A wave record (R184); a cut's `len` counts the positions it removed. -/
structure Wave where
  gen : Nat
  cut : Bool
  pos : Nat
  len : Nat
  deriving DecidableEq, Repr

/-- A wave that still passes (R184): the next link it reaches, the link that holds the position, the entry that a
splice writes there, and the region whose command waits for it. -/
structure Passing where
  wave : Wave
  next : Nat
  holder : Nat
  entry : Option Segment
  waiter : Option Nat
  deriving DecidableEq, Repr

/-- A block read in flight (R178, R185): its request's tag and position, the position it looks for now, and the positions of its block in
the numbering of its generation. -/
structure BlockRead where
  number : Nat
  rid : Nat
  tag : Nat
  rowtag : Nat
  layer : Nat
  head : Nat
  pos : Nat
  rows : List Nat
  gen : Nat
  link : Nat
  pieces : Progress := {}
  deriving DecidableEq, Repr

structure Gallery where
  layers : Nat
  heads : Nat
  dim : Nat
  fmt : Ty
  base : BitVec 32
  owner : Nat
  rq : Nat
  ks : Nat
  vs : Nat
  vf : Nat
  ctx : Nat
  links : List Link
  gen : Nat := 0
  waves : List Wave := []
  wave : Option Passing := none
  reads : List BlockRead := []
  broken : Bool := false
  shortRun : Option Nat := none
  nextId : Nat := 1
  deriving DecidableEq, Repr

/-- A repair (R187, R188). `out` lists the identifiers of the layer's threads; `selected`, the selected positions
counted from the segment's first, is known after step 2. -/
structure Repair where
  number : Nat
  vf : Nat
  ctx : Nat
  wing : Nat
  gallery : Nat
  seg : Nat
  probe : Nat
  entry : Nat
  region : Nat
  staging : Nat
  thresh : BitVec 32
  running : Bool := false
  layer : Nat := 0
  out : List Nat := []
  copying : Bool := false
  selected : Option (List Nat) := none
  cancelled : Bool := false
  ended : Bool := false
  pieces : Progress := {}
  deriving DecidableEq, Repr

/-- One conservator (R187). -/
structure Conservator where
  working : Bool := true
  count : Nat := 0
  repairs : List Repair := []
  deriving DecidableEq, Repr

/-- A buffer (R100): scratch of a hall or guest memory, base, length and rights. -/
structure Buffer where
  scratch : Option Nat
  base : Nat
  len : Nat
  read : Bool
  write : Bool
  atomic : Bool
  deriving DecidableEq, Repr

/-- A cast's state while no run is in work (R196). -/
inductive CastState where
  | cold | warm
  deriving DecidableEq, Repr

/-- A DELTA.RUN at a cast: its region, destination register and plinth, and how far its accesses have come. -/
structure CastRun where
  rid : Nat
  d : Nat
  plinth : Nat
  pieces : Progress := {}
  deriving DecidableEq, Repr

/-- A cast (R193 to R195, R449); `counters` holds the counters of selectors 0 to 7. `map` and `seen` are the mapping and
the version of the weights that the run in work has read (R141). -/
structure Cast where
  hall : Nat
  vf : Nat
  ctx : Nat
  input : Nat
  weights : Nat
  output : Nat
  m : Nat
  k : Nat
  n : Nat
  xfmt : Ty
  period : Nat
  bound : BitVec 32
  pstride : Nat
  scratch : Nat
  state : CastState := .cold
  afterRef : Bool := true
  version : Nat := 0
  runs : Nat := 0
  counters : List Nat := [0, 0, 0, 0, 0, 0, 0, 0]
  runner : Option CastRun := none
  queue : List CastRun := []
  map : Option Buffer := none
  seen : Nat := 0
  deriving DecidableEq, Repr

/-- A range register of a wing (R118). -/
abbrev RangeReg := BitVec 128

structure Wing where
  x0 : Nat
  y0 : Nat
  width : Nat
  height : Nat
  tenant : Nat
  ranges : KMap RangeReg := []
  sliceLen : Nat := 0x01000000
  forf : Nat := 0
  wpcap : Nat := 2400
  /-- the function that a slice serves, when its slice began, and the home hall's `cycles` then (R202) -/
  inService : Option Nat := none
  sliceStart : Nat := 0
  sliceCycles : Nat := 0
  galleries : KMap Gallery := []
  docs : KMap DocEntry := []
  casts : KMap Cast := []
  deriving DecidableEq, Repr

/-- A handle's visible and shadow buffers and its version (R140, R319, R329). -/
structure Handle where
  visible : Option Buffer := none
  shadow : Option Buffer := none
  version : Nat := 0
  shadowFailed : Bool := false
  deriving DecidableEq, Repr

/-- What an accepted engine command does (R301, R328 to R333): a copy, a copy whose words leave as tokens on an
out-port from a tag on, a send to a ring's successor, a collective by its operation, root, type, element count and
number on its ring. -/
inductive EngineOp where
  | copy
  | mcast (out tag : Nat)
  | ringPut (ring : Nat)
  | coll (ring op root : Nat) (ty : Ty) (n seq : Nat)
  deriving DecidableEq, Repr

/-- An accepted engine command. The two mappings are read once, when it is accepted (R140). It outlives its region,
whose number is then absent. `data` holds what it has read, `sent` the words that have left, `chunks` the final
chunks of a collective, `error` the cause and the address of its fault. -/
structure EngineCmd where
  number : Nat
  rid : Option Nat
  hall : Nat
  vf : Nat
  ctx : Nat
  cell : Nat
  ticket : Nat
  op : EngineOp
  src : Option Buffer
  soff : Nat
  dst : Option Buffer
  doff : Nat
  len : Nat
  shadow : Option Nat := none
  data : List Byte := []
  sent : Nat := 0
  chunks : KMap (List Byte) := []
  done : Bool := false
  error : Option (Nat × Nat) := none
  reported : Bool := false
  /-- it has started (R301), the bytes of its destination that are written, and the page walk it waits for (R105, R127) -/
  started : Bool := false
  moved : Nat := 0
  walk : Option (Nat × Nat) := none
  deriving DecidableEq, Repr

/-- A message of a collective: its number on the ring, its chunk, whether the chunk is final, its bytes (R225). -/
structure CollMsg where
  seq : Nat
  chunk : Nat
  final : Bool
  bytes : List Byte
  deriving DecidableEq, Repr

/-- A ring of a virtual function (R191, R192, R331, R332). `opener` is the region whose RING.OPEN has not returned,
`held` says that the slot of the last RING.TAKE has not been returned, `arriving` lists the messages that are still to be written into
slots, `pieces` how far the first of them has come. -/
structure Ring where
  members : List Nat
  handle : Nat
  ctx : Nat
  slotSize : Nat
  slot0 : Nat
  opened : List Nat
  opener : Option Nat
  free : Nat := 2
  filled : Nat := 0
  taken : Nat := 0
  held : Bool := false
  colls : Nat := 0
  inbox : List CollMsg := []
  arriving : List (List Byte) := []
  pieces : Progress := {}
  broken : Bool := false
  deriving DecidableEq, Repr

/-- A saved region image (R204 to R208, R318, R337), held as the state it stands for and known by the bytes that its
number gives (DESIGN CHOICE, log 7). `restored` lists the requests and name requests that tier 1 withdrew, or that CTX.SAVE took. -/
structure SaveImage where
  number : Nat
  tier : Nat
  rid : Nat
  region : Region
  reqs : List Req
  names : List NameReq
  hold : List Held
  invs : KMap Invocation
  pins : KMap Nat
  overflow : List Overflow
  chans : KMap Chan
  folds : KMap Fold
  plinths : List Plinth
  /-- it is the only copy of what it holds: CTX.SAVE took it and no load has put it back (R318) -/
  vacated : Bool := false
  /-- a slice's end took it, and another function's region has its place (R202, R210) -/
  parked : Bool := false
  /-- parked, of a root region that has ended: its context awaits its scrub (R216) -/
  releasing : Bool := false
  deriving DecidableEq, Repr

structure VFn where
  wing : Option Nat := none
  mbimg : Nat := 0
  mbhdr0 : BitVec 64 := 0
  mbhdr1 : BitVec 64 := 0
  mbarg : BitVec 64 := 0
  fres : Nat := 0
  st : Nat := 0
  ctx : Nat := 0
  shape : Nat := 0
  saveBase : Nat := 0
  guestRoot : Nat := 0
  hostRoot : Nat := 0
  tinv : Option (Nat × Nat) := none
  handles : KMap Handle := []
  events : KMap (BitVec 64) := []
  faultSeq : Nat := 0
  rings : KMap Ring := []
  saves : List SaveImage := []
  deriving DecidableEq, Repr

/-- The 2 MiB frames of HBM (R214, R215, R442): owners, the clean pool as ranges in order, the scrub
queue, frames being scrubbed (a second time when the flag is set), frames marked bad while owned, and bad
frames that have been freed. A frame in none of these is ownerless and not clean. -/
structure Frames where
  owners : KMap Nat := []
  clean : List (Nat × Nat) := []
  queue : List Nat := []
  scrubbing : List (Nat × Bool) := []
  marked : List Nat := []
  bad : List Nat := []
  deriving DecidableEq, Repr

/-- A registrar entry (R220). -/
structure RegEntry where
  chain : BitVec 384
  body : BitVec 384
  deriving DecidableEq, Repr

/-- The life-cycle states (R219). -/
inductive LifeCycle where
  | manufacture | provisioned | deployed | returned
  deriving DecidableEq, Repr

/-- The registrar (R220 to R222, R458). -/
structure Registrar where
  epoch : Nat := 0
  count : Nat := 0
  entries : List RegEntry := []
  exported : Nat := 0
  acked : Nat := 0
  regFail : Bool := false
  warned : Bool := false
  deriving DecidableEq, Repr

/-- A Xipex link (R224, R451). -/
structure XLink where
  present : Bool := true
  up : Bool := true
  training : Bool := false
  retries : Nat := 0
  fails : Nat := 0
  deriving DecidableEq, Repr

/-- An annex port (R121, R445). -/
structure Annex where
  present : Bool := true
  trained : Bool := true
  lost : Bool := false
  deriving DecidableEq, Repr

/-- The error ring's registers and records (R435, R436). -/
structure ErrRing where
  base : Nat := 0
  producer : Nat := 0
  consumer : Nat := 0
  seq : Nat := 0
  lost : Nat := 0
  waiting : List (List (BitVec 64)) := []
  deriving DecidableEq, Repr

/-- A running self-test (R436, R439): the class of its error, the unit's kind, hall or stack, index, way and row, the
address, and the function that the error affected. -/
structure SelfTest where
  cls : Nat
  unit : Nat
  hall : Nat
  index : Nat
  way : Nat
  row : Nat
  addr : Nat
  vf : Option Nat
  deriving DecidableEq, Repr

/-- An entry of the hypervisor call queue (R336); `handler` says that a trap handler made the call. A region that has
ended is absent. -/
structure HCall where
  vf : Nat
  rid : Option Nat
  handler : Bool
  fn : Nat
  arg : BitVec 64
  taken : Bool := false
  deriving DecidableEq, Repr

structure Package where
  life : LifeCycle := .manufacture
  begun : Nat := 0
  done : Nat := 0
  measures : List (BitVec 384)
  bootFail : Nat := 0
  badDies : List Nat := []
  booted : Bool := false
  /-- a boot waits for room in the registrar's buffer for its entries (R222) -/
  booting : Bool := false
  tripped : Bool := false
  number : Nat := 0
  routes : KMap Nat := []
  xlinks : List XLink
  annex : List Annex
  annexStores : List (List Nat) := [[], []]
  annexDropped : Nat := 0
  hostUp : Bool := true
  msi : List (Nat × Nat) := []
  msiWaiting : List (Nat × Nat) := []
  registrar : Registrar := {}
  regBase : Nat := 0
  errors : ErrRing := {}
  ptmo : Nat := 0x64
  rescrub : Bool := false
  /-- the HBM ranges that the host port exposes as HDM-H: base and length (R211) -/
  hdm : KMap (Nat × Nat) := []
  stackTemps : List Nat := [0, 0, 0, 0, 0, 0, 0, 0]
  throttled : Nat := 0
  frames : Frames := {}
  tests : List SelfTest := []
  /-- when the tests that a unit passed lately ended (R439) -/
  errCounts : KMap (List Nat) := []
  hbmSpares : KMap Nat := []
  retired : List Nat := []
  /-- attestation reports that have been made: what each holds and its signature (R218) -/
  reports : List (List Byte × BitVec 768) := []
  hcalls : KMap HCall := []
  hcallOrder : List Nat := []
  /-- replies that their callers have not yet read: function (times 65,536) and region, whether its handler called, value -/
  hcallReplies : List (Nat × Bool × BitVec 64) := []
  keys : KMap Nat := []
  outbox : List (Nat × Flit) := []
  /-- openings of rings that peers have told of and no ring here has met (R331) -/
  ringOpens : List (Nat × List Nat) := []
  engines : List EngineCmd := []
  /-- tickets given to the service sequencer (R297, R301) -/
  serviceTickets : Nat := 0
  trips : List Nat := []
  /-- FRALLOC commands that wait: the wing and since when (R214, R457) -/
  frallocs : List (Nat × Nat) := []
  deriving DecidableEq, Repr

/-- Who makes the next move (DESIGN CHOICE, log 1). -/
inductive Turn where
  /-- the node or sequence record of the latched issue runs -/
  | fire
  /-- a cell's issue cycle: CELL_ISSUE and then the record of the node it chose -/
  | issue (hall cell : Nat)
  /-- a running Q-sequence's next record -/
  | qrec (k : Nat)
  /-- a region's sequencer -/
  | cmd (rid : Nat)
  /-- the service sequencer -/
  | service
  /-- a step of the device's own agents or an input from outside -/
  | event (i : Instr) (x : Input)
  deriving DecidableEq, Repr

/-- Why the model stops. -/
inductive Fault where
  /-- raised by `step` once THERMTRIP is asserted and until power returns (R461: all state is lost); safe -/
  | powerLost
  deriving DecidableEq, Repr

/-- Why an instruction has no meaning here. -/
inductive Refusal where
  /-- raised by `exec`'s arm of an instruction that has no meaning yet; safe -/
  | notModelled (mnemonic : String)
  deriving DecidableEq, Repr

/-- The whole machine. `turn` is the move being made, `agenda` the moves laid out next, `tick` counts steps
and free values, `moves` the steps alone, `issue` and `seqNow` are the latches a record's meaning reads, `input` is what a device
step takes from outside. -/
structure State where
  turn : Turn
  agenda : List Turn
  tick : Nat
  moves : Nat
  timeNs : Nat
  issue : Option Issue
  seqNow : Option (Nat × SeqRec)
  who : Nat
  input : Input
  mem : Memory
  full : List Nat
  marks : List Nat
  pkg : Package
  halls : List Hall
  wings : KMap Wing
  vfs : KMap VFn
  regions : KMap Region
  service : Sequencer
  chans : KMap Chan
  reqs : List Req
  names : List NameReq
  walks : List Walk
  conservators : List Conservator
  deriving DecidableEq, Repr

/-- The reset way-use register of a tile: ways 0 to 14 cache, way 15 fixed (R109). -/
def vtuseReset (tile : Nat) : Nat := (if tile < 8 then 14 else 15) * 2 ^ 60

/-- A hall at power-on (R26, R109, R217): in no wing, gated, with every memory wiped. -/
def Hall.reset : Hall :=
  { vtuse := (List.range 12).map vtuseReset }

/-- A sequencer with every register zero (R310). -/
def Sequencer.zero : Sequencer := { regs := List.replicate 31 0 }

/-- The number by which `who` names the service sequencer (R199). -/
def serviceRid : Nat := 0x10000

/-- The machine right after reset, before power-good: every memory is wiped by the boot that POWER_GOOD
starts (R217). Values the specification does not give: DESIGN CHOICE, logs 3, 4, 8; DEDUCED, log 14. -/
def State.reset : State where
  turn := .fire
  agenda := []
  tick := 0
  moves := 0
  timeNs := 0
  issue := none
  seqNow := none
  who := serviceRid
  input := .absent
  mem := []
  full := []
  marks := []
  pkg := {
    measures := List.replicate 24 0
    xlinks := List.replicate 16 {}
    annex := List.replicate 12 {} }
  halls := List.replicate 64 Hall.reset
  wings := []
  vfs := []
  regions := []
  service := Sequencer.zero
  chans := []
  reqs := []
  names := []
  walks := []
  conservators := List.replicate 4 {}

end Sys2Proof.Machine
end

