-- ==== Sys2Proof/Machine/Base.lean ====
section
/-! DEFINITION. The operations on the state that every meaning is built from: maps, memory, effects and
the log of effects a step makes, translation, records and tokens. -/
namespace Sys2Proof.Machine

/-! ### Maps -/

/-- The value of a number in a map. -/
def kget {α : Type} (m : KMap α) (k : Nat) : Option α :=
  match m with
  | [] => none
  | (j, v) :: t => if j = k then some v else kget t k

/-- The map with one entry set, in ascending order. -/
def kset {α : Type} (m : KMap α) (k : Nat) (v : α) : KMap α :=
  match m with
  | [] => [(k, v)]
  | (j, w) :: t => if k < j then (k, v) :: (j, w) :: t else if k = j then (k, v) :: t else (j, w) :: kset t k v

/-- The map without one entry. -/
def kdel {α : Type} (m : KMap α) (k : Nat) : KMap α := m.filter (fun p => p.1 != k)

/-- A number added to an ascending list without repeats. -/
def addNat (l : List Nat) (k : Nat) : List Nat :=
  match l with
  | [] => [k]
  | j :: t => if k < j then k :: j :: t else if k = j then j :: t else j :: addNat t k

/-- The value of an optional entry, or a default. -/
def kgetD {α : Type} (m : KMap α) (k : Nat) (d : α) : α := (kget m k).getD d

/-- The least of the first `n` numbers that satisfies `p`. -/
def firstFree (n : Nat) (p : Nat → Bool) : Option Nat := (List.range n).find? p

/-! ### Bytes and memory -/

/-- What an unlisted address reads as (R217 wipes every memory; DESIGN CHOICE, log 4). -/
def unlisted : Byte := 0

/-- The byte at an address. -/
def readByte (m : Memory) (a : Nat) : Byte :=
  match m with
  | [] => unlisted
  | (b, v) :: t => if b = a then v else readByte t a

/-- Memory with one byte written, keeping the canonical form. -/
def writeByte (m : Memory) (a : Nat) (v : Byte) : Memory :=
  match m with
  | [] => if v = unlisted then [] else [(a, v)]
  | (b, w) :: t =>
    if a < b then (if v = unlisted then (b, w) :: t else (a, v) :: (b, w) :: t)
    else if a = b then (if v = unlisted then t else (a, v) :: t)
    else (b, w) :: writeByte t a v

/-- The canonical form: addresses strictly rising, no entry equal to an unlisted byte. -/
def Memory.wf : Memory → Bool
  | [] => true
  | [(_, v)] => v != unlisted
  | (a, v) :: (b, w) :: t => v != unlisted && a < b && Memory.wf ((b, w) :: t)

/-- The bytes from an address on. -/
def readBytes (m : Memory) (a n : Nat) : List Byte := (List.range n).map (fun i => readByte m (a + i))

/-- The number a byte list holds, little-endian. -/
def leNat : List Byte → Nat
  | [] => 0
  | b :: t => b.toNat + 256 * leNat t

/-- The number of `n` bytes at an address. -/
def readNat (m : Memory) (a n : Nat) : Nat := leNat (readBytes m a n)

/-- Bit `i` to `i + w − 1` of a number. -/
def bits (n i w : Nat) : Nat := n / 2 ^ i % 2 ^ w

/-- A number of `w` bits read as two's complement. -/
def signed (w n : Nat) : Int := if n % 2 ^ w < 2 ^ (w - 1) then (n % 2 ^ w : Nat) else (n % 2 ^ w : Nat) - (2 ^ w : Nat)

/-- An integer reduced to `w` bits. -/
def unsigned (w : Nat) (z : Int) : Nat := (z % (2 ^ w : Nat)).toNat

/-! ### Locations -/

/-- Scratch byte `off` of a hall in the model's one numbering of bytes: above the 52-bit physical addresses
of R107. -/
def scratchAddr (hall off : Nat) : Nat := 2 ^ 52 + hall * 2 ^ 24 + off

/-- The address is a scratch byte. -/
def isScratch (a : Nat) : Bool := 2 ^ 52 ≤ a

/-- The unit a line-wide rule works on: a 64-byte line, or a 16-byte granule of scratch (R115, R127, R134). -/
def lineOf (a : Nat) : Nat := if isScratch a then a / 16 * 16 else a / 64 * 64

/-- The lines that `n` bytes at an address touch. -/
def linesOf (a n : Nat) : List Nat := ((List.range n).map (fun i => lineOf (a + i))).eraseDups

/-- The granules that `n` bytes at an address touch (R115, R127). -/
def granulesOf (a n : Nat) : List Nat := ((List.range n).map (fun i => (a + i) / 16)).eraseDups

/-- The stack and the channel of an HBM address (R108). -/
def hbmStack (a : Nat) : Nat := bits a 12 3 ^^^ bits a 21 3
def hbmChannel (a : Nat) : Nat := bits a 7 5

/-! ### Effects -/

/-- One change to the machine. Every meaning is a list of these. -/
inductive Effect where
  | bump
  | agenda (l : List Turn)
  | issue (i : Option Issue)
  | seqNow (q : Option (Nat × SeqRec))
  | byte (a : Nat) (v : Byte)
  | granule (g : Nat) (full : Bool)
  | mark (line : Nat) (on : Bool)
  | region (rid : Nat) (r : Option Region)
  | hall (h : Nat) (v : Hall)
  | wing (w : Nat) (v : Option Wing)
  | vf (f : Nat) (v : VFn)
  | chan (k : Nat) (c : Option Chan)
  | reqs (l : List Req)
  | names (l : List NameReq)
  | walks (l : List Walk)
  | conservators (l : List Conservator)
  | service (q : Sequencer)
  | pkg (p : Package)
  | lifeNext
  | entry (body : BitVec 384)
  | epoch
  | registrar (exported acked : Nat) (regFail warned : Bool)
  | clear (lo n : Nat)
  | remap (hall : Nat) (src : List (Option Nat))
  | wipe
  | power (p : Package)
  deriving Repr

/-- The bytes of a number, most significant 384 bits of a digest input (R220). -/
def bytes384 (v : BitVec 384) : List Byte := bytesOfNat 48 v.toNat

/-- The chain value of the next registrar entry (R220). -/
def nextChain (r : Registrar) (body : BitVec 384) : BitVec 384 :=
  Config.sha384 (bytes384 ((r.entries.getLast?.map RegEntry.chain).getD 0) ++ bytes384 body)

/-- The life-cycle state after one (R219). -/
def LifeCycle.next : LifeCycle → LifeCycle
  | .manufacture => .provisioned
  | .provisioned => .deployed
  | .deployed | .returned => .returned

/-- Where the contents at a scratch address lie once each 64 KiB of the space holds what the given one held before. -/
def movedTo (lo : Nat) (src : List (Option Nat)) (a : Nat) : List Nat :=
  (src.zipIdx).filterMap (fun p => if p.1 = some ((a - lo) / 65536) then some (lo + 65536 * p.2 + (a - lo) % 65536) else none)

/-- The registrar's epoch fuses (R221). -/
def epochFuses : Nat := 4096

/-- One more epoch fuse is blown and the count starts at 0. With every fuse blown no entry may be written, as SEQ never repeats (R221;
DESIGN CHOICE, log 113). -/
def Registrar.nextEpoch (r : Registrar) : Registrar :=
  if r.epoch < epochFuses then { r with epoch := r.epoch + 1, count := 0 } else { r with regFail := true }

/-- The state after one change. The life cycle only advances, and the registrar's entries only grow. -/
def Effect.apply (e : Effect) (s : State) : State :=
  match e with
  | .bump => { s with tick := s.tick + 1 }
  | .agenda l => { s with agenda := l }
  | .issue i => { s with issue := i }
  | .seqNow q => { s with seqNow := q }
  | .byte a v => { s with mem := writeByte s.mem a v }
  | .granule g f => { s with full := if f then addNat s.full g else s.full.filter (· != g) }
  | .mark l on => { s with marks := if on then addNat s.marks l else s.marks.filter (· != l) }
  | .region k none => { s with regions := kdel s.regions k }
  | .region k (some r) => { s with regions := kset s.regions k r }
  | .hall h v => { s with halls := s.halls.set h v }
  | .wing k none => { s with wings := kdel s.wings k }
  | .wing k (some w) => { s with wings := kset s.wings k w }
  | .vf k v => { s with vfs := kset s.vfs k v }
  | .chan k none => { s with chans := kdel s.chans k }
  | .chan k (some c) => { s with chans := kset s.chans k c }
  | .reqs l => { s with reqs := l }
  | .names l => { s with names := l }
  | .walks l => { s with walks := l }
  | .conservators l => { s with conservators := l }
  | .service q => { s with service := q }
  | .pkg p => { s with pkg := { p with life := s.pkg.life, registrar := s.pkg.registrar } }
  | .lifeNext => { s with pkg := { s.pkg with life := s.pkg.life.next } }
  | .entry b =>
    let r := s.pkg.registrar
    { s with pkg := { s.pkg with registrar :=
        { r with entries := r.entries ++ [{ chain := nextChain r b, body := b }], count := r.count + 1 } } }
  | .epoch => { s with pkg := { s.pkg with registrar := s.pkg.registrar.nextEpoch } }
  | .registrar x a f w =>
    { s with pkg := { s.pkg with registrar := { s.pkg.registrar with exported := x, acked := a, regFail := f, warned := w } } }
  | .clear lo n =>
    { s with
      mem := s.mem.filter (fun c => !(decide (lo ≤ c.1) && decide (c.1 < lo + n)))
      full := s.full.filter (fun g => !(decide (lo ≤ 16 * g) && decide (16 * g < lo + n)))
      marks := s.marks.filter (fun l => !(decide (lo ≤ l) && decide (l < lo + n))) }
  | .remap h src =>
    let lo := scratchAddr h 0
    let inside := fun (a : Nat) => decide (lo ≤ a) && decide (a < lo + 2 ^ 24)
    { s with
      mem := (s.mem.filter (fun c => inside c.1)).foldl (fun m c => (movedTo lo src c.1).foldl (fun m a => writeByte m a c.2) m)
        (s.mem.filter (fun c => !inside c.1))
      full := (s.full.filter (fun g => inside (16 * g))).foldl (fun l g => (movedTo lo src (16 * g)).foldl (fun l a => addNat l (a / 16)) l)
        (s.full.filter (fun g => !inside (16 * g)))
      marks := (s.marks.filter inside).foldl (fun l x => (movedTo lo src x).foldl addNat l) (s.marks.filter (fun x => !inside x)) }
  | .wipe => { s with mem := [], full := [], marks := [] }
  | .power p =>
    { State.reset with
      turn := s.turn, agenda := s.agenda, tick := s.tick, input := s.input
      pkg := { p with life := s.pkg.life, registrar := s.pkg.registrar } }

/-- The state after a list of changes, the newest first. -/
def applyAll (s : State) : List Effect → State
  | [] => s
  | e :: t => e.apply (applyAll s t)

/-- The state a step has reached and the changes it made, the newest first. -/
structure Log where
  cur : State
  effs : List Effect

/-- A step in progress: it reads the state it has reached, makes changes, and may end in a trap. -/
abbrev M (α : Type) := StateT Log (Except TrapRec) α

/-- Make one change. -/
def eff (e : Effect) : M Unit := fun l => .ok ((), { cur := e.apply l.cur, effs := e :: l.effs })

/-- The state reached. -/
def get' : M State := fun l => .ok (l.cur, l)

/-- End in a trap. -/
def trap {α : Type} (t : TrapRec) : M α := fun _ => .error t

/-- A trap with a device cause code and an operand (R400). -/
def trapCode {α : Type} (code : Nat) (operand : Nat := 0) : M α := trap { code := code, operand := operand }

/-- Try a step; on a trap its changes are undone and the trap is the answer. -/
def attempt {α : Type} (m : M α) : M (Except TrapRec α) := fun l =>
  match m l with
  | .ok (a, l') => .ok (.ok a, l')
  | .error t => .ok (.error t, l)

/-- Run a step for each element of a list. -/
def each {α : Type} (l : List α) (f : α → M Unit) : M Unit :=
  match l with
  | [] => pure ()
  | a :: t => bind (f a) (fun _ => each t f)

/-- Run a step for each element and collect the answers. -/
def collect {α β : Type} (l : List α) (f : α → M β) : M (List β) :=
  match l with
  | [] => pure []
  | a :: t => bind (f a) (fun b => bind (collect t f) (fun bs => pure (b :: bs)))

/-- Run a step when a condition holds. -/
def whenM (c : Bool) (m : M Unit) : M Unit := if c then m else pure ()

/-- The outcome of a step: the changes it made, or, on a trap, the changes that delivering the trap makes. -/
def runM (m : M Unit) (onTrap : TrapRec → M Unit) (s : State) : Host.Outcome State Fault Refusal :=
  match m { cur := s, effs := [] } with
  | .ok (_, l) => .next (applyAll s l.effs)
  | .error t =>
    match onTrap t { cur := s, effs := [] } with
    | .ok (_, l) => .next (applyAll s l.effs)
    | .error _ => .next s

/-- The outcome of a step that has nobody to trap to: a trap leaves the machine as it was. -/
def runE (m : M Unit) (s : State) : Host.Outcome State Fault Refusal := runM m (fun _ => pure ()) s

/-! ### Reading and changing parts -/

def region? (rid : Nat) : M (Option Region) := bind get' fun s => pure (kget s.regions rid)

/-- The region of a function under a number: a slice's end may have given its place to another function's region (R210). -/
def regionOf (s : State) (vf rid : Nat) : Option Region := (kget s.regions rid).filter (·.vf == vf)

/-- The number of a caller in the hypervisor call queue's replies: its function and region. -/
def callerKey (vf rid : Nat) : Nat := vf * 65536 + rid

/-- Change a region that exists. -/
def modRegion (rid : Nat) (f : Region → Region) : M Unit := bind get' fun s =>
  match kget s.regions rid with
  | some r => eff (.region rid (some (f r)))
  | none => pure ()

/-- Use a region that exists. -/
def withRegion (rid : Nat) (f : Region → M Unit) : M Unit := bind get' fun s =>
  match kget s.regions rid with
  | some r => f r
  | none => pure ()

def hallAt (s : State) (h : Nat) : Hall := (s.halls[h]?).getD Hall.reset

def modHall (h : Nat) (f : Hall → Hall) : M Unit := bind get' fun s => eff (.hall h (f (hallAt s h)))

def vfAt (s : State) (f : Nat) : VFn := kgetD s.vfs f {}

def modVf (k : Nat) (f : VFn → VFn) : M Unit := bind get' fun s => eff (.vf k (f (vfAt s k)))

def modWing (k : Nat) (f : Wing → Wing) : M Unit := bind get' fun s =>
  match kget s.wings k with
  | some w => eff (.wing k (some (f w)))
  | none => pure ()

def modPkg (f : Package → Package) : M Unit := bind get' fun s => eff (.pkg (f s.pkg))

def modChan (k : Nat) (f : Chan → Chan) : M Unit := bind get' fun s =>
  match kget s.chans k with
  | some c => eff (.chan k (some (f c)))
  | none => pure ()

/-- Lay a move out as the next one. -/
def lay (t : Turn) : M Unit := bind get' fun s => eff (.agenda (t :: s.agenda))

/-- A fresh number for a free value (DESIGN CHOICE, log 1). -/
def fresh : M Nat := bind get' fun s => bind (eff .bump) fun _ => pure s.tick

/-! ### Sequencer registers -/

/-- A register of a sequencer; a0 reads as zero (R37). -/
def Sequencer.get (q : Sequencer) (i : Nat) : Reg := if i = 0 then 0 else (q.regs[i - 1]?).getD 0

/-- A register written; a write to a0 is discarded (R37). -/
def Sequencer.put (q : Sequencer) (i : Nat) (v : Reg) : Sequencer :=
  if i = 0 then q else { q with regs := q.regs.set (i - 1) v }

/-- A sequencer whose command has ended: what it had done and waited for is forgotten. -/
def Sequencer.settled (q : Sequencer) : Sequencer := { q with waiting := false, progress := 0, walk := none, entry := none, pieces := {}, swap := none }

/-! ### Shapes, halls and wings -/

/-- Rows and columns of a shape, by its row of R18. -/
def shapeDims : Nat → Nat × Nat
  | 0 => (1, 1)
  | 1 => (1, 2)
  | 2 => (2, 2)
  | 3 => (2, 4)
  | _ => (4, 4)

/-- The cells of a placement, ascending (R12, R18). -/
def cellsOf (shape origin : Nat) : List Nat :=
  let d := shapeDims shape
  ((List.range d.1).map (fun r => (List.range d.2).map (fun c => origin + 8 * r + c))).flatten

/-- The origin is aligned for the shape (R18). -/
def aligned (shape origin : Nat) : Bool :=
  let d := shapeDims shape
  shape ≤ 4 && origin < 64 && origin / 8 % d.1 == 0 && origin % 8 % d.2 == 0

def Region.cells (r : Region) : List Nat := cellsOf r.shape r.origin

/-- A region's number in the map: one region per hall, context and origin (R21). -/
def ridOf (hall ctx origin : Nat) : Nat := hall * 256 + ctx * 64 + origin

/-- The region identifier (R300). -/
def identOf (r : Region) : Nat :=
  2 ^ 63 + r.hall * 2 ^ 48 + r.ctx * 2 ^ 40 + r.shape * 2 ^ 32 + r.origin

/-- The region an identifier names. -/
def ridOfIdent (s : State) (v : Nat) : Option Nat :=
  let rid := ridOf (bits v 48 6) (bits v 40 2) (bits v 0 6)
  match kget s.regions rid with
  | some r => if identOf r = v ∧ r.state ≠ .free then some rid else none
  | none => none

/-- The region that covers a cell under a context number (R21). -/
def coverRid (s : State) (hall ctx cell : Nat) : Option Nat :=
  (s.regions.find? (fun p => p.2.hall == hall && p.2.ctx == ctx && p.2.state != .free && p.2.cells.contains cell)).map (·.1)

/-- The halls of a wing in row-major order (R248). -/
def wingHalls (w : Wing) : List Nat :=
  ((List.range w.height).map (fun y => (List.range w.width).map (fun x => (w.y0 + y) * 8 + w.x0 + x))).flatten

/-- The halls of a wing in snake order (R173). -/
def snakeHalls (w : Wing) : List Nat :=
  ((List.range w.height).map (fun y =>
    let row := (List.range w.width).map (fun x => (w.y0 + y) * 8 + w.x0 + x)
    if y % 2 = 0 then row else row.reverse)).flatten

/-- The compute die of a hall (R6, R8). -/
def dieOf (hall : Nat) : Nat := (if 4 ≤ hall % 8 then 1 else 0) + (if 4 ≤ hall / 8 then 2 else 0)

/-- The hall that a region's number names. -/
def ridHall (rid : Nat) : Nat := rid / 256

/-! ### The mesh (R8, R9, R24) -/

/-- The hall that a mesh port of a hall connects to; a port on the package's edge has none (R9). -/
def neighbour (p : MeshPort) (h : Nat) : Option Nat :=
  match p with
  | .north => if 8 ≤ h then some (h - 8) else none
  | .south => if h + 8 < 64 then some (h + 8) else none
  | .east => if h % 8 < 7 then some (h + 1) else none
  | .west => if 0 < h % 8 then some (h - 1) else none

/-- The port from a hall toward another in dimension order: first along x, then along y (R24). -/
def dimensionPort (h dst : Nat) : Option MeshPort :=
  if h % 8 < dst % 8 then some .east
  else if dst % 8 < h % 8 then some .west
  else if h / 8 < dst / 8 then some .south
  else if dst / 8 < h / 8 then some .north
  else none

/-- The routing table that WING.ROUTE writes into a hall of a wing (R24, R200). -/
def routingTable (halls : List Nat) (h : Nat) : KMap MeshPort :=
  halls.foldl (fun m dst => match dimensionPort h dst with | some p => kset m dst p | none => m) []

/-- The mesh ports by which the routing tables lead from a hall to another, each with its hall. -/
def routeLinks (s : State) (dst : Nat) : Nat → Nat → List (Nat × MeshPort)
  | 0, _ => []
  | fuel + 1, h =>
    match kget (hallAt s h).table dst with
    | none => []
    | some p => (h, p) :: (match neighbour p h with | some n => routeLinks s dst fuel n | none => [])

/-- The channels that cross a mesh port of a hall outward, in ascending number. -/
def crossing (s : State) (hall : Nat) (port : MeshPort) : List Nat :=
  (s.chans.filter (fun p => (routeLinks s p.2.hall 16 (ridHall p.2.src)).contains (hall, port))).map (·.1)

/-- The circuits of a mesh port in each direction (R9, R11). -/
def portCircuits : Nat := 16

/-- The circuit, 0 to 15, by which a channel crosses a mesh port: the ports' circuits are given to the channels that cross in ascending
number. The specification does not say what becomes of a channel that finds all 16 taken: it shares one with an earlier channel (DESIGN
CHOICE, log 103). -/
def circuitOn (s : State) (key hall : Nat) (port : MeshPort) : Nat := (crossing s hall port).idxOf key % portCircuits

def wingHome (w : Wing) : Nat := w.y0 * 8 + w.x0

/-- The code of a way of a tile (R109). -/
def wayUse (h : Hall) (tile way : Nat) : Nat := bits ((h.vtuse[tile]?).getD 0) (4 * way) 4

/-- The ways of a hall that serve a use, tile by tile and way by way (R76, R102). -/
def waysOf (h : Hall) (use : Nat) : List (Nat × Nat) :=
  ((List.range 12).map (fun t => ((List.range 16).filter (fun w => wayUse h t w == use)).map (fun w => (t, w)))).flatten

def scratchSize (h : Hall) : Nat := 65536 * (waysOf h 1).length
def foldSpace (h : Hall) (ctx : Nat) : Nat := 65536 * (waysOf h (4 + ctx)).length

/-- The cells of a hall that a context number's regions reserve entries in, summed over contexts (R49). -/
def reservedIn (s : State) (hall cell : Nat) : Nat :=
  (s.regions.filter (fun p => p.2.hall == hall && p.2.state != .free && p.2.cells.contains cell)).foldl (fun n p => n + 256 * p.2.fres) 0

/-- A region that the end of a slice has Sealed, whose image was saved: another function's configuration may take its place (R202, R210). -/
def givesWay (vf : Nat) (r : Region) : Bool := r.autoSaved && r.state == .sealed && r.vf != vf

/-- A CTX.SWAP holds a cell's context number for the context that it is still to load (R209). -/
def swapHolds (s : State) (hall ctx cell : Nat) : Bool :=
  s.regions.any (fun p => p.2.seq.swap.any (fun v => bits v 48 6 == hall && bits v 40 2 == ctx && (cellsOf (bits v 32 3) (bits v 0 6)).contains cell))

/-- A placement is Free under a context number for a function (R21, R210, R310), counting a region under scrub as there, and no
retired cell lies in it (R443). -/
def placementFree (s : State) (vf hall ctx shape origin : Nat) : Bool :=
  (cellsOf shape origin).all (fun c =>
    !(s.regions.any (fun p => p.2.hall == hall && p.2.ctx == ctx && p.2.cells.contains c && !givesWay vf p.2)) && !swapHolds s hall ctx c
    && !(s.pkg.retired.any (fun d => bits d 56 8 == 1 && bits d 50 6 == hall && bits d 44 6 == c)))

/-- A reservation fits in every cell of a placement beside those of the regions that stay there (R49). -/
def reservationFits (s : State) (vf hall ctx shape origin fres : Nat) : Bool :=
  let stay : State := { s with regions := s.regions.filter (fun p => !(givesWay vf p.2 && p.2.ctx == ctx)) }
  (cellsOf shape origin).all (fun c => reservedIn stay hall c + 256 * fres ≤ 4096)

/-! ### Launch headers and work identifiers -/

def hdrLevels (h : BitVec 128) : Nat := bits h.toNat 64 3
def hdrInv (h : BitVec 128) : Nat := bits h.toNat 67 3
def hdrThread (h : BitVec 128) : Bool := bits h.toNat 70 1 == 1
def hdrEntry (h : BitVec 128) : Nat := bits h.toNat 72 8
def hdrCtx (h : BitVec 128) : Nat := bits h.toNat 80 2
def hdrWidth (h : BitVec 128) (d : Nat) : Nat := bits h.toNat (88 + 6 * (d - 1)) 6 + 1

/-- The lowest bit of level d's field (R33): the widths of the deeper levels summed. -/
def hdrShift (h : BitVec 128) (d : Nat) : Nat :=
  ((List.range (hdrLevels h - d)).map (fun i => hdrWidth h (d + 1 + i))).foldl (· + ·) 0

def hdrField (h : BitVec 128) (id d : Nat) : Nat := bits id (hdrShift h d) (hdrWidth h d)
def hdrExtent (h : BitVec 128) (d : Nat) : Nat := hdrField h (h.toNat % 2 ^ 64) d + 1

/-- A launch header is well formed (R33, R35, R316). -/
def hdrOk (h : BitVec 128) : Bool :=
  let n := hdrLevels h
  1 ≤ n && n ≤ 6 && 1 ≤ hdrInv h && hdrInv h ≤ n
  && bits h.toNat 71 1 == 0 && bits h.toNat 82 6 == 0 && bits h.toNat 124 4 == 0
  && ((List.range 6).all (fun i => i < n || bits h.toNat (88 + 6 * i) 6 == 0))
  && hdrShift h 1 + hdrWidth h 1 ≤ 64 && h.toNat % 2 ^ 64 < 2 ^ (hdrShift h 1 + hdrWidth h 1)

/-- An identifier names an iteration of the launch (R33). -/
def idValid (h : BitVec 128) (id : Nat) : Bool :=
  id < 2 ^ (hdrShift h 1 + hdrWidth h 1)
  && (List.range (hdrLevels h)).all (fun i => hdrField h id (i + 1) < hdrExtent h (i + 1))

/-- The place of an identifier in enumeration order (R33). -/
def idOrdinal (h : BitVec 128) (id : Nat) : Nat :=
  (List.range (hdrLevels h)).foldl (fun n i => n * hdrExtent h (i + 1) + hdrField h id (i + 1)) 0

/-- The number of iterations of the levels from `d` down. -/
def itersFrom (h : BitVec 128) (d : Nat) : Nat :=
  ((List.range (hdrLevels h + 1 - d)).map (fun i => hdrExtent h (d + i))).foldl (· * ·) 1

/-- The identifier of the iteration at a place in enumeration order (R33). -/
def idAt (h : BitVec 128) (k : Nat) : Nat :=
  (List.range (hdrLevels h)).foldl
    (fun id i => id + (k / itersFrom h (i + 2) % hdrExtent h (i + 1)) * 2 ^ hdrShift h (i + 1)) 0

/-- The first identifier of the tile invocation an identifier belongs to (R34). -/
def invFirst (h : BitVec 128) (id : Nat) : Nat := id / 2 ^ hdrShift h (hdrInv h) * 2 ^ hdrShift h (hdrInv h)

/-- The work identifier bound to a tag of a region (R54). -/
def boundId (r : Region) (tag : Nat) : Option Nat := kget r.active.binds tag

/-! ### Outputs: MSI-X, error records, fault records -/

/-- Raise an MSI-X vector; function 1024 is the physical function (R412, R436). It waits for the link (R453). -/
def msi (fn vector : Nat) : M Unit := modPkg fun p =>
  if p.hostUp then { p with msi := p.msi ++ [(fn, vector)] } else { p with msiWaiting := p.msiWaiting ++ [(fn, vector)] }

/-- The words of an error record (R436). -/
def errWords (s : State) (cls unit hall idx way result row addr vf wing detail : Nat) : List (BitVec 64) :=
  [BitVec.ofNat 64 (cls * 2 ^ 56 + unit * 2 ^ 48 + hall * 2 ^ 42 + idx * 2 ^ 36 + way * 2 ^ 32 + result * 2 ^ 30 + row),
   BitVec.ofNat 64 addr, BitVec.ofNat 64 (vf * 2 ^ 16 + wing), BitVec.ofNat 64 s.timeNs,
   BitVec.ofNat 64 (s.pkg.errors.seq + 1), BitVec.ofNat 64 detail, BitVec.ofNat 64 s.pkg.errors.lost, 0]

/-- Write bytes to memory at consecutive addresses. -/
def putBytes (a : Nat) (bs : List Byte) : M Unit :=
  match bs with
  | [] => pure ()
  | b :: t => bind (eff (.byte a b)) fun _ => putBytes (a + 1) t

def wordBytes (ws : List (BitVec 64)) : List Byte := (ws.map (fun w => bytesOfNat 8 w.toNat)).flatten

/-- Host memory as the host window shows it (R107). -/
def hostAddr (a : Nat) : Nat := 2 ^ 51 + a % 2 ^ 51

/-- Write an error record's words to the ring; while the host link is down they wait (R436, R453). -/
def pushError (ws : List (BitVec 64)) : M Unit := bind get' fun s =>
  let e := s.pkg.errors
  if s.pkg.hostUp then
    bind (putBytes (hostAddr (e.base + 64 * e.producer)) (wordBytes (ws.set 6 (BitVec.ofNat 64 e.lost)))) fun _ =>
    let p' := (e.producer + 1) % 1024
    let overflow := p' == e.consumer
    bind (modPkg fun p => { p with errors :=
      { e with producer := p', lost := if overflow then e.lost + 1 else 0, consumer := if overflow then (e.consumer + 1) % 1024 else e.consumer } }) fun _ =>
    msi 1024 2
  else modPkg fun p => { p with errors := { e with waiting := e.waiting ++ [ws] } }

/-- Write one record to the physical function's error ring, or keep it for the link (R436, R453). -/
def errorRecord (cls unit hall idx way result row addr vf wing detail : Nat) : M Unit := bind get' fun s =>
  bind (modPkg fun p => { p with errors := { p.errors with seq := p.errors.seq + 1 } }) fun _ =>
  pushError (errWords s cls unit hall idx way result row addr vf wing detail)

/-! ### Translation (R103 to R107, R214, R444) -/

/-- Why a translation fails (R444), with the two addresses a record carries. -/
inductive XFault where
  | guest | host | table
  deriving DecidableEq, Repr

def XFault.code : XFault → Nat
  | .guest => 0x41
  | .host => 0x42
  | .table => 0x43

/-- What one stage gives: the address, the page size's exponent and the rights. -/
structure Stage where
  addr : Nat
  log2 : Nat
  write : Bool
  atomic : Bool
  mt : Nat
  deriving DecidableEq, Repr

/-- The levels of a walk: the index's lowest bit and width, whether a leaf is allowed and required (R103). -/
def levels : List (Nat × Nat × Bool × Bool) :=
  [(48, 9, false, false), (39, 9, false, false), (30, 9, true, false), (21, 9, true, false), (16, 5, true, true)]

/-- One stage's walk through its levels. `read` gives a table entry or the fault of reading it; `guest`
says whether the memory type must be zero (R104). -/
def walkStage (guest : Bool) (read : Nat → Except XFault Nat) (va table : Nat) :
    List (Nat × Nat × Bool × Bool) → Except XFault Stage
  | [] => .error (if guest then .guest else .host)
  | (lo, w, leafOk, leafMust) :: rest =>
    let bad : XFault := if guest then .guest else .host
    match read (table + 8 * bits va lo w) with
    | .error e => .error e
    | .ok e =>
      let leaf := bits e 1 1 == 1
      if bits e 0 1 = 0 ∨ bits e 52 12 ≠ 0 ∨ bits e 6 6 ≠ 0 ∨ (guest ∧ bits e 4 2 ≠ 0) ∨ bits e 4 2 = 3
          ∨ (leaf ∧ ¬leafOk) ∨ (¬leaf ∧ leafMust) then .error bad
      else
        let addr := bits e 12 40 * 4096
        if leaf then
          if addr % 2 ^ lo ≠ 0 then .error bad
          else .ok { addr := addr + va % 2 ^ lo, log2 := lo, write := bits e 2 1 == 1, atomic := bits e 3 1 == 1, mt := bits e 4 2 }
        else walkStage guest read va addr rest

/-- The memory type that a physical address range must carry (R107); `none` for reserved addresses. -/
def rangeMt (a : Nat) : Option Nat :=
  if a < 0x8000000000 then some 0
  else if 0x100000000000 ≤ a ∧ a < 0x200000000000 then some 1
  else if 0x8000000000000 ≤ a ∧ a < 0x10000000000000 then some 2
  else none

/-- A table entry read from physical memory; a marked line is an uncorrected error (R438, R444). -/
def readEntry (s : State) (a : Nat) : Except XFault Nat :=
  if s.marks.contains (lineOf a) then .error .table else .ok (readNat s.mem a 8)

/-- The owner of the frame that holds a physical address (R214). -/
def frameOwner (s : State) (a : Nat) : Option Nat := kget s.pkg.frames.owners (a / 0x200000)

/-- The host stage: guest physical to device physical, with the checks of R107 and R214. -/
def hostStage (s : State) (vf gpa : Nat) : Except XFault Stage :=
  let v := vfAt s vf
  match walkStage false (readEntry s) gpa v.hostRoot levels with
  | .error e => .error e
  | .ok st =>
    match rangeMt st.addr with
    | none => .error .host
    | some mt =>
      if mt ≠ st.mt then .error .host
      else if mt = 0 ∧ (v.wing = none ∨ frameOwner s st.addr ≠ v.wing) then .error .host
      else .ok st

/-- Both stages (R103). The guest tables' own addresses are guest physical and pass through the host stage
(DEDUCED, log 9). -/
def translate (s : State) (vf va : Nat) : Except XFault Stage :=
  let v := vfAt s vf
  let read := fun a => match hostStage s vf a with | .error e => .error e | .ok st => readEntry s st.addr
  match walkStage true read va v.guestRoot levels with
  | .error e => .error e
  | .ok g =>
    match hostStage s vf g.addr with
    | .error e => .error e
    | .ok h => .ok { addr := h.addr, log2 := min g.log2 h.log2, write := g.write && h.write, atomic := g.atomic && h.atomic, mt := h.mt }

/-- The exponents of the page sizes, the smallest first (R103). -/
def pageSizes : List Nat := [16, 21, 30]

/-- The key of a translation-cache entry: function, page and page size (R105). -/
def tlbKey (vf va size : Nat) : Nat := (vf * 2 ^ 41 + va / 2 ^ size * 2 ^ (size - 16)) * 32 + size

/-- The physical address of a guest address, from the hall's translation cache. -/
def tlbLookup (s : State) (hall vf va : Nat) : Option (Nat × TlbEntry) :=
  pageSizes.findSome? (fun n => (kget (hallAt s hall).tlb (tlbKey vf va n)).map (fun e => (e.base + va % 2 ^ n, e)))

/-- The translation cache without the entry that was filled first; the specification does not say which one makes room (DESIGN CHOICE,
log 104). -/
def dropOldest (t : KMap TlbEntry) : KMap TlbEntry :=
  match t.map (·.2.filled) with
  | [] => []
  | n :: l => let oldest := l.foldl min n; t.eraseIdx (t.findIdx (fun p => p.2.filled == oldest))

/-- The cache entry a translation fills; one goes when 1,024 are held (R105). -/
def tlbFill (now : Nat) (h : Hall) (vf va : Nat) (st : Stage) : Hall :=
  let k := tlbKey vf va st.log2
  let t := if h.tlb.length < 1024 || (kget h.tlb k).isSome then h.tlb else dropOldest h.tlb
  { h with tlb := kset t k { base := st.addr - va % 2 ^ st.log2, size := st.log2, write := st.write, atomic := st.atomic, filled := now } }

/-- Two guest addresses lie in one page; where the tables give none, in one 64 KiB. -/
def samePage (s : State) (vf va vb : Nat) : Bool :=
  let n := match translate s vf va with | .ok st => st.log2 | .error _ => 16
  va / 2 ^ n == vb / 2 ^ n

/-- A walk for a miss: it joins one in progress of the hall's die for the same function and page, or starts when one of its die's 64
walkers is free (R7, R105). The answer is the walk's number. -/
def joinWalk (hall vf va : Nat) : M Nat := bind get' fun s =>
  match s.walks.find? (fun w => w.vf == vf && dieOf w.hall == dieOf hall && !w.stale && samePage s vf (w.page * 65536) va) with
  | some w =>
    bind (eff (.walks (s.walks.map (fun x => if x.number = w.number then { x with joined := addNat x.joined hall } else x)))) fun _ =>
    pure w.number
  | none => bind fresh fun n =>
    let busy := (s.walks.filter (fun w => w.started && dieOf w.hall == dieOf hall)).length
    bind (eff (.walks (s.walks ++ [{ vf := vf, page := va / 65536, hall := hall, joined := [hall], number := n, started := busy < 64 }]))) fun _ =>
    pure n

/-! ### Buffers -/

/-- The key of a handle in its function's table: context and number (R100). -/
def handleKey (ctx h : Nat) : Nat := ctx * 256 + h

def handleAt (s : State) (vf ctx h : Nat) : Handle := kgetD (vfAt s vf).handles (handleKey ctx h) {}

/-- The rights an access needs. -/
inductive Right where
  | read | write | atomic
  deriving DecidableEq, Repr

def Buffer.has (b : Buffer) : Right → Bool
  | .read => b.read
  | .write => b.write
  | .atomic => b.atomic

/-- An access's address within its buffer, checked as R101 and R431 say: mapped, right, alignment, bounds. DEDUCED, log 29. -/
def checkAccess (b : Option Buffer) (right : Right) (off len align : Nat) : Except Nat (Option Nat × Nat) :=
  match b with
  | none => .error 0x18
  | some b =>
    if off % align ≠ 0 then .error 0x19
    else if off + len > b.len then .error 0x1A
    else if !b.has right then .error 0x1B
    else .ok (b.scratch, b.base + off)

/-- The byte of a hall's scratch space lies in it. -/
def scratchOk (s : State) (hall off len : Nat) : Bool := off + len ≤ scratchSize (hallAt s hall)

/-- The guest physical address of a guest virtual address, or 0 where the guest stage gives none: word 9 of a
record of a translation fault (R444). -/
def gpaOf (s : State) (vf va : Nat) : Nat :=
  let read := fun a => match hostStage s vf a with | .error e => .error e | .ok st => readEntry s st.addr
  match walkStage true read va (vfAt s vf).guestRoot levels with
  | .ok g => g.addr
  | .error _ => 0

/-- The right a page must grant (R104). -/
def pageGrants (write atomic : Bool) : Right → Bool
  | .read => true
  | .write => write
  | .atomic => atomic

/-- The stage that refuses a right, where one does (R104, R444). -/
def rightFault (s : State) (vf va : Nat) (right : Right) : XFault :=
  let read := fun a => match hostStage s vf a with | .error e => .error e | .ok st => readEntry s st.addr
  match walkStage true read va (vfAt s vf).guestRoot levels with
  | .ok g => if pageGrants g.write g.atomic right then .host else .guest
  | .error _ => .guest

/-- The trap of a translation that fails, with the two addresses a record of it carries (R444). -/
def faultAt (s : State) (vf va : Nat) (e : XFault) : TrapRec := { code := e.code, word8 := va, word9 := gpaOf s vf va }

/-- The location of a guest address whose translation completes within the step, through the hall's cache where it holds the page:
what the conservators, the delta engines, launches and the device's own writes use. The specification gives these no walker to wait
for (DESIGN CHOICE, log 105). -/
def locateNow (hall vf va : Nat) (right : Right) : M Nat := do
  let s ← get'
  match tlbLookup s hall vf va with
  | some (pa, e) => if pageGrants e.write e.atomic right then pure pa else trap (faultAt s vf va (rightFault s vf va right))
  | none =>
    match translate s vf va with
    | .error e => trap (faultAt s vf va e)
    | .ok st =>
      if pageGrants st.write st.atomic right then do
        modHall hall (fun h => tlbFill s.tick h vf va st)
        pure st.addr
      else trap (faultAt s vf va (rightFault s vf va right))

/-- The location of an agent's access of a buffer: scratch of a hall, or guest memory (R101). -/
def placeNow (hall vf : Nat) (scr : Option Nat) (va : Nat) (right : Right) : M Nat :=
  match scr with
  | some h => pure (scratchAddr h va)
  | none => locateNow hall vf va right

/-- A walk that was waited for has ended, and it was for this page: what it found is used at once. -/
def walkEnded (s : State) (vf va : Nat) : Option (Nat × Nat) → Bool
  | some (n, v) => samePage s vf v va && !s.walks.any (·.number == n)
  | none => false

/-- The location of a guest address, or the walk that its user waits for: a miss waits for a walker (R105). `walk` is the walk that the
user has waited for. -/
def findPage (hall vf va : Nat) (right : Right) (walk : Option (Nat × Nat)) : M (Except (Nat × Nat) Nat) := do
  let s ← get'
  if (tlbLookup s hall vf va).isSome || walkEnded s vf va walk then do
    let a ← locateNow hall vf va right
    pure (.ok a)
  else match walk with
  | some (n, v) =>
    if samePage s vf v va then pure (.error (n, v))
    else do
      let n ← joinWalk hall vf va
      pure (.error (n, va))
  | none => do
    let n ← joinWalk hall vf va
    pure (.error (n, va))

/-- A miss of a region in the translation cache is counted (R306). -/
def countMiss (rid : Nat) : M Unit := modRegion rid (fun r => { r with sys := { r.sys with perf := r.sys.perf.set 4 ((r.sys.perf[4]?).getD 0 + 1) } })

/-- The page walk that the running command has waited for. -/
def issuerWalk (s : State) : Option (Nat × Nat) :=
  if s.who = serviceRid then s.service.walk else (kget s.regions s.who).bind (·.seq.walk)

/-- The code of no trap: a command has missed the translation cache, so it has no effect and waits for a walk of the hall, function
and address that the trap carries (R105, R297). -/
def walkCode : Nat := 2 ^ 16 + 1

/-- The location of a sequencer's access of one granule at most (R105). -/
def locate (hall vf : Nat) (scr : Option Nat) (va : Nat) (right : Right) : M Nat := do
  let s ← get'
  match scr with
  | some h => pure (scratchAddr h va)
  | none =>
    if (tlbLookup s hall vf va).isSome || walkEnded s vf va (issuerWalk s) then locateNow hall vf va right
    else trap { code := walkCode, operand := hall, word8 := va, word9 := vf }

/-- A line pinned by some other invocation than `inv` (R134). DEDUCED, log 94. -/
def pinnedByOther (s : State) (line : Nat) (inv : Option (Nat × Nat)) : Bool :=
  (s.halls.zipIdx).any (fun p => p.1.pins.any (fun q => q.1 == line && some (p.2, q.2) != inv))

/-- The ports that an annex range is interleaved across: 1, 2, 3, 4, 6, 8 or 12 distinct ones (R121). -/
def rangePorts (n : Nat) : List Nat :=
  let l := ((Config.annexPorts n).map (· % 12)).eraseDups
  if ([1, 2, 3, 4, 6, 8, 12] : List Nat).contains l.length then l else [n % 12]

/-- The annex port that a line lies on: its range is interleaved across ports at 256-byte granularity (R121). -/
def portOf (a : Nat) : Nat :=
  let l := rangePorts (Config.annexRange (a / 256))
  (l[a / 256 % l.length]?).getD 0

/-- The annex line lies in a range that other hosts may share: HDM-DB. HDM-H is this package's alone (R121). -/
def sharedAnnex (a : Nat) : Bool := Config.annexShared (Config.annexRange (a / 256))

/-- A line that is held in quarantine, in a vault or in an I/O die's store (R445, R446). -/
def quarantined (s : State) (a : Nat) : Bool :=
  s.halls.any (fun h => (kget h.cache (a / 64)).any (·.quarantined)) || s.pkg.annexStores.any (·.contains (a / 64))

/-- The row that an address lies in is under test (R439). A row of scratch is a line of its way, one of HBM is fixed by the part. -/
def underTest (s : State) (a : Nat) : Bool := s.pkg.tests.any (fun t => t.unit == (if isScratch a then 3 else 8) &&
  if isScratch a then t.addr / 64 == a / 64
  else !isScratch t.addr && rangeMt a == some 0 && hbmStack t.addr == hbmStack a && hbmChannel t.addr == hbmChannel a
    && Config.hbmRow (t.addr / 64) == Config.hbmRow (a / 64))

/-- Whether a physical or scratch address answers: a lost annex port, a quarantined line (R445) and a host link
that is down (R453) do not. -/
def answers (s : State) (a : Nat) : Option Nat :=
  match rangeMt a with
  | some 1 =>
    if (s.pkg.annex[portOf a]?).any (fun p => p.lost || !p.trained || !p.present)
        || quarantined s a then some 0x44 else none
  | some 2 => if s.pkg.hostUp then none else some 0x45
  | _ => none

/-! ### Coherence of vault copies (R111, R445) -/

def cacheKey (a : Nat) : Nat := a / 64

/-- The line's home tile within a hall (R111). -/
def homeOf (a : Nat) : Nat := Config.homeTile (a / 64) % 12

/-- The line may be cached in a hall: HBM or annex, and its home tile has a cache way (R111). -/
def cacheable (s : State) (h : Hall) (a : Nat) : Bool :=
  !isScratch a && !s.pkg.hdm.any (fun p => p.2.1 ≤ a && a < p.2.1 + p.2.2) && (rangeMt a == some 0 || rangeMt a == some 1)
  && (List.range 16).any (fun w => wayUse h (homeOf a) w == 0)

/-! ### Residency (R118 to R120) -/

def rangeEn (v : RangeReg) : Bool := bits v.toNat 127 1 == 1
def rangeWays (v : RangeReg) : Nat := bits v.toNat 120 4
def rangeSamp (v : RangeReg) : Nat := bits v.toNat 112 8
def rangeVf (v : RangeReg) : Nat := bits v.toNat 96 10
def rangeBase (v : RangeReg) : Nat := bits v.toNat 16 41 * 65536
def rangeEnd (v : RangeReg) : Nat := rangeBase v + bits v.toNat 64 32 * 65536

/-- The range register of the retained class that an access is of: its guest address lies in an enabled range of the hall's wing, and
the line's hash is not above SAMP (R119). -/
def retainedBy (s : State) (hall vf va a : Nat) : Option Nat :=
  match (hallAt s hall).wing.bind (kget s.wings) with
  | none => none
  | some w => (w.ranges.find? (fun p => rangeEn p.2 && rangeVf p.2 == vf && rangeBase p.2 ≤ va && va < rangeEnd p.2
      && Config.residencyHash (bits a 6 42) % 256 ≤ rangeSamp p.2)).map (·.1)

/-- A way of a tile is under the way-change walker (R110, R120). -/
def isWalking (h : Hall) (tile way : Nat) : Bool := h.walking.any (fun w => w.tile == tile && w.way == way)

/-- The ways of a tile in which lines of a class allocate: those reserved to its range, or those reserved to none (R119). -/
def classWays (h : Hall) (tile : Nat) (k : Option Nat) : List Nat :=
  (List.range 16).filter (fun w => wayUse h tile w == 0 && kget h.reserved (16 * tile + w) == k && !isWalking h tile w)

/-- The lines of a way: 64 KiB hold 1,024 (R109). -/
def wayLines (h : Hall) (tile way : Nat) : List Nat :=
  (h.cache.filter (fun p => Config.homeTile p.1 % 12 == tile && p.2.way == way)).map (·.1)

/-- A line of a class comes into a hall's cache: into a way of its class with a place, else in the place of a line of the same class,
which is written back. Which line that is, the specification does not say: it is free, and no quarantined line leaves (R119, R445;
DESIGN CHOICE, log 106). -/
def allocate (hall : Nat) (k : Option Nat) (a : Nat) (m : Mesi) : M Unit := do
  let s ← get'
  let h := hallAt s hall
  let ways := classWays h (homeOf a) k
  match ways.find? (fun w => decide ((wayLines h (homeOf a) w).length < 1024)) with
  | some w => modHall hall (fun x => { x with cache := kset x.cache (cacheKey a) { mesi := m, way := w, range := k } })
  | none => do
    let out := (ways.flatMap (wayLines h (homeOf a))).filter (fun l => !(kget h.cache l).any (·.quarantined))
    let n ← fresh
    match out[Config.freeChoice n % out.length]? with
    | none => pure ()
    | some l =>
      let w := ((kget h.cache l).map (·.way)).getD 0
      modHall hall (fun x => { x with cache := kset (kdel x.cache l) (cacheKey a) { mesi := m, way := w, range := k } })

/-- A read by a hall leaves its copy Shared, or Exclusive when no other hall holds one; a Modified copy
elsewhere is written back and becomes Shared. The access's function and guest address give its class (R119). -/
def cacheRead (hall vf va a : Nat) : M Unit := do
  let s ← get'
  if cacheable s (hallAt s hall) a ∧ (kget (hallAt s hall).cache (cacheKey a)).isNone then do
    let others := (List.range 64).filter (fun h => h != hall && (kget (hallAt s h).cache (cacheKey a)).isSome)
    each others (fun h => modHall h (fun x => match kget x.cache (cacheKey a) with
      | some c => { x with cache := kset x.cache (cacheKey a) { c with mesi := .shared } }
      | none => x))
    allocate hall (retainedBy s hall vf va a) a (if others.isEmpty then .exclusive else .shared)
  else pure ()

/-- A store by a hall invalidates every other copy and leaves its own Modified (R111). -/
def cacheWrite (hall vf va a : Nat) : M Unit := do
  let s ← get'
  if isScratch a then pure () else do
    each ((List.range 64).filter (fun h => (kget (hallAt s h).cache (cacheKey a)).isSome && h != hall))
      (fun h => modHall h (fun x => { x with cache := kdel x.cache (cacheKey a) }))
    match kget (hallAt s hall).cache (cacheKey a) with
    | some c => modHall hall (fun x => { x with cache := kset x.cache (cacheKey a) { c with mesi := .modified } })
    | none => whenM (cacheable s (hallAt s hall) a) (allocate hall (retainedBy s hall vf va a) a .modified)

/-- The part of a hall's scratch space that a byte lies in: its tile and way (R102). -/
def scratchWay (s : State) (a : Nat) : Nat × Nat :=
  ((waysOf (hallAt s ((a - 2 ^ 52) / 2 ^ 24)) 1)[(a - 2 ^ 52) % 2 ^ 24 / 65536]?).getD (12, 0)

/-- An access of a hall maps to a way under the way-change walker, so it stalls (R110, R120). -/
def wayStalls (s : State) (hall a : Nat) : Bool :=
  if isScratch a then
    let w := scratchWay s a
    isWalking (hallAt s ((a - 2 ^ 52) / 2 ^ 24)) w.1 w.2
  else (kget (hallAt s hall).cache (cacheKey a)).any (fun c => isWalking (hallAt s hall) (homeOf a) c.way)

/-- The line of a hall's vault that holds a copy of an address is under test (R439). -/
def copyTest (s : State) (hall a : Nat) : Bool :=
  (kget (hallAt s hall).cache (cacheKey a)).isSome && s.pkg.tests.any (fun t => t.unit == 3 && t.hall == hall && !isScratch t.addr && t.addr / 64 == a / 64)

/-- An access of a hall stalls: its row is under test, or its way changes use (R110, R439). -/
def rowBusy (s : State) (hall a : Nat) : Bool := underTest s a || copyTest s hall a || wayStalls s hall a

/-! ### Performing reads and writes -/

/-- The version of every buffer whose range holds a written address rises by one (R140). -/
def bufferHolds (s : State) (vf : Nat) (b : Buffer) (a : Nat) : Bool :=
  match b.scratch with
  | some h => scratchAddr h b.base ≤ a && a < scratchAddr h (b.base + b.len)
  | none =>
    -- a memory buffer holds the address when the page of some 64 KiB of it leads there
    (List.range (b.len / 65536 + 2)).any (fun i =>
      let va := b.base / 65536 * 65536 + 65536 * i
      va < b.base + b.len &&
        (match translate s vf va with
         | .ok st => st.addr / 65536 == a / 65536 && b.base ≤ va + a % 65536 && va + a % 65536 < b.base + b.len
         | .error _ => false))

/-- One write event raises the versions of the buffers it touches (R140). -/
def raiseVersions (addrs : List Nat) : M Unit := do
  let s ← get'
  each s.vfs (fun p =>
    let hs := p.2.handles.map (fun q =>
      match q.2.visible with
      | some b => if addrs.any (bufferHolds s p.1 b) then (q.1, { q.2 with version := q.2.version + 1 }) else q
      | none => q)
    whenM (hs != p.2.handles) (eff (.vf p.1 { p.2 with handles := hs })))

/-- The function that an access without a guest address has: none. -/
def noVf : Nat := 1024

/-- Write the bytes of one event at a location: the bytes, the poison markers it clears (R438), the copies
(R111), whose class the function and guest address give. -/
def performBytes (hall vf va a : Nat) (bs : List Byte) : M Unit := do
  let s ← get'
  putBytes a bs
  each (linesOf a bs.length) (fun l => do
    let whole := a ≤ l && l + (if isScratch l then 16 else 64) ≤ a + bs.length
    whenM (whole && s.marks.contains l) (eff (.mark l false))
    cacheWrite hall vf (va + l - a) l)

/-- The scratch granules a write covers become full (R115). -/
def fillGranules (a n : Nat) : M Unit :=
  if isScratch a then each (granulesOf a n) (fun g => eff (.granule g true)) else pure ()

/-- A read of `n` bytes meets a poison marker (R438). -/
def poisoned (s : State) (a n : Nat) : Bool := (linesOf a n).any (s.marks.contains ·)

/-! ### Save areas and fault records (R412) -/

/-- Write bytes at guest addresses of a function as engine writes; false when a write faults (R412). -/
def guestWrite (hall vf va : Nat) (bs : List Byte) : M Bool := do
  let r ← attempt (each ((List.range ((bs.length + 15) / 16)).map (fun i => (va + 16 * i, (bs.drop (16 * i)).take 16))) (fun p => do
    let a ← locateNow hall vf p.1 .write
    performBytes hall vf p.1 a p.2
    raiseVersions [a]))
  match r with
  | .ok _ => pure true
  | .error _ => pure false

/-- TRAPCAUSE's layout (R398). -/
def causeWord (t : TrapRec) : Nat := t.code * 2 ^ 48 + t.laneMask * 2 ^ 40 + t.src * 2 ^ 38 + t.operand % 2 ^ 32

/-- TRAPPC's layout (R399). -/
def trapPcWord (t : TrapRec) : Nat :=
  t.act * 2 ^ 48 + (if t.seq then 2 ^ 47 else 0) + t.cmd * 2 ^ 40 + t.cell * 2 ^ 34 + t.node * 2 ^ 29

/-- Saturate a count at 65,535 (R97, R315). -/
def sat16 (n : Nat) : Nat := min n 0xFFFF

/-- QUIESCE.probe's layout (R315). -/
def probeWord (d : Detector) : Nat :=
  sat16 d.tokens * 2 ^ 48 + sat16 d.frames * 2 ^ 32 + sat16 d.requests * 2 ^ 16 + sat16 d.handovers

/-- Two map entries to a word, the lower-numbered in the low half (R412). -/
def pairWords : List Nat → List (BitVec 64)
  | [] => []
  | [a] => [BitVec.ofNat 64 a]
  | a :: b :: t => BitVec.ofNat 64 (a + b * 2 ^ 32) :: pairWords t

/-- Write one fault record to a function's ring and raise its MSI-X vector 1 (R412), with the hall that writes it, the
region identifier and the detector's counts given. -/
def recordFor (vf kind hall ident counts : Nat) (t : TrapRec) (word7 : Nat) (entries : List Nat := []) : M Unit := do
  let s ← get'
  let v := vfAt s vf
  let n := v.faultSeq + 1
  let ws : List (BitVec 64) :=
    [BitVec.ofNat 64 (kind * 2 ^ 56 + n % 2 ^ 32), BitVec.ofNat 64 ident, BitVec.ofNat 64 (causeWord t),
     BitVec.ofNat 64 t.iv, BitVec.ofNat 64 (trapPcWord t), BitVec.ofNat 64 counts, BitVec.ofNat 64 s.timeNs,
     BitVec.ofNat 64 word7, BitVec.ofNat 64 t.word8, BitVec.ofNat 64 t.word9] ++ pairWords (entries.take 44)
  let pad := ws ++ List.replicate (32 - ws.length) 0
  modVf vf (fun v => { v with faultSeq := n })
  let va := (v.saveBase + 1024 * Config.saveSize + 256 * ((n - 1) % 256)) % 2 ^ 57
  let ok ← guestWrite hall vf va (wordBytes pad)
  whenM (!ok) (errorRecord 5 0 hall 0 0 2 0 va vf (v.wing.getD 0) 0)
  msi vf 1

/-- Write one fault record about a region (R412). -/
def faultRecord (vf kind rid : Nat) (t : TrapRec) (word7 : Nat) (entries : List Nat := []) : M Unit := do
  let s ← get'
  match kget s.regions rid with
  | some r => recordFor vf kind r.hall (identOf r) (probeWord r.detector) t word7 entries
  | none => recordFor vf kind 0 0 0 t word7 entries

/-! ### Tokens on circuits (R46 to R52, R58, R471) -/

/-- A circuit entry's destination `i` (R248). -/
def circuitDest (e : BitVec 256) (i : Nat) : Nat := bits e.toNat (28 * i) 28

def circuitCount (e : BitVec 256) : Nat := bits e.toNat 252 4

/-- The place a circuit destination names. -/
def destPlace (d : Nat) : Place :=
  match bits d 19 3 with
  | 0 => .port (bits d 13 6) (bits d 8 5) (bits d 6 2)
  | 1 => .queue (bits d 13 6) (bits d 6 2 % 2)
  | _ => .stream (bits d 8 5 % 16)

/-- The hall a circuit destination names: an offset within the wing (R248). -/
def destHall (s : State) (r : Region) (d : Nat) : Nat :=
  match kget s.wings r.wing with
  | some w =>
    let hs := wingHalls w
    (hs[(hs.idxOf r.hall + bits d 22 6) % hs.length]?).getD r.hall
  | none => r.hall

/-- The cell of a group of `size` cells counted in ascending cell number within the region (R58). -/
def groupCell (r : Region) (base size tag : Nat) : Nat :=
  let cs := r.cells.filter (base ≤ ·)
  (cs[tag % size]?).getD base

/-- A channel's number: sender, its cell and output, destination and cell reached. -/
def chanKey (rid cell out di dcell : Nat) : Nat := (((rid * 64 + cell) * 256 + out) * 8 + di) * 64 + dcell

/-- One edge a token takes: the channel's number and the channel as it is before its first token. -/
structure Edge where
  key : Nat
  chan : Chan
  deriving DecidableEq, Repr

/-- The region of a context that covers a cell of a hall. -/
def coverRegion (s : State) (hall ctx cell : Nat) : Option Region := (coverRid s hall ctx cell).bind (kget s.regions)

/-- The place with its cell replaced by the one of its replication group that a tag selects (R58). -/
def placeFor (r : Region) (p : Place) (tag : Nat) : Place :=
  match p with
  | .port c n q =>
    match kget r.active.nodes (c * 32 + n) with
    | some e => if e.size ≤ 1 then p else .port (groupCell r e.base e.size tag) n q
    | none => p
  | _ => p

def placeCell : Place → Nat
  | .port c _ _ => c
  | .queue c _ => c
  | .stream k => k

/-- The edges of output `out` of a cell for a token with a given tag: the circuit entry's destinations. -/
def circuitEdges (s : State) (rid : Nat) (r : Region) (cell out tag : Nat) : List Edge :=
  match kget r.active.circuits (cell * 64 + out) with
  | none => []
  | some e =>
    (List.range (min (circuitCount e) 8)).map (fun i =>
      let d := circuitDest e i
      let hall := destHall s r d
      let p0 := destPlace d
      let inside := hall == r.hall && (match p0 with | .stream _ => true | p => r.cells.contains (placeCell p))
      let target := if inside then some r else coverRegion s hall r.ctx (placeCell p0)
      let p := match target with | some t => placeFor t p0 tag | none => p0
      { key := chanKey rid cell out i (placeCell p)
        chan := { src := rid, hall := hall, ctx := r.ctx, wing := r.wing, place := p, depth := bits d 2 4 + 1, outside := !inside } })

/-- The edges of a destination byte (R229). A local destination has a buffer of the default depth 4. DEDUCED, log 30. -/
def destEdges (s : State) (rid : Nat) (r : Region) (cell : Nat) (d : Dest) (tag : Nat) : List Edge :=
  match d with
  | .discard => []
  | .out k => circuitEdges s rid r cell k.val tag
  | .predOut k => circuitEdges s rid r cell (16 + k.val) tag
  | .node n q =>
    let p := placeFor r (.port cell n.val q.val) tag
    [{ key := chanKey rid cell (64 + 4 * n.val + q.val) 0 (placeCell p)
       chan := { src := rid, hall := r.hall, ctx := r.ctx, wing := r.wing, place := p, depth := 4, outside := false } }]

/-- The channel an edge uses now. -/
def edgeChan (s : State) (e : Edge) : Chan :=
  match kget s.chans e.key with
  | some c => { c with place := e.chan.place, depth := e.chan.depth }
  | none => e.chan

/-- A destination outside the sender accepts tokens: a region of its context covers the cell and its active
configuration holds the node's record (R471). -/
def accepts (s : State) (c : Chan) : Bool :=
  !c.outside ||
  (match c.place with
   | .stream _ => true
   | .port cell node _ =>
     match coverRegion s c.hall c.ctx cell with
     | some r => (kget r.active.nodes (cell * 32 + node)).isSome
     | none => false
   | .queue cell _ => (coverRegion s c.hall c.ctx cell).isSome)

/-- The places of a channel in use. -/
def Chan.used (c : Chan) : Nat := c.queue.length + c.flight.length + c.freed

/-- An edge has room for `n` tokens (R52, R471). -/
def edgeFree (s : State) (n : Nat) (e : Edge) : Bool :=
  let c := edgeChan s e
  c.used + n ≤ c.depth && accepts s c

/-- Send a token along one edge: into the buffer, or onto the mesh toward another hall (R10, R25, R68). -/
def sendEdge (t : Token) (e : Edge) : M Unit := do
  let s ← get'
  let c := edgeChan s e
  let cross := match kget s.regions c.src with | some r => r.hall != c.hall | none => false
  let c := if cross then { c with flight := c.flight ++ [{ hall := ridHall c.src, circuit := 0, token := t }] } else { c with queue := c.queue ++ [t] }
  eff (.chan e.key (some (if c.outside then { c with unacked := c.unacked + 1 } else c)))

/-- The silence timer of a region restarts (R417). -/
def stir (rid : Nat) : M Unit := do
  let s ← get'
  modRegion rid (fun r => { r with silence := s.timeNs })

/-- Send a token to a destination byte of a cell, under the token's tag (R255). -/
def emitTo (rid cell : Nat) (d : Dest) (t : Token) : M Unit := do
  let s ← get'
  match kget s.regions rid with
  | none => pure ()
  | some r => do
    each (destEdges s rid r cell d t.tag) (sendEdge t)
    stir rid

/-! ### Poison (R406 to R408) -/

/-- The value of a poison token. -/
def poisonValue (pending : Bool) (src code : Nat) : BitVec 32 :=
  BitVec.ofNat 32 ((if pending then 2 ^ 31 else 0) + src * 2 ^ 16 + code)

def Token.isPoison (t : Token) : Bool := t.kind == .poison
def Token.isPending (t : Token) : Bool := t.kind == .poison && t.value.toNat / 2 ^ 31 == 1
def Token.isFinal (t : Token) : Bool := t.kind == .poison && t.value.toNat / 2 ^ 31 == 0

/-- Replace the earliest pending poison under a tag in a token list. -/
def swapPending (t : Token) : List Token → Option (List Token)
  | [] => none
  | u :: rest => if u.isPending ∧ u.tag = t.tag then some (t :: rest) else (swapPending t rest).map (u :: ·)

/-- The first element for which `f` answers is replaced by its answer. -/
def swapFirst {α : Type} (f : α → Option α) : List α → Option (List α)
  | [] => none
  | a :: t => match f a with | some b => some (b :: t) | none => (swapFirst f t).map (a :: ·)

/-- A frame entry's number: cell, node, tag, port, and the row tag that PAIR matches by (R48, R371). -/
def frameKey (cell node tag port rowtag : Nat) : Nat := (((cell * 32 + node) * 4096 + tag) * 4 + port) * 2 ^ 24 + rowtag

/-- Replace the earliest pending poison under a tag among packets on the mesh. -/
def swapPacket (t : Token) : List Packet → Option (List Packet)
  | [] => none
  | u :: rest => if u.token.isPending ∧ u.token.tag = t.tag then some ({ u with token := t } :: rest) else (swapPacket t rest).map (u :: ·)

/-- A pending poison that has left a channel is replaced in its place: at a write stream, in an in-queue, in a frame entry, or in the
overflow queue (R382, R408). False where there is none. -/
def replaceAt (c : Chan) (t : Token) : M Bool := do
  let s ← get'
  match c.place with
  | .stream j =>
    match (kget s.regions c.src).bind (fun r => kget r.streams j) with
    | some x =>
      if x.held.any (fun u => u.isPending && u.tag == t.tag) then do
        modRegion c.src (fun r => { r with streams := kset r.streams j { x with held := some t } })
        pure true
      else pure false
    | none => pure false
  | .queue qc k =>
    match (coverRid s c.hall c.ctx qc).bind (fun rid => (kget s.regions rid).map (fun r => (rid, kgetD r.queues qc {}))) with
    | none => pure false
    | some (rid, q) =>
      match swapPending t (if k = 0 then q.q0 else q.q1) with
      | some l => do
        modRegion rid (fun r => { r with queues := kset r.queues qc (if k = 0 then { q with q0 := l } else { q with q1 := l }) })
        pure true
      | none => pure false
  | .port pc pn pp =>
    match (coverRid s c.hall c.ctx pc).bind (fun rid => (kget s.regions rid).map (fun r => (rid, r))) with
    | none => pure false
    | some (rid, r) =>
      match r.frames.find? (fun f => f.1 / 2 ^ 24 == frameKey pc pn t.tag pp 0 / 2 ^ 24 && f.2.token.isPending) with
      | some f => do
        eff (.region rid (some { r with frames := kset r.frames f.1 { f.2 with token := t } }))
        pure true
      | none =>
        match swapFirst (fun o : Overflow => if o.cell = pc ∧ o.ctx = c.ctx ∧ o.key = frameKey pc pn t.tag pp 0 ∧ o.token.isPending
            then some { o with token := t } else none) (hallAt s c.hall).overflow with
        | some l => do
          modHall c.hall (fun h => { h with overflow := l })
          pure true
        | none => pure false

/-- A token that a held issue emits late takes the place of its earliest pending poison: where that has arrived, else on the channel or
on the mesh (R408); with none left it is sent as any token. -/
def replacePending (rid cell : Nat) (d : Dest) (t : Token) : M Unit := do
  let s ← get'
  match kget s.regions rid with
  | none => pure ()
  | some r => each (destEdges s rid r cell d t.tag) (fun e => do
      let s ← get'
      let c := edgeChan s e
      let done ← replaceAt c t
      if done then pure ()
      else match swapPending t c.queue with
      | some q => eff (.chan e.key (some { c with queue := q }))
      | none =>
      match swapPacket t c.flight with
      | some q => eff (.chan e.key (some { c with flight := q }))
      | none => sendEdge t e)

/-- The serial of an invocation that is open, in a hall or in an image that CTX.SAVE took, or of which a posted write is outstanding (R135,
R136). -/
def openSerial (s : State) (k : Nat) : Bool :=
  s.halls.any (fun h => h.invs.any (fun p => p.2.serial == k))
  || s.vfs.any (fun v => v.2.saves.any (fun x => x.vacated && x.invs.any (fun p => p.2.serial == k)))
  || s.reqs.any (fun q => match q.op with | .posted _ j => j == k | _ => false)

/-- What a lane's firing descends from (R130). -/
def Lane.past (l : Lane) : List Nat := (l.ops.flatMap (fun p => p.2.past)).eraseDups

/-- A token that descends from a firing with the given past. -/
def Token.after (s : State) (past : List Nat) (t : Token) : Token :=
  { t with past := ((t.past ++ past).eraseDups).filter (openSerial s) }

/-- Every edge that tokens under the given destinations and tags take has a place for them (R52, R471). -/
def roomAll (s : State) (rid cell : Nat) (l : List (Dest × Nat)) : Bool :=
  match kget s.regions rid with
  | none => true
  | some r =>
    let edges := l.flatMap (fun p => destEdges s rid r cell p.1 p.2)
    edges.all (fun e => edgeFree s ((edges.filter (·.key == e.key)).length) e)

/-- Send on both destinations. -/
def emitBoth (rid cell : Nat) (da db : Dest) (t : Token) : M Unit := do
  emitTo rid cell da t
  emitTo rid cell db t

end Sys2Proof.Machine
end

