-- ==== Sys2Proof/Machine/Flags.lean ====
section
/-! DEFINITION. The arithmetic conditions of R260, their dispositions (R396), and the range and rounding rules
that raise them (R147, R148 to R153). -/
namespace Sys2Proof.Machine

/-- The conditions a firing raises (R260). -/
structure Conds where
  dz : Bool := false
  iov : Bool := false
  fiv : Bool := false
  fof : Bool := false
  fuf : Bool := false
  deriving DecidableEq, Repr

def Conds.or (a b : Conds) : Conds :=
  { dz := a.dz || b.dz, iov := a.iov || b.iov, fiv := a.fiv || b.fiv, fof := a.fof || b.fof, fuf := a.fuf || b.fuf }

/-- The cause codes raised, ascending (R400). -/
def Conds.codes (c : Conds) : List Nat :=
  (if c.dz then [1] else []) ++ (if c.iov then [2] else []) ++ (if c.fiv then [3] else []) ++ (if c.fof then [4] else [])
    ++ (if c.fuf then [5] else [])

/-- A condition's disposition in TRAPEN (R396). -/
def disposition (trapEn : BitVec 64) (code : Nat) : Nat := bits trapEn.toNat (2 * (code - 1)) 2

/-- What a lane's conditions make of it: trap before poison before nothing, each with the lowest code (R396). -/
inductive Fate where
  | stands
  | poison (code : Nat)
  | trap (code : Nat)
  deriving DecidableEq, Repr

def fate (trapEn : BitVec 64) (c : Conds) : Fate :=
  match c.codes.find? (fun k => disposition trapEn k == 2) with
  | some k => .trap k
  | none =>
    match c.codes.find? (fun k => disposition trapEn k == 1) with
    | some k => .poison k
    | none => .stands

/-! ### Integer results (R146, R147) -/

/-- The least and greatest values of an integer type. -/
def intMin (t : Ty) : Int := if isSigned t then - (2 ^ (tyWidth t - 1) : Nat) else 0
def intMax (t : Ty) : Int := if isSigned t then (2 ^ (tyWidth t - 1) : Nat) - 1 else (2 ^ tyWidth t : Nat) - 1

/-- An operand's integer value: only the low bits count (R146). -/
def intOf (t : Ty) (v : BitVec 32) : Int :=
  if isSigned t then signed (tyWidth t) v.toNat else (v.toNat % 2 ^ tyWidth t : Nat)

/-- An integer written in the extended form (R146). -/
def ofInt (t : Ty) (z : Int) : BitVec 32 :=
  let z := if isSigned t then signed (tyWidth t) (unsigned (tyWidth t) z) else (unsigned (tyWidth t) z : Nat)
  BitVec.ofInt 32 z

/-- A value in the extended form of its type (R146, R149, R237). -/
def extend (t : Ty) (v : BitVec 32) : BitVec 32 :=
  if isInt t then ofInt t (intOf t v) else if t = .pred then BitVec.ofNat 32 (v.toNat % 2) else BitVec.ofNat 32 (v.toNat % 2 ^ tyWidth t)

/-- A value in the type's range. -/
def inRange (t : Ty) (z : Int) : Bool := intMin t ≤ z && z ≤ intMax t

def clampInt (t : Ty) (z : Int) : Int := if z < intMin t then intMin t else if intMax t < z then intMax t else z

/-- An exact integer result, wrapped or clamped by md bit 0; IOV when that changed it (R147, R260). -/
def intResult (t : Ty) (sat : Bool) (z : Int) : BitVec 32 × Conds :=
  (ofInt t (if sat then clampInt t z else z), { iov := !inRange t z })

/-! ### Floating formats (R148 to R151) -/

/-- A format: bits of precision with the leading one, the exponent of the smallest subnormal, the mantissa and
exponent of the largest finite value. -/
structure Fmt where
  p : Nat
  emin : Int
  maxM : Nat
  maxE : Int
  deriving Repr

def fmtOf : Ty → Fmt
  | .bf16 => { p := 8, emin := -133, maxM := 255, maxE := 120 }
  | .f16 => { p := 11, emin := -24, maxM := 2047, maxE := 5 }
  | .f8e4 => { p := 4, emin := -9, maxM := 14, maxE := 5 }
  | .f8e5 => { p := 3, emin := -16, maxM := 7, maxE := 13 }
  | _ => { p := 24, emin := -149, maxM := 16777215, maxE := 104 }

/-- A floating value: m · 2^e with a sign, an infinity, or NaN. -/
inductive Fl where
  | fin (neg : Bool) (m : Nat) (e : Int)
  | inf (neg : Bool)
  | nan
  deriving DecidableEq, Repr

def Fl.isNan : Fl → Bool
  | .nan => true
  | _ => false

/-- The canonical NaN (R148). DEDUCED, log 31. -/
def canonNan : Ty → Nat
  | .bf16 => 0x7FC0
  | .f16 => 0x7E00
  | .f8e4 => 0x7F
  | .f8e5 => 0x7E
  | _ => 0x7FC00000

/-- The bits of an infinity; f8e4 has none and writes NaN (R150). -/
def infBits (t : Ty) (neg : Bool) : Nat :=
  let s := if neg then 2 ^ (tyWidth t - 1) else 0
  match t with
  | .bf16 => s + 0x7F80
  | .f16 => s + 0x7C00
  | .f8e4 => canonNan .f8e4
  | .f8e5 => s + 0x7C
  | _ => s + 0x7F800000

/-- The value a token's bits hold (R148, R149). -/
def flOf (t : Ty) (v : Nat) : Fl :=
  let f := fmtOf t
  let w := tyWidth t
  let b := v % 2 ^ w
  let neg := b / 2 ^ (w - 1) == 1
  let man := b % 2 ^ (f.p - 1)
  let ex := b / 2 ^ (f.p - 1) % 2 ^ (w - f.p)
  let top := 2 ^ (w - f.p) - 1
  if ex = top ∧ (t = .f8e4 → man = 7) then (if t = .f8e4 then .nan else if man = 0 then .inf neg else .nan)
  else if ex = 0 then .fin neg man f.emin
  else .fin neg (2 ^ (f.p - 1) + man) (f.emin + ex - 1)

/-- A subnormal of a type. -/
def isSubnormal (t : Ty) : Fl → Bool
  | .fin _ m e => m != 0 && e == (fmtOf t).emin && m < 2 ^ ((fmtOf t).p - 1)
  | _ => false

/-- An operand under md bit 3: a subnormal is read as zero (R151). -/
def flush (t : Ty) (md : Nat) (x : Fl) : Fl :=
  match x with
  | .fin neg _ _ => if bits md 3 1 = 1 ∧ isSubnormal t x then .fin neg 0 0 else x
  | _ => x

/-- An operand of a floating operation. -/
def flIn (t : Ty) (md : Nat) (v : BitVec 32) : Fl := flush t md (flOf t v.toNat)

/-- n · 2^k as a natural number with remainder flag, for a possibly negative k over a denominator: the
quotient and remainder of n · 2^k / d. -/
def shiftDiv (n d : Nat) (k : Int) : Nat × Nat × Nat :=
  if 0 ≤ k then let a := n * 2 ^ k.toNat; (a / d, a % d, d)
  else let b := d * 2 ^ (-k).toNat; (n / b, n % b, b)

/-- Whether a quotient rounds up: modes 0 nearest-even, 1 toward zero, 2 toward +∞, 3 toward −∞ (R152). -/
def roundsUp (mode : Nat) (neg : Bool) (q r d : Nat) : Bool :=
  match mode with
  | 0 => d < 2 * r || (2 * r == d && q % 2 == 1)
  | 1 => false
  | 2 => !neg && r != 0
  | _ => neg && r != 0

/-- floor(log2(n / d)) for positive n and d. -/
def log2Ratio (n d : Nat) : Int :=
  let k : Int := (Nat.log2 n : Int) - Nat.log2 d
  let (q, _, _) := shiftDiv n d (-k)
  if q = 0 then k - 1 else k

/-- The finite pattern of sign, mantissa and exponent, the mantissa at most 2^p and normal unless the
exponent is the least. -/
def packFin (t : Ty) (neg : Bool) (m : Nat) (e : Int) : Nat :=
  let f := fmtOf t
  let (m, e) := if m = 2 ^ f.p then (m / 2, e + 1) else (m, e)
  let s := if neg then 2 ^ (tyWidth t - 1) else 0
  if m < 2 ^ (f.p - 1) then s + m else s + ((e - f.emin + 1).toNat * 2 ^ (f.p - 1) + (m - 2 ^ (f.p - 1)))

/-- The largest finite value of a sign. -/
def maxBits (t : Ty) (neg : Bool) : Nat := packFin t neg (fmtOf t).maxM (fmtOf t).maxE

/-- What an overflow is written as (R153). DEDUCED, log 34. -/
def overflowBits (t : Ty) (md : Nat) (neg : Bool) : Nat :=
  if bits md 2 1 = 1 then maxBits t neg
  else match md % 4, neg with
  | 0, _ => infBits t neg
  | 1, _ => maxBits t neg
  | 2, false => infBits t false
  | 2, true => maxBits t true
  | _, false => maxBits t false
  | _, true => infBits t true

/-- The exact value (−1)^neg · n/d · 2^e rounded once to a type (R152, R153), with its conditions (R260). -/
def roundRatio (t : Ty) (md : Nat) (neg : Bool) (n d : Nat) (e : Int) : Nat × Conds :=
  let f := fmtOf t
  if n = 0 then ((if neg then 2 ^ (tyWidth t - 1) else 0), {})
  else
    let k := log2Ratio n d + e
    let qe : Int := max (k - (f.p - 1 : Nat)) f.emin
    let (q, r, dd) := shiftDiv n d (e - qe)
    let m := if roundsUp (md % 4) neg q r dd then q + 1 else q
    -- over the largest finite value, with the exponent unbounded
    let beyond := (shiftDiv m 1 (qe - f.maxE)).1 > f.maxM || ((shiftDiv m 1 (qe - f.maxE)).1 == f.maxM && (shiftDiv m 1 (qe - f.maxE)).2.1 != 0)
    if beyond then (overflowBits t md neg, { fof := true })
    else
      let tiny : Bool := decide (k < f.emin + (f.p - 1 : Nat))
      let sub := m < 2 ^ (f.p - 1)
      if sub ∧ bits md 3 1 = 1 ∧ m ≠ 0 then ((if neg then 2 ^ (tyWidth t - 1) else 0), { fuf := true })
      else (packFin t neg m qe, { fuf := tiny && r != 0 })

/-- A floating value written in a type (R152, R153): finite values are rounded once, an infinity stays or is
clamped, NaN is canonical. -/
def writeFl (t : Ty) (md : Nat) (x : Fl) : Nat × Conds :=
  match x with
  | .fin neg m e => roundRatio t md neg m 1 e
  | .inf neg => if bits md 2 1 = 1 then (maxBits t neg, {}) else (infBits t neg, {})
  | .nan => (canonNan t, {})

/-! ### Exact sums and products -/

/-- The signed mantissa of a finite value at exponent `e0`, at most its own exponent. -/
def atExp (neg : Bool) (m : Nat) (e e0 : Int) : Int :=
  let a : Nat := m * 2 ^ (e - e0).toNat
  if neg then - (a : Int) else a

/-- The exact sum of finite terms: mantissa and exponent. -/
def exactSum (l : List (Bool × Nat × Int)) : Int × Int :=
  let e0 := l.foldl (fun a p => min a p.2.2) (match l with | [] => 0 | p :: _ => p.2.2)
  (l.foldl (fun z p => z + atExp p.1 p.2.1 p.2.2 e0) 0, e0)

/-- The sum of floating terms, exact, and whether it is invalid (R150): infinities of both signs. -/
def sumFl (mode : Nat) (l : List Fl) : Fl × Bool :=
  if l.any Fl.isNan then (.nan, false)
  else if l.contains (.inf false) ∧ l.contains (.inf true) then (.nan, true)
  else if l.contains (.inf false) then (.inf false, false)
  else if l.contains (.inf true) then (.inf true, false)
  else
    let ts := l.filterMap (fun x => match x with | .fin n m e => some (n, m, e) | _ => none)
    let (z, e) := exactSum ts
    if z = 0 then
      if !ts.isEmpty ∧ ts.all (fun p => p.1 && p.2.1 == 0) then (.fin true 0 0, false)
      else if ts.all (fun p => !p.1 && p.2.1 == 0) then (.fin false 0 0, false)
      else (.fin (mode == 3) 0 0, false)
    else (.fin (decide (z < 0)) z.natAbs e, false)

/-- An exact product and whether it is invalid: 0 · ∞ (R150). -/
def mulFl (a b : Fl) : Fl × Bool :=
  match a, b with
  | .nan, _ | _, .nan => (.nan, false)
  | .inf x, .inf y => (.inf (x != y), false)
  | .inf x, .fin y m _ | .fin y m _, .inf x => if m = 0 then (.nan, true) else (.inf (x != y), false)
  | .fin x m e, .fin y n k => (.fin (x != y) (m * n) (e + k), false)

def negFl : Fl → Fl
  | .fin n m e => .fin (!n) m e
  | .inf n => .inf (!n)
  | .nan => .nan

/-- Compare two finite or infinite values: negative, zero or positive as the first is less, equal, greater;
`none` for an unordered pair. −0 equals +0 (R271). -/
def cmpFl (a b : Fl) : Option Int :=
  match a, b with
  | .nan, _ | _, .nan => none
  | .inf x, .inf y => some (if x = y then 0 else if x then -1 else 1)
  | .inf x, _ => some (if x then -1 else 1)
  | _, .inf y => some (if y then 1 else -1)
  | .fin x m e, .fin y n k => some (exactSum [(x, m, e), (!y, n, k)]).1

/-- A condition of R236 on an ordering; `none` is an unordered pair. -/
def condHolds (md : Nat) (c : Option Int) : Bool :=
  match md, c with
  | 0, some z => z == 0
  | 1, some z => z != 0
  | 1, none => true
  | 2, some z => z < 0
  | 3, some z => z ≤ 0
  | 4, some z => 0 < z
  | 5, some z => 0 ≤ z
  | 6, none => true
  | 7, some _ => true
  | _, _ => false

end Sys2Proof.Machine
end

