-- ==== Sys2Proof/Machine/NameOps.lean ====
section
/-! DEFINITION. Packet geometry (R158, R159), raising a trap in a region (R401), and the folds' slots
(R72 to R98): the operations that name nodes, name commands and commits share. -/
namespace Sys2Proof.Machine

/-! ### Packet headers -/

/-- A packet header (R158). -/
structure PktHdr where
  fmt : Nat
  rows : Nat
  cols : Nat
  scl : Nat
  spm : Nat
  lastk : Nat
  kch : Nat
  rowtag : Nat
  deriving DecidableEq, Repr

def hdrOfNat (n : Nat) : PktHdr :=
  { fmt := bits n 60 4, rows := bits n 52 8, cols := bits n 44 8, scl := bits n 42 2, spm := bits n 41 1,
    lastk := bits n 40 1, kch := bits n 24 16, rowtag := bits n 0 24 }

def PktHdr.toNat (h : PktHdr) : Nat :=
  h.fmt * 2 ^ 60 + h.rows * 2 ^ 52 + h.cols * 2 ^ 44 + h.scl * 2 ^ 42 + h.spm * 2 ^ 41 + h.lastk * 2 ^ 40 + h.kch * 2 ^ 24
    + h.rowtag % 2 ^ 24

/-- A header that R416 admits. -/
def PktHdr.ok (h : PktHdr) : Bool :=
  h.fmt != 12 && h.fmt != 14 && h.fmt != 15 && 1 ≤ h.cols && h.cols ≤ 128 && h.rows ≤ 128

/-- A header whose FMT gives its elements a width, so that R159 gives its packet a length; a null packet has no body. -/
def PktHdr.known (h : PktHdr) : Bool := h.rows == 0 || (h.fmt != 12 && h.fmt != 14 && h.fmt != 15)

/-- Bits per element of a format. -/
def fmtWidth (fmt : Nat) : Nat := tyWidth (tyOfCode fmt)

/-- Bytes of one row (R159). -/
def rowBytes (fmt cols : Nat) : Nat := if fmt = 13 then 16 + 16 * cols else (cols * fmtWidth fmt + 7) / 8

/-- The next multiple of 16. -/
def align16 (n : Nat) : Nat := (n + 15) / 16 * 16

/-- Blocks of 64 elements in all rows (R156). -/
def PktHdr.blocks (h : PktHdr) : Nat := h.rows * ((h.cols + 63) / 64)

/-- Bytes of the scales part (R159). -/
def PktHdr.scaleBytes (h : PktHdr) : Nat :=
  match h.scl with
  | 0 => 0
  | 1 => 4 * h.rows
  | 2 => h.blocks + 4 * ((h.blocks + 255) / 256)
  | _ => 4

def PktHdr.rowsEnd (h : PktHdr) : Nat := 8 + h.rows * rowBytes h.fmt h.cols
def PktHdr.scalesAt (h : PktHdr) : Nat := align16 h.rowsEnd
def PktHdr.scalesEnd (h : PktHdr) : Nat := if h.scl = 0 then h.rowsEnd else h.scalesAt + h.scaleBytes
def PktHdr.masksAt (h : PktHdr) : Nat := align16 h.scalesEnd

/-- A packet's length in bytes (R159); a null packet is its header. DEDUCED, log 52. -/
def PktHdr.length (h : PktHdr) : Nat :=
  if h.rows = 0 then 8 else if h.spm = 1 then h.masksAt + 16 * h.rows else h.scalesEnd

/-- The header of a packet's bytes. -/
def pktHdr (bs : List Byte) : PktHdr := hdrOfNat (leNat (bs.take 8))

/-- A tile token: its value is the packet's length (R340). -/
def tileToken (tag : Nat) (packet : List Byte) : Token :=
  { value := BitVec.ofNat 32 packet.length, tag := tag, packet := packet }

/-! ### Raising a trap (R401, R405) -/

/-- A node's trap for lanes that fault: the lanes are held, each destination that a lane would have fed gets a pending poison, which a
retried issue has left there before, and the trap waits for its delivery (R401). -/
def raiseNode (rid cell node : Nat) (retry : Bool) (t : TrapRec) (lanes : List (Nat × Lane × List Dest)) : M Unit := do
  let s ← get'
  match kget s.regions rid, lanes with
  | some r, (_, l0, _) :: _ => do
    let t := { t with
      iv := (boundId r l0.tag).getD 0, act := r.seq.act, cmd := min r.seq.index 63, cell := cell, node := node
      laneMask := lanes.foldl (fun m p => m + 2 ^ p.1) 0, held := lanes.map (·.2.1), fed := lanes.map (·.2.2) }
    each (if retry then [] else lanes) (fun p => each p.2.2 (fun d =>
      emitTo rid cell d { value := poisonValue true t.src t.code, tag := p.2.1.tag, kind := .poison }))
    modRegion rid (fun r => { r with traps := r.traps ++ [t] })
  | _, _ => pure ()

/-- The 32-bit operand that TRAPCAUSE reports: op0 of the lowest faulting lane (R398). -/
def lane0Op (l : Lane) : Nat := match kget l.ops 0 with | some t => t.value.toNat | none => 0

/-! ### Replies -/

/-- The reply of a served request: its tokens leave once their destinations have places (R52), and until then
the request counts as unanswered (R67). After a retry each takes the place of its pending poison (R408). DEDUCED, log 61. -/
def sendReply (q : Req) (a b : Option Token) : M Unit := do
  let s ← get'
  let a := a.map (Token.after s q.lane.past)
  let b := b.map (Token.after s q.lane.past)
  let outs := (match a with | some t => [(q.da, t)] | none => []) ++ (match b with | some t => [(q.db, t)] | none => [])
  if q.retry then each outs (fun p => replacePending q.rid q.cell p.1 p.2)
  else if roomAll s q.rid q.cell (outs.map (fun p => (p.1, p.2.tag))) then each outs (fun p => emitTo q.rid q.cell p.1 p.2)
  else do
    let n ← fresh
    let s ← get'
    eff (.reqs (s.reqs ++ [{ q with op := .reply a b, phase := .issued, number := n }]))
  stir q.rid

/-- A completion token of a lane (R46, R130). -/
def completion (l : Lane) : Token := { value := 0, tag := l.tag, kind := .completion }

/-- A final poison token of a lane (R406). -/
def finalTok (l : Lane) (code : Nat) : Token := { value := poisonValue false 0 code, tag := l.tag, kind := .poison }

/-- A late trap of one request: the lane becomes the held issue (R401); after a retry the pending poison is
already there. DEDUCED, log 33. -/
def raiseLate (rid cell node : Nat) (da db : Dest) (retry : Bool) (l : Lane) (t : TrapRec) : M Unit :=
  raiseNode rid cell node retry t [(0, l, [da, db])]

/-! ### Discard marks (R409) -/

/-- The open invocation of a hall that an identifier of a region belongs to. -/
def openInv (s : State) (r : Region) (rid id : Nat) : Option Nat :=
  ((hallAt s r.hall).invs.find? (fun p => p.2.rid == rid && p.2.first == invFirst r.header id)).map (·.1)

/-- The open invocation a tag's binding belongs to; none for an unbound tag (R71). -/
def tagInv (s : State) (r : Region) (rid tag : Nat) : Option Nat := (boundId r tag).bind (openInv s r rid)

/-- Mark an invocation discarded, keeping the code of its first poison (R409). -/
def markDiscard (hall inv code : Nat) : M Unit := modHall hall (fun h =>
  match kget h.invs inv with
  | some i => { h with invs := kset h.invs inv { i with discarded := some (i.discarded.getD code) } }
  | none => h)

/-- Mark the invocation of a tag. -/
def discardTag (rid tag code : Nat) : M Unit := do
  let s ← get'
  match kget s.regions rid with
  | some r => match tagInv s r rid tag with
    | some inv => markDiscard r.hall inv code
    | none => pure ()
  | none => pure ()

/-! ### Lattices (R75, R76, R89 to R92) -/

def foldKey (ctx stmt : Nat) : Nat := ctx * 4096 + stmt

/-- The fields of a name's iteration vector, level 1 first. -/
def fieldsOf (h : BitVec 128) (id : Nat) : List Nat := (List.range (hdrLevels h)).map (fun i => hdrField h id (i + 1))

/-- The slot index of an iteration vector (R76). -/
def slotIndex (l : Lattice) (fs : List Nat) : Nat :=
  if l.skewed then
    (((fs.zip l.coef).foldl (fun z p => z + p.2 * (p.1 : Int)) 0) % (l.modulus : Int)).toNat
  else (fs.zip (l.m.zip l.stride)).foldl (fun n p => n + p.1 % p.2.1 * p.2.2) 0

/-- The number of slots (R76). -/
def Lattice.slots (l : Lattice) : Nat :=
  if l.skewed then l.modulus else 1 + (l.m.zip l.stride).foldl (fun n p => n + (p.1 - 1) * p.2) 0

/-- The area of a fold in its fold space: first byte and end (R76). -/
def Lattice.endByte (l : Lattice) : Nat := l.base + l.slots * (l.size + 16)

def emptySlot : FoldSlot := { iv := 0, stmt := 0, state := .empty, uses := 0, wr := false, rd := false, inv := 0, tile := [] }

/-- One vector after another in lexicographic order: is `a` before `b`? -/
def lexLt : List Int → List Int → Bool
  | a :: as, b :: bs => a < b || (a == b && lexLt as bs)
  | _, _ => false

/-- The lexicographic maximum of the distance set (R89). -/
def dStar (ds : List (List Int)) : List Int := ds.foldl (fun m d => if lexLt m d then d else m) ((ds.head?).getD [])

/-- Insert by ascending stride. -/
def insStride (p : Nat × Nat) : List (Nat × Nat) → List (Nat × Nat)
  | [] => [p]
  | q :: t => if p.2 < q.2 then p :: q :: t else q :: insStride p t

/-- The box map from residues to indices is one to one (R90). -/
def boxOneToOne (l : Lattice) : Bool :=
  let ps := ((l.m.zip l.stride).filter (fun p => 1 < p.1)).foldl (fun acc p => insStride p acc) []
  (ps.foldl (fun acc p => (acc.1 && decide (1 + acc.2 ≤ p.2), acc.2 + (p.1 - 1) * p.2)) (true, 0)).1

/-- The least colliding vector of a box fold (R91); none when no level has m below its extent. -/
def deltaMin (l : Lattice) (ext : List Nat) : Option (List Int) :=
  let n := ext.length
  match ((List.range n).reverse).find? (fun i => decide ((l.m[i]?).getD 1 < (ext[i]?).getD 1)) with
  | none => none
  | some e => some ((List.range n).map (fun i =>
      let m : Nat := (l.m[i]?).getD 1
      let x : Nat := (ext[i]?).getD 1
      if i < e then 0 else if i = e then (m : Int) else - Int.ofNat (m * ((x - 1) / m))))

/-- The vectors below a bound on every level whose prefix already is below `d*`: their number (R89). -/
def boxCount (ext : List Nat) : Nat := ext.foldl (fun n e => n * (2 * e - 1)) 1

/-- How many vectors lie in the window: those lexicographically above zero and at most `d*` (R89). -/
def windowCount : List Nat → List Int → Nat
  | _ :: es, d :: ds =>
    -- first field from 1 to d − 1 with anything below, plus first field d with the rest at most ds
    if d ≤ 0 then (if d = 0 then windowCount es ds else 0)
    else
      let full := boxCount es
      let half := (full - 1) / 2
      half + (d.toNat - 1) * full + tailAtMost es ds
  | _, _ => 0
where
  /-- vectors of the remaining levels that are lexicographically at most `ds` -/
  tailAtMost : List Nat → List Int → Nat
    | e :: es, d :: ds => (d + (e : Int) - 1).toNat * boxCount es + tailAtMost es ds
    | _, _ => 1

/-- A skewed fold's window holds a collision: some vector of the window with Σ a·δ ≡ 0 (R90). Vectors are
visited level by level; `low` and `high` say whether the prefix still equals zero and `d*`. -/
def skewCollides (modulus : Nat) : List Nat → List Int → List Int → Int → Bool → Bool → Bool
  | e :: es, a :: as, d :: ds, acc, low, high =>
    (List.range (2 * e - 1)).any (fun i =>
      let δ : Int := (i : Int) - ((e : Int) - 1)
      if (low && decide (δ < 0)) || (high && decide (d < δ)) then false
      else skewCollides modulus es as ds (acc + a * δ) (low && δ == 0) (high && δ == d))
  | _, _, _, acc, low, _ => !low && acc % (modulus : Int) == 0

/-- FOLDCHK's result code (R90). DESIGN CHOICE, log 71. -/
def foldCheck (l : Lattice) (h : BitVec 128) : Nat :=
  let ext := (List.range (hdrLevels h)).map (fun i => hdrExtent h (i + 1))
  let ds := l.dists.map (fun d => d.take ext.length)
  let d := dStar ds
  if l.skewed then
    if 2 ^ 24 < windowCount ext d then 3
    else if skewCollides l.modulus ext l.coef d 0 true true then 1 else 0
  else if !boxOneToOne l then 2
  else match deltaMin l ext with
    | none => 0
    | some m => if lexLt d m then 0 else 1

/-! ### Serving a slot (R81 to R86, R425 to R428) -/

/-- What a request finds at its slot. -/
inductive Served where
  | waits
  | serve (slot : FoldSlot)
  | fails (code : Nat) (occupant : Nat) (operand : Nat)
  deriving DecidableEq, Repr

/-- A scalar or tile value read from a value tile (R82). -/
def tileValue (ty : Ty) (tag word : Nat) (tile : List Byte) : Token :=
  if ty = .tile then tileToken tag (tile.take (pktHdr tile).length)
  else { value := BitVec.ofNat 32 (leNat ((tile.drop (4 * word)).take 4)), tag := tag }

/-- How a read is answered (R81). -/
def readSlot (q : NameReq) (l : Lattice) (sl : FoldSlot) : Served :=
  if q.ty ≠ .tile ∧ l.size / 4 ≤ q.word then .fails 0x12 0 5
  else match sl.state with
  | .empty | .moving => .waits
  | st =>
    if q.name < sl.iv then .fails 0x28 sl.iv q.stmt
    else if sl.iv < q.name then .waits
    else if st = .held ∧ q.inv ≠ some sl.inv then .waits
    else if q.take ∧ sl.uses = 0 then .waits
    else if q.ty = .tile ∧ ¬sl.bad ∧ ¬(pktHdr sl.tile).ok then .fails 0x22 0 q.word
    else
      let u := if q.take then sl.uses - 1 else sl.uses
      if q.take ∧ u = 0 ∧ st = .full then .serve emptySlot else .serve { sl with uses := u }

/-- How a write is answered (R83, R426). A write released after its own invocation has committed belongs to none: its slot becomes Full at
once, as where no invocation is bound (R71), since no commit is left to make it so (DESIGN CHOICE, log 107). -/
def writeSlot (q : NameReq) (l : Lattice) (sl : FoldSlot) : Served :=
  match sl.state with
  | .moving => .waits
  | .empty => .serve
      { iv := q.name, stmt := q.stmt, state := if q.inv.isSome then .held else .full, uses := q.uses, wr := sl.wr, rd := sl.rd,
        inv := q.inv.getD 0, tile := (q.data ++ List.replicate (l.size - q.data.length) 0).take l.size }
  | _ => if q.name = sl.iv then .fails 0x2C sl.iv q.stmt else if q.name < sl.iv then .fails 0x2D sl.iv q.stmt else .waits

/-- What a request finds: while the gate of its fold is closed it waits in the queue (R94, R95). -/
def slotView (q : NameReq) (f : Fold) (sl : FoldSlot) : Served :=
  if f.gate.isSome then .waits
  else if q.write then writeSlot q f.lattice sl else readSlot q f.lattice sl

/-- The fold a request names, with the request's slot. The requester's own launch header splits its name into fields: the specification
does not say whose does where regions of one name space have different headers (DESIGN CHOICE, log 108). -/
def reqSlot (s : State) (q : NameReq) : Option (Nat × Nat × Nat × Fold × FoldSlot) :=
  match kget s.regions q.rid with
  | none => none
  | some r =>
    let k := foldKey r.ctx q.stmt
    match kget (hallAt s r.hall).folds k with
    | none => none
    | some f =>
      let i := slotIndex f.lattice (fieldsOf r.header q.name)
      some (r.hall, k, i, f, kgetD f.slots i emptySlot)

/-- Change a fold that is live. -/
def modFold (hall key : Nat) (f : Fold → Fold) : M Unit := modHall hall (fun h =>
  match kget h.folds key with
  | some x => { h with folds := kset h.folds key (f x) }
  | none => h)

/-- Store a slot; an Empty slot without flags is not listed. -/
def putSlot (hall key i : Nat) (sl : FoldSlot) : M Unit := modFold hall key (fun f =>
  { f with slots := if sl.state = .empty ∧ ¬sl.wr ∧ ¬sl.rd then kdel f.slots i else kset f.slots i sl })

/-- A name request as the request that its reply goes through. -/
def NameReq.req (q : NameReq) : Req :=
  { rid := q.rid, cell := q.cell, node := q.node, lane := q.lane, wid := none, op := .load, ty := q.ty, da := q.da
    db := q.db, va := 0, loc := none, len := 0, phase := .issued, number := 0, retry := q.retry }

/-- A stalled NSEED ends: its sequencer finds how (R96). -/
def seedEnds (q : NameReq) (o : Option TrapRec) : M Unit := modRegion q.rid (fun r => { r with seed := some o })

/-- Emit what a served or failed request emits (R130, R296). -/
def answerName (q : NameReq) (sl : FoldSlot) : M Unit :=
  if q.cell = 64 then seedEnds q none
  else if q.write then sendReply q.req (some (completion q.lane)) (some (completion q.lane))
  else if sl.bad then sendReply q.req (some (finalTok q.lane 0x40)) (some (finalTok q.lane 0x40))
  else sendReply q.req (some (tileValue q.ty q.lane.tag q.word sl.tile)) (some (completion q.lane))

/-- Try one request: served, failed with a trap, or still waiting (false). -/
def tryName (q : NameReq) : M Bool := do
  let s ← get'
  match reqSlot s q with
  | none => pure false
  | some (hall, key, i, f, sl) =>
    match slotView q f sl with
    | .waits => pure false
    | .serve sl' => do
      putSlot hall key i sl'
      answerName q sl
      pure true
    | .fails code occ operand => do
      if q.cell = 64 then seedEnds q (some { code := code, operand := operand, word8 := q.name, word9 := occ })
      else raiseLate q.rid q.cell q.node q.da q.db q.retry q.lane { code := code, operand := operand, word8 := q.name, word9 := occ }
      pure true

/-- Whether a request would be answered now. DEDUCED, log 74. -/
def answerable (s : State) (q : NameReq) : Bool :=
  match reqSlot s q with
  | none => false
  | some (_, _, _, f, sl) => slotView q f sl != .waits

/-- Serve the waiting requests of a fold after a slot changed: readers first, in order of arrival, then the
earliest stalled write, until none can be served (R85). -/
def settle (hall key : Nat) : Nat → M Unit
  | 0 => pure ()
  | fuel + 1 => do
    let s ← get'
    let mine := fun q : NameReq => match reqSlot s q with | some (h, k, _, _, _) => h == hall && k == key | none => false
    let pick := match s.names.find? (fun q => mine q && !q.write && answerable s q) with
      | some q => some q
      | none => s.names.find? (fun q => mine q && q.write && answerable s q)
    match pick with
    | none => pure ()
    | some q => do
      eff (.names (s.names.erase q))
      let _ ← tryName q
      settle hall key fuel

/-- The WR and RD bits of a fold's slots follow the requests that wait on them (R78, R86). -/
def reflag (hall key : Nat) : M Unit := do
  let s ← get'
  let waits := s.names.filterMap (fun q => match reqSlot s q with
    | some (h, k, i, _, _) => if h = hall ∧ k = key then some (i, q.write) else none
    | none => none)
  modFold hall key (fun f =>
    let bare := (f.slots.map (fun p => (p.1, { p.2 with wr := false, rd := false }))).filter (fun p => p.2.state != .empty)
    { f with slots := waits.foldl (fun m w =>
        let sl := kgetD m w.1 emptySlot
        kset m w.1 (if w.2 then { sl with wr := true } else { sl with rd := true })) bare })

/-- Serve a fold's waiters, as many as there are. -/
def settleFold (hall key : Nat) : M Unit := do
  let s ← get'
  settle hall key (s.names.length + 1)
  reflag hall key

/-- The folds of a hall that are moving keep their new areas to themselves: what a fold takes of its fold space (R77, R94). -/
def Fold.areas (f : Fold) : List Lattice := f.lattice :: (match f.gate with | some l => [l] | none => [])

/-- A name request arrives: served at once, or it waits (R81, R83). Waiting readers of the same slot go first. -/
def presentName (q : NameReq) : M Unit := do
  let done ← tryName q
  let s ← get'
  match reqSlot s q with
  | none => pure ()
  | some (hall, key, _, _, _) =>
    if done then settleFold hall key
    else do
      eff (.names (s.names ++ [q]))
      reflag hall key

/-- The move of a REFOLD: every occupant to its new slot, the lattice replaced, the gate opened (R94). The new lattice has passed R90, so
the fold is accepted from then on, which the specification does not say of one that was not (DESIGN CHOICE, log 73). -/
def moveFold (h : BitVec 128) (x : Fold) (l : Lattice) : Fold :=
  { x with
    lattice := l, check := .accepted, gate := none
    slots := x.slots.foldl (fun m p => if p.2.state = .empty then m else kset m (slotIndex l (fieldsOf h p.2.iv)) { p.2 with wr := false, rd := false }) [] }

/-- A move under way ends: the gate opens, and every request of the fold is presented again in order of arrival (R94, R95). -/
def endMove (hall key : Nat) (h : BitVec 128) : M Unit := do
  let s ← get'
  match (kget (hallAt s hall).folds key).bind (·.gate) with
  | none => pure ()
  | some l => do
    modFold hall key (fun x => moveFold h x l)
    let mine := s.names.filter (fun q => match reqSlot s q with | some (n, k, _, _, _) => n == hall && k == key | none => false)
    eff (.names (s.names.filter (fun q => !mine.contains q)))
    each mine presentName
    settleFold hall key

/-- Final poison for every waiting request of a fold that is dropped (R427). -/
def poisonWaiters (hall key : Nat) : M Unit := do
  let s ← get'
  let mine := s.names.filter (fun q => match reqSlot s q with | some (h, k, _, _, _) => h == hall && k == key | none => false)
  eff (.names (s.names.filter (fun q => !mine.contains q)))
  each mine (fun q =>
    if q.cell = 64 then seedEnds q (some { code := 0x2B, operand := q.stmt, word8 := q.name })
    else sendReply q.req (some (finalTok q.lane 0x2B)) (some (finalTok q.lane 0x2B)))

/-- Drop a fold: its slots are zeroed and its area is free (R98, R427). -/
def dropFold (hall key : Nat) : M Unit := do
  poisonWaiters hall key
  modHall hall (fun h => { h with folds := kdel h.folds key })

end Sys2Proof.Machine
end

