-- ==== Sys2Proof/Machine/MemOps.lean ====
section
/-! DEFINITION. Memory requests of nodes: where their bytes lie (R101 to R107), the store hold (R71, R415), pins
(R134), and the full/empty service of scratch granules (R115, R116, R292). -/
namespace Sys2Proof.Machine

/-! ### Requests -/

/-- The open invocation that a request belongs to: hall and index. -/
def reqInv (s : State) (q : Req) : Option (Nat × Nat) :=
  match kget s.regions q.rid, q.wid with
  | some r, some w => (openInv s r q.rid w).map (fun i => (r.hall, i))
  | _, _ => none

/-- The bytes of a scalar type (R101). -/
def tyBytes (t : Ty) : Nat := tyWidth t / 8

/-- Why the bytes of a request have no place: a translation fault, or a page whose translation the hall's cache does not hold. -/
inductive PieceStop where
  | fault (e : XFault) (va : Nat)
  | miss (va : Nat)
  deriving DecidableEq, Repr

/-- The function of a request's region. -/
def reqVf (s : State) (q : Req) : Nat := match kget s.regions q.rid with | some r => r.vf | none => 0

/-- The location of a request's byte at an offset, where that is its first or begins a later page (R104, R105). DEDUCED, log 60. -/
def pageLoc (s : State) (q : Req) (right : Right) (off : Nat) : Except PieceStop Nat :=
  if off = 0 then .ok (q.loc.getD 0)
  else match kget q.locs (q.va + off) with
  | some a => .ok a
  | none =>
    match tlbLookup s (ridHall q.rid) (reqVf s q) (q.va + off) with
    | some (a, e) => if pageGrants e.write e.atomic right then .ok a else .error (.fault (rightFault s (reqVf s q) (q.va + off) right) (q.va + off))
    | none => .error (.miss (q.va + off))

/-- The pieces of a request's bytes from an offset to an end, one per 64 KiB page that has been translated: location, offset, length. -/
def piecesFrom (s : State) (q : Req) (right : Right) : Nat → Nat → Nat → Except PieceStop (List (Nat × Nat × Nat))
  | 0, _, _ => .ok []
  | fuel + 1, off, stop =>
    if stop ≤ off then .ok []
    else
      let page := (q.va + off) / 65536 * 65536 - q.va
      let here := min (stop - off) (65536 - (q.va + off) % 65536)
      match pageLoc s q right page with
      | .error e => .error e
      | .ok a => (piecesFrom s q right fuel (off + here) stop).map ((a + (off - page), off, here) :: ·)

/-- The pieces of `n` bytes of a request from an offset. A scratch access is one piece. -/
def pieces (s : State) (q : Req) (right : Right) (off n : Nat) : Except PieceStop (List (Nat × Nat × Nat)) :=
  let loc := q.loc.getD 0
  if isScratch loc then .ok [(loc + off, off, n)]
  else piecesFrom s q right (n / 65536 + 2) off (off + n)

/-- The lines that pieces touch. -/
def pieceLines (l : List (Nat × Nat × Nat)) : List Nat := l.flatMap (fun p => linesOf p.1 p.2.2)

/-- Some line of the pieces is pinned by another invocation (R134). -/
def pinnedAny (s : State) (q : Req) (l : List (Nat × Nat × Nat)) : Bool :=
  (pieceLines l).any (fun x => pinnedByOther s x (reqInv s q))

/-- The reply value of a load (R290, R146, R340). -/
def loadToken (ty : Ty) (l : Lane) (bs : List Byte) : Token :=
  if ty = .tile then tileToken l.tag bs else { value := extend ty (BitVec.ofNat 32 (leNat bs)), tag := l.tag }

/-! ### The store hold (R71, R415) -/

/-- The 64-byte lines that a held store takes. -/
def heldLines (a n : Nat) : List Nat := ((List.range n).map (fun i => (a + i) / 64)).eraseDups

/-- The lines held in a hall, each by its invocation. -/
def holdLines (h : Hall) : List (Nat × Nat) :=
  ((h.hold.map (fun x => (heldLines x.addr x.data.length).map (fun l => (x.inv, l)))).flatten).eraseDups

/-- The lines that more bytes of an invocation would add. -/
def newLines (h : Hall) (inv a n : Nat) : Nat :=
  ((heldLines a n).filter (fun l => !(holdLines h).contains (inv, l))).length

/-- The lines of the hold (R71, R109). -/
def holdSize : Nat := 8192

/-- What the hold says to more bytes of an invocation: it has no place now, the invocation would need more
lines than there are (HOLD), or there is a place. -/
inductive Room where
  | full | beyond | fits
  deriving DecidableEq, Repr

def holdRoom (h : Hall) (inv : Nat) (l : List (Nat × Nat × Nat)) : Room :=
  let own := ((holdLines h).filter (fun p => p.1 == inv)).length
  let more := (l.map (fun p => newLines h inv p.1 p.2.2)).foldl (· + ·) 0
  if holdSize < own + more then .beyond
  else if holdSize < (holdLines h).length + more then .full else .fits

/-- Put a store into the hold, behind those already there (R71, R143). -/
def holdStore (hall : Nat) (x : Held) : M Unit := modHall hall (fun h => { h with hold := h.hold ++ [x] })

/-- A byte as an invocation sees it: its last held store of it, else the byte at its location (R71). -/
def heldByte (s : State) (hall inv a : Nat) : Option Byte :=
  (hallAt s hall).hold.foldl (fun acc x =>
    if x.inv = inv ∧ x.addr ≤ a ∧ a < x.addr + x.data.length then x.data[a - x.addr]? else acc) none

/-- Bytes as the invocation of a request sees them. -/
def ownBytes (s : State) (inv : Option (Nat × Nat)) (a n : Nat) : List Byte :=
  (List.range n).map (fun i =>
    match inv with
    | some (hall, k) => (heldByte s hall k (a + i)).getD (readByte s.mem (a + i))
    | none => readByte s.mem (a + i))

/-- The bytes of the pieces, as an invocation sees them or as they lie at their locations. -/
def pieceBytes (s : State) (inv : Option (Nat × Nat)) (l : List (Nat × Nat × Nat)) : List Byte :=
  l.flatMap (fun p => ownBytes s inv p.1 p.2.2)

/-- Pin a line for an invocation (R134). -/
def pinLine (hall inv line : Nat) : M Unit := modHall hall (fun h => { h with pins := kset h.pins line inv })

/-! ### Full/empty service (R115, R116, R292) -/

/-- What a full/empty request finds: it waits, it can be served for so many bytes, or it faults. -/
inductive FeView where
  | wait
  | ready (n : Nat)
  | bad (code : Nat)
  deriving DecidableEq, Repr

def feView (s : State) (q : Req) : FeView :=
  let a := q.loc.getD 0
  let free := fun n => !(linesOf a n).any (fun x => pinnedByOther s x (reqInv s q))
  match q.op with
  | .loadFE _ =>
    if q.ty = .tile then
      if !s.full.contains (a / 16) || !free 8 then .wait
      else if poisoned s a 8 then .ready 8
      else
        let h := pktHdr (readBytes s.mem a 8)
        if !h.ok then .bad 0x22
        else if q.len < h.length then .bad 0x1A
        else if (granulesOf a h.length).all s.full.contains && free h.length then .ready h.length else .wait
    else if (granulesOf a q.len).all s.full.contains && free q.len then .ready q.len else .wait
  | .storeFE beyond _ =>
    if (beyond || (granulesOf a q.len).all (fun g => !s.full.contains g)) && free q.len then .ready q.len else .wait
  | _ => .wait

/-- Serve a full/empty request for `n` bytes: all its granules in one step (R292). -/
def serveFE (q : Req) (n : Nat) : M Unit := do
  let s ← get'
  let a := q.loc.getD 0
  let hall := ridHall q.rid
  match q.op with
  | .loadFE take => do
    whenM take (each (granulesOf a n) (fun g => eff (.granule g false)))
    if poisoned s a n then sendReply q (some (finalTok q.lane 0x40)) (some (finalTok q.lane 0x40))
    else sendReply q (some (loadToken q.ty q.lane (readBytes s.mem a n))) (some (completion q.lane))
  | .storeFE _ d => do
    performBytes hall noVf 0 a d
    fillGranules a d.length
    each (granulesOf a d.length) (fun g => raiseVersions [max a (16 * g)])
    sendReply q (some (completion q.lane)) (some (completion q.lane))
  | _ => pure ()

/-- Try a full/empty request; false while it waits. -/
def tryFE (q : Req) : M Bool := do
  let s ← get'
  match feView s q with
  | .wait => pure false
  | .ready n => do
    serveFE q n
    pure true
  | .bad c => do
    raiseLate q.rid q.cell q.node q.da q.db q.retry q.lane { code := c, operand := lane0Op q.lane }
    pure true

/-- Serve the full/empty requests that wait at granules, in order of arrival, until none can be (R116). -/
def settleFrom : Nat → M Unit
  | 0 => pure ()
  | fuel + 1 => do
    let s ← get'
    match s.reqs.find? (fun q => q.phase == .granule && feView s q != .wait) with
    | none => pure ()
    | some q => do
      eff (.reqs (s.reqs.filter (fun x => x.number != q.number)))
      let _ ← tryFE q
      settleFrom fuel

def settleGranules : M Unit := do
  let s ← get'
  settleFrom (s.reqs.length + 1)

/-- The granules a write covers become full, and those who wait on them are served (R115, R116). -/
def fillAndServe (a n : Nat) : M Unit := do
  fillGranules a n
  whenM (isScratch a) settleGranules

/-! ### Writes that perform at once -/

/-- A write that is not held: one event for each granule (R127, R140). The function and guest address give its class (R119). -/
def performWrite (hall vf va a : Nat) (bs : List Byte) : M Unit := do
  performBytes hall vf va a bs
  each (granulesOf a bs.length) (fun g => raiseVersions [max a (16 * g)])
  fillAndServe a bs.length

/-- A location that is not part of a commit: another hall's scratch, or the host window (R136). -/
def isRemote (hall a : Nat) : Bool := if isScratch a then (a - 2 ^ 52) / 2 ^ 24 != hall else rangeMt a == some 2

end Sys2Proof.Machine
end

