-- ==== Sys2Proof/Machine/Ops.lean ====
section
/-! DEFINITION. Commit and discard of tile invocations (R71, R136, R409), region faults and the release of
regions (R309, R411), taking a trap and returning from one (R401 to R405), and the wrappers that turn a
meaning into a step. -/
namespace Sys2Proof.Machine

/-! ### Commit and discard -/

/-- The folds of a hall with a slot that an invocation holds. -/
def heldFolds (h : Hall) (inv : Nat) : List Nat :=
  (h.folds.filter (fun p => p.2.slots.any (fun q => q.2.state == .held && q.2.inv == inv))).map (·.1)

/-- Close an invocation's Held slots: on commit a slot becomes Full, or Empty when its uses are spent
(R84); on discard it becomes Empty (R409). Waiting requests are then served (R85). -/
def closeSlots (hall inv : Nat) (commit : Bool) : M Unit := do
  let s ← get'
  let ks := heldFolds (hallAt s hall) inv
  each ks (fun k => modFold hall k (fun f =>
    { f with slots := f.slots.map (fun p =>
        if p.2.state = .held ∧ p.2.inv = inv then
          (p.1, if commit ∧ 0 < p.2.uses then { p.2 with state := .full, inv := 0 } else emptySlot)
        else p) }))
  each ks (fun k => settleFold hall k)

/-- Free an invocation's entry with its held stores and pins. A name request that waits belongs to no open invocation from then on
(R81). -/
def freeInv (hall inv : Nat) : M Unit := do
  modHall hall (fun h => { h with hold := h.hold.filter (·.inv != inv), pins := h.pins.filter (·.2 != inv), invs := kdel h.invs inv })
  let s ← get'
  eff (.names (s.names.map (fun q => if ridHall q.rid = hall ∧ q.inv = some inv then { q with inv := none } else q)))

/-- Send a held store that is no part of the commit: it performs later as a write of its own (R136). DEDUCED, log 63. -/
def postStore (rid serial : Nat) (x : Held) : M Unit := do
  let n ← fresh
  let s ← get'
  eff (.reqs (s.reqs ++ [{ rid := rid, cell := 0, node := 0, lane := { tag := 0, ops := [] }, wid := none, op := .posted x.data serial
                           ty := .untyped, da := .discard, db := .discard, va := 0, loc := some x.addr, len := x.data.length
                           phase := .issued, number := n }]))

/-- The held stores of an invocation that its commit writes: those to its own hall's scratch, HBM and the annex, the write half of
every AMO and CAS, and with it what else the invocation stored to that line (R134, R136). -/
def committed (hall : Nat) (mine : List Held) : List Held :=
  mine.filter (fun x => !isRemote hall x.addr || mine.any (fun y => y.atomic && (linesOf y.addr y.data.length).any (fun l => (linesOf x.addr x.data.length).contains l)))

/-- The commit of an invocation: its held stores are written, each location with the last value held, its
scratch granules become full (R115), the versions of the buffers it stored into rise by one (R140), and its
slots become Full (R71, R84, R136). Other stores to other halls' scratch and to the host window are sent. DEDUCED, log 62. -/
def commitInv (hall inv : Nat) : M Unit := do
  let s ← get'
  match kget (hallAt s hall).invs inv with
  | none => pure ()
  | some i => do
    let mine := (hallAt s hall).hold.filter (·.inv == inv)
    let here := committed hall mine
    each here (fun x => do
      performBytes hall x.vf x.va x.addr x.data
      fillGranules x.addr x.data.length)
    raiseVersions (here.flatMap (fun x => (granulesOf x.addr x.data.length).map (fun g => max x.addr (16 * g))))
    each (mine.filter (fun x => !here.contains x)) (postStore i.rid i.serial)
    freeInv hall inv
    closeSlots hall inv true
    settleGranules

/-- The discard of an invocation (R409), with its report of KIND 4 when `report`. -/
def discardInv (hall inv : Nat) (report : Bool) : M Unit := do
  let s ← get'
  match kget (hallAt s hall).invs inv with
  | none => pure ()
  | some i => do
    freeInv hall inv
    closeSlots hall inv false
    settleGranules
    match kget s.regions i.rid with
    | some r => whenM report (faultRecord r.vf 4 i.rid { code := i.discarded.getD 0, iv := i.first } i.poisoned)
    | none => pure ()

/-! ### Freeing a region (R309, R216, R22) -/

/-- The region's invocations, by index. -/
def invsOf (s : State) (rid : Nat) (hall : Nat) : List Nat := ((hallAt s hall).invs.filter (·.2.rid == rid)).map (·.1)

/-- End a region's claims on plinths and slots; every slot it held is zeroed (R22, R309, R360). -/
def dropClaims (rid : Nat) (h : Hall) : Hall :=
  { h with plinths := h.plinths.map (fun p =>
      let mine := (p.slotHolder.filter (·.2 == rid)).map (·.1)
      let p := { p with
        slotHolder := p.slotHolder.filter (·.2 != rid), zeroing := mine.foldl addNat p.zeroing
        slots := p.slots.filter (fun q => !mine.contains q.1), jobs := p.jobs.filter (·.rid != rid) }
      if p.holder = some rid then { p with holder := none, cfg := none, rows := [], drain := none } else p) }

/-- A channel that ends in a region's cells, or that stays within it. -/
def chanOf (r : Region) (rid : Nat) (c : Chan) : Bool :=
  (c.src == rid && !c.outside)
  || (c.hall == r.hall && c.ctx == r.ctx && (match c.place with | .stream _ => c.src == rid | p => r.cells.contains (placeCell p)))

/-- Cancel the repairs whose repair region is `rid` (R447): the segment becomes Stale. -/
def cancelRepair (die : Nat) (number : Nat) : M Unit := do
  let s ← get'
  match s.conservators[die]? with
  | none => pure ()
  | some c =>
    match c.repairs.find? (fun x => x.number == number && !x.ended) with
    | none => pure ()
    | some x => do
      eff (.conservators (s.conservators.set die
        { c with repairs := c.repairs.map (fun y => if y.number = number ∧ ¬y.ended then { y with cancelled := true, ended := true } else y) }))
      modWing x.wing (fun w => match kget w.galleries x.gallery with
        | some g =>
          let links := g.links.map (fun l => { l with segs := l.segs.map (fun e =>
            if e.id = x.seg ∧ (e.state = .repairing ∨ e.state = .spliced) then { e with state := .stale } else e) })
          { w with galleries := kset w.galleries x.gallery { g with links := links } }
        | none => w)

def cancelRepairsOf (vf rid : Nat) : M Unit := do
  let s ← get'
  each (s.conservators.zipIdx) (fun p => each (p.1.repairs.filter (fun x => x.vf == vf && x.region == rid && !x.ended)) (fun x => cancelRepair p.2 x.number))

/-- A region's run at a cast is abandoned: the cast is Cold and counts it, and the queue forgets the region (R449). -/
def dropCastRuns (rid : Nat) (c : Cast) : Cast :=
  let c := { c with queue := c.queue.filter (·.rid != rid) }
  if c.runner.any (·.rid == rid) then
    { c with runner := none, state := .cold, afterRef := false, counters := c.counters.set 7 (min (2 ^ 64 - 1) ((c.counters[7]?).getD 0 + 1)) }
  else c

/-- No gallery answers a region that is freed, no wave of a gallery has it waiting, and no cast runs for it. -/
def dropBlockReads (vf rid : Nat) (w : Wing) : Wing := { w with
  casts := w.casts.map (fun p => if p.2.vf = vf then (p.1, dropCastRuns rid p.2) else p)
  galleries := w.galleries.map (fun p => if p.2.vf = vf then
  (p.1, { p.2 with
    reads := p.2.reads.filter (·.rid != rid)
    wave := p.2.wave.map (fun x => if x.waiter = some rid then { x with waiter := none } else x) }) else p) }

/-- What SPLIT will return for a child of an identifier, behind what earlier children of that identifier left (R311). -/
def addResult (ident : Nat) (v : BitVec 64) (x : Region) : Region :=
  { x with results := kset x.results ident (kgetD x.results ident [] ++ [v]) }

/-- Free a region: its claims end and its state is zeroed (R309). `result` is what a SPLIT of it returns.
The root region's context stays under scrub until CONTEXT_SCRUB_COMPLETE (R216). -/
def freeRegion (rid : Nat) (result : BitVec 64) : M Unit := do
  let s ← get'
  match kget s.regions rid with
  | none => pure ()
  | some r => do
    cancelRepairsOf r.vf rid
    -- a move of a fold that the region owns ends, as no command of its owner is left to end it
    each ((hallAt s r.hall).folds.filter (fun p => p.2.owner == rid && p.2.gate.isSome)) (fun p => endMove r.hall p.1 r.header)
    modPkg (fun p => { p with engines := (p.engines.filter (fun e => !(e.vf == r.vf && e.rid == some rid && e.done))).map (fun e =>
      if e.vf = r.vf ∧ e.rid = some rid then { e with rid := none } else e) })
    modHall r.hall (dropClaims rid)
    modWing r.wing (dropBlockReads r.vf rid)
    modPkg (fun p => { p with
      hcalls := p.hcalls.map (fun q => if q.2.vf = r.vf ∧ q.2.rid = some rid then (q.1, { q.2 with rid := none }) else q)
      hcallReplies := p.hcallReplies.filter (·.1 != callerKey r.vf rid) })
    let s ← get'
    eff (.reqs (s.reqs.filter (fun q => q.rid != rid || (match q.op with | .posted _ _ => true | _ => false))))
    eff (.names (s.names.filter (·.rid != rid)))
    each (s.chans.filter (fun p => chanOf r rid p.2)) (fun p => eff (.chan p.1 none))
    modHall r.hall (fun h => { h with overflow := h.overflow.filter (fun o => !(o.ctx == r.ctx && r.cells.contains o.cell)) })
    (match r.parent with
     | some p => modRegion p (addResult (identOf r) result)
     | none => pure ())
    if r.root then do
      eff (.region rid (some { r with
        state := .free, releasing := true, seq := Sequencer.zero, sys := {}, active := {}, idle := {}, frames := [], queues := [], ready := []
        fires := [], traps := [], trap := none, streams := [], acc := [], threads := [], children := [], results := [] }))
      modVf r.vf (fun v => { v with st := 3 })
    else eff (.region rid none)

/-! ### Region faults (R411) -/

/-- The EMIT and EMITP records from a place of a sequence to its end (R284). -/
def emitsFrom (r : Region) (cell : Nat) : Nat → Nat → List SeqRec
  | 0, _ => []
  | fuel + 1, idx =>
    match (kget r.active.seqs (cell * 512 + idx)).bind seqFields with
    | none => []
    | some f => (match f.qd with | .da | .db => [f] | _ => []) ++ (if f.last then [] else emitsFrom r cell fuel (idx + 1))

/-- Where EMIT and EMITP send (R285). -/
def emitDest (q : SeqRun) (f : SeqRec) : Dest :=
  match f.qd with
  | .da => q.da
  | .db => q.db
  | _ => .discard

/-- The destinations at which held lane `k` of a trap has left a pending poison, in order: those it would have fed, or those of the
sequence's emissions from the faulting record on (R284, R401). -/
def pendingDests (r : Region) (t : TrapRec) (k : Nat) : List Dest :=
  match t.seqRun with
  | some q => (emitsFrom r q.cell 17 q.index).map (emitDest q)
  | none => (t.fed[k]?).getD []

/-- Make the pending poisons of held lanes final (R284, R404, R411). -/
def finalPoison (rid : Nat) (t : TrapRec) : M Unit := do
  let s ← get'
  match kget s.regions rid with
  | none => pure ()
  | some r => each t.held.zipIdx (fun p => each (pendingDests r t p.2) (fun d =>
      replacePending rid t.cell d (({ value := poisonValue false t.src t.code, tag := p.1.tag, kind := .poison } : Token).after s p.1.past)))

/-- The fault of one region: held lanes emit final poison, the record is written, the region is freed and
its open invocations are discarded without reports (R411). `during` is the code of the trap being handled. -/
def faultOne (rid : Nat) (t : TrapRec) (during : Nat) (kind : Nat) : M Unit := do
  let s ← get'
  match kget s.regions rid with
  | none => pure ()
  | some r => do
    each ((match r.trap with | some h => [h] | none => []) ++ r.traps) (finalPoison rid)
    let s ← get'
    let invs := invsOf s rid r.hall
    faultRecord r.vf kind rid t (min invs.length 0xFFFF * 2 ^ 16 + during)
    let s ← get'
    let seq := (vfAt s r.vf).faultSeq
    each invs (fun i => discardInv r.hall i false)
    freeRegion rid (BitVec.ofNat 64 (2 ^ 63 + (seq - 1) % 256 * 2 ^ 16 + t.code))

/-- A region and every region it fused and has not collected, the deepest first (R411). -/
def faultOrder (s : State) : Nat → Nat → List Nat
  | 0, rid => [rid]
  | fuel + 1, rid =>
    match kget s.regions rid with
    | some r => (r.children.filter (fun c => match kget s.regions c with | some x => x.parent == some rid && x.state != .free | none => false)).flatMap (faultOrder s fuel) ++ [rid]
    | none => []

/-- A region fault (R411). -/
def regionFault (rid : Nat) (t : TrapRec) (during : Nat) (kind : Nat := 1) : M Unit := do
  let s ← get'
  each (faultOrder s (s.regions.length) rid) (fun x =>
    if x = rid then faultOne x t during kind else faultOne x { code := 0x30 } 0 1)

/-! ### Taking a trap (R401, R402, R405) -/

/-- Every region, in ascending number, whose next trap is to be delivered. -/
def trapWaiting (s : State) : Option (Nat × Region) :=
  s.regions.find? (fun p => p.2.trap.isNone && !p.2.traps.isEmpty && p.2.state != .free && p.2.saved.isNone)

/-- Take the next trap of a region: the handler act runs from its first command, with TRAPCAUSE, TRAPIV and
TRAPPC set from the trap; without a handler the region faults with the trap's cause (R397, R401, R403). -/
def takeTrap (rid : Nat) (r : Region) : M Unit :=
  match r.traps with
  | [] => pure ()
  | t :: rest =>
    if r.sys.trapVec.toNat / 256 % 2 = 1 then
      eff (.region rid (some { r with
        traps := rest, trap := some t, seq := { r.seq.settled with handler := some (r.sys.trapVec.toNat % 256, 0), swap := r.seq.swap } }))
    else regionFault rid t 0

/-- Deliver traps until none can be (R405). -/
def deliver : Nat → M Unit
  | 0 => pure ()
  | fuel + 1 => do
    let s ← get'
    match trapWaiting s with
    | none => pure ()
    | some (rid, r) => do
      takeTrap rid r
      deliver fuel

/-- Deliver every trap that a step raised. -/
def deliverTraps : M Unit := do
  let s ← get'
  deliver (2 * (s.regions.length + 1))

/-- The command waits: it stays where it is and is tried again (R297, R419). -/
def waitHere : M Unit := do
  let s ← get'
  let mark := fun (q : Sequencer) => if q.waiting then q else { q with waiting := true, waitStart := s.timeNs }
  if s.who = serviceRid then eff (.service (mark s.service)) else modRegion s.who (fun r => { r with seq := mark r.seq })

/-- The code of no trap: the command cannot go on yet, so it has no effect and waits (R297). -/
def stallCode : Nat := 2 ^ 16

/-- The command waits before it has had any effect. -/
def stall {α : Type} : M α := trapCode stallCode

/-- The issuer's command waits for a walk of a hall's miss (R105, R297, R306): one it waits for already, or one that it joins now. -/
def waitForWalk (hall vf va : Nat) : M Unit := do
  waitHere
  let s ← get'
  let waits := match issuerWalk s with | some (n, v) => samePage s vf v va && s.walks.any (·.number == n) | none => false
  if waits then pure ()
  else do
    let n ← joinWalk hall vf va
    countMiss s.who
    if s.who = serviceRid then eff (.service { s.service with walk := some (n, va) })
    else modRegion s.who (fun r => { r with seq := { r.seq with walk := some (n, va) } })

/-- A sequencer command faults: it has no effect, and its region enters the handler; inside a handler the
region faults (R402, R403). The service sequencer has no handler: it goes on with its next command
(DESIGN CHOICE, log 6). -/
def commandTrap (t : TrapRec) : M Unit := do
  let s ← get'
  if t.code = stallCode then waitHere
  else if t.code = walkCode then waitForWalk t.operand t.word9 t.word8
  else if s.who = serviceRid then eff (.service { s.service.settled with service := s.service.service + 1 })
  else match kget s.regions s.who with
  | none => pure ()
  | some r =>
    let t := { t with seq := true, act := r.seq.act, cmd := r.seq.index }
    match r.seq.handler with
    | some _ => do
      regionFault s.who t (match r.trap with | some h => h.code | none => 0)
      deliverTraps
    | none => do
      modRegion s.who (fun r => { r with traps := r.traps ++ [t] })
      deliverTraps

/-! ### Returning from a trap (R404) -/

/-- The handler ends: the region issues again and the sequencer goes back to its command (R404). -/
def leaveHandler (rid : Nat) : M Unit := do
  modRegion rid (fun r => { r with trap := none, seq := { r.seq with handler := none } })
  stir rid

/-- The command after the one at a command index: within the prologue or the epilogue (R399). -/
def nextIndex (i : Nat) : Nat := i + 1

/-- A trapped command is skipped and its destination register becomes 0 (R404). -/
def skipCommand (rid d : Nat) : M Unit := modRegion rid (fun r =>
  { r with seq := { r.seq.settled.put d 0 with index := nextIndex r.seq.index } })

/-! ### Wrappers -/

/-- A step of the device's own agents: its traps are raised in regions and delivered at its end. -/
def runEvent (m : M Unit) (s : State) : Host.Outcome State Fault Refusal :=
  runE (do m; deliverTraps) s

/-- A node's step. -/
def runNode (m : M Unit) (s : State) : Host.Outcome State Fault Refusal :=
  runE (do m; eff (.issue none); deliverTraps) s

/-! ### Sequencers -/

/-- The sequencer whose command runs. -/
def mySeq : M Sequencer := do
  let s ← get'
  pure (if s.who = serviceRid then s.service else match kget s.regions s.who with | some r => r.seq | none => Sequencer.zero)

/-- Change the sequencer whose command runs. -/
def modSeq (f : Sequencer → Sequencer) : M Unit := do
  let s ← get'
  if s.who = serviceRid then eff (.service (f s.service)) else modRegion s.who (fun r => { r with seq := f r.seq })

/-- A register of the issuer. -/
def reg (i : BitVec 5) : M Nat := do
  let q ← mySeq
  pure (q.get i.toNat).toNat

/-- Write a register of the issuer, modulo 2^64. -/
def setReg (i : BitVec 5) (v : Nat) : M Unit := modSeq (·.put i.toNat (BitVec.ofNat 64 v))

/-- A 32-bit immediate sign-extended to 64 bits, as a number (R298). -/
def sext (imm : BitVec 32) : Nat := (imm.signExtend 64).toNat

/-- The operand B of R298. -/
def operandB (f : CmdRec) : M Nat := do
  let t ← reg f.t
  pure ((t + sext f.imm) % 2 ^ 64)

/-- The command is done: the sequencer goes on to its next record. -/
def advance : M Unit := do
  let s ← get'
  if s.who = serviceRid then modSeq (fun q => { q.settled with service := q.service + 1 })
  else modSeq (fun q => match q.handler with
    | some (a, i) => { q.settled with handler := some (a, i + 1) }
    | none => { q.settled with index := nextIndex q.index })

/-- What a command's body answers: it is done, it waits, or it has moved the sequencer itself. -/
inductive Next where
  | done | wait | moved
  deriving DecidableEq, Repr

/-- Where a command may run (R199, R297, R403). -/
inductive Where where
  | anywhere | regionOnly | privileged
  deriving DecidableEq, Repr

/-- A command's step: privilege, the handler's restriction, then the body. -/
def command (place : Where) (inHandler : Bool) (body : M Next) : M Unit := do
  let s ← get'
  let svc := s.who == serviceRid
  let handling : Bool := match kget s.regions s.who with | some r => r.seq.handler.isSome | none => false
  if place = .privileged ∧ !svc then trapCode 0x11
  else if place = .regionOnly ∧ svc then trapCode 0x10
  else if handling ∧ !inHandler then trapCode 0x10
  else do
    let n ← body
    match n with
    | .done => advance
    | .wait => waitHere
    | .moved => pure ()
    deliverTraps

/-- A command's step on a state. -/
def runCommand (place : Where) (inHandler : Bool) (body : M Next) (s : State) : Host.Outcome State Fault Refusal :=
  runM (command place inHandler body) commandTrap s

/-- The region of the issuer; ILLREC where there is none. -/
def myRegion : M (Nat × Region) := do
  let s ← get'
  match kget s.regions s.who with
  | some r => pure (s.who, r)
  | none => trapCode 0x10

end Sys2Proof.Machine
end

