-- ==== Sys2Proof/Machine/Operands.lean ====
section
/-! DEFINITION. The operands of a firing (R47, R237, R256), the frame of a node's meaning: its lanes, poison
(R407), predicate gating (R59), conditions (R396) and results (R257); and the sources and destinations of a
sequence record (R232, R258). -/
namespace Sys2Proof.Machine

/-- What one lane of a firing does. -/
inductive LaneOut where
  /-- results for da and db, each with the kind and tag it leaves under -/
  | emit (da db : Option Token)
  /-- a trap of the lane; `fed` gives the destinations that it would have fed, where those are not both (R401) -/
  | trap (code operand : Nat) (src : Nat) (word8 : Nat := 0) (word9 : Nat := 0) (fed : Option (List Dest) := none)
  /-- final poison on both -/
  | poison (code : Nat)
  deriving DecidableEq, Repr

/-- The port a literal stands in for (R228). -/
def litAt (f : NodeRec) (port : Nat) : Bool := litPort f.ls == some port

/-- Operand `port` of a lane after literal substitution; a port with no input reads as 0 (R284). -/
def operand (f : NodeRec) (l : Lane) (port : Nat) : Token :=
  if litAt f port then { value := f.lit, tag := l.tag } else (kget l.ops port).getD { value := 0, tag := l.tag }

/-- Operand value. -/
def opv (f : NodeRec) (l : Lane) (port : Nat) : BitVec 32 := (operand f l port).value

/-- The predicate on port 3: bit 0 (R257). -/
def predOf (l : Lane) : Bool := (kget l.ops 3).any (fun t => t.value.toNat % 2 == 1)

/-- The first final poison among a lane's operands, in port order (R407). -/
def firstPoison (l : Lane) : Option Token := (l.ops.find? (fun p => p.2.isFinal)).map (·.2)

/-- The lane's gate lets it fire (R59). -/
def gateOpen (f : NodeRec) (l : Lane) : Bool :=
  match f.pg with
  | .ifTrue => predOf l
  | .ifFalse => !predOf l
  | _ => true

/-- A data token of the lane. -/
def dataTok (l : Lane) (v : BitVec 32) : Token := { value := v, tag := l.tag }

/-- One result sent to both destinations (R257). -/
def both (l : Lane) (v : BitVec 32) : LaneOut := .emit (some (dataTok l v)) (some (dataTok l v))

def pred (b : Bool) : BitVec 32 := if b then 1 else 0

/-- A lane's results under the region's dispositions (R396). -/
def judge (trapEn : BitVec 64) (op0 : Nat) (r : LaneOut) (c : Conds) : LaneOut :=
  match fate trapEn c with
  | .stands => r
  | .poison k => .poison k
  | .trap k => .trap k op0 0

/-- Final poison with a cause (R406). -/
def poisonTok (l : Lane) (code : Nat) (src : Nat := 0) : Token :=
  { value := poisonValue false src code, tag := l.tag, kind := .poison }

/-- The issue being carried out. -/
def myIssue : M (Option (Issue × Region)) := do
  let s ← get'
  match s.issue with
  | none => pure none
  | some i => match kget s.regions i.rid with
    | none => pure none
    | some r => pure (some (i, r))

/-- Send a token for a lane: in place of its pending poison when the issue is retried (R404, R408). -/
def sendLane (i : Issue) (d : Dest) (t : Token) : M Unit :=
  if i.retry then replacePending i.rid i.cell d t else emitTo i.rid i.cell d t

def sendBoth (i : Issue) (f : NodeRec) (t : Token) : M Unit := do
  sendLane i f.da t
  sendLane i f.db t

/-- Carry out what a lane does; a trap is collected with its lane number. -/
def laneOut (i : Issue) (f : NodeRec) (n : Nat) (l : Lane) (o : LaneOut) : M (Option (Nat × Lane × TrapRec)) := do
  let s ← get'
  match o with
  | .emit a b => do
    (match a with | some t => sendLane i f.da (t.after s l.past) | none => pure ())
    (match b with | some t => sendLane i f.db (t.after s l.past) | none => pure ())
    pure none
  | .poison k => do
    sendBoth i f ((poisonTok l k).after s l.past)
    pure none
  | .trap c o src w8 w9 fed =>
    pure (some (n, l, { code := c, operand := o, src := src, word8 := w8, word9 := w9, fed := [fed.getD [f.da, f.db]] }))

/-- How a node treats final poison (R407). -/
inductive PoisonRule where
  /-- final poison on da and db -/
  | both
  /-- consumed -/
  | swallow
  /-- final poison on da and db, and the invocation is discarded -/
  | access
  /-- the node's own rule: its meaning looks for the poison -/
  | own
  deriving DecidableEq, Repr

/-- Raise the traps of an issue as one trap: its lanes, and the code and operand of the lowest (R401). DEDUCED, log 32. -/
def raiseLanes (i : Issue) (ts : List (Nat × Lane × TrapRec)) : M Unit :=
  match ts with
  | [] => pure ()
  | (_, _, t) :: _ => raiseNode i.rid i.cell i.node i.retry t (ts.map (fun t => (t.1, t.2.1, t.2.2.fed.flatten)))

/-- The lanes of an issue in order: gating, poison, then the node's own rule. DEDUCED, log 41. -/
def lanesM (f : NodeRec) (rule : PoisonRule) (body : Issue → Region → Lane → M LaneOut) : M Unit := do
  match ← myIssue with
  | none => pure ()
  | some (i, _) => do
    let outs ← collect (i.lanes.zipIdx) (fun p => do
      let l := p.1
      match (if rule = .own then none else firstPoison l) with
      | some t => do
        let s ← get'
        let t := t.after s l.past
        (match rule with
         | .swallow => pure ()
         | _ => sendBoth i f { t with tag := l.tag, packet := [] })
        whenM (rule == .access) (discardTag i.rid l.tag (bits t.value.toNat 0 16))
        pure none
      | none =>
        if gateOpen f l || (rule == .own && (firstPoison l).isSome) then do
          let s ← get'
          match kget s.regions i.rid with
          | none => pure none
          | some r => do
            let o ← body i r l
            laneOut i f p.2 l o
        else pure none)
    raiseLanes i (outs.filterMap id)

/-- md of a node with what a handler's retry added (R404). -/
def mdOf (i : Issue) (f : NodeRec) : Nat := f.md.toNat ||| i.mdSet

/-- A node whose lanes compute values and raise conditions, nothing else. -/
def valueNode (f : NodeRec) (g : Nat → Lane → LaneOut × Conds) : M Unit :=
  lanesM f .both (fun i r l => do
    let (o, c) := g (mdOf i f) l
    pure (judge r.sys.trapEn (opv f l 0).toNat o c))

/-- A node of one result from its value operands. -/
def pureNode (f : NodeRec) (g : Nat → (Nat → BitVec 32) → BitVec 32 × Conds) : M Unit :=
  valueNode f (fun md l => let (v, c) := g md (opv f l); (both l v, c))

/-! ### Sequence records (R61, R231, R232, R258) -/

/-- The running sequence and the record latched for it. -/
def mySeqRun : M (Option (Nat × Nat × Region × SeqRun × SeqRec)) := do
  let s ← get'
  match s.seqNow with
  | none => pure none
  | some (k, f) =>
    match kget s.regions (k / 4096) with
    | none => pure none
    | some r => match r.fires[k % 4096]? with
      | none => pure none
      | some q => pure (some (k / 4096, k % 4096, r, q, f))

/-- An undefined temporary: a free value, the same for one configuration and place (R232, DESIGN CHOICE, log 11). -/
def temp (r : Region) (q : SeqRun) (l : SeqLane) (i : Nat) : BitVec 32 :=
  (kget l.temps i).getD (Config.freshTemp ((r.active.act).getD 0) (q.cell * 512 + q.start) i)

/-- The value of a source for a lane; queue heads have been popped into `popped` (R62, R232). -/
def srcVal (r : Region) (q : SeqRun) (l : SeqLane) (f : SeqRec) (c : QSrc) : BitVec 32 :=
  match c with
  | .w i => temp r q l i.val
  | .m i => ((kget l.lane.ops i.val).map (·.value)).getD 0
  | .tg => BitVec.ofNat 32 l.lane.tag
  | .im => f.im
  | .q i => ((l.popped[i.val]?).map (·.value)).getD 0
  | .zr => 0

/-- The queues a record names (R62). -/
def queuesOf (f : SeqRec) : List Nat :=
  ([0, 1] : List Nat).filter (fun k => [f.qa, f.qb, f.qc].any (fun c => match c with | .q i => i.val == k | _ => false))

/-- What a sequence record gives one lane: a value for its destination (and a second for SINCOS), a token to
emit, with conditions. -/
structure SeqOut where
  value : BitVec 32 := 0
  second : Option (BitVec 32) := none
  emit : Option (Bool × BitVec 32) := none
  conds : Conds := {}
  fault : Option Nat := none
  deriving Repr

/-- A poisoned queue head makes the lane's temporaries poison; the model ends the lane with final poison on
the destinations it has left (R407). -/
def SeqLane.live (l : SeqLane) : Bool := !l.stopped

/-- Pop the named queues for every live lane, in lane order; none while a queue holds too few (R62). DEDUCED, log 42. -/
def popQueues (ks : List Nat) (lanes : List SeqLane) (qs : InQueues) : Option (List SeqLane × InQueues) :=
  let n := (lanes.filter (fun l => l.live && l.popped.isEmpty)).length
  if (ks.contains 0 ∧ qs.q0.length < n) ∨ (ks.contains 1 ∧ qs.q1.length < n) then none
  else some (lanes.foldl (fun (acc : List SeqLane × InQueues) l =>
    if l.live && l.popped.isEmpty then
      let z : Token := { value := 0, tag := 0 }
      let a := if ks.contains 0 then (acc.2.q0.head?).getD z else z
      let b := if ks.contains 1 then (acc.2.q1.head?).getD z else z
      (acc.1 ++ [{ l with popped := [a, b], past := l.past ++ a.past ++ b.past }],
       { q0 := if ks.contains 0 then acc.2.q0.tail else acc.2.q0, q1 := if ks.contains 1 then acc.2.q1.tail else acc.2.q1 })
    else (acc.1 ++ [l], acc.2)) ([], qs))

/-- The temporaries after a record's result (R258, R275). -/
def writeTemp (f : SeqRec) (o : SeqOut) (ts : KMap (BitVec 32)) : KMap (BitVec 32) :=
  match f.qd with
  | .w i => match o.second with
    | none => kset ts i.val o.value
    | some v => kset (kset ts i.val o.value) (i.val + 1) v
  | _ => ts

/-- Every lane has a place at the destination for its token (R284). -/
def roomFor (s : State) (rid : Nat) (q : SeqRun) (d : Dest) (lanes : List SeqLane) : Bool :=
  roomAll s rid q.cell ((lanes.filter (·.live)).map (fun l => (d, l.lane.tag)))

/-- Put a running sequence back, or take it away. -/
def putRun (rid n : Nat) (q : Option SeqRun) : M Unit := modRegion rid (fun r =>
  { r with fires := match q with | some x => r.fires.set n x | none => r.fires.eraseIdx n })

/-- A lane with what a record gives it, the final poison it popped, and the code of the poison that stands in a temporary it reads. -/
structure RowLane where
  lane : SeqLane
  out : SeqOut := {}
  bad : Option Token := none
  taint : Option Nat := none
  deriving Repr

/-- The poison that a record's sources hold: the first of theirs (R396, R407). -/
def SeqLane.taint (f : SeqRec) (l : SeqLane) : Option Nat :=
  ([f.qa, f.qb, f.qc] : List QSrc).findSome? (fun c => match c with | .w i => kget l.bad i.val | _ => none)

/-- The temporaries that a record's result goes to. -/
def tempsOf (f : SeqRec) (o : SeqOut) : List Nat :=
  match f.qd with
  | .w i => if o.second.isSome then [i.val, i.val + 1] else [i.val]
  | _ => []

/-- What a lane of a record ends in: none where it has stopped or met final poison (R61, R407). A lane that reads a poisoned temporary
has final poison in place of every result, and raises no condition (R396, R407). -/
def RowLane.ends (en : BitVec 64) (p : RowLane) : Option Fate :=
  if !p.lane.live || p.bad.isSome then none
  else match p.taint with
  | some k => some (.poison k)
  | none => match p.out.fault with | some c => some (.trap c) | none => some (fate en p.out.conds)

/-- The code of the trap that a lane of a record raises. -/
def RowLane.code (en : BitVec 64) (p : RowLane) : Option Nat :=
  match p.ends en with | some (.trap c) => some c | _ => none

/-- A lane after a record (R61, R396, R409). -/
def RowLane.next (en : BitVec 64) (f : SeqRec) (p : RowLane) : SeqLane :=
  let l : SeqLane := { p.lane with popped := [] }
  match p.ends en with
  | none => if p.bad.isSome then { l with stopped := true } else l
  | some (.trap _) => { l with stopped := true }
  | some (.poison k) => { l with bad := (tempsOf f p.out).foldl (fun m i => kset m i k) l.bad }
  | some .stands => { l with temps := writeTemp f p.out l.temps, bad := (tempsOf f p.out).foldl kdel l.bad }

/-- One record of a sequence, all lanes in step: it waits for its queues and for places, then runs; lanes
that trap stop at it and their later emissions are pending poisons (R61, R62, R284). What it sends descends from all that its lane
consumed (R130). -/
def seqRow (g : Region → SeqRun → SeqLane → SeqRec → (QSrc → BitVec 32) → SeqOut) : M Unit := do
  match ← mySeqRun with
  | none => pure ()
  | some (rid, n, r, q, f) => do
    let s ← get'
    let d := emitDest q f
    let send := fun (l : SeqLane) (d : Dest) (t : Token) =>
      let t := ({ t with tag := l.lane.tag } : Token).after s (l.past ++ l.lane.past)
      if q.retry then replacePending rid q.cell d t else emitTo rid q.cell d t
    if !q.retry && !roomFor s rid q d q.lanes then pure ()
    else match popQueues (queuesOf f) q.lanes (kgetD r.queues q.cell {}) with
    | none => pure ()
    | some (lanes, qs) => do
      modRegion rid (fun r => { r with queues := kset r.queues q.cell qs })
      let f : SeqRec := { f with md := BitVec.ofNat 4 (f.md.toNat ||| q.mdSet) }
      let outs : List RowLane := lanes.map (fun l =>
        if l.live then
          match l.popped.find? (·.isFinal) with
          | some t => { lane := l, bad := some t }
          | none => { lane := l, out := g r q l f (srcVal r q l f), taint := l.taint f }
        else { lane := l })
      -- emissions, in lane order
      each outs (fun p => match p.ends r.sys.trapEn with
        | some (.poison k) => whenM p.out.emit.isSome (send p.lane d (poisonTok p.lane.lane k))
        | some .stands => match p.out.emit with
          | some v => send p.lane d { value := v.2, tag := p.lane.lane.tag }
          | none => pure ()
        | _ => pure ())
      let later := if f.last then [] else emitsFrom r q.cell 16 (q.index + 1)
      let left := (match f.qd with | .da | .db => [f] | _ => []) ++ later
      -- a lane fed by final poison sends final poison where it would have sent tokens
      each outs (fun p => match p.bad with
        | some t => each left (fun e => send p.lane (emitDest q e) { t with packet := [] })
        | none => pure ())
      let trapped := outs.zipIdx.filterMap (fun p => (p.1.code r.sys.trapEn).map (fun c => (p.2, p.1.lane, c)))
      (match trapped with
       | [] => pure ()
       | (_, l0, c) :: _ => do
         raiseNode rid q.cell q.node false
           { code := c, operand := lane0Op l0.lane, seqRun := some { q with lanes := trapped.map (fun t => t.2.1) } } (trapped.map (fun t => (t.1, t.2.1.lane, [])))
         each (if q.retry then [] else trapped) (fun t => each left (fun e =>
           emitTo rid q.cell (emitDest q e) { value := poisonValue true 0 t.2.2, tag := t.2.1.lane.tag, kind := .poison })))
      let lanes' := outs.map (RowLane.next r.sys.trapEn f)
      putRun rid n (if f.last || !(lanes'.any (·.live)) then none else some { q with index := q.index + 1, lanes := lanes' })
      stir rid

/-- A record of one value from its sources. -/
def seqValue (g : SeqRec → (QSrc → BitVec 32) → BitVec 32 × Conds) : M Unit :=
  seqRow (fun _ _ _ f v => let (x, c) := g f v; { value := x, conds := c })

/-- A sequence record's step on a state. -/
def runSeq (m : M Unit) (s : State) : Host.Outcome State Fault Refusal :=
  runE (do m; eff (.seqNow none); deliverTraps) s

/-- A record whose value comes from up to three sources, numbered as a node's ports. -/
def pureSeq (g : SeqRec → Nat → (Nat → BitVec 32) → BitVec 32 × Conds) : M Unit :=
  seqValue (fun f v => g f f.md.toNat (fun p => v (if p = 0 then f.qa else if p = 1 then f.qb else f.qc)))

end Sys2Proof.Machine
end

