-- ==== Sys2Proof/Machine/Scalar.lean ====
section
/-! DEFINITION. The scalar operations (R262 to R275), each a function of the type, md and the operands by
port; node records, sequence records and VMAP share them. -/
namespace Sys2Proof.Machine

/-- Operand values by port. -/
abbrev Ops := Nat → BitVec 32

/-! ### Integers (R263 to R268) -/

def intBin (t : Ty) (md : Nat) (v : Ops) (g : Int → Int → Int) : BitVec 32 × Conds :=
  intResult t (md % 2 == 1) (g (intOf t (v 0)) (intOf t (v 1)))

def addOp (t : Ty) (md : Nat) (v : Ops) := intBin t md v (· + ·)
def subOp (t : Ty) (md : Nat) (v : Ops) := intBin t md v (· - ·)
def mulOp (t : Ty) (md : Nat) (v : Ops) := intBin t md v (· * ·)
def madOp (t : Ty) (md : Nat) (v : Ops) : BitVec 32 × Conds :=
  intResult t (md % 2 == 1) (intOf t (v 0) * intOf t (v 1) + intOf t (v 2))

/-- MULH: the high half of the exact product (R264). -/
def mulhOp (t : Ty) (_ : Nat) (v : Ops) : BitVec 32 × Conds :=
  (ofInt t ((intOf t (v 0) * intOf t (v 1)) / ((2 ^ tyWidth t : Nat) : Int)), {})

/-- DIV (R265). -/
def divOp (t : Ty) (md : Nat) (v : Ops) : BitVec 32 × Conds :=
  let b := intOf t (v 1)
  if b = 0 then (ofInt t ((2 ^ tyWidth t : Nat) - 1), { dz := true })
  else intResult t (md % 2 == 1) (Int.tdiv (intOf t (v 0)) b)

/-- REM (R265). -/
def remOp (t : Ty) (_ : Nat) (v : Ops) : BitVec 32 × Conds :=
  let a := intOf t (v 0)
  let b := intOf t (v 1)
  if b = 0 then (ofInt t a, { dz := true }) else (ofInt t (Int.tmod a b), {})

def minOp (t : Ty) (_ : Nat) (v : Ops) : BitVec 32 × Conds := (ofInt t (min (intOf t (v 0)) (intOf t (v 1))), {})
def maxOp (t : Ty) (_ : Nat) (v : Ops) : BitVec 32 × Conds := (ofInt t (max (intOf t (v 0)) (intOf t (v 1))), {})
def absOp (t : Ty) (md : Nat) (v : Ops) : BitVec 32 × Conds :=
  let a := intOf t (v 0)
  intResult t (md % 2 == 1) (if a < 0 then -a else a)
def negOp (t : Ty) (md : Nat) (v : Ops) : BitVec 32 × Conds := intResult t (md % 2 == 1) (- intOf t (v 0))

/-- The low bits of an operand. -/
def lowBits (t : Ty) (v : BitVec 32) : Nat := v.toNat % 2 ^ tyWidth t

/-- A bit pattern of the type's width written as a result. -/
def ofBits (t : Ty) (n : Nat) : BitVec 32 := ofInt t (n : Nat)

def andOp (t : Ty) (_ : Nat) (v : Ops) : BitVec 32 × Conds := (ofBits t (lowBits t (v 0) &&& lowBits t (v 1)), {})
def orOp (t : Ty) (_ : Nat) (v : Ops) : BitVec 32 × Conds := (ofBits t (lowBits t (v 0) ||| lowBits t (v 1)), {})
def xorOp (t : Ty) (_ : Nat) (v : Ops) : BitVec 32 × Conds := (ofBits t (lowBits t (v 0) ^^^ lowBits t (v 1)), {})
def notOp (t : Ty) (_ : Nat) (v : Ops) : BitVec 32 × Conds := (ofBits t (2 ^ tyWidth t - 1 - lowBits t (v 0)), {})

/-- SHL (R267). A shift of 64 or more leaves the type as a shift of 64 does. -/
def shlOp (t : Ty) (md : Nat) (v : Ops) : BitVec 32 × Conds :=
  intResult t (md % 2 == 1) (intOf t (v 0) * ((2 ^ min (v 1).toNat 64 : Nat) : Int))
def shrOp (t : Ty) (_ : Nat) (v : Ops) : BitVec 32 × Conds := (ofBits t (lowBits t (v 0) / 2 ^ min (v 1).toNat 64), {})
def sarOp (t : Ty) (_ : Nat) (v : Ops) : BitVec 32 × Conds :=
  (ofInt t (signed (tyWidth t) (lowBits t (v 0)) / ((2 ^ min (v 1).toNat 64 : Nat) : Int)), {})

def rotlOp (t : Ty) (_ : Nat) (v : Ops) : BitVec 32 × Conds :=
  let w := tyWidth t
  let k := (v 1).toNat % w
  let a := lowBits t (v 0)
  (ofBits t (a * 2 ^ k % 2 ^ w + a / 2 ^ (w - k)), {})

def clzOp (t : Ty) (_ : Nat) (v : Ops) : BitVec 32 × Conds :=
  let a := lowBits t (v 0)
  (ofInt t (if a = 0 then tyWidth t else tyWidth t - 1 - Nat.log2 a : Nat), {})

def popcOp (t : Ty) (_ : Nat) (v : Ops) : BitVec 32 × Conds :=
  (ofInt t (((List.range (tyWidth t)).filter (fun i => bits (lowBits t (v 0)) i 1 == 1)).length : Nat), {})

/-- A control word of BFX and BFI that R268 admits. -/
def bfOk (t : Ty) (c : BitVec 32) : Bool := c.toNat / 65536 == 0 && bits c.toNat 0 8 + bits c.toNat 8 8 ≤ tyWidth t

def bfxOp (t : Ty) (_ : Nat) (v : Ops) : BitVec 32 × Conds :=
  let c := (v 1).toNat
  let len := bits c 8 8
  let f := lowBits t (v 0) / 2 ^ bits c 0 8 % 2 ^ len
  (if len = 0 then 0 else ofInt t (if isSigned t then signed len f else (f : Nat)), {})

def bfiOp (t : Ty) (_ : Nat) (v : Ops) : BitVec 32 × Conds :=
  let c := (v 2).toNat
  let len := bits c 8 8
  let pos := bits c 0 8
  let x := lowBits t (v 0)
  (ofBits t (x % 2 ^ pos + (lowBits t (v 1) % 2 ^ len) * 2 ^ pos + x / 2 ^ (pos + len) * 2 ^ (pos + len)), {})

/-- CMP (R236). -/
def cmpOp (t : Ty) (md : Nat) (v : Ops) : BitVec 32 × Conds :=
  (pred (condHolds md (some (intOf t (v 0) - intOf t (v 1)))), {})

/-! ### Floating point (R271 to R274) -/

/-- A floating result: its value, whether the operation was invalid. -/
def flResult (t : Ty) (md : Nat) (r : Fl × Bool) : BitVec 32 × Conds :=
  let (b, c) := writeFl t md r.1
  (BitVec.ofNat 32 b, { c with fiv := c.fiv || r.2 })

def faddOp (t : Ty) (md : Nat) (v : Ops) := flResult t md (sumFl (md % 4) [flIn t md (v 0), flIn t md (v 1)])
def fsubOp (t : Ty) (md : Nat) (v : Ops) := flResult t md (sumFl (md % 4) [flIn t md (v 0), negFl (flIn t md (v 1))])
def fmulOp (t : Ty) (md : Nat) (v : Ops) := flResult t md (mulFl (flIn t md (v 0)) (flIn t md (v 1)))

/-- FFMA: one rounding of the exact product and sum. -/
def ffmaVal (mode : Nat) (a b c : Fl) : Fl × Bool :=
  let (p, bad) := mulFl a b
  if bad then (.nan, !c.isNan) else sumFl mode [p, c]
def ffmaOp (t : Ty) (md : Nat) (v : Ops) := flResult t md (ffmaVal (md % 4) (flIn t md (v 0)) (flIn t md (v 1)) (flIn t md (v 2)))

/-- An operand written back unchanged, apart from flushing, with the one condition that can raise (R272). -/
def keepFl (t : Ty) (md : Nat) (v : BitVec 32) : BitVec 32 × Conds :=
  let x := flOf t v.toNat
  if x.isNan then (BitVec.ofNat 32 (canonNan t), {})
  else if bits md 3 1 = 1 ∧ isSubnormal t x then (BitVec.ofNat 32 (writeFl t 0 (flush t md x)).1, { fuf := true })
  else (BitVec.ofNat 32 (lowBits t v), {})

/-- Is the first operand the lesser, −0 below +0 (R272)? -/
def flLess (a b : Fl) : Bool :=
  match cmpFl a b with
  | some z => if z = 0 then (match a, b with | .fin true _ _, .fin false _ _ => true | _, _ => false) else decide (z < 0)
  | none => false

def fminmaxOp (greater : Bool) (t : Ty) (md : Nat) (v : Ops) : BitVec 32 × Conds :=
  let a := flIn t md (v 0)
  let b := flIn t md (v 1)
  if a.isNan then keepFl t md (v 1)
  else if b.isNan then keepFl t md (v 0)
  else if greater then (if flLess a b then keepFl t md (v 1) else keepFl t md (v 0))
  else (if flLess b a then keepFl t md (v 1) else keepFl t md (v 0))
def fminOp := fminmaxOp false
def fmaxOp := fminmaxOp true

/-- The sign bit of a type. -/
def signBit (t : Ty) : Nat := 2 ^ (tyWidth t - 1)

def fabsOp (t : Ty) (md : Nat) (v : Ops) : BitVec 32 × Conds :=
  let (b, c) := keepFl t md (v 0)
  if (flOf t (v 0).toNat).isNan then (b, c) else (BitVec.ofNat 32 (b.toNat % signBit t), c)
def fnegOp (t : Ty) (md : Nat) (v : Ops) : BitVec 32 × Conds :=
  let (b, c) := keepFl t md (v 0)
  if (flOf t (v 0).toNat).isNan then (b, c) else (BitVec.ofNat 32 (b.toNat ^^^ signBit t), c)

/-- FCMP: exact, no flushing, no condition (R271). -/
def fcmpOp (t : Ty) (md : Nat) (v : Ops) : BitVec 32 × Conds :=
  (pred (condHolds md (cmpFl (flOf t (v 0).toNat) (flOf t (v 1).toNat))), {})

/-- FCVT from a source type (R273). -/
def fcvtOp (src t : Ty) (md : Nat) (v : Ops) : BitVec 32 × Conds := flResult t md (flIn src md (v 0), false)

/-- ITOF from a source type (R154, R273). -/
def itofOp (src t : Ty) (md : Nat) (v : Ops) : BitVec 32 × Conds :=
  let z := intOf src (v 0)
  flResult t md (.fin (decide (z < 0)) z.natAbs 0, false)

/-- A finite value rounded to an integer by a mode. -/
def roundInt (mode : Nat) (neg : Bool) (m : Nat) (e : Int) : Int :=
  let (q, r, d) := shiftDiv m 1 (min e 4096)
  let a : Nat := if roundsUp mode neg q r d then q + 1 else q
  if neg then - (a : Int) else a

/-- FTOI to an integer type (R154, R260). -/
def ftoiVal (t : Ty) (md : Nat) (x : Fl) : BitVec 32 × Conds :=
  let sat := bits md 2 1 == 1
  match x with
  | .nan => (0, { fiv := true })
  | .inf neg => (if sat then ofInt t (if neg then intMin t else intMax t) else 0, { fiv := true })
  | .fin neg m e =>
    let z := roundInt (md % 4) neg m e
    (ofInt t (if sat then clampInt t z else z), { fiv := !inRange t z })
def ftoiOp (src t : Ty) (md : Nat) (v : Ops) : BitVec 32 × Conds := ftoiVal t md (flIn src md (v 0))

/-- FRND (R274). -/
def frndOp (t : Ty) (md : Nat) (v : Ops) : BitVec 32 × Conds :=
  match flIn t md (v 0) with
  | .nan => (BitVec.ofNat 32 (canonNan t), {})
  | .inf n => (BitVec.ofNat 32 (infBits t n), {})
  | .fin n m e =>
    if 0 ≤ e ∨ m = 0 then flResult t (md % 4) (.fin n m e, false)
    else flResult t (md % 4) (.fin n (roundInt (md % 4) n m e).natAbs 0, false)

/-- FSCALE (R274); an exponent beyond ±4,096 acts as ±4,096. -/
def fscaleOp (t : Ty) (md : Nat) (v : Ops) : BitVec 32 × Conds :=
  match flIn t md (v 0) with
  | .nan => (BitVec.ofNat 32 (canonNan t), {})
  | .inf n => (BitVec.ofNat 32 (infBits t n), {})
  | .fin n m e => flResult t md (.fin n m (e + max (-4096) (min 4096 (v 1).toInt)), false)

/-- FCLASS's bit (R274). -/
def fclassOp (t : Ty) (_ : Nat) (v : Ops) : BitVec 32 × Conds :=
  let x := flOf t (v 0).toNat
  let k : Nat := match x with
    | .inf true => 0
    | .inf false => 7
    | .nan => 8
    | .fin n m _ =>
      if m = 0 then (if n then 3 else 4)
      else if isSubnormal t x then (if n then 2 else 5) else (if n then 1 else 6)
  (BitVec.ofNat 32 (2 ^ k), {})

/-! ### Predicates (R276) -/

def pnotOp (v : Ops) : BitVec 32 := pred ((v 0).toNat % 2 == 0)
def pandOp (v : Ops) : BitVec 32 := pred ((v 0).toNat % 2 == 1 && (v 1).toNat % 2 == 1)
def porOp (v : Ops) : BitVec 32 := pred ((v 0).toNat % 2 == 1 || (v 1).toNat % 2 == 1)
def pxorOp (v : Ops) : BitVec 32 := pred ((v 0).toNat % 2 != (v 1).toNat % 2)

end Sys2Proof.Machine
end

