-- ==== Sys2Proof/Machine/Control.lean ====
section
/-! DEFINITION. Moving, constants, joins, selection, identity, predicates and steering, and the end of a
sequence: R262, R269, R270, R276 to R278, R284 to R286, R288. -/
namespace Sys2Proof.Machine

/-- A token passed on: bits, kind and packet unchanged (R262, R276). -/
def passTok (t : Token) : LaneOut := .emit (some t) (some t)

/-- A forwarded operand: a literal stands in the extended form of its type (R146, R237). -/
def forwarded (f : NodeRec) (l : Lane) (p : Nat) : Token :=
  if litAt f p then { value := extend f.ty f.lit, tag := l.tag } else operand f l p

/-- PASS (R262). Final poison is forwarded (R407). -/
def execPass (f : NodeRec) (s : State) : Host.Outcome State Fault Refusal :=
  runNode (lanesM f .both (fun _ _ l => pure (passTok (forwarded f l 0)))) s
/-- PASS in a sequence: its source read in its type (R258, R262). -/
def execPassQ (s : State) : Host.Outcome State Fault Refusal :=
  runSeq (pureSeq (fun f _ v => (if f.ty = .tile then v 0 else extend f.ty (v 0), {}))) s

/-- CONST: lit in its type (R262, R237). -/
def execConst (f : NodeRec) (s : State) : Host.Outcome State Fault Refusal :=
  runNode (valueNode f (fun _ l => (both l (extend f.ty f.lit), {}))) s
/-- CONST in a sequence: im in its type (R262). -/
def execConstQ (s : State) : Host.Outcome State Fault Refusal :=
  runSeq (seqValue (fun f _ => (extend f.ty f.im, {}))) s

/-- SINK consumes its operands, poison too (R262, R407). -/
def execSink (f : NodeRec) (s : State) : Host.Outcome State Fault Refusal :=
  runNode (lanesM f .swallow (fun _ _ _ => pure (.emit none none))) s

/-- JOIN: a completion token of value 0 (R262). -/
def execJoin (f : NodeRec) (s : State) : Host.Outcome State Fault Refusal :=
  runNode (lanesM f .both (fun _ _ l => pure (passTok { value := 0, tag := l.tag, kind := .completion }))) s

/-- SEL (R269). -/
def execSel (f : NodeRec) (s : State) : Host.Outcome State Fault Refusal :=
  runNode (valueNode f (fun _ l => (both l (extend f.ty (if predOf l then opv f l 0 else opv f l 1)), {}))) s
/-- SEL in a sequence: the selector is bit 0 of qc (R269). -/
def execSelQ (s : State) : Host.Outcome State Fault Refusal :=
  runSeq (seqValue (fun f v => (extend f.ty (if (v f.qc).toNat % 2 = 1 then v f.qa else v f.qb), {}))) s

/-- The low 32 bits of a field of the identifier bound to a tag (R270). -/
def idxValue (r : Region) (tag level : Nat) : Nat := hdrField r.header ((boundId r tag).getD 0) level % 2 ^ 32

/-- A half of the identifier bound to a tag (R270). -/
def widValue (r : Region) (tag half : Nat) : Nat := bits ((boundId r tag).getD 0) (32 * half) 32

/-- IDX: the field of level ax[2:0], with lit added (R270). -/
def execIdx (f : NodeRec) (s : State) : Host.Outcome State Fault Refusal :=
  runNode (lanesM f .both (fun _ r l => pure (both l (BitVec.ofNat 32 (idxValue r l.tag (f.ax.toNat % 8)) + f.lit)))) s
/-- IDX in a sequence: the level is im[2:0] (R270). -/
def execIdxQ (s : State) : Host.Outcome State Fault Refusal :=
  runSeq (seqRow (fun r _ l f _ => { value := BitVec.ofNat 32 (idxValue r l.lane.tag (f.im.toNat % 8)) })) s
/-- WID: a half of the identifier (R270). -/
def execWid (f : NodeRec) (s : State) : Host.Outcome State Fault Refusal :=
  runNode (lanesM f .both (fun _ r l => pure (both l (BitVec.ofNat 32 (widValue r l.tag (f.ax.toNat % 2)))))) s
/-- WID in a sequence: the half is im[0] (R270). -/
def execWidQ (s : State) : Host.Outcome State Fault Refusal :=
  runSeq (seqRow (fun r _ l f _ => { value := BitVec.ofNat 32 (widValue r l.lane.tag (f.im.toNat % 2)) })) s

/-- STEER: op0 to da or to db by the predicate (R276). -/
def execSteer (f : NodeRec) (s : State) : Host.Outcome State Fault Refusal :=
  runNode (lanesM f .both (fun _ _ l =>
    let t := forwarded f l 0
    pure (if predOf l then .emit (some t) none else .emit none (some t)))) s

/-- MERGE: the token that arrived (R278); the instance holds that one token on port 0 or 1. -/
def execMerge (f : NodeRec) (s : State) : Host.Outcome State Fault Refusal :=
  runNode (lanesM f .both (fun _ _ l =>
    pure (match kget l.ops 0, kget l.ops 1 with
      | some t, _ => passTok t
      | none, some t => passTok t
      | none, none => passTok (forwarded f l 0)))) s

/-- CMERGE: the token of the chosen port (R277); the instance holds the predicate and that token, or a literal
in its place. -/
def execCmerge (f : NodeRec) (s : State) : Host.Outcome State Fault Refusal :=
  runNode (lanesM f .both (fun _ _ l => pure (passTok (forwarded f l (if predOf l then 0 else 1))))) s

/-- GATE: op0 when the predicate is 1, else nothing (R276). -/
def execGate (f : NodeRec) (s : State) : Host.Outcome State Fault Refusal :=
  runNode (lanesM f .both (fun _ _ l => pure (if predOf l then passTok (forwarded f l 0) else .emit none none))) s

/-- PNOT (R276). -/
def execPnot (f : NodeRec) (s : State) : Host.Outcome State Fault Refusal := runNode (pureNode f (fun _ v => (pnotOp v, {}))) s
def execPnotQ (s : State) : Host.Outcome State Fault Refusal := runSeq (pureSeq (fun _ _ v => (pnotOp v, {}))) s
/-- PAND (R276). -/
def execPand (f : NodeRec) (s : State) : Host.Outcome State Fault Refusal := runNode (pureNode f (fun _ v => (pandOp v, {}))) s
def execPandQ (s : State) : Host.Outcome State Fault Refusal := runSeq (pureSeq (fun _ _ v => (pandOp v, {}))) s
/-- POR (R276). -/
def execPor (f : NodeRec) (s : State) : Host.Outcome State Fault Refusal := runNode (pureNode f (fun _ v => (porOp v, {}))) s
def execPorQ (s : State) : Host.Outcome State Fault Refusal := runSeq (pureSeq (fun _ _ v => (porOp v, {}))) s
/-- PXOR (R276). -/
def execPxor (f : NodeRec) (s : State) : Host.Outcome State Fault Refusal := runNode (pureNode f (fun _ v => (pxorOp v, {}))) s
def execPxorQ (s : State) : Host.Outcome State Fault Refusal := runSeq (pureSeq (fun _ _ v => (pxorOp v, {}))) s

/-- PTEST: the predicate as data (R276). -/
def execPtest (f : NodeRec) (s : State) : Host.Outcome State Fault Refusal :=
  runNode (valueNode f (fun _ l => (both l (pred (predOf l)), {}))) s

/-- ORDER: op0 with its kind, once both have arrived (R286). -/
def execOrder (f : NodeRec) (s : State) : Host.Outcome State Fault Refusal :=
  runNode (lanesM f .both (fun _ _ l => pure (passTok (forwarded f l 0)))) s

/-- TRAPN: the program trap with cause lit[15:0] and operand op0 (R288). -/
def execTrapn (f : NodeRec) (s : State) : Host.Outcome State Fault Refusal :=
  runNode (lanesM f .both (fun _ _ l => pure (.trap (f.lit.toNat % 0x10000) (opv f l 0).toNat 1))) s

/-- FIRE starts the sequence at ex[8:0], all lanes in step; its records run one by one (R61, R284). -/
def execFire (f : NodeRec) (s : State) : Host.Outcome State Fault Refusal :=
  runNode (do
    match ← myIssue with
    | none => pure ()
    | some (i, _) => do
      each i.lanes (fun l => match firstPoison l with
        | some t => do
          let s ← get'
          sendBoth i f ({ t with tag := l.tag, packet := [] } |>.after s l.past)
        | none => pure ())
      let ls := i.lanes.filter (fun l => (firstPoison l).isNone && gateOpen f l)
      let lanes := ls.map (fun l => ({ lane := { l with ops := ([0, 1, 2] : List Nat).map (fun p => (p, operand f l p)) }, past := l.past } : SeqLane))
      let ix := f.ex.toNat % 512
      whenM (!lanes.isEmpty) (modRegion i.rid (fun r =>
        { r with fires := r.fires ++ [{ rid := i.rid, cell := i.cell, node := i.node, index := ix, start := ix, lanes := lanes, da := f.da, db := f.db, mdSet := i.mdSet }] }))) s

/-- EMIT: a data token to the FIRE node's destination (R285). -/
def execEmit (s : State) : Host.Outcome State Fault Refusal :=
  runSeq (seqRow (fun _ _ _ f v => { emit := some (false, extend f.ty (v f.qa)) })) s
/-- EMITP: bit 0 as a predicate (R285). -/
def execEmitp (s : State) : Host.Outcome State Fault Refusal :=
  runSeq (seqRow (fun _ _ _ f v => { emit := some (true, BitVec.ofNat 32 ((v f.qa).toNat % 2)) })) s

end Sys2Proof.Machine
end

