-- ==== Sys2Proof/Machine/Fetch.lean ====
section
/-! DEFINITION. Act blocks and their sections (R249), the commands of an act, handler acts (R403), and how
a step finds the record it runs: a node's record in element memory, a sequence's record, a sequencer's
command. -/
namespace Sys2Proof.Machine

/-- A section of an act block (R249). -/
structure Section where
  kind : Nat
  cell : Nat
  log2 : Nat
  count : Nat
  base : Nat
  payload : List Byte
  deriving DecidableEq, Repr

/-- Bytes of one item of a section's payload (R249); 0 for an unknown kind. -/
def itemBytes : Nat → Nat
  | 1 | 2 | 9 | 10 => 12
  | 3 => 32
  | 4 => 64
  | 5 => 256
  | 6 | 7 | 8 => 8
  | _ => 0

/-- The sections of an act block; `none` for an unknown kind or counts beyond the block (R414, reason 12). -/
def sectionsOf : Nat → List Byte → Option (List Section)
  | 0, _ => some []
  | fuel + 1, bs =>
    match bs with
    | [] => some []
    | _ =>
      let kind := leNat (bs.take 2)
      let count := leNat ((bs.drop 4).take 4)
      let n := itemBytes kind * count
      let rest := bs.drop 16
      if itemBytes kind = 0 ∨ bs.length < 16 ∨ rest.length < n then none
      else match sectionsOf fuel (rest.drop n) with
        | none => none
        | some t => some ({ kind := kind, cell := leNat ((bs.drop 2).take 1), log2 := leNat ((bs.drop 3).take 1), count := count,
                            base := leNat ((bs.drop 8).take 8), payload := rest.take n } :: t)

def actSections (bs : List Byte) : Option (List Section) := sectionsOf (bs.length / 16 + 1) bs

/-- Item `i` of a section. -/
def item (x : Section) (i : Nat) : List Byte := (x.payload.drop (itemBytes x.kind * i)).take (itemBytes x.kind)

/-- A record from its 12 bytes; zero bytes stand for missing ones. -/
def recordOf (bs : List Byte) : Rec := (recOfBytes (bs ++ List.replicate (12 - bs.length) 0)).getD 0

/-- The records of an act's prologue (kind 9) or epilogue (kind 10). -/
def commandsOf (kind : Nat) (bs : List Byte) : List Rec :=
  match actSections bs with
  | none => []
  | some l => ((l.filter (·.kind == kind)).map (fun x => (List.range x.count).map (fun i => recordOf (item x i)))).flatten

/-- A record's form and opcode (R227). -/
def recForm (r : Rec) : Nat := bitField r 94 2
def recOp (r : Rec) : Nat := bitField r 86 8

/-- A command that is a transfer (R36, R308). -/
def isTransfer (r : Rec) : Bool := recForm r == 2 && [0x01, 0x02, 0x03, 0x1D].contains (recOp r)
def isCfgRun (r : Rec) : Bool := recForm r == 2 && recOp r == 0x34
def isTret (r : Rec) : Bool := recForm r == 2 && recOp r == 0xE1

/-- A handler act: its commands end in TRET (R403, DEDUCED, log 12). -/
def isHandlerAct (p : Program) (a : Nat) : Bool :=
  match p.acts[a]? with
  | some bs => (commandsOf 9 bs).getLast?.any isTret
  | none => false

/-- The command record at a sequencer's program counter and whether it stands where its kind may (R36, R416). None where
the part of the act has no further record (DEDUCED, log 101). -/
def commandAt (r : Region) : Option (Rec × Bool) :=
  match r.seq.handler with
  | some (a, i) =>
    match r.program.acts[a]? with
    | none => none
    | some bs =>
      let l := commandsOf 9 bs
      (l[i]?).map (fun c => (c, if isTret c then i + 1 == l.length else true))
  | none =>
    match r.program.acts[r.seq.act]? with
    | none => none
    | some bs =>
      if r.seq.index < 64 then
        let l := commandsOf 9 bs
        (l[r.seq.index]?).map (fun c =>
          (c, !isTret c && !isTransfer c && (!isCfgRun c || r.seq.index + 1 == l.length)))
      else
        let l := commandsOf 10 bs
        let i := r.seq.index - 64
        (l[i]?).map (fun c => (c, !isTret c && !isCfgRun c && (!isTransfer c || i + 1 == l.length)))

/-- Whether a region's sequencer may run a command now: it runs none while the dataflow runs, a load is in
progress, the clock is gated or a snapshot is taken, but a handler runs in any of the first two (R37, R40). While a pre-emption waits
for a CTX.SWAP, it runs that command alone (R209). -/
def sequencerFree (r : Region) : Bool :=
  r.saved.isNone && (r.snapshot.isNone || r.seq.swap.isSome) &&
  match r.seq.handler with
  | some _ => r.state == .running || r.state == .idle || r.state == .sealed || r.state == .loading
  | none => (r.state == .idle || r.state == .sealed) && r.traps.isEmpty && r.loading.isNone

/-- The record of the node that the issue latch names. -/
def nodeRecord (s : State) : Option Rec :=
  match s.issue with
  | none => none
  | some i => (kget s.regions i.rid).bind (fun r => (kget r.active.nodes (i.cell * 32 + i.node)).map (·.record))

/-- The instruction of the latched node, and the same with the md bits a handler's retry adds (R404). -/
def latchedInstr (s : State) : Option Instr :=
  match nodeRecord s with
  | none => none
  | some r => match decode r with | .ok d => some d.instr | .error _ => none

/-- The record that a running sequence comes to next. -/
def seqRecord (s : State) (k : Nat) : Option Rec :=
  -- sequences are numbered over the regions in ascending order: region number times 4096 plus place
  (kget s.regions (k / 4096)).bind (fun r => (r.fires[k % 4096]?).bind (fun q => kget r.active.seqs (q.cell * 512 + q.index)))

/-- The free move that follows when none is laid out (DESIGN CHOICE, log 1). -/
def freeTurn (s : State) : Turn :=
  let n := Config.freeChoice s.tick
  match n % 6 with
  | 0 => .issue (n / 6 % 64) (n / 384 % 64)
  | 1 => .qrec (n / 6)
  | 2 => .cmd (n / 6)
  | 3 => .service
  | _ => .event (Config.freeEvent s.tick) (Config.freeInput s.tick)

/-- A device step: no record encodes it. -/
def isEvent (i : Instr) : Bool := (nodeRule i).isNone && (seqRule i).isNone && (cmdRule i).isNone

/-- Fetching a command traps ILLREC: a record that decodes to no command, or stands where it may not (R416). -/
def illegalRecord (s : State) : Host.Outcome State Fault Refusal := runM (trapCode 0x10) commandTrap s

/-- A blank region of one cell that a bare instruction is tried in: cell 0 of hall 0, with one node or one
command (used by `withFetchWord`). -/
def probeRegion (acts : List (List Byte)) : Region :=
  { hall := 0, ctx := 0, shape := 0, origin := 0, vf := 0, wing := 0, root := true, parent := none, fres := 1
    state := .idle, seq := Sequencer.zero, header := BitVec.ofNat 128 (2 ^ 64 + 2 ^ 67)
    program := { acts := acts }, active := { act := some 0 } }

/-- An act block of one prologue record. -/
def oneCommandAct (bs : List Byte) : List Byte :=
  [9, 0, 0, 0, 1, 0, 0, 0] ++ List.replicate 8 0 ++ bs

/-- One lane under tag 0 with zero operands. -/
def probeLane : Lane := { tag := 0, ops := ([0, 1, 2, 3] : List Nat).map (fun p => (p, { value := 0, tag := 0 })) }

/-- A state in which the next step runs the 96-bit record whose bytes are `bs`: a command as the first
command of an act, a node record latched for an issue of one lane, a sequence record as the one record of a
running sequence. -/
def placeRecord (s : State) (bs : List Byte) : State :=
  let r := recordOf bs
  match recForm r with
  | 0 =>
    { s with regions := kset s.regions 0 { probeRegion [] with active := { act := some 0, nodes := [(0, { record := r, base := 0, size := 1 })] } }
             issue := some { rid := 0, cell := 0, node := 0, lanes := [probeLane] }, agenda := [.fire] }
  | 1 =>
    { s with regions := kset s.regions 0 { probeRegion [] with
               active := { act := some 0, seqs := [(0, r)] }
               fires := [{ rid := 0, cell := 0, node := 0, index := 0, start := 0, lanes := [{ lane := probeLane }], da := .discard, db := .discard }] }
             agenda := [.qrec 0] }
  | _ =>
    { s with regions := kset s.regions 0 (probeRegion [oneCommandAct bs]), agenda := [.cmd 0] }

end Sys2Proof.Machine
end

