-- ==== Sys2Proof/Machine/Tags.lean ====
section
/-! DEFINITION. Tags, counters and retirement: TAGNEW, TAGRET, TAGSET, TAGGET, COUNT, INIT and DONE (R53 to R55,
R70, R279 to R283, R287, R407, R422). -/
namespace Sys2Proof.Machine

/-- The free list of a loop region. -/
def freeTags (r : Region) (loop : Nat) : List Nat := kgetD r.active.free loop []

/-- The tag lies in a loop region's range and is not free (R422). -/
def tagDrawn (r : Region) (loop tag : Nat) : Bool :=
  match kget r.active.loops loop with
  | some (base, n) => base ≤ tag && tag < base + n && !(freeTags r loop).contains tag
  | none => false

/-- Change the active bank of a region. -/
def modBank (rid : Nat) (g : Bank → Bank) : M Unit := modRegion rid (fun r => { r with active := g r.active })

/-- Draw the tag at the head of a free list (R54). -/
def drawTag (rid loop : Nat) : M (Option Nat) := do
  let s ← get'
  match kget s.regions rid with
  | none => pure none
  | some r => match freeTags r loop with
    | [] => pure none
    | t :: rest => do
      modBank rid (fun b => { b with free := kset b.free loop rest })
      pure (some t)

/-- Return a tag to the tail of a free list and clear its binding (R54, R280). -/
def returnTag (rid loop tag : Nat) : M Unit := modBank rid (fun b =>
  { b with free := kset b.free loop (kgetD b.free loop [] ++ [tag]), binds := kdel b.binds tag })

/-- Bind a tag to a work identifier, or to none. -/
def bindTag (rid tag : Nat) (id : Option Nat) : M Unit := modBank rid (fun b =>
  { b with binds := match id with | some w => kset b.binds tag w | none => kdel b.binds tag })

/-- The poison that a node forwards in place of a value, if some operand is final poison. -/
def poisonOr (l : Lane) (t : Token) : Token :=
  match firstPoison l with
  | some p => { p with tag := t.tag, packet := [] }
  | none => t

/-- An instance takes its place in a ready queue: the oldest match first, and among equals the lowest tag (R56). -/
def insertInst (i : Inst) : List Inst → List Inst
  | [] => [i]
  | j :: t =>
    if i.lane.moment < j.lane.moment ∨ (i.lane.moment = j.lane.moment ∧ i.lane.tag < j.lane.tag) then i :: j :: t
    else j :: insertInst i t

/-- TAGNEW (R279): it draws a tag, bound as the firing's tag is; op0 leaves on da under the new tag and the
tag's number on db. An instance that finds the list empty remains matched. -/
def execTagnew (f : NodeRec) (s : State) : Host.Outcome State Fault Refusal :=
  runNode (lanesM f .own (fun i r l => do
    match ← drawTag i.rid (f.ax.toNat % 16) with
    | none => do
      modRegion i.rid (fun r => { r with ready := insertInst { cell := i.cell, node := i.node, lane := l } r.ready })
      pure (.emit none none)
    | some t => do
      bindTag i.rid t (boundId r l.tag)
      pure (.emit (some (poisonOr l { forwarded f l 0 with tag := t }))
        (some (poisonOr l (dataTok l (BitVec.ofNat 32 t))))))) s

/-- The tag that port 1 names, or the firing's own when port 1 holds poison (R280, R281, R407). -/
def outerTag (f : NodeRec) (l : Lane) : Nat :=
  if (kget l.ops 1).any Token.isFinal then l.tag else (opv f l 1).toNat % 4096

/-- TAGRET (R280, R422). -/
def execTagret (f : NodeRec) (s : State) : Host.Outcome State Fault Refusal :=
  runNode (lanesM f .own (fun i r l => do
    let k := f.ax.toNat % 16
    if tagDrawn r k l.tag then do
      returnTag i.rid k l.tag
      pure (passTok (poisonOr l { forwarded f l 0 with tag := outerTag f l }))
    else pure (.trap 0x21 (opv f l 0).toNat 0))) s

/-- TAGSET (R281). -/
def execTagset (f : NodeRec) (s : State) : Host.Outcome State Fault Refusal :=
  runNode (lanesM f .own (fun _ _ l =>
    pure (passTok (poisonOr l { forwarded f l 0 with tag := outerTag f l })))) s

/-- TAGGET (R281). -/
def execTagget (f : NodeRec) (s : State) : Host.Outcome State Fault Refusal :=
  runNode (lanesM f .both (fun _ _ l => pure (both l (BitVec.ofNat 32 l.tag)))) s

/-- COUNT (R282): the counter on da, whether it is the last on db; then it advances. -/
def execCount (f : NodeRec) (s : State) : Host.Outcome State Fault Refusal :=
  runNode (lanesM f .both (fun i r l => do
    let k := i.cell * 32 + i.node
    let lim := if f.lit = 0 then 2 ^ 32 else f.lit.toNat
    let c := kgetD r.active.counts k 0
    modBank i.rid (fun b => { b with counts := kset b.counts k ((c + 1) % lim) })
    pure (.emit (some (dataTok l (BitVec.ofNat 32 c))) (some (dataTok l (pred (c + 1 == lim))))))) s

/-- Open invocations of a hall at most (R80). -/
def maxInvs : Nat := 1024

/-- The invocation of an identifier is open, or can be opened (R80). -/
def canOpen (s : State) (r : Region) (rid id : Nat) : Bool :=
  (openInv s r rid id).isSome || decide ((hallAt s r.hall).invs.length < maxInvs)

/-- Open the invocation of an identifier where it is not (R71, R80): all of its iterations are unretired. -/
def openInvocation (rid id : Nat) : M Unit := do
  let s ← get'
  match kget s.regions rid with
  | none => pure ()
  | some r =>
    match openInv s r rid id, firstFree maxInvs (fun k => (kget (hallAt s r.hall).invs k).isNone) with
    | none, some k => do
      let n ← fresh
      let i : Invocation := { rid := rid, serial := n, first := invFirst r.header id, live := itersFrom r.header (hdrInv r.header + 1)
                              retired := [], discarded := none, poisoned := 0 }
      modHall r.hall (fun h => { h with invs := kset h.invs k i })
    | _, _ => pure ()

/-- INIT (R283): its literal under the tag ex[11:0], which in sequence mode is bound to the run's first
identifier, where the run has one. -/
def execInit (f : NodeRec) (s : State) : Host.Outcome State Fault Refusal :=
  runNode (lanesM f .both (fun i r _ => do
    let t := f.ex.toNat % 4096
    let bound := !hdrThread r.header && r.run.left != 0
    whenM bound (openInvocation i.rid r.run.next)
    bindTag i.rid t (if bound then some r.run.next else none)
    pure (passTok { value := extend f.ty f.lit, tag := t }))) s

/-- Retire an iteration: its invocation's live count falls by one (R70, R71); `poison` is the code it retired
by (R407). -/
def retireIter (rid id : Nat) (poison : Option Nat) : M Unit := do
  let s ← get'
  match kget s.regions rid with
  | none => pure ()
  | some r => do
    (match openInv s r rid id with
     | some k => modHall r.hall (fun h => match kget h.invs k with
       | some i => { h with invs := kset h.invs k { i with
           live := if i.retired.contains id then i.live else i.live - 1, retired := addNat i.retired id
           discarded := match poison with | some c => some (i.discarded.getD c) | none => i.discarded
           poisoned := if poison.isSome then i.poisoned + 1 else i.poisoned } }
       | none => h)
     | none => pure ())
    modRegion rid (fun r => { r with run := { r.run with started := r.run.started.filter (· != id) } })

/-- The iteration bound to a tag has not retired (R422). -/
def iterLive (s : State) (r : Region) (rid tag : Nat) : Bool :=
  match boundId r tag with
  | none => false
  | some id => match openInv s r rid id with
    | some k => match kget (hallAt s r.hall).invs k with
      | some i => !i.retired.contains id
      | none => false
    | none => false

/-- Queue a thread at an act's entry (R42). -/
def queueThread (rid act id : Nat) : M Unit := modRegion rid (fun r =>
  { r with threads := kset r.threads act (kgetD r.threads act [] ++ [id]) })

/-- DONE (R287, R407, R422, R431): it retires the iteration, or in thread mode queues the thread at another
act; in thread mode its tag returns. -/
def execDone (f : NodeRec) (s : State) : Host.Outcome State Fault Refusal :=
  runNode (lanesM f .own (fun i r l => do
    let s ← get'
    let thread := hdrThread r.header
    let target := match firstPoison l with | some _ => 0xFFFFFFFF | none => (opv f l 0).toNat
    if (thread ∧ 256 ≤ target ∧ target < 0xFFFFFFFF) ∨ (thread ∧ target < 256 ∧ isHandlerAct r.program target) ∨ (¬thread ∧ target ≠ 0xFFFFFFFF) then
      pure (.trap 0x12 target 0)
    else if !tagDrawn r 0 l.tag || !iterLive s r i.rid l.tag then pure (.trap 0x21 target 0)
    else do
      let id := (boundId r l.tag).getD 0
      (if target = 0xFFFFFFFF then retireIter i.rid id ((firstPoison l).map (fun t => bits t.value.toNat 0 16))
       else queueThread i.rid target id)
      whenM thread (returnTag i.rid 0 l.tag)
      pure (.emit none none))) s

end Sys2Proof.Machine
end

