-- ==== Sys2Proof/Machine/Access.lean ====
section
/-! DEFINITION. Memory accesses of nodes: their start (R100 to R105, R289 to R295, R431) and how the memory
system serves them (R71, R115, R124, R130, R134, R135, R415, R438). -/
namespace Sys2Proof.Machine

/-! ### Starting an access -/

/-- Add a request at the end, in order of arrival. -/
def addReq (q : Req) : M Unit := do
  let s ← get'
  eff (.reqs (s.reqs ++ [q]))

def dropReq (n : Nat) : M Unit := do
  let s ← get'
  eff (.reqs (s.reqs.filter (·.number != n)))

def putReq (q : Req) : M Unit := do
  let s ← get'
  eff (.reqs (s.reqs.map (fun x => if x.number = q.number then q else x)))

/-- What an access needs: the operation, the right, the bytes checked at issue, the alignment, and whether
only scratch will do. -/
structure AccessKind where
  op : MemOp
  right : Right
  len : Nat
  align : Nat
  scratchOnly : Bool := false
  /-- the length is the one a header gives when it is read -/
  byHeader : Bool := false

/-- A lane's access starts: its handle and bounds are checked, its address translated or a walk started, and the
request is outstanding until it is served. The answer is the request, or the lane's trap. -/
def startAccess (i : Issue) (f : NodeRec) (l : Lane) (k : AccessKind) : M (Except LaneOut Req) := do
  let s ← get'
  match kget s.regions i.rid with
  | none => pure (.error (.emit none none))
  | some r =>
    let off := (opv f l 0).toNat
    let h := (handleAt s r.vf r.ctx (f.ex.toNat % 256)).visible
    match checkAccess h k.right off k.len k.align with
    | .error c => pure (.error (.trap c off 0))
    | .ok (scr, va) =>
      if k.scratchOnly ∧ scr = none then pure (.error (.trap 0x1B off 0))
      else do
        let n ← fresh
        let len := if k.byHeader then (match h with | some b => b.len - off | none => 0) else k.len
        let q : Req := { rid := i.rid, cell := i.cell, node := i.node, lane := l, wid := boundId r l.tag, op := k.op, ty := f.ty, da := f.da
                         db := f.db, va := va, loc := none, len := len, phase := .issued, number := n, retry := i.retry, moment := s.moves }
        match scr with
        | some hall => do
          let q := { q with loc := some (scratchAddr hall va) }
          addReq q
          pure (.ok q)
        | none =>
          match tlbLookup s r.hall r.vf va with
          | some (pa, e) =>
            if pageGrants e.write e.atomic k.right then do
              let q := { q with loc := some pa }
              addReq q
              pure (.ok q)
            else pure (.error (.trap (rightFault s r.vf va k.right).code off 0 va (gpaOf s r.vf va)))
          | none => do
            let w ← joinWalk r.hall r.vf va
            countMiss i.rid
            let q := { q with phase := .walking, walk := w, need := va }
            addReq q
            pure (.ok q)

/-! ### Serving -/

/-- A location that does not answer: the first of the pieces on a lost port or behind a link that is down. -/
def silentPiece (s : State) (l : List (Nat × Nat × Nat)) : Option Nat := (l.filterMap (fun p => answers s p.1)).head?

/-- A poison marker in the pieces (R438). DEDUCED, log 64. -/
def markedPiece (s : State) (l : List (Nat × Nat × Nat)) : Bool := l.any (fun p => poisoned s p.1 p.2.2)

/-- Why the pieces cannot be read: ANNEX, HOSTLK or MEMUE. -/
def unreadable (s : State) (l : List (Nat × Nat × Nat)) : Option Nat :=
  match silentPiece s l with
  | some c => some c
  | none => if markedPiece s l then some 0x40 else none

/-- End a request with final poison on both destinations (R407, R438). -/
def poisonReq (q : Req) (code : Nat) : M Unit := do
  dropReq q.number
  sendReply q (some (finalTok q.lane code)) (some (finalTok q.lane code))

/-- End a request with a trap (R401, R444). -/
def trapReq (q : Req) (code : Nat) (word8 : Nat := 0) (word9 : Nat := 0) : M Unit := do
  dropReq q.number
  raiseLate q.rid q.cell q.node q.da q.db q.retry q.lane { code := code, operand := lane0Op q.lane, word8 := word8, word9 := word9 }

/-- End a request with a translation fault at a guest address (R444). -/
def trapWalk (q : Req) (e : XFault) (va : Nat) : M Unit := do
  let s ← get'
  trapReq q e.code va (gpaOf s (reqVf s q) va)

/-- A request whose bytes have no place yet ends in a fault, or waits for a walk (R105, R444). -/
def stopPiece (q : Req) (e : PieceStop) : M Unit := do
  match e with
  | .fault f va => trapWalk q f va
  | .miss va => do
    let s ← get'
    let w ← joinWalk (ridHall q.rid) (reqVf s q) va
    countMiss q.rid
    putReq { q with phase := .walking, walk := w, need := va }

/-- The bytes that the next event of a load reads: all of a scalar, a granule of a packet (R127). -/
def loadPart (q : Req) : Nat :=
  if q.ty = .tile then
    let total := if q.got.length = 0 then q.len else (pktHdr q.got).length
    min (16 - (q.va + q.got.length) % 16) (total - q.got.length)
  else q.len

/-- A load's reply. -/
def endLoad (q : Req) (bs : List Byte) : M Unit := do
  dropReq q.number
  sendReply q (some (loadToken q.ty q.lane bs)) (some (completion q.lane))

/-- LD: one event reads a scalar, or one granule of a packet; the header, in the first, gives the length (R71, R127, R290). Its
invocation's held stores are seen. A line whose fill a snoop met is not cached (R123). -/
def serveLoad (q : Req) : M Unit := do
  let s ← get'
  match pieces s q .read q.got.length (loadPart q) with
  | .error e => stopPiece q e
  | .ok l =>
    if pinnedAny s q l then putReq { q with phase := .pinned }
    else match unreadable s l with
    | some c => poisonReq q c
    | none => do
      let got := q.got ++ pieceBytes s (reqInv s q) l
      whenM (!q.snooped) (each l (fun p => each (linesOf p.1 p.2.2) (fun x => cacheRead (ridHall q.rid) (reqVf s q) (q.va + p.2.1 + x - p.1) x)))
      let h := pktHdr got
      if q.ty ≠ .tile then endLoad q got
      else if !h.ok then trapReq q 0x22
      else if q.len < h.length then trapReq q 0x1A
      else if got.length < h.length then putReq { q with got := got, phase := .issued, snooped := false }
      else endLoad q (got.take h.length)

/-- A completion that descends from a held store of an invocation (R130, R135). -/
def heldCompletion (s : State) (q : Req) : Token :=
  match reqInv s q with
  | some (hall, k) => { completion q.lane with past := (match kget (hallAt s hall).invs k with | some i => [i.serial] | none => []) }
  | none => completion q.lane

/-- Hold the bytes of a request for its invocation, or write them when it has none (R71). -/
def putPieces (q : Req) (l : List (Nat × Nat × Nat)) (data : List Byte) (atomic : Bool) : M Unit := do
  let s ← get'
  let vf := reqVf s q
  match reqInv s q with
  | some (hall, k) => each l (fun p =>
      holdStore hall { inv := k, addr := p.1, data := (data.drop p.2.1).take p.2.2, vf := vf, va := q.va + p.2.1, atomic := atomic })
  | none => each l (fun p => performWrite (ridHall q.rid) vf (q.va + p.2.1) p.1 ((data.drop p.2.1).take p.2.2))

/-- The hold's answer to a request's pieces. -/
def roomOf (s : State) (q : Req) (l : List (Nat × Nat × Nat)) : Room :=
  match reqInv s q with
  | some (hall, k) => holdRoom (hallAt s hall) k l
  | none => .fits

/-- The earlier lanes of a request's issue that are not answered. -/
def lanesAhead (s : State) (q : Req) : List Req :=
  s.reqs.filter (fun x => x.rid == q.rid && x.cell == q.cell && x.node == q.node && x.moment == q.moment && x.number < q.number
    && (match x.op with | .reply _ _ | .posted _ _ | .drain _ _ _ => false | _ => true))

/-- The lanes of one issue are presented in lane order: a request waits while an earlier lane has not come to a line that it touches
(R261). The lanes of a store enter the hold in that order (R291). -/
def behindLane (s : State) (q : Req) : Bool :=
  (lanesAhead s q).any (fun x =>
    (match x.op with | .store _ => true | _ => false)
    || x.phase == .walking || (x.phase == .issued && (linesOf (x.loc.getD 0) x.len).any (fun l => (linesOf (q.loc.getD 0) q.len).contains l)))

/-- The phase of a request that waits behind an earlier lane: it waits on what that lane waits on (R418). -/
def behindPhase (s : State) (q : Req) : Phase :=
  if (lanesAhead s q).any (fun x => x.phase == .pinned || x.phase == .hold) then .hold else .issued

/-- ST enters the hold, or performs (R71, R291, R415). -/
def serveStore (q : Req) (data : List Byte) : M Unit := do
  let s ← get'
  match pieces s q .write 0 data.length with
  | .error e => stopPiece q e
  | .ok l =>
    if pinnedAny s q l then putReq { q with phase := .pinned }
    else match roomOf s q l with
    | .beyond => trapReq q 0x1C
    | .full => putReq { q with phase := .hold }
    | .fits => do
      dropReq q.number
      putPieces q l data false
      let s ← get'
      sendReply q (some (heldCompletion s q)) (some (heldCompletion s q))

/-- An AMO's new value and conditions (R293). -/
def amoNew (ty : Ty) (op md : Nat) (old arg : BitVec 32) : BitVec 32 × Conds :=
  let v : Ops := fun p => if p = 0 then old else arg
  match op with
  | 0 => ((addOp ty 0 v).1, {})
  | 1 => andOp ty 0 v
  | 2 => orOp ty 0 v
  | 3 => xorOp ty 0 v
  | 4 => if ty = .f32 then ((fminOp .f32 0 v).1, {}) else minOp ty 0 v
  | 5 => if ty = .f32 then ((fmaxOp .f32 0 v).1, {}) else maxOp ty 0 v
  | 6 => (arg, {})
  | _ => faddOp .f32 md v

/-- AMO and CAS: a place in the hold, then the line is pinned, read and written (R134, R293, R294, R415).
`decide` gives what to write to an old value, or a lane's fate without a write. -/
def serveAtomic (q : Req) (new : BitVec 32 → Option (BitVec 32) × Conds) : M Unit := do
  let s ← get'
  match pieces s q .atomic 0 4 with
  | .error e => stopPiece q e
  | .ok l =>
    if pinnedAny s q l then putReq { q with phase := .pinned }
    else match roomOf s q l with
    | .beyond => trapReq q 0x1C
    | .full => putReq { q with phase := .hold }
    | .fits =>
      match unreadable s l with
      | some c => poisonReq q c
      | none =>
        let old := BitVec.ofNat 32 (leNat (pieceBytes s (reqInv s q) l))
        let (w, c) := new old
        let en := match kget s.regions q.rid with | some r => r.sys.trapEn | none => 0
        match fate en c with
        | .trap k => trapReq q k
        | .poison k => do
          (match reqInv s q with | some (hall, inv) => markDiscard hall inv k | none => pure ())
          poisonReq q k
        | .stands => do
          dropReq q.number
          let done := match w with | some _ => heldCompletion s q | none => completion q.lane
          (match w with
           | some v => do
             putPieces q l (bytesOfNat 4 v.toNat) true
             (match reqInv s q with
              | some (hall, inv) => each (pieceLines l) (pinLine hall inv)
              | none => pure ())
           | none => pure ())
          sendReply q (some { value := old, tag := q.lane.tag, past := done.past }) (some done)

/-- The annex lines that a hall holds Modified (R111, R124). -/
def dirtyAnnex (h : Hall) : List Nat := (h.cache.filter (fun p => p.2.mesi == .modified && rangeMt (64 * p.1) == some 1)).map (·.1)

/-- An annex-scope fence: the Modified annex lines that the halls of the issuer's wing hold reach their device, so those of every store
that can precede the fence; false when one lies on a lost port (R124, R135, R445). -/
def annexFence (hall : Nat) : M Bool := do
  let s ← get'
  let hs := match (hallAt s hall).wing.bind (kget s.wings) with | some w => wingHalls w | none => [hall]
  if hs.any (fun h => (dirtyAnnex (hallAt s h)).any (fun k => (answers s (64 * k)).isSome)) then pure false
  else do
    each hs (fun x => modHall x (fun h =>
      { h with cache := h.cache.map (fun p => if (dirtyAnnex h).contains p.1 then (p.1, { p.2 with mesi := .exclusive }) else p) }))
    pure true

/-- The fence's wait has ended: no other invocation's held store that precedes it is outstanding (R135). -/
def fenceOver (s : State) (q : Req) : Bool :=
  let own := match reqInv s q with
    | some (hall, k) => (kget (hallAt s hall).invs k).map (·.serial)
    | none => none
  q.lane.past.all (fun k => some k == own || !openSerial s k)

/-- FENCE (R295). -/
def serveFence (q : Req) (scope : Nat) : M Unit := do
  let s ← get'
  if fenceOver s q then do
    let ok ← (if scope = 4 then annexFence (ridHall q.rid) else pure true)
    if ok then do
      dropReq q.number
      sendReply q (some (completion q.lane)) (some (completion q.lane))
    else poisonReq q 0x44
  else pure ()

/-- A served request's tokens leave once there are places (R52). -/
def serveReply (q : Req) (a b : Option Token) : M Unit := do
  dropReq q.number
  sendReply q a b

/-- An earlier write that the same commit sent to one of the lines is still to perform: one location keeps their order (R132). -/
def sentAhead (s : State) (q : Req) (serial : Nat) : Bool :=
  s.reqs.any (fun x => x.number < q.number
    && (match x.op with | .posted d k => k == serial && (linesOf (x.loc.getD 0) d.length).any (fun l => (linesOf (q.loc.getD 0) q.len).contains l) | _ => false))

/-- A sent write performs (R136). -/
def servePosted (q : Req) (data : List Byte) (serial : Nat) : M Unit := do
  let s ← get'
  let a := q.loc.getD 0
  if (linesOf a data.length).any (fun x => pinnedByOther s x none) ∨ (rangeMt a = some 2 ∧ ¬s.pkg.hostUp) ∨ sentAhead s q serial then pure ()
  else do
    dropReq q.number
    performWrite (ridHall q.rid) noVf 0 a data

/-- A full/empty request arrives at its tile (R116). -/
def arriveFE (q : Req) : M Unit := do
  dropReq q.number
  let served ← tryFE q
  if served then settleGranules else addReq { q with phase := .granule }

end Sys2Proof.Machine
end

