-- ==== Sys2Proof/Machine/Special.lean ====
section
/-! DEFINITION. The special functions (R170, R171, R275). The part's own results are free within the error
bounds of R170 (DESIGN CHOICE, log 10): each bound is checked with exact arithmetic against a value computed here to far
more bits than FP32 holds. -/
namespace Sys2Proof.Machine

/-- Fractional bits of the fixed-point values. -/
def fxBits : Nat := 160

/-- ln 2, log2 e and 2π at 160 fractional bits, and 1/2π at 352. -/
def fxLn2 : Nat := 0xB17217F7D1CF79ABC9E3B39803F2F6AF40F34326
def fxLog2e : Nat := 0x171547652B82FE1777D0FFDA0D23A7D11D6AEF551
def fxTwoPi : Nat := 0x6487ED5110B4611A62633145C06E0E68948127044
def fxInvTwoPi : Nat := 0x28BE60DB9391054A7F09D5F47D4D377036D8A5664F10E4107F9458EAF7AEF1586DC91B8E909374B801924BBA

/-- The sum of a series whose term k+1 is term k times y² or y over a divisor: Σ y^k / k! from a term on. -/
def expSeries (y : Nat) : Nat → Nat → Nat → Nat
  | 0, _, _ => 0
  | n + 1, k, t => t + expSeries y n (k + 1) (t * y / 2 ^ fxBits / (k + 1))

/-- 2^f for a fraction f of 160 bits. -/
def fxExp2 (f : Nat) : Nat := expSeries (f * fxLn2 / 2 ^ fxBits) 48 0 (2 ^ fxBits)

/-- Binary digits of log2 z for z in [1, 2). -/
def fxLog2 : Nat → Nat → Nat → Nat
  | 0, _, acc => acc
  | n + 1, z, acc =>
    let z := z * z / 2 ^ fxBits
    if 2 ^ (fxBits + 1) ≤ z then fxLog2 n (z / 2) (2 * acc + 1) else fxLog2 n z (2 * acc)

/-- The alternating series of sine (k = 1) or cosine (k = 0) for y² = q, from a term on. -/
def trigSeries (q : Nat) : Nat → Nat → Int → Int
  | 0, _, _ => 0
  | n + 1, k, t => t + trigSeries q n (k + 2) (-(t * (q : Int) / ((2 ^ fxBits : Nat) : Int) / (((k + 1) * (k + 2) : Nat) : Int)))

/-- A finite value at 160 fractional bits, for exponents the caller has bounded. -/
def fxOf (m : Nat) (e : Int) : Nat := (shiftDiv m 1 (e + fxBits)).1

/-- The angle of m · 2^e radians within one turn, at 160 fractional bits. -/
def fxAngle (m : Nat) (e : Int) : Nat :=
  let turn := (shiftDiv (m * fxInvTwoPi) 1 e).1 % 2 ^ 352 / 2 ^ 192
  turn * fxTwoPi / 2 ^ fxBits

/-- The integer square root by digits. -/
def isqrtFrom (n : Nat) : Nat → Nat → Nat
  | 0, r => r
  | k + 1, r => if (r + 2 ^ k) * (r + 2 ^ k) ≤ n then isqrtFrom n k (r + 2 ^ k) else isqrtFrom n k r

def isqrt (n : Nat) : Nat := isqrtFrom n (Nat.log2 n / 2 + 1) 0

/-- A close value: sign, mantissa and exponent. -/
structure Close where
  neg : Bool
  m : Nat
  e : Int

/-- One unit in the last place of FP32 at a value: its exponent. -/
def ulpExp (c : Close) : Int := if c.m = 0 then -149 else max ((Nat.log2 c.m : Int) + c.e - 23) (-149)

/-- A candidate stands when it is finite and within k · 2^b of the close value; otherwise the close value is
rounded to FP32. -/
def bounded (cand : BitVec 32) (c : Close) (k : Nat) (b : Int) : Fl :=
  match flOf .f32 cand.toNat with
  | .fin n m e =>
    let (d, x) := exactSum [(n, m, e), (!c.neg, c.m, c.e), (false, 0, b)]
    if d.natAbs ≤ (atExp false k b x).natAbs then .fin n m e
    else flOf .f32 (roundRatio .f32 0 c.neg c.m 1 c.e).1
  | _ => flOf .f32 (roundRatio .f32 0 c.neg c.m 1 c.e).1

/-- FP32's bits of a finite value that fits it exactly. -/
def fp32Bits (x : Fl) : BitVec 32 := BitVec.ofNat 32 (writeFl .f32 0 x).1

/-- The whole part of a finite x and its fraction at 160 bits. -/
def wholeFrac (neg : Bool) (m : Nat) (e : Int) : Int × Nat :=
  let a := fxOf m e
  let z : Int := if neg then - (a : Int) else a
  (z / ((2 ^ fxBits : Nat) : Int), (z % ((2 ^ fxBits : Nat) : Int)).toNat)

/-- 2^x for finite nonzero x below 128. -/
def exp2Fin (neg : Bool) (m : Nat) (e : Int) : Fl :=
  let (whole, frac) := wholeFrac neg m e
  let c : Close := if whole < -400 then { neg := false, m := 1, e := -400 } else { neg := false, m := fxExp2 frac, e := whole - fxBits }
  bounded (Config.exp2Bits (fp32Bits (.fin neg m e))) c 2 (ulpExp c)

def exp2Fl (x : Fl) : Fl × Conds :=
  match x with
  | .nan => (.nan, {})
  | .inf true => (.fin false 0 0, {})
  | .inf false => (.inf false, {})
  | .fin neg m e =>
    if m = 0 then (.fin false 1 0, {})
    else if neg ∧ fxOf m (min e 64) ≥ 400 * 2 ^ fxBits then (bounded (Config.exp2Bits (fp32Bits x)) { neg := false, m := 1, e := -400 } 2 (-149), {})
    else if ¬neg ∧ fxOf m (min e 64) ≥ 128 * 2 ^ fxBits then (.fin false 1 128, {})
    else (exp2Fin neg m e, {})

def log2Fl (x : Fl) : Fl × Conds :=
  match x with
  | .nan => (.nan, {})
  | .inf true => (.nan, { fiv := true })
  | .inf false => (.inf false, {})
  | .fin neg m e =>
    if m = 0 then (.inf true, { dz := true })
    else if neg then (.nan, { fiv := true })
    else
      let k := Nat.log2 m
      let z := m * 2 ^ fxBits / 2 ^ k
      let frac := fxLog2 80 z 0
      let v : Int := ((k : Int) + e) * ((2 ^ 80 : Nat) : Int) + frac
      if v = 0 then (.fin false 0 0, {})
      else
        let c : Close := { neg := decide (v < 0), m := v.natAbs, e := -80 }
        let inside := v.natAbs ≤ 2 ^ 80
        (if inside then bounded (Config.log2Bits (fp32Bits x)) c 1 (-22) else bounded (Config.log2Bits (fp32Bits x)) c 2 (ulpExp c), {})

/-- A close value of n / d, to 100 bits. -/
def closeRatio (neg : Bool) (n d : Nat) (e : Int) : Close := { neg := neg, m := n * 2 ^ 100 / d, e := e - 100 }

def rcpFl (x : Fl) : Fl × Conds :=
  match x with
  | .nan => (.nan, {})
  | .inf n => (.fin n 0 0, {})
  | .fin n m e =>
    if m = 0 then (.inf n, { dz := true })
    else
      let c := closeRatio n (2 ^ 30) m (-e - 30)
      -- beyond FP32's range R153 answers: the exact quotient is rounded by the caller
      if 128 ≤ (Nat.log2 c.m : Int) + c.e then (.fin n c.m c.e, {})
      else (bounded (Config.rcpBits (fp32Bits x)) c 1 (ulpExp c), {})

/-- A close value of the square root of m · 2^e. -/
def closeSqrt (m : Nat) (e : Int) : Close :=
  let (m, e) := if e % 2 = 0 then (m, e) else (2 * m, e - 1)
  { neg := false, m := isqrt (m * 2 ^ 200), e := (e - 200) / 2 }

def rsqFl (x : Fl) : Fl × Conds :=
  match x with
  | .nan => (.nan, {})
  | .inf true => (.nan, { fiv := true })
  | .inf false => (.fin false 0 0, {})
  | .fin n m e =>
    if m = 0 then (.inf n, { dz := true })
    else if n then (.nan, { fiv := true })
    else
      let r := closeSqrt m e
      let c := closeRatio false (2 ^ 200) r.m (-200 - r.e)
      (bounded (Config.rsqBits (fp32Bits x)) c 1 (ulpExp c), {})

/-- SQRT: correctly rounded to FP32 in md's direction. -/
def sqrtFl (md : Nat) (x : Fl) : Fl × Conds :=
  match x with
  | .nan => (.nan, {})
  | .inf true => (.nan, { fiv := true })
  | .inf false => (.inf false, {})
  | .fin n m e =>
    if m = 0 then (.fin n 0 0, {})
    else if n then (.nan, { fiv := true })
    else
      let (m, e) := if e % 2 = 0 then (m, e) else (2 * m, e - 1)
      let a := m * 2 ^ 120
      let q := isqrt a
      let r := if q * q = a then 2 * q else 2 * q + 1
      (flOf .f32 (roundRatio .f32 (md % 4) false r 1 ((e - 120) / 2 - 1)).1, {})

/-- A close value of sin x or cos x for finite nonzero x. -/
def closeSin (cosine n : Bool) (m : Nat) (e : Int) : Close :=
  let a := fxAngle m e
  let q := a * a / 2 ^ fxBits
  let v : Int := if cosine then trigSeries q 40 0 ((2 ^ fxBits : Nat) : Int) else trigSeries q 40 1 (a : Int)
  let v := if n ∧ ¬cosine then -v else v
  { neg := decide (v < 0), m := v.natAbs, e := -(fxBits : Int) }

def sinFl (cosine : Bool) (x : Fl) : Fl × Conds :=
  match x with
  | .nan => (.nan, {})
  | .inf _ => (.nan, { fiv := true })
  | .fin n m e =>
    if m = 0 then ((if cosine then .fin false 1 0 else .fin n 0 0), {})
    else (bounded ((if cosine then Config.cosBits else Config.sinBits) (fp32Bits x)) (closeSin cosine n m e) 1 (-21), {})

/-- A close value of tanh x for finite nonzero x. -/
def closeTanh (n : Bool) (m : Nat) (e : Int) : Close :=
  if fxOf m (min e 64) ≥ 40 * 2 ^ fxBits then { neg := n, m := 1, e := 0 }
  else if (Nat.log2 m : Int) + e < -12 then
    -- x − x³/3
    let q := fxOf (m * m) (2 * e) / 3
    { neg := n, m := m * (2 ^ fxBits - q), e := e - fxBits }
  else
    let y := 2 * fxOf m e * fxLog2e / 2 ^ fxBits
    let ex := fxExp2 (y % 2 ^ fxBits) * 2 ^ (y / 2 ^ fxBits)
    { neg := n, m := (ex - 2 ^ fxBits) * 2 ^ fxBits / (ex + 2 ^ fxBits), e := -(fxBits : Int) }

def tanhFl (x : Fl) : Fl × Conds :=
  match x with
  | .nan => (.nan, {})
  | .inf n => (.fin n 1 0, {})
  | .fin n m e =>
    if m = 0 then (.fin n 0 0, {})
    else
      let c := closeTanh n m e
      (bounded (Config.tanhBits (fp32Bits x)) c 2 (ulpExp c), {})

/-- What is known of a function's exact result: nothing small, a close value of one that no type holds, or n / d · 2^e. -/
inductive Exact where
  | normal
  | near (c : Close)
  | ratio (n d : Nat) (e : Int)

def exp2Exact : Fl → Exact
  | .fin neg m e =>
    if m = 0 ∨ (¬neg ∧ fxOf m (min e 64) ≥ 2 ^ fxBits) then .normal
    else if fxOf m (min e 64) ≥ 400 * 2 ^ fxBits then .near { neg := false, m := 1, e := -400 }
    else if (wholeFrac neg m e).2 = 0 then .ratio 1 1 (wholeFrac neg m e).1
    else .near { neg := false, m := 1, e := (wholeFrac neg m e).1 }
  | _ => .normal

def rcpExact : Fl → Exact
  | .fin _ m e => if m = 0 then .normal else .ratio 1 m (-e)
  | _ => .normal

def tanhExact : Fl → Exact
  | .fin n m e => if m = 0 then .normal else .near (closeTanh n m e)
  | _ => .normal

def sinExact (cosine : Bool) : Fl → Exact
  | .fin n m e => if m = 0 then .normal else .near (closeSin cosine n m e)
  | _ => .normal

/-- The written value differs from an exact result below the smallest normal of the type (R260). DEDUCED, log 35. -/
def underflows (t : Ty) (b : Nat) : Exact → Bool
  | .normal => false
  | .near c => (Nat.log2 c.m : Int) + c.e < (fmtOf t).emin + ((fmtOf t).p - 1 : Nat)
  | .ratio n d e => log2Ratio n d + e < (fmtOf t).emin + ((fmtOf t).p - 1 : Nat) &&
    (match flOf t b with
     | .fin _ m k => (exactSum [(false, m * d, k), (true, n, e)]).1 != 0
     | _ => false)

/-- A special function of a type: the operand widened to FP32, the function, and the result rounded to the
type by md (R170). -/
def specialOp (g : Fl → Fl × Conds) (exact : Fl → Exact) (t : Ty) (md : Nat) (v : Ops) : BitVec 32 × Conds :=
  let x := flIn t md (v 0)
  let (r, c) := g x
  let (b, c') := writeFl t md r
  (BitVec.ofNat 32 b, { (c.or c') with fuf := underflows t b (exact x) })

def exp2Op := specialOp exp2Fl exp2Exact
def log2Op := specialOp log2Fl (fun _ => .normal)
def rcpOp := specialOp rcpFl rcpExact
def rsqOp := specialOp rsqFl (fun _ => .normal)
def sqrtOp (t : Ty) (md : Nat) (v : Ops) := specialOp (sqrtFl md) (fun _ => .normal) t md v
def tanhOp := specialOp tanhFl tanhExact
def sinOp := specialOp (sinFl false) (sinExact false)
def cosOp := specialOp (sinFl true) (sinExact true)

/-! ### Node and sequence records -/

/-- EXP2 (R275). -/
def execExp2 (f : NodeRec) (s : State) : Host.Outcome State Fault Refusal := runNode (pureNode f (exp2Op f.ty)) s
/-- EXP2 in a sequence (R275). -/
def execExp2Q (s : State) : Host.Outcome State Fault Refusal := runSeq (pureSeq (fun f => exp2Op f.ty)) s

/-- LOG2 (R275). -/
def execLog2 (f : NodeRec) (s : State) : Host.Outcome State Fault Refusal := runNode (pureNode f (log2Op f.ty)) s
/-- LOG2 in a sequence (R275). -/
def execLog2Q (s : State) : Host.Outcome State Fault Refusal := runSeq (pureSeq (fun f => log2Op f.ty)) s

/-- RCP (R275). -/
def execRcp (f : NodeRec) (s : State) : Host.Outcome State Fault Refusal := runNode (pureNode f (rcpOp f.ty)) s
/-- RCP in a sequence (R275). -/
def execRcpQ (s : State) : Host.Outcome State Fault Refusal := runSeq (pureSeq (fun f => rcpOp f.ty)) s

/-- RSQ (R275). -/
def execRsq (f : NodeRec) (s : State) : Host.Outcome State Fault Refusal := runNode (pureNode f (rsqOp f.ty)) s
/-- RSQ in a sequence (R275). -/
def execRsqQ (s : State) : Host.Outcome State Fault Refusal := runSeq (pureSeq (fun f => rsqOp f.ty)) s

/-- SQRT (R275). -/
def execSqrt (f : NodeRec) (s : State) : Host.Outcome State Fault Refusal := runNode (pureNode f (sqrtOp f.ty)) s
/-- SQRT in a sequence (R275). -/
def execSqrtQ (s : State) : Host.Outcome State Fault Refusal := runSeq (pureSeq (fun f => sqrtOp f.ty)) s

/-- TANH (R275). -/
def execTanh (f : NodeRec) (s : State) : Host.Outcome State Fault Refusal := runNode (pureNode f (tanhOp f.ty)) s
/-- TANH in a sequence (R275). -/
def execTanhQ (s : State) : Host.Outcome State Fault Refusal := runSeq (pureSeq (fun f => tanhOp f.ty)) s

/-- SINCOS: the sine to da and the cosine to db (R275). -/
def execSincos (f : NodeRec) (s : State) : Host.Outcome State Fault Refusal :=
  runNode (valueNode f (fun md l =>
    let (a, c) := sinOp f.ty md (opv f l)
    let (b, d) := cosOp f.ty md (opv f l)
    (.emit (some (dataTok l a)) (some (dataTok l b)), c.or d))) s
/-- SINCOS in a sequence: the sine to w(qd), the cosine to w(qd + 1) (R275). -/
def execSincosQ (s : State) : Host.Outcome State Fault Refusal :=
  runSeq (seqRow (fun _ _ _ f v =>
    let (a, c) := sinOp f.ty f.md.toNat (fun _ => v f.qa)
    let (b, d) := cosOp f.ty f.md.toNat (fun _ => v f.qa)
    { value := a, second := some b, conds := c.or d })) s

end Sys2Proof.Machine
end

