-- ==== Sys2Proof/Machine/Tile.lean ====
section
/-! DEFINITION. Tile packets taken apart and put together (R155 to R162, R342), their operands (R343, R344), and
the carry-save values of plinths (R162 to R167). -/
namespace Sys2Proof.Machine

/-! ### Packets -/

/-- One row: the shared exponent of a csa row (0 otherwise) and the elements as bit patterns of the format's
width; a csa element has 128 bits (R159, R162). -/
structure Row where
  exp : Nat := 0
  els : List Nat
  deriving DecidableEq, Repr

/-- A packet taken apart: header, rows, scale bytes in their order, masks. -/
structure Pkt where
  hdr : PktHdr
  rows : List Row
  scales : List Nat := []
  masks : List Nat := []
  deriving DecidableEq, Repr

/-- Bits of an element in a row. -/
def elemBits (fmt : Nat) : Nat := if fmt = 13 then 128 else fmtWidth fmt

/-- The row whose bytes are given. -/
def rowOf (fmt cols : Nat) (bs : List Byte) : Row :=
  let n := leNat (if fmt = 13 then bs.drop 16 else bs)
  { exp := if fmt = 13 then leNat (bs.take 8) % 1024 else 0
    els := (List.range cols).map (fun j => bits n (j * elemBits fmt) (elemBits fmt)) }

/-- The bytes of a row. -/
def Row.bytes (fmt : Nat) (r : Row) : List Byte :=
  let w := elemBits fmt
  let n := r.els.reverse.foldl (fun a x => a * 2 ^ w + x % 2 ^ w) 0
  let body := bytesOfNat (if fmt = 13 then 16 * r.els.length else rowBytes fmt r.els.length) n
  if fmt = 13 then bytesOfNat 16 r.exp ++ body else body

/-- The number and size of the scales: FP32 words, or with SCL 10 the block scales and then run scales. -/
def scaleItems (h : PktHdr) : List Nat :=
  match h.scl with
  | 0 => []
  | 1 => List.replicate h.rows 4
  | 2 => List.replicate h.blocks 1 ++ List.replicate ((h.blocks + 255) / 256) 4
  | _ => [4]

/-- Cut bytes into little-endian numbers of the given sizes. -/
def cutNats : List Nat → List Byte → List Nat
  | [], _ => []
  | n :: t, bs => leNat (bs.take n) :: cutNats t (bs.drop n)

/-- A packet taken apart; none for a header that R416 does not admit. -/
def pktOf (bs : List Byte) : Option Pkt :=
  let h := pktHdr bs
  if !h.ok then none
  else
    let rb := rowBytes h.fmt h.cols
    some {
      hdr := h
      rows := (List.range h.rows).map (fun i => rowOf h.fmt h.cols ((bs.drop (8 + i * rb)).take rb))
      scales := if h.rows = 0 then [] else cutNats (scaleItems h) (bs.drop h.scalesAt)
      masks := if h.rows = 0 ∨ h.spm = 0 then [] else cutNats (List.replicate h.rows 16) (bs.drop h.masksAt) }

/-- Bytes padded with zeros to a length. -/
def padTo (n : Nat) (bs : List Byte) : List Byte := bs ++ List.replicate (n - bs.length) 0

/-- A packet's bytes (R159). -/
def Pkt.bytes (p : Pkt) : List Byte :=
  let h := p.hdr
  let head := bytesOfNat 8 h.toNat
  if h.rows = 0 then head
  else
    let body := head ++ p.rows.flatMap (Row.bytes h.fmt)
    let body := if h.scl = 0 then body
      else padTo h.scalesAt body ++ ((scaleItems h).zip p.scales).flatMap (fun q => bytesOfNat q.1 q.2)
    if h.spm = 0 then body else padTo h.masksAt body ++ p.masks.flatMap (bytesOfNat 16)

/-- Element (i, j). -/
def Pkt.el (p : Pkt) (i j : Nat) : Nat := ((p.rows[i]?).bind (fun r => r.els[j]?)).getD 0

/-- A result packet (R342): format and shape of its own, LASTK, KCH and ROWTAG of port 0. -/
def resultPkt (h : PktHdr) (fmt : Nat) (rows : List (List Nat)) (cols : Nat) : Pkt :=
  { hdr := { h with fmt := fmt, rows := rows.length, cols := cols, scl := 0, spm := 0 }, rows := rows.map (fun r => { els := r }) }

/-- The null packet of a result (R342). -/
def nullPkt (h : PktHdr) (fmt : Nat) : Pkt := { hdr := { h with fmt := fmt, rows := 0 }, rows := [] }

/-- Rows of elements by columns. -/
def columns (cols : Nat) (rows : List (List Nat)) : List (List Nat) :=
  (List.range cols).map (fun j => rows.map (fun r => (r[j]?).getD 0))

/-! ### Element values -/

/-- |value| · 1024 of a QN4 code's table entry (R155). -/
def qnLevel : Nat → Nat
  | 0 => 43
  | 1 => 130
  | 2 => 221
  | 3 => 318
  | 4 => 426
  | 5 => 556
  | 6 => 724
  | _ => 1024

/-- The exact value of a QN4 code (R155). -/
def qnValue (c : Nat) : Fl := if c % 16 < 8 then .fin true (qnLevel (7 - c % 16)) (-10) else .fin false (qnLevel (c % 16 - 8)) (-10)

/-- The exact value of an element of a format 0 to 11, under md bit 3. -/
def elemVal (fmt md n : Nat) : Fl :=
  let t := tyOfCode fmt
  if fmt = 11 then qnValue n
  else if isFloat t then flIn t md (BitVec.ofNat 32 n)
  else let z := intOf t (BitVec.ofNat 32 n); .fin (decide (z < 0)) z.natAbs 0

/-- The scale of element (i, j) as an exact value; 1 without scales (R157, R158). With SCL 10 a block scale of 0
makes the block zero. -/
def Pkt.scaleOf (p : Pkt) (i j : Nat) : Fl :=
  let h := p.hdr
  let at_ := fun k => (p.scales[k]?).getD 0
  match h.scl with
  | 0 => .fin false 1 0
  | 1 => flOf .f32 (at_ i)
  | 2 =>
    let per := (h.cols + 63) / 64
    let q := at_ (i * per + j / 64)
    if q = 0 then .fin false 0 0
    else (mulFl (.fin false q 0) (flOf .f32 (at_ (h.blocks + (i * per + j / 64) / 256)))).1
  | _ => flOf .f32 (at_ 0)

/-- A block of QN4 elements with the scale 0 is zero whatever its run's scale is (R157, R165). -/
def Pkt.blockZero (p : Pkt) (i j : Nat) : Bool :=
  p.hdr.scl == 2 && (p.scales[i * ((p.hdr.cols + 63) / 64) + j / 64]?).getD 0 == 0

/-! ### Operands (R343, R344) -/

/-- The packet on a port; none when it has no packet or a header that R416 does not admit. -/
def portPkt (f : NodeRec) (l : Lane) (p : Nat) : Option Pkt := pktOf (operand f l p).packet

/-- A plain operand: FMT from a list, SCL 00, SPM 0 (R343). -/
def Pkt.plain (p : Pkt) (fmts : List Nat) : Bool := fmts.contains p.hdr.fmt && p.hdr.scl == 0 && p.hdr.spm == 0

def fmtsInt : List Nat := [0, 1, 2, 3, 4, 5]
def fmtsFloat : List Nat := [6, 7, 8, 9, 10]
def fmtsNum : List Nat := fmtsInt ++ fmtsFloat

/-- A second or third operand by element. -/
abbrev Arg := Nat → Nat → Nat

/-- A tile operand applied by its shape (R344). -/
def shaped (h : PktHdr) (q : Pkt) : Option Arg :=
  if q.hdr.rows = h.rows ∧ q.hdr.cols = h.cols then some q.el
  else if q.hdr.rows = 1 ∧ q.hdr.cols = h.cols then some (fun _ j => q.el 0 j)
  else if q.hdr.rows = h.rows ∧ q.hdr.cols = 1 then some (fun i _ => q.el i 0)
  else if q.hdr.rows = 1 ∧ q.hdr.cols = 1 then some (fun _ _ => q.el 0 0)
  else none

/-- The operand on a port: a literal, a scalar token with ax[4], or a tile of format `fmt` (R344, R237). `width` is
the width in which a scalar is read. None is HDR. -/
def tileArg (f : NodeRec) (l : Lane) (h : PktHdr) (port fmt width : Nat) : Option Arg :=
  if litAt f port then
    if f.lit.toNat < 2 ^ width then some (fun _ _ => f.lit.toNat) else none
  else if port = 1 ∧ bits f.ax.toNat 4 1 = 1 then
    some (fun _ _ => (opv f l 1).toNat % 2 ^ width)
  else match portPkt f l port with
    | some q => if q.plain [fmt] then shaped h q else none
    | none => none

/-! ### Results -/

/-- What a tile firing gives: tokens for da and db, conditions, and counts for LOSTTERM and PROBUNDER. -/
structure TileOut where
  da : Option Token
  db : Option Token
  conds : Conds := {}
  lost : Nat := 0
  under : Nat := 0

/-- The same packet on both destinations. -/
def bothPkt (l : Lane) (p : Pkt) (c : Conds := {}) : TileOut :=
  { da := some (tileToken l.tag p.bytes), db := some (tileToken l.tag p.bytes), conds := c }

/-- Add to a region's counter, saturating (R169). -/
def satAdd (a n : Nat) : Nat := min (a + n) (2 ^ 64 - 1)

/-- What a firing of a tile node gives, by md and lane: its results, or a trap's code and operand. -/
abbrev TileOp := Nat → Lane → Except (Nat × Nat) TileOut

/-- A tile node: a firing gives its results, or a trap with the code and operand it names (R345, R431). -/
def tileNode (f : NodeRec) (g : TileOp) : M Unit :=
  lanesM f .both (fun i r l => do
    match g (mdOf i f) l with
    | .error (c, o) => pure (.trap c o 0)
    | .ok o =>
      let out := judge r.sys.trapEn (opv f l 0).toNat (.emit o.da o.db) o.conds
      (match out with
       | .trap _ _ _ _ _ _ => pure ()
       | _ => whenM (0 < o.lost + o.under) (modRegion i.rid (fun r =>
           { r with sys := { r.sys with lostTerm := satAdd r.sys.lostTerm o.lost, probUnder := satAdd r.sys.probUnder o.under } })))
      pure out)

/-- HDR with op0 (R431). -/
def hdrTrap {α : Type} (f : NodeRec) (l : Lane) : Except (Nat × Nat) α := .error (0x22, (opv f l 0).toNat)

/-- ILLOP with op0 (R431). -/
def illop {α : Type} (f : NodeRec) (l : Lane) : Except (Nat × Nat) α := .error (0x12, (opv f l 0).toNat)

/-- A tile operation whose packet on port 0 has a format from a list; a null packet gives a null result of format
`nullFmt` (R342, R343). -/
def onPlain (f : NodeRec) (fmts : List Nat) (nullFmt : Pkt → Nat) (g : Nat → Lane → Pkt → Except (Nat × Nat) TileOut) : TileOp := fun md l =>
  match portPkt f l 0 with
  | none => hdrTrap f l
  | some p =>
    if p.hdr.rows = 0 then .ok (bothPkt l (nullPkt p.hdr (nullFmt p)))
    else if p.plain fmts then g md l p else hdrTrap f l

/-- The format a node's ty names; 14 is port 0's (R343). -/
def tyFmt (f : NodeRec) (p : Pkt) : Nat := if f.ty = .tile then p.hdr.fmt else tyCode f.ty

/-- Each element by a function; the conditions together (R345). -/
def mapEls (p : Pkt) (fmt : Nat) (g : Nat → Nat → Nat → BitVec 32 × Conds) : Pkt × Conds :=
  let rows := (p.rows.zipIdx).map (fun r => (r.1.els.zipIdx).map (fun e => g r.2 e.2 e.1))
  (resultPkt p.hdr fmt (rows.map (fun r => r.map (fun x => x.1.toNat % 2 ^ elemBits fmt))) p.hdr.cols,
   rows.foldl (fun c r => r.foldl (fun c x => c.or x.2) c) {})

/-! ### Carry-save values (R162 to R167) -/

/-- V · 2^k rounded toward −∞. -/
def floorScale (v : Int) (k : Int) : Int := if 0 ≤ k then v * (2 ^ k.toNat : Nat) else v / (2 ^ (-k).toNat : Nat)

/-- A product that is not special: mantissa and exponent. -/
abbrev Term := Int × Int

/-- floor(log2 |m · 2^e|) of a term that is not zero. -/
def termLog (t : Term) : Int := (Nat.log2 t.1.natAbs : Int) + t.2

/-- align_chunk (R163). -/
def alignChunk (ts : List Term) : Int × Int :=
  match ts.filter (fun t => t.1 != 0) with
  | [] => (0, 0)
  | t :: rest =>
    let emax := rest.foldl (fun m x => max m (termLog x)) (termLog t)
    let e := emax + 466
    ((t :: rest).foldl (fun v x => v + floorScale x.1 (x.2 + 512 - e)) 0, e)

/-- A chunk's products as exact values give its csa value, and whether a NaN arose from no NaN (R163). -/
def chunkOf (ps : List (Fl × Bool)) : Csa × Bool :=
  let invalid := ps.any (·.2)
  let nan := ps.any (fun p => p.1.isNan)
  let pos := ps.any (fun p => p.1 == .inf false)
  let neg := ps.any (fun p => p.1 == .inf true)
  if nan then (.nan, invalid)
  else if pos ∧ neg then (.nan, true)
  else if pos then (.posInf, false)
  else if neg then (.negInf, false)
  else
    let (v, e) := alignChunk (ps.filterMap (fun p => match p.1 with | .fin n m e => some ((if n then - (m : Int) else m), e) | _ => none))
    (.fin v (max e 0).toNat, false)

/-- What joining gives: the value, whether a NaN arose from no NaN, whether the exponent was clamped (R164, R429). -/
structure Joined where
  value : Csa
  invalid : Bool := false
  beyond : Bool := false

/-- Keep the exponent within ten bits (R429). -/
def clampCsa (v : Int) (e : Nat) : Joined :=
  if 1023 < e then { value := .fin (if v < 0 then - (2 ^ 55 : Nat) else (2 ^ 55 - 1 : Nat)) 1023, beyond := true }
  else { value := .fin v e }

/-- join (R163, R164, R429). -/
def joinCsa (a b : Csa) : Joined :=
  match a, b with
  | .nan, _ | _, .nan => { value := .nan }
  | .posInf, .negInf | .negInf, .posInf => { value := .nan, invalid := true }
  | .posInf, _ | _, .posInf => { value := .posInf }
  | .negInf, _ | _, .negInf => { value := .negInf }
  | .fin v e, .fin w k =>
    let x := max e k
    let z := floorScale v ((e : Int) - x) + floorScale w ((k : Int) - x)
    if z < - (2 ^ 55 : Nat) ∨ (2 ^ 55 : Nat) ≤ z then clampCsa (floorScale z (-1)) (x + 1) else clampCsa z x

/-- A csa element read from a packet under its row's exponent (R162). -/
def csaOf (exp n : Nat) : Csa :=
  let c := bits n 64 64
  if bits c 56 8 = 0x80 then (match c % 4 with | 1 => .posInf | 2 => .negInf | _ => .nan)
  else .fin (signed 64 (bits n 0 64) + signed 64 c) exp

/-- A csa row in resolved form (R162). -/
def resolveRow (l : List Csa) : Row :=
  let e := l.foldl (fun m x => match x with | .fin _ k => max m k | _ => m) 0
  { exp := e
    els := l.map (fun x => match x with
      | .fin v k => unsigned 64 (floorScale v ((k : Int) - e))
      | .posInf => (0x80 * 2 ^ 56 + 1) * 2 ^ 64
      | .negInf => (0x80 * 2 ^ 56 + 2) * 2 ^ 64
      | .nan => (0x80 * 2 ^ 56 + 3) * 2 ^ 64) }

/-- The csa values of a row. -/
def Row.csa (r : Row) : List Csa := r.els.map (csaOf r.exp)

/-- A csa packet in resolved form. -/
def csaPkt (rows : List (List Csa)) (cols lastk kch rowtag : Nat) : Pkt :=
  { hdr := { fmt := 13, rows := rows.length, cols := cols, scl := 0, spm := 0, lastk := lastk, kch := kch, rowtag := rowtag }
    rows := rows.map resolveRow }

/-- The floating value of a csa value: V · 2^(E − 512). -/
def Csa.fl : Csa → Fl
  | .fin v e => .fin (decide (v < 0)) v.natAbs ((e : Int) - 512)
  | .posInf => .inf false
  | .negInf => .inf true
  | .nan => .nan

/-- NORM's FP32 of a csa value (R163, R166). -/
def normCsa (md : Nat) (x : Csa) : Nat × Conds := writeFl .f32 (md / 4 * 4) x.fl

/-- A denominator after a term, how many terms were lost, and whether the exponent was clamped (R167, R429). -/
def joinTerm (d : Csa) (t : Fl) : Csa × Nat × Bool :=
  match t with
  | .nan => (.nan, 0, false)
  | .inf _ => (.nan, 0, false)
  | .fin n m e =>
    if m = 0 then (d, 0, false)
    else
      let lost := match d with | .fin _ k => decide ((Nat.log2 m : Int) + e < (k : Int) - 458 - 48) | _ => false
      if lost then (d, 1, false)
      else
        let (v, k) := alignChunk [((if n then - (m : Int) else m), e)]
        let j := joinCsa d (.fin v (max k 0).toNat)
        (j.value, 0, j.beyond)

end Sys2Proof.Machine
end

