-- ==== Sys2Proof/Machine/Matrix.lean ====
section
/-! DEFINITION. Plinths: the operands of vitrine slots, accumulator rows, MXROW, MXDRAIN and MXSTEER, the writes
of drain targets (R157, R161 to R165, R359 to R368), and the service of every memory request. -/
namespace Sys2Proof.Machine

/-! ### B operands (R161, R165, R361) -/

/-- B as a slot holds it: K and N (R361); a sparse packet covers 128 indices of K (R161). -/
def slotK (p : Pkt) (tr : Bool) : Nat := if tr then p.hdr.rows else if p.hdr.spm = 1 then 128 else p.hdr.cols
def slotN (p : Pkt) (tr : Bool) : Nat := if tr then p.hdr.cols else p.hdr.rows

/-- The stored elements of column `j`: index along K, place in the row, element (R161, R361). -/
def storedCol (p : Pkt) (tr : Bool) (j : Nat) : List (Nat × Nat × Nat) :=
  if tr then (List.range p.hdr.rows).map (fun x => (x, x, p.el x j))
  else if p.hdr.spm = 1 then
    let mask := (p.masks[j]?).getD 0
    (((List.range 128).filter (fun x => bits mask x 1 == 1)).zipIdx).map (fun q => (q.1, q.2, p.el j q.2))
  else (List.range p.hdr.cols).map (fun x => (x, x, p.el j x))

/-- A product of three exact factors, and whether it is a NaN that arose from no NaN (R163). -/
def mul3 (a b c : Fl) : Fl × Bool :=
  let (x, i) := mulFl a b
  let (y, k) := mulFl x c
  (y, (i || k) && !(a.isNan || b.isNan || c.isNan))

/-- The products of one block of QN4 elements (R165): its exact sum under the block's scales; 0 where the block's own scale is 0. -/
def qnPartial (p : Pkt) (j h : Nat) (a : List Fl) (scale : Fl) (l : List (Nat × Nat × Nat)) : Fl × Bool :=
  if p.blockZero j (64 * h) then (.fin false 0 0, false)
  else
    let s := p.scaleOf j (64 * h)
    let ps := (l.filter (fun q => q.2.1 / 64 == h && q.1 < a.length)).map (fun q => mulFl ((a[q.1]?).getD (.fin false 0 0)) (qnValue q.2.2))
    let (z, i) := sumFl 0 (ps.map (·.1))
    let (y, k) := mul3 z s scale
    (y, i || ps.any (·.2) || k)

/-- The products of a row of A with column `j` of B (R365): indices below min(K, COLS); a column at or beyond N, and an
element that is not stored, is zero. -/
def products (p : Pkt) (tr : Bool) (a : List Fl) (scale : Fl) (j : Nat) : List (Fl × Bool) :=
  let a := a.take (slotK p tr)
  if p.hdr.fmt = 11 ∧ j < slotN p tr then
    let col := storedCol p tr j
    (List.range ((p.hdr.cols + 63) / 64)).map (fun h => qnPartial p j h a scale col)
    ++ (if p.hdr.spm = 1 then (a.zipIdx.filter (fun q => col.all (fun c => c.1 != q.2))).map (fun q => mul3 q.1 (.fin false 0 0) scale) else [])
  else
    let col := if j < slotN p tr then storedCol p tr j else []
    (a.zipIdx).map (fun q => mul3 q.1 (match col.find? (fun c => c.1 == q.2) with
      | some c => elemVal p.hdr.fmt 0 c.2.2
      | none => .fin false 0 0) scale)

/-! ### Plinths held and configured (R364, R431) -/

def plinthAt (s : State) (hall k : Nat) : Plinth := ((hallAt s hall).plinths[k]?).getD {}

def modPlinth (hall k : Nat) (g : Plinth → Plinth) : M Unit := modHall hall (fun h =>
  match h.plinths[k]? with
  | some p => { h with plinths := h.plinths.set k (g p) }
  | none => h)

/-- The slots of a node's group: `n` from the first, wrapping; 0 means 16 (R365, R369). -/
def slotGroup (ex : Nat) : List Nat :=
  let n := if bits ex 8 4 = 0 then 16 else bits ex 8 4
  (List.range n).map (fun i => (bits ex 4 4 + i) % 16)

/-- The plinth's setting for a region that holds it and the given slots (R364, R431). -/
def plinthOk (p : Plinth) (rid : Nat) (slots : List Nat) : Option MxCfg :=
  if p.holder = some rid ∧ slots.all (fun k => kget p.slotHolder k == some rid) then p.cfg else none

/-- The lowest-numbered slot of a group whose packet has a given KCH (R365). -/
def chunkSlot (p : Plinth) (group : List Nat) (kch : Nat) : Option VitSlot :=
  ((List.range 16).filter group.contains).findSome? (fun k => match kget p.slots k with
    | some v => if (pktHdr v.packet).kch = kch then some v else none
    | none => none)

/-- A fresh accumulator row (R162). -/
def freshRow (tag n : Nat) : AccRow := { tag := tag, complete := false, nextChunk := 0, elems := List.replicate n (.fin 0 0) }

/-- Join a chunk's values element by element, with the conditions it raises (R163, R164, R429). -/
def joinChunk (row : List Csa) (l : List (Csa × Bool)) : List Csa × Conds :=
  let js := (row.zip l).map (fun q => (joinCsa q.1 q.2.1, q.2.2))
  (js.map (·.1.value),
   js.foldl (fun c j => c.or { fiv := j.1.invalid || j.2, fof := j.1.beyond }) {})

/-- Read a row of an A packet: elements and scale (R365). -/
def aRow (p : Pkt) (i : Nat) : List Fl × Fl :=
  ((((p.rows[i]?).map (·.els)).getD []).map (elemVal p.hdr.fmt 0), p.scaleOf i 0)

/-! ### Drain targets (R363) -/

/-- Raise the trap of a drain write that cannot be made: no held issue, no pending poison. -/
def drainTrap (q : Req) (k row code w9 : Nat) : M Unit := modRegion q.rid (fun r => { r with
  traps := r.traps ++ [{ code := code, operand := lane0Op q.lane, iv := q.wid.getD 0, act := r.seq.act, cmd := min r.seq.index 63
                         cell := q.cell, node := q.node, laneMask := 0, word8 := q.va, word9 := w9, drain := some (k, row) }] })

/-- The FP32 bytes that a row resolves to, as NORM does with md 0 (R162, R166). -/
def drainBytes (row : AccRow) : List Byte :=
  let r := resolveRow row.elems
  r.csa.flatMap (fun x => bytesOfNat 4 (normCsa 0 x).1)

/-- A completed row's write starts: its place in the target's buffer, or the shadow's, is checked and translated. The
row stays bound until the write is made. -/
def startDrain (hall k row : Nat) : M Unit := do
  let s ← get'
  let p := plinthAt s hall k
  match kget p.rows row, p.drain, p.holder with
  | some x, some d, some rid =>
    match kget s.regions rid with
    | none => pure ()
    | some r =>
      -- a row that emits poison writes nothing, as at a write stream
      if x.poison.isSome then modPlinth hall k (fun p => { p with rows := kdel p.rows row })
      else do
      let n ← fresh
      let (cell, node, tag) := x.completed
      let h := handleAt s r.vf r.ctx (bits d.ref 40 8)
      let off := bits d.ref 0 32 + (x.tag + 2 ^ 24 - d.base) % 2 ^ 24 * d.pitch
      let q : Req := { rid := rid, cell := cell, node := node, lane := { tag := tag, ops := [] }, wid := boundId r tag
                       op := .drain k row (drainBytes x), ty := .f32, da := .discard, db := .discard, va := off, loc := none
                       len := 4 * x.elems.length, phase := .issued, number := n }
      match checkAccess (if d.shadow then h.shadow else h.visible) .write off q.len 1 with
      | .error c => drainTrap q k row c 0
      | .ok (some sh, a) => addReq { q with va := a, loc := some (scratchAddr sh a) }
      | .ok (none, a) =>
        match tlbLookup s hall r.vf a with
        | some (pa, e) =>
          if e.write then addReq { q with va := a, loc := some pa }
          else drainTrap { q with va := a } k row (rightFault s r.vf a .write).code (gpaOf s r.vf a)
        | none => do
          let w ← joinWalk hall r.vf a
          countMiss rid
          addReq { q with va := a, phase := .walking, walk := w, need := a }
  | _, _, _ => pure ()

/-! ### MXROW's rows (R365, R366) -/

/-- Firings may issue in a region: no trap is pending and its cells run. -/
def mayIssue (r : Region) : Bool :=
  r.trap.isNone && r.traps.isEmpty && r.saved.isNone && r.state != .frozen && r.state != .snapshotting && r.state != .free

/-- What a packet at a plinth can do now. -/
inductive RowMove where
  | wait
  | drop
  /-- the plinth's slot is in the wrong mode -/
  | fault
  | row (acc : Nat) (next : AccRow) (conds : Conds)
  | emit
  deriving Repr

/-- The next move of a packet in work (R164, R365, R366). DEDUCED, log 48. -/
def rowMove (s : State) (hall k : Nat) (j : PlinthJob) (f : NodeRec) : RowMove :=
  let p := plinthAt s hall k
  match plinthOk p j.rid (slotGroup f.ex.toNat), portPkt f j.lane 0 with
  | some cfg, some a =>
    let room := roomAll s j.rid j.cell ((if cfg.keep then [] else [(f.da, j.lane.tag)]) ++ [(f.db, j.lane.tag)])
    if a.hdr.rows ≤ j.row then (if room || j.retry then .emit else .wait)
    else if j.row = 0 ∧ ¬room ∧ ¬j.retry ∧ ¬cfg.keep then .wait
    else
      let rt := (a.hdr.rowtag + j.row) % 2 ^ 24
      let old := kget p.rows (rt % 128)
      let row := old.getD (freshRow rt cfg.n)
      match chunkSlot p (slotGroup f.ex.toNat) a.hdr.kch with
      | none => .wait
      | some v =>
        if row.tag ≠ rt ∨ row.complete ∨ row.nextChunk ≠ a.hdr.kch then .wait
        else match pktOf v.packet with
        | none => .fault
        | some b =>
          if (b.hdr.spm == 1) != cfg.sparse then .fault
          else
            let (els, scale) := aRow a j.row
            let (joined, c) := joinChunk row.elems ((List.range cfg.n).map (fun x => chunkOf (products b v.tr els scale x)))
            .row (rt % 128) { row with
              elems := joined, nextChunk := row.nextChunk + 1, complete := a.hdr.lastk == 1, completed := (j.cell, j.node, j.lane.tag) } c
  | _, _ => .drop

/-- The code with which rows emit final poison: the first of theirs (R438). -/
def rowsPoison (l : List AccRow) : Option Nat := l.findSome? (·.poison)

/-- The packet that leaves when a packet's last row has entered, in emit mode (R366). -/
def mxOut (p : Plinth) (cfg : MxCfg) (a : Pkt) : Pkt :=
  if a.hdr.lastk = 1 then
    csaPkt ((List.range a.hdr.rows).map (fun i => ((kget p.rows ((a.hdr.rowtag + i) % 128)).getD (freshRow 0 cfg.n)).elems)) cfg.n 1 a.hdr.kch a.hdr.rowtag
  else csaPkt [] cfg.n 0 a.hdr.kch a.hdr.rowtag

/-- Send a finished packet's tokens, or the poison of a row in their place. -/
def mxSend (j : PlinthJob) (f : NodeRec) (da : Option Token) : M Unit := do
  let s ← get'
  let i : Issue := { rid := j.rid, cell := j.cell, node := j.node, lanes := [j.lane], retry := j.retry }
  match j.poison with
  | some c => sendBoth i f ((poisonTok j.lane c).after s j.lane.past)
  | none => do
    (match da with | some t => sendLane i f.da (t.after s j.lane.past) | none => pure ())
    sendLane i f.db ((completion j.lane).after s j.lane.past)

/-- The node of a packet in work, while its region is there. -/
def jobNode (s : State) (j : PlinthJob) : Option (Region × NodeRec) :=
  (kget s.regions j.rid).bind (fun r => ((kget r.active.nodes (j.cell * 32 + j.node)).bind (fun e => nodeFields e.record)).map (fun f => (r, f)))

/-- A packet at a plinth waits. -/
def jobWaits (s : State) (hall k : Nat) (j : PlinthJob) : Bool :=
  match jobNode s j with
  | none => false
  | some (r, f) => !mayIssue r || (match rowMove s hall k j f with | .wait => true | _ => false)

/-- A row, or the end, of packet number `n` at a plinth. -/
def jobStep (hall k n : Nat) (j : PlinthJob) : M Unit := do
  let s ← get'
  let p := plinthAt s hall k
  let drop := modPlinth hall k (fun p => { p with jobs := p.jobs.eraseIdx n })
  match jobNode s j with
  | none => drop
  | some (r, f) =>
    let keeps := p.cfg.any (·.keep)
    let raise := fun (c : Nat) => do
      drop
      raiseNode j.rid j.cell j.node j.retry { code := c, operand := lane0Op j.lane, row := j.row } [(0, j.lane, if keeps then [f.db] else [f.da, f.db])]
    match rowMove s hall k j f with
    | .wait => pure ()
    | .drop => drop
    | .fault => raise 0x23
    | .row acc x c =>
      match fate r.sys.trapEn c with
      | .trap code => raise code
      | o => do
        let bad := match o with | .poison code => some (match j.poison with | some d => min d code | none => code) | _ => j.poison
        modPlinth hall k (fun p => { p with rows := kset p.rows acc x, jobs := p.jobs.set n { j with row := j.row + 1, poison := bad } })
        whenM (x.complete && p.drain.isSome && keeps) (startDrain hall k acc)
        stir j.rid
    | .emit => do
      drop
      match p.cfg, portPkt f j.lane 0 with
      | some cfg, some a => do
        let bad := if !cfg.keep && a.hdr.lastk == 1 then rowsPoison ((List.range a.hdr.rows).filterMap (fun i => kget p.rows ((a.hdr.rowtag + i) % 128))) else none
        mxSend { j with poison := match j.poison with | some c => some c | none => bad } f (if cfg.keep then none else some (tileToken j.lane.tag (mxOut p cfg a).bytes))
        whenM (!cfg.keep && a.hdr.lastk == 1) (modPlinth hall k (fun p => { p with
          rows := p.rows.filter (fun q => !((List.range a.hdr.rows).map (fun i => (a.hdr.rowtag + i) % 128)).contains q.1) }))
      | _, _ => pure ()

/-- One step of the earliest packet at a plinth that does not wait; false when all wait. A row that waits holds back the rows of its own
packet alone (R164, R365). -/
def plinthStep (hall k : Nat) : M Bool := do
  let s ← get'
  match ((plinthAt s hall k).jobs.zipIdx).find? (fun p => !jobWaits s hall k p.1) with
  | none => pure false
  | some (j, n) => do
    jobStep hall k n j
    pure true

def settlePlinthN (hall k : Nat) : Nat → M Unit
  | 0 => pure ()
  | fuel + 1 => do
    let go ← plinthStep hall k
    if go then settlePlinthN hall k fuel else pure ()

/-- Let a plinth's packets go on as far as they can. -/
def settlePlinth (hall k : Nat) : M Unit := do
  let s ← get'
  settlePlinthN hall k (130 * (plinthAt s hall k).jobs.length + 1)

/-- MXROW (R365, R366): the packet enters behind those in work. A null packet has no rows to join (R160). -/
def execMxrow (f : NodeRec) (s : State) : Host.Outcome State Fault Refusal :=
  runNode (do
    let i ← myIssue
    lanesM f .access (fun i r l => do
      let s ← get'
      match plinthOk (plinthAt s r.hall (f.ex.toNat % 4)) i.rid (slotGroup f.ex.toNat), portPkt f l 0 with
      | none, _ => pure (.trap 0x23 (opv f l 0).toNat 0)
      | some cfg, none => pure (.trap 0x22 (opv f l 0).toNat 0 0 0 (if cfg.keep then some [f.db] else none))
      | some cfg, some a =>
        if a.hdr.rows ≠ 0 ∧ (a.hdr.fmt ≠ tyCode cfg.afmt ∨ 1 < a.hdr.scl ∨ a.hdr.spm = 1) then
          pure (.trap 0x22 (opv f l 0).toNat 0 0 0 (if cfg.keep then some [f.db] else none))
        else do
          let j : PlinthJob := { rid := i.rid, cell := i.cell, node := i.node, lane := l, row := i.row, retry := i.retry }
          modPlinth r.hall (f.ex.toNat % 4) (fun p => { p with jobs := if i.retry then j :: p.jobs else p.jobs ++ [j] })
          pure (.emit none none))
    match i with
    | some (_, r) => settlePlinth r.hall (f.ex.toNat % 4)
    | none => pure ()) s

/-! ### MXDRAIN and MXSTEER (R367, R368) -/

/-- A matched instance goes back to be tried again. -/
def putBack (i : Issue) (l : Lane) : M LaneOut := do
  modRegion i.rid (fun r => { r with ready := insertInst { cell := i.cell, node := i.node, lane := l } r.ready })
  pure (.emit none none)

/-- The row tags that MXDRAIN takes. -/
def drainTags (f : NodeRec) (l : Lane) : List Nat :=
  (List.range (if f.lit.toNat = 0 then 128 else f.lit.toNat)).map (fun i => ((opv f l 0).toNat + i) % 2 ^ 24)

/-- The rows bound to some tags, when all are complete (R367). -/
def completeRows (p : Plinth) (ts : List Nat) : Option (List AccRow) :=
  let rs := ts.filterMap (fun t => match kget p.rows (t % 128) with | some x => if x.tag = t ∧ x.complete then some x else none | none => none)
  if rs.length = ts.length then some rs else none

/-- MXDRAIN (R367, R431). -/
def execMxdrain (f : NodeRec) (s : State) : Host.Outcome State Fault Refusal :=
  runNode (do
    let i ← myIssue
    lanesM f .access (fun i r l => do
      let s ← get'
      let k := f.ex.toNat % 4
      let p := plinthAt s r.hall k
      match plinthOk p i.rid [] with
      | none => pure (.trap 0x23 (opv f l 0).toNat 0)
      | some cfg =>
        if !cfg.keep ∨ p.drain.isSome then pure (.trap 0x23 (opv f l 0).toNat 0)
        else match completeRows p (drainTags f l) with
        | none => putBack i l
        | some rs => do
          modPlinth r.hall k (fun p => { p with rows := p.rows.filter (fun q => !((drainTags f l).map (· % 128)).contains q.1) })
          match rowsPoison rs with
          | some c => pure (.poison c)
          | none =>
          let t := tileToken l.tag (csaPkt (rs.map (·.elems)) cfg.n 1 0 ((opv f l 0).toNat % 2 ^ 24)).bytes
          pure (.emit (some t) (some t)))
    match i with
    | some (_, r) => settlePlinth r.hall (f.ex.toNat % 4)
    | none => pure ()) s

/-- MXSTEER (R368, R431): the packet leaves on the data out-ports of the entry's mask, in ascending order. -/
def execMxsteer (f : NodeRec) (s : State) : Host.Outcome State Fault Refusal :=
  runNode (lanesM f .both (fun i r l => do
    let e := (opv f l 1).toNat
    if 7 < e then pure (.trap 0x12 (opv f l 0).toNat 0)
    else do
      let s ← get'
      let mask := kgetD r.routes e 0
      each ((List.finRange 16).filter (fun k => bits mask k.val 1 == 1)) (fun k =>
        sendLane i (.out k) (({ operand f l 0 with tag := l.tag } : Token).after s l.past))
      pure (.emit none none))) s

/-! ### The service of requests (R130) -/

/-- A drain target's write is made and its row freed, or the region traps (R363, R445, R453). -/
def serveDrain (q : Req) (k row : Nat) (data : List Byte) : M Unit := do
  let s ← get'
  let hall := ridHall q.rid
  match pieces s q .write 0 data.length with
  | .error (.fault e va) => do
    dropReq q.number
    drainTrap { q with va := va } k row e.code (gpaOf s (reqVf s q) va)
  | .error e => stopPiece q e
  | .ok l =>
    if (pieceLines l).any (fun x => pinnedByOther s x none) then putReq { q with phase := .pinned }
    else match silentPiece s l with
    | some c => do
      dropReq q.number
      drainTrap q k row c 0
    | none => do
      dropReq q.number
      each l (fun p => performWrite hall (reqVf s q) (q.va + p.2.1) p.1 ((data.drop p.2.1).take p.2.2))
      modPlinth hall k (fun p => { p with rows := kdel p.rows row })
      settlePlinth hall k

/-- A request is a lane's access, which is presented in lane order (R261). -/
def laneAccess : MemOp → Bool
  | .load | .store _ | .loadFE _ | .storeFE _ _ | .amo _ _ _ | .cas _ _ => true
  | _ => false

/-- The memory system serves a request that has its address (R130). -/
def serveReq (q : Req) : M Unit := do
  let s ← get'
  if laneAccess q.op && behindLane s q then putReq { q with phase := behindPhase s q }
  else match q.op with
  | .load => serveLoad q
  | .store d => serveStore q d
  | .loadFE _ => arriveFE q
  | .storeFE _ _ => arriveFE q
  | .amo op arg md => serveAtomic q (fun old => let (v, c) := amoNew q.ty op md old arg; (some v, c))
  | .cas e n => serveAtomic q (fun old => (if old = e then some n else none, {}))
  | .fence sc => serveFence q sc
  | .reply a b => serveReply q a b
  | .posted d serial => servePosted q d serial
  | .drain k row d => serveDrain q k row d

end Sys2Proof.Machine
end

