-- ==== Sys2Proof/Machine/TileNodes.lean ====
section
/-! DEFINITION. The tile-vector nodes VMAP to VMASK (R340 to R358). -/
namespace Sys2Proof.Machine

/-! ### Elementwise -/

/-- The scalar operation of a VMAP sub-opcode (R347); none for a control word that BFX refuses. -/
def scalarByCode (sub : Nat) (t : Ty) (md : Nat) (v : Ops) : Option (BitVec 32 × Conds) :=
  match sub with
  | 0x04 => some (addOp t md v)
  | 0x05 => some (subOp t md v)
  | 0x06 => some (mulOp t md v)
  | 0x07 => some (mulhOp t md v)
  | 0x09 => some (divOp t md v)
  | 0x0A => some (remOp t md v)
  | 0x0B => some (minOp t md v)
  | 0x0C => some (maxOp t md v)
  | 0x0D => some (absOp t md v)
  | 0x0E => some (negOp t md v)
  | 0x10 => some (andOp t md v)
  | 0x11 => some (orOp t md v)
  | 0x12 => some (xorOp t md v)
  | 0x13 => some (notOp t md v)
  | 0x14 => some (shlOp t md v)
  | 0x15 => some (shrOp t md v)
  | 0x16 => some (sarOp t md v)
  | 0x17 => some (rotlOp t md v)
  | 0x18 => some (clzOp t md v)
  | 0x19 => some (popcOp t md v)
  | 0x1A => if bfOk t (v 1) then some (bfxOp t md v) else none
  | 0x20 => some (faddOp t md v)
  | 0x21 => some (fsubOp t md v)
  | 0x22 => some (fmulOp t md v)
  | 0x24 => some (fminOp t md v)
  | 0x25 => some (fmaxOp t md v)
  | 0x26 => some (fabsOp t md v)
  | 0x27 => some (fnegOp t md v)
  | 0x2C => some (exp2Op t md v)
  | 0x2D => some (log2Op t md v)
  | 0x2E => some (rcpOp t md v)
  | 0x2F => some (rsqOp t md v)
  | 0x30 => some (sqrtOp t md v)
  | 0x32 => some (tanhOp t md v)
  | 0x33 => some (frndOp t md v)
  | 0x34 => some (fscaleOp t md v)
  | _ => some (fclassOp t md v)

/-- VMAP (R347). -/
def vmapPlain (f : NodeRec) (md : Nat) (l : Lane) (p : Pkt) : Except (Nat × Nat) TileOut :=
  let sub := f.ex.toNat % 256
  match vmapSub sub with
  | none => hdrTrap f l
  | some (arity, float, _) =>
    let fmt := p.hdr.fmt
    let t := tyOfCode fmt
    let out := if sub = 0x35 then 1 else fmt
    if (float && !fmtsFloat.contains fmt) || (!float && !fmtsInt.contains fmt) || (sub != 0x35 && tyFmt f p != fmt) then hdrTrap f l
    else
      let arg := if arity = 1 then some (fun _ _ => 0) else if sub = 0x34 then tileArg f l p.hdr 1 0 32 else tileArg f l p.hdr 1 fmt (fmtWidth fmt)
      match arg with
      | none => hdrTrap f l
      | some g =>
        let v := fun (i j x : Nat) => scalarByCode sub t md (fun k => BitVec.ofNat 32 (if k = 0 then x else g i j))
        if (p.rows.zipIdx).any (fun r => (r.1.els.zipIdx).any (fun e => (v r.2 e.2 e.1).isNone)) then illop f l
        else
          let (q, c) := mapEls p out (fun i j x => (v i j x).getD (0, {}))
          .ok (bothPkt l q c)

/-- VMAP (R347). -/
def vmapOut (f : NodeRec) : TileOp :=
  onPlain f fmtsNum (fun p => if f.ex.toNat % 256 = 0x35 then 1 else tyFmt f p) (vmapPlain f)
/-- VMAP (R347). -/
def execVmap (f : NodeRec) (s : State) : Host.Outcome State Fault Refusal := runNode (tileNode f (vmapOut f)) s

/-- VFMA: the exact product and sum, rounded once (R348). -/
def vfmaOut (f : NodeRec) : TileOp :=
  onPlain f fmtsFloat (tyFmt f) (fun md l p =>
    let fmt := p.hdr.fmt
    let t := tyOfCode (tyFmt f p)
    match tileArg f l p.hdr 1 fmt (fmtWidth fmt), tileArg f l p.hdr 2 fmt (fmtWidth fmt) with
    | some a, some b =>
      let (q, c) := mapEls p (tyFmt f p) (fun i j x =>
        flResult t md (ffmaVal (md % 4) (elemVal fmt md x) (elemVal fmt md (a i j)) (elemVal fmt md (b i j))))
      .ok (bothPkt l q c)
    | _, _ => hdrTrap f l)
/-- VFMA: the exact product and sum, rounded once (R348). -/
def execVfma (f : NodeRec) (s : State) : Host.Outcome State Fault Refusal := runNode (tileNode f (vfmaOut f)) s

/-- VCMPM: a mask of the elements for which the condition holds (R350). -/
def vcmpmOut (f : NodeRec) : TileOp :=
  onPlain f fmtsNum (fun _ => 5) (fun md l p =>
    let fmt := p.hdr.fmt
    if tyCode f.ty ≠ fmt then hdrTrap f l
    else match tileArg f l p.hdr 1 fmt (fmtWidth fmt) with
    | none => hdrTrap f l
    | some a =>
      let t := tyOfCode fmt
      let (q, _) := mapEls p 5 (fun i j x =>
        let v : Ops := fun k => BitVec.ofNat 32 (if k = 0 then x else a i j)
        if isFloat t then fcmpOp t md v else cmpOp t md v)
      .ok (bothPkt l q))
/-- VCMPM: a mask of the elements for which the condition holds (R350). -/
def execVcmpm (f : NodeRec) (s : State) : Host.Outcome State Fault Refusal := runNode (tileNode f (vcmpmOut f)) s

/-! ### Reductions and scans (R349) -/

/-- The identity of a max or min: the least or greatest value, an infinity where the format has one (R349). -/
def extreme (t : Ty) (least : Bool) : BitVec 32 :=
  if isFloat t then BitVec.ofNat 32 (if t = .f8e4 then maxBits t least else infBits t least)
  else ofInt t (if least then intMin t else intMax t)

/-- A reduction's value over elements: 0 sum, 1 max, 2 min (R349). A lone NaN comes out canonical, as of any extreme (R150, R272). -/
def reduce (op fmt : Nat) (ty : Ty) (md : Nat) (els : List Nat) : BitVec 32 × Conds :=
  let t := tyOfCode fmt
  let xs := els.map (BitVec.ofNat 32)
  match op with
  | 0 =>
    if isFloat t then flResult ty md (sumFl (md % 4) (els.map (elemVal fmt md)))
    else intResult ty (md % 2 == 1) ((xs.map (intOf t)).foldl (· + ·) 0)
  | k =>
    let two := fun (a b : BitVec 32) =>
      let v : Ops := fun i => if i = 0 then a else b
      (if isFloat t then (if k = 1 then fmaxOp t 0 v else fminOp t 0 v) else (if k = 1 then maxOp t 0 v else minOp t 0 v)).1
    match xs with
    | [] => (extreme t (k == 1), {})
    | x :: rest => (rest.foldl two (two x x), {})

/-- The type check of VRED and VSCAN (R349). -/
def reduceOk (op : Nat) (f : NodeRec) (p : Pkt) : Bool :=
  if op = 0 then (fmtsFloat.contains p.hdr.fmt && fmtsFloat.contains (tyFmt f p)) || (fmtsInt.contains p.hdr.fmt && fmtsInt.contains (tyFmt f p))
  else tyFmt f p == p.hdr.fmt

/-- The rows of a packet as elements. -/
def Pkt.els (p : Pkt) : List (List Nat) := p.rows.map (·.els)

/-- Conditions of many results together. -/
def allConds (l : List (BitVec 32 × Conds)) : Conds := l.foldl (fun c x => c.or x.2) {}

/-- The low bits of results. -/
def lowNats (fmt : Nat) (l : List (BitVec 32 × Conds)) : List Nat := l.map (fun x => x.1.toNat % 2 ^ fmtWidth fmt)

/-- VRED (R349). -/
def vred (op : Nat) (f : NodeRec) : TileOp :=
  onPlain f fmtsNum (tyFmt f) (fun md l p =>
    if !reduceOk op f p then hdrTrap f l
    else
      let fmt := tyFmt f p
      let col := bits f.ex.toNat 2 1 = 1
      let lines := if col then columns p.hdr.cols p.els else p.els
      let rs := lines.map (reduce op p.hdr.fmt (tyOfCode fmt) md)
      let rows := if col then [lowNats fmt rs] else (lowNats fmt rs).map (fun x => [x])
      .ok (bothPkt l (resultPkt p.hdr fmt rows (if col then p.hdr.cols else 1)) (allConds rs)))

/-- VRED.SUM (R349). -/
def vredSumOut (f : NodeRec) : TileOp :=
  vred 0 f
/-- VRED.SUM (R349). -/
def execVredSum (f : NodeRec) (s : State) : Host.Outcome State Fault Refusal := runNode (tileNode f (vredSumOut f)) s
/-- VRED.MAX (R349). -/
def vredMaxOut (f : NodeRec) : TileOp :=
  vred 1 f
/-- VRED.MAX (R349). -/
def execVredMax (f : NodeRec) (s : State) : Host.Outcome State Fault Refusal := runNode (tileNode f (vredMaxOut f)) s
/-- VRED.MIN (R349). -/
def vredMinOut (f : NodeRec) : TileOp :=
  vred 2 f
/-- VRED.MIN (R349). -/
def execVredMin (f : NodeRec) (s : State) : Host.Outcome State Fault Refusal := runNode (tileNode f (vredMinOut f)) s

/-- VSCAN (R349). -/
def vscan (op : Nat) (f : NodeRec) : TileOp :=
  onPlain f fmtsNum (tyFmt f) (fun md l p =>
    if !reduceOk op f p then hdrTrap f l
    else
      let fmt := tyFmt f p
      let col := bits f.ex.toNat 2 1 = 1
      let excl := bits f.ex.toNat 3 1
      let lines := if col then columns p.hdr.cols p.els else p.els
      let rs := lines.map (fun xs => (List.range xs.length).map (fun j => reduce op p.hdr.fmt (tyOfCode fmt) md (xs.take (j + 1 - excl))))
      let out := rs.map (lowNats fmt)
      let rows := if col then columns p.hdr.rows out else out
      .ok (bothPkt l (resultPkt p.hdr fmt rows p.hdr.cols) (allConds rs.flatten)))

/-- VSCAN.SUM (R349). -/
def vscanSumOut (f : NodeRec) : TileOp :=
  vscan 0 f
/-- VSCAN.SUM (R349). -/
def execVscanSum (f : NodeRec) (s : State) : Host.Outcome State Fault Refusal := runNode (tileNode f (vscanSumOut f)) s
/-- VSCAN.MAX (R349). -/
def vscanMaxOut (f : NodeRec) : TileOp :=
  vscan 1 f
/-- VSCAN.MAX (R349). -/
def execVscanMax (f : NodeRec) (s : State) : Host.Outcome State Fault Refusal := runNode (tileNode f (vscanMaxOut f)) s
/-- VSCAN.MIN (R349). -/
def vscanMinOut (f : NodeRec) : TileOp :=
  vscan 2 f
/-- VSCAN.MIN (R349). -/
def execVscanMin (f : NodeRec) (s : State) : Host.Outcome State Fault Refusal := runNode (tileNode f (vscanMinOut f)) s

/-! ### Selection -/

/-- Zero rows up to a number. -/
def padRows (n width : Nat) (l : List (List Nat)) : List (List Nat) := l ++ List.replicate (n - l.length) (List.replicate width 0)

/-- The mask on port 1 as one list along the axis (R350, R351). -/
def maskLine (f : NodeRec) (l : Lane) (col : Bool) : Option (List Nat) :=
  match portPkt f l 1 with
  | some q => if q.plain [5] ∧ q.hdr.rows ≠ 0 ∧ (if col then q.hdr.rows = 1 else q.hdr.cols = 1) then some q.els.flatten else none
  | none => none

/-- A packet and a count (R351). -/
def pktCount (l : Lane) (p : Pkt) (n : Nat) : TileOut :=
  { da := some (tileToken l.tag p.bytes), db := some (dataTok l (BitVec.ofNat 32 n)) }

/-- VCOMPRESS and VEXPAND answer a null packet with a null packet and a count of 0 (R342, R351). -/
def moveOn (f : NodeRec) (g : Nat → Lane → Pkt → Except (Nat × Nat) TileOut) : TileOp := fun md l =>
    match portPkt f l 0 with
    | none => hdrTrap f l
    | some p => if p.hdr.rows = 0 then .ok (pktCount l (nullPkt p.hdr p.hdr.fmt) 0) else if p.plain fmtsNum then g md l p else hdrTrap f l

/-- VCOMPRESS (R351). -/
def vcompressOut (f : NodeRec) : TileOp :=
  moveOn f (fun _ l p =>
    let col := bits f.ex.toNat 2 1 == 1
    let lines := if col then columns p.hdr.cols p.els else p.els
    match maskLine f l col with
    | none => hdrTrap f l
    | some m =>
      if m.length ≠ lines.length then hdrTrap f l
      else
        let picked := ((lines.zip m).filter (fun q => q.2 != 0)).map (·.1)
        let out := padRows lines.length (if col then p.hdr.rows else p.hdr.cols) picked
        let rows := if col then columns p.hdr.rows out else out
        .ok (pktCount l (resultPkt p.hdr p.hdr.fmt rows p.hdr.cols) picked.length))
/-- VCOMPRESS (R351). -/
def execVcompress (f : NodeRec) (s : State) : Host.Outcome State Fault Refusal := runNode (tileNode f (vcompressOut f)) s

/-- The lines of VEXPAND: the k-th selected line is line k of the source, another is the fallback's (R351). -/
def expandLines (zero : List Nat) (fallback : Nat → List Nat) : List Nat → Nat → List (List Nat) → List (List Nat)
  | [], _, _ => []
  | m :: ms, i, src =>
    if m ≠ 0 then ((src.head?).getD zero) :: expandLines zero fallback ms (i + 1) src.tail
    else fallback i :: expandLines zero fallback ms (i + 1) src

/-- VEXPAND (R351). -/
def vexpandOut (f : NodeRec) : TileOp :=
  moveOn f (fun _ l p =>
    let col := bits f.ex.toNat 2 1 == 1
    let lines := if col then columns p.hdr.cols p.els else p.els
    let width := if col then p.hdr.rows else p.hdr.cols
    match maskLine f l col with
    | none => hdrTrap f l
    | some m =>
      let zero := List.replicate width 0
      let other : Option (Option (List (List Nat))) :=
        if (kget l.ops 2).isSome then
          match portPkt f l 2 with
          | some q =>
            if q.plain [p.hdr.fmt] ∧ (if col then q.hdr.rows = p.hdr.rows ∧ q.hdr.cols = m.length else q.hdr.rows = m.length ∧ q.hdr.cols = p.hdr.cols)
            then some (some (if col then columns q.hdr.cols q.els else q.els)) else none
          | none => none
        else some none
      match other with
      | none => hdrTrap f l
      | some o =>
        let out := expandLines zero (fun i => (o.bind (fun x => x[i]?)).getD zero) m 0 lines
        let rows := if col then columns width out else out
        .ok (pktCount l (resultPkt p.hdr p.hdr.fmt rows (if col then m.length else p.hdr.cols)) (m.filter (· != 0)).length))
/-- VEXPAND (R351). -/
def execVexpand (f : NodeRec) (s : State) : Host.Outcome State Fault Refusal := runNode (tileNode f (vexpandOut f)) s

/-- One element ranks before another: the greater first, −0 equal to +0, NaN below every number (R352). -/
def ranksBefore (fmt a b : Nat) : Bool :=
  let x := elemVal fmt 0 a
  let y := elemVal fmt 0 b
  if x.isNan then false else if y.isNan then true
  else match cmpFl x y with | some z => decide (0 < z) | none => false

/-- Row indices of a column, best first, equal values by the lower row (R352). -/
def rankRows (fmt : Nat) (xs : List Nat) : List Nat :=
  (xs.zipIdx.foldl (fun (acc : List (Nat × Nat)) p => place p acc) []).map (·.2)
where
  /-- put an element behind those that rank before or equal to it -/
  place (p : Nat × Nat) : List (Nat × Nat) → List (Nat × Nat)
    | [] => [p]
    | q :: t => if ranksBefore fmt p.1 q.1 then p :: q :: t else q :: place p t

/-- VTOPK; with `idx` da receives the row indices instead of a mask (R352). -/
def vtopk (idx : Bool) (f : NodeRec) : TileOp := fun _ l =>
    match portPkt f l 0 with
    | none => hdrTrap f l
    | some p =>
      let k := f.lit.toNat
      let fmt := p.hdr.fmt
      if p.hdr.rows = 0 then
        .ok { da := some (tileToken l.tag (nullPkt p.hdr (if idx then 1 else 5)).bytes), db := some (tileToken l.tag (nullPkt p.hdr fmt).bytes) }
      else if !p.plain fmtsNum || tyCode f.ty != fmt || k == 0 || p.hdr.rows < k then hdrTrap f l
      else
        let cols := columns p.hdr.cols p.els
        let tops := cols.map (fun xs => (rankRows fmt xs).take k)
        let vals := columns k ((cols.zip tops).map (fun q => q.2.map (fun i => (q.1[i]?).getD 0)))
        let first :=
          if idx then resultPkt p.hdr 1 (columns k tops) p.hdr.cols
          else resultPkt p.hdr 5 ((List.range p.hdr.rows).map (fun i => tops.map (fun t => if t.contains i then 1 else 0))) p.hdr.cols
        .ok { da := some (tileToken l.tag first.bytes), db := some (tileToken l.tag (resultPkt p.hdr fmt vals p.hdr.cols).bytes) }

/-- VTOPK (R352). -/
def vtopkOut (f : NodeRec) : TileOp :=
  vtopk false f
/-- VTOPK (R352). -/
def execVtopk (f : NodeRec) (s : State) : Host.Outcome State Fault Refusal := runNode (tileNode f (vtopkOut f)) s
/-- VTOPK.IDX (R352). -/
def vtopkIdxOut (f : NodeRec) : TileOp :=
  vtopk true f
/-- VTOPK.IDX (R352). -/
def execVtopkIdx (f : NodeRec) (s : State) : Host.Outcome State Fault Refusal := runNode (tileNode f (vtopkIdxOut f)) s

/-! ### Softmax (R353) -/

/-- An FP32 step: the exact value rounded to nearest-even, with FIV and FOF but no FUF, which only a written
result raises. -/
def f32Step (x : Fl) (bad : Bool) : Fl × Conds :=
  let (b, c) := writeFl .f32 0 x
  (flOf .f32 b, { fiv := bad, fof := c.fof })

/-- EXP2 of an FP32 value as an FP32 value (R170). DEDUCED, log 35. -/
def exp2Step (x : Fl) : Fl × Conds :=
  let (t, c) := exp2Fl x
  let (y, d) := f32Step t false
  (y, { fof := c.fof || d.fof })

/-- A row's softmax terms by column: none for a column not selected. -/
def softTerms (c m : Fl) (row : List (Option Fl)) : List (Option Fl) × Conds :=
  let ts := row.map (fun o => o.map (fun x =>
    let (d, b1) := sumFl 0 [x, negFl m]
    let (p, b2) := mulFl c d
    let (z, c1) := f32Step p (b1 || b2)
    let (t, c2) := exp2Step z
    (t, c1.or c2)))
  (ts.map (fun o => o.map (·.1)), ts.foldl (fun a o => match o with | some x => a.or x.2 | none => a) {})

/-- The greatest of some values, NaN ignored (R272). -/
def maxFl (l : List Fl) : Option Fl :=
  l.foldl (fun m x => if x.isNan then m else match m with | none => some x | some y => if flLess y x then some x else some y) none

/-- One row of VSOFT: output bits, conditions, terms lost (R353, R167). -/
def softRow (ty : Ty) (md : Nat) (c : Fl) (row : List (Option Fl)) : List Nat × Conds × Nat :=
  match maxFl (row.filterMap id) with
  | none => (row.map (fun o => if o.isSome then canonNan ty else 0), {}, 0)
  | some m =>
    let (ts, c1) := softTerms c m row
    let (sum, lost, beyond) := (ts.filterMap id).foldl (fun (acc : Csa × Nat × Bool) t =>
      let (d, n, o) := joinTerm acc.1 t
      (d, acc.2.1 + n, acc.2.2 || o)) (.fin 0 0, 0, false)
    let (r, _) := rcpFl (flOf .f32 (normCsa 0 sum).1)
    let (r, _) := f32Step r false
    let outs := ts.map (fun o => o.map (fun t => flResult ty md (mulFl t r)))
    (outs.map (fun o => match o with | some x => x.1.toNat % 2 ^ tyWidth ty | none => 0),
     outs.foldl (fun a o => match o with | some x => a.or x.2 | none => a) (c1.or { fof := beyond }), lost)

/-- VSOFT (R353). -/
def vsoftOut (f : NodeRec) : TileOp :=
  onPlain f fmtsFloat (tyFmt f) (fun md l p =>
    let fmt := p.hdr.fmt
    let c := if f.lit = 0 then .fin false 1 0 else flOf .f32 f.lit.toNat
    let mask := if (kget l.ops 1).isSome then tileArg f l p.hdr 1 5 8 else some (fun _ _ => 1)
    match mask with
    | none => hdrTrap f l
    | some g =>
      let rs := (p.rows.zipIdx).map (fun r =>
        softRow (tyOfCode (tyFmt f p)) md c ((r.1.els.zipIdx).map (fun e => if g r.2 e.2 = 0 then none else some (elemVal fmt md e.1))))
      .ok { bothPkt l (resultPkt p.hdr (tyFmt f p) (rs.map (·.1)) p.hdr.cols) (rs.foldl (fun a r => a.or r.2.1) {}) with
            lost := rs.foldl (fun n r => n + r.2.2) 0 })
/-- VSOFT (R353). -/
def execVsoft (f : NodeRec) (s : State) : Host.Outcome State Fault Refusal := runNode (tileNode f (vsoftOut f)) s

/-! ### Formats (R354) -/

/-- The least e with |x| ≤ F · 2^e for a value m · 2^k. -/
def ceilLog2 (m : Nat) (k : Int) (big : Nat) : Int :=
  let e := log2Ratio m big + k
  let (q, r, _) := shiftDiv m big (k - e)
  if q = 1 ∧ r = 0 then e else e + 1

/-- The row exponent of VQUANT (R354). -/
def quantExp (big : Nat) (row : List Fl) : Int :=
  match maxFl (row.filterMap (fun x => match x with | .fin _ m e => if m = 0 then none else some (.fin false m e) | _ => none)) with
  | some (.fin _ m k) => max (-149) (ceilLog2 m k big)
  | _ => 0

/-- An element of VQUANT: x · 2^−e with saturation (R354). DEDUCED, log 36. -/
def quantEl (ty : Ty) (md : Nat) (e : Int) (x : Fl) : BitVec 32 × Conds :=
  let y := match x with | .fin n m k => .fin n m (k - e) | o => o
  if ty = .i8 then ((ftoiVal .i8 (4 + md % 4) y).1, {}) else flResult ty (md % 4 + 4 + bits md 3 1 * 8) (y, false)

/-- VQUANT (R354). -/
def vquantOut (f : NodeRec) : TileOp :=
  onPlain f [6, 7, 8] (fun _ => tyCode f.ty) (fun md l p =>
    let big := match f.ty with | .f8e4 => 448 | .f8e5 => 57344 | _ => 127
    let rs := p.rows.map (fun r =>
      let xs := r.els.map (elemVal p.hdr.fmt md)
      let e := quantExp big xs
      (xs.map (quantEl f.ty md e), (roundRatio .f32 0 false 1 1 e).1))
    let q := resultPkt p.hdr (tyCode f.ty) (rs.map (fun r => lowNats (tyCode f.ty) r.1)) p.hdr.cols
    .ok (bothPkt l { q with hdr := { q.hdr with scl := 1 }, scales := rs.map (·.2) } (allConds (rs.flatMap (·.1)))))
/-- VQUANT (R354). -/
def execVquant (f : NodeRec) (s : State) : Host.Outcome State Fault Refusal := runNode (tileNode f (vquantOut f)) s

/-- VDEQ (R354, R157). -/
def vdeqOut (f : NodeRec) : TileOp :=
  fun md l =>
    match portPkt f l 0 with
    | none => hdrTrap f l
    | some p =>
      if p.hdr.rows = 0 then .ok (bothPkt l (nullPkt p.hdr (tyCode f.ty)))
      else if 11 < p.hdr.fmt ∨ p.hdr.scl = 0 ∨ p.hdr.spm = 1 then hdrTrap f l
      else
        let (q, c) := mapEls p (tyCode f.ty) (fun i j x => flResult f.ty md (mulFl (elemVal p.hdr.fmt md x) (p.scaleOf i j)))
        .ok (bothPkt l q c)
/-- VDEQ (R354, R157). -/
def execVdeq (f : NodeRec) (s : State) : Host.Outcome State Fault Refusal := runNode (tileNode f (vdeqOut f)) s

/-- VCVT (R354). -/
def vcvtOut (f : NodeRec) : TileOp :=
  onPlain f fmtsNum (fun _ => tyCode f.ty) (fun md l p =>
    let src := tyOfCode p.hdr.fmt
    let (q, c) := mapEls p (tyCode f.ty) (fun _ _ x =>
      let v : Ops := fun _ => BitVec.ofNat 32 x
      if isFloat src then (if isFloat f.ty then fcvtOp src f.ty md v else ftoiOp src f.ty md v)
      else if isFloat f.ty then itofOp src f.ty md v
      else intResult f.ty (bits md 2 1 == 1) (intOf src (v 0)))
    .ok (bothPkt l q c))
/-- VCVT (R354). -/
def execVcvt (f : NodeRec) (s : State) : Host.Outcome State Fault Refusal := runNode (tileNode f (vcvtOut f)) s

/-! ### Shapes and headers (R355 to R358) -/

/-- VTRANSP (R355). -/
def vtranspOut (f : NodeRec) : TileOp :=
  onPlain f fmtsNum (tyFmt f) (fun _ l p =>
    .ok (bothPkt l (resultPkt p.hdr p.hdr.fmt (columns p.hdr.cols p.els) p.hdr.rows)))
/-- VTRANSP (R355). -/
def execVtransp (f : NodeRec) (s : State) : Host.Outcome State Fault Refusal := runNode (tileNode f (vtranspOut f)) s

/-- Blocks of a row (R156). -/
def PktHdr.perRow (h : PktHdr) : Nat := (h.cols + 63) / 64

/-- The packets VSLICE and VCAT take: FMT 0 to 10 or 13 with SCL 00 or 01, or FMT 11 with its block scales (R355). -/
def shapeOk (p : Pkt) : Bool :=
  (fmtsNum.contains p.hdr.fmt && p.hdr.scl ≤ 1) || (p.hdr.fmt == 13 && p.hdr.scl == 0) || (p.hdr.fmt == 11 && p.hdr.scl ≤ 2)

/-- The scales of rows `r0` to `r0 + nr − 1`, and of blocks `b0` to `b0 + nb − 1` of each with SCL 10. -/
def sliceScales (p : Pkt) (r0 nr b0 nb : Nat) : List Nat :=
  match p.hdr.scl with
  | 1 => (p.scales.drop r0).take nr
  | 2 => (List.range nr).flatMap (fun i => ((p.scales.drop ((r0 + i) * p.hdr.perRow + b0)).take nb)) ++ p.scales.drop p.hdr.blocks
  | 3 => p.scales
  | _ => []

/-- A block of rows and columns of a packet (R355). -/
def slicePkt (p : Pkt) (r0 nr c0 nc : Nat) : Pkt :=
  { hdr := { p.hdr with rows := nr, cols := nc, rowtag := (p.hdr.rowtag + r0) % 2 ^ 24 }
    rows := ((p.rows.drop r0).take nr).map (fun r => { r with els := (r.els.drop c0).take nc })
    scales := sliceScales p r0 nr (c0 / 64) ((nc + 63) / 64)
    masks := (p.masks.drop r0).take nr }

/-- VSLICE (R355). -/
def vsliceOut (f : NodeRec) : TileOp :=
  fun _ l =>
    match portPkt f l 0 with
    | none => hdrTrap f l
    | some p =>
      let w := (opv f l 1).toNat
      let r0 := bits w 0 8
      let nr := bits w 8 8
      let c0 := bits w 16 8
      let nc := bits w 24 8
      if p.hdr.rows = 0 then .ok (bothPkt l (nullPkt p.hdr p.hdr.fmt))
      else if !shapeOk p || 128 < nr || nc == 0 || p.hdr.rows < r0 + nr || p.hdr.cols < c0 + nc
          || (p.hdr.fmt == 11 && (c0 % 64 != 0 || (nc % 64 != 0 && c0 + nc != p.hdr.cols))) then hdrTrap f l
      else if nr = 0 then
        .ok (bothPkt l { hdr := { p.hdr with rows := 0, cols := nc, scl := 0, spm := 0, rowtag := (p.hdr.rowtag + r0) % 2 ^ 24 }, rows := [] })
      else .ok (bothPkt l (slicePkt p r0 nr c0 nc))
/-- VSLICE (R355). -/
def execVslice (f : NodeRec) (s : State) : Host.Outcome State Fault Refusal := runNode (tileNode f (vsliceOut f)) s

/-- Two csa rows side by side under the larger exponent (R355). -/
def joinRows (fmt : Nat) (a b : Row) : Row :=
  if fmt ≠ 13 then { els := a.els ++ b.els }
  else
    let e := max a.exp b.exp
    let lift := fun (x : Csa) => match x with | .fin v k => .fin (floorScale v ((k : Int) - e)) e | o => o
    { resolveRow ((a.csa ++ b.csa).map lift) with exp := e }

/-- VCAT (R355); QN4 packets join when they carry one run scale, and side by side when the first has whole blocks
(DEDUCED, log 17). -/
def vcatPkt (col : Bool) (p q : Pkt) : Option Pkt :=
  let h := p.hdr
  if !shapeOk p || !shapeOk q || h.spm == 1 || q.hdr.spm == 1 || q.hdr.fmt != h.fmt || q.hdr.scl != h.scl then none
  else if h.scl = 2 ∧ p.scales.drop h.blocks ≠ q.scales.drop q.hdr.blocks then none
  else if !col then
    if q.hdr.cols ≠ h.cols ∨ 128 < h.rows + q.hdr.rows then none
    else
      let sc := if h.scl = 2 then p.scales.take h.blocks ++ q.scales else p.scales ++ q.scales
      some { p with hdr := { h with rows := h.rows + q.hdr.rows }, rows := p.rows ++ q.rows, scales := sc }
  else if q.hdr.rows ≠ h.rows ∨ 128 < h.cols + q.hdr.cols ∨ (h.scl = 1 ∧ p.scales ≠ q.scales) ∨ (h.fmt = 11 ∧ h.cols % 64 ≠ 0) then none
  else
    let sc := if h.scl = 2 then
        (List.range h.rows).flatMap (fun i => ((p.scales.drop (i * h.perRow)).take h.perRow) ++ ((q.scales.drop (i * q.hdr.perRow)).take q.hdr.perRow))
          ++ p.scales.drop h.blocks
      else p.scales
    some { hdr := { h with cols := h.cols + q.hdr.cols }, rows := (p.rows.zip q.rows).map (fun r => joinRows h.fmt r.1 r.2), scales := sc }

/-- VCAT (R355). -/
def vcatOut (f : NodeRec) : TileOp :=
  fun _ l =>
    match portPkt f l 0 with
    | none => hdrTrap f l
    | some p =>
      if p.hdr.rows = 0 then .ok (bothPkt l (nullPkt p.hdr p.hdr.fmt))
      else match (portPkt f l 1).bind (vcatPkt (bits f.ex.toNat 2 1 == 1) p) with
      | some r => .ok (bothPkt l r)
      | none => hdrTrap f l
/-- VCAT (R355). -/
def execVcat (f : NodeRec) (s : State) : Host.Outcome State Fault Refusal := runNode (tileNode f (vcatOut f)) s

/-- A header field by its number (R356). -/
def hdrFieldOf (h : PktHdr) : Nat → Nat
  | 0 => h.fmt
  | 1 => h.rows
  | 2 => h.cols
  | 3 => h.scl
  | 4 => h.spm
  | 5 => h.lastk
  | 6 => h.kch
  | _ => h.rowtag

/-- VHDR: the field on da, the packet on db (R356); of a null packet the field is 0 (R342). DEDUCED, log 51. -/
def vhdrOut (f : NodeRec) : TileOp :=
  fun _ l =>
    match portPkt f l 0 with
    | none => hdrTrap f l
    | some p =>
      let field := if p.hdr.rows = 0 then 0 else hdrFieldOf p.hdr (f.ex.toNat % 8)
      .ok { da := some (dataTok l (BitVec.ofNat 32 field)), db := some (tileToken l.tag (operand f l 0).packet) }
/-- VHDR: the field on da, the packet on db (R356). -/
def execVhdr (f : NodeRec) (s : State) : Host.Outcome State Fault Refusal := runNode (tileNode f (vhdrOut f)) s

/-- A packet with fewer rows, their scales and masks with them (R356). -/
def cutRows (p : Pkt) (n : Nat) : Pkt :=
  { p with hdr := { p.hdr with rows := n }, rows := p.rows.take n, scales := sliceScales p 0 n 0 p.hdr.perRow, masks := p.masks.take n }

/-- A header field written; none where it may not be, or the value does not fit (R356). -/
def setField (p : Pkt) (field v : Nat) : Option Pkt :=
  match field with
  | 1 => if v ≤ p.hdr.rows then some (cutRows p v) else none
  | 5 => if v ≤ 1 then some { p with hdr := { p.hdr with lastk := v } } else none
  | 6 => if v ≤ 65535 then some { p with hdr := { p.hdr with kch := v } } else none
  | 7 => if v < 2 ^ 24 then some { p with hdr := { p.hdr with rowtag := v } } else none
  | _ => none

/-- VHDR writing (R356); a null packet passes as it is (R342). DEDUCED, log 51. -/
def vhdrSetOut (f : NodeRec) : TileOp :=
  fun _ l =>
    match portPkt f l 0 with
    | none => hdrTrap f l
    | some p =>
      if p.hdr.rows = 0 then .ok (bothPkt l p)
      else match setField p (f.ex.toNat % 8) (opv f l 1).toNat with
      | some q => .ok (bothPkt l q)
      | none => hdrTrap f l
/-- VHDR writing (R356). -/
def execVhdrSet (f : NodeRec) (s : State) : Host.Outcome State Fault Refusal := runNode (tileNode f (vhdrSetOut f)) s

/-- VBCAST (R357). -/
def vbcastOut (f : NodeRec) : TileOp :=
  fun _ l =>
    let rows := f.lit.toNat % 256
    let cols := f.lit.toNat / 256 % 256
    let v := (opv f l 0).toNat % 2 ^ tyWidth f.ty
    let h : PktHdr := { fmt := tyCode f.ty, rows := rows, cols := cols, scl := 0, spm := 0, lastk := 1, kch := 0, rowtag := 0 }
    .ok (bothPkt l { hdr := h, rows := List.replicate rows { els := List.replicate cols v } })
/-- VBCAST (R357). -/
def execVbcast (f : NodeRec) (s : State) : Host.Outcome State Fault Refusal := runNode (tileNode f (vbcastOut f)) s

/-- VMASK with a test of the elements that are kept (R358). -/
def vmask (f : NodeRec) (keep : Lane → Pkt → Option (Nat → Nat → Bool)) : TileOp :=
  onPlain f fmtsNum (tyFmt f) (fun _ l p =>
    match keep l p with
    | none => hdrTrap f l
    | some k =>
      if 2 ^ fmtWidth p.hdr.fmt ≤ f.lit.toNat then hdrTrap f l
      else
        let (q, _) := mapEls p p.hdr.fmt (fun i j x => (BitVec.ofNat 32 (if k i j then x else f.lit.toNat), {}))
        .ok (bothPkt l q))

/-- VMASK.KEEP (R358). -/
def vmaskKeepOut (f : NodeRec) : TileOp :=
  vmask f (fun l p => (tileArg f l p.hdr 1 5 8).map (fun g i j => g i j != 0))
/-- VMASK.KEEP (R358). -/
def execVmaskKeep (f : NodeRec) (s : State) : Host.Outcome State Fault Refusal := runNode (tileNode f (vmaskKeepOut f)) s
/-- VMASK.CAUSAL (R358). -/
def vmaskCausalOut (f : NodeRec) : TileOp :=
  vmask f (fun l p => some (fun i j => decide (((p.hdr.rowtag + j : Nat) : Int) ≤ (opv f l 1).toInt + i)))
/-- VMASK.CAUSAL (R358). -/
def execVmaskCausal (f : NodeRec) (s : State) : Host.Outcome State Fault Refusal := runNode (tileNode f (vmaskCausalOut f)) s
/-- VMASK.LENGTH (R358). -/
def vmaskLengthOut (f : NodeRec) : TileOp :=
  vmask f (fun l p => some (fun _ j => decide (((p.hdr.rowtag + j : Nat) : Int) < (opv f l 1).toInt)))
/-- VMASK.LENGTH (R358). -/
def execVmaskLength (f : NodeRec) (s : State) : Host.Outcome State Fault Refusal := runNode (tileNode f (vmaskLengthOut f)) s

end Sys2Proof.Machine
end

