-- ==== Sys2Proof/Machine/Attention.lean ====
section
/-! DEFINITION. The attention nodes SCORE, PAIR, ACC, NORM and ROPE (R369 to R374). -/
namespace Sys2Proof.Machine

/-- A node of one lane that reads plinths: its results under the region's dispositions, and what it changes when it
does not trap. `feeds` gives the destinations that a lane which traps would have fed (R401). -/
def attentionNode (f : NodeRec) (feeds : Issue → Region → Lane → Option (List Dest))
    (g : Issue → Region → Lane → M (Except (Nat × Nat) (TileOut × M Unit))) : M Unit :=
  lanesM f .access (fun i r l => do
    match ← g i r l with
    | .error (c, o) => pure (.trap c o 0 0 0 (feeds i r l))
    | .ok (o, change) =>
      match judge r.sys.trapEn (opv f l 0).toNat (.emit o.da o.db) o.conds with
      | .trap c op src _ _ _ => pure (.trap c op src 0 0 (feeds i r l))
      | out => do
        change
        whenM (0 < o.lost + o.under) (modRegion i.rid (fun r =>
          { r with sys := { r.sys with lostTerm := satAdd r.sys.lostTerm o.lost, probUnder := satAdd r.sys.probUnder o.under } }))
        pure out)

/-- An attention node that changes nothing but what it sends. -/
def quietNode (f : NodeRec) (g : Issue → Region → State → Lane → Except (Nat × Nat) TileOut) : M Unit :=
  attentionNode f (fun _ _ _ => none) (fun i r l => do
    let s ← get'
    pure ((g i r s l).map (fun o => (o, pure ()))))

/-- PLINTH with op0 (R431). -/
def plinthTrap {α : Type} (f : NodeRec) (l : Lane) : Except (Nat × Nat) α := .error (0x23, (opv f l 0).toNat)

/-! ### SCORE (R370) -/

/-- One score: the chunk's value times c, exact, rounded once to FP32 by nearest-even. -/
def scoreOf (c : Fl) (q : Csa × Bool) : BitVec 32 × Conds :=
  let (x, i) := mulFl q.1.fl c
  flResult .f32 0 (x, i || q.2)

/-- What SCORE gives for a key packet, by the plinth whose slot holds the queries (R370, R431). -/
def scoreOut (f : NodeRec) (p : Plinth) (rid : Nat) (l : Lane) : Except (Nat × Nat) TileOut :=
  let slot := bits f.ex.toNat 4 4
  match plinthOk p rid [slot], portPkt f l 0 with
  | none, _ => plinthTrap f l
  | _, none => hdrTrap f l
  | some cfg, some key =>
    if key.hdr.rows = 0 then .ok { da := none, db := none }
    else match (kget p.slots slot).bind (fun v => (pktOf v.packet).map (fun b => (v, b))) with
    | none => plinthTrap f l
    | some (v, b) =>
      if !key.plain [tyCode cfg.afmt] ∨ key.hdr.cols ≠ slotK b v.tr then hdrTrap f l
      else
        let rows := (List.range (slotN b v.tr)).map (fun q => (List.range key.hdr.rows).map (fun x =>
          scoreOf (flOf .f32 f.lit.toNat) (chunkOf (products b v.tr (aRow key x).1 (.fin false 1 0) q))))
        let out := resultPkt key.hdr 6 (rows.map (fun r => r.map (fun x => x.1.toNat))) key.hdr.rows
        .ok (bothPkt l out (rows.foldl (fun c r => c.or (allConds r)) {}))

/-- SCORE (R370, R431). -/
def execScore (f : NodeRec) (s : State) : Host.Outcome State Fault Refusal :=
  runNode (quietNode f (fun i r s l => scoreOut f (plinthAt s r.hall (f.ex.toNat % 4)) i.rid l)) s

/-! ### PAIR (R371) -/

/-- PAIR: both packets under one tag and row tag leave as one pair token on da; a null value packet is consumed. -/
def pairOut (f : NodeRec) (l : Lane) : Except (Nat × Nat) TileOut :=
  match portPkt f l 1 with
  | none => hdrTrap f l
  | some v =>
    if v.hdr.rows = 0 then .ok { da := none, db := none }
    else match portPkt f l 0 with
    | none => hdrTrap f l
    | some sc =>
      if sc.hdr.rows ≠ 0 ∧ sc.plain [6] ∧ v.plain [7, 8, 9, 10] ∧ sc.hdr.cols = v.hdr.rows then
        .ok { da := some (tileToken l.tag (sc.bytes ++ v.bytes)), db := none }
      else hdrTrap f l

/-- PAIR (R371). -/
def execPair (f : NodeRec) (s : State) : Host.Outcome State Fault Refusal := runNode (quietNode f (fun _ _ _ l => pairOut f l)) s

/-! ### ACC (R372) -/

/-- The two packets of a pair token. -/
def pairOf (bs : List Byte) : Option (Pkt × Pkt) :=
  match pktOf bs, pktOf (bs.drop (pktHdr bs).length) with
  | some sc, some v => if sc.hdr.rows ≠ 0 ∧ sc.plain [6] ∧ v.plain [7, 8, 9, 10] ∧ sc.hdr.cols = v.hdr.rows then some (sc, v) else none
  | _, _ => none

/-- Multiply a csa value by 2^−k, exactly while the exponent lasts (R372). -/
def lowerCsa (k : Nat) : Csa → Csa
  | .fin v e => if k ≤ e then .fin v (e - k) else .fin (if 64 < k - e then (if v < 0 then -1 else 0) else floorScale v ((e : Int) - k)) 0
  | x => x

/-- The least integer at or above a finite value. -/
def ceilFl (neg : Bool) (m : Nat) (e : Int) : Int :=
  let z : Int := if neg then - (m : Int) else m
  Int.neg (floorScale (-z) e)

/-- One query row as ACC keeps it. -/
structure SoftRow where
  max : Option Int
  den : Csa
  num : List Csa
  conds : Conds := {}
  lost : Nat := 0
  under : Nat := 0

/-- A probability in the probability format: nearest-even, saturated (R168). -/
def probOf (afmt : Ty) (t : Fl) : Nat := (writeFl afmt 4 t).1

/-- Join one row of scores and the values they weight (R167, R168, R372). DEDUCED, log 49. -/
def softJoin (afmt : Ty) (v : Pkt) (scores : List Fl) (x : SoftRow) : SoftRow :=
  let made (fiv : Bool) : SoftRow := { x with num := x.num.map (fun _ => .nan), den := .nan, conds := { fiv := fiv } }
  let nanRow : Bool := x.num.all (· == .nan)
  match maxFl scores with
  | none => made false
  | some m =>
    if m.isNan then made false
    else if m = .inf true ∧ x.max.isNone then x
    else if m = .inf false ∨ nanRow then made (m == .inf false)
    else
      let mn : Int := match m, x.max with
        | .fin n a e, some k => max k (ceilFl n a e)
        | .fin n a e, none => ceilFl n a e
        | _, k => k.getD 0
      let by_ := match x.max with | some k => (mn - k).toNat | none => 0
      let num := x.num.map (lowerCsa by_)
      let ts := scores.map (fun sc =>
        let (d, i) := sumFl 0 [sc, .fin (decide (0 < mn)) mn.natAbs 0]
        let (z, c1) := f32Step d i
        let (t, c2) := exp2Step z
        (t, c1.or c2))
      let (den, lost, beyond) := ts.foldl (fun (acc : Csa × Nat × Bool) t =>
        let (d, n, o) := joinTerm acc.1 t.1
        (d, acc.2.1 + n, acc.2.2 || o)) (lowerCsa by_ x.den, 0, false)
      let ps := ts.map (fun t => flOf afmt (probOf afmt t.1))
      let under := (ts.filter (fun t => match t.1 with | .fin _ a _ => a != 0 && flOf afmt (probOf afmt t.1) == .fin false 0 (fmtOf afmt).emin | _ => false)).length
      let chunks := (List.range v.hdr.cols).map (fun d => chunkOf ((ps.zipIdx).map (fun p => mulFl p.1 (elemVal v.hdr.fmt 0 (v.el p.2 d)))))
      let (joined, c) := joinChunk num chunks
      { max := some mn, den := den, num := joined, lost := lost, under := under
        conds := ts.foldl (fun a t => a.or t.2) (c.or { fof := beyond }) }

/-- The number of a tag's state in a region. -/
def accKey (i : Issue) (tag : Nat) : Nat := (i.cell * 32 + i.node) * 4096 + tag

/-- Accumulator rows that ACC holds carry this tag, which no packet has. -/
def accRowTag : Nat := 2 ^ 24

/-- The finished result of a tag, when its count is reached (R372). -/
def accOut (l : Lane) (st : AccTag) (num : List (List Csa)) : TileOut :=
  if st.count = some st.joined ∧ ¬num.isEmpty then
    match st.poison with
    | some c => { da := some (poisonTok l c), db := some (poisonTok l c) }
    | none =>
    { da := some (tileToken l.tag (csaPkt num ((num.head?.map List.length).getD 0) 1 0 0).bytes)
      db := some (tileToken l.tag (csaPkt (st.dens.map (fun d => [d])) 1 1 0 0).bytes) }
  else { da := none, db := none }

/-- Keep a tag's state, or free it with its rows when its result leaves. -/
def accKeep (i : Issue) (r : Region) (k tag : Nat) (st : AccTag) (num : List (List Csa)) (out : TileOut) : M Unit :=
  if out.da.isSome then do
    modRegion i.rid (fun r => { r with acc := kdel r.acc (accKey i tag) })
    modPlinth r.hall k (fun p => { p with rows := p.rows.filter (fun q => !st.rows.contains q.1) })
  else do
    modRegion i.rid (fun r => { r with acc := kset r.acc (accKey i tag) st })
    modPlinth r.hall k (fun p => { p with rows := (st.rows.zip num).foldl (fun m q =>
      kset m q.1 { tag := accRowTag, complete := false, nextChunk := 0, elems := q.2 }) p.rows })

/-- The lowest free accumulator rows, when there are enough. -/
def freeRows (p : Plinth) (n : Nat) : Option (List Nat) :=
  let l := ((List.range 128).filter (fun k => (kget p.rows k).isNone)).take n
  if l.length = n then some l else none

/-- A pair joins its tag (R372). `none` waits for rows. -/
def accPair (f : NodeRec) (i : Issue) (r : Region) (l : Lane) (p : Plinth) (cfg : MxCfg) :
    Option (Except (Nat × Nat) (TileOut × M Unit)) :=
  let k := f.ex.toNat % 4
  match pairOf (operand f l 0).packet with
  | none => some (hdrTrap f l)
  | some (sc, v) =>
    let nq := sc.hdr.rows
    let d := v.hdr.cols
    if (cfg.afmt ≠ .f8e4 ∧ cfg.afmt ≠ .f8e5) ∨ cfg.n < d then some (plinthTrap f l)
    else if litAt f 1 ∧ f.lit = 0 then some (illop f l)
    else
      let old := kget r.acc (accKey i l.tag)
      let st : AccTag := old.getD { maxima := [], dens := [], rows := [], joined := 0, count := if litAt f 1 then some f.lit.toNat else none }
      let first := st.rows.isEmpty
      let nums := st.rows.map (fun q => ((kget p.rows q).map (·.elems)).getD [])
      if !first ∧ (st.rows.length ≠ nq ∨ (nums.head?.map List.length) ≠ some d) then some (hdrTrap f l)
      else match (if first then freeRows p nq else some st.rows) with
      | none => none
      | some rows =>
        let before : List SoftRow := if first then List.replicate nq { max := none, den := .fin 0 0, num := List.replicate d (.fin 0 0) }
          else (st.maxima.zip (st.dens.zip nums)).map (fun q => { max := q.1, den := q.2.1, num := q.2.2 })
        let after := (before.zip sc.rows).map (fun q => softJoin cfg.afmt v (q.2.els.map (elemVal 6 0)) q.1)
        let st' : AccTag := { st with maxima := after.map (·.max), dens := after.map (·.den), rows := rows, joined := st.joined + 1 }
        let num := after.map (·.num)
        let out := accOut l st' num
        let group := slotGroup f.ex.toNat
        let slot := (group[p.rotor % group.length]?).getD 0
        some (.ok ({ out with
            conds := after.foldl (fun c x => c.or x.conds) {}, lost := after.foldl (fun n x => n + x.lost) 0, under := after.foldl (fun n x => n + x.under) 0 },
          do
            modPlinth r.hall k (fun p => { p with slots := kset p.slots slot { packet := v.bytes, tr := true, ref := none }, rotor := p.rotor + 1 })
            accKeep i r k l.tag st' num out))

/-- A finish count arrives (R372, R424). -/
def accCount (f : NodeRec) (i : Issue) (r : Region) (l : Lane) (p : Plinth) : Except (Nat × Nat) (TileOut × M Unit) :=
  let n := (opv f l 1).toNat
  let old := kget r.acc (accKey i l.tag)
  if n = 0 then illop f l
  else if (old.bind (·.count)).isSome then .error (0x20, l.tag)
  else
    let st : AccTag := { (old.getD { maxima := [], dens := [], rows := [], joined := 0, count := none }) with count := some n }
    let num := st.rows.map (fun q => ((kget p.rows q).map (·.elems)).getD [])
    let out := accOut l st num
    .ok (out, accKeep i r (f.ex.toNat % 4) l.tag st num out)

/-- The destinations that a pair or a count at ACC feeds: both when the count of the tag's pairs is reached, else none (R372). -/
def accFeeds (f : NodeRec) (i : Issue) (r : Region) (l : Lane) : List Dest :=
  let old := kget r.acc (accKey i l.tag)
  let count := (old.bind (·.count)) <|> (if litAt f 1 then some f.lit.toNat else none)
  let joined := (old.map (·.joined)).getD 0
  let ends := if (kget l.ops 0).isSome then count == some (joined + 1)
    else count.isNone && old.any (fun a => !a.rows.isEmpty) && (opv f l 1).toNat == joined
  if ends then [f.da, f.db] else []

/-- ACC (R372, R431): a pair or a count fires it alone. -/
def execAcc (f : NodeRec) (s : State) : Host.Outcome State Fault Refusal :=
  runNode (do
    let i ← myIssue
    attentionNode f (fun i r l => some (accFeeds f i r l)) (fun i r l => do
      let s ← get'
      let p := plinthAt s r.hall (f.ex.toNat % 4)
      match plinthOk p i.rid (slotGroup f.ex.toNat) with
      | none => pure (plinthTrap f l)
      | some cfg =>
        if (kget l.ops 0).isSome then
          match accPair f i r l p cfg with
          | some o => pure o
          | none => do
            let _ ← putBack i l
            pure (.ok ({ da := none, db := none }, pure ()))
        else pure (accCount f i r l p))
    match i with
    | some (_, r) => settlePlinth r.hall (f.ex.toNat % 4)
    | none => pure ()) s

/-! ### NORM (R373) -/

/-- The exact quotient of two csa values, rounded once to FP32 by nearest-even, and as IEEE 754 has it for zeros and
specials. -/
def divCsa (md : Nat) (a b : Csa) : Nat × Conds :=
  let bad : Nat × Conds := (canonNan .f32, { fiv := true })
  match a, b with
  | .nan, _ | _, .nan => (canonNan .f32, {})
  | .fin v e, .fin w k =>
    if w = 0 then (if v = 0 then bad else writeFl .f32 md (.inf (decide (v < 0))))
    else roundRatio .f32 md (decide (v < 0) != decide (w < 0)) v.natAbs w.natAbs ((e : Int) - k)
  | .fin v _, .posInf => writeFl .f32 md (.fin (decide (v < 0)) 0 0)
  | .fin v _, .negInf => writeFl .f32 md (.fin (decide (0 ≤ v)) 0 0)
  | .posInf, .fin w _ => writeFl .f32 md (.inf (decide (w < 0)))
  | .negInf, .fin w _ => writeFl .f32 md (.inf (decide (0 ≤ w)))
  | _, _ => bad

/-- What NORM gives, under md with its rounding bits 0 (R166, R373). DEDUCED, log 50. -/
def normOut (f : NodeRec) (md : Nat) (l : Lane) : Except (Nat × Nat) TileOut :=
  match portPkt f l 0 with
  | none => hdrTrap f l
  | some p =>
    if p.hdr.rows = 0 then .ok (bothPkt l (nullPkt p.hdr 6))
    else if !p.plain [13] then hdrTrap f l
    else
      let out := fun (g : Nat → Csa → Nat × Conds) =>
        let rows := (p.rows.zipIdx).map (fun q => q.1.csa.map (g q.2))
        Except.ok (bothPkt l (resultPkt p.hdr 6 (rows.map (fun r => r.map (·.1))) p.hdr.cols)
          (rows.foldl (fun c r => r.foldl (fun c x => c.or x.2) c) {}))
      if (kget l.ops 1).isNone then out (fun _ => normCsa md)
      else match portPkt f l 1 with
      | none => hdrTrap f l
      | some d =>
        if !d.plain [13] ∨ d.hdr.rows ≠ p.hdr.rows ∨ d.hdr.cols ≠ 1 then hdrTrap f l
        else out (fun i x => divCsa md x ((((d.rows[i]?).map Row.csa).getD []).headD .nan))

/-- NORM (R166, R373). -/
def execNorm (f : NodeRec) (s : State) : Host.Outcome State Fault Refusal :=
  runNode (quietNode f (fun i _ _ l => normOut f (mdOf i f / 4 * 4) l)) s

/-! ### ROPE (R374) -/

/-- −2 · j · l / D rounded to FP32. -/
def ropeArg (l : Fl) (j d : Nat) : Fl × Conds :=
  match mulFl (.fin true (2 * j) 0) l with
  | (.fin n m e, _) =>
    let (b, c) := roundRatio .f32 0 n m d e
    (flOf .f32 b, { fof := c.fof })
  | (x, i) => f32Step x i

/-- A row rotated at a position (R180, R374): elements of a format, with the conditions raised. -/
def ropeRow (fmt : Nat) (ty : Ty) (md : Nat) (pos : Int) (base : BitVec 32) (els : List Nat) : List Nat × Conds :=
  let (l0, c0) := log2Fl (flOf .f32 base.toNat)
  let (l, c1) := f32Step l0 c0.fiv
  let d := els.length
  (List.range (d / 2)).foldl (fun (acc : List Nat × Conds) j =>
    let (x, c2) := ropeArg l j d
    let (th, c3) := exp2Step x
    let (a0, i4) := mulFl (.fin (decide (pos < 0)) pos.natAbs 0) th
    let (a, c4) := f32Step a0 i4
    let (sn, c5) := sinFl false a
    let (cs, c6) := sinFl true a
    let x0 := elemVal fmt md ((els[2 * j]?).getD 0)
    let x1 := elemVal fmt md ((els[2 * j + 1]?).getD 0)
    let term := fun (p q : Fl) (u w : Fl) =>
      let (m1, i1) := mulFl p u
      let (m2, i2) := mulFl q w
      let (z, i3) := sumFl (md % 4) [m1, m2]
      flResult ty md (z, i1 || i2 || i3)
    let (y0, d0) := term x0 (negFl x1) cs sn
    let (y1, d1) := term x0 x1 sn cs
    (acc.1 ++ [y0.toNat % 2 ^ tyWidth ty, y1.toNat % 2 ^ tyWidth ty],
     [c2, c3, c4, { fiv := c5.fiv || c6.fiv }, d0, d1].foldl Conds.or acc.2)) ([], c1)

/-- What ROPE gives: each row rotated at its position (R374, R431). -/
def ropeOut (f : NodeRec) (md : Nat) (l : Lane) : Except (Nat × Nat) TileOut :=
  match portPkt f l 0 with
  | none => hdrTrap f l
  | some p =>
    let ty := tyFmt f p
    if p.hdr.rows = 0 then .ok (bothPkt l (nullPkt p.hdr ty))
    else if !p.plain fmtsFloat ∨ p.hdr.cols % 2 = 1 then hdrTrap f l
    else
      let off : Int := if (kget l.ops 1).isSome then (opv f l 1).toInt else 0
      let rows := (p.rows.zipIdx).map (fun q =>
        ropeRow p.hdr.fmt (tyOfCode ty) md ((p.hdr.rowtag + q.2 : Nat) + off) f.lit q.1.els)
      .ok (bothPkt l (resultPkt p.hdr ty (rows.map (·.1)) p.hdr.cols) (rows.foldl (fun c r => c.or r.2) {}))

/-- ROPE (R374, R431). -/
def execRope (f : NodeRec) (s : State) : Host.Outcome State Fault Refusal :=
  runNode (quietNode f (fun i _ _ l => ropeOut f (mdOf i f) l)) s

end Sys2Proof.Machine
end

