-- ==== Sys2Proof/Machine/Sequencer.lean ====
section
/-! DEFINITION. What sequencer commands share: the issuer, buffers and descriptors read by a sequencer (R101, R299),
its loads and stores (R126, R134, R438, R445, R453), and ways that change use (R110). -/
namespace Sys2Proof.Machine

/-! ### The issuer -/

/-- The hall, function, context and wing of a command's issuer. The service sequencer has none of its own: those that its commands act for
are left open by the specification, and context number 0 stands for theirs (R199, R297; DESIGN CHOICE, log 18). -/
structure Home where
  hall : Nat
  vf : Nat
  ctx : Nat
  wing : Nat

def home : M Home := do
  let s ← get'
  match kget s.regions s.who with
  | some r => pure { hall := r.hall, vf := r.vf, ctx := r.ctx, wing := r.wing }
  | none =>
    let n := s.service.service
    pure { hall := Config.serviceHall n % 64, vf := Config.serviceVf n % 1024, ctx := 0, wing := Config.serviceWing n % 64 }

/-- A wing of the issuer; ILLOP where it has none. -/
def myWing : M (Nat × Wing) := do
  let s ← get'
  let h ← home
  match kget s.wings h.wing with
  | some w => pure (h.wing, w)
  | none => trapCode 0x12

/-! ### Ordinary accesses -/

/-- ILLOP with a sub-reason (R400). -/
def illOp {α : Type} (sub : Nat := 0) : M α := trapCode 0x12 sub

/-- A buffer of the issuer, visible under its handle. -/
def myBuffer (h : Nat) : M (Option Buffer) := do
  let s ← get'
  let o ← home
  pure (handleAt s o.vf o.ctx h).visible

/-- Where an access of a buffer lies, with the checks of R101. -/
def placeIn (b : Option Buffer) (right : Right) (off len align : Nat) : M (Option Nat × Nat) :=
  match checkAccess b right off len align with
  | .error c => trapCode c
  | .ok p => pure p

/-- The bytes at a location, read by a sequencer: it waits on a pinned line (R134) and traps on what cannot be
read (R438, R445, R453). The function and guest address give the class of the line (R119). -/
def readAt (hall vf va a n : Nat) : M (List Byte) := do
  let s ← get'
  match answers s a with
  | some c => trap { code := c, word8 := a }
  | none =>
    if (linesOf a n).any (fun x => pinnedByOther s x none) || rowBusy s hall a then stall
    else if poisoned s a n then trapCode 0x40
    else do
      each (linesOf a n) (fun l => if isScratch l then pure () else cacheRead hall vf (va + l - a) l)
      pure (readBytes s.mem a n)

/-- Bytes written by a sequencer (R126, R134, R445, R453). -/
def writeAt (hall vf va a : Nat) (bs : List Byte) : M Unit := do
  let s ← get'
  match answers s a with
  | some c => trap { code := c, word8 := a }
  | none =>
    if (linesOf a bs.length).any (fun x => pinnedByOther s x none) || rowBusy s hall a then stall
    else performWrite hall vf va a bs

/-! ### Accesses wider than a granule (R105, R127) -/

/-- Why an access of several pieces stops for now: a piece has performed, or it waits for a page walk. -/
inductive Pause where
  | piece (bs : List Byte)
  | walk (w : Nat × Nat)

/-- An agent's access of several pieces. It goes through the pieces that have performed, then performs the next one, and stops there. -/
abbrev Pieces (α : Type) := ExceptT Pause (StateT Progress M) α

/-- The next piece: what it gave when it performed, or what it gives now, at the location of a guest address. -/
def piece (hall vf : Nat) (scr : Option Nat) (va : Nat) (right : Right) (act : Nat → M (List Byte)) : Pieces (List Byte) :=
  ExceptT.mk (fun p => match p.got with
    | bs :: rest => pure (.ok bs, { p with got := rest })
    | [] =>
      match scr with
      | some h => do
        let bs ← act (scratchAddr h va)
        pure (.error (.piece bs), p)
      | none => do
        match ← findPage hall vf va right p.walk with
        | .error w => pure (.error (.walk w), p)
        | .ok a => do
          let bs ← act a
          pure (.error (.piece bs), p))

/-- Go on with an access from what has performed: its answer, or how far it has come. -/
def stepPieces {α : Type} (p : Progress) (m : Pieces α) : M (Except Progress α) := do
  match ← (m.run).run p with
  | (.ok a, _) => pure (.ok a)
  | (.error (.piece bs), _) => pure (.error { got := p.got ++ [bs] })
  | (.error (.walk w), _) => pure (.error { p with walk := some w })

/-- The pieces of `n` bytes from an address, none across a 16-byte boundary. -/
def granPieces (start n : Nat) : List (Nat × Nat) :=
  let h := min n (16 - start % 16)
  (if h = 0 then [] else [(0, h)]) ++ (List.range ((n - h + 15) / 16)).map (fun i => (h + 16 * i, min 16 (n - h - 16 * i)))

/-- Bytes of a buffer, read for an agent of a hall. -/
def readPieces (hall vf : Nat) (b : Option Buffer) (off n : Nat) : Pieces (List Byte) :=
  match checkAccess b .read off n 1 with
  | .error c => ExceptT.lift (StateT.lift (trap { code := c, word8 := off }))
  | .ok (scr, va) => do
    let l ← (granPieces va n).mapM (fun p => piece hall vf scr (va + p.1) .read (fun a => readAt hall vf (va + p.1) a p.2))
    pure l.flatten

/-- Bytes of a buffer, written for an agent of a hall. -/
def writePieces (hall vf : Nat) (b : Option Buffer) (off : Nat) (bs : List Byte) : Pieces Unit :=
  match checkAccess b .write off bs.length 1 with
  | .error c => ExceptT.lift (StateT.lift (trap { code := c, word8 := off }))
  | .ok (scr, va) => do
    let _ ← (granPieces va bs.length).mapM (fun p => piece hall vf scr (va + p.1) .write (fun a => do
      writeAt hall vf (va + p.1) a ((bs.drop p.1).take p.2)
      pure []))
    pure ()

/-- A sequencer load of at most 16 bytes that lie in one granule. -/
def loadIn (b : Option Buffer) (off len align : Nat) : M (List Byte) := do
  let o ← home
  let (scr, va) ← placeIn b .read off len align
  let a ← locate o.hall o.vf scr va .read
  readAt o.hall o.vf va a len

/-- Sequencer loads of `n` bytes, eight at a time, in ascending order (R299). -/
def loadWords (b : Option Buffer) (off n : Nat) : M (List Byte) := do
  let l ← collect (List.range ((n + 7) / 8)) (fun i => loadIn b (off + 8 * i) (min 8 (n - 8 * i)) 1)
  pure l.flatten

/-! ### Descriptor references (R299) -/

def refHandle (ref : Nat) : Nat := bits ref 40 8
def refOff (ref : Nat) : Nat := bits ref 0 32

/-- A reference's own form (R299, R416). -/
def checkRef (ref : Nat) : M Unit :=
  if bits ref 48 16 ≠ 0 ∨ bits ref 32 8 ≠ 0 ∨ ref % 8 ≠ 0 then illOp else pure ()

/-- The descriptor of `n` bytes at a reference (R299). -/
def descriptor (ref n : Nat) : M (List Byte) := do
  checkRef ref
  let b ← myBuffer (refHandle ref)
  loadWords b (refOff ref) n

/-- Word `i` of a descriptor. -/
def wordAt (bs : List Byte) (i : Nat) : Nat := leNat ((bs.drop (8 * i)).take 8)

/-! ### Ways that change use (R109, R110) -/

/-- The part of a hall's scratch space on a way: the index of its 64 KiB (R102). -/
def scratchIndex (h : Hall) (tile way : Nat) : Option Nat :=
  let l := waysOf h 1
  let i := l.idxOf (tile, way)
  if i < l.length then some i else none

/-- A buffer lies on some 64 KiB of a hall's scratch space. -/
def bufferOn (s : State) (hall i : Nat) : Bool :=
  let on := fun (b : Option Buffer) => b.any (fun b => b.scratch == some hall && b.base < 65536 * (i + 1) && 65536 * i < b.base + b.len)
  s.vfs.any (fun p => p.2.handles.any (fun q => on q.2.visible || on q.2.shadow))

/-- A fold of a context lies on some 64 KiB of its fold space (R76). -/
def foldOn (h : Hall) (ctx i : Nat) : Bool :=
  h.folds.any (fun p => p.1 / 4096 == ctx && p.2.lattice.base < 65536 * (i + 1) && 65536 * i < p.2.lattice.endByte)

/-- A gallery link lies in a tile of a hall (R174). -/
def galleryOn (s : State) (hall tile : Nat) : Bool :=
  s.wings.any (fun w => w.2.galleries.any (fun g => g.2.links.any (fun l => l.hall == hall && l.tile == tile)))

/-- A buffer, fold or gallery segment lies on a way (R110). -/
def wayBusy (s : State) (hall tile way : Nat) : Bool :=
  let h := hallAt s hall
  match wayUse h tile way with
  | 1 => match scratchIndex h tile way with | some i => bufferOn s hall i | none => false
  | 2 => galleryOn s hall tile
  | u =>
    if 4 ≤ u ∧ u ≤ 7 then
      let l := waysOf h u
      foldOn h (u - 4) (l.idxOf (tile, way))
    else false

/-- A way starts through the walker toward a use, or toward a range's reservation; it serves no range from then on (R110, R120). -/
def toWalk (tile way use : Nat) (range : Option Nat) (h : Hall) : Hall :=
  { h with
    walking := h.walking.filter (fun w => !(w.tile == tile && w.way == way)) ++ [{ tile := tile, way := way, use := use, range := range }]
    reserved := kdel h.reserved (16 * tile + way) }

def startWalk (hall tile way use : Nat) : M Unit := modHall hall (toWalk tile way use none)

/-- The cache ways of a tile, the highest-numbered first. -/
def cacheWays (h : Hall) (tile : Nat) : List Nat := ((List.range 15).reverse).filter (fun w => wayUse h tile w == 0)

/-! ### Ways reserved to ranges (R118 to R120) -/

/-- The general cache ways of a tile, the highest-numbered first: those of no range that no walker holds. -/
def generalWays (h : Hall) (tile : Nat) : List Nat :=
  (cacheWays h tile).filter (fun w => (kget h.reserved (16 * tile + w)).isNone && !isWalking h tile w)

/-- The ways of a tile that are a range's, or will be when their walk has ended, the lowest-numbered first. -/
def rangeOwn (h : Hall) (tile k : Nat) : List Nat :=
  (List.range 15).filter (fun w => kget h.reserved (16 * tile + w) == some k || h.walking.any (fun x => x.tile == tile && x.way == w && x.range == some k))

/-- A tile's ways of range `k` become `n`: it takes the highest-numbered general cache ways, and gives back the lowest-numbered of its
own, which the specification leaves open (R120; DESIGN CHOICE, log 56). -/
def reserveWays (tile k n : Nat) (h : Hall) : Hall :=
  let own := rangeOwn h tile k
  if own.length < n then ((generalWays h tile).take (n - own.length)).foldl (fun h w => toWalk tile w 0 (some k) h) h
  else (own.take (own.length - n)).foldl (fun h w => toWalk tile w 0 none h) h

/-- The ways that a wing's range registers reserve in each tile of a hall (R118, R120). -/
def balance (ranges : KMap RangeReg) (h : Hall) : Hall :=
  (List.range 12).foldl (fun h t => (List.range 8).foldl (fun h k =>
    reserveWays t k (match kget ranges k with | some v => if rangeEn v then rangeWays v else 0 | none => 0) h) h) h

/-- The ways that enabled ranges reserve in each tile, summed. -/
def waySum (ranges : KMap RangeReg) : Nat := (((ranges.map (·.2)).filter rangeEn).map rangeWays).foldl (· + ·) 0

/-- A hall's ways follow its wing's range registers. -/
def balanceHall (hall : Nat) : M Unit := do
  let s ← get'
  match (hallAt s hall).wing.bind (kget s.wings) with
  | some w => modHall hall (balance w.ranges)
  | none => pure ()

end Sys2Proof.Machine
end

