-- ==== Sys2Proof/Machine/SeqMemory.lean ====
section
/-! DEFINITION. The sequencer's memory commands: loads and stores, event counters, buffers, residency and maintenance
(R117 to R120, R305, R307, R319, R321, R324, R325). -/
namespace Sys2Proof.Machine

/-! ### LDS and STS (R305) -/

/-- Bytes of a sequencer access: ty 15 moves eight (R305). -/
def seqBytes (t : Ty) : Nat := if t = .untyped then 8 else tyBytes t

/-- The offset of a sequencer access: aS + sext64(imm) (R305). -/
def seqOffset (f : CmdRec) : M Nat := do
  let a ← reg f.s
  pure ((a + sext f.imm) % 2 ^ 64)

/-- LDS (R305): integers extend under R146 and the value is written with its sign in 64 bits. -/
def ldsValue (t : Ty) (n : Nat) : Nat := if isInt t ∧ isSigned t then unsigned 64 (signed (tyWidth t) n) else n

/-- LDS (R305). -/
def execLds (f : CmdRec) (s : State) : Host.Outcome State Fault Refusal :=
  runCommand .anywhere true (do
    let off ← seqOffset f
    let b ← myBuffer (f.ext.toNat % 256)
    let bs ← loadIn b off (seqBytes f.ty) (seqBytes f.ty)
    setReg f.d (ldsValue f.ty (leNat bs))
    pure .done) s

/-- STS: a write that performs before the next command, and sets its scratch granule full (R115, R305). -/
def execSts (f : CmdRec) (s : State) : Host.Outcome State Fault Refusal :=
  runCommand .anywhere true (do
    let off ← seqOffset f
    let v ← reg f.t
    let b ← myBuffer (f.ext.toNat % 256)
    let o ← home
    let (scr, va) ← placeIn b .write off (seqBytes f.ty) (seqBytes f.ty)
    let a ← locate o.hall o.vf scr va .write
    writeAt o.hall o.vf va a (bytesOfNat (seqBytes f.ty) v)
    pure .done) s

/-! ### Event counters (R307) -/

/-- EVT k of the issuer's function. -/
def eventCount (s : State) (vf k : Nat) : Nat := (kgetD (vfAt s vf).events k 0).toNat

/-- SIG (R307). -/
def execSig (f : CmdRec) (s : State) : Host.Outcome State Fault Refusal :=
  runCommand .anywhere true (do
    let s ← get'
    let o ← home
    let k := f.ext.toNat % 256
    let b ← operandB f
    modVf o.vf (fun v => { v with events := kset v.events k (BitVec.ofNat 64 (eventCount s o.vf k + b)) })
    pure .done) s

/-- WAIT (R307). -/
def execWait (f : CmdRec) (s : State) : Host.Outcome State Fault Refusal :=
  runCommand .anywhere true (do
    let s ← get'
    let o ← home
    let a ← reg f.s
    let v := eventCount s o.vf (f.ext.toNat % 256)
    if a ≤ v then do
      setReg f.d v
      pure .done
    else stall) s

/-! ### Fences (R124, R125, R325, R445) -/

/-- A write that a commit of a region sent is still to perform (R131, R136). -/
def sentWrites (s : State) (rid : Nat) : Bool :=
  s.reqs.any (fun q => q.rid == rid && (match q.op with | .posted _ _ => true | _ => false))

/-- Wait as a FENCE command of a scope. DEDUCED, log 54. -/
def fenceWait (scope : Nat) : M Unit := do
  let s ← get'
  if sentWrites s s.who then stall
  else if scope = 4 then do
    let o ← home
    let ok ← annexFence o.hall
    if ok then pure () else trapCode 0x44
  else pure ()

/-- FENCE (R325). -/
def execFenceCmd (f : CmdRec) (s : State) : Host.Outcome State Fault Refusal :=
  runCommand .regionOnly true (do
    fenceWait (f.ext.toNat % 8)
    pure .done) s

/-! ### FLUSH, INV and PREF (R325, R445, R446) -/

/-- Do something for each line from number `i` of a range on. A line that cannot be reached yet holds the command there: it goes on from
that line when its translation is known, or the line is released. -/
def linesFrom (o : Home) (scr : Option Nat) (va : Nat) (g : Home → Nat → M Unit) : Nat → Nat → M Next
  | 0, _ => pure .done
  | fuel + 1, i => do
    match ← attempt (do
      let a ← locate o.hall o.vf scr (va + 64 * i) .read
      g o a) with
    | .ok _ => linesFrom o scr va g fuel (i + 1)
    | .error t => do
      modSeq (fun q => { q with progress := i })
      if t.code = walkCode then do
        waitForWalk t.operand t.word9 t.word8
        pure .wait
      else if t.code = stallCode then pure .wait
      else trap t

/-- Do something for each line of a range of a handle, in ascending order; the range is checked as R101 says. DEDUCED, log 55. -/
def eachLine (f : CmdRec) (g : Home → Nat → M Unit) : M Next := do
  let off ← reg f.s
  let n ← reg f.t
  let o ← home
  let b ← myBuffer (f.ext.toNat % 256)
  if off % 64 ≠ 0 ∨ n % 64 ≠ 0 then trapCode 0x19
  else do
    let (scr, va) ← placeIn b .read off n 64
    let q ← mySeq
    linesFrom o scr va g (n / 64 - q.progress) q.progress

/-- A Modified copy is written back and stays (R325). -/
def cleanCopies (a : Nat) : M Unit := do
  let s ← get'
  each ((List.range 64).filter (fun h => (kget (hallAt s h).cache (cacheKey a)).any (fun c => c.mesi == .modified && !c.quarantined)))
    (fun h => modHall h (fun x => match kget x.cache (cacheKey a) with
      | some c => { x with cache := kset x.cache (cacheKey a) { c with mesi := .exclusive } }
      | none => x))

/-- What a pool device holds of a line that was lost with its quarantined copy is free (DESIGN CHOICE, log 20). -/
def freeLine (a : Nat) : M Unit := do
  let n ← fresh
  each (List.range 64) (fun i => eff (.byte (a / 64 * 64 + i) (Config.freeByte (64 * n + i))))

/-- Invalidate every copy of a line; a quarantined copy is dropped (R446). -/
def dropCopies (a : Nat) : M Unit := do
  let s ← get'
  whenM (quarantined s a) (do
    freeLine a
    modPkg (fun p => { p with annexStores := p.annexStores.map (fun l => l.filter (· != a / 64)) }))
  each ((List.range 64).filter (fun h => (kget (hallAt s h).cache (cacheKey a)).isSome))
    (fun h => modHall h (fun x => { x with cache := kdel x.cache (cacheKey a) }))

/-- A request to a line that an invocation pins waits (R134). -/
def unpinned (a n : Nat) : M Unit := do
  let s ← get'
  if (linesOf a n).any (fun x => pinnedByOther s x none) then stall else pure ()

/-- FLUSH (R325, R446). -/
def execFlush (f : CmdRec) (s : State) : Host.Outcome State Fault Refusal :=
  runCommand .regionOnly true (do
    eachLine f (fun _ a => do
      unpinned a 64
      let s ← get'
      if quarantined s a then trapCode 0x44 else cleanCopies a)) s

/-- INV (R325, R446). -/
def execInv (f : CmdRec) (s : State) : Host.Outcome State Fault Refusal :=
  runCommand .regionOnly true (do
    eachLine f (fun _ a => do
      unpinned a 64
      cleanCopies a
      dropCopies a)) s

/-- PREF: copies of the lines that translate come into the hall's cache ways; it changes no value (R325). -/
def execPref (f : CmdRec) (s : State) : Host.Outcome State Fault Refusal :=
  runCommand .regionOnly true (do
    let off ← reg f.s
    let n ← reg f.t
    let o ← home
    let b ← myBuffer (f.ext.toNat % 256)
    if off % 64 ≠ 0 ∨ n % 64 ≠ 0 then trapCode 0x19
    else do
      let (scr, va) ← placeIn b .read off n 64
      each (if scr.isSome then [] else List.range (n / 64)) (fun i => do
        match ← attempt (locateNow o.hall o.vf (va + 64 * i) .read) with
        | .ok a => do
          let s ← get'
          whenM (answers s a).isNone (cacheRead o.hall o.vf (va + 64 * i) a)
        | .error _ => pure ())
      pure .done) s

/-! ### FE.FILL and FE.EMPTY (R117) -/

/-- Change the bits of a scratch range, granule by granule, serving those who wait on each. The handle's write right is needed, as the
command changes what the granules hold (R101, R321). DEDUCED, log 55. -/
def feRange (f : CmdRec) (full : Bool) : M Next := do
  let off ← reg f.s
  let n ← reg f.t
  let b ← myBuffer (f.ext.toNat % 256)
  if n % 16 ≠ 0 then trapCode 0x19
  else do
    let (scr, a) ← placeIn b .write off n 16
    match scr with
    | none => trapCode 0x1B
    | some hall => do
      each (List.range (n / 16)) (fun i => unpinned (scratchAddr hall (a + 16 * i)) 16)
      each (List.range (n / 16)) (fun i => do
        eff (.granule (scratchAddr hall (a + 16 * i) / 16) full)
        settleGranules)
      pure .done

/-- FE.FILL (R117). -/
def execFeFill (f : CmdRec) (s : State) : Host.Outcome State Fault Refusal := runCommand .regionOnly true (feRange f true) s
/-- FE.EMPTY (R117). -/
def execFeEmpty (f : CmdRec) (s : State) : Host.Outcome State Fault Refusal := runCommand .regionOnly true (feRange f false) s

/-! ### Buffers (R319) -/

/-- The buffer that BUF.MAP's operands describe; none for operands out of range (R432). -/
def bufferOf (s : State) (o : Home) (imm base len : Nat) : Option Buffer :=
  let scr := bits imm 8 1 == 1
  let hall := bits imm 12 6
  if base % 16 ≠ 0 ∨ len % 16 ≠ 0 ∨ len = 0 ∨ 2 ^ 32 < len then none
  else if scr then
    if (kget s.wings o.wing).any (fun w => (wingHalls w).contains hall) ∧ base + len ≤ scratchSize (hallAt s hall) then
      some { scratch := some hall, base := base, len := len, read := bits imm 9 1 == 1, write := bits imm 10 1 == 1, atomic := bits imm 11 1 == 1 }
    else none
  else if 2 ^ 57 ≤ base then none
  else some { scratch := none, base := base, len := len, read := bits imm 9 1 == 1, write := bits imm 10 1 == 1, atomic := bits imm 11 1 == 1 }

/-- A buffer maps the range of a cast (R193). -/
def mapsCast (s : State) (b : Buffer) : Bool :=
  s.wings.any (fun w => w.2.casts.any (fun c =>
    b.scratch == some c.2.hall && decide (b.base < c.2.scratch + 4 * c.2.m * (c.2.k + c.2.n)) && decide (c.2.scratch < b.base + b.len)))

/-- Change a handle of the issuer. -/
def modHandle (o : Home) (h : Nat) (g : Handle → Handle) : M Unit :=
  modVf o.vf (fun v => { v with handles := kset v.handles (handleKey o.ctx h) (g (kgetD v.handles (handleKey o.ctx h) {})) })

/-- BUF.MAP (R319, R432). DEDUCED, log 96. -/
def execBufMap (f : CmdRec) (s : State) : Host.Outcome State Fault Refusal :=
  runCommand .regionOnly true (do
    let s ← get'
    let o ← home
    let imm := f.imm.toNat
    let base ← reg f.s
    let len ← reg f.t
    match bufferOf s o imm base len with
    | none => illOp
    | some b =>
      let h := handleAt s o.vf o.ctx (imm % 256)
      if mapsCast s b then illOp
      else if bits imm 18 1 = 1 then
        match h.visible with
        | some v =>
          if v.len = b.len ∧ v.scratch.isSome = b.scratch.isSome then do
            modHandle o (imm % 256) (fun h => { h with shadow := some b, shadowFailed := false })
            pure .done
          else illOp
        | none => illOp
      else do
        modHandle o (imm % 256) (fun h => { h with visible := some b })
        pure .done) s

/-- BUF.UNMAP (R319). -/
def execBufUnmap (f : CmdRec) (s : State) : Host.Outcome State Fault Refusal :=
  runCommand .regionOnly true (do
    let o ← home
    modHandle o (f.imm.toNat % 256) (fun h => if bits f.imm.toNat 18 1 = 1 then { h with shadow := none } else { h with visible := none })
    pure .done) s

/-! ### Residency (R118 to R120, R324) -/

/-- The fields of a range register that hold what is written (R5, R118). -/
def rangeMask : Nat := 0x8FFF03FF_FFFFFFFF_01FFFFFF_FFFF0000

/-- The registers of wing `n` keep R118's rules: a length, a function bound to the wing, no overlap, and ways that every tile has. -/
def rangesOk (s : State) (n : Nat) (w : Wing) (l : KMap RangeReg) : Bool :=
  let en := (l.map (·.2)).filter rangeEn
  en.all (fun v => rangeWays v ≤ 8 && bits v.toNat 64 32 != 0 && (vfAt s (rangeVf v)).wing == some n)
  && (en.zipIdx).all (fun p => (en.zipIdx).all (fun q => p.2 == q.2 || rangeVf p.1 != rangeVf q.1
      || rangeEnd p.1 ≤ rangeBase q.1 || rangeEnd q.1 ≤ rangeBase p.1))
  && (wingHalls w).all (fun h => (List.range 12).all (fun t => waySum l ≤ (cacheWays (hallAt s h) t).length))

/-- Walks of RSV in a wing: a cache way that stays one. -/
def rangeWalks (s : State) (w : Wing) : Bool :=
  (wingHalls w).any (fun h => (hallAt s h).walking.any (fun x => x.use == 0 && wayUse (hallAt s h) x.tile x.way == 0))

/-- RSV (R118, R120, R324, R432): it completes when its walks have ended. -/
def execRsv (f : CmdRec) (s : State) : Host.Outcome State Fault Refusal :=
  runCommand .regionOnly true (do
    let s ← get'
    let (n, w) ← myWing
    let lo ← reg f.s
    let hi ← reg f.t
    let q ← mySeq
    if q.waiting then (if rangeWalks s w then stall else pure .done)
    else
      let v : RangeReg := BitVec.ofNat 128 ((hi * 2 ^ 64 + lo) &&& rangeMask)
      let after := kset w.ranges (f.imm.toNat % 8) v
      if !rangesOk s n w after then illOp
      else do
        modWing n (fun w => { w with ranges := after })
        each (wingHalls w) (fun h => modHall h (balance after))
        let s' ← get'
        pure (if rangeWalks s' w then .wait else .done)) s

/-- SAMP (R324). -/
def execSamp (f : CmdRec) (s : State) : Host.Outcome State Fault Refusal :=
  runCommand .regionOnly true (do
    let (n, w) ← myWing
    let v ← reg f.s
    let k := f.imm.toNat % 8
    let old := (kgetD w.ranges k 0).toNat
    let r : RangeReg := BitVec.ofNat 128 (old - bits old 112 8 * 2 ^ 112 + v % 256 * 2 ^ 112)
    modWing n (fun w => { w with ranges := kset w.ranges k r })
    pure .done) s

end Sys2Proof.Machine
end

