-- ==== Sys2Proof/Machine/Images.lean ====
section
/-! DEFINITION. Images of regions: what one holds (R207, R208), and how a region leaves the machine while an image keeps it (R202,
R204, R210, R318). -/
namespace Sys2Proof.Machine

/-! ### Images -/

/-- The folds in the fold-store ways of a context number (R76, R208). -/
def foldsUnder (h : Hall) (ctx : Nat) : KMap Fold := h.folds.filter (fun f => f.1 / 4096 == ctx)

/-- The requests that an image holds (R208). A stalled NSEED is its sequencer's command, which the image holds there. -/
def ownReq (rid : Nat) (q : Req) : Bool := q.rid == rid && (match q.op with | .posted _ _ => false | _ => true)

/-- The region's parts in a plinth: what it holds, with the slots ACC filled left out (R207). -/
def plinthPart (rid : Nat) (p : Plinth) : Plinth :=
  { p with
    slotHolder := p.slotHolder.filter (·.2 == rid), zeroing := [], jobs := p.jobs.filter (·.rid == rid)
    slots := p.slots.filter (fun q => kget p.slotHolder q.1 == some rid && q.2.ref.isSome)
    rows := if p.holder = some rid then p.rows else [], cfg := if p.holder = some rid then p.cfg else none
    drain := if p.holder = some rid then p.drain else none, holder := if p.holder = some rid then some rid else none }

/-- The image of a region as it stands. -/
def imageOf (s : State) (rid : Nat) (r : Region) (tier number : Nat) : SaveImage :=
  let h := hallAt s r.hall
  let invs := h.invs.filter (·.2.rid == rid)
  let mine := fun (i : Nat) => (kget invs i).isSome
  { number := number, tier := tier, rid := rid, region := r
    reqs := s.reqs.filter (ownReq rid), names := s.names.filter (fun q => q.rid == rid && q.cell < 64)
    hold := h.hold.filter (fun x => mine x.inv), invs := invs, pins := h.pins.filter (fun x => mine x.2)
    overflow := h.overflow.filter (fun o => o.ctx == r.ctx && r.cells.contains o.cell)
    chans := s.chans.filter (fun p => chanOf r rid p.2), folds := foldsUnder h r.ctx, plinths := h.plinths.map (plinthPart rid) }

/-- Keep an image. -/
def keepImage (vf : Nat) (x : SaveImage) : M Unit := modVf vf (fun v => { v with saves := x :: v.saves })

/-- The image of a function with a number. -/
def imageNo (s : State) (vf n : Nat) : Option SaveImage := (vfAt s vf).saves.find? (·.number == n)

/-- Change the image of a function that has a number. -/
def modImage (vf n : Nat) (f : SaveImage → SaveImage) : M Unit :=
  modVf vf (fun v => { v with saves := v.saves.map (fun x => if x.number = n then f x else x) })

/-- Take the region's requests out of the machine: they are withdrawn (R204). -/
def withdraw (rid : Nat) : M Unit := do
  let s ← get'
  eff (.reqs (s.reqs.filter (fun q => !ownReq rid q)))
  eff (.names (s.names.filter (·.rid != rid)))

/-- Everything of a region leaves the machine; an image keeps it (R210, R318). -/
def vacate (rid : Nat) : M Unit := do
  let s ← get'
  match kget s.regions rid with
  | none => pure ()
  | some r => do
    withdraw rid
    modHall r.hall (dropClaims rid)
    each (s.chans.filter (fun p => chanOf r rid p.2)) (fun p => eff (.chan p.1 none))
    let mine := invsOf s rid r.hall
    modHall r.hall (fun h => { h with
      invs := h.invs.filter (·.2.rid != rid), hold := h.hold.filter (fun x => !mine.contains x.inv)
      pins := h.pins.filter (fun p => !mine.contains p.2), folds := h.folds.filter (·.2.owner != rid)
      overflow := h.overflow.filter (fun o => !(o.ctx == r.ctx && r.cells.contains o.cell)) })
    eff (.region rid none)

/-- A region that a slice's end stopped gives its place up: its image takes all that is left of it (R202, R210). -/
def park (rid : Nat) : M Unit := do
  let s ← get'
  match kget s.regions rid with
  | none => pure ()
  | some r =>
    match r.saved.bind (imageNo s r.vf) with
    | none => pure ()
    | some x => do
      let y := imageOf s rid { r with state := x.region.state, saved := none, autoSaved := false } x.tier x.number
      modImage r.vf x.number (fun _ => { y with reqs := x.reqs, names := x.names, vacated := true, parked := true })
      vacate rid

/-- The regions that give way to a function's region leave its placement (R210). -/
def clearPlace (vf hall ctx shape origin : Nat) : M Unit := do
  let s ← get'
  each (s.regions.filter (fun p => p.2.hall == hall && p.2.ctx == ctx && (cellsOf shape origin).any p.2.cells.contains && givesWay vf p.2)) (fun p => park p.1)

end Sys2Proof.Machine
end

