-- ==== Sys2Proof/Machine/SeqNames.lean ====
section
/-! DEFINITION. Fold declarations and the name commands (R73, R75 to R77, R88 to R98, R326, R327, R426, R427). -/
namespace Sys2Proof.Machine

/-! ### Declarations (R75, R77, R326) -/

/-- The distance vectors of a descriptor, eight of six fields (R326). -/
def distVectors (bs : List Byte) : List (List Int) :=
  (List.range 8).map (fun j => (List.range 6).map (fun e => signed 32 (leNat ((bs.drop (64 + 24 * j + 4 * e)).take 4))))

/-- A distance vector is in range for a launch (R89): its fields are below the extents and it is not below zero. DESIGN CHOICE, log 72. -/
def distOk (ext : List Nat) (d : List Int) : Bool :=
  (d.zip ext).all (fun p => decide (p.1.natAbs < p.2)) && !lexLt d (d.map (fun _ => 0))

/-- The lattice of a 256-byte fold descriptor under a launch, in a fold space of a given size; none for one that is malformed (R75, R326,
R416). A_d of a box and STRIDE_d of a skewed fold are read by nothing: R326 does not say that they are zero, and any value of them is taken
(DESIGN CHOICE, log 72). -/
def latticeOf (h : BitVec 128) (space : Nat) (bs : List Byte) : Option Lattice :=
  let n := hdrLevels h
  let w := wordAt bs
  let skew := bits (w 0) 51 1 == 1
  let nd := bits (w 0) 48 3 + 1
  let size := bits (w 0) 0 17
  let levelWords := (List.range 6).map (fun d => w (d + 2))
  let used := levelWords.take n
  let ds := distVectors bs
  let ext := (List.range n).map (fun i => hdrExtent h (i + 1))
  let dists := (ds.take nd).map (·.take n)
  let zeroFields : Bool :=
    bits (w 0) 17 15 == 0 && bits (w 1) 16 16 == 0 && (skew || bits (w 1) 0 16 == 0)
    && levelWords.all (fun x => bits x 16 16 == 0) && (levelWords.drop n).all (· == 0)
    && used.all (fun x => !skew || bits x 48 16 == 0)
    && (ds.drop nd).all (fun d => d.all (· == 0)) && (ds.take nd).all (fun d => (d.drop n).all (· == 0))
  let ranges : Bool :=
    16 ≤ size && size ≤ 65536 && size % 16 == 0 && bits (w 0) 32 16 != 0 && bits (w 1) 32 32 % 16 == 0
    && bits (w 1) 32 32 + 16 ≤ space && dists.all (distOk ext)
  if zeroFields && ranges then
    some {
      stmt := bits (w 0) 52 12, size := size, uses := bits (w 0) 32 16, skewed := skew
      m := if skew then [] else used.map (fun x => bits x 48 16 + 1), stride := if skew then [] else used.map (fun x => bits x 32 16)
      coef := if skew then used.map (fun x => signed 16 (bits x 0 16)) else []
      modulus := if skew then bits (w 1) 0 16 + 1 else 1, base := bits (w 1) 32 32, dists := dists }
  else none

/-- Two areas of one fold space overlap. -/
def areasMeet (a b : Lattice) : Bool := a.base < b.endByte && b.base < a.endByte

/-- The live folds of a name space. -/
def foldsOf (h : Hall) (ctx : Nat) : List (Nat × Fold) := h.folds.filter (fun p => p.1 / 4096 == ctx)

/-- Why a declaration is refused (R77, R426): statement live 3, 256 folds 4, no fit 2, overlap 1. -/
def declareFault (h : Hall) (ctx : Nat) (l : Lattice) : Option Nat :=
  if (kget h.folds (foldKey ctx l.stmt)).isSome then some 3
  else if 256 ≤ h.folds.length then some 4
  else if foldSpace h ctx < l.endByte then some 2
  else if (foldsOf h ctx).any (fun p => p.2.areas.any (areasMeet l)) then some 1
  else none

/-- Declare a fold with every slot Empty (R77). -/
def declareFold (hall ctx owner vf : Nat) (l : Lattice) (c : CheckState) : M Unit := modHall hall (fun h =>
  { h with folds := kset h.folds (foldKey ctx l.stmt) { owner := owner, vf := vf, lattice := l, check := c, slots := [] } })

/-- FOLD (R327, R426). -/
def execFold (f : CmdRec) (s : State) : Host.Outcome State Fault Refusal :=
  runCommand .regionOnly true (do
    let (rid, r) ← myRegion
    let ref ← reg f.s
    let bs ← descriptor ref 256
    let s ← get'
    match latticeOf r.header (foldSpace (hallAt s r.hall) r.ctx) bs with
    | none => illOp
    | some l =>
      if l.stmt ≠ f.imm.toNat then illOp
      else match declareFault (hallAt s r.hall) r.ctx l with
      | some k => illOp k
      | none => do
        declareFold r.hall r.ctx rid r.vf l .unchecked
        pure .done) s

/-- The live fold of a statement in the issuer's name space; NFOLD where there is none, with the name that NSEED asks for (R412, R426). -/
def liveFold (stmt : Nat) (name : Nat := 0) : M (Nat × Region × Nat × Fold) := do
  let (rid, r) ← myRegion
  let s ← get'
  let k := foldKey r.ctx stmt
  match kget (hallAt s r.hall).folds k with
  | some x => pure (rid, r, k, x)
  | none => trap { code := 0x2B, operand := stmt, word8 := name }

/-- FOLDCHK (R90 to R92, R327). -/
def execFoldchk (f : CmdRec) (s : State) : Host.Outcome State Fault Refusal :=
  runCommand .regionOnly true (do
    let (_, r, k, x) ← liveFold f.imm.toNat
    let c := foldCheck x.lattice r.header
    modFold r.hall k (fun y => { y with check := if c = 0 then .accepted else .refused })
    setReg f.d c
    pure .done) s

/-! ### REFOLD (R93 to R95) -/

/-- The names of a fold map to distinct slots of a new lattice (R93). -/
def movesApart (r : Region) (x : Fold) (l : Lattice) : Bool :=
  let is := x.slots.filterMap (fun p => if p.2.state = .empty then none else some (slotIndex l (fieldsOf r.header p.2.iv)))
  is.length == is.eraseDups.length

/-- Two distance sets have the same vectors. -/
def sameDists (a b : List (List Int)) : Bool := a.all b.contains && b.all a.contains

/-- Why a REFOLD is refused (R93); 0 is accepted. Where several reasons hold the first of 4, 2, 3, 1 is given: the specification sets no
order (DESIGN CHOICE, log 71). -/
def refoldCode (h : Hall) (r : Region) (k : Nat) (x : Fold) (l : Lattice) : Nat :=
  let o := x.lattice
  if l.stmt ≠ o.stmt ∨ l.size ≠ o.size ∨ l.uses ≠ o.uses ∨ ¬sameDists l.dists o.dists then 4
  else if foldCheck l r.header ≠ 0 then 2
  else if foldSpace h r.ctx < l.endByte ∨ areasMeet o l ∨ ((foldsOf h r.ctx).filter (·.1 != k)).any (fun p => p.2.areas.any (areasMeet l)) then 3
  else if !movesApart r x l then 1
  else 0

/-- The move that a REFOLD of the issuer started ends, and it writes 0 (R93, R94). -/
def refoldEnds (f : CmdRec) (r : Region) (k : Nat) : M Next := do
  endMove r.hall k r.header
  setReg f.d 0
  pure .done

/-- REFOLD (R93 to R95) of the owner: the gate closes, requests join the queue, and a later step moves the occupants, opens the
gate and replays the queue in arrival order. -/
def execRefold (f : CmdRec) (s : State) : Host.Outcome State Fault Refusal :=
  runCommand .regionOnly true (do
    let (rid, r, k, x) ← liveFold f.imm.toNat
    let q ← mySeq
    if x.owner ≠ rid then illOp
    else if q.progress = 1 ∧ x.gate.isSome then refoldEnds f r k
    else do
      let ref ← reg f.s
      let bs ← descriptor ref 256
      let s ← get'
      match latticeOf r.header (foldSpace (hallAt s r.hall) r.ctx) bs with
      | none => illOp
      | some l =>
        if x.gate = some l then refoldEnds f r k
        else do
          endMove r.hall k r.header
          let s ← get'
          let x := (kget (hallAt s r.hall).folds k).getD x
          let c := refoldCode (hallAt s r.hall) r k x l
          if c = 0 then do
            modFold r.hall k (fun y => { y with gate := some l })
            modSeq (fun q => { q with progress := 1 })
            pure .wait
          else do
            setReg f.d c
            pure .done) s

/-! ### NSTAT, NDROP, NSEED (R96 to R98) -/

/-- The counts of NSTAT (R97). -/
def statWord (s : State) (hall k : Nat) (x : Fold) : Nat :=
  let mine := s.names.filter (fun q => match reqSlot s q with | some (h, j, _, _, _) => h == hall && j == k | none => false)
  let count := fun (st : SlotState) => (x.slots.filter (fun p => p.2.state == st)).length
  sat16 (count .full) * 2 ^ 48 + sat16 (count .held) * 2 ^ 32 + sat16 ((mine.filter (fun q => !q.write)).length) * 2 ^ 16
    + sat16 ((mine.filter (·.write)).length)

/-- NSTAT (R97). -/
def execNstat (f : CmdRec) (s : State) : Host.Outcome State Fault Refusal :=
  runCommand .regionOnly true (do
    let (_, r, k, x) ← liveFold f.imm.toNat
    let s ← get'
    setReg f.d (statWord s r.hall k x)
    pure .done) s

/-- NDROP (R98, R427). -/
def execNdrop (f : CmdRec) (s : State) : Host.Outcome State Fault Refusal :=
  runCommand .regionOnly true (do
    let (_, r, k, _) ← liveFold f.imm.toNat
    dropFold r.hall k
    pure .done) s

/-- The request of an NSEED (R96). -/
def seedReq (rid : Nat) (x : Fold) (stmt name value : Nat) : NameReq :=
  { rid := rid, cell := 64, node := 0, lane := { tag := 0, ops := [] }, stmt := stmt, name := name, take := false, write := true, inv := none
    ty := .n32, uses := x.lattice.uses, data := bytesOfNat 4 value, word := 0, da := .discard, db := .discard }

/-- NSEED (R96, R426, R427): it writes at once, or stalls in the slot's queue as an NWR does. -/
def execNseed (f : CmdRec) (s : State) : Host.Outcome State Fault Refusal :=
  runCommand .regionOnly true (do
    let (rid, r0) ← myRegion
    if r0.seq.waiting then
      match r0.seed with
      | none => stall
      | some none => do
        modRegion rid (fun r => { r with seed := none })
        pure .done
      | some (some t) => trap t
    else do
      let name ← reg f.s
      let v ← reg f.t
      let (_, r, _, x) ← liveFold f.imm.toNat name
      if !idValid r.header name then trap { code := 0x29, operand := f.imm.toNat, word8 := name }
      else if x.check ≠ .accepted then trap { code := 0x2A, operand := f.imm.toNat, word8 := name }
      else do
        modRegion rid (fun r => { r with seed := none })
        presentName (seedReq rid x f.imm.toNat name v)
        let s ← get'
        match (kget s.regions rid).bind (·.seed) with
        | none => pure .wait
        | some none => pure .done
        | some (some t) => trap t) s

end Sys2Proof.Machine
end

