-- ==== Sys2Proof/Machine/Load.lean ====
section
/-! DEFINITION. Configurations: the bank an act block gives (R39, R53, R58, R249), the loader's checks (R64, R65,
R413 to R416), and the start of a load with its folds and streams (R77, R90, R112, R249). -/
namespace Sys2Proof.Machine

/-- Why a configuration is refused, and where (R414). -/
structure Refused where
  reason : Nat
  cell : Nat := 0
  node : Nat := 0
  deriving DecidableEq, Repr

/-- The operand of CFGREF (R400). -/
def Refused.operand (x : Refused) (act : Nat) : Nat := x.reason + act % 256 * 2 ^ 8 + x.cell % 64 * 2 ^ 16 + x.node % 32 * 2 ^ 22

/-- The first refusal of a list of checks. -/
def firstRefused (l : List (Option Refused)) : Option Refused := l.findSome? id

/-- A check over a list. -/
def checkAll {α : Type} (l : List α) (f : α → Option Refused) : Option Refused := l.findSome? f

/-- The check fails when its condition does. -/
def need (ok : Bool) (x : Refused) : Option Refused := if ok then none else some x

/-! ### The bank of an act block (R249) -/

def secs (l : List Section) (k : Nat) : List Section := l.filter (·.kind == k)

/-- The items of a section with their index. -/
def itemsOf (x : Section) : List (Nat × List Byte) := (List.range x.count).map (fun i => (x.base + i, item x i))

/-- The node records of an act: first cell, group size, node number, record. -/
def nodeItems (l : List Section) : List (Nat × Nat × Nat × Rec) :=
  (secs l 1).flatMap (fun x => (itemsOf x).map (fun p => (x.cell, 2 ^ x.log2, p.1, recordOf p.2)))

/-- The cells of a replication group (R58). -/
def groupCells (r : Region) (base size : Nat) : List Nat := if size ≤ 1 then [base] else (r.cells.filter (base ≤ ·)).take size

/-- A group is aligned within the region's cells, counted in ascending order (R58). DEDUCED, log 39. -/
def groupOk (r : Region) (base size : Nat) : Bool :=
  r.cells.contains base && (size == 1 || (size ≤ 16 && r.cells.idxOf base % size == 0 && r.cells.idxOf base + size ≤ r.cells.length))

/-- The Q-sequence records of an act: every cell of the region holds them (DEDUCED, log 21). -/
def seqItems (l : List Section) : List (Nat × Rec) := (secs l 2).flatMap (fun x => (itemsOf x).map (fun p => (p.1, recordOf p.2)))

/-- The circuit entries of an act: cell, out-port, entry. Ports 38 to 53 are the read streams s0 to s15 (DEDUCED, log 21). -/
def circuitItems (l : List Section) : List (Nat × Nat × BitVec 256) :=
  (secs l 3).flatMap (fun x => (itemsOf x).map (fun p => (if 38 ≤ p.1 then 0 else x.cell, p.1, BitVec.ofNat 256 (leNat p.2))))

/-- Loop regions: number, base, count, as 2, 2 and 4 bytes (R249, DEDUCED, log 21). -/
def loopItems (l : List Section) : List (Nat × Nat × Nat) :=
  (secs l 6).flatMap (fun x => (itemsOf x).map (fun p => (leNat (p.2.take 2), leNat ((p.2.drop 2).take 2), leNat (p.2.drop 4))))

/-- The number of an out-port's rate, and of a node port's. -/
def outRate (cell out : Nat) : Nat := cell * 64 + out
def portRate (cell node port : Nat) : Nat := 4096 + (cell * 32 + node) * 4 + port

/-- Rate declarations: number and rate (R249). -/
def rateItems (l : List Section) : List (Nat × Nat) :=
  (secs l 7).flatMap (fun x => (itemsOf x).map (fun p =>
    let b := fun i => leNat ((p.2.drop i).take 1)
    (if b 0 = 0 then outRate (b 1) (b 2) else portRate (b 1) (b 2) (b 3), leNat (p.2.drop 4))))

def initItems (l : List Section) : List (BitVec 64) := (secs l 8).flatMap (fun x => (itemsOf x).map (fun p => BitVec.ofNat 64 (leNat p.2)))

/-- The bank that an act's configuration gives: free lists, bindings and counters set afresh (R55, R282). -/
def bankOf (r : Region) (act : Nat) (l : List Section) : Bank :=
  { act := some act
    nodes := (nodeItems l).foldl (fun m p => (groupCells r p.1 p.2.1).foldl (fun m c =>
      kset m (c * 32 + p.2.2.1) { record := p.2.2.2, base := p.1, size := p.2.1 }) m) []
    seqs := (seqItems l).foldl (fun m p => r.cells.foldl (fun m c => kset m (c * 512 + p.1) p.2) m) []
    circuits := (circuitItems l).foldl (fun m p => kset m (p.1 * 64 + p.2.1) p.2.2) []
    loops := (loopItems l).foldl (fun m p => kset m p.1 p.2) []
    rates := (rateItems l).foldl (fun m p => kset m p.1 p.2) []
    inits := initItems l
    free := (loopItems l).foldl (fun m p => kset m p.1 ((List.range p.2.2).map (p.2.1 + ·))) [] }

/-! ### Checks of the image's shape (R414, reason 12) -/

/-- A section's counts and places lie within the region and its memories. -/
def sectionOk (r : Region) (x : Section) : Bool :=
  let top := x.base + x.count
  match x.kind with
  | 1 => top ≤ 32 && x.log2 ≤ 4 && groupOk r x.cell (2 ^ x.log2)
  | 2 => top ≤ 512 && x.log2 == 0
  | 3 => top ≤ 54 && x.log2 == 0 && (r.cells.contains x.cell || 38 ≤ x.base)
  | 9 => x.count ≤ 64 && x.log2 == 0
  | 10 => x.count ≤ 16 && x.log2 == 0
  | _ => x.log2 == 0

/-- A rate declaration is within its ranges (R249). -/
def rateOk (bs : List Byte) : Bool :=
  let b := fun i => leNat ((bs.drop i).take 1)
  let n := leNat (bs.drop 4)
  b 1 < 64 && 1 ≤ n && n ≤ 65535
  && (if b 0 = 0 then b 2 ≤ 37 && b 3 == 0 else b 0 == 1 && b 2 < 32 && b 3 < 4)

/-- The fields of an initial token: cell, node, port, tag, value (R238). Its context is that of the region that places it, whatever its
CTX holds; the specification does not say what another value there means (DESIGN CHOICE, log 110). -/
def initCell (t : BitVec 64) : Nat := bits t.toNat 51 6
def initNode (t : BitVec 64) : Nat := bits t.toNat 46 5
def initPort (t : BitVec 64) : Nat := bits t.toNat 44 2
def initTag (t : BitVec 64) : Nat := bits t.toNat 32 12
def initKind (t : BitVec 64) : TokenKind :=
  match bits t.toNat 59 2 with
  | 0 => .data
  | 1 => .completion
  | 2 => .poison
  | _ => .marker

/-! ### Records (R414, reasons 5, 8, 9 and 10) -/

/-- The node record of a cell that a load gives. -/
def loadedNode (b : Bank) (cell node : Nat) : Option NodeEntry := kget b.nodes (cell * 32 + node)

/-- A destination byte names a node of its cell that has a record (R471). -/
def destOk (b : Bank) (cell : Nat) : Dest → Bool
  | .node n _ => (loadedNode b cell n.val).isSome
  | _ => true

/-- Level and loop fields of a node (reasons 8 and 10). -/
def nodeRefs (h : BitVec 128) (b : Bank) (i : Instr) (f : NodeRec) : Nat :=
  let level := f.ax.toNat % 8
  match i with
  | .tagnew _ | .tagret _ => if (kget b.loops (f.ax.toNat % 16)).isSome then 0 else 8
  | .done _ => if (kget b.loops 0).isSome then 0 else 8
  | .idx _ | .nrdTake _ | .nrdPeek _ | .nwr _ | .nprobe _ => if hdrLevels h < level then 10 else 0
  | _ => 0

/-- A sequence ends within 16 records (R61). -/
def seqEnds (b : Bank) (cell : Nat) : Nat → Nat → Bool
  | 0, _ => false
  | fuel + 1, i =>
    match (kget b.seqs (cell * 512 + i)).bind seqFields with
    | some f => f.last || seqEnds b cell fuel (i + 1)
    | none => false

/-- The checks of one node record. -/
def checkNode (r : Region) (b : Bank) (p : Nat × Nat × Nat × Rec) : Option Refused :=
  let at_ := fun n => some { reason := n, cell := p.1, node := p.2.2.1 : Refused }
  if recForm p.2.2.2 ≠ 0 then at_ 5
  else match decode p.2.2.2, nodeFields p.2.2.2 with
  | .ok { instr := i, seq := none }, some f =>
    if !(groupCells r p.1 p.2.1).all (fun c => destOk b c f.da && destOk b c f.db) then at_ 5
    else if nodeRefs r.header b i f ≠ 0 then at_ (nodeRefs r.header b i f)
    else match i with
      | .fire _ => if seqEnds b p.1 16 (f.ex.toNat % 512) then none else at_ 9
      | _ => none
  | _, _ => at_ 5

/-- The checks of one sequence record; its place stands for the node in the location. -/
def checkSeq (r : Region) (p : Nat × Rec) : Option Refused :=
  if recForm p.2 ≠ 1 then some { reason := 5, node := p.1 }
  else match decode p.2 with
  | .ok { instr := .idxQ, seq := some f } => if hdrLevels r.header < f.im.toNat % 8 then some { reason := 10, node := p.1 } else none
  | .ok { instr := _, seq := some _ } => none
  | _ => some { reason := 5, node := p.1 }

/-! ### Loop regions (R53, reason 8) -/

/-- Ranges of tags do not overlap, and numbers do not repeat. -/
def loopsApart : List (Nat × Nat × Nat) → Bool
  | [] => true
  | p :: t => t.all (fun q => p.1 != q.1 && (p.2.1 + p.2.2 ≤ q.2.1 || q.2.1 + q.2.2 ≤ p.2.1)) && loopsApart t

def loopsOk (l : List (Nat × Nat × Nat)) : Bool :=
  l.all (fun p => p.1 ≤ 15 && 1 ≤ p.2.2 && p.2.2 ≤ 256 && p.2.1 + p.2.2 ≤ 4096) && loopsApart l

/-! ### Circuit entries (R248, reason 7) -/

/-- A destination of a circuit entry may stand: the cells it may name without a record are those outside the region. -/
def circuitDestOk (halls : Nat) (r : Region) (b : Bank) (d : Nat) : Bool :=
  let kind := bits d 19 3
  let own := bits d 22 6 == 0
  d % 4 == 0 && bits d 22 6 < halls
  && (match kind with
      | 0 => !(own && r.cells.contains (bits d 13 6)) || (loadedNode b (bits d 13 6) (bits d 8 5)).isSome
      | 1 => bits d 8 5 == 0 && bits d 6 2 ≤ 1
      | 2 => own && bits d 13 6 ≤ 11 && bits d 8 5 ≤ 15 && bits d 6 2 == 0
      | _ => false)

/-- A circuit entry is well formed (R248). -/
def circuitOk (halls : Nat) (r : Region) (b : Bank) (e : BitVec 256) : Bool :=
  circuitCount e ≤ 8 && bits e.toNat 224 28 == 0
  && (List.range 8).all (fun i => if i < circuitCount e then circuitDestOk halls r b (circuitDest e i) else circuitDest e i == 0)

/-! ### Plinths (R364, reason 11) -/

/-- The plinth that a node of R364's set names. -/
def plinthNamed (x : Rec) : Option Nat :=
  match decode x with
  | .ok { instr := .mxrow f, seq := none } | .ok { instr := .score f, seq := none } | .ok { instr := .acc f, seq := none } => some (f.ex.toNat % 4)
  | _ => none

/-- A node names a plinth that an earlier node names. -/
def plinthsOnce : List Nat → List (Nat × Nat × Nat × Rec) → Option Refused
  | _, [] => none
  | seen, p :: t =>
    match plinthNamed p.2.2.2 with
    | some k => if seen.contains k then some { reason := 11, cell := p.1, node := p.2.2.1 } else plinthsOnce (k :: seen) t
    | none => plinthsOnce seen t

/-! ### Balance and liveness (R64, R65) -/

/-- An edge between two nodes: their numbers (cell times 32 plus node), the tokens made and taken, the depth, and the
port it reaches. -/
structure GraphEdge where
  src : Nat
  dst : Nat
  made : Nat
  taken : Nat
  depth : Nat
  port : Nat
  deriving DecidableEq, Repr

/-- The first cell of a node's group. -/
def baseCell (b : Bank) (cell node : Nat) : Nat := match loadedNode b cell node with | some e => e.base | none => cell

/-- Edges of a destination byte of a node in one cell of its group, whose first is `base`. DEDUCED, log 40. -/
def graphEdges (r : Region) (b : Bank) (base cell node : Nat) (d : Dest) : List GraphEdge :=
  let me := base * 32 + node
  let circuit := fun (out : Nat) => match kget b.circuits (cell * 64 + out) with
    | none => []
    | some e => (List.range (min (circuitCount e) 8)).filterMap (fun i =>
      let x := circuitDest e i
      let c := baseCell b (bits x 13 6) (bits x 8 5)
      if bits x 19 3 = 0 ∧ bits x 22 6 = 0 ∧ r.cells.contains (bits x 13 6) then
        some { src := me, dst := c * 32 + bits x 8 5, made := kgetD b.rates (outRate cell out) 1
               taken := kgetD b.rates (portRate c (bits x 8 5) (bits x 6 2)) 1, depth := bits x 2 4 + 1, port := bits x 6 2 }
      else none)
  match d with
  | .discard => []
  | .out k => circuit k.val
  | .predOut k => circuit (16 + k.val)
  | .node n q => [{ src := me, dst := baseCell b cell n.val * 32 + n.val, made := 1
                    taken := kgetD b.rates (portRate (baseCell b cell n.val) n.val q.val) 1, depth := 4, port := q.val }]

/-- What a node sends to: its destination bytes, or every data out-port for MXSTEER (R368). -/
def nodeDests (i : Instr) (f : NodeRec) : List Dest :=
  match i with
  | .mxsteer _ => (List.finRange 16).map Dest.out
  | _ => [f.da, f.db]

/-- The configuration's own graph: a replicated node is one node of it, with the circuits of every cell of its group. -/
def graphOf (r : Region) (b : Bank) (ns : List (Nat × Nat × Nat × Rec)) : List GraphEdge :=
  ns.flatMap (fun p => match nodeFields p.2.2.2, decode p.2.2.2 with
    | some f, .ok d => ((groupCells r p.1 p.2.1).flatMap (fun c => (nodeDests d.instr f).flatMap (graphEdges r b p.1 c p.2.2.1))).eraseDups
    | _, _ => [])

/-- Initial tokens on a port. -/
def initsOn (b : Bank) (e : GraphEdge) : Nat :=
  (b.inits.filter (fun t => baseCell b (initCell t) (initNode t) * 32 + initNode t == e.dst && initPort t == e.port)).length

/-- One pass over the edges: a node next to one whose ratio is known gets its own. -/
def spread (es : List GraphEdge) (m : KMap (Nat × Nat)) : KMap (Nat × Nat) :=
  es.foldl (fun m e =>
    let low := fun (p : Nat × Nat) => (p.1 / Nat.gcd p.1 p.2, p.2 / Nat.gcd p.1 p.2)
    match kget m e.src, kget m e.dst with
    | some (n, d), none => kset m e.dst (low (n * e.made, d * e.taken))
    | none, some (n, d) => kset m e.src (low (n * e.taken, d * e.made))
    | _, _ => m) m

/-- Firing ratios of all nodes that edges join: the first node without one starts at 1. -/
def ratios (es : List GraphEdge) : Nat → List Nat → KMap (Nat × Nat) → KMap (Nat × Nat)
  | 0, _, m => m
  | fuel + 1, ns, m =>
    let m' := spread es m
    if m' ≠ m then ratios es fuel ns m'
    else match ns.find? (fun n => (kget m n).isNone) with
    | some n => ratios es fuel ns (kset m n (1, 1))
    | none => m

/-- The balance equations hold (R64). -/
def unbalanced (es : List GraphEdge) : Option GraphEdge :=
  let ns := (es.flatMap (fun e => [e.src, e.dst])).eraseDups
  let m := ratios es (2 * ns.length + 2) ns []
  es.find? (fun e =>
    let a := kgetD m e.src (1, 1)
    let b := kgetD m e.dst (1, 1)
    e.made * a.1 * b.2 != e.taken * b.1 * a.2)

/-- Edges that lie on no directed cycle of edges without initial tokens are taken away until none is left to take
(R65). -/
def cyclic : Nat → List GraphEdge → List GraphEdge
  | 0, es => es
  | fuel + 1, es =>
    let es' := es.filter (fun e => es.any (fun x => x.dst == e.src) && es.any (fun x => x.src == e.dst))
    if es'.length = es.length then es else cyclic fuel es'

/-- Edges that are a cycle of their own in what `cyclic` leaves. -/
def edgeAt (n : Nat) (e : GraphEdge) : Option Refused := some { reason := n, cell := e.dst / 32, node := e.dst % 32 }

/-- The checks of reasons 1, 2 and 3. -/
def checkGraph (b : Bank) (es : List GraphEdge) : Option Refused :=
  match unbalanced es with
  | some e => edgeAt 1 e
  | none =>
    match es.find? (fun e => e.depth + initsOn b e < e.made + e.taken - Nat.gcd e.made e.taken) with
    | some e => edgeAt 2 e
    | none =>
      match cyclic es.length (es.filter (fun e => initsOn b e == 0)) with
      | e :: _ => edgeAt 3 e
      | [] => none

/-! ### Held lines (R415, reason 4) -/

/-- A record that holds one line per iteration. -/
def holdsLine (x : Rec) : Bool :=
  match decode x with
  | .ok { instr := .st f, seq := none } => f.ty != .tile
  | .ok { instr := i, seq := none } => (match i with
    | .amoAdd _ | .amoAnd _ | .amoOr _ | .amoXor _ | .amoMin _ | .amoMax _ | .amoSwap _ | .amoFadd _ | .cas _ => true
    | _ => false)
  | _ => false

/-- The first node that lifts the sum above the hold (R415). -/
def checkHeld (per : Nat) : Nat → List (Nat × Nat × Nat × Rec) → Option Refused
  | _, [] => none
  | n, p :: t =>
    if holdsLine p.2.2.2 then
      (if holdSize < n + per then some { reason := 4, cell := p.1, node := p.2.2.1 } else checkHeld per (n + per) t)
    else checkHeld per n t

/-! ### Streams (R112, R249, reason 13) -/

/-- The stream of a hall that holds a slot of a tile: region and stream. -/
def slotOwner (s : State) (hall tile slot : Nat) : Option (Nat × Nat) :=
  s.regions.findSome? (fun p => if p.2.hall = hall then
    (p.2.streams.find? (fun q => q.2.desc.tile == tile && q.2.desc.slot == slot)).map (fun q => (p.1, q.1)) else none)

/-- The four slots of a tile that no stream holds. -/
def freeSlots (s : State) (hall tile : Nat) : List Nat := (List.range 4).filter (fun k => (slotOwner s hall tile k).isNone)

/-- A stream descriptor's fields (R249): stream, slot byte, descriptor. -/
def streamOf (bs : List Byte) : Option (Nat × StreamDesc) :=
  let b := fun i => leNat ((bs.drop i).take 1)
  let dims := (List.range 6).map (fun d => (leNat ((bs.drop (16 + 8 * d)).take 4), signed 32 (leNat ((bs.drop (20 + 8 * d)).take 4))))
  let n := b 6
  if b 0 ≤ 15 ∧ b 1 ≤ 11 ∧ (b 2 ≤ 3 ∨ b 2 = 255) ∧ b 3 ≤ 1 ∧ (b 4 ≤ 10 ∨ b 4 = 14) ∧ b 5 ≤ 3 ∧ 1 ≤ n ∧ n ≤ 6 ∧ leNat ((bs.drop 12).take 4) = 0
      ∧ dims.all (fun d => 1 ≤ d.1 && d.1 ≤ 65536) ∧ (dims.drop n).all (fun d => d == (1, 0)) then
    some (b 0, { tile := b 1, slot := b 2, write := b 3 == 1, fmt := tyOfCode (b 4), fe := b 5, handle := b 7
                 origin := leNat ((bs.drop 8).take 4), count := n, dims := dims })
  else none

/-- Define a stream of a region; false when its slot is held by another, or no slot is free (R414). A slot stays held
until the stream is defined on another, so without a named slot the stream takes one that none holds, itself among them (R249, R254). -/
def defineStream (rid k : Nat) (d : StreamDesc) : M Bool := do
  let s ← get'
  match kget s.regions rid with
  | none => pure false
  | some r =>
    let slot := if d.slot ≤ 3 then
        (match slotOwner s r.hall d.tile d.slot with
         | none => some d.slot
         | some o => if o = (rid, k) then some d.slot else none)
      else (freeSlots s r.hall d.tile).head?
    match slot with
    | none => pure false
    | some n => do
      modRegion rid (fun r => { r with streams := kset r.streams k { desc := { d with slot := n } } })
      pure true

/-! ### The whole check (R413) -/

/-- The product of the extents of the levels deeper than the invocation level (R415). -/
def invIters (h : BitVec 128) : Nat := itersFrom h (hdrInv h + 1)

/-- Every check of an act's configuration but those of folds and slots. -/
def checkAct (halls : Nat) (r : Region) (act : Nat) (bs : List Byte) : Option Refused :=
  match actSections bs with
  | none => some { reason := 12 }
  | some l =>
    let b := bankOf r act l
    let ns := nodeItems l
    let es := graphOf r b ns
    firstRefused [
      checkAll l (fun x => need (sectionOk r x) { reason := 12, cell := x.cell }),
      checkAll (secs l 7) (fun x => checkAll (itemsOf x) (fun p => need (rateOk p.2) { reason := 12 })),
      checkAll (secs l 4) (fun x => checkAll (itemsOf x) (fun p => need (streamOf p.2).isSome { reason := 12 })),
      checkAll (initItems l) (fun t => need (bits t.toNat 61 3 == 0 && (loadedNode b (initCell t) (initNode t)).isSome) { reason := 12, cell := initCell t, node := initNode t }),
      need (hdrOk r.header) { reason := 10 },
      need (loopsOk (loopItems l)) { reason := 8 },
      checkAll ns (checkNode r b),
      checkAll (seqItems l) (checkSeq r),
      plinthsOnce [] ns,
      checkAll (circuitItems l) (fun p => need (circuitOk halls r b p.2.2) { reason := 7, cell := p.1 }),
      checkGraph b es,
      checkHeld (invIters r.header) 0 ns ]

/-- Declare an act's folds (R77, R90, R92). -/
def loadFolds (rid : Nat) (l : List Section) : M Bool := do
  let oks ← collect ((secs l 5).flatMap itemsOf) (fun p => do
    let s ← get'
    match kget s.regions rid with
    | none => pure false
    | some r => match latticeOf r.header (foldSpace (hallAt s r.hall) r.ctx) p.2 with
      | none => pure false
      | some x =>
        if foldCheck x r.header ≠ 0 ∨ (declareFault (hallAt s r.hall) r.ctx x).isSome then pure false
        else do
          declareFold r.hall r.ctx rid r.vf x .accepted
          pure true)
  pure (oks.all id)

/-- Define an act's streams. -/
def loadStreams (rid : Nat) (l : List Section) : M Bool := do
  let oks ← collect ((secs l 4).flatMap itemsOf) (fun p => match streamOf p.2 with
    | some (k, d) => defineStream rid k d
    | none => pure false)
  pure (oks.all id)

/-- Why a region's act cannot be loaded now, with its folds and streams placed when it can. -/
def placeAct (rid act : Nat) : M (Option Refused) := do
  let s ← get'
  match kget s.regions rid with
  | none => pure none
  | some r =>
    match r.program.acts[act]? with
    | none => pure (some { reason := 12 })
    | some bs =>
      let halls := match kget s.wings r.wing with | some w => (wingHalls w).length | none => 1
      match checkAct halls r act bs with
      | some x => pure (some x)
      | none =>
        let l := (actSections bs).getD []
        do
          let folds ← loadFolds rid l
          if !folds then pure (some { reason := 6 })
          else do
            let streams ← loadStreams rid l
            if streams then pure none else pure (some { reason := 13 })

/-- A load starts: a refused one raises CFGREF, and nothing of it stays (R413). -/
def startLoad (rid act : Nat) : M Unit := do
  match ← placeAct rid act with
  | some x => trapCode 0x13 (x.operand act)
  | none => modRegion rid (fun r => { r with
      loading := some act, relaunched := false, state := if r.state = .idle ∨ r.state = .sealed then .loading else r.state })

end Sys2Proof.Machine
end

