-- ==== Sys2Proof/Machine/Arrival.lean ====
section
/-! DEFINITION. How tokens leave channels and meet at nodes: inputs of a node, frame entries, the overflow queue and
matching (R46 to R51, R56, R276 to R278, R371, R372, R408, R423, R424). -/
namespace Sys2Proof.Machine

/-! ### Inputs of a node (R47) -/

/-- A node of a region's active configuration with its fields. -/
structure LiveNode where
  entry : NodeEntry
  fields : NodeRec
  instr : Instr

def liveNode (b : Bank) (cell node : Nat) : Option LiveNode :=
  match kget b.nodes (cell * 32 + node) with
  | none => none
  | some e =>
    match nodeFields e.record, decode e.record with
    | some f, .ok d => some { entry := e, fields := f, instr := d.instr }
    | _, _ => none

/-- A destination byte names a port of a node. -/
def destNames (node port : Nat) : Dest → Bool
  | .node n p => n.val == node && p.val == port
  | _ => false

/-- The configuration names a port of a node: in a destination byte of the group's cells, in one of its own circuit
entries, or by a rate (R47). -/
def portNamed (r : Region) (b : Bank) (group : List Nat) (node port : Nat) : Bool :=
  b.nodes.any (fun p => group.contains (p.1 / 32) &&
    (match nodeFields p.2.record with | some f => destNames node port f.da || destNames node port f.db | none => false))
  || b.circuits.any (fun p => (List.range (min (circuitCount p.2) 8)).any (fun i =>
    let d := circuitDest p.2 i
    bits d 19 3 == 0 && bits d 22 6 == 0 && r.cells.contains (bits d 13 6) && group.contains (bits d 13 6)
      && bits d 8 5 == node && bits d 6 2 == port))
  || group.any (fun c => (kget b.rates (portRate c node port)).isSome)

/-- The operand ports that an entry lists and does not mark optional: VMAP has port 1 for a binary sub-op (R346, R347). -/
def portsOf (x : LiveNode) (u : NodeRule) : List Nat :=
  match x.instr with
  | .vmap f => if (vmapSub (f.ex.toNat % 256)).any (fun q => q.1 == 2) then [0, 1] else [0]
  | _ => u.ports

/-- The inputs of a node (R47). -/
def inputsOf (r : Region) (b : Bank) (cell node : Nat) : List Nat :=
  match liveNode b cell node with
  | none => []
  | some x =>
    match nodeRule x.instr with
    | none => []
    | some (_, u) =>
      let group := groupCells r x.entry.base x.entry.size
      ([0, 1, 2, 3] : List Nat).filter (fun p =>
        !(litAt x.fields p)
        && (((portsOf x u).contains p || (p == 3 && x.fields.pg != .ungated)) || (u.opt.contains p && portNamed r b group node p)))

/-- How a node's arrivals meet. -/
inductive Matching where
  | plain | single | cmerge | pair
  deriving DecidableEq, Repr

def matchingOf : Instr → Matching
  | .merge _ | .acc _ => .single
  | .cmerge _ => .cmerge
  | .pair _ => .pair
  | _ => .plain

/-- The row tag that PAIR matches a token by; 0 elsewhere. -/
def rowtagOf (m : Matching) (t : Token) : Nat := if m = .pair then (pktHdr t.packet).rowtag else 0

/-- A null value packet at PAIR (R371). -/
def nullValue (m : Matching) (port : Nat) (t : Token) : Bool := m == .pair && port == 1 && !t.isPoison && (pktHdr t.packet).rows == 0

/-- The other ports an arrival completes a match with, or none while it does not complete one. `look` gives the
token in the frame entry of a port. A pending poison completes none (R408). DEDUCED, log 44. -/
def completesWith (m : Matching) (ins : List Nat) (look : Nat → Option Token) (port : Nat) (t : Token) : Option (List Nat) :=
  let chosen := fun (p : Token) => if p.value.toNat % 2 = 1 then 0 else 1
  if t.isPending then none
  else match m with
  | .single => some []
  | .pair =>
    if nullValue m port t || t.isFinal then some []
    else if (look (1 - port)).any (!·.isPending) then some [1 - port] else none
  | .cmerge =>
    if port = 3 then
      if t.isFinal then some []
      else if !ins.contains (chosen t) then some []
      else if (look (chosen t)).any (!·.isPending) then some [chosen t] else none
    else match look 3 with
      | some p => if !p.isPending && chosen p == port then some [3] else none
      | none => none
  | .plain =>
    let others := ins.filter (· != port)
    if others.all (fun p => (look p).any (!·.isPending)) then some others else none

/-! ### Frame entries (R49) -/

/-- The entries of a cell that waiting name accesses hold: those of the operands that waited for the last one to arrive (R296). -/
def nameHeld (s : State) (r : Region) (cell : Nat) : Nat :=
  ((s.names.filter (fun q => q.rid == ridOf r.hall r.ctx r.origin && q.cell == cell)).map (fun q => q.lane.ops.length - 1)).foldl (· + ·) 0

/-- Entries of a cell taken from the region's reservation, and from the remainder. -/
def ownUsed (s : State) (r : Region) (cell : Nat) : Nat :=
  (r.frames.filter (fun f => f.1 / 2 ^ 24 / 4 / 4096 / 32 == cell && f.2.own)).length + nameHeld s r cell
def restUsed (r : Region) (cell : Nat) : Nat := (r.frames.filter (fun f => f.1 / 2 ^ 24 / 4 / 4096 / 32 == cell && !f.2.own)).length

/-- The pool that gives the next entry: the reservation, else the cell's remainder, else none. -/
def entryPool (s : State) (r : Region) (cell : Nat) : Option Bool :=
  if ownUsed s r cell < 256 * r.fres then some true
  else
    let here := s.regions.filter (fun p => p.2.hall == r.hall && p.2.state != .free && p.2.cells.contains cell)
    let used := (here.map (fun p => restUsed p.2 cell)).foldl (· + ·) 0
    if used < 4096 - reservedIn s r.hall cell then some false else none

/-- The parts of a frame key. -/
def keyCell (k : Nat) : Nat := k / 2 ^ 24 / 4 / 4096 / 32
def keyNode (k : Nat) : Nat := k / 2 ^ 24 / 4 / 4096 % 32
def keyTag (k : Nat) : Nat := k / 2 ^ 24 / 4 % 4096
def keyPort (k : Nat) : Nat := k / 2 ^ 24 % 4
def keyRow (k : Nat) : Nat := k % 2 ^ 24

/-- The frame entry a token would take: PAIR's pending poison has no row tag yet and takes one of its own. -/
def entryKey (r : Region) (m : Matching) (cell node port : Nat) (t : Token) : Nat :=
  if m = .pair ∧ t.isPending then
    let n := (firstFree 4096 (fun n => (kget r.frames (frameKey cell node t.tag port (2 ^ 24 - 1 - n))).isNone)).getD 0
    frameKey cell node t.tag port (2 ^ 24 - 1 - n)
  else frameKey cell node t.tag port (rowtagOf m t)

/-! ### Arrival -/

/-- The gather limit of a node (R56). -/
def gatherOf (f : NodeRec) : Nat := if f.gather.toNat = 0 then 8 else f.gather.toNat

/-- The trap of an arrival that its node does not take; the token is kept until TRET (R47, R424). DEDUCED, log 43. -/
def arrivalTrap (rid cell node port : Nat) (t : Token) (code operand : Nat) : M Unit := modRegion rid (fun r => { r with
  traps := r.traps ++ [{
    code := code, operand := operand, iv := (boundId r t.tag).getD 0, act := r.seq.act, cmd := min r.seq.index 63, cell := cell, node := node
    laneMask := 1, held := [{ tag := t.tag, ops := [(port, t)] }], arrival := some (port, t) }] })

/-- Tokens of a cell and context that wait in the overflow queue. -/
def overflowOf (s : State) (r : Region) (cell : Nat) : List Overflow :=
  (hallAt s r.hall).overflow.filter (fun o => o.cell == cell && o.ctx == r.ctx)

/-- The most tokens of a hall's overflow queue (R109, R423). -/
def overflowSize : Nat := 32768

/-- The instance of a completed match joins the ready queue (R56). -/
def addReady (rid cell node tag : Nat) (ops : KMap Token) : M Unit := do
  let s ← get'
  modRegion rid (fun r => { r with ready := insertInst { cell := cell, node := node, lane := { tag := tag, ops := ops, moment := s.moves } } r.ready })

/-- A token arrives at a port; false when it cannot be taken now. The specification does not say how many matched instances a node may
hold: here a token that would complete a match waits while its node holds a full gather of them (DESIGN CHOICE, log 109). With `force`,
that wait and the bound of the overflow queue do not apply; with `queued`, the token comes from that queue. -/
def arriveToken (rid cell node port : Nat) (t : Token) (force queued : Bool) : M Bool := do
  let s ← get'
  match kget s.regions rid with
  | none => pure false
  | some r =>
  match liveNode r.active cell node with
  | none => pure false
  | some x =>
    let m := matchingOf x.instr
    let ins := inputsOf r r.active cell node
    if !ins.contains port then do
      arrivalTrap rid cell node port t 0x12 6
      pure true
    else
      let look := fun (p : Nat) => (kget r.frames (frameKey cell node t.tag p (rowtagOf m t))).map (·.token)
      let key := entryKey r m cell node port t
      if (kget r.frames key).isSome then do
        arrivalTrap rid cell node port t 0x20 t.tag
        pure true
      else match completesWith m ins look port t with
      | some others =>
        if !force && gatherOf x.fields ≤ (r.ready.filter (fun i => i.cell == cell && i.node == node)).length then pure false
        else do
          let ops := others.foldl (fun o p => match look p with | some u => kset o p u | none => o) ([(port, t)] : KMap Token)
          modRegion rid (fun r => { r with frames := others.foldl (fun fs p => kdel fs (frameKey cell node t.tag p (rowtagOf m t))) r.frames })
          addReady rid cell node t.tag ops
          stir rid
          pure true
      | none =>
        match (if !queued && !(overflowOf s r cell).isEmpty then none else entryPool s r cell) with
        | some own => do
          modRegion rid (fun r => { r with frames := kset r.frames key { token := t, own := own } })
          stir rid
          pure true
        | none =>
          if queued then pure false
          else if !force && overflowSize ≤ (hallAt s r.hall).overflow.length then pure false
          else do
            modHall r.hall (fun h => { h with overflow := h.overflow ++ [{ cell := cell, ctx := r.ctx, key := frameKey cell node t.tag port 0, token := t }] })
            modRegion rid (fun r => { r with sys := { r.sys with perf := r.sys.perf.set 3 ((r.sys.perf[3]?).getD 0 + 1) } })
            stir rid
            pure true

/-- A frame entry of a cell that its node can now match because a pending poison has been replaced: its own, or one that it waited
beside. CMERGE's chosen port, or PAIR's row tag, is known only then (R277, R371, R408). -/
def settledEntry (r : Region) (cell : Nat) : Option (Nat × Token) :=
  (r.frames.find? (fun f => keyCell f.1 == cell && !f.2.token.isPending &&
    (match liveNode r.active cell (keyNode f.1) with
     | some x =>
       let m := matchingOf x.instr
       if m = .pair then f.2.token.isFinal || keyRow f.1 != rowtagOf .pair f.2.token
       else (completesWith m (inputsOf r r.active cell (keyNode f.1))
         (fun p => (kget r.frames (frameKey cell (keyNode f.1) (keyTag f.1) p 0)).map (·.token)) (keyPort f.1) f.2.token).isSome
     | none => false))).map (fun f => (f.1, f.2.token))

/-- Match the entries that replacements have settled in a cell. -/
def settleEntries (rid cell : Nat) : Nat → M Unit
  | 0 => pure ()
  | fuel + 1 => do
    let s ← get'
    match (kget s.regions rid).bind (fun r => settledEntry r cell) with
    | none => pure ()
    | some (k, t) => do
      modRegion rid (fun r => { r with frames := kdel r.frames k })
      let _ ← arriveToken rid cell (keyNode k) (keyPort k) t true true
      settleEntries rid cell fuel

/-! ### Channels -/

/-- A token leaves a channel's buffer. A place that a full buffer gains is reported before a producer uses it (R52). -/
def takeHead (k : Nat) : M Unit := modChan k (fun c =>
  { c with queue := c.queue.tail, freed := if c.depth ≤ c.used then c.freed + 1 else c.freed })

end Sys2Proof.Machine
end

