-- ==== Sys2Proof/Machine/Quiet.lean ====
section
/-! DEFINITION. The quiescence detector's counts (R67, R68, R315), the end of an iteration space (R38, R69), the block
scheduler (R44), and the start of a run (R38, R65, R283, R313, R323). -/
namespace Sys2Proof.Machine

/-! ### The four counts (R67) -/

/-- The region that a channel ends in. -/
def chanInto (r : Region) (rid : Nat) (c : Chan) : Bool :=
  match c.place with
  | .stream _ => c.src == rid
  | p => c.hall == r.hall && c.ctx == r.ctx && r.cells.contains (placeCell p)

/-- The number of elements of a stream: its dimensions are the first `count` (R112). -/
def streamTotal (d : StreamDesc) : Nat := (d.dims.take d.count).foldl (fun n p => n * p.1) 1

/-- A started read stream with elements left (R313). -/
def streamActive (x : Stream) : Bool := x.running && !x.desc.write && x.next < streamTotal x.desc

/-- A circuit of the program that can feed a port of the region's cells from outside them: a cell or a stream of an act
of another region, or an act in another hall. -/
def fedOutside (r : Region) (cell node port : Nat) : Bool :=
  r.program.acts.any (fun bs => match actSections bs with
    | none => false
    | some l =>
      let own := (nodeItems l).any (fun p => r.cells.contains p.1)
      (circuitItems l).any (fun p =>
        let inside := if 38 ≤ p.2.1 then own else r.cells.contains p.1
        (List.range (min (circuitCount p.2.2) 8)).any (fun i =>
          let d := circuitDest p.2.2 i
          bits d 19 3 == 0 && bits d 13 6 == cell && bits d 8 5 == node && bits d 6 2 == port && (bits d 22 6 != 0 || !inside))))

/-- Frame entries that count as injected and not consumed: those whose missing partner another region may still
send; an entry that waits for a token of its own region is residue (R67, R420). The specification does not say which entries count
(DESIGN CHOICE, log 47). -/
def awaited (s : State) (rid : Nat) (r : Region) : Nat :=
  if !(s.regions.any (fun p => p.1 != rid && p.2.vf == r.vf && p.2.state != .free)) then 0
  else (r.frames.map (fun f =>
    let (c, n, t) := (keyCell f.1, keyNode f.1, keyTag f.1)
    match liveNode r.active c n with
    | none => 0
    | some x =>
      if matchingOf x.instr = .cmerge then 0
      else ((inputsOf r r.active c n).filter (fun p =>
        (kget r.frames (frameKey c n t p (keyRow f.1))).isNone && fedOutside r c n p)).length)).foldl (· + ·) 0

/-- Tokens injected but not consumed. -/
def tokenCount (s : State) (rid : Nat) (r : Region) : Nat :=
  let sum := fun (l : List Nat) => l.foldl (· + ·) 0
  sum (s.chans.map (fun p => (if chanInto r rid p.2 then p.2.queue.length else 0) + (if p.2.src = rid ∧ ¬p.2.outside then p.2.flight.length else 0)))
  + sum (r.queues.map (fun p => p.2.q0.length + p.2.q1.length))
  + sum (r.ready.map (fun i => max 1 i.lane.ops.length))
  + sum (r.again.map (fun i => i.lanes.length))
  + ((hallAt s r.hall).overflow.filter (fun o => o.ctx == r.ctx && r.cells.contains o.cell)).length
  + (r.streams.filter (fun p => streamActive p.2 || p.2.held.isSome)).length
  + awaited s rid r

/-- Requests issued but not answered, with the writes that commits have sent (R131, R136), sequences and packets in work. -/
def requestCount (s : State) (rid : Nat) (r : Region) : Nat :=
  (s.reqs.filter (fun q => q.rid == rid)).length
  + (s.names.filter (·.rid == rid)).length + r.fires.length
  + (((hallAt s r.hall).plinths.flatMap (·.jobs)).filter (·.rid == rid)).length
  + ((s.wings.flatMap (fun w => (w.2.galleries.filter (fun g => g.2.vf == r.vf)).flatMap (fun g => g.2.reads))).filter (·.rid == rid)).length

/-- The words of an MCAST that have not left (R330). -/
def unsent (e : EngineCmd) : Nat :=
  match e.op with
  | .mcast _ _ => if e.done then 0 else e.len / 4 - e.sent
  | _ => 0

/-- Hand-overs not yet acknowledged (R68), with every token of an MCAST (R330). -/
def handoverCount (s : State) (rid : Nat) : Nat :=
  (s.chans.map (fun p => if p.2.src = rid then p.2.unacked else 0)).foldl (· + ·) 0
  + ((s.pkg.engines.filter (fun e => e.rid == some rid && (regionOf s e.vf rid).isSome)).map unsent).foldl (· + ·) 0

/-- A scan: the counts, and how many scans in a row found them zero. A region with a trap pending is not quiescent
(R401). Frame entries return at once, so their count is zero. DESIGN CHOICE, log 47. -/
def scan (s : State) (rid : Nat) (r : Region) : Detector :=
  let t := tokenCount s rid r
  let q := requestCount s rid r
  let h := handoverCount s rid
  { tokens := t, frames := 0, requests := q, handovers := h
    zeros := if t = 0 ∧ q = 0 ∧ h = 0 ∧ r.trap.isNone ∧ r.traps = [] then r.detector.zeros + 1 else 0 }

/-- The detector reports quiescence, and nothing has come since its last scan. -/
def quiescent (s : State) (rid : Nat) (r : Region) : Bool := 2 ≤ r.detector.zeros && (scan s rid r).zeros != 0

/-- The region's iteration space is exhausted (R38, R44). -/
def exhausted (r : Region) : Bool :=
  if hdrThread r.header then (kgetD r.threads r.seq.act []).isEmpty || 4096 ≤ r.run.admitted else r.run.left == 0

/-! ### The block scheduler (R44) -/

/-- `choose_act` over the acts but one. -/
def chooseAct (r : Region) (but : Option Nat) : Option Nat :=
  let waiting := r.threads.filter (fun p => !p.2.isEmpty && some p.1 != but)
  match waiting.find? (fun p => 16 ≤ kgetD r.ages p.1 0) with
  | some p => some p.1
  | none =>
    let best := waiting.foldl (fun n p => max n p.2.length) 0
    (waiting.find? (fun p => p.2.length == best)).map (·.1)

/-- The ages after a decision. -/
def agesAfter (r : Region) (chosen : Nat) : KMap Nat :=
  kset ((r.threads.filter (fun p => !p.2.isEmpty && p.1 != chosen)).foldl (fun m p => kset m p.1 (kgetD m p.1 0 + 1)) r.ages) chosen 0

/-- Load an act into the idle bank where it is not in a bank already; a refusal is left to the transfer that needs
the act. DEDUCED, log 76. -/
def preloadAct (rid act : Nat) : M Unit := do
  let s ← get'
  match kget s.regions rid with
  | none => pure ()
  | some r =>
    if r.active.act = some act ∨ r.idle.act = some act ∨ r.loading = some act then pure ()
    else do
      let _ ← attempt (startLoad rid act)
      pure ()

/-! ### The control network (R60, R240) -/

/-- A control word: class 1 a start bit, 2 a finish bit; context; target 0 a cell's counters, 1 a tile's stream counters; cell or tile; the
outermost counter of the nest; the tile's stream (R240). -/
def controlWord (cls ctx tgt unit ctr strm : Nat) : BitVec 32 :=
  BitVec.ofNat 32 (cls * 2 ^ 30 + ctx * 2 ^ 28 + tgt * 2 ^ 27 + unit * 2 ^ 21 + ctr * 2 ^ 18 + strm * 2 ^ 16)

/-- A stream that its start bit starts. -/
def Stream.begun (x : Stream) : Stream := { x with running := true, started := true, drained := false, next := 0, held := none, done := [], walk := none }

/-- A stream that has sent its finish bit. -/
def Stream.ended (x : Stream) : Stream := { x with running := false, drained := true, barred := false, ending := false }

/-- The control network carries a word to a region's counters in the step that sends it: the specification gives it no delay (DESIGN
CHOICE, log 112). A word of a reserved class or of another context reaches nothing. -/
def takeControl (r : Region) (w : BitVec 32) : Region :=
  let n := w.toNat
  let cls := bits n 30 2
  let r := { r with control := r.control ++ [w] }
  if bits n 28 2 ≠ r.ctx ∨ (cls ≠ 1 ∧ cls ≠ 2) then r
  else if bits n 27 1 = 1 then
    { r with streams := r.streams.map (fun p =>
        if p.2.desc.tile = bits n 21 6 ∧ p.2.desc.slot = bits n 16 2 then (p.1, if cls = 1 then p.2.begun else p.2.ended) else p) }
  else if bits n 21 6 = r.origin then { r with run := { r.run with counting := cls == 1 } }
  else r

/-- The start or finish bit of a stream's counters. -/
def streamWord (cls : Nat) (r : Region) (d : StreamDesc) : BitVec 32 := controlWord cls r.ctx 1 d.tile (d.count - 1) d.slot

/-- The start or finish bit of the act's iteration chain, which the origin cell's counters hold. -/
def chainWord (cls : Nat) (r : Region) : BitVec 32 := controlWord cls r.ctx 0 r.origin (hdrLevels r.header - 1) 0

/-! ### Starting a run -/

/-- A stream that STRM.GO has marked and that does not run. -/
def Stream.starts (x : Stream) : Bool := x.marked && !x.running && x.gallery.isNone

/-- The streams at a run's start: STRM.BAR's barriers begin, and one that has not lifted stays (R114, R323). A stream that still runs goes on. -/
def barStreams (l : KMap Stream) : KMap Stream := l.map (fun p =>
  let x := p.2
  (p.1, { x with
    marked := false, barMark := false, barred := x.barred || x.barMark, poisonReported := false
    started := x.running, drained := x.drained }))

/-- The start bits of a run: one for each stream that STRM.GO has marked, and one for the iteration chain where it has iterations (R38,
R60, R313). -/
def startWords (r : Region) (n : Nat) : List (BitVec 32) :=
  (r.streams.filter (·.2.starts)).map (fun p => streamWord 1 r p.2.desc) ++ (if hdrThread r.header || n == 0 then [] else [chainWord 1 r])

/-- The INIT nodes of a bank, each once in the cell that its tag selects (R58, R283). -/
def initNodes (r : Region) (b : Bank) : List (Nat × Nat × Nat) :=
  b.nodes.filterMap (fun p => match liveNode b (p.1 / 32) (p.1 % 32) with
    | some { instr := .init f, entry := e, fields := _ } =>
      let t := f.ex.toNat % 4096
      if e.size ≤ 1 ∨ groupCell r e.base e.size t = p.1 / 32 then some (p.1 / 32, p.1 % 32, t) else none
    | _ => none)

/-- A run starts: streams, INIT nodes and initial tokens (R38, R65, R283, R313). -/
def startRun (rid first n : Nat) : M Unit := do
  let s ← get'
  match kget s.regions rid with
  | none => pure ()
  | some r => do
    modRegion rid (fun r => (startWords r n).foldl takeControl { r with
      state := .running, runs := r.runs + 1, silence := s.timeNs, detector := {}, streams := barStreams r.streams, control := []
      run := { next := first, left := n }, active := { r.active with counts := [] }
      seq := r.seq.settled })
    each (initNodes r r.active) (fun p => addReady rid p.1 p.2.1 p.2.2 [])
    each r.active.inits (fun t => do
      let c := match kget r.active.nodes (initCell t * 32 + initNode t) with
        | some e => if e.size ≤ 1 then initCell t else groupCell r e.base e.size (initTag t)
        | none => initCell t
      let _ ← arriveToken rid c (initNode t) (initPort t) { value := BitVec.ofNat 32 (t.toNat % 2 ^ 32), tag := initTag t, kind := initKind t } true false
      pure ())
    whenM (hdrThread r.header) (match chooseAct r (some r.seq.act) with
      | some a => preloadAct rid a
      | none => pure ())

end Sys2Proof.Machine
end

