-- ==== Sys2Proof/Machine/SeqScalar.lean ====
section
/-! DEFINITION. The sequencer's scalar commands, its system registers and counters (R303, R304, R306, R169, R203,
R244 to R247, R320). -/
namespace Sys2Proof.Machine

/-! ### Arithmetic (R303) -/

/-- A command that writes a value of aS and B to aD. -/
def alu (f : CmdRec) (g : Nat → Nat → Nat) : M Next := do
  let a ← reg f.s
  let b ← operandB f
  setReg f.d (g a b)
  pure .done

/-- A 64-bit value as the integer that ty 0 or ty 1 reads (R303). -/
def seqInt (t : Ty) (v : Nat) : Int := if t = .i32 then signed 64 v else (v : Int)

/-- NOP (R303). -/
def execNop (s : State) : Host.Outcome State Fault Refusal := runCommand .anywhere true (pure .done) s
/-- LI (R303). -/
def execLi (f : CmdRec) (s : State) : Host.Outcome State Fault Refusal :=
  runCommand .anywhere true (do setReg f.d (sext f.imm); pure .done) s
/-- LIH: the upper half (R303). -/
def execLih (f : CmdRec) (s : State) : Host.Outcome State Fault Refusal :=
  runCommand .anywhere true (do let v ← reg f.d; setReg f.d (f.imm.toNat * 2 ^ 32 + v % 2 ^ 32); pure .done) s
/-- MOV (R303). -/
def execMov (f : CmdRec) (s : State) : Host.Outcome State Fault Refusal :=
  runCommand .anywhere true (do let v ← reg f.s; setReg f.d v; pure .done) s
/-- ADD (R303). -/
def execAddCmd (f : CmdRec) (s : State) : Host.Outcome State Fault Refusal := runCommand .anywhere true (alu f (· + ·)) s
/-- SUB (R303). -/
def execSubCmd (f : CmdRec) (s : State) : Host.Outcome State Fault Refusal :=
  runCommand .anywhere true (alu f (fun a b => a + (2 ^ 64 - b))) s
/-- MUL: the low 64 bits (R303). -/
def execMulCmd (f : CmdRec) (s : State) : Host.Outcome State Fault Refusal := runCommand .anywhere true (alu f (· * ·)) s
/-- AND (R303). -/
def execAndCmd (f : CmdRec) (s : State) : Host.Outcome State Fault Refusal := runCommand .anywhere true (alu f (· &&& ·)) s
/-- OR (R303). -/
def execOrCmd (f : CmdRec) (s : State) : Host.Outcome State Fault Refusal := runCommand .anywhere true (alu f (· ||| ·)) s
/-- XOR (R303). -/
def execXorCmd (f : CmdRec) (s : State) : Host.Outcome State Fault Refusal := runCommand .anywhere true (alu f (· ^^^ ·)) s
/-- SHL by B mod 64 (R303). -/
def execShlCmd (f : CmdRec) (s : State) : Host.Outcome State Fault Refusal :=
  runCommand .anywhere true (alu f (fun a b => a * 2 ^ (b % 64))) s
/-- SHR by B mod 64 (R303). -/
def execShrCmd (f : CmdRec) (s : State) : Host.Outcome State Fault Refusal :=
  runCommand .anywhere true (alu f (fun a b => a / 2 ^ (b % 64))) s
/-- SAR by B mod 64 (R303). -/
def execSarCmd (f : CmdRec) (s : State) : Host.Outcome State Fault Refusal :=
  runCommand .anywhere true (alu f (fun a b => unsigned 64 (signed 64 a / (2 ^ (b % 64) : Nat)))) s
/-- CMP: 1 when the condition holds (R236, R303). -/
def execCmpCmd (f : CmdRec) (s : State) : Host.Outcome State Fault Refusal :=
  runCommand .anywhere true (alu f (fun a b => if condHolds f.md.toNat (some (seqInt f.ty a - seqInt f.ty b)) then 1 else 0)) s
/-- MIN (R303). -/
def execMinCmd (f : CmdRec) (s : State) : Host.Outcome State Fault Refusal :=
  runCommand .anywhere true (alu f (fun a b => if seqInt f.ty a ≤ seqInt f.ty b then a else b)) s
/-- MAX (R303). -/
def execMaxCmd (f : CmdRec) (s : State) : Host.Outcome State Fault Refusal :=
  runCommand .anywhere true (alu f (fun a b => if seqInt f.ty a ≤ seqInt f.ty b then b else a)) s

/-! ### System registers (R244) -/

/-- REGION (R245). -/
def regionWord (r : Region) : Nat := r.hall * 2 ^ 48 + r.ctx * 2 ^ 40 + r.shape * 2 ^ 32 + r.seq.act * 2 ^ 6 + r.origin

/-- IDENT (R246). -/
def identRegWord (s : State) (r : Region) : Nat := s.pkg.number % 1024 * 2 ^ 48 + r.vf * 2 ^ 32 + r.wing

/-- A register of region scope. -/
def regionRegister (s : State) (r : Region) (n : Nat) : Option Nat :=
  match n with
  | 0x000 => some (regionWord r)
  | 0x001 => some (identRegWord s r)
  | 0x003 => some (min r.sys.gwIssues 0xFFFFFFFF * 2 ^ 32 + min r.sys.gwInsts 0xFFFFFFFF)
  | 0x004 => some r.sys.lostTerm
  | 0x005 => some r.sys.probUnder
  | 0x006 => some r.sys.thresh
  | 0x007 => some r.sys.trapEn.toNat
  | 0x008 => some (match r.trap with | some t => causeWord t | none => 0)
  | 0x009 => some (match r.trap with | some t => t.iv | none => 0)
  | 0x00A => some (match r.trap with | some t => trapPcWord t | none => 0)
  | 0x00B => some r.sys.trapVec.toNat
  | _ => none

/-- A register of hall, wing or function scope (R203, R244). -/
def outerRegister (s : State) (h : Home) (n : Nat) : Option Nat :=
  let w := kget s.wings h.wing
  match n with
  | 0x010 => some (match w with | some w => min w.forf 0xFFFFFFFF * 2 ^ 32 + w.sliceLen | none => 0)
  | 0x011 => some (match w with | some w => w.wpcap | none => 0)
  | 0x012 => some (vfAt s h.vf).saveBase
  | 0x013 => some (hallAt s h.hall).freq
  | k => if 0x040 ≤ k ∧ k ≤ 0x04B then some (((hallAt s h.hall).vtuse[k - 0x40]?).getD 0) else none

/-- The number of a register of region scope. -/
def regionScope (n : Nat) : Bool := n ≤ 0xB && n != 2

/-- MFS (R304): a reserved number is ILLOP (R432). -/
def execMfs (f : CmdRec) (s : State) : Host.Outcome State Fault Refusal :=
  runCommand .anywhere true (do
    let s ← get'
    let n := f.imm.toNat
    let h ← home
    let v := match kget s.regions s.who with
      | some r => (match regionRegister s r n with | some v => some v | none => outerRegister s h n)
      | none => if regionScope n then some 0 else outerRegister s h n
    match v with
    | some v => do
      setReg f.d v
      pure .done
    | none => illOp) s

/-- A disposition field after a write: 11 leaves it (R396). -/
def dispField (old new i : Nat) : Nat := if bits new (2 * i) 2 = 3 then bits old (2 * i) 2 else bits new (2 * i) 2

/-- TRAPEN after a write (R396). -/
def trapEnWrite (old new : Nat) : Nat :=
  new / 2 ^ 32 % 2 ^ 32 * 2 ^ 32 + ((List.range 5).map (fun i => dispField old new i * 4 ^ i)).foldl (· + ·) 0

/-- A region's registers after MTS (R169, R244, R396, R397). -/
def regionWrite (y : RegionRegs) (n v : Nat) : RegionRegs :=
  match n with
  | 0x004 => if v = 0 then { y with lostTerm := 0 } else y
  | 0x005 => if v = 0 then { y with probUnder := 0 } else y
  | 0x006 => { y with thresh := v % 2 ^ 32 }
  | 0x007 => { y with trapEn := BitVec.ofNat 64 (trapEnWrite y.trapEn.toNat v) }
  | 0x00B => { y with trapVec := BitVec.ofNat 64 (v % 512) }
  | _ => y

/-- A way-use code that software may write to ways 0 to 14 (R109, R416). DEDUCED, log 59. -/
def wayCodeOk (c : Nat) : Bool := c ≤ 2 || (4 ≤ c && c ≤ 7)

/-- MTS of a VTUSE register by the service sequencer (R109, R110, R118, R416, R432): the tile keeps as many cache ways as its wing's ranges
reserve. -/
def writeVtuse (hall tile v : Nat) : M Unit := do
  let s ← get'
  let h := hallAt s hall
  let changed := (List.range 15).filter (fun w => wayUse h tile w != bits v (4 * w) 4 && wayUse h tile w != 13)
  let left := ((List.range 15).filter (fun w => wayUse h tile w != 13 && bits v (4 * w) 4 == 0)).length
  let need := match h.wing.bind (kget s.wings) with | some w => waySum w.ranges | none => 0
  if (List.range 15).any (fun w => !wayCodeOk (bits v (4 * w) 4)) then illOp
  else if changed.any (wayBusy s hall tile) then illOp
  else if left < need then illOp
  else do
    each changed (fun w => startWalk hall tile w (bits v (4 * w) 4))
    balanceHall hall

/-- MTS (R304, R432): a service-only field is PRIV in a guest; a read-only register is unchanged. -/
def execMts (f : CmdRec) (s : State) : Host.Outcome State Fault Refusal :=
  runCommand .anywhere true (do
    let s ← get'
    let n := f.imm.toNat
    let v ← reg f.s
    let h ← home
    let svc := s.who == serviceRid
    if regionScope n then do
      modRegion s.who (fun r => { r with sys := regionWrite r.sys n v })
      pure .done
    else if n = 0x013 then pure .done
    else if (outerRegister s h n).isNone then illOp
    else if !svc then trapCode 0x11
    else do
      (match n with
       | 0x010 => modWing h.wing (fun w => { w with sliceLen := max 0x10000 (v % 2 ^ 32), forf := 0 })
       | 0x011 => modWing h.wing (fun w => { w with wpcap := v % 2 ^ 16 })
       | 0x012 => modVf h.vf (fun x => { x with saveBase := v % 2 ^ 57 / 16 * 16 })
       | k => writeVtuse h.hall (k - 0x40) v)
      pure .done) s

/-! ### Counters (R306) -/

/-- TIME: nanoseconds since power-on (R306). -/
def execTime (f : CmdRec) (s : State) : Host.Outcome State Fault Refusal :=
  runCommand .anywhere true (do let s ← get'; setReg f.d s.timeNs; pure .done) s

/-- TIME.cyc: cycles of the origin cell since the fuse (R306); timing is not modelled, so the count is free
(DESIGN CHOICE, log 2). -/
def execTimeCyc (f : CmdRec) (s : State) : Host.Outcome State Fault Refusal :=
  runCommand .anywhere true (do let n ← fresh; setReg f.d (Config.freeReading n); pure .done) s

/-- PERF (R306): counters 1 to 4 count events; 0 and 5 count cycles and are free (DESIGN CHOICE, log 2). -/
def execPerf (f : CmdRec) (s : State) : Host.Outcome State Fault Refusal :=
  runCommand .anywhere true (do
    let s ← get'
    let k := f.imm.toNat
    let n ← fresh
    let v := match kget s.regions s.who with
      | some r => if k = 0 ∨ k = 5 then Config.freeReading n else (r.sys.perf[k]?).getD 0
      | none => 0
    setReg f.d (min v (2 ^ 64 - 1))
    pure .done) s

/-! ### Capabilities (R223, R247, R320) -/

/-- A hall's working plinths. -/
def workingPlinths (s : State) (hall : Nat) : Nat :=
  if s.pkg.badDies.contains (dieOf hall) then 0
  else 3 - ((List.range 3).filter (fun k => s.pkg.retired.any (fun d => bits d 56 8 == 2 && bits d 50 6 == hall && bits d 44 6 == k))).length

/-- One bit for each element of a list that satisfies `p`. -/
def bitMap {α : Type} (l : List α) (p : α → Bool) : Nat := (l.zipIdx).foldl (fun n q => if p q.1 then n + 2 ^ q.2 else n) 0

/-- The words of each capability record after its header (R247). -/
def capBody (s : State) : Nat → List Nat
  | 1 => ([0, 1] : List Nat).map (fun k => ((List.range 32).map (fun h => workingPlinths s (32 * k + h) * 4 ^ h)).foldl (· + ·) 0)
  | 2 => [bitMap s.pkg.annex (·.present) + bitMap s.pkg.annex (fun p => p.trained && !p.lost) * 2 ^ 16]
  | 3 => [bitMap s.pkg.xlinks (·.present) + bitMap s.pkg.xlinks (·.up) * 2 ^ 16]
  | 4 => [bitMap s.conservators (·.working)]
  | 5 => [bitMap (List.range 64) (fun h => !s.pkg.badDies.contains (dieOf h))]
  | _ => s.pkg.retired.length :: s.pkg.retired

/-- Offsets of the records, laid end to end from 0x0100 in the order of their identifiers (R223, DESIGN CHOICE, log 19). -/
def capOffset (s : State) (id : Nat) : Nat := (List.range (id - 1)).foldl (fun o i => o + 8 * (1 + (capBody s (i + 1)).length)) 0x100

/-- A capability record's words (R223). -/
def capWords (s : State) (id : Nat) : List Nat :=
  let b := capBody s id
  (id * 2 ^ 48 + Config.capVersion id % 16 * 2 ^ 44 + 8 * (1 + b.length) * 2 ^ 32 + (if id = 6 then 0 else capOffset s (id + 1))) :: b

/-- CAP (R320): an offset that starts no record, or a word beyond it, is an operand out of range. -/
def execCap (f : CmdRec) (s : State) : Host.Outcome State Fault Refusal :=
  runCommand .regionOnly true (do
    let s ← get'
    let o ← reg f.s
    let off := if o = 0 then 0x100 else o
    match (([1, 2, 3, 4, 5, 6] : List Nat).find? (fun i => capOffset s i == off)).bind (fun i => (capWords s i)[f.imm.toNat]?) with
    | some v => do
      setReg f.d v
      pure .done
    | none => illOp) s

end Sys2Proof.Machine
end

