-- ==== Sys2Proof/Machine/SeqControl.lean ====
section
/-! DEFINITION. Transfers, the end of a program, regions, configurations and launches (R36 to R45, R308 to R317, R403,
R421, R432). -/
namespace Sys2Proof.Machine

/-! ### Entering an act (R39, R45, R55) -/

/-- An act that a transfer or a CFG.LOAD may name (R403, R432). -/
def actOk (p : Program) (a : Nat) : Bool := a < p.acts.length && !isHandlerAct p a

/-- A load for another launch than the one that the banks were loaded for waits (R210): one of CFG.LOAD until the region is Sealed, one of
a transfer, of which the rule does not speak, until it is quiescent, as a region that is Sealed is (DESIGN CHOICE, log 111). -/
def loadReady (rid : Nat) (transfer : Bool) : M Unit := do
  let s ← get'
  match kget s.regions rid with
  | none => pure ()
  | some r => if !r.relaunched || r.state == .sealed || (transfer && quiescent s rid r) then pure () else stall

/-- A transfer to an act: the banks exchange roles when the idle bank holds it, and it is loaded when none does. -/
def enterAct (rid a : Nat) : M Unit := do
  modRegion rid (fun r => { r with
    sys := { r.sys with gwIssues := 0, gwInsts := 0, lostTerm := 0, probUnder := 0 }, preload := none
    seq := { r.seq.settled with act := a, index := 0 } })
  let s ← get'
  match kget s.regions rid with
  | none => pure ()
  | some r =>
    if r.active.act = some a then pure ()
    else if r.idle.act = some a then eff (.region rid (some { r with active := r.idle, idle := r.active }))
    else if r.loading = some a then pure ()
    else do
      loadReady rid true
      startLoad rid a

/-- The next act of NEXT in sequence mode: the first after the current one that is no handler (R308). -/
def followingAct (p : Program) (act : Nat) : Nat :=
  (((List.range 256).map (fun i => (act + 1 + i) % 256)).find? (fun a => !isHandlerAct p a)).getD 0

/-! ### HALT (R309, R421) -/

/-- A region that another one of its function fused has given its place up at a slice's end (R210). -/
def parkedChild (s : State) (vf rid : Nat) (p : Region → Bool) : Bool :=
  (vfAt s vf).saves.any (fun x => x.parked && x.region.parent == some rid && p x.region)

/-- A region that this one fused, and has not collected, is not Free. -/
def childLive (s : State) (rid : Nat) (r : Region) : Bool :=
  r.children.any (fun c => (kget s.regions c).any (fun x => x.parent == some rid && x.state != .free)) || parkedChild s r.vf rid (fun _ => true)

/-- Every open invocation of a launch that ends: those done wait for their commit, the others are discarded and
reported (R421). -/
def endLaunch (rid : Nat) (r : Region) : M Unit := do
  let s ← get'
  let mine := (hallAt s r.hall).invs.filter (·.2.rid == rid)
  if mine.any (fun p => p.2.live == 0) then stall
  else each mine (fun p => discardInv r.hall p.1 true)

/-- The end of a region's program (R309). -/
def haltBody : M Next := do
  let (rid, r) ← myRegion
  let s ← get'
  if childLive s rid r then stall
  else do
    endLaunch rid r
    whenM r.root (faultRecord r.vf 6 rid { code := 0 } 0)
    freeRegion rid (r.seq.get 1)
    pure .moved

/-- The service sequencer's program has no region to free: it ends, and the sequencer stays at its HALT (R199, DESIGN CHOICE, log 6). -/
def onService (body : M Next) (inRegion : M Next) : M Next := do
  let s ← get'
  if s.who = serviceRid then body else inRegion

/-- HALT (R309). -/
def execHalt (s : State) : Host.Outcome State Fault Refusal :=
  runCommand .anywhere false (onService (pure .wait) haltBody) s

/-! ### Transfers (R308) -/

/-- A transfer to a named act. An act past the program's last raises ILLOP, for NEXT too (DESIGN CHOICE, log 75). The service sequencer's
next record follows from its own program (DESIGN CHOICE, log 6). -/
def goto (a : Nat) : M Next := onService (do
    modSeq (fun q => { q with act := a })
    pure .done) (do
  let (rid, r) ← myRegion
  if !actOk r.program a then illOp
  else do
    enterAct rid a
    pure .moved)

/-- NEXT: in thread mode the block scheduler's choice, and the end of the launch when no thread waits and the region is quiescent (R43). -/
def nextBody : M Next := onService (do
    modSeq (fun q => { q with act := (q.act + 1) % 256 })
    pure .done) (do
  let (rid, r) ← myRegion
  let s ← get'
  if hdrThread r.header then
    match (match r.preload with | some a => some a | none => chooseAct r none) with
    | some a => goto a
    | none => if quiescent s rid r then haltBody else stall
  else goto (followingAct r.program r.seq.act))

/-- NEXT (R308). -/
def execNext (s : State) : Host.Outcome State Fault Refusal := runCommand .anywhere false nextBody s

/-- JMP (R308). -/
def execJmp (f : CmdRec) (s : State) : Host.Outcome State Fault Refusal :=
  runCommand .anywhere false (do
    let a ← reg f.s
    goto ((a + f.imm.toNat) % 256)) s

/-- BR: to imm[7:0] when the condition holds, otherwise as NEXT (R308). -/
def execBr (f : CmdRec) (s : State) : Host.Outcome State Fault Refusal :=
  runCommand .anywhere false (do
    let a ← reg f.s
    let b ← reg f.t
    if condHolds f.md.toNat (some (seqInt f.ty a - seqInt f.ty b)) then goto (f.imm.toNat % 256) else nextBody) s

/-- CALL pushes an act on the return stack of eight entries (R308, R432). -/
def execCall (f : CmdRec) (s : State) : Host.Outcome State Fault Refusal :=
  runCommand .anywhere false (do
    let q ← mySeq
    if 8 ≤ q.stack.length then illOp
    else do
      modSeq (fun q => { q with stack := f.imm.toNat % 256 :: q.stack })
      pure .done) s

/-- RET pops the return stack into aD (R308, R432). -/
def execRet (f : CmdRec) (s : State) : Host.Outcome State Fault Refusal :=
  runCommand .anywhere false (do
    let q ← mySeq
    match q.stack with
    | [] => illOp
    | a :: t => do
      modSeq (fun q => { q with stack := t })
      setReg f.d a
      pure .done) s

/-! ### FUSE and SPLIT (R310, R311) -/

/-- A region that FUSE creates (R310). -/
def fusedRegion (s : State) (r : Region) (hall ctx shape origin fres a1 act : Nat) (rid : Nat) : Region :=
  { hall := hall, ctx := ctx, shape := shape, origin := origin, vf := r.vf, wing := r.wing, root := false, parent := some rid, fres := fres
    state := .idle
    seq := { (Sequencer.zero.put 1 (BitVec.ofNat 64 a1)).put 2 (BitVec.ofNat 64 (identOf r)) with act := act }
    header := r.header, program := r.program, silence := s.timeNs }

/-- FUSE (R310, R432): aD is 0 where the placement is not Free or the reservation does not fit. DEDUCED, log 38. -/
def execFuse (f : CmdRec) (s : State) : Host.Outcome State Fault Refusal :=
  runCommand .regionOnly false (do
    let (rid, r) ← myRegion
    let s ← get'
    let imm := f.imm.toNat
    let (origin, shape, hall, ctx, act) := (bits imm 0 6, bits imm 6 3, bits imm 9 6, bits imm 15 2, bits imm 17 8)
    let fres := max 1 (bits imm 25 5)
    let inWing := match kget s.wings r.wing with | some w => (wingHalls w).contains hall | none => false
    let a1 ← reg f.s
    if !aligned shape origin || !inWing || !actOk r.program act || 16 < bits imm 25 5 then illOp
    else if !placementFree s r.vf hall ctx shape origin || !reservationFits s r.vf hall ctx shape origin fres then do
      setReg f.d 0
      pure .done
    else do
      let x := fusedRegion s r hall ctx shape origin fres a1 act rid
      let k := ridOf hall ctx origin
      clearPlace r.vf hall ctx shape origin
      eff (.region k (some x))
      modRegion rid (fun r => { r with children := addNat r.children k })
      setReg f.d (identOf x)
      match ← attempt (startLoad k act) with
      | .ok _ => pure .done
      | .error t => do
        modRegion k (fun r => { r with traps := r.traps ++ [{ t with seq := true, act := act }] })
        pure .done) s

/-- The number of the region that an identifier names, where the identifier is well formed (R300). -/
def ridOfWord (v : Nat) : Option Nat :=
  if bits v 54 10 = 512 ∧ bits v 42 6 = 0 ∧ bits v 35 5 = 0 ∧ bits v 6 26 = 0 ∧ bits v 32 3 ≤ 4 then some (ridOf (bits v 48 6) (bits v 40 2) (bits v 0 6)) else none

/-- What SPLIT leaves of the issuer's children: the identifier's earliest result is taken, and its place is forgotten once the issuer has
neither a region nor another result there (R311). -/
def takeResult (s : State) (rid k ident : Nat) (r : Region) : Region :=
  let rest := (kgetD r.results ident []).tail
  let results := if rest.isEmpty then kdel r.results ident else kset r.results ident rest
  let stays := (kget s.regions k).any (fun x => x.parent == some rid && x.state != .free) || results.any (fun p => ridOfWord p.1 == some k)
  { r with results := results, children := if stays then r.children else r.children.filter (· != k) }

/-- SPLIT (R311, R411, R432). -/
def execSplit (f : CmdRec) (s : State) : Host.Outcome State Fault Refusal :=
  runCommand .regionOnly false (do
    let (rid, r) ← myRegion
    let v ← reg f.s
    let s ← get'
    match ridOfWord v with
    | none => illOp
    | some k =>
      if !r.children.contains k then illOp
      else match kgetD r.results v [] with
      | x :: _ => do
        modRegion rid (takeResult s rid k v)
        setReg f.d x.toNat
        pure .done
      | [] =>
        if (kget s.regions k).any (fun x => x.parent == some rid && identOf x == v) || parkedChild s r.vf rid (fun x => identOf x == v) then stall
        else illOp) s

/-! ### Configurations (R312, R313) -/

/-- CFG.LOAD (R39, R210, R312, R413, R432). A context number of a cell holds one region (R21): the issuer's, which R210's wait is for. -/
def execCfgLoad (f : CmdRec) (s : State) : Host.Outcome State Fault Refusal :=
  runCommand .regionOnly false (do
    let (rid, r) ← myRegion
    let a := f.imm.toNat % 256
    if !actOk r.program a then illOp
    else if r.active.act = some a ∨ r.idle.act = some a then do
      modRegion rid (fun r => { r with state := .idle })
      pure .done
    else do
      loadReady rid false
      startLoad rid a
      pure .done) s

/-- CFG.SEAL (R40, R312): it waits for quiescence. -/
def execCfgSeal (s : State) : Host.Outcome State Fault Refusal :=
  runCommand .regionOnly false (do
    let (rid, r) ← myRegion
    let s ← get'
    if quiescent s rid r then do
      modRegion rid (fun r => { r with state := .sealed })
      pure .done
    else stall) s

/-- A KIND 2 destination of the active bank that names no write stream of the region on its tile (R248, R432). -/
def strayStream (r : Region) : Bool :=
  r.active.circuits.any (fun p => (List.range (min (circuitCount p.2) 8)).any (fun i =>
    let d := circuitDest p.2 i
    bits d 19 3 == 2 && !((kget r.streams (bits d 8 5)).any (fun x => x.desc.write && x.desc.tile == bits d 13 6))))

/-- CFG.RUN (R38, R55, R313, R432): the run starts, and the sequencer's next command follows when it is complete. In a region that an image
has restored Sealed within its run, the run goes on (R318). -/
def execCfgRun (f : CmdRec) (s : State) : Host.Outcome State Fault Refusal :=
  runCommand .regionOnly false (do
    let (rid, r) ← myRegion
    let thread := hdrThread r.header
    let first ← reg f.s
    let b ← operandB f
    let n := if thread then (kgetD r.threads r.seq.act []).length else b
    if thread ∧ (f.s ≠ 0 ∨ f.t ≠ 0 ∨ f.imm ≠ 0) then trapCode 0x10
    else if r.midRun then do
      modRegion rid (fun r => { r with state := .running, midRun := false })
      pure .moved
    else if !thread && (!idValid r.header first || itersFrom r.header 1 < idOrdinal r.header first + n) then illOp
    else if (kget r.active.loops 0).isNone ∧ n ≠ 0 then illOp 7
    else if strayStream r then illOp 8
    else do
      startRun rid (if thread then 0 else first) (if thread then 0 else n)
      pure .moved) s

/-- CFG.NEXT (R312). -/
def execCfgNext (f : CmdRec) (s : State) : Host.Outcome State Fault Refusal :=
  runCommand .regionOnly false (do
    let (_, r) ← myRegion
    setReg f.d ((chooseAct r none).getD (2 ^ 64 - 1))
    pure .done) s

/-! ### LAUNCH (R316, R317, R421) -/

/-- LAUNCH (R317, R432): it ends the launch before it; in thread mode it queues one thread per identifier. DESIGN CHOICE, log 75. -/
def execLaunch (f : CmdRec) (s : State) : Host.Outcome State Fault Refusal :=
  runCommand .regionOnly false (do
    let (rid, r) ← myRegion
    let lo ← reg f.s
    let hi ← reg f.t
    let h := BitVec.ofNat 128 (hi * 2 ^ 64 + lo)
    if !hdrOk h || hdrCtx h != r.ctx || !actOk r.program (hdrEntry h) then illOp
    else if r.state ≠ .idle ∨ r.threads.any (fun p => !p.2.isEmpty) then trapCode 0x14
    else do
      endLaunch rid r
      modRegion rid (fun r => { r with
        header := h, relaunched := true
        threads := if hdrThread h then kset r.threads (hdrEntry h) ((List.range (itersFrom h 1)).map (idAt h)) else r.threads })
      pure .done) s

/-! ### CIRC (R314) and QUIESCE (R315) -/

/-- The key of the circuit entry that CIRC's imm names: an out-port of a cell, or a read stream by tile and slot. -/
def circTarget (r : Region) (imm : Nat) : Option Nat :=
  if bits imm 14 1 = 0 then
    if bits imm 6 2 = 0 ∧ bits imm 8 6 ≤ 37 ∧ r.cells.contains (bits imm 0 6) then some (bits imm 0 6 * 64 + bits imm 8 6) else none
  else
    match r.streams.find? (fun p => p.2.desc.tile == bits imm 8 4 && p.2.desc.slot == bits imm 12 2 && !p.2.desc.write) with
    | some p => if bits imm 0 8 = 0 then some (38 + p.1) else none
    | none => none

/-- CIRC (R314, R416, R432). -/
def execCirc (f : CmdRec) (s : State) : Host.Outcome State Fault Refusal :=
  runCommand .regionOnly false (do
    let (rid, r) ← myRegion
    let ref ← reg f.s
    match circTarget r f.imm.toNat with
    | none => illOp
    | some k => do
      let bs ← descriptor ref 32
      let e := BitVec.ofNat 256 (leNat bs)
      let s ← get'
      let halls := match kget s.wings r.wing with | some w => (wingHalls w).length | none => 1
      if !circuitOk halls r r.active e then illOp
      else do
        modRegion rid (fun r => { r with active := { r.active with circuits := kset r.active.circuits k e } })
        pure .done) s

/-- QUIESCE (R315). -/
def execQuiesce (f : CmdRec) (s : State) : Host.Outcome State Fault Refusal :=
  runCommand .regionOnly true (do
    let (rid, r) ← myRegion
    let s ← get'
    if quiescent s rid r then do
      setReg f.d 0
      pure .done
    else stall) s

/-- QUIESCE.probe (R315): the counts of the detector's last scan. -/
def execQuiesceProbe (f : CmdRec) (s : State) : Host.Outcome State Fault Refusal :=
  runCommand .regionOnly true (do
    let (_, r) ← myRegion
    setReg f.d (probeWord r.detector)
    pure .done) s

end Sys2Proof.Machine
end

