-- ==== Sys2Proof/Machine/SeqStreams.lean ====
section
/-! DEFINITION. The stream commands (R112 to R114, R322, R323, R432). -/
namespace Sys2Proof.Machine

/-- The descriptor that STRM.DEF's operands give (R322); none where a field is out of range (R432). DEDUCED, log 66. -/
def strmDesc (origin imm ext : Nat) : Option StreamDesc :=
  let fmt := bits imm 11 4
  let n := bits imm 17 3
  if bits imm 4 4 ≤ 11 ∧ (fmt ≤ 10 ∨ fmt = 14) ∧ 1 ≤ n ∧ n ≤ 6 then
    some { tile := bits imm 4 4, slot := bits imm 8 2, write := bits imm 10 1 == 1, fmt := tyOfCode fmt, fe := bits imm 15 2
           handle := ext % 256, origin := origin % 2 ^ 32, count := n, dims := List.replicate 6 (1, 0) }
  else none

/-- STRM.DEF (R322, R432). -/
def execStrmDef (f : CmdRec) (s : State) : Host.Outcome State Fault Refusal :=
  runCommand .regionOnly false (do
    let (rid, _) ← myRegion
    let o ← reg f.s
    match strmDesc o f.imm.toNat f.ext.toNat with
    | none => illOp
    | some d => do
      let ok ← defineStream rid (f.imm.toNat % 16) d
      if ok then pure .done else illOp) s

/-- STRM.DIM (R322, R432): a dimension of a defined stream. -/
def execStrmDim (f : CmdRec) (s : State) : Host.Outcome State Fault Refusal :=
  runCommand .regionOnly false (do
    let (rid, r) ← myRegion
    let ext ← reg f.s
    let stride ← reg f.t
    let k := f.imm.toNat % 16
    let d := bits f.imm.toNat 4 3
    match kget r.streams k with
    | none => illOp
    | some x =>
      if 5 < d ∨ ext < 1 ∨ 65536 < ext then illOp
      else do
        let y := { x with desc := { x.desc with dims := x.desc.dims.set d (ext, signed 32 stride) } }
        modRegion rid (fun r => { r with streams := kset r.streams k y })
        pure .done) s

/-- The streams of a mask. -/
def maskStreams (imm : Nat) : List Nat := (List.range 16).filter (fun k => bits imm k 1 == 1)

/-- Change the defined streams of a mask. -/
def modStreams (rid imm : Nat) (g : Stream → Stream) : M Unit := modRegion rid (fun r =>
  { r with streams := r.streams.map (fun p => if (maskStreams imm).contains p.1 then (p.1, g p.2) else p) })

/-- STRM.GO (R323, R432): a full/empty mode needs a scratch handle. -/
def execStrmGo (f : CmdRec) (s : State) : Host.Outcome State Fault Refusal :=
  runCommand .regionOnly false (do
    let (rid, r) ← myRegion
    let s ← get'
    let ks := maskStreams f.imm.toNat
    let onMemory := fun (k : Nat) => (kget r.streams k).any (fun x =>
      x.desc.fe != 0 && (handleAt s r.vf r.ctx x.desc.handle).visible.any (fun b => b.scratch == none))
    if !ks.all (fun k => (kget r.streams k).isSome) then illOp
    else if ks.any onMemory then trapCode 0x1B
    else do
      modStreams rid f.imm.toNat (fun x => { x with marked := true })
      pure .done) s

/-- STRM.BAR (R114, R323). DEDUCED, log 67. -/
def execStrmBar (f : CmdRec) (s : State) : Host.Outcome State Fault Refusal :=
  runCommand .regionOnly false (do
    let (rid, _) ← myRegion
    modStreams rid f.imm.toNat (fun x => { x with barMark := true })
    pure .done) s

/-- A stream's access is in progress. -/
def Stream.busy (x : Stream) : Bool := x.held.isSome || x.walk.isSome || !x.done.isEmpty

/-- STRM.END (R113, R323): a running stream ends, after its access in progress, and sends its finish bit. -/
def execStrmEnd (f : CmdRec) (s : State) : Host.Outcome State Fault Refusal :=
  runCommand .regionOnly false (do
    let (rid, _) ← myRegion
    modStreams rid f.imm.toNat (fun x => if x.running && x.busy then { x with ending := true } else x)
    modRegion rid (fun r =>
      ((r.streams.filter (fun p => (maskStreams f.imm.toNat).contains p.1 && p.2.running && !p.2.busy)).map (fun p => streamWord 2 r p.2.desc)).foldl takeControl r)
    pure .done) s

end Sys2Proof.Machine
end

