-- ==== Sys2Proof/Machine/Engines.lean ====
section
/-! DEFINITION. Engine commands: what an accepted command reads, writes and sends as it goes on (R127, R224 to R226,
R301, R328 to R334, R450, R452). -/
namespace Sys2Proof.Machine

/-! ### Accepted commands -/

/-- Change an accepted command. -/
def modEngine (number : Nat) (g : EngineCmd → EngineCmd) : M Unit := modPkg fun p =>
  { p with engines := p.engines.map (fun e => if e.number = number then g e else e) }

def engineAt (s : State) (number : Nat) : Option EngineCmd := s.pkg.engines.find? (·.number == number)

/-- Accept a command of the issuer and give its ticket (R297, R301). -/
def acceptEngine (engine : Nat) (e : Nat → EngineCmd) : M Nat := do
  let s ← get'
  let o ← home
  let n ← fresh
  let (count, cell) := match kget s.regions s.who with | some r => (r.tickets, r.origin) | none => (s.pkg.serviceTickets, 0)
  let t := engine * 2 ^ 60 + count + 1
  modRegion s.who (fun r => { r with tickets := count + 1 })
  modPkg (fun p => { p with
    serviceTickets := if s.who = serviceRid then count + 1 else p.serviceTickets
    engines := p.engines ++ [{ e n with number := n, rid := some s.who, hall := o.hall, vf := o.vf, ctx := o.ctx, cell := cell, ticket := t }] })
  pure t

/-! ### Reading and writing (R101, R105, R127, R438, R450) -/

/-- What a command has come to: not yet done, done, or faulted. -/
inductive EngineEnd where
  | goesOn | done | fault (t : TrapRec)

/-- Where a piece of a command's buffer lies: its guest address and its location, or none while a page walk for it goes on. -/
def enginePlace (e : EngineCmd) (b : Option Buffer) (right : Right) (off n unit : Nat) : M (Option (Nat × Nat)) := do
  match checkAccess b right off n unit with
  | .error c => trap { code := c, word8 := off }
  | .ok (some h, va) => pure (some (va, scratchAddr h va))
  | .ok (none, va) => do
    match ← findPage e.hall e.vf va right e.walk with
    | .ok a => pure (some (va, a))
    | .error w => do
      whenM (e.walk != some w) (do
        modEngine e.number (fun x => { x with walk := some w })
        match e.rid with
        | some rid => countMiss rid
        | none => pure ())
      pure none

/-- The next piece of the source is read: one event (R127). DEDUCED, log 68. -/
def readStep (e : EngineCmd) (unit : Nat) : M EngineEnd := do
  let n := min unit (e.len - e.data.length)
  match ← enginePlace e e.src .read (e.soff + e.data.length) n unit with
  | none => pure .goesOn
  | some (va, a) => do
    let bs ← readAt e.hall e.vf va a n
    modEngine e.number (fun x => { x with data := x.data ++ bs, walk := none })
    pure .goesOn

/-- The next piece of the destination is written: one event. -/
def writeStep (e : EngineCmd) (unit : Nat) (bs : List Byte) : M EngineEnd := do
  let n := min unit (bs.length - e.moved)
  match ← enginePlace e e.dst .write (e.doff + e.moved) n unit with
  | none => pure .goesOn
  | some (va, a) => do
    writeAt e.hall e.vf va a ((bs.drop e.moved).take n)
    modEngine e.number (fun x => { x with moved := x.moved + n, walk := none })
    pure .goesOn

/-- The two ranges of a copy overlap. -/
def overlaps (e : EngineCmd) : Bool :=
  match e.src, e.dst with
  | some a, some b => a.scratch == b.scratch && a.base + e.soff < b.base + e.doff + e.len && b.base + e.doff < a.base + e.soff + e.len
  | _, _ => false

/-- A copy has written all that it writes. -/
def copied (e : EngineCmd) : Bool := e.len ≤ e.moved

/-- A copy's next event: a read, or the write of what has been read, in an order that is free; where the ranges overlap every read comes
before the first write (R127, R328; DESIGN CHOICE, log 13). -/
def copyStep (e : EngineCmd) : M EngineEnd := do
  let n ← fresh
  let all := e.len ≤ e.data.length
  let may := decide (e.moved < e.data.length) && (all || !overlaps e)
  if may ∧ (all ∨ Config.freeChoice n % 2 = 1) then writeStep e 16 e.data
  else if all then pure .done
  else readStep e 16

/-! ### Rings and packages (R191, R192, R224, R225) -/

def ringAt (s : State) (vf ring : Nat) : Option Ring := kget (vfAt s vf).rings ring

def modRing (vf ring : Nat) (g : Ring → Ring) : M Unit := modVf vf (fun v => match kget v.rings ring with
  | some x => { v with rings := kset v.rings ring (g x) }
  | none => v)

/-- This package's place in a ring. -/
def ringPlace (s : State) (x : Ring) : Nat := x.members.idxOf s.pkg.number
def ringNext (s : State) (x : Ring) : Nat := (x.members[(ringPlace s x + 1) % x.members.length]?).getD 0
def ringPrior (s : State) (x : Ring) : Nat := (x.members[(ringPlace s x + x.members.length - 1) % x.members.length]?).getD 0

/-- Send a flit toward a package by the route table (R224). -/
def sendFlit (dest : Nat) (body : FlitBody) : M Unit := do
  let s ← get'
  match kget s.pkg.routes dest with
  | some link => modPkg (fun p => { p with outbox := p.outbox ++ [(link, { dest := dest, body := body })] })
  | none => pure ()

/-! ### Collectives (R225, R333) -/

/-- Bytes of an element: in memory, and in a partial sum, where bf16 stands widened. -/
def collBytes (t : Ty) : Nat := if t = .bf16 then 2 else 4

/-- Element `i` of bytes of a type as 32 bits; a bf16 element widens to FP32. -/
def collElem (t : Ty) (bs : List Byte) (i : Nat) : BitVec 32 :=
  let n := leNat ((bs.drop (collBytes t * i)).take (collBytes t))
  BitVec.ofNat 32 (if t = .bf16 then n * 65536 else n)

/-- Two contributions joined (R225, R333). -/
def collJoin (op : Nat) (t : Ty) (a b : BitVec 32) : BitVec 32 :=
  let v : Ops := fun p => if p = 0 then a else b
  match op, t with
  | 1, .i32 => (maxOp .i32 0 v).1
  | 2, .i32 => (minOp .i32 0 v).1
  | _, .i32 => (addOp .i32 0 v).1
  | 1, _ => (fmaxOp .f32 0 v).1
  | 2, _ => (fminOp .f32 0 v).1
  | _, _ => (faddOp .f32 0 v).1

/-- An element as it is written: a bf16 result is rounded once. -/
def collOut (t : Ty) (v : BitVec 32) : List Byte :=
  if t = .bf16 then bytesOfNat 2 ((fcvtOp .f32 .bf16 0 (fun _ => v)).1).toNat else bytesOfNat 4 v.toNat

/-- The chunks of N elements among n members: ⌈N/n⌉ elements each, as long as there are any (DEDUCED, log 22). -/
def collChunk (n total : Nat) (j : Nat) : Nat × Nat :=
  let c := (total + n - 1) / n
  (min (j * c) total, min ((j + 1) * c) total)

/-- The number of source and destination elements (R333). -/
def collSizes (op n total : Nat) : Nat × Nat := if op = 3 then (total, total / n) else if op = 4 then (total / n, total) else (total, total)

/-- A member's own contribution to a chunk, as 32-bit words. -/
def ownWords (e : EngineCmd) (t : Ty) (lo hi : Nat) : List (BitVec 32) := (List.range (hi - lo)).map (fun i => collElem t e.data (lo + i))

def wordsBytes (l : List (BitVec 32)) : List Byte := l.flatMap (fun v => bytesOfNat 4 v.toNat)
def bytesWords (bs : List Byte) : List (BitVec 32) := (List.range (bs.length / 4)).map (fun i => BitVec.ofNat 32 (leNat ((bs.drop (4 * i)).take 4)))

/-- Elements of a chunk as they are written and passed round. -/
def finalBytes (t : Ty) (l : List (BitVec 32)) : List Byte := l.flatMap (collOut t)

/-- What a member sends when it starts a collective: the partial that begins with it, its own chunk of a gather, or the
root's elements. -/
def collStart (s : State) (e : EngineCmd) (x : Ring) (ring op root : Nat) (t : Ty) (total seq : Nat) : M Unit := do
  let n := x.members.length
  let me := ringPlace s x
  let keep := fun (j : Nat) (bs : List Byte) => modEngine e.number (fun e => { e with chunks := kset e.chunks j bs })
  if op = 5 then
    if me = root then do
      keep 0 e.data
      sendFlit (ringNext s x) (.collective e.vf ring seq 0 true e.data)
    else pure ()
  else if op = 4 then do
    keep me e.data
    sendFlit (ringNext s x) (.collective e.vf ring seq me true e.data)
  else do
    let j := (me + n - 1) % n
    let (lo, hi) := collChunk n total j
    sendFlit (ringNext s x) (.collective e.vf ring seq j false (wordsBytes (ownWords e t lo hi)))

/-- One message of a collective at this member (R225): a partial takes its contribution and goes on, or is final here;
a final chunk is kept and passed on until it has gone round. -/
def collStep (e : EngineCmd) (x : Ring) (ring op root : Nat) (t : Ty) (total : Nat) (m : CollMsg) : M Unit := do
  let s ← get'
  let n := x.members.length
  let me := ringPlace s x
  let keep := fun (bs : List Byte) => modEngine e.number (fun e => { e with chunks := kset e.chunks m.chunk bs })
  if m.final then do
    keep m.bytes
    let origin := if op = 5 then root else m.chunk
    whenM ((me + 1) % n != origin) (sendFlit (ringNext s x) (.collective e.vf ring m.seq m.chunk true m.bytes))
  else
    let (lo, hi) := collChunk n total m.chunk
    let sum := (bytesWords m.bytes).zip (ownWords e t lo hi) |>.map (fun p => collJoin op t p.1 p.2)
    if m.chunk = me then do
      keep (finalBytes t sum)
      whenM (op != 3) (sendFlit (ringNext s x) (.collective e.vf ring m.seq m.chunk true (finalBytes t sum)))
    else sendFlit (ringNext s x) (.collective e.vf ring m.seq m.chunk false (wordsBytes sum))

/-- The chunks that complete a collective at this member. -/
def collNeeds (op n me : Nat) : List Nat := if op = 5 then [0] else if op = 3 then [me] else List.range n

/-! ### Going on (R301) -/

/-- MCAST's next word leaves, and counts as a hand-over wherever it goes (R330). -/
def mcastWord (e : EngineCmd) (rid out tag : Nat) : M Unit := do
  let s ← get'
  let d : Dest := .out (Fin.ofNat 16 out)
  let t := (tag + e.sent) % 4096
  match kget s.regions rid with
  | none => pure ()
  | some r => do
    each (destEdges s rid r e.cell d t) (fun x => do
      sendEdge { value := BitVec.ofNat 32 (leNat ((e.data.drop (4 * e.sent)).take 4)), tag := t } x
      whenM (!x.chan.outside) (modChan x.key (fun c => { c with unacked := c.unacked + 1 })))
    stir rid
  modEngine e.number (fun x => { x with sent := x.sent + 1 })

/-- The next word of an MCAST has been read and has places. -/
def wordReady (s : State) (e : EngineCmd) (rid out tag : Nat) : Bool :=
  decide (4 * (e.sent + 1) ≤ e.data.length) && (rid == serviceRid || (regionOf s e.vf rid).isSome) && roomAll s rid e.cell [(.out (Fin.ofNat 16 out), (tag + e.sent) % 4096)]

/-- An MCAST's next event: its words leave in order, each once it has been read, in no order with the writes (R139, R330). -/
def mcastStep (e : EngineCmd) (out tag : Nat) : M EngineEnd := do
  let s ← get'
  let n ← fresh
  match e.rid with
  | none => if copied e then pure .done else copyStep e
  | some rid =>
    if wordReady s e rid out tag ∧ (copied e ∨ Config.freeChoice n % 2 = 1) then do
      mcastWord e rid out tag
      pure .goesOn
    else if !copied e then copyStep e
    else if e.len / 4 ≤ e.sent then pure .done
    else stall

/-- An earlier send of a ring that has not been made. -/
def putAhead (s : State) (e : EngineCmd) (ring : Nat) : Bool :=
  s.pkg.engines.any (fun x => x.vf == e.vf && x.number < e.number && !x.done && x.op == .ringPut ring)

/-- A send's next event (R192, R332). -/
def putStep (e : EngineCmd) (ring : Nat) (x : Ring) : M EngineEnd := do
  let s ← get'
  if e.data = [] ∧ (x.free = 0 ∨ putAhead s e ring) then stall
  else if e.data.length < e.len then readStep e 16
  else do
    modRing e.vf ring (fun x => { x with free := x.free - 1 })
    sendFlit (ringNext s x) (.ringSlot e.vf ring e.data)
    pure .done

/-- A collective's next event (R225, R333). -/
def collMove (e : EngineCmd) (ring op root : Nat) (t : Ty) (total seq : Nat) (x : Ring) : M EngineEnd := do
  let s ← get'
  let me := ringPlace s x
  if e.sent = 0 then
    if (op ≠ 5 ∨ me = root) ∧ e.data.length < e.len then readStep e (collBytes t)
    else do
      modEngine e.number (fun y => { y with sent := 1 })
      collStart s e x ring op root t total seq
      pure .goesOn
  else match x.inbox.find? (fun m => m.seq == seq) with
  | some m => do
    modRing e.vf ring (fun x => { x with inbox := x.inbox.erase m })
    collStep e x ring op root t total m
    pure .goesOn
  | none =>
    let ks := collNeeds op x.members.length me
    let bs := ks.flatMap (fun k => (kget e.chunks k).getD [])
    if !ks.all (fun k => (kget e.chunks k).isSome) then stall
    else if e.moved < bs.length then writeStep e (collBytes t) bs
    else pure .done

/-- A command's next event. -/
def engineMove (e : EngineCmd) : M EngineEnd := do
  let s ← get'
  match e.op with
  | .copy => copyStep e
  | .mcast out tag => mcastStep e out tag
  | .ringPut ring =>
    match ringAt s e.vf ring with
    | none => pure .done
    | some x => if x.broken then pure (.fault { code := 0x48 }) else putStep e ring x
  | .coll ring op root t total seq =>
    match ringAt s e.vf ring with
    | none => pure .done
    | some x => if x.broken then pure (.fault { code := 0x48 }) else collMove e ring op root t total seq x

/-- A command of the same issuer to the same engine was issued before and has not started (R301). -/
def issuedAhead (s : State) (e : EngineCmd) : Bool :=
  s.pkg.engines.any (fun x => x.rid.isSome && x.vf == e.vf && x.rid == e.rid && x.ticket / 2 ^ 60 == e.ticket / 2 ^ 60 && x.number < e.number && !x.done && !x.started)

/-- A command goes on by one event: it stalls where it cannot, and answers how it stands after. -/
def engineStep (e : EngineCmd) : M EngineEnd := do
  let s ← get'
  if !e.started && issuedAhead s e then stall
  else match ← attempt (engineMove e) with
  | .error t => if t.code = stallCode then stall else pure (.fault t)
  | .ok x => do
    modEngine e.number (fun x => { x with started := true })
    pure x

/-- A command ends: its ticket is complete, or in error; a failed copy fails the shadow it wrote (R450). -/
def endEngine (e : EngineCmd) (error : Option (Nat × Nat)) : M Unit := do
  modEngine e.number (fun x => { x with done := true, error := error, data := [], chunks := [] })
  match error, e.shadow with
  | some _, some k => modVf e.vf (fun v => match kget v.handles k with
    | some h => { v with handles := kset v.handles k { h with shadowFailed := true } }
    | none => v)
  | _, _ => pure ()
  -- the ticket of a freed region is nobody's
  modPkg (fun p => { p with engines := p.engines.filter (fun x => !(x.number == e.number && x.rid.isNone)) })

/-- The cause of a ticket in error: a ring's break, or ENGINE (R433, R450, R452). -/
def engineCause (t : TrapRec) : Nat × Nat := (if t.code = 0x48 then 0x48 else 0x46, t.word8)

end Sys2Proof.Machine
end

