-- ==== Sys2Proof/Machine/SeqEngines.lean ====
section
/-! DEFINITION. The engine commands of a sequencer and their waits (R301, R328 to R334, R450, R452). -/
namespace Sys2Proof.Machine

/-! ### COPY, COPY.SH, PUBL, MCAST (R328 to R330) -/

/-- A command that reads one buffer and writes another. -/
def blankEngine (op : EngineOp) (src : Option Buffer) (soff : Nat) (dst : Option Buffer) (doff len : Nat) (shadow : Option Nat) : Nat → EngineCmd :=
  fun n => { number := n, rid := none, hall := 0, vf := 0, ctx := 0, cell := 0, ticket := 0, op := op, src := src, soff := soff
             dst := dst, doff := doff, len := len, shadow := shadow }

/-- A courier command is accepted (R301, R328, R330, R432). A new copy into a shadow starts it afresh. -/
def courier (f : CmdRec) (op : EngineOp) (unit : Nat) (shadow : Bool) : M Next := do
  let len := f.imm.toNat
  if len = 0 ∨ len % unit ≠ 0 then illOp
  else do
    let a ← reg f.s
    let b ← reg f.t
    checkRef a
    checkRef b
    let s ← get'
    let o ← home
    let k := handleKey o.ctx (refHandle b)
    let h := handleAt s o.vf o.ctx (refHandle b)
    let src ← myBuffer (refHandle a)
    let t ← acceptEngine 1 (blankEngine op src (refOff a) (if shadow then h.shadow else h.visible) (refOff b) len (if shadow then some k else none))
    whenM shadow (modHandle o (refHandle b) (fun h => { h with shadowFailed := false }))
    setReg f.d t
    pure .done

/-- COPY (R328). -/
def execCopy (f : CmdRec) (s : State) : Host.Outcome State Fault Refusal := runCommand .anywhere true (courier f .copy 16 false) s
/-- COPY.SH (R328). DEDUCED, log 69. -/
def execCopySh (f : CmdRec) (s : State) : Host.Outcome State Fault Refusal := runCommand .anywhere true (courier f .copy 16 true) s

/-- MCAST (R330). -/
def execMcast (f : CmdRec) (s : State) : Host.Outcome State Fault Refusal :=
  runCommand .anywhere true (courier f (.mcast (bits f.ext.toNat 0 4) (bits f.ext.toNat 4 12)) 4 false) s

/-- PUBL (R140, R329, R432, R450): the visible buffer and the shadow exchange mappings, and the version rises. -/
def execPubl (f : CmdRec) (s : State) : Host.Outcome State Fault Refusal :=
  runCommand .anywhere true (do
    let s ← get'
    let o ← home
    let n := f.imm.toNat % 256
    let k := handleKey o.ctx n
    let h := handleAt s o.vf o.ctx n
    match h.shadow with
    | none => illOp
    | some _ =>
      if s.pkg.engines.any (fun e => e.vf == o.vf && e.shadow == some k && !e.done) then stall
      else if h.shadowFailed then trapCode 0x47
      else do
        modHandle o n (fun h => { h with visible := h.shadow, shadow := h.visible, version := h.version + 1 })
        pure .done) s

/-! ### Rings (R331, R332) -/

/-- The ring that a descriptor describes; none for one out of range (R331, R416). -/
def ringOf (self ctx rid : Nat) (head tail : List Byte) : Option Ring :=
  let w0 := wordAt head 0
  let w1 := wordAt head 1
  let n := bits w0 48 16
  let ms := (List.range n).map (fun i => leNat ((tail.drop (2 * i)).take 2))
  let size := bits w0 0 32
  if 2 ≤ n ∧ n ≤ 1024 ∧ bits w0 32 8 = 0 ∧ bits w1 32 32 = 0 ∧ 16 ≤ size ∧ size ≤ 2 ^ 22 ∧ size % 16 = 0 ∧ ms.all (· < 1024) ∧ ms.count self = 1 then
    some { members := ms, handle := bits w0 40 8, ctx := ctx, slotSize := size, slot0 := bits w1 0 32, opened := [self], opener := some rid }
  else none

/-- RING.OPEN (R331): the ring takes a number, its peers are told, and the command waits until every member has opened
it. It waits as well while all 16 numbers are taken. DEDUCED, log 70. -/
def execRingOpen (f : CmdRec) (s : State) : Host.Outcome State Fault Refusal :=
  runCommand .anywhere true (do
    let o ← home
    let s ← get'
    match (vfAt s o.vf).rings.find? (fun p => p.2.opener == some s.who) with
    | some (k, x) =>
      if x.broken then trapCode 0x48
      else if x.members.all x.opened.contains then do
        modRing o.vf k (fun x => { x with opener := none })
        setReg f.d k
        pure .done
      else pure .wait
    | none => do
      let ref ← reg f.s
      let head ← descriptor ref 16
      let b ← myBuffer (refHandle ref)
      let tail ← loadWords b (refOff ref + 16) (2 * bits (wordAt head 0) 48 16)
      match ringOf s.pkg.number o.ctx s.who head tail with
      | none => illOp
      | some x =>
        match firstFree 16 (fun k => (kget (vfAt s o.vf).rings k).all (·.broken)) with
        | none => stall
        | some k => do
          -- openings told of before this one
          let known := (s.pkg.ringOpens.filter (fun p => p.2 == x.members)).map (·.1)
          let told := known.foldl addNat [s.pkg.number]
          modPkg (fun p => { p with ringOpens := told.foldl (fun l m => l.erase (m, x.members)) p.ringOpens })
          modVf o.vf (fun v => { v with rings := kset v.rings k { x with opened := told } })
          each (x.members.filter (· != s.pkg.number)) (fun m => sendFlit m (.ringOpened s.pkg.number x.members))
          if x.members.all told.contains then do
            modRing o.vf k (fun x => { x with opener := none })
            setReg f.d k
            pure .done
          else pure .wait) s

/-- An open ring of the issuer's function; ILLOP where the number names none. -/
def openRing (k : Nat) : M (Home × Ring) := do
  let o ← home
  let s ← get'
  match ringAt s o.vf k with
  | some x => if x.broken || x.opener.isSome then illOp else pure (o, x)
  | none => illOp

/-- RING.PUT (R332). -/
def execRingPut (f : CmdRec) (s : State) : Host.Outcome State Fault Refusal :=
  runCommand .anywhere true (do
    let k := f.imm.toNat % 16
    let (_, x) ← openRing k
    let a ← reg f.s
    checkRef a
    let src ← myBuffer (refHandle a)
    let t ← acceptEngine 2 (blankEngine (.ringPut k) src (refOff a) none 0 x.slotSize none)
    setReg f.d t
    pure .done) s

/-- RING.TAKE (R332, R452): it returns the count of the last slot, and waits for the next. -/
def execRingTake (f : CmdRec) (s : State) : Host.Outcome State Fault Refusal :=
  runCommand .anywhere true (do
    let k := f.imm.toNat % 16
    let o ← home
    let q ← mySeq
    let s ← get'
    let origin := match kget s.regions s.who with | some r => r.origin | none => 0
    match ringAt s o.vf k with
    | none => illOp
    | some x =>
      if x.broken then (if q.waiting then trapCode 0x48 else illOp)
      else if x.opener.isSome then illOp
      else
        let d : Dest := if bits f.ext.toNat 4 1 = 1 then .out (Fin.ofNat 16 f.ext.toNat) else .discard
        do
          whenM x.held (sendFlit (ringPrior s x) (.ringCredit o.vf k))
          modRing o.vf k (fun x => { x with held := false })
          if x.filled ≤ x.taken || !roomAll s s.who origin [(d, 0)] then pure .wait
          else do
            let ref := x.handle * 2 ^ 40 + (x.slot0 + x.taken % 2 * x.slotSize) % 2 ^ 32
            modRing o.vf k (fun x => { x with taken := x.taken + 1, held := true })
            emitTo s.who origin d { value := BitVec.ofNat 32 ref, tag := 0 }
            setReg f.d ref
            pure .done) s

/-! ### COLL (R333) -/

/-- A collective is accepted (R301, R333). -/
def collective (f : CmdRec) (op : Nat) : M Next := do
  let k := bits f.imm.toNat 0 4
  let (o, x) ← openRing k
  let n := x.members.length
  let total := f.ext.toNat
  let root := bits f.imm.toNat 8 10
  let a ← reg f.s
  let b ← reg f.t
  checkRef a
  checkRef b
  if total = 0 ∨ ((op = 3 ∨ op = 4) ∧ total % n ≠ 0) ∨ (op = 5 ∧ n ≤ root) then illOp
  else do
    let src ← myBuffer (refHandle a)
    let dst ← myBuffer (refHandle b)
    let len := (collSizes op n total).1 * collBytes f.ty
    let t ← acceptEngine 3 (blankEngine (.coll k op root f.ty total x.colls) src (refOff a) dst (refOff b) len none)
    modRing o.vf k (fun x => { x with colls := x.colls + 1 })
    setReg f.d t
    pure .done

/-- COLL.sum (R333). -/
def execCollSum (f : CmdRec) (s : State) : Host.Outcome State Fault Refusal := runCommand .anywhere true (collective f 0) s
/-- COLL.max (R333). -/
def execCollMax (f : CmdRec) (s : State) : Host.Outcome State Fault Refusal := runCommand .anywhere true (collective f 1) s
/-- COLL.min (R333). -/
def execCollMin (f : CmdRec) (s : State) : Host.Outcome State Fault Refusal := runCommand .anywhere true (collective f 2) s
/-- COLL.rs (R333). -/
def execCollRs (f : CmdRec) (s : State) : Host.Outcome State Fault Refusal := runCommand .anywhere true (collective f 3) s
/-- COLL.ag (R333). -/
def execCollAg (f : CmdRec) (s : State) : Host.Outcome State Fault Refusal := runCommand .anywhere true (collective f 4) s
/-- COLL.bc (R333). -/
def execCollBc (f : CmdRec) (s : State) : Host.Outcome State Fault Refusal := runCommand .anywhere true (collective f 5) s

/-! ### EWAIT and ECANCEL (R334, R450) -/

/-- The engine commands of a region. -/
def enginesOf (s : State) (rid : Nat) : List EngineCmd := s.pkg.engines.filter (·.rid == some rid)

/-- The trap of a ticket in error. -/
def ticketTrap (e : EngineCmd) : TrapRec := { code := (e.error.getD (0x46, 0)).1, operand := e.ticket % 2 ^ 32, word8 := (e.error.getD (0, 0)).2 }

/-- The issuer's engine commands. -/
def myEngines : M (List EngineCmd) := do
  let s ← get'
  pure (enginesOf s s.who)

/-- EWAIT (R334, R432, R450): a ticket, or with 0 every command of the region; then the first failed ticket traps, once. -/
def execEwait (f : CmdRec) (s : State) : Host.Outcome State Fault Refusal :=
  runCommand .anywhere true (do
    let a ← reg f.s
    let mine ← myEngines
    if a = 0 then
      match mine.find? (fun e => e.done && e.error.isSome && !e.reported) with
      | some e => do
        modEngine e.number (fun e => { e with reported := true })
        commandTrap (ticketTrap e)
        pure .moved
      | none => if mine.all (·.done) then pure .done else stall
    else match mine.find? (·.ticket == a) with
    | none => illOp
    | some e =>
      if !e.done then stall
      else if e.error.isSome then trap (ticketTrap e) else pure .done) s

/-- The bytes that a command writes in all. -/
def writesOf (e : EngineCmd) : Nat :=
  match e.op with
  | .copy | .mcast _ _ => e.len
  | .ringPut _ => 0
  | .coll _ op _ t total _ => if op = 3 then (e.chunks.map (·.2.length)).foldl (· + ·) 1 else total * collBytes t

/-- ECANCEL (R334): the command stops between two granules; what it has written stays. A send that has begun goes on. -/
def execEcancel (f : CmdRec) (s : State) : Host.Outcome State Fault Refusal :=
  runCommand .anywhere true (do
    let a ← reg f.s
    let mine ← myEngines
    match mine.find? (·.ticket == a) with
    | none => illOp
    | some e =>
      let sending := (match e.op with | .ringPut _ => !e.data.isEmpty | _ => false : Bool)
      let unwritten := (match e.op with | .ringPut _ => true | _ => e.moved < writesOf e : Bool)
      if e.done || sending then do
        setReg f.d 0
        pure .done
      else do
        modEngine e.number (fun e => { e with done := true, data := [], chunks := [] })
        setReg f.d (if unwritten then 1 else 0)
        pure .done) s

end Sys2Proof.Machine
end

