-- ==== Sys2Proof/Machine/Gallery.lean ====
section
/-! DEFINITION. Galleries: the chain of links, the limit-shift wave, the document registry, block reads and the
conservators' repairs (R172 to R189, R389 to R391, R440, R447, R448). -/
namespace Sys2Proof.Machine

/-! ### Buffers read and written whole (R101, R126) -/

/-- Bytes of a buffer, read within one step: what launches and saved images use (DESIGN CHOICE, log 105). -/
def readBuf (hall vf : Nat) (b : Option Buffer) (off n : Nat) : M (List Byte) :=
  match checkAccess b .read off n 1 with
  | .error c => trap { code := c, word8 := off }
  | .ok (scr, va) => do
    let l ← collect (granPieces va n) (fun p => do
      let a ← placeNow hall vf scr (va + p.1) .read
      readAt hall vf (va + p.1) a p.2)
    pure l.flatten

/-- Bytes of a buffer, written within one step (DESIGN CHOICE, log 105). -/
def writeBuf (hall vf : Nat) (b : Option Buffer) (off : Nat) (bs : List Byte) : M Unit :=
  match checkAccess b .write off bs.length 1 with
  | .error c => trap { code := c, word8 := off }
  | .ok (scr, va) => each (granPieces va bs.length) (fun p => do
      let a ← placeNow hall vf scr (va + p.1) .write
      writeAt hall vf (va + p.1) a ((bs.drop p.1).take p.2))

/-! ### The chain (R172 to R174) -/

def galleryAt (s : State) (wing g : Nat) : Option Gallery := (kget s.wings wing).bind (fun w => kget w.galleries g)

def modGallery (wing g : Nat) (h : Gallery → Gallery) : M Unit := modWing wing (fun w => match kget w.galleries g with
  | some x => { w with galleries := kset w.galleries g (h x) }
  | none => w)

/-- The gallery's length: the last link's limit. -/
def Gallery.length (g : Gallery) : Nat := ((g.links.getLast?).map Link.limit).getD 0

/-- Bytes of one element, and of a position's row at one layer (R176). -/
def Gallery.width (g : Gallery) : Nat := tyWidth g.fmt / 8
def Gallery.row (g : Gallery) : Nat := 2 * g.heads * g.dim * g.width

/-- The links of a tile in use. -/
def linksOn (w : Wing) (hall tile : Nat) : Nat :=
  (w.galleries.map (fun p => (p.2.links.filter (fun l => l.hall == hall && l.tile == tile)).length)).foldl (· + ·) 0

/-- The chain of a given number of links from a tile on; tiles without a free gallery-segment way are skipped (R173). -/
def chainFrom (s : State) (w : Wing) (hall tile n : Nat) : Option (List Link) :=
  let tiles := (snakeHalls w).flatMap (fun h => (List.range 12).map (fun t => (h, t)))
  let free := (tiles.dropWhile (· != (hall, tile))).filter (fun p =>
    decide (linksOn w p.1 p.2 < 32 * ((List.range 16).filter (fun y => wayUse (hallAt s p.1) p.2 y == 2)).length))
  if free.length < n then none else some ((free.take n).map (fun p => { hall := p.1, tile := p.2 }))

/-- The last link with an entry; the first where there is none. -/
def Gallery.lastOccupied (g : Gallery) : Nat :=
  ((g.links.zipIdx).filter (fun p => !p.1.segs.isEmpty)).foldl (fun _ p => p.2) 0

/-- The link that holds a position, or the last occupied one at the length (R183). -/
def Gallery.holder (g : Gallery) (p : Nat) : Nat :=
  match g.links.findIdx? (fun l => p < l.limit) with
  | some i => i
  | none => g.lastOccupied

def Gallery.link (g : Gallery) (i : Nat) : Link := (g.links[i]?).getD { hall := 0, tile := 0 }

/-- The segment that holds a position. -/
def Gallery.segAt (g : Gallery) (p : Nat) : Option Segment :=
  g.links.findSome? (fun l => l.segs.find? (fun e => e.start ≤ p && p < e.start + e.len))

def Gallery.segBy (g : Gallery) (id : Nat) : Option (Link × Segment) :=
  g.links.findSome? (fun l => (l.segs.find? (·.id == id)).map (fun e => (l, e)))

/-- Change the entry of a given identity. -/
def Gallery.modSeg (g : Gallery) (id : Nat) (h : Segment → Segment) : Gallery :=
  { g with links := g.links.map (fun l => { l with segs := l.segs.map (fun e => if e.id = id then h e else e) }) }

/-! ### The wave (R184) -/

/-- Write an entry after those that start before it. -/
def insertSeg (e : Segment) : List Segment → List Segment
  | [] => [e]
  | x :: t => if x.start < e.start then x :: insertSeg e t else e :: x :: t

/-- The indivisible update of link `i`. The limit of a link behind the new entry's rises also where the entry stands at the gallery's end:
R174 keeps those limits equal. DEDUCED, log 81. -/
def waveLink (x : Passing) (i : Nat) (l : Link) : Link :=
  let w := x.wave
  if w.cut then
    { l with
      gen := w.gen, limit := min l.limit w.pos
      segs := (l.segs.filter (fun e => decide (e.start < w.pos))).map (fun e => { e with len := min e.len (w.pos - e.start) }) }
  else
    let moved := l.segs.map (fun e => if w.pos ≤ e.start then { e with start := e.start + w.len, rot := e.rot + w.len } else e)
    { l with
      gen := w.gen
      limit := if w.pos < l.limit ∨ x.holder ≤ i then l.limit + w.len else l.limit
      segs := match x.entry with | some e => if i = x.holder then insertSeg e moved else moved | none => moved }

/-- A wave must wait: one still passes, or a read is too old (R184). -/
def Gallery.busy (g : Gallery) : Bool := g.wave.isSome || g.reads.any (fun r => r.gen + 8 ≤ g.gen + 1)

/-- Start a wave of the gallery's next generation; the record of the last eight is kept. -/
def startWave (g : Gallery) (cut : Bool) (pos len holder : Nat) (entry : Option Segment) (waiter : Nat) : Gallery :=
  let w : Wave := { gen := g.gen + 1, cut := cut, pos := pos, len := len }
  { g with
    gen := g.gen + 1, waves := (w :: g.waves).take 8
    wave := some { wave := w, next := 0, holder := holder, entry := entry, waiter := some waiter } }

/-- Split the entry that a position falls inside (R183). DEDUCED, log 81. -/
def splitSeg (g : Gallery) (p : Nat) (e : Segment) : Gallery :=
  let k := p - e.start
  let b : Segment := { e with start := p, len := e.len - k, skip := e.skip + k, id := g.nextId }
  { g with
    nextId := g.nextId + 1
    links := g.links.map (fun l => { l with segs := l.segs.flatMap (fun x => if x.id = e.id then [{ x with len := k }, b] else [x]) }) }

/-! ### Stale segments and repairs that end (R447) -/

/-- Every repair under way, with its conservator's die. -/
def repairsOf (s : State) : List (Nat × Repair) :=
  (s.conservators.zipIdx).flatMap (fun p => (p.1.repairs.filter (fun x => !x.ended)).map (fun x => (p.2, x)))

/-- Segments of a wing become Stale, and their repairs are cancelled. -/
def makeStale (wing : Nat) (p : Segment → Bool) : M Unit := do
  let s ← get'
  match kget s.wings wing with
  | none => pure ()
  | some w => do
    let hit := w.galleries.flatMap (fun g => (g.2.links.flatMap (·.segs)).filterMap (fun e => if p e then some (g.1, e.id) else none))
    each ((repairsOf s).filter (fun x => x.2.wing == wing && hit.contains (x.2.gallery, x.2.seg))) (fun x => cancelRepair x.1 x.2.number)
    modWing wing (fun w => { w with galleries := w.galleries.map (fun g =>
      (g.1, { g.2 with links := g.2.links.map (fun l => { l with segs := l.segs.map (fun e => if p e then { e with state := .stale } else e) }) })) })

/-! ### Block reads (R178 to R181, R185, R189, R448) -/

/-- The repair that runs on a segment. -/
def repairOn (s : State) (wing g id : Nat) : Option Repair :=
  ((repairsOf s).find? (fun x => x.2.wing == wing && x.2.gallery == g && x.2.seg == id && x.2.running)).map (·.2)

/-- A row of a Repairing segment is repaired at a layer (R189). -/
def rowRepaired (e : Segment) (r : Option Repair) (layer p : Nat) : Bool :=
  layer < e.wmark
  || (match r with
      | some x => x.probe ≤ layer && (match x.selected with | some l => !l.contains (p - e.start) | none => false)
      | none => false)

/-- What a link finds of one row. -/
inductive RowView where
  | ready (e : Segment)
  | waits
  | short
  deriving DecidableEq, Repr

def rowView (s : State) (wing g : Nat) (x : Gallery) (rd : BlockRead) (p : Nat) : RowView :=
  match x.segAt p with
  | none => .short
  | some e =>
    match e.state with
    | .stale => .short
    | .repairing =>
      let rp := repairOn s wing g e.id
      if rowRepaired e rp rd.layer p || rp.any (·.region == rd.rid) then .ready e else .waits
    | _ => .ready e

/-- The header of a block's packets (R179). -/
def blockHdr (g : Gallery) (rowtag rows : Nat) : PktHdr :=
  { fmt := tyCode g.fmt, rows := rows, cols := g.dim, scl := 0, spm := 0, lastk := 1, kch := 0, rowtag := rowtag }

/-- The key and the value row of one position (R176, R180). -/
def readRow (s : State) (hall : Nat) (g : Gallery) (rd : BlockRead) (p : Nat) (e : Segment) : Pieces (List Nat × List Nat) := do
  let b := (handleAt s g.vf g.ctx e.handle).visible
  let off := rd.layer * e.lstride + (e.skip + p - e.start) * g.row
  let n := g.dim * g.width
  let els := fun (bs : List Byte) => (List.range g.dim).map (fun i => leNat ((bs.drop (g.width * i)).take g.width))
  let ks ← readPieces hall g.vf b (off + rd.head * n) n
  let vs ← readPieces hall g.vf b (off + (g.heads + rd.head) * n) n
  pure ((ropeRow (tyCode g.fmt) g.fmt 0 e.rot g.base (els ks)).1, els vs)

/-- A block read ends: both packets, or final poison, enter their circuits under the request's tag, once both have room
there (R179, R389). -/
def answerBlock (wing g : Nat) (x : Gallery) (rd : BlockRead) (k v : Token) : M Unit := do
  let s ← get'
  match regionOf s x.vf rd.rid with
  | none => pure ()
  | some r =>
    let ks := circuitEdges s rd.rid r 0 (38 + x.ks) rd.tag
    let vs := circuitEdges s rd.rid r 0 (38 + x.vs) rd.tag
    if (ks ++ vs).all (edgeFree s 1) then do
      each ks (sendEdge k)
      each vs (sendEdge v)
      modGallery wing g (fun x => { x with reads := x.reads.filter (·.number != rd.number) })
      stir rd.rid
    else pure ()

/-- A short answer (R448): null packets, and one record of KIND 10 in each run of the region. DEDUCED, log 84. -/
def shortBlock (wing g : Nat) (x : Gallery) (rd : BlockRead) : M Unit := do
  let s ← get'
  let null := tileToken rd.tag (Pkt.bytes { hdr := blockHdr x rd.rowtag 0, rows := [] })
  answerBlock wing g x rd null null
  let s' ← get'
  match regionOf s x.vf rd.rid with
  | some r =>
    whenM (((galleryAt s' wing g).any (fun y => !y.reads.any (·.number == rd.number))) && x.shortRun != some r.runs) (do
      modGallery wing g (fun y => { y with shortRun := some r.runs })
      faultRecord r.vf 10 rd.rid { code := 0 } 0)
  | none => pure ()

/-- The link that holds the block's first position gathers its rows: those of its positions below the gallery's length (R179, R185). -/
def serveBlock (wing g : Nat) (x : Gallery) (rd : BlockRead) : M Unit := do
  let s ← get'
  let ps := rd.rows.filter (· < x.length)
  let rows := ps.length
  let views := ps.map (fun p => (p, rowView s wing g x rd p))
  if views.any (fun v => v.2 == .short) ∨ x.layers ≤ rd.layer ∨ x.heads ≤ rd.head then shortBlock wing g x rd
  else if views.any (fun v => v.2 == .waits) then pure ()
  else do
    let hall := (x.link rd.link).hall
    match ← attempt (stepPieces rd.pieces (views.mapM (fun v => match v.2 with | .ready e => readRow s hall x rd v.1 e | _ => pure ([], [])))) with
    | .ok (.error p) => modGallery wing g (fun x => { x with reads := x.reads.map (fun r => if r.number = rd.number then { r with pieces := p } else r) })
    | .ok (.ok kvs) =>
      let pkt := fun (l : List (List Nat)) => tileToken rd.tag (Pkt.bytes { hdr := blockHdr x rd.rowtag rows, rows := l.map (fun e => { els := e }) })
      answerBlock wing g x rd (pkt (kvs.map (·.1))) (pkt (kvs.map (·.2)))
    | .error t =>
      if t.code = stallCode then pure ()
      else if t.code = 0x40 then
        let p : Token := { value := poisonValue false 0 0x40, tag := rd.tag, kind := .poison }
        answerBlock wing g x rd p p
      else do
        modGallery wing g (fun x => { x with reads := x.reads.filter (·.number != rd.number) })
        regionFault rd.rid t 0

/-- A read's positions carried through a wave record; none when a cut has removed one of them (R185, R448). A position that lay beyond
the gallery's end at a cut named nothing: it is left out. -/
def carryRows (l : List Nat) (w : Wave) : Option (List Nat) :=
  if w.cut then if l.any (fun p => w.pos ≤ p && p < w.pos + w.len) then none else some (l.filter (· < w.pos))
  else some (l.map (fun p => if w.pos ≤ p then p + w.len else p))

/-- The positions in a later numbering: each is carried through each later wave record in turn (R185). -/
def carried (g : Gallery) (frm upTo : Nat) (l : List Nat) : Option (List Nat) :=
  ((g.waves.reverse).filter (fun w => frm < w.gen && w.gen ≤ upTo)).foldl (fun q w => q.bind (fun l => carryRows l w)) (some l)

/-- A block read is handled at the link it has reached (R179, R185). -/
def readAtLink (wing g : Nat) (x : Gallery) (rd : BlockRead) : M Unit := do
  let put := fun (h : BlockRead → BlockRead) => modGallery wing g (fun x =>
    { x with reads := x.reads.map (fun r => if r.number = rd.number then h r else r) })
  let l := x.link rd.link
  if x.broken then shortBlock wing g x rd
  else if l.gen < rd.gen then pure ()
  else if rd.gen < l.gen then
    match carried x rd.gen l.gen rd.rows with
    | some ps => put (fun r => { r with pos := ps.head?.getD r.pos, rows := ps, gen := l.gen, link := 0, pieces := {} })
    | none => shortBlock wing g x rd
  else if l.limit ≤ rd.pos ∧ rd.link + 1 < x.links.length then put (fun r => { r with link := r.link + 1 })
  else if (x.links.drop rd.link).all (·.gen == rd.gen) then serveBlock wing g x rd
  else pure ()

/-! ### Repairs (R187 to R189, R390, R391) -/

def modRepair (die number : Nat) (h : Repair → Repair) : M Unit := do
  let s ← get'
  match s.conservators[die]? with
  | some c => eff (.conservators (s.conservators.set die { c with repairs := c.repairs.map (fun x => if x.number = number ∧ ¬x.ended then h x else x) }))
  | none => pure ()

/-- The positions of a layer's threads, counted from the segment's first (R188). -/
def layerPositions (x : Repair) (len layer : Nat) : List Nat :=
  if layer < x.probe then List.range len else (x.selected.getD []).filter (· < len)

/-- Queue the threads of a layer at the entry act. -/
def startLayer (die : Nat) (x : Repair) (e : Segment) (layer : Nat) : M Unit := do
  let ids := (layerPositions x e.len layer).map (fun i => layer * 2 ^ 24 + (e.start + i))
  modRepair die x.number (fun y => { y with layer := layer, out := ids, copying := false })
  modRegion x.region (fun r => { r with threads := kset r.threads x.entry (kgetD r.threads x.entry [] ++ ids) })
  stir x.region

/-- A conservator with fewer than eight repairs in work takes the earliest that is queued (R187, R390). A queued repair whose segment can no
longer be repaired ends. DEDUCED, log 83. -/
def takeRepair (die : Nat) (x : Repair) : M Unit := do
  let s ← get'
  let all := ((s.conservators[die]?).map (fun c => c.repairs.filter (fun y => !y.ended))).getD []
  if 8 ≤ (all.filter (·.running)).length ∨ ((all.find? (fun y => !y.running)).map (·.number)) ≠ some x.number then pure ()
  else match (galleryAt s x.wing x.gallery).bind (fun g => (g.segBy x.seg).map (fun p => (g, p.2))) with
  | none => cancelRepair die x.number
  | some (g, e) =>
    if e.state = .live then modRepair die x.number (fun y => { y with ended := true })
    else if e.state = .spliced ∨ (e.state = .stale ∧ x.probe = g.layers) then do
      modGallery x.wing x.gallery (fun g => g.modSeg x.seg (fun e => { e with state := .repairing, wmark := 0 }))
      modRepair die x.number (fun y => { y with running := true })
      startLayer die x e 0
    else cancelRepair die x.number

/-- A conservator takes what it can of its queue, in order of issue. -/
def takeRepairs (die : Nat) : M Unit := do
  let s ← get'
  each (((s.conservators[die]?).map (fun c => c.repairs.filter (fun y => !y.ended && !y.running))).getD []) (takeRepair die)

/-- Every thread of the layer has retired and its invocation has committed. -/
def layerRetired (s : State) (x : Repair) : Bool :=
  match regionOf s x.vf x.region with
  | none => false
  | some r =>
    x.out.all (fun id =>
      !(r.threads.any (fun p => p.2.contains id)) && !r.run.started.contains id && (openInv s r x.region id).isNone)

/-- The rows of a repair: the staging row and the page row of a position at a layer (R176, R188). -/
def stagingRow (s : State) (x : Repair) (g : Gallery) (e : Segment) (layer i : Nat) : (Option Buffer × Nat) × (Option Buffer × Nat) :=
  (((handleAt s x.vf x.ctx x.staging).visible, layer * e.lstride + i * g.row),
   ((handleAt s g.vf g.ctx e.handle).visible, layer * e.lstride + (e.skip + i) * g.row))

/-- Copy rows of staging into the segment's pages (R391). -/
def copyRows (s : State) (hall : Nat) (x : Repair) (g : Gallery) (e : Segment) (layer : Nat) (l : List Nat) : Pieces Unit := do
  let _ ← l.mapM (fun i => do
    let (a, b) := stagingRow s x g e layer i
    let bs ← readPieces hall x.vf a.1 a.2 g.row
    writePieces hall g.vf b.1 b.2 bs)
  pure ()

/-- The difference of a staged and a cached row is above the threshold: the maximum over the key elements, FP32
differences, a NaN never above (R188). -/
def rowDiffers (g : Gallery) (thresh : BitVec 32) (a b : List Byte) : Bool :=
  let el := fun (bs : List Byte) (i : Nat) => elemVal (tyCode g.fmt) 0 (leNat ((bs.drop (g.width * i)).take g.width))
  let t := flOf .f32 thresh.toNat
  !t.isNan && (List.range (g.heads * g.dim)).any (fun i =>
    let (d, bad) := sumFl 0 [el a i, negFl (el b i)]
    if bad then false else
    match d with
    | .nan => false
    | .inf _ => t != .inf false
    | .fin _ m e =>
      (match sumFl 0 [.fin false m e, negFl t] with
       | (.fin n k _, _) => !n && k != 0
       | (.inf n, _) => !n
       | _ => false))

/-- The selection of step 2 (R188). -/
def selectRows (s : State) (hall : Nat) (x : Repair) (g : Gallery) (e : Segment) : Pieces (List Nat) := do
  let l ← (List.range e.len).mapM (fun i => do
    let (a, b) := stagingRow s x g e (x.probe - 1) i
    let n := g.heads * g.dim * g.width
    let u ← readPieces hall x.vf a.1 a.2 n
    let v ← readPieces hall g.vf b.1 b.2 n
    pure (i, rowDiffers g x.thresh u v))
  pure ((l.filter (·.2)).map (·.1))

/-- A step of a repair that reads or writes memory, one piece (R127), and what follows the last; a fault cancels the repair (R447). -/
def repairStep {α : Type} (die : Nat) (x : Repair) (m : Pieces α) (last : α → M Unit) : M Unit := do
  match ← attempt (stepPieces x.pieces m) with
  | .ok (.error p) => modRepair die x.number (fun y => { y with pieces := p })
  | .ok (.ok a) => do
    modRepair die x.number (fun y => { y with pieces := {} })
    last a
  | .error t => if t.code = stallCode then pure () else cancelRepair die x.number

/-- A running repair with its gallery, the hall of its segment's link and the segment. -/
def repairView (s : State) (x : Repair) : Option (Gallery × Nat × Segment) :=
  (galleryAt s x.wing x.gallery).bind (fun g => (g.segBy x.seg).map (fun p => (g, p.1.hall, p.2)))

/-- The repair of a number. -/
def repairNo (s : State) (number : Nat) : Option (Nat × Repair) :=
  (s.conservators.zipIdx).findSome? (fun p => (p.1.repairs.find? (·.number == number)).map (fun x => (p.2, x)))

/-- A layer's threads have retired (R188, R390). -/
def layerDone (die : Nat) (x : Repair) : M Unit := do
  let s ← get'
  if !x.running then takeRepair die x
  else if x.copying || !layerRetired s x then pure ()
  else match repairView s x with
  | none => cancelRepair die x.number
  | some (g, hall, e) =>
    if x.layer + 1 < x.probe then repairStep die x (copyRows s hall x g e x.layer (List.range e.len)) (fun _ => startLayer die x e (x.layer + 1))
    else if x.layer + 1 = x.probe then repairStep die x (selectRows s hall x g e) (fun l => modRepair die x.number (fun y => { y with selected := some l, copying := true }))
    else modRepair die x.number (fun y => { y with copying := true })

/-- A copy of staging has performed: the watermark rises, and the segment is Live at the last layer (R186, R390). -/
def copyDone (die : Nat) (x : Repair) : M Unit := do
  let s ← get'
  if !(x.running && x.copying) then pure ()
  else match repairView s x with
  | none => cancelRepair die x.number
  | some (g, hall, e) => repairStep die x (copyRows s hall x g e x.layer (if x.layer < x.probe then List.range e.len else layerPositions x e.len x.layer)) (fun _ => do
      let last : Bool := decide (g.layers ≤ x.layer + 1)
      modGallery x.wing x.gallery (fun g => g.modSeg x.seg (fun e =>
        { e with wmark := x.layer + 1, state := if last then .live else e.state }))
      if last then modRepair die x.number (fun y => { y with ended := true })
      else startLayer die x e (x.layer + 1))

end Sys2Proof.Machine
end

