-- ==== Sys2Proof/Machine/SeqGallery.lean ====
section
/-! DEFINITION. The gallery commands (R172 to R190, R375 to R378, R390, R432, R447, R448). -/
namespace Sys2Proof.Machine

/-- The gallery command's state excludes it (R433, R448). DEDUCED, log 82. -/
def gstate {α : Type} : M α := trapCode 0x49

/-- The open gallery that imm[7:0] names, with its wing's number. A broken one admits GAL.CLOSE alone (R438). -/
def myGallery (f : CmdRec) (close : Bool := false) : M (Nat × Nat × Wing × Gallery) := do
  let (wk, w) ← myWing
  let k := f.imm.toNat % 256
  match kget w.galleries k with
  | none => gstate
  | some g => if g.broken && !close then gstate else pure (wk, k, w, g)

/-! ### GAL.OPEN and GAL.CLOSE (R172, R173, R375, R376, R389) -/

/-- A stream of a region has a direction and a format, and no gallery (R375). -/
def streamIs (r : Region) (k : Nat) (write : Bool) (ty : Ty) : Bool :=
  (kget r.streams k).any (fun x => x.desc.write == write && x.desc.fmt == ty && x.gallery.isNone)

/-- A gallery descriptor is in range for a wing and a region (R172, R375, R416). -/
def galleryDescOk (w : Wing) (r : Region) (w0 w1 : Nat) : Bool :=
  let d := bits w0 42 8
  let fmt := bits w0 38 4
  bits w0 32 6 == 0 && bits w1 46 6 == 0 && bits w1 0 26 == 0 && 16 ≤ d && d ≤ 128 && d % 2 == 0 && 7 ≤ fmt && fmt ≤ 10
  && 0x3F800000 < bits w0 0 32 && bits w0 0 32 ≤ 0x7F800000
  && (wingHalls w).contains (bits w1 40 6) && bits w1 36 4 < 12 && bits w1 26 10 < 768
  && bits w1 56 4 != bits w1 52 4
  && streamIs r (bits w1 60 4) true .n32 && streamIs r (bits w1 56 4) false .tile && streamIs r (bits w1 52 4) false .tile

/-- Bind a stream to a gallery, or free it. -/
def bindStream (rid k : Nat) (g : Option Nat) : M Unit := modRegion rid (fun r => match kget r.streams k with
  | some x => { r with streams := kset r.streams k { x with gallery := g } }
  | none => r)

/-- GAL.OPEN (R375). -/
def execGalOpen (f : CmdRec) (s : State) : Host.Outcome State Fault Refusal :=
  runCommand .regionOnly false (do
    let (rid, r) ← myRegion
    let (wk, w) ← myWing
    let ref ← reg f.s
    let bs ← descriptor ref 16
    let s ← get'
    let (w0, w1) := (wordAt bs 0, wordAt bs 1)
    if !galleryDescOk w r w0 w1 then illOp
    else match firstFree 256 (fun k => (kget w.galleries k).isNone), chainFrom s w (bits w1 40 6) (bits w1 36 4) (bits w1 26 10 + 1) with
    | some k, some links => do
      let g : Gallery := {
        layers := bits w0 56 8 + 1, heads := bits w0 50 6 + 1, dim := bits w0 42 8, fmt := tyOfCode (bits w0 38 4), base := BitVec.ofNat 32 w0
        owner := rid, rq := bits w1 60 4, ks := bits w1 56 4, vs := bits w1 52 4, vf := r.vf, ctx := r.ctx, links := links }
      modWing wk (fun w => { w with galleries := kset w.galleries k g })
      each [g.rq, g.ks, g.vs] (fun i => bindStream rid i (some k))
      setReg f.d k
      pure .done
    | _, _ => gstate) s

/-- GAL.CLOSE (R186, R376). -/
def execGalClose (f : CmdRec) (s : State) : Host.Outcome State Fault Refusal :=
  runCommand .regionOnly false (do
    let (wk, k, _, g) ← myGallery f true
    let s ← get'
    if !g.reads.isEmpty || g.wave.isSome || (repairsOf s).any (fun x => x.2.wing == wk && x.2.gallery == k) then stall
    else do
      modWing wk (fun w => { w with galleries := kdel w.galleries k })
      each [g.rq, g.ks, g.vs] (fun i => do
        let s ← get'
        match (kget s.regions g.owner).bind (fun r => kget r.streams i) with
        | some x => if x.gallery = some k then bindStream g.owner i none else pure ()
        | none => pure ())
      pure .done) s

/-! ### GAL.APPEND, SPLICE, GAL.CUT (R177, R183, R184, R376) -/

/-- The most positions of a gallery (R174). -/
def maxLength : Nat := 2 ^ 24

/-- The last segment that an append extends (R177). -/
def extends? (g : Gallery) (handle lstride skip : Nat) : Option Segment :=
  match g.segAt (g.length - 1) with
  | some e => if e.state = .live ∧ e.doc = 0 ∧ e.handle = handle ∧ e.lstride = lstride ∧ e.skip + e.len = skip then some e else none
  | none => none

/-- GAL.APPEND (R177, R376). It waits for a wave that passes. -/
def execGalAppend (f : CmdRec) (s : State) : Host.Outcome State Fault Refusal :=
  runCommand .regionOnly false (do
    let (wk, k, _, g) ← myGallery f
    let n ← reg f.s
    let t ← reg f.t
    let (lstride, handle, skip) := (bits t 32 32, bits t 24 8, bits t 0 24)
    if n = 0 then illOp
    else if g.wave.isSome then stall
    else if maxLength < g.length + n then gstate
    else do
      let occ := g.lastOccupied
      let grow := fun (links : List Link) (i : Nat) => (links.zipIdx).map (fun p => if i ≤ p.2 then { p.1 with limit := g.length + n } else p.1)
      match extends? g handle lstride skip with
      | some e => do
        modGallery wk k (fun g =>
          let g := g.modSeg e.id (fun e => { e with len := e.len + n })
          { g with links := grow g.links occ })
        pure .done
      | none =>
        let i := if (g.link occ).segs.length < 64 then occ else occ + 1
        if g.links.length ≤ i then gstate
        else do
          let e : Segment := { state := .live, wmark := g.layers, start := g.length, len := n, rot := 0, skip := skip, handle := handle
                               doc := 0, ver := 0, lstride := lstride, reg := 0, id := g.nextId }
          modGallery wk k (fun g => { g with
            nextId := g.nextId + 1
            links := grow ((g.links.zipIdx).map (fun p => if p.2 = i then { p.1 with segs := p.1.segs ++ [e] } else p.1)) i })
          pure .done) s

/-- The command's own wave still passes; its last link sends the sequencer on. -/
def myWave (g : Gallery) (rid : Nat) : Bool := g.wave.any (fun x => x.waiter == some rid)

/-- SPLICE (R183, R376, R448). It reads its registry entry once, when it issues. -/
def execSplice (f : CmdRec) (s : State) : Host.Outcome State Fault Refusal :=
  runCommand .regionOnly false (do
    let (rid, _) ← myRegion
    let (wk, k, w, g) ← myGallery f
    let p ← reg f.s
    let a ← reg f.t
    let q ← mySeq
    if myWave g rid then pure .wait
    else if 4096 ≤ a then illOp
    else match q.entry <|> kget w.docs a with
    | none => gstate
    | some d =>
      let h := g.holder p
      let cut := (g.link h).segs.find? (fun e => e.start < p && p < e.start + e.len)
      let need := if cut.isSome then 2 else 1
      if d.state ≠ .current then gstate
      else if g.busy then do
        modSeq (fun q => { q with entry := some d })
        pure .wait
      else if g.length < p ∨ maxLength < g.length + d.len ∨ 64 < (g.link h).segs.length + need then gstate
      else if cut.any (·.state == .repairing) then do
        modSeq (fun q => { q with entry := some d })
        pure .wait
      else do
        modGallery wk k (fun g =>
          let g := match cut with | some e => splitSeg g p e | none => g
          let e : Segment := { state := .spliced, wmark := 0, start := p, len := d.len, rot := (p : Int) - d.base, skip := 0, handle := d.handle
                               doc := d.doc, ver := d.ver, lstride := d.lstride, reg := a, id := g.nextId }
          startWave { g with nextId := g.nextId + 1 } false p d.len h (some e) rid)
        pure .wait) s

/-- GAL.CUT (R184, R376). -/
def execGalCut (f : CmdRec) (s : State) : Host.Outcome State Fault Refusal :=
  runCommand .regionOnly false (do
    let (rid, _) ← myRegion
    let (wk, k, _, g) ← myGallery f
    let p ← reg f.s
    if myWave g rid then pure .wait
    else if g.busy then stall
    else do
      modGallery wk k (fun g => startWave g true p (g.length - p) (g.holder p) none rid)
      pure .wait) s

/-! ### PROV (R182, R377, R447) -/

/-- PROV (R377): lower versions of the document become Superseded in the same step. -/
def execProv (f : CmdRec) (s : State) : Host.Outcome State Fault Refusal :=
  runCommand .regionOnly false (do
    let (wk, w) ← myWing
    let ref ← reg f.s
    let bs ← descriptor ref 24
    let (w0, w1, w2) := (wordAt bs 0, wordAt bs 1, wordAt bs 2)
    let (doc, ver, n) := (bits w0 32 32, bits w0 16 16, bits w1 32 25)
    if doc = 0 ∨ bits w0 0 16 ≠ 0 ∨ bits w1 57 7 ≠ 0 ∨ bits w1 24 8 ≠ 0 ∨ bits w2 0 24 ≠ 0 ∨ n = 0 ∨ 2 ^ 24 < n then illOp
    else match firstFree 4096 (fun k => (kget w.docs k).isNone) with
    | none => gstate
    | some k => do
      let lower := (w.docs.filter (fun p => p.2.doc == doc && decide (p.2.ver < ver))).map (·.1)
      makeStale wk (fun e => e.doc == doc && lower.contains e.reg && (e.state == .spliced || e.state == .repairing))
      let entry : DocEntry := { doc := doc, ver := ver, base := bits w1 0 24, len := n, handle := bits w2 24 8, lstride := bits w2 32 32, state := .current }
      modWing wk (fun w =>
        let older := w.docs.map (fun p => if lower.contains p.1 then (p.1, { p.2 with state := .superseded }) else p)
        { w with docs := kset older k entry })
      setReg f.d k
      pure .done) s

/-- PROV.rev (R377, R447). An entry that is not there is an operand out of range. -/
def execProvRev (f : CmdRec) (s : State) : Host.Outcome State Fault Refusal :=
  runCommand .regionOnly false (do
    let (wk, w) ← myWing
    let a ← reg f.s
    let b ← reg f.t
    let hit := (w.docs.filter (fun p => p.2.doc == bits a 0 32 && p.2.ver == bits b 0 16)).map (·.1)
    if hit.isEmpty then illOp
    else do
      makeStale wk (fun e => e.doc == bits a 0 32 && hit.contains e.reg)
      modWing wk (fun w => { w with docs := w.docs.map (fun p => if hit.contains p.1 then (p.1, { p.2 with state := .revoked }) else p) })
      pure .done) s

/-! ### REPAIR and REPAIR.WAIT (R187, R378, R390, R440, R447) -/

/-- The conservator that serves a die: its own, or the next that works (R440). -/
def workingDie (s : State) (die : Nat) : Option Nat :=
  ((List.range 4).map (fun i => (die + i) % 4)).find? (fun d => (s.conservators[d]?).any (·.working))

/-- REPAIR (R378). -/
def execRepair (f : CmdRec) (s : State) : Host.Outcome State Fault Refusal :=
  runCommand .regionOnly false (do
    let (_, r) ← myRegion
    let (wk, k, _, g) ← myGallery f
    let p ← reg f.s
    let v ← reg f.t
    let s ← get'
    let probe := if bits f.imm.toNat 8 8 = 0 then 256 else bits f.imm.toNat 8 8
    let act := bits f.imm.toNat 16 8
    match ridOfIdent s v, (ridOfIdent s v).bind (kget s.regions) with
    | some rr, some x =>
      if x.wing ≠ r.wing ∨ !hdrThread x.header ∨ g.layers < probe ∨ !actOk x.program act then illOp
      else match g.links.find? (fun l => l.segs.any (fun e => e.start ≤ p && p < e.start + e.len)), g.segAt p with
      | some l, some e =>
        if !(e.state == .spliced || (e.state == .stale && probe == g.layers)) then gstate
        else if 65536 < e.len then illOp
        else match workingDie s (dieOf l.hall) with
        | none => gstate
        | some die => do
          let n := match s.conservators[die]? with | some c => c.count + 1 | none => 1
          let q : Repair := { number := die * 2 ^ 62 + n % 2 ^ 32, vf := r.vf, ctx := r.ctx, wing := wk, gallery := k, seg := e.id, probe := probe
                              entry := act, region := rr, staging := f.ext.toNat % 256, thresh := BitVec.ofNat 32 r.sys.thresh }
          eff (.conservators (s.conservators.modify die (fun c => { c with count := n, repairs := c.repairs ++ [q] })))
          takeRepairs die
          setReg f.d q.number
          pure .done
      | _, _ => gstate
    | _, _ => illOp) s

/-- REPAIR.WAIT (R378, R447). -/
def execRepairWait (f : CmdRec) (s : State) : Host.Outcome State Fault Refusal :=
  runCommand .regionOnly false (do
    let (_, r) ← myRegion
    let v ← reg f.s
    let s ← get'
    match repairNo s v with
    | none => illOp
    | some (_, x) =>
      if x.wing ≠ r.wing ∨ x.vf ≠ r.vf then illOp
      else if x.cancelled then trapCode 0x4A
      else if x.ended then pure .done
      else stall) s

end Sys2Proof.Machine
end

