-- ==== Sys2Proof/Machine/SeqPlinth.lean ====
section
/-! DEFINITION. The plinth commands (R359 to R364, R416, R430, R432). -/
namespace Sys2Proof.Machine

/-- The plinth that imm[1:0] names; 3 is out of range (R360). -/
def plinthNo (f : CmdRec) : M Nat := if f.imm.toNat % 4 = 3 then illOp else pure (f.imm.toNat % 4)

/-- The plinth of a command that only its holder may give (R432). -/
def myPlinth (f : CmdRec) : M (Nat × Nat × Region × Plinth) := do
  let (rid, r) ← myRegion
  let k ← plinthNo f
  let s ← get'
  let p := plinthAt s r.hall k
  if p.holder = some rid then pure (k, rid, r, p) else trapCode 0x23

/-- The slots that a mask names (R360). -/
def maskSlots (f : CmdRec) : List Nat := (List.range 16).filter (fun k => bits f.imm.toNat (16 + k) 1 == 1)

/-- A plinth has been retired (R443). -/
def plinthRetired (s : State) (hall k : Nat) : Bool := s.pkg.retired.any (fun d => bits d 56 8 == 2 && bits d 50 6 == hall && bits d 44 6 == k)

/-- The claims that a CLAIM names can all be met (R360). -/
def claimOk (s : State) (rid hall k : Nat) (whole : Bool) (slots : List Nat) (p : Plinth) : Bool :=
  !plinthRetired s hall k && (p.holder.isNone || p.holder == some rid)
  && slots.all (fun v => (kget p.slotHolder v).isNone || kget p.slotHolder v == some rid)
  && (whole || slots.isEmpty || p.holder == some rid)

/-- CLAIM: all or nothing (R360). -/
def execClaim (f : CmdRec) (s : State) : Host.Outcome State Fault Refusal :=
  runCommand .regionOnly false (do
    let (rid, r) ← myRegion
    let k ← plinthNo f
    let s ← get'
    let whole := bits f.imm.toNat 2 1 == 1
    let slots := maskSlots f
    let p := plinthAt s r.hall k
    if !claimOk s rid r.hall k whole slots p then do
      setReg f.d 0
      pure .done
    else if slots.any p.zeroing.contains then stall
    else do
      modPlinth r.hall k (fun p =>
        let p := if whole then { p with holder := some rid, cfg := none, rows := [] } else p
        { p with
          slotHolder := slots.foldl (fun m v => kset m v rid) p.slotHolder
          slots := p.slots.filter (fun q => !slots.contains q.1) })
      setReg f.d 1
      pure .done) s

/-- Release slots: each is zeroed (R22, R360). -/
def releaseSlots (p : Plinth) (slots : List Nat) : Plinth :=
  { p with
    slotHolder := p.slotHolder.filter (fun q => !slots.contains q.1), zeroing := slots.foldl addNat p.zeroing
    slots := p.slots.filter (fun q => !slots.contains q.1) }

/-- RELEASE (R360): of what the region holds. -/
def execRelease (f : CmdRec) (s : State) : Host.Outcome State Fault Refusal :=
  runCommand .regionOnly false (do
    let (rid, r) ← myRegion
    let k ← plinthNo f
    modPlinth r.hall k (fun p =>
      let whole := bits f.imm.toNat 2 1 == 1 && p.holder == some rid
      let mine := (p.slotHolder.filter (fun q => q.2 == rid && (whole || (maskSlots f).contains q.1))).map (·.1)
      let p := releaseSlots p mine
      if whole then { p with holder := none, cfg := none, rows := [], drain := none } else p)
    pure .done) s

/-- A B packet that R361 admits. DEDUCED, log 53. -/
def bPacketOk (h : PktHdr) (tr : Bool) : Bool :=
  h.ok && ((7 ≤ h.fmt && h.fmt ≤ 10 && h.scl == 0) || (h.fmt == 11 && h.scl == 2))
  && (!tr || (h.fmt != 11 && h.spm == 0)) && (h.spm == 0 || h.cols == 64)

/-- A QN4 run scale is finite (R157, R430). -/
def runScalesFinite (p : Pkt) : Bool :=
  p.hdr.fmt != 11 || (p.scales.drop p.hdr.blocks).all (fun n => match flOf .f32 n with | .fin _ _ _ => true | _ => false)

/-- A sparse row stores at most 64 elements (R161). -/
def masksOk (p : Pkt) : Bool := p.masks.all (fun m => ((List.range 128).filter (fun x => bits m x 1 == 1)).length ≤ 64)

/-- A packet of a buffer, with its header; no packet where R361 admits none of that header. -/
def packetPieces (hall vf : Nat) (b : Option Buffer) (off : Nat) (tr : Bool) : Pieces (Option (List Byte) × PktHdr) := do
  let h := pktHdr (← readPieces hall vf b off 8)
  if bPacketOk h tr then do
    let bs ← readPieces hall vf b off h.length
    pure (some bs, h)
  else pure (none, h)

/-- OPLD (R361, R430, R432): it reads the packet piece by piece (R127). -/
def execOpld (f : CmdRec) (s : State) : Host.Outcome State Fault Refusal :=
  runCommand .regionOnly false (do
    let (k, rid, r, p) ← myPlinth f
    let slot := bits f.imm.toNat 4 4
    let tr := bits f.imm.toNat 8 1 == 1
    if kget p.slotHolder slot ≠ some rid then trapCode 0x23
    else do
      let ref ← reg f.s
      checkRef ref
      let b ← myBuffer (refHandle ref)
      let q ← mySeq
      match ← stepPieces q.pieces (packetPieces r.hall r.vf b (refOff ref) tr) with
      | .error p => do
        modSeq (fun q => { q with pieces := p })
        pure .wait
      | .ok (none, _) => illOp
      | .ok (some bs, _) =>
        match pktOf bs with
        | none => illOp
        | some b =>
          if !masksOk b then illOp
          else if !runScalesFinite b then illOp 4
          else do
            modPlinth r.hall k (fun p => { p with slots := kset p.slots slot { packet := bs, tr := tr, ref := some ref } })
            settlePlinth r.hall k
            pure .done) s

/-- MX.CFG (R362, R432). -/
def execMxCfg (f : CmdRec) (s : State) : Host.Outcome State Fault Refusal :=
  runCommand .regionOnly false (do
    let (k, _, r, p) ← myPlinth f
    let imm := f.imm.toNat
    if !p.rows.isEmpty then trapCode 0x14
    else if bits imm 2 4 < 7 ∨ 10 < bits imm 2 4 then illOp
    else do
      modPlinth r.hall k (fun p => { p with cfg := some {
        afmt := tyOfCode (bits imm 2 4), n := bits imm 6 7 + 1, keep := bits imm 13 1 == 1, sparse := bits imm 14 1 == 1 } })
      pure .done) s

/-- MX.ROUTE (R360, R368). -/
def execMxRoute (f : CmdRec) (s : State) : Host.Outcome State Fault Refusal :=
  runCommand .regionOnly false (do
    let (rid, _) ← myRegion
    let v ← reg f.s
    if 2 ^ 16 ≤ v then illOp
    else do
      modRegion rid (fun r => { r with routes := kset r.routes (f.imm.toNat % 8) v })
      pure .done) s

/-- MX.GO (R363, R432). -/
def execMxGo (f : CmdRec) (s : State) : Host.Outcome State Fault Refusal :=
  runCommand .regionOnly false (do
    let (k, _, r, p) ← myPlinth f
    let ref ← reg f.s
    let t ← reg f.t
    checkRef ref
    if bits t 56 8 ≠ 0 ∨ t % 16 ≠ 0 then illOp
    else if !p.cfg.any (·.keep) then trapCode 0x23
    else do
      modPlinth r.hall k (fun p => { p with drain := some { ref := ref, pitch := bits t 0 32, base := bits t 32 24, shadow := bits f.imm.toNat 2 1 == 1 } })
      pure .done) s

/-- MX.STOP waits for the writes of the drain target, then disarms it (R363). -/
def execMxStop (f : CmdRec) (s : State) : Host.Outcome State Fault Refusal :=
  runCommand .regionOnly false (do
    let (k, rid, r, _) ← myPlinth f
    let s ← get'
    if s.reqs.any (fun q => q.rid == rid && (match q.op with | .drain j _ _ => j == k | _ => false)) then stall
    else do
      modPlinth r.hall k (fun p => { p with drain := none, rows := if bits f.imm.toNat 2 1 = 1 then [] else p.rows })
      pure .done) s

end Sys2Proof.Machine
end

