-- ==== Sys2Proof/Machine/Delta.lean ====
section
/-! DEFINITION. The delta engine: casts and their runs (R141, R193 to R196, R379 to R381, R449). -/
namespace Sys2Proof.Machine

/-- A delta command on a handle in a state that excludes it (R433, R449). -/
def dstate {α : Type} : M α := trapCode 0x4B

/-- Bytes of a cast's scratch range: X_applied, then Y_prev (R193). -/
def Cast.bytes (c : Cast) : Nat := 4 * c.m * (c.k + c.n)

def Cast.base (c : Cast) : Nat := scratchAddr c.hall c.scratch

def castAt (s : State) (wing l : Nat) : Option Cast := (kget s.wings wing).bind (fun w => kget w.casts l)

def modCast (wing l : Nat) (h : Cast → Cast) : M Unit := modWing wing (fun w => match kget w.casts l with
  | some c => { w with casts := kset w.casts l (h c) }
  | none => w)

/-- A counter of DELTA.STAT rises; it saturates (R195). -/
def Cast.count (c : Cast) (k n : Nat) : Cast := { c with counters := c.counters.set k (min (2 ^ 64 - 1) ((c.counters[k]?).getD 0 + n)) }

/-! ### The arithmetic of a run (R194) -/

/-- Round an exact value to FP32 by nearest-even. -/
def round32 (x : Fl × Bool) : Fl := flOf .f32 (writeFl .f32 0 x.1).1

/-- ceil(log2(mx / 448)) of a positive finite value. -/
def deltaScale (m : Nat) (e : Int) : Int :=
  let l := Nat.log2 m
  e + l - (if 4 * m ≤ 7 * 2 ^ l then 8 else 7)

/-- The largest difference of a row; a NaN is passed over. -/
def maxAbs (l : List Fl) : Fl := l.foldl (fun a x =>
  match a, x with
  | a, .nan => a
  | .inf _, _ => .inf false
  | _, .inf _ => .inf false
  | .fin n m e, .fin _ k f =>
    (match sumFl 0 [.fin false k f, .fin true m e] with
     | (.fin false z _, _) => if z = 0 then .fin n m e else .fin false k f
     | _ => .fin n m e)
  | a, _ => a) (.fin false 0 0)

/-- A positive value is above a bound. -/
def aboveBound (x b : Fl) : Bool :=
  match x, b with
  | .inf _, .inf _ => false
  | .inf _, _ => true
  | x, b => (match sumFl 0 [x, negFl b] with | (.fin n m _, _) => !n && m != 0 | _ => false)

/-- The packets of one column block, by K chunk. -/
abbrev Weights := List (List Pkt)

/-- The chunks of K. -/
def chunksOf {α : Type} (k : Nat) (l : List α) : List (List α) := (List.range ((k + 127) / 128)).map (fun i => (l.drop (128 * i)).take 128)

/-- Join the chunks of a row of A with the weights, onto a csa row, in KCH order, and resolve it as NORM does. -/
def deltaRow (w : Weights) (n : Nat) (start : List Csa) (a : List (List Fl)) (scale : Fl) : List Nat :=
  (List.range ((n + 127) / 128)).flatMap (fun cb =>
    let cols := min 128 (n - 128 * cb)
    let row := (a.zipIdx).foldl (fun row q =>
      match ((w[cb]?).bind (fun l => l[q.2]?)) with
      | some b => (joinChunk row ((List.range cols).map (fun j => chunkOf (products b false q.1 scale j)))).1
      | none => row) ((start.drop (128 * cb)).take cols)
    (resolveRow row).csa.map (fun x => (normCsa 0 x).1))

/-- What a run leaves: X_applied, Y, and the rows it skipped and fired. -/
structure DeltaOut where
  xa : List (List Nat)
  y : List (List Nat)
  skipped : Nat := 0
  fired : Nat := 0

/-- A full recompute. DEDUCED, log 85. -/
def deltaFull (c : Cast) (w : Weights) (x : List (List Nat)) : DeltaOut :=
  { xa := x.map (fun r => r.map (fun v => (writeFl .f32 0 (flOf c.xfmt v)).1))
    y := x.map (fun r => deltaRow w c.n (List.replicate c.n (.fin 0 0)) (chunksOf c.k (r.map (flOf c.xfmt))) (.fin false 1 0)) }

/-- The differences of a row. -/
def deltaDiff (c : Cast) (x xa : List Nat) : List Fl := (x.zip xa).map (fun q => round32 (sumFl 0 [flOf c.xfmt q.1, negFl (flOf .f32 q.2)]))

/-- One row of an incremental run; `free` is the exponent that R194 does not state, of an infinite difference. -/
def deltaStep (c : Cast) (w : Weights) (free : Int) (x xa y : List Nat) : Option (List Nat × List Nat) :=
  let d := deltaDiff c x xa
  match maxAbs d with
  | .fin _ 0 _ => none
  | mx =>
    let e : Int := match mx with | .fin _ m e => deltaScale m e | _ => free
    let ds := d.map (fun v => flOf .f8e4 (writeFl .f8e4 4 (mulFl v (.fin false 1 (Int.neg e))).1).1)
    let scale : Fl := .fin false 1 e
    let start := y.map (fun v => (chunkOf [(flOf .f32 v, false)]).1)
    some (((xa.zip ds).map (fun q => (writeFl .f32 0 (sumFl 0 [flOf .f32 q.1, (mulFl q.2 scale).1]).1).1)),
      deltaRow w c.n start (chunksOf c.k ds) scale)

/-- An incremental run. -/
def deltaInc (c : Cast) (w : Weights) (free : Int) (x xa y : List (List Nat)) : DeltaOut :=
  let rows := (x.zip (xa.zip y)).map (fun q => (deltaStep c w free q.1 q.2.1 q.2.2, q.2))
  { xa := rows.map (fun r => match r.1 with | some o => o.1 | none => r.2.1)
    y := rows.map (fun r => match r.1 with | some o => o.2 | none => r.2.2)
    skipped := (rows.filter (fun r => r.1.isNone)).length, fired := (rows.filter (fun r => r.1.isSome)).length }

/-- Why a run recomputes fully: the counter that rises, with none for a Cold cast that no DELTA.REF or BIND left; no
answer for an incremental run. -/
def fullReason (c : Cast) (x xa : List (List Nat)) : Option (Option Nat) :=
  if c.state = .cold then some (if c.afterRef then some 4 else none)
  else if c.seen ≠ c.version then some (some 1)
  else if 0 < c.period ∧ c.period ≤ c.runs then some (some 2)
  else if (x.zip xa).any (fun q => aboveBound (maxAbs (deltaDiff c q.1 q.2)) (flOf .f32 c.bound.toNat)) then some (some 3)
  else none

/-! ### A run (R141, R194, R449) -/

/-- Numbers of `w` bytes in rows. -/
def rowsOf (w cols rows : Nat) (bs : List Byte) : List (List Nat) :=
  (List.range rows).map (fun i => (List.range cols).map (fun j => leNat ((bs.drop (w * (i * cols + j))).take w)))

def bytesOfRows (l : List (List Nat)) : List Byte := l.flatMap (fun r => r.flatMap (bytesOfNat 4))

/-- The weight packets, each one that OPLD accepts (R379). -/
def readWeights (c : Cast) : Pieces Weights :=
  let bad := fun {α : Type} (sub : Nat) => (ExceptT.lift (StateT.lift (illOp sub)) : Pieces α)
  (List.range ((c.n + 127) / 128)).mapM (fun cb => (List.range ((c.k + 127) / 128)).mapM (fun kc => do
    let off := (cb * ((c.k + 127) / 128) + kc) * c.pstride
    let head ← readPieces c.hall c.vf c.map off 8
    let h := pktHdr head
    if !bPacketOk h false ∨ h.kch ≠ kc then bad 0
    else do
      let bs ← readPieces c.hall c.vf c.map off h.length
      match pktOf bs with
      | none => bad 0
      | some b => if !masksOk b then bad 0 else if !runScalesFinite b then bad 4 else pure b))

/-- The bytes of a cast's scratch range. -/
def castBuffer (c : Cast) : Buffer := { scratch := some c.hall, base := c.scratch, len := c.bytes, read := true, write := true, atomic := false }

/-- Read all that a run needs and compute it; the answer has the counter of a full recompute. `n` numbers the free value. -/
def computeRun (s : State) (n : Nat) (c : Cast) : Pieces (DeltaOut × Option (Option Nat)) := do
  let bs ← readPieces c.hall c.vf (handleAt s c.vf c.ctx c.input).visible 0 (2 * c.m * c.k)
  let x := rowsOf 2 c.k c.m bs
  let cast ← readPieces c.hall c.vf (some (castBuffer c)) 0 c.bytes
  let xa := rowsOf 4 c.k c.m cast
  let y := rowsOf 4 c.n c.m (cast.drop (4 * c.m * c.k))
  let w ← readWeights c
  let why := fullReason c x xa
  pure (if why.isSome then deltaFull c w x else deltaInc c w (Config.deltaExponent n) x xa y, why)

/-- The first queued run starts: it reads the mapping and the version of the weights in one event (R141, R196). -/
def startRunAt (wing l : Nat) : M Unit := do
  let s ← get'
  match castAt s wing l with
  | none => pure ()
  | some c =>
    match c.runner, c.queue with
    | none, q :: rest =>
      let h := handleAt s c.vf c.ctx c.weights
      modCast wing l (fun c => { c with runner := some q, queue := rest, map := h.visible, seen := h.version })
    | _, _ => pure ()

/-- A command of a region that waits traps (R401). -/
def raiseSeq (rid : Nat) (t : TrapRec) : M Unit := modRegion rid (fun r =>
  { r with traps := r.traps ++ [{ t with seq := true, act := r.seq.act, cmd := r.seq.index }] })

/-- The plinth after a run: its accumulator rows free, and the slots of the region empty (R380). -/
def afterRun (rid : Nat) (p : Plinth) : Plinth :=
  { p with rows := [], slots := p.slots.filter (fun q => kget p.slotHolder q.1 != some rid) }

/-- A run ends with its trap: the cast is Cold and counts it (R449). -/
def abandonRun (wing l : Nat) (q : CastRun) (t : TrapRec) : M Unit := do
  modCast wing l (fun c => { (c.count 7 1) with runner := none, state := .cold, afterRef := false })
  raiseSeq q.rid t
  startRunAt wing l

/-- A run's reads, arithmetic and writes, piece by piece, and its end (R127, R194). -/
def finishRun (wing l : Nat) (c : Cast) (q : CastRun) : M Unit := do
  let n ← fresh
  let s ← get'
  match ← attempt (stepPieces q.pieces (do
    let (o, why) ← computeRun s n c
    writePieces c.hall c.vf (handleAt s c.vf c.ctx c.output).visible 0 (bytesOfRows o.y)
    pure (o, why))) with
  | .error t => if t.code = stallCode then stall else abandonRun wing l q t
  | .ok (.error p) => modCast wing l (fun c => { c with runner := some { q with pieces := p } })
  | .ok (.ok (o, why)) => do
    putBytes c.base (bytesOfRows o.xa ++ bytesOfRows o.y)
    modCast wing l (fun c =>
      let c := (c.count 0 1).count 5 o.skipped |>.count 6 o.fired
      let c := match why with | some (some k) => c.count k 1 | _ => c
      { c with runner := none, state := .warm, afterRef := false, version := c.seen, runs := if why.isSome then 1 else c.runs + 1 })
    modPlinth c.hall q.plinth (afterRun q.rid)
    modRegion q.rid (fun r => { r with seq := { (r.seq.settled.put q.d (if why.isSome then 1 else 0)) with index := nextIndex r.seq.index } })
    startRunAt wing l
    settlePlinth c.hall q.plinth

/-! ### Commands (R379 to R381) -/

/-- The cast of a bound handle that the issuer's function may use. -/
def myCast (f : CmdRec) : M (Nat × Nat × Nat × Region × Cast) := do
  let (rid, r) ← myRegion
  let (wk, w) ← myWing
  let l := f.imm.toNat % 256
  match kget w.casts l with
  | some c => if c.vf = r.vf then pure (wk, l, rid, r, c) else dstate
  | none => dstate

/-- The cast of a descriptor; none where it is out of range (R193, R379, R416). -/
def castOf (r : Region) (bs : List Byte) : Option Cast :=
  let (w0, w1, w2, w3) := (wordAt bs 0, wordAt bs 1, wordAt bs 2, wordAt bs 3)
  let c : Cast := {
    hall := r.hall, vf := r.vf, ctx := r.ctx, input := bits w0 56 8, weights := bits w0 48 8, output := bits w0 40 8
    m := bits w0 30 10 + 1, k := 16 * (bits w0 20 10 + 1), n := 16 * (bits w0 10 10 + 1), xfmt := tyOfCode (bits w0 6 4)
    period := bits w1 48 16, bound := BitVec.ofNat 32 w1, pstride := bits w2 32 32, scratch := bits w2 0 32 }
  let b := c.bound.toNat
  if bits w0 0 6 = 0 ∧ bits w1 32 16 = 0 ∧ w3 = 0 ∧ (bits w0 6 4 = 7 ∨ bits w0 6 4 = 8) ∧ (b ≤ 0x7F800000 ∨ b = 0x80000000)
      ∧ c.pstride % 16 = 0 then some c
  else none

/-- A range of a hall's scratch space is mapped by a buffer or held by a cast. -/
def scratchTaken (s : State) (hall base len : Nat) : Bool :=
  let meets := fun (b n : Nat) => decide (b < base + len) && decide (base < b + n)
  s.vfs.any (fun p => p.2.handles.any (fun q => [q.2.visible, q.2.shadow].any (fun b => b.any (fun b => b.scratch == some hall && meets b.base b.len))))
  || s.wings.any (fun w => w.2.casts.any (fun c => c.2.hall == hall && meets c.2.scratch c.2.bytes))

/-- DELTA.BIND (R193, R379, R449). -/
def execDeltaBind (f : CmdRec) (s : State) : Host.Outcome State Fault Refusal :=
  runCommand .regionOnly false (do
    let (_, r) ← myRegion
    let (wk, w) ← myWing
    let l := f.imm.toNat % 256
    let ref ← reg f.s
    let bs ← descriptor ref 32
    let s ← get'
    match castOf r bs with
    | none => illOp
    | some c =>
      if (kget w.casts l).isSome then dstate
      else if !scratchOk s r.hall c.scratch c.bytes ∨ scratchTaken s r.hall c.scratch c.bytes then illOp
      else do
        modWing wk (fun w => { w with casts := kset w.casts l c })
        pure .done) s

/-- DELTA.RUN (R380): the run joins the cast's queue, and its end sends the sequencer on. -/
def execDeltaRun (f : CmdRec) (s : State) : Host.Outcome State Fault Refusal :=
  runCommand .regionOnly false (do
    let (wk, l, rid, r, c) ← myCast f
    let k := bits f.imm.toNat 8 2
    let s ← get'
    let p := plinthAt s r.hall k
    if c.runner.any (·.rid == rid) || c.queue.any (·.rid == rid) then pure .wait
    else if k = 3 ∨ r.hall ≠ c.hall then illOp
    else if p.holder ≠ some rid ∨ (p.slotHolder.filter (·.2 == rid)).length < 2 then trapCode 0x23
    else do
      modCast wk l (fun c => { c with queue := c.queue ++ [{ rid := rid, d := f.d.toNat, plinth := k }] })
      startRunAt wk l
      pure .wait) s

/-- A run is in work or queued at a cast. -/
def Cast.running (c : Cast) : Bool := c.runner.isSome || !c.queue.isEmpty

/-- DELTA.REF (R195, R449). -/
def execDeltaRef (f : CmdRec) (s : State) : Host.Outcome State Fault Refusal :=
  runCommand .regionOnly false (do
    let (wk, l, _, _, c) ← myCast f
    if c.running then stall
    else do
      modCast wk l (fun c => { c with state := .cold, afterRef := true })
      pure .done) s

/-- DELTA.INV (R195, R196). -/
def execDeltaInv (f : CmdRec) (s : State) : Host.Outcome State Fault Refusal :=
  runCommand .regionOnly false (do
    let (wk, l, _, _, c) ← myCast f
    if c.running then stall
    else do
      modWing wk (fun w => { w with casts := kdel w.casts l })
      eff (.clear c.base c.bytes)
      pure .done) s

/-- DELTA.STAT (R195, R449). -/
def execDeltaStat (f : CmdRec) (s : State) : Host.Outcome State Fault Refusal :=
  runCommand .regionOnly false (do
    let (_, _, _, _, c) ← myCast f
    if 7 < bits f.imm.toNat 8 8 then illOp
    else do
      setReg f.d ((c.counters[bits f.imm.toNat 8 8]?).getD 0)
      pure .done) s

end Sys2Proof.Machine
end

