-- ==== Sys2Proof/Machine/SeqTrap.lean ====
section
/-! DEFINITION. The trap and call commands: TRAP and TRET (R335, R403 to R405), SYSC and the hypervisor call queue
(R335, R336). -/
namespace Sys2Proof.Machine

/-! ### TRAP (R335) -/

/-- TRAP: the program trap with cause imm[15:0] and operand aS; SRC 10 (R398). TRET retry issues it again (R404). -/
def execTrap (f : CmdRec) (s : State) : Host.Outcome State Fault Refusal :=
  runCommand .anywhere false (do
    let a ← reg f.s
    trap { code := f.imm.toNat % 2 ^ 16, src := 2, operand := a % 2 ^ 32 }) s

/-! ### TRET (R404, R405) -/

/-- The md bits that a node's record admits. -/
def mdMask (i : Instr) (t : Ty) : Nat :=
  match nodeRule i with
  | none => 0
  | some (_, u) => ([0, 1, 2, 3] : List Nat).foldl (fun m b =>
      if (List.range 16).any (fun v => bits v b 1 == 1 && mdAdmits u.md t v) then m + 2 ^ b else m) 0

/-- The trap that a region's handler handles; ILLREC outside a handler. -/
def handled : M (Nat × Region × TrapRec) := do
  let (rid, r) ← myRegion
  match r.seq.handler, r.trap with
  | some _, some t => pure (rid, r, t)
  | _, _ => trapCode 0x10

/-- The md that a retry adds, limited to what the node admits, and kept when KEEP asks for it. -/
def retryMd (rid : Nat) (r : Region) (t : TrapRec) (imm : Nat) : M Nat :=
  let k := t.cell * 32 + t.node
  match liveNode r.active t.cell t.node with
  | none => pure 0
  | some x => do
    let md := (bits imm 0 4 ||| kgetD r.active.keep k 0) &&& mdMask x.instr x.fields.ty
    whenM (bits imm 4 1 == 1) (modRegion rid (fun r => { r with active := { r.active with keep := kset r.active.keep k md } }))
    pure md

/-- TRET.retry: the held issue, sequence, arrival, drain write or command comes again (R404). DEDUCED, log 78. -/
def execTretRetry (f : CmdRec) (s : State) : Host.Outcome State Fault Refusal :=
  runCommand .regionOnly true (do
    let (rid, r, t) ← handled
    leaveHandler rid
    if t.seq then pure .moved
    else
      match t.arrival, t.drain with
      | some (port, x), _ => do
        let _ ← arriveToken rid t.cell t.node port x true false
        pure .moved
      | none, some (k, row) => do
        startDrain r.hall k row
        pure .moved
      | none, none => do
        let md ← retryMd rid r t f.imm.toNat
        match t.seqRun with
        | some q => modRegion rid (fun r => { r with fires := r.fires ++ [{ q with mdSet := md, retry := true }] })
        | none => modRegion rid (fun r => { r with again := r.again ++
            [{ rid := rid, cell := t.cell, node := t.node, lanes := t.held, mdSet := md, retry := true, row := t.row }] })
        pure .moved) s

/-- The destination register of the command at a place of a region's program. -/
def trappedReg (r : Region) : Nat :=
  match commandAt { r with seq := { r.seq with handler := none } } with
  | some (c, _) => (match decode c with | .ok d => (match cmdRule d.instr with | some (g, _) => g.d.toNat | none => 0) | .error _ => 0)
  | none => 0

/-- The row of a drain target whose write trapped is free (R404). -/
def dropRow (hall k row : Nat) : M Unit := do
  modPlinth hall k (fun p => { p with rows := kdel p.rows row })
  settlePlinth hall k

/-- TRET.poison and TRET.discard (R404). An arrival's token is dropped (R424). -/
def tretPoison (discard : Bool) : M Next := do
  let (rid, r, t) ← handled
  leaveHandler rid
  if t.seq then do
    skipCommand rid (trappedReg r)
    pure .moved
  else do
    whenM discard (each t.held (fun l => discardTag rid l.tag t.code))
    match t.drain with
    | some (k, row) => do
      let s ← get'
      whenM discard (match openInv s r rid t.iv with | some i => markDiscard r.hall i t.code | none => pure ())
      dropRow r.hall k row
    | none => finalPoison rid t
    pure .moved

/-- TRET.poison (R404). -/
def execTretPoison (s : State) : Host.Outcome State Fault Refusal := runCommand .regionOnly true (tretPoison false) s
/-- TRET.discard (R404). -/
def execTretDiscard (s : State) : Host.Outcome State Fault Refusal := runCommand .regionOnly true (tretPoison true) s

/-- TRET.abort: a region fault (R404, R411). -/
def execTretAbort (s : State) : Host.Outcome State Fault Refusal :=
  runCommand .regionOnly true (do
    let (rid, _, t) ← handled
    regionFault rid t 0
    pure .moved) s

/-! ### SYSC and HCALL (R335, R336) -/

/-- SYSC (R335). -/
def execSysc (f : CmdRec) (s : State) : Host.Outcome State Fault Refusal :=
  runCommand .anywhere true (do
    fenceWait 5
    let o ← home
    msi o.vf (f.imm.toNat % 32)
    pure .done) s

/-- HCALL of a guest (R336). -/
def execHcall (f : CmdRec) (s : State) : Host.Outcome State Fault Refusal :=
  runCommand .regionOnly true (do
    let (rid, r) ← myRegion
    let h := r.seq.handler.isSome
    let s ← get'
    match s.pkg.hcallReplies.find? (fun x => x.1 == callerKey r.vf rid && x.2.1 == h) with
    | some x => do
      modPkg (fun p => { p with hcallReplies := p.hcallReplies.erase x })
      setReg f.d x.2.2.toNat
      pure .done
    | none =>
      if s.pkg.hcalls.any (fun p => p.2.vf == r.vf && p.2.rid == some rid && p.2.handler == h) then pure .wait
      else match firstFree 256 (fun k => (kget s.pkg.hcalls k).isNone) with
      | none => stall
      | some k => do
        let a ← reg f.s
        let call : HCall := { vf := r.vf, rid := some rid, handler := h, fn := f.imm.toNat % 2 ^ 16, arg := BitVec.ofNat 64 a }
        modPkg (fun p => { p with hcalls := kset p.hcalls k call, hcallOrder := p.hcallOrder ++ [k] })
        pure .wait) s

/-- HCALL.take (R336). -/
def execHcallTake (f : CmdRec) (s : State) : Host.Outcome State Fault Refusal :=
  runCommand .privileged true (do
    let s ← get'
    match s.pkg.hcallOrder with
    | [] => stall
    | k :: rest =>
      match kget s.pkg.hcalls k with
      | none => illOp
      | some c => do
        modPkg (fun p => { p with hcallOrder := rest, hcalls := kset p.hcalls k { c with taken := true } })
        setReg f.d (k * 2 ^ 56 + c.vf * 2 ^ 32 + c.fn)
        pure .done) s

/-- The call in the entry that a register names; ILLOP for a free entry. -/
def callAt (i : BitVec 5) : M (Nat × HCall) := do
  let a ← reg i
  let s ← get'
  match kget s.pkg.hcalls (a % 256) with
  | some c => pure (a % 256, c)
  | none => illOp

/-- HCALL.arg (R336). -/
def execHcallArg (f : CmdRec) (s : State) : Host.Outcome State Fault Refusal :=
  runCommand .privileged true (do
    let (_, c) ← callAt f.s
    setReg f.d c.arg.toNat
    pure .done) s

/-- HCALL.ret (R336): the entry becomes free, and the caller finds the reply. -/
def execHcallRet (f : CmdRec) (s : State) : Host.Outcome State Fault Refusal :=
  runCommand .privileged true (do
    let (k, c) ← callAt f.s
    let v ← reg f.t
    modPkg (fun p => { p with
      hcalls := kdel p.hcalls k, hcallOrder := p.hcallOrder.filter (· != k)
      hcallReplies := match c.rid with | some rid => p.hcallReplies ++ [(callerKey c.vf rid, c.handler, BitVec.ofNat 64 v)] | none => p.hcallReplies })
    pure .done) s

end Sys2Proof.Machine
end

