-- ==== Sys2Proof/Machine/Save.lean ====
section
/-! DEFINITION. Saved regions: an image's bytes in memory, and how a region stops and resumes (R204 to R210, R318, R337, R455, R456). -/
namespace Sys2Proof.Machine

/-! ### Images -/

/-- The bytes of an image: SAVESZ of them (R208, DESIGN CHOICE, log 7). -/
def imageBytes (number : Nat) : List Byte := (List.range Config.saveSize).map (Config.saveByte number)

/-- The image of a function that some bytes hold. -/
def imageWith (v : VFn) (bs : List Byte) : Option SaveImage := v.saves.find? (fun x => imageBytes x.number == bs)

/-- The guest address of a save slot (R337). -/
def slotAddr (v : VFn) (k : Nat) : Nat := (v.saveBase + k * Config.saveSize) % 2 ^ 57

/-! ### Stopping (R204, R206) -/

/-- A sequencer as a tier-1 image holds it: a command that waits is issued again at resume (R204, R318), but an NSEED that has ended. -/
def imageSeq (r : Region) : Sequencer := { r.seq with waiting := r.seq.waiting && r.seed.isSome, walk := none }

/-- The slot of the save area that an image goes to: the named one, or at a slice's end one that the specification does not name, a free
value (R208, DESIGN CHOICE, log 88). -/
def saveSlot (n : Nat) : Option Nat → Nat
  | some k => k
  | none => Config.freeReading n % 1024

/-- A region stops in a tier and its image is written to the save area. A run at a cast is abandoned (R449). DEDUCED, log 86. -/
def stopRegion (rid tier : Nat) (slot : Option Nat) (st : RegionState) : M Unit := do
  let s ← get'
  match kget s.regions rid with
  | none => pure ()
  | some r => do
    let n ← fresh
    let back := if r.state = .snapshotting then r.prior else r.state
    let r := { r with snapshot := none, state := back, prior := back, seq := if tier = 1 then imageSeq r else r.seq }
    keepImage r.vf (imageOf s rid r tier n)
    whenM (tier == 1) (withdraw rid)
    modWing r.wing (fun w => { w with casts := w.casts.map (fun p => if p.2.vf = r.vf then (p.1, dropCastRuns rid p.2) else p) })
    let _ ← guestWrite r.hall r.vf (slotAddr (vfAt s r.vf) (saveSlot n slot)) (imageBytes n)
    eff (.region rid (some { r with state := st, saved := some n }))

/-- A tier-1 pre-emption of a region that is in no CTX.SWAP starts: the sources stop, and every cell is still to save (R204). -/
def beginSnapshot (rid : Nat) : M Unit := do
  let s ← get'
  modRegion rid (fun r => match r.snapshot with
    | some x => { r with prior := r.state, state := .snapshotting, snapshot := some { x with start := s.timeNs } }
    | none => r)

/-- A tier-1 pre-emption arrives: it starts, or waits for a CTX.SWAP of the region to finish (R204, R209). -/
def startSnapshot (rid : Nat) (slot : Option Nat) : M Unit := do
  let s ← get'
  modRegion rid (fun r => { r with snapshot := some { slot := slot, pending := r.cells, start := s.timeNs } })
  match kget s.regions rid with
  | some r => whenM r.seq.swap.isNone (beginSnapshot rid)
  | none => pure ()

/-- The wait of a pre-emption for a CTX.SWAP, in nanoseconds (R209). -/
def swapWait : Nat := 20000

/-! ### Resuming (R204, R206, R207) -/

/-- A withdrawn request has had no effect and is issued again, translated anew (R204). A fence, and a request that has been served, wait
on as they did. -/
def reissue (vf : Nat) (q : Req) : M Unit := do
  let n ← fresh
  let q := { q with number := n, got := [], locs := [], need := q.va, snooped := false }
  match q.op with
  | .fence _ | .reply _ _ => addReq q
  | _ =>
    if q.loc.any isScratch then addReq { q with phase := .issued }
    else do
      let w ← joinWalk (ridHall q.rid) vf q.va
      addReq { q with phase := .walking, walk := w, loc := none }

/-- The slots that OPLD filled are loaded again; a slot that ACC filled is empty (R207). The resume waits for a line that is pinned or under
test, and a slot whose source does not answer is empty. -/
def reloadSlots (rid : Nat) : M Unit := do
  let s ← get'
  match kget s.regions rid with
  | none => pure ()
  | some r => each [0, 1, 2] (fun k => do
      let p := plinthAt s r.hall k
      each (p.slots.filter (fun q => kget p.slotHolder q.1 == some rid)) (fun q => do
        match q.2.ref with
        | none => modPlinth r.hall k (fun p => { p with slots := kdel p.slots q.1 })
        | some ref => do
          let b := (handleAt s r.vf r.ctx (refHandle ref)).visible
          match ← attempt (do
            let head ← readBuf r.hall r.vf b (refOff ref) 8
            readBuf r.hall r.vf b (refOff ref) (pktHdr head).length) with
          | .ok bs => modPlinth r.hall k (fun p => { p with slots := kset p.slots q.1 { q.2 with packet := bs } })
          | .error t => if t.code = stallCode then stall else modPlinth r.hall k (fun p => { p with slots := kdel p.slots q.1 })))

/-- A stopped region goes on where it stands, in the state that its image records: tier 1 issues its withdrawn requests again (R204,
R206). A region that was Sealed when it was frozen is so again. -/
def resumeRegion (rid : Nat) (x : SaveImage) : M Unit := do
  let s ← get'
  match kget s.regions rid with
  | none => pure ()
  | some r => do
    eff (.region rid (some { r with
      state := x.region.state, saved := x.region.saved, autoSaved := x.region.autoSaved, silence := s.timeNs, detector := {} }))
    whenM (x.tier == 1) (do
      each x.reqs (reissue r.vf)
      each x.names presentName)
    reloadSlots rid
    each [0, 1, 2] (settlePlinth r.hall)

/-- Give the invocations of an image free numbers of a hall's table. -/
def freeInvs (h : Hall) (l : KMap Invocation) : List (Nat × Nat) :=
  ((l.map (·.1)).zip ((List.range (h.invs.length + l.length)).filter (fun k => (kget h.invs k).isNone)))

/-- Put a plinth's part back (R207). -/
def joinPlinth (rid : Nat) (p x : Plinth) : Plinth :=
  let p := { p with
    slotHolder := x.slotHolder.foldl (fun m q => kset m q.1 q.2) p.slotHolder
    slots := x.slots.foldl (fun m q => kset m q.1 q.2) p.slots, jobs := p.jobs ++ x.jobs }
  if x.holder = some rid then { p with holder := some rid, cfg := x.cfg, rows := x.rows, drain := x.drain } else p

/-- The parent of a region that CTX.SAVE took counts it as its child again (R311, R318). -/
def backToParent (x : SaveImage) (y : Region) : Region :=
  let k := identOf x.region
  let l := kgetD y.results k []
  { y with
    children := addNat y.children x.rid
    results := if x.vacated && !x.parked then (if l.length ≤ 1 then kdel y.results k else kset y.results k l.dropLast) else y.results }

/-- A region as an image restores it. CTX.LOAD restores it Sealed: a run in progress goes on when the saved CFG.RUN does (R318). -/
def restored (now : Nat) (sealed : Bool) (r : Region) : Region :=
  let r := { r with snapshot := none, silence := now, detector := {} }
  if sealed then { r with state := .sealed, saved := none, autoSaved := false, midRun := r.state == .running } else r

/-- Restore a region and all that its image holds to a placement that nothing of it occupies (R205, R207, R208, R318). A fold that another
region has declared meanwhile stays. -/
def restoreImage (x : SaveImage) (sealed : Bool) : M Unit := do
  let s ← get'
  let r := x.region
  let m := freeInvs (hallAt s r.hall) x.invs
  let now := fun (i : Nat) => ((m.find? (fun p => p.1 == i)).map (·.2)).getD i
  eff (.region x.rid (some (restored s.timeNs sealed r)))
  (match r.parent with
   | some p => modRegion p (backToParent x)
   | none => pure ())
  modImage r.vf x.number (fun y => { y with vacated := false, parked := false })
  modHall r.hall (fun h => { h with
    invs := x.invs.foldl (fun l p => kset l (now p.1) p.2) h.invs
    hold := h.hold ++ x.hold.map (fun y => { y with inv := now y.inv })
    pins := x.pins.foldl (fun l p => kset l p.1 (now p.2)) h.pins
    overflow := h.overflow ++ x.overflow
    folds := x.folds.foldl (fun l p => if (kget l p.1).isSome then l else
      kset l p.1 { p.2 with slots := p.2.slots.map (fun q => (q.1, { q.2 with inv := now q.2.inv })) }) h.folds
    plinths := (h.plinths.zip x.plinths).map (fun q => joinPlinth x.rid q.1 q.2) })
  each x.chans (fun p => eff (.chan p.1 (some p.2)))
  each x.reqs (reissue r.vf)
  each x.names (fun q => presentName { q with inv := q.inv.map now })
  reloadSlots x.rid
  each [0, 1, 2] (settlePlinth r.hall)

/-- A region goes on from an image: the one it stopped with, or an earlier one of its placement (R337). -/
def thawFrom (rid : Nat) (r : Region) (x : SaveImage) : M Unit :=
  if r.saved = some x.number then resumeRegion rid x
  else do
    vacate rid
    restoreImage x false

/-! ### FREEZE, THAW, SNAP (R337) -/

/-- The region that an identifier names; ILLOP where there is none. -/
def namedRegion (i : BitVec 5) : M (Nat × Region) := do
  let v ← reg i
  let s ← get'
  match ridOfIdent s v, (ridOfIdent s v).bind (kget s.regions) with
  | some k, some r => pure (k, r)
  | _, _ => illOp

/-- The service sequencer's command waited before. -/
def waitedHere : M Bool := do
  let q ← mySeq
  pure q.waiting

/-- A pre-emption command waits for a CTX.SWAP of its region, up to 20 µs (R209). -/
def swapFirst? (r : Region) : M Bool := do
  let s ← get'
  let q ← mySeq
  pure (r.seq.swap.isSome && !(q.waiting && decide (q.waitStart + swapWait ≤ s.timeNs)))

/-- FREEZE (R40, R206, R209, R337): a region in any state. One that is Frozen already stays so, and its state is in the named slot too. -/
def execFreeze (f : CmdRec) (s : State) : Host.Outcome State Fault Refusal :=
  runCommand .privileged true (do
    let (rid, r) ← namedRegion f.s
    let s ← get'
    let wait ← swapFirst? r
    if wait then pure .wait
    else do
      let k := f.imm.toNat % 1024
      match (if r.state = .frozen then r.saved.bind (imageNo s r.vf) else none) with
      | some x => do
        let n ← fresh
        keepImage r.vf { x with number := n }
        let _ ← guestWrite r.hall r.vf (slotAddr (vfAt s r.vf) k) (imageBytes n)
        modRegion rid (fun r => { r with saved := some n })
        pure .done
      | none => do
        stopRegion rid 2 (some k) .frozen
        pure .done) s

/-- SNAP (R204, R209, R337): it returns when the region is Sealed, or has ended or been frozen meanwhile. A snapshot that a slice's end
has begun becomes this one. -/
def execSnap (f : CmdRec) (s : State) : Host.Outcome State Fault Refusal :=
  runCommand .privileged true (do
    let v ← reg f.s
    let q ← mySeq
    let s ← get'
    let k := f.imm.toNat % 1024
    match ridOfIdent s v, (ridOfIdent s v).bind (kget s.regions) with
    | some rid, some r =>
      if r.snapshot.isSome then do
        whenM (q.progress == 0) (modRegion rid (fun r => { r with snapshot := r.snapshot.map (fun x => { x with slot := some k }) }))
        modSeq (fun q => { q with progress := 1 })
        pure .wait
      else if q.progress ≠ 0 then pure .done
      else if r.saved.isSome then trapCode 0x14
      else do
        startSnapshot rid (some k)
        modSeq (fun q => { q with progress := 1 })
        pure .wait
    | _, _ => if q.progress ≠ 0 then pure .done else illOp) s

/-- THAW (R206, R337, R456). -/
def execThaw (f : CmdRec) (s : State) : Host.Outcome State Fault Refusal :=
  runCommand .privileged true (do
    let (rid, r) ← namedRegion f.s
    let s ← get'
    if r.saved.isNone then trapCode 0x14
    else
      let at_ := slotAddr (vfAt s r.vf) (f.imm.toNat % 1024)
      match ← attempt (readBuf r.hall r.vf (some { scratch := none, base := 0, len := 2 ^ 57, read := true, write := false, atomic := false }) at_ Config.saveSize) with
      | .error t =>
        if t.code = 0x40 then do
          regionFault rid { code := 0x4D } 0
          pure .done
        else trap t
      | .ok bs =>
        match imageWith (vfAt s r.vf) bs with
        | none => illOp
        | some x =>
          if x.rid ≠ rid ∨ identOf x.region ≠ identOf r then illOp
          else do
            thawFrom rid r x
            pure .done) s

/-! ### CTX.SAVE, CTX.LOAD, CTX.SWAP (R318, R432, R456) -/

/-- The target of a guest's context command: another region of its function. -/
def ctxTarget (i : BitVec 5) : M (Nat × Region) := do
  let (k, x) ← namedRegion i
  let (rid, r) ← myRegion
  if k = rid ∨ x.vf ≠ r.vf then illOp
  else if x.state ≠ .sealed ∨ x.saved.isSome then trapCode 0x14 else pure (k, x)

/-- The issuer's region faults: an image that it loads is damaged (R456). DEDUCED, log 87. -/
def damagedImage : M Next := do
  let (rid, _) ← myRegion
  regionFault rid { code := 0x4D, seq := true } 0
  pure .moved

/-- What a reference to an image leads to. -/
inductive Found where
  | image (x : SaveImage)
  | damaged

/-- Read the image at a descriptor reference (R318, R456). -/
def findImage (ref : Nat) : M Found := do
  checkRef ref
  let o ← home
  let b ← myBuffer (refHandle ref)
  let s ← get'
  match ← attempt (readBuf o.hall o.vf b (refOff ref) Config.saveSize) with
  | .error t => if t.code = 0x40 then pure .damaged else trap t
  | .ok bs => match imageWith (vfAt s o.vf) bs with
    | some x => pure (.image x)
    | none => illOp

/-- Save a Sealed region to a descriptor reference; its engine commands end first. -/
def saveTarget (k : Nat) (x : Region) (ref : Nat) : M Unit := do
  checkRef ref
  let o ← home
  let b ← myBuffer (refHandle ref)
  let s ← get'
  if s.pkg.engines.any (fun e => e.vf == x.vf && e.rid == some k && !e.done) then stall
  else do
    let n ← fresh
    writeBuf o.hall o.vf b (refOff ref) (imageBytes n)
    keepImage o.vf { imageOf s k { x with seq := imageSeq x } 1 n with vacated := true }
    (match x.parent with
     | some p => modRegion p (addResult (identOf x) (x.seq.get 1))
     | none => pure ())
    vacate k

/-- CTX.SAVE (R318). -/
def execCtxSave (f : CmdRec) (s : State) : Host.Outcome State Fault Refusal :=
  runCommand .regionOnly true (do
    let (k, x) ← ctxTarget f.s
    let ref ← reg f.t
    saveTarget k x ref
    pure .done) s

/-- Load an image to its placement, which is Free (R310, R318). -/
def loadImage (x : SaveImage) : M Unit := do
  let s ← get'
  let r := x.region
  if !placementFree s r.vf r.hall r.ctx r.shape r.origin || !reservationFits s r.vf r.hall r.ctx r.shape r.origin r.fres then stall
  else do
    clearPlace r.vf r.hall r.ctx r.shape r.origin
    restoreImage x true

/-- CTX.LOAD (R318). -/
def execCtxLoad (f : CmdRec) (s : State) : Host.Outcome State Fault Refusal :=
  runCommand .regionOnly true (do
    let ref ← reg f.t
    match ← findImage ref with
    | .damaged => damagedImage
    | .image x => do
      loadImage x
      setReg f.d (identOf x.region)
      pure .done) s

/-- The second half of a CTX.SWAP, with the context that its first half has saved (R209). -/
def swapIn (f : CmdRec) : M Next := do
  let refs ← reg f.t
  let d ← descriptor refs 16
  match ← findImage (wordAt d 1) with
  | .damaged => damagedImage
  | .image y => do
    modSeq (fun q => { q with swap := none })
    loadImage y
    pure .done

/-- CTX.SWAP (R209, R318, R432): CTX.SAVE of the target, then CTX.LOAD of an image of its placement. -/
def execCtxSwap (f : CmdRec) (s : State) : Host.Outcome State Fault Refusal :=
  runCommand .regionOnly true (do
    let q ← mySeq
    if q.swap.isSome then swapIn f
    else do
      let (k, x) ← ctxTarget f.s
      let refs ← reg f.t
      let d ← descriptor refs 16
      match ← findImage (wordAt d 1) with
      | .damaged => damagedImage
      | .image y =>
        if identOf y.region ≠ identOf x then illOp
        else do
          saveTarget k x (wordAt d 0)
          modSeq (fun q => { q with swap := some (identOf x) })
          pure .wait) s

end Sys2Proof.Machine
end

