-- ==== Sys2Proof/Machine/Registrar.lean ====
section
/-! DEFINITION. The registrar (R220 to R222, R458), the release of contexts, wings and functions (R200, R201, R216), and scrubbing
(R214, R215). -/
namespace Sys2Proof.Machine

/-! ### Entries (R220 to R222, R458) -/

/-- An operation that logs may take effect: the buffer has room, and the entry a SEQ (R221, R222). -/
def canLog (s : State) : Bool :=
  let r := s.pkg.registrar
  !r.regFail && decide (r.entries.length < r.acked + 8192) && (decide (r.count < 2 ^ 32) || decide (r.epoch < epochFuses))

/-- An operation that logs stalls before its effect while no entry can be written. -/
def needLog : M Unit := do
  let s ← get'
  if canLog s then pure () else stall

/-- Bits [383:0] of an entry. -/
def entryBody (s : State) (kind wing vf : Nat) (data : BitVec 256) : BitVec 384 :=
  let r := s.pkg.registrar
  BitVec.ofNat 384 ((r.epoch * 2 ^ 32 + r.count % 2 ^ 32) * 2 ^ 320 + kind * 2 ^ 312 + wing % 64 * 2 ^ 306 + vf % 1024 * 2 ^ 296
    + s.timeNs / 1000 % 2 ^ 32 * 2 ^ 264 + data.toNat)

/-- Write one entry; at 7,168 unacknowledged ones the host is told once (R458). -/
def logData (kind wing vf : Nat) (data : BitVec 256) : M Unit := do
  needLog
  let s ← get'
  whenM (2 ^ 32 ≤ s.pkg.registrar.count) (eff .epoch)
  let s ← get'
  eff (.entry (entryBody s kind wing vf data))
  let s ← get'
  let r := s.pkg.registrar
  whenM (!r.warned && decide (r.acked + 7168 ≤ r.entries.length)) (do
    eff (.registrar r.exported r.acked r.regFail true)
    msi 1024 3)

/-- Write an entry whose DATA the specification does not give. -/
def logEntry (kind wing vf : Nat) : M Unit := do
  let n ← fresh
  logData kind wing vf (Config.entryData n)

/-! ### Halls (R26, R200, R216) -/

/-- VTUSE after a hall has lost its power: retired ways stay retired (R109, R443). -/
def vtuseAfter (h : Hall) (tile : Nat) : Nat :=
  (List.range 15).foldl (fun v w => if wayUse h tile w = 13 then v + 13 * 2 ^ (4 * w) else v) (vtuseReset tile)

/-- A hall scrubbed, refusing every packet and power-gated. -/
def gatedHall (h : Hall) : Hall :=
  { Hall.reset with vtuse := (List.range 12).map (vtuseAfter h), spare := h.spare, released := h.released, temps := h.temps, held := h.held, ceiling := h.ceiling }

/-- Bytes of a hall's vault that hold scratch at most: twelve tiles of sixteen 64 KiB ways. -/
def vaultBytes : Nat := 12 * 16 * 65536

/-- Scrub a hall: its scratch bytes are zeroed, its caches are empty (R216). -/
def scrubHall (h : Nat) : M Unit := do
  eff (.clear (scratchAddr h 0) vaultBytes)
  modHall h gatedHall

/-! ### Contexts (R216) -/

/-- End a region as a release does: open invocations are discarded without reports. -/
def endRegion (rid : Nat) : M Unit := do
  let s ← get'
  match kget s.regions rid with
  | none => pure ()
  | some r => do
    each (invsOf s rid r.hall) (fun i => discardInv r.hall i false)
    freeRegion rid 0

/-- Every region of a function ends, those too whose place a slice's end has given up; its contexts then await their scrub. -/
def releaseVf (vf : Nat) : M Unit := do
  let s ← get'
  modVf vf (fun v => { v with saves := (v.saves.filter (fun x => !x.parked || x.region.root)).map (fun x => if x.parked then { x with releasing := true } else x) })
  each (s.regions.filter (fun p => p.2.vf == vf && p.2.state != .free)) (fun p => endRegion p.1)
  modPkg (fun p => { p with engines := p.engines.filter (·.vf != vf) })

/-- Contexts of a function that are resident, parked or under scrub: their regions' numbers. -/
def contextsOf (s : State) (vf : Nat) : List Nat :=
  (s.regions.filter (fun p => p.2.vf == vf)).map (·.1) ++ ((vfAt s vf).saves.filter (·.parked)).map (·.rid)

/-- A context of a wing is resident, parked or under scrub. -/
def wingBusy (s : State) (k : Nat) : Bool :=
  s.regions.any (fun p => p.2.wing == k) || s.vfs.any (fun p => p.2.saves.any (fun x => x.parked && x.region.wing == k))

/-- A translation-cache entry's function, its first 64 KiB page and its page size's exponent (R105). -/
def tlbVf (k : Nat) : Nat := k / 32 / 2 ^ 41
def tlbPage (k : Nat) : Nat := k / 32 % 2 ^ 41
def tlbSize (k : Nat) : Nat := k % 32

/-- Walks for the pages of a function that `covers` names, by their size's exponent and their first 64 KiB page, will fill no cache. -/
def staleWalks (vf : Nat) (covers : Nat → Nat → Bool) : M Unit := do
  let s ← get'
  let size := fun (page : Nat) => match translate s vf (page * 65536) with | .ok st => st.log2 | .error _ => 16
  eff (.walks (s.walks.map (fun w => if w.vf = vf ∧ covers (size w.page) w.page then { w with stale := true } else w)))

/-- A function's translations leave every cache, and walks in progress fill none (R106, R216). -/
def dropTranslations (vf : Nat) (covers : Nat → Nat → Bool) : M Unit := do
  let s ← get'
  each (List.range s.halls.length) (fun h => modHall h (fun x => { x with tlb := x.tlb.filter (fun e =>
    !(tlbVf e.1 == vf && covers (tlbSize e.1) (tlbPage e.1))) }))
  staleWalks vf covers

/-- A function leaves its wing: handles and translations are invalidated (R201, R216). -/
def unbindVf (vf : Nat) : M Unit := do
  dropTranslations vf (fun _ _ => true)
  modVf vf (fun v => { v with wing := none, handles := [], rings := [] })

/-- The scrub of a function's released context (R216): its folds in every hall of the wing, the casts and galleries it opened, and its
handles. -/
def scrubContext (vf wing : Nat) : M Unit := do
  let s ← get'
  match kget s.wings wing with
  | none => pure ()
  | some w => do
    each (w.casts.filter (fun c => c.2.vf == vf)) (fun c => eff (.clear c.2.base c.2.bytes))
    each ((repairsOf s).filter (fun x => x.2.wing == wing && (x.2.vf == vf || (kget w.galleries x.2.gallery).any (·.vf == vf))))
      (fun x => cancelRepair x.1 x.2.number)
    modWing wing (fun w => { w with casts := w.casts.filter (fun c => c.2.vf != vf), galleries := w.galleries.filter (fun g => g.2.vf != vf) })
    each (wingHalls w) (fun h => modHall h (fun x => { x with folds := x.folds.filter (fun f => f.2.vf != vf) }))
  modVf vf (fun v => { v with handles := [] })
  dropTranslations vf (fun _ _ => true)

/-- The release of a wing's halls (R200): each is scrubbed and gated, and the wing is gone. -/
def dropWing (k : Nat) (w : Wing) : M Unit := do
  needLog
  each (wingHalls w) scrubHall
  eff (.wing k none)
  logEntry 0x01 k 0

/-! ### Frames (R214, R215, R442) -/

/-- Frames of HBM. -/
def frameCount : Nat := 262144

/-- A frame is in the clean pool. -/
def inPool (f : Frames) (k : Nat) : Bool := f.clean.any (fun p => p.1 ≤ k && k < p.1 + p.2)

/-- A frame that SCRUB may take: ownerless, in neither queue nor pool, not under scrub and not bad. -/
def strayFrame (f : Frames) (k : Nat) : Bool :=
  decide (k < frameCount) && (kget f.owners k).isNone && !inPool f k && !f.queue.contains k && !f.scrubbing.any (·.1 == k) && !f.bad.contains k

/-- Zero a frame's bytes and their poison markers. -/
def zeroFrame (k n : Nat) : M Unit := eff (.clear (k * 0x200000) (n * 0x200000))

end Sys2Proof.Machine
end

