-- ==== Sys2Proof/Machine/SeqSystem.lean ====
section
/-! DEFINITION. The wing and function commands of the service sequencer, SCRUB and AUDIT (R199 to R201, R338, R339). -/
namespace Sys2Proof.Machine

/-- The halls of a rectangle. -/
def rectHalls (x0 y0 w h : Nat) : List Nat :=
  ((List.range h).map (fun y => (List.range w).map (fun x => (y0 + y) * 8 + x0 + x))).flatten

/-- WING.DEF (R200, R219, R338, R459). DEDUCED, log 79. -/
def execWingDef (f : CmdRec) (s : State) : Host.Outcome State Fault Refusal :=
  runCommand .privileged true (do
    let a ← reg f.s
    let t ← reg f.t
    let s ← get'
    let k := f.imm.toNat % 64
    let (x0, y0, w, h) := (bits a 0 3, bits a 3 3, bits a 8 3 + 1, bits a 11 3 + 1)
    let hs := rectHalls x0 y0 w h
    if bits a 6 2 ≠ 0 ∨ bits a 14 50 ≠ 0 ∨ 8 < x0 + w ∨ 8 < y0 + h ∨ (kget s.wings k).isSome ∨ !s.pkg.booted ∨ s.pkg.life = .returned
        ∨ hs.any (fun x => (hallAt s x).wing.isSome || !(hallAt s x).released) then illOp
    else do
      needLog
      eff (.wing k (some { x0 := x0, y0 := y0, width := w, height := h, tenant := t % 2 ^ 32 }))
      each hs (fun x => do
        scrubHall x
        modHall x (fun y => { y with wing := some k, powered := true }))
      logEntry 0x01 k 0
      pure .done) s

/-- WING.DEF.rel (R200): no context of the wing is resident. -/
def execWingDefRel (f : CmdRec) (s : State) : Host.Outcome State Fault Refusal :=
  runCommand .privileged true (do
    let s ← get'
    let k := f.imm.toNat % 64
    match kget s.wings k with
    | none => illOp
    | some w =>
      if wingBusy s k then trapCode 0x14
      else do
        dropWing k w
        pure .done) s

/-- WING.ROUTE (R24, R25, R200, R454): the routing tables are written and the filters set, then the ports open. -/
def execWingRoute (f : CmdRec) (s : State) : Host.Outcome State Fault Refusal :=
  runCommand .privileged true (do
    let s ← get'
    let k := f.imm.toNat % 64
    match kget s.wings k with
    | none => illOp
    | some w => do
      needLog
      each (wingHalls w) (fun x => modHall x (fun y => { y with table := routingTable (wingHalls w) x, filter := some k, portsOpen := true }))
      logEntry 0x02 k 0
      pure .done) s

/-- VF.BIND (R27, R201). -/
def execVfBind (f : CmdRec) (s : State) : Host.Outcome State Fault Refusal :=
  runCommand .privileged true (do
    let v := (← reg f.s) % 1024
    let s ← get'
    let k := f.imm.toNat % 64
    if (kget s.wings k).isNone ∨ (vfAt s v).wing.isSome ∨ 16 ≤ (s.vfs.filter (fun p => p.2.wing == some k)).length then illOp
    else do
      needLog
      modVf v (fun x => { x with wing := some k })
      logEntry 0x03 k v
      pure .done) s

/-- VF.BIND.rel (R201): every context of the function is released first. -/
def execVfBindRel (f : CmdRec) (s : State) : Host.Outcome State Fault Refusal :=
  runCommand .privileged true (do
    let v := (← reg f.s) % 1024
    let s ← get'
    let k := f.imm.toNat % 64
    if (vfAt s v).wing ≠ some k then illOp
    else do
      needLog
      if (contextsOf s v).isEmpty then do
        unbindVf v
        logEntry 0x03 k v
        pure .done
      else do
        releaseVf v
        pure .wait) s

/-- SCRUB (R215, R338). -/
def execScrub (f : CmdRec) (s : State) : Host.Outcome State Fault Refusal :=
  runCommand .privileged true (do
    let a ← reg f.s
    let n ← reg f.t
    let s ← get'
    if frameCount < a + n ∨ !(List.range n).all (fun i => strayFrame s.pkg.frames (a + i)) then illOp
    else do
      needLog
      zeroFrame a n
      modPkg (fun p => { p with frames := { p.frames with clean := if n = 0 then p.frames.clean else p.frames.clean ++ [(a, n)] } })
      logEntry 0x05 0 0
      pure .done) s

/-- AUDIT (R221, R339). -/
def execAudit (f : CmdRec) (s : State) : Host.Outcome State Fault Refusal :=
  runCommand .anywhere true (do
    let ref ← reg f.s
    let o ← home
    let bs ← descriptor ref 32
    logData 0x80 o.wing o.vf (BitVec.ofNat 256 (leNat bs))
    pure .done) s

end Sys2Proof.Machine
end

