-- ==== Sys2Proof/Machine/EventsCells.lean ====
section
/-! DEFINITION. Steps of cells and of the fabric: issue, arrival, the overflow queue, the mesh, hand-over, elastic buffers,
iterations and threads (R25, R44, R47 to R60, R68, R197, R388, R404, R423, R424, R454). -/
namespace Sys2Proof.Machine

/-! ### What may run -/

/-- A hall's clock runs. -/
def hallRuns (h : Hall) : Bool := h.powered && !h.held

/-- A region's dataflow goes on: it is Running, or a snapshot of it has not reached the cell; no trap is pending. -/
def cellRuns (s : State) (r : Region) (cell : Nat) : Bool :=
  r.saved.isNone && r.trap.isNone && r.traps.isEmpty && hallRuns (hallAt s r.hall)
  && (r.state == .running || (r.state == .snapshotting && r.snapshot.any (fun x => x.pending.contains cell)))

/-- The region's sources go on: its counters and streams stop while a snapshot is taken (R204). DEDUCED, log 46. -/
def sourceRuns (s : State) (r : Region) : Bool :=
  r.saved.isNone && r.trap.isNone && r.traps.isEmpty && hallRuns (hallAt s r.hall) && r.state == .running

/-! ### Issue (R52, R54, R56, R197) -/

/-- The destinations and tags of the tokens that an instance sends as it fires; `n` instances of its node are gathered
before it. None when it may not issue. -/
def issueDests (s : State) (r : Region) (x : LiveNode) (i : Inst) (n : Nat) : Option (List (Dest × Nat)) :=
  let f := x.fields
  let tag := i.lane.tag
  let two := some [(f.da, tag), (f.db, tag)]
  match x.instr with
  | .tagnew _ => (((freeTags r (f.ax.toNat % 16)))[n]?).map (fun t => [(f.da, t), (f.db, tag)])
  | .tagret _ | .tagset _ => some [(f.da, outerTag f i.lane), (f.db, outerTag f i.lane)]
  | .fire _ => some []
  | .init _ =>
    let t := f.ex.toNat % 4096
    if hdrThread r.header || r.run.left == 0 || canOpen s r (ridOf r.hall r.ctx r.origin) r.run.next then some [(f.da, t), (f.db, t)] else none
  | .mxsteer _ =>
    let mask := kgetD r.routes (opv f i.lane 1).toNat 0
    some (((List.finRange 16).filter (fun k => bits mask k.val 1 == 1)).map (fun k => (Dest.out k, tag)))
  | .mxrow _ =>
    let p := plinthAt s r.hall (f.ex.toNat % 4)
    let own := fun (t : Nat) => if p.cfg.any (·.keep) then [(f.db, t)] else [(f.da, t), (f.db, t)]
    -- the packets of the node that are in work have their places before this one (R52, R366)
    let ahead := p.jobs.filter (fun j => n == 0 && j.rid == ridOf r.hall r.ctx r.origin && j.cell == i.cell && j.node == i.node)
    some (own tag ++ ahead.flatMap (fun j => own j.lane.tag))
  | .mxdrain _ =>
    let p := plinthAt s r.hall (f.ex.toNat % 4)
    if (plinthOk p (ridOf r.hall r.ctx r.origin) []).any (·.keep) && p.drain.isNone && (completeRows p (drainTags f i.lane)).isNone then none else two
  | .acc _ =>
    let p := plinthAt s r.hall (f.ex.toNat % 4)
    let first := (kget r.acc ((i.cell * 32 + i.node) * 4096 + tag)).all (fun a => a.rows.isEmpty)
    match pairOf (operand f i.lane 0).packet with
    | some (sc, _) => if first && (kget i.lane.ops 0).isSome && (freeRows p sc.hdr.rows).isNone then none else two
    | none => two
  | _ => two

/-- A pending poison keeps an instance from firing (R408). -/
def pendingLane (l : Lane) : Bool := l.ops.any (fun p => p.2.isPending)

/-- Gather instances of one node, oldest first, while each may issue and all have places. DEDUCED, log 45. -/
def gather (s : State) (rid : Nat) (r : Region) (x : LiveNode) (cell node limit : Nat) :
    List Inst → List Inst → List (Dest × Nat) → List Inst
  | [], got, _ => got
  | i :: rest, got, ds =>
    if limit ≤ got.length then got
    else if i.cell ≠ cell ∨ i.node ≠ node ∨ pendingLane i.lane then gather s rid r x cell node limit rest got ds
    else match issueDests s r x i got.length with
    | some d => if roomAll s rid cell (ds ++ d) then gather s rid r x cell node limit rest (got ++ [i]) (ds ++ d) else gather s rid r x cell node limit rest got ds
    | none => gather s rid r x cell node limit rest got ds

/-- An instance may issue now. -/
def instReady (s : State) (rid : Nat) (r : Region) (i : Inst) : Bool :=
  !pendingLane i.lane &&
  (match liveNode r.active i.cell i.node with
   | none => false
   | some x => match issueDests s r x i 0 with
     | some d => roomAll s rid i.cell d
     | none => false)

/-- What a region would issue in a cell: a retried issue goes before every other of the region (R404). -/
def nextIssue (s : State) (rid : Nat) (r : Region) (cell : Nat) : Option (Issue × Region) :=
  match r.again with
  | a :: rest =>
    if a.cell ≠ cell then none
    else match liveNode r.active a.cell a.node with
    | none => none
    | some x =>
      let ds := a.lanes.zipIdx.flatMap (fun l => (issueDests s r x { cell := a.cell, node := a.node, lane := l.1 } l.2).getD [])
      if roomAll s rid cell ds then some (a, { r with again := rest }) else none
  | [] =>
    match r.ready.find? (fun i => i.cell == cell && instReady s rid r i) with
    | none => none
    | some i =>
      match liveNode r.active i.cell i.node with
      | none => none
      | some x =>
        let got := gather s rid r x i.cell i.node (gatherOf x.fields) r.ready [] []
        some ({ rid := rid, cell := i.cell, node := i.node, lanes := got.map (·.lane), mdSet := kgetD r.active.keep (i.cell * 32 + i.node) 0 },
              { r with ready := got.foldl (fun l j => l.erase j) r.ready })

/-- The weight of a context (R197). -/
def weightOf (r : Region) : Nat := max 1 (min 16 r.fres)

/-- The contexts of a cell with ready work, in cyclic order from the one after the last served. -/
def readyContexts (s : State) (hall cell : Nat) : List (Nat × Nat × Region) :=
  let last := kgetD (hallAt s hall).served cell 3
  ([1, 2, 3, 4] : List Nat).filterMap (fun k =>
    let c := (last + k) % 4
    (coverRid s hall c cell).bind (fun rid => (kget s.regions rid).bind (fun r =>
      if cellRuns s r cell ∧ (nextIssue s rid r cell).isSome then some (c, rid, r) else none)))

/-- Credits after a refill of the contexts with ready work, when none of them has credit left (R197). -/
def refill (credits : KMap Nat) (cell : Nat) (l : List (Nat × Nat × Region)) : KMap Nat :=
  if l.any (fun p => kgetD credits (4 * cell + p.1) 0 ≠ 0) then credits
  else l.foldl (fun m p => kset m (4 * cell + p.1) (weightOf p.2.2)) credits

/-- Add to a counter of a region that saturates at a width. -/
def satUp (w n k : Nat) : Nat := min (2 ^ w - 1) (n + k)

/-- The counters that an issue of `n` lanes raises (R57, R306). -/
def countIssue (n : Nat) (y : RegionRegs) : RegionRegs :=
  { y with
    gwIssues := satUp 32 y.gwIssues 1, gwInsts := satUp 32 y.gwInsts n
    perf := (y.perf.set 1 (satUp 64 ((y.perf[1]?).getD 0) 1)).set 2 (satUp 64 ((y.perf[2]?).getD 0) n) }

/-- An issue cycle of a cell (R56, R197): the chosen node's record runs next. -/
def cellIssue (hall cell : Nat) : M Unit := do
  let s ← get'
  each ([0, 1, 2, 3] : List Nat) (fun c => match coverRid s hall c cell with
    | some rid => settleEntries rid cell 64
    | none => pure ())
  let s ← get'
  let l := readyContexts s hall cell
  let credits := refill (hallAt s hall).credits cell l
  match l.find? (fun p => kgetD credits (4 * cell + p.1) 0 ≠ 0) with
  | none => pure ()
  | some (c, rid, r) =>
    match nextIssue s rid r cell with
    | none => pure ()
    | some (i, r') => do
      modHall hall (fun h => { h with credits := kset credits (4 * cell + c) (kgetD credits (4 * cell + c) 1 - 1), served := kset h.served cell c })
      eff (.region rid (some { r' with sys := countIssue i.lanes.length r'.sys }))
      stir rid
      eff (.issue (some i))
      (match s.turn with
       | .issue _ _ => pure ()
       | _ => lay .fire)

/-- CELL_ISSUE (R56). -/
def execCellIssue (s : State) : Host.Outcome State Fault Refusal :=
  runEvent (match s.input with
    | .pair hall cell => if s.issue.isSome then pure () else cellIssue hall cell
    | _ => pure ()) s

/-! ### Arrival (R47 to R52, R62, R68) -/

/-- The token at the head of a channel reaches its place. A stream takes its own (R112). -/
def arrive (key : Nat) : M Unit := do
  let s ← get'
  match kget s.chans key with
  | none => pure ()
  | some c =>
    match c.queue with
    | [] => pure ()
    | t :: _ =>
      match c.place with
      | .stream _ => pure ()
      | .port cell node port =>
        match coverRid s c.hall c.ctx cell with
        | none => pure ()
        | some rid => withRegion rid (fun r =>
            if cellRuns s r cell then do
              let ok ← arriveToken rid cell node port t false false
              whenM ok (takeHead key)
            else pure ())
      | .queue cell q =>
        match coverRid s c.hall c.ctx cell with
        | none => pure ()
        | some rid => withRegion rid (fun r =>
            let x := kgetD r.queues cell {}
            if cellRuns s r cell ∧ (if q = 0 then x.q0 else x.q1).length < 16 then do
              modRegion rid (fun r => { r with queues := kset r.queues cell (if q = 0 then { x with q0 := x.q0 ++ [t] } else { x with q1 := x.q1 ++ [t] }) })
              takeHead key
              stir rid
            else pure ())

/-- TOKEN_ARRIVAL (R47). -/
def execTokenArrival (s : State) : Host.Outcome State Fault Refusal :=
  runEvent (match s.input with | .index key => arrive key | _ => pure ()) s

/-- The queued token of a cell and context with the lowest tag, the first queued among equals (R50). -/
def lowestQueued (l : List Overflow) : Option Overflow :=
  l.foldl (fun m o => match m with | none => some o | some x => if o.token.tag < x.token.tag then some o else some x) none

/-- OVERFLOW_REINJECT (R50). -/
def execOverflowReinject (s : State) : Host.Outcome State Fault Refusal :=
  runEvent (match s.input with
    | .triple hall cell ctx => do
      let s ← get'
      match coverRid s hall ctx cell with
      | none => pure ()
      | some rid => withRegion rid (fun r =>
          match lowestQueued (overflowOf s r cell) with
          | none => pure ()
          | some o =>
            if cellRuns s r cell then do
              let ok ← arriveToken rid cell (keyNode o.key) (keyPort o.key) o.token false true
              whenM ok (modHall hall (fun h => { h with overflow := h.overflow.erase o }))
            else pure ())
    | _ => pure ()) s

/-- Packet `i` of a channel goes on by one hop: along the routing table's port, into the next hall's router, which accepts it only with
that hall's own wing number; at its destination hall it enters the elastic buffer. It overtakes no earlier packet of its circuit. A
discarded hand-over is never acknowledged (R9, R24 to R26, R454). DEDUCED, log 80. -/
def meshHop (key i : Nat) : M Unit := do
  let s ← get'
  match kget s.chans key with
  | none => pure ()
  | some c =>
    match c.flight[i]? with
    | none => pure ()
    | some p =>
      let h := hallAt s p.hall
      match (kget h.table c.hall).bind (fun o => (neighbour o p.hall).map (fun n => (o, n))) with
      | none => pure ()
      | some (port, next) =>
        let n := hallAt s next
        if h.held ∨ !h.portsOpen ∨ n.held ∨ (c.flight.take i).any (·.hall == p.hall) then pure ()
        else if n.portsOpen ∧ n.filter = some c.wing then
          if next = c.hall then eff (.chan key (some { c with flight := c.flight.eraseIdx i, queue := c.queue ++ [p.token] }))
          else eff (.chan key (some { c with flight := c.flight.set i { p with hall := next, circuit := circuitOn s key p.hall port } }))
        else do
          eff (.chan key (some { c with flight := c.flight.eraseIdx i, lost := c.lost + 1 }))
          whenM (n.portsOpen && n.filter.isSome) (errorRecord 9 0 next 0 0 2 0 0 0 c.wing 0)

/-- MESH_PACKET_ARRIVAL (R24, R25): a packet arrives at the next router of its way. -/
def execMeshPacketArrival (s : State) : Host.Outcome State Fault Refusal :=
  runEvent (match s.input with
    | .index key => meshHop key 0
    | .pair key i => meshHop key i
    | _ => pure ()) s

/-- HANDOVER_ACK (R68): a token that the receiver's buffer has accepted counts as consumed at its sender. -/
def execHandoverAck (s : State) : Host.Outcome State Fault Refusal :=
  runEvent (match s.input with
    | .index key => modChan key (fun c => if c.flight.length + c.lost < c.unacked then { c with unacked := c.unacked - 1 } else c)
    | _ => pure ()) s

/-- BUFFER_PLACE_FREE (R52): the place that a full buffer gained is known to its producer. -/
def execBufferPlaceFree (s : State) : Host.Outcome State Fault Refusal :=
  runEvent (match s.input with
    | .index key => do
      let s ← get'
      match kget s.chans key with
      | none => pure ()
      | some c => whenM (c.freed != 0) (do
          eff (.chan key (some { c with freed := 0 }))
          match kget s.regions c.src with
          | some r => each ([0, 1, 2] : List Nat) (settlePlinth r.hall)
          | none => pure ())
    | _ => pure ()) s

/-! ### Iterations and threads (R44, R54, R55, R60, R80, R388) -/

/-- The index outputs of the origin cell that have a circuit: output and level. -/
def indexOuts (r : Region) : List (Nat × Nat) :=
  ([1, 2, 3, 4, 5, 6] : List Nat).filterMap (fun d => if (kget r.active.circuits (r.origin * 64 + 31 + d)).isSome then some (31 + d, d) else none)

/-- Every index token has a place. -/
def indexRoom (s : State) (rid : Nat) (r : Region) (tag : Nat) : Bool :=
  (indexOuts r).all (fun p => (circuitEdges s rid r r.origin p.1 tag).all (edgeFree s 1))

/-- No INIT node of the run is still to fire (R283). -/
def initsDone (r : Region) : Bool :=
  !(r.ready.any (fun i => match liveNode r.active i.cell i.node with | some { instr := .init _, entry := _, fields := _ } => true | _ => false))

/-- An identifier starts: a tag is drawn and bound, its invocation is open, and its index tokens leave (R54, R60, R80, R388). -/
def startId (rid id : Nat) (g : Run → Run) : M Unit := do
  let s ← get'
  match kget s.regions rid with
  | none => pure ()
  | some r =>
    match freeTags r 0 with
    | [] => pure ()
    | tag :: _ =>
      if initsDone r ∧ indexRoom s rid r tag ∧ canOpen s r rid id then do
        let _ ← drawTag rid 0
        bindTag rid tag (some id)
        openInvocation rid id
        modRegion rid (fun r => { r with run := { (g r.run) with started := r.run.started ++ [id] } })
        let s ← get'
        each (indexOuts r) (fun p => each (circuitEdges s rid r r.origin p.1 tag) (sendEdge { value := BitVec.ofNat 32 (hdrField r.header id p.2), tag := tag }))
        stir rid
      else pure ()

/-- COUNTER_STEP (R38, R55, R60): sequence mode, between the start bit of the iteration chain and the finish bit that its last step sends
(R240). -/
def execCounterStep (s : State) : Host.Outcome State Fault Refusal :=
  runEvent (match s.input with
    | .index rid => do
      let s ← get'
      withRegion rid (fun r =>
        if sourceRuns s r ∧ ¬hdrThread r.header ∧ r.run.counting ∧ r.run.left ≠ 0 then do
          startId rid r.run.next (fun x => { x with
            left := x.left - 1, next := idAt r.header (idOrdinal r.header r.run.next + 1), drawn := x.drawn ++ (freeTags r 0).take 1 })
          modRegion rid (fun y => if y.run.left = 0 then takeControl y (chainWord 2 y) else y)
        else pure ())
    | _ => pure ()) s

/-- THREAD_ADMIT (R44, R388): thread mode, at most 4,096 threads in a run. -/
def execThreadAdmit (s : State) : Host.Outcome State Fault Refusal :=
  runEvent (match s.input with
    | .index rid => do
      let s ← get'
      withRegion rid (fun r =>
        match kgetD r.threads r.seq.act [] with
        | [] => pure ()
        | id :: rest =>
          if sourceRuns s r ∧ hdrThread r.header ∧ r.run.admitted < 4096 then do
            startId rid id (fun x => { x with admitted := x.admitted + 1 })
            let s' ← get'
            whenM ((kget s'.regions rid).any (fun y => y.run.admitted != r.run.admitted))
              (modRegion rid (fun y => { y with threads := kset y.threads r.seq.act rest }))
          else pure ())
    | _ => pure ()) s

end Sys2Proof.Machine
end

