-- ==== Sys2Proof/Machine/EventsRun.lean ====
section
/-! DEFINITION. Steps of a region as a whole: loads, runs, commits, the monitors of waits, snapshots and slices (R38 to R44, R67
to R71, R202 to R209, R417 to R421, R455, R457). -/
namespace Sys2Proof.Machine

/-! ### Loads and runs -/

/-- The mailbox state of a function. -/
def setST (vf n : Nat) : M Unit := modVf vf (fun v => { v with st := n })

/-- A load that goes on: the region's clock runs and no pre-emption has stopped it. -/
def loadRuns (s : State) (r : Region) : Bool := r.saved.isNone && hallRuns (hallAt s r.hall) && r.state != .snapshotting && r.state != .free

/-- CONFIG_LOAD_END (R39, R40, R213): the bank is ready; the act that a transfer waits for becomes active. -/
def execConfigLoadEnd (s : State) : Host.Outcome State Fault Refusal :=
  runEvent (match s.input with
    | .index rid => do
      let s ← get'
      withRegion rid (fun r =>
        match r.loading with
        | none => pure ()
        | some act =>
          if !loadRuns s r then pure ()
          else match (r.program.acts[act]?).bind actSections with
          | none => modRegion rid (fun r => { r with loading := none })
          | some l => do
            let b := bankOf r act l
            modRegion rid (fun r =>
              let r := { r with loading := none, state := if r.state == RegionState.loading then RegionState.idle else r.state }
              if r.seq.act = act ∧ r.active.act ≠ some act ∧ r.state ≠ .running then { r with active := b, idle := r.active } else { r with idle := b })
            whenM (r.root && (vfAt s r.vf).st == 1) (setST r.vf 2))
    | _ => pure ()) s

/-- A commit waits: a line that it would write is pinned by another invocation, its row is under test or its way changes use, or the
host link is down (R110, R134, R439, R453). -/
def commitBlocked (s : State) (hall inv : Nat) : Bool :=
  (committed hall ((hallAt s hall).hold.filter (·.inv == inv))).any (fun x =>
    (linesOf x.addr x.data.length).any (fun l => pinnedByOther s l (some (hall, inv)))
    || rowBusy s hall x.addr || (rangeMt x.addr == some 2 && !s.pkg.hostUp))

/-- A done invocation ends: it commits, or is discarded (R71, R409). It waits while it is blocked. -/
def endInvocation (hall inv : Nat) : M Unit := do
  let s ← get'
  match kget (hallAt s hall).invs inv with
  | none => pure ()
  | some i =>
    if i.discarded.isSome then discardInv hall inv true
    else if commitBlocked s hall inv then stall
    else commitInv hall inv

/-- INVOCATION_COMMIT (R71, R80, R409). -/
def execInvocationCommit (s : State) : Host.Outcome State Fault Refusal :=
  runEvent (match s.input with
    | .pair hall inv => do
      let s ← get'
      match kget (hallAt s hall).invs inv with
      | none => pure ()
      | some i =>
        if i.live = 0 ∧ hallRuns (hallAt s hall) ∧ (kget s.regions i.rid).all (fun r => r.saved.isNone) then endInvocation hall inv else pure ()
    | _ => pure ()) s

/-- A wait entry of a record's map (R417). -/
def waitEntry (cell node port tag what : Nat) : Nat := cell * 2 ^ 26 + node * 2 ^ 21 + port * 2 ^ 19 + tag * 2 ^ 7 + what * 2 ^ 4 + 1

/-- A number inserted into an ascending list that may hold it. -/
def insertNat (k : Nat) : List Nat → List Nat
  | [] => [k]
  | j :: t => if k ≤ j then k :: j :: t else j :: insertNat k t

/-- A list in ascending order. -/
def sortNat (l : List Nat) : List Nat := l.foldr insertNat []

/-- The wait entries of a region's frame entries: partial matches, or pending poison. -/
def frameWaits (r : Region) : List Nat := r.frames.map (fun f =>
  waitEntry (keyCell f.1) (keyNode f.1) (keyPort f.1) (keyTag f.1) (if f.2.token.isPending then 7 else 0))

/-- An act's run ends: CFG.RUN returns, with a record of what is left in the frame stores (R69, R420). -/
def endRun (rid : Nat) (r : Region) : M Unit := do
  let found := sortNat (frameWaits r)
  whenM (!found.isEmpty) (faultRecord r.vf 2 rid { code := 0 } (sat16 found.length * 2 ^ 16 + min found.length 44) found)
  modRegion rid (fun r => { r with state := .idle, frames := [], deciding := hdrThread r.header, seq := { r.seq.settled with index := 64 } })
  whenM (hdrThread r.header) (lay (.event .blockSchedulerDecision (.index rid)))

/-- RUN_COMPLETE (R55, R69, R70, R131, R420): the space is exhausted and the region quiescent. Its iterations retire and its done
invocations commit; CFG.RUN returns once the writes that the commits have sent are performed. DEDUCED, log 77. -/
def completeRun (rid : Nat) (r : Region) : M Unit := do
  whenM (!hdrThread r.header) (each r.run.started (fun id => retireIter rid id none))
  each r.run.drawn (returnTag rid 0)
  let s ← get'
  each (((hallAt s r.hall).invs.filter (fun p => p.2.rid == rid && p.2.live == 0)).map (·.1)) (endInvocation r.hall)
  modRegion rid (fun r => { r with run := { r.run with drawn := [], started := [] } })
  let s ← get'
  if sentWrites s rid then pure () else endRun rid r

/-- RUN_COMPLETE. -/
def execRunComplete (s : State) : Host.Outcome State Fault Refusal :=
  runEvent (match s.input with
    | .index rid => do
      let s ← get'
      withRegion rid (fun r =>
        if sourceRuns s r ∧ exhausted r ∧ quiescent s rid r then completeRun rid r else pure ())
    | _ => pure ()) s

/-- BLOCK_SCHEDULER_DECISION (R43 to R45): the chosen act's load begins. -/
def execBlockSchedulerDecision (s : State) : Host.Outcome State Fault Refusal :=
  runEvent (match s.input with
    | .index rid => withRegion rid (fun r =>
        if r.deciding ∧ r.saved.isNone then do
          match chooseAct r none with
          | none => modRegion rid (fun r => { r with deciding := false, preload := none })
          | some a => do
            modRegion rid (fun r => { r with deciding := false, preload := some a, ages := agesAfter r a })
            preloadAct rid a
        else pure ())
    | _ => pure ()) s

/-- QUIESCENCE_SCAN (R67). -/
def execQuiescenceScan (s : State) : Host.Outcome State Fault Refusal :=
  runEvent (match s.input with
    | .index rid => do
      let s ← get'
      withRegion rid (fun r =>
        if r.saved.isNone ∧ r.state ≠ .free ∧ hallRuns (hallAt s r.hall) then modRegion rid (fun r => { r with detector := scan s rid r })
        else pure ())
    | _ => pure ()) s

/-! ### The hang monitor (R417, R418) -/

/-- The pieces that the next event of a request touches. -/
def nextPieces (s : State) (q : Req) : List (Nat × Nat × Nat) :=
  match pieces s q .read q.got.length (match q.op with | .load => loadPart q | _ => q.len) with
  | .ok l => l
  | .error _ => []

/-- A request waits inside the program: on a full/empty bit, a pinned line or a place in the store hold, its own or an earlier lane's
(R261, R418). -/
def inwardWait (s : State) (q : Req) : Bool :=
  match q.phase with
  | .walking => false
  | .issued => laneAccess q.op && behindLane s q && behindPhase s q == .hold
  | .granule | .fenced => true
  | .pinned => pinnedAny s q (nextPieces s q)
  | .hold => (laneAccess q.op && behindLane s q) || roomOf s q (nextPieces s q) == .full

/-- A request that the memory system answers without waiting on another event of a program (R418). -/
def externalReq (s : State) (q : Req) : Bool :=
  match q.op with
  | .reply _ _ | .fence _ => false
  | .posted d _ => !(linesOf (q.loc.getD 0) d.length).any (fun l => pinnedByOther s l none)
  | _ => !inwardWait s q

/-- The region has an external memory request outstanding (R418). -/
def externalWait (s : State) (rid : Nat) : Bool :=
  s.reqs.any (fun q => q.rid == rid && externalReq s q)
  || (match kget s.regions rid with
      | none => false
      | some r => s.wings.any (fun w => w.2.galleries.any (fun g => g.2.vf == r.vf && g.2.reads.any (·.rid == rid))))

/-- What a request waits on internally, by R417's code. -/
def reqWhat (q : Req) : Option Nat :=
  match q.phase with
  | .granule => some 2
  | .pinned => some 3
  | _ => none

/-- What a matched instance waits on, by R417's code. -/
def instWhat (s : State) (r : Region) (i : Inst) : Option Nat :=
  if pendingLane i.lane then some 7
  else match liveNode r.active i.cell i.node with
  | none => none
  | some x =>
    if (issueDests s r x i 0).isSome then none
    else match x.instr with
    | .tagnew _ => some 4
    | .acc _ | .mxdrain _ => some 6
    | _ => none

/-- Tokens at the head of a channel into the region that the full overflow queue holds back. -/
def overflowWaits (s : State) (r : Region) : List Nat :=
  if (hallAt s r.hall).overflow.length < overflowSize then []
  else s.chans.filterMap (fun p => match p.2.place, p.2.queue with
    | .port c n k, t :: _ =>
      if p.2.hall = r.hall ∧ p.2.ctx = r.ctx ∧ r.cells.contains c ∧ (entryPool s r c).isNone then some (waitEntry c n k t.tag 5) else none
    | _, _ => none)

/-- What a packet at a plinth waits for: an accumulator row or the slot of its chunk, or places for its tokens (R52, R365, R366). -/
inductive JobWait where
  | nothing | row | places (l : List (Dest × Nat))

/-- The wait of a packet at a plinth. -/
def jobWait (s : State) (hall k : Nat) (j : PlinthJob) : JobWait :=
  match jobNode s j with
  | none => .nothing
  | some (_, f) =>
    match rowMove s hall k j f, portPkt f j.lane 0 with
    | .wait, some a =>
      let keeps := (plinthAt s hall k).cfg.any (·.keep)
      let ds := (if keeps then [] else [(f.da, j.lane.tag)]) ++ [(f.db, j.lane.tag)]
      if !roomAll s j.rid j.cell ds && (decide (a.hdr.rows ≤ j.row) || (j.row == 0 && !keeps)) then .places ds else .row
    | _, _ => .nothing

/-- A region's packets in work at its hall's plinths, with what each waits for. -/
def jobsOf (s : State) (rid : Nat) (r : Region) : List (PlinthJob × JobWait) :=
  ((hallAt s r.hall).plinths.zipIdx).flatMap (fun p => (p.1.jobs.filter (·.rid == rid)).map (fun j => (j, jobWait s r.hall p.2 j)))

/-- The region would start an iteration or admit a thread (R38, R44). -/
def idWaits (r : Region) : Bool :=
  if hdrThread r.header then !(kgetD r.threads r.seq.act []).isEmpty && r.run.admitted < 4096 else r.run.counting && r.run.left != 0

/-- Every wait entry of a region. -/
def waitsOf (s : State) (rid : Nat) (r : Region) : List Nat :=
  frameWaits r
  ++ (s.names.filter (fun q => q.rid == rid && q.cell < 64)).map (fun q => waitEntry q.cell q.node 0 q.lane.tag 1)
  ++ (s.reqs.filter (·.rid == rid)).filterMap (fun q => (reqWhat q).map (waitEntry q.cell q.node 0 q.lane.tag))
  ++ r.ready.filterMap (fun i => (instWhat s r i).map (waitEntry i.cell i.node 0 i.lane.tag))
  ++ (if idWaits r && (freeTags r 0).isEmpty then [waitEntry r.origin 0 0 0 4] else [])
  ++ overflowWaits s r
  ++ (jobsOf s rid r).filterMap (fun p => match p.2 with | .row => some (waitEntry p.1.cell p.1.node 0 p.1.lane.tag 6) | _ => none)

/-- The parts of a channel's number. -/
def chanCell (k : Nat) : Nat := k / 64 / 8 / 256 % 64
def chanOut (k : Nat) : Nat := k / 64 / 8 % 256
def chanDest (k : Nat) : Nat := k / 64 % 8

/-- The out-port of a destination byte. -/
def outOf : Dest → Option Nat
  | .out k => some k.val
  | .predOut k => some (16 + k.val)
  | _ => none

/-- A producer that has its operands: its cell, and the destinations and tags of the tokens that it would send. -/
abbrev Producer := Nat × List (Dest × Nat)

/-- The emission that a running sequence comes to (R284). -/
def emission (r : Region) (q : SeqRun) : Option Producer :=
  match (kget r.active.seqs (q.cell * 512 + q.index)).bind seqFields with
  | some f => match f.qd with
    | .da | .db => if q.retry then none else some (q.cell, (q.lanes.filter (·.live)).map (fun l => (emitDest q f, l.lane.tag)))
    | _ => none
  | none => none

/-- The producers of a region that a full buffer may hold: matched and retried instances, packets at plinths, served requests,
sequences, and the words of an MCAST (R52, R284, R330, R366). -/
def producers (s : State) (rid : Nat) (r : Region) : List Producer :=
  let dests := fun (i : Inst) (n : Nat) => ((liveNode r.active i.cell i.node).bind (fun x => issueDests s r x i n)).getD []
  (r.ready.filter (fun i => !pendingLane i.lane)).map (fun i => (i.cell, dests i 0))
  ++ r.again.map (fun a => (a.cell, a.lanes.zipIdx.flatMap (fun l => dests { cell := a.cell, node := a.node, lane := l.1 } l.2)))
  ++ (jobsOf s rid r).filterMap (fun p => match p.2 with | .places l => some (p.1.cell, l) | _ => none)
  ++ (s.reqs.filter (·.rid == rid)).filterMap (fun q => match q.op with
    | .reply a b => some (q.cell, (match a with | some t => [(q.da, t.tag)] | none => []) ++ (match b with | some t => [(q.db, t.tag)] | none => []))
    | _ => none)
  ++ r.fires.filterMap (emission r)
  ++ s.pkg.engines.filterMap (fun e => match e.op with
    | .mcast out tag => if e.rid = some rid ∧ e.vf = r.vf ∧ !e.done ∧ 4 * (e.sent + 1) ≤ e.data.length then
        some (e.cell, [(.out (Fin.ofNat 16 out), (tag + e.sent) % 4096)]) else none
    | _ => none)

/-- The out-ports at which a producer finds no place: cell, out-port and tag. -/
def heldOuts (s : State) (rid : Nat) (p : Producer) : List (Nat × Nat × Nat) :=
  p.2.filterMap (fun d => (outOf d.1).bind (fun o => if roomAll s rid p.1 (p.2.filter (·.1 == d.1)) then none else some (p.1, o, d.2)))

/-- The index outputs at which the iteration counters find no place (R60). -/
def heldCounters (s : State) (rid : Nat) (r : Region) : List (Nat × Nat × Nat) :=
  match freeTags r 0 with
  | [] => []
  | tag :: _ =>
    if idWaits r then ((indexOuts r).filter (fun p => !(circuitEdges s rid r r.origin p.1 tag).all (edgeFree s 1))).map (fun p => (r.origin, p.1, tag))
    else []

/-- A region's out-ports at which a producer is held (R52, R417). -/
def heldAt (s : State) (rid : Nat) (r : Region) : List (Nat × Nat × Nat) := (producers s rid r).flatMap (heldOuts s rid) ++ heldCounters s rid r

/-- The destination of an out-port that its channel entry names: one outside the region that accepts no token, which counts as full, else
the one with the fullest buffer (R417, R471). -/
def entryChan (s : State) (rid : Nat) (r : Region) (mine : KMap Chan) (held : List (Nat × Nat × Nat)) (c o : Nat) : Option (Nat × Chan) :=
  let tags := (held.filter (fun p => p.1 == c && p.2.1 == o)).map (·.2.2)
  let shut := ((tags.flatMap (circuitEdges s rid r c o)).map (fun e => (e.key, edgeChan s e))).filter (fun p => !accepts s p.2)
  let here := mine.filter (fun p => chanCell p.1 == c && chanOut p.1 == o)
  let most := here.foldl (fun n p => max n p.2.queue.length) 0
  match shut with
  | p :: _ => some p
  | [] => here.find? (fun p => p.2.queue.length == most)

/-- The channel entries of a region: one for each out-port whose tokens wait in a buffer, or whose producer nothing accepts a token of. -/
def chanEntries (s : State) (rid : Nat) (r : Region) : List Nat :=
  let held := heldAt s rid r
  let mine := s.chans.filter (fun p => p.2.src == rid && decide (chanOut p.1 < 38) && !p.2.queue.isEmpty)
  let keys := (mine.map (fun p => (chanCell p.1, chanOut p.1)) ++ held.map (fun p => (p.1, p.2.1))).eraseDups
  keys.filterMap (fun (c, o) => (entryChan s rid r mine held c o).map (fun p =>
    c * 2 ^ 26 + o * 2 ^ 20 + chanDest p.1 * 2 ^ 17 + min p.2.queue.length 16 * 2 ^ 12 + (p.2.depth - 1) % 16 * 2 ^ 8
      + (if held.any (fun q => q.1 == c && q.2.1 == o) then 2 ^ 7 else 0) + (if p.2.outside then 2 ^ 6 else 0)))

/-- The map of a record: wait entries, then channel entries. -/
def mapEntries (s : State) (rid : Nat) (r : Region) : List Nat := sortNat (waitsOf s rid r) ++ sortNat (chanEntries s rid r)

/-- A record of the hang monitor. DEDUCED, log 90. -/
def hangRecord (kind rid code : Nat) (r : Region) : M Unit := do
  let s ← get'
  let found := mapEntries s rid r
  faultRecord r.vf kind rid { code := code } (sat16 found.length * 2 ^ 16 + min found.length 44) found

/-- The two limits of TRAPEN, in nanoseconds; 0 disables (R396). -/
def silLim (r : Region) : Nat := 1000 * bits r.sys.trapEn.toNat 32 16
def memLim (r : Region) : Nat := 1000 * bits r.sys.trapEn.toNat 48 16

/-- A limit has been reached. -/
def reached (now since limit : Nat) : Bool := limit != 0 && decide (since + limit ≤ now)

/-- SILENCE_EXPIRY (R417). -/
def execSilenceExpiry (s : State) : Host.Outcome State Fault Refusal :=
  runEvent (match s.input with
    | .index rid => do
      let s ← get'
      withRegion rid (fun r =>
        if sourceRuns s r ∧ ¬externalWait s rid ∧ reached s.timeNs r.silence (silLim r) then do
          hangRecord 2 rid 0x31 r
          regionFault rid { code := 0x31 } 0
        else pure ())
    | _ => pure ()) s

/-- MEMORY_WAIT_EXPIRY (R417): the region keeps waiting. -/
def execMemoryWaitExpiry (s : State) : Host.Outcome State Fault Refusal :=
  runEvent (match s.input with
    | .index rid => do
      let s ← get'
      withRegion rid (fun r =>
        if sourceRuns s r ∧ externalWait s rid ∧ reached s.timeNs r.silence (memLim r) then do
          hangRecord 3 rid 0 r
          stir rid
        else pure ())
    | _ => pure ()) s

/-- A command that R419 watches: WAIT, EWAIT, SPLIT, REPAIR.WAIT, HCALL, CFG.LOAD and RING.OPEN (R452). -/
def watched (r : Region) : Bool :=
  match commandAt r with
  | some (c, _) => match decode c with
    | .ok d => match d.instr with
      | .wait _ | .ewait _ | .split _ | .repairWait _ | .hcall _ | .cfgLoad _ | .ringOpen _ => true
      | _ => false
    | .error _ => false
  | none => false

/-- SEQUENCER_WAIT_EXPIRY (R419, R457): of a region's sequencer, or of the physical function's FRALLOC. -/
def execSequencerWaitExpiry (s : State) : Host.Outcome State Fault Refusal :=
  runEvent (match s.input with
    | .index rid => do
      let s ← get'
      withRegion rid (fun r =>
        if r.saved.isNone ∧ r.seq.waiting ∧ watched r ∧ hallRuns (hallAt s r.hall) ∧ reached s.timeNs r.seq.waitStart (memLim r) then do
          faultRecord r.vf 8 rid { code := 0, seq := true, act := r.seq.act, cmd := r.seq.index } 0
          modRegion rid (fun r => { r with seq := { r.seq with waitStart := s.timeNs } })
        else pure ())
    | .absent => do
      let s ← get'
      match s.pkg.frallocs with
      | [] => pure ()
      | (w, since) :: rest =>
        if reached s.timeNs since (1000 * 0x3E8) then do
          faultRecord (Config.serviceVf s.service.service % 1024) 8 serviceRid { code := 0 } 0
          modPkg (fun p => { p with frallocs := (w, s.timeNs) :: rest })
        else pure ()
    | _ => pure ()) s

/-! ### Snapshots and slices (R202 to R209, R455) -/

/-- The images of a function that a slice's end left in place of regions of a wing, and that await their return (R202, R210). -/
def parkedIn (s : State) (wing vf : Nat) : List SaveImage := (vfAt s vf).saves.filter (fun x => x.parked && !x.releasing && x.region.wing == wing)

/-- A function has regions in a wing, resident or parked. -/
def hasWork (s : State) (wing vf : Nat) : Bool :=
  s.regions.any (fun p => p.2.wing == wing && p.2.vf == vf && p.2.state != .free) || !(parkedIn s wing vf).isEmpty

/-- The function that a wing serves next: in ascending number from the one after the last served. -/
def nextServed (s : State) (wing : Nat) (w : Wing) : Option Nat :=
  let vfs := ((s.vfs.filter (fun p => p.2.wing == some wing)).map (·.1)).filter (hasWork s wing)
  match w.inService with
  | none => vfs.head?
  | some v => match vfs.find? (fun x => decide (v < x)) with
    | some x => some x
    | none => vfs.head?

/-- A parked region comes back once its placement is free for its function (R202, R210). -/
def unpark (x : SaveImage) : M Unit := do
  let s ← get'
  let r := x.region
  whenM (placementFree s r.vf r.hall r.ctx r.shape r.origin && reservationFits s r.vf r.hall r.ctx r.shape r.origin r.fres) (do
    clearPlace r.vf r.hall r.ctx r.shape r.origin
    restoreImage x false)

/-- The incoming function's saved regions are restored once no region of the outgoing ones is still to save (R202). -/
def bringIn (wing : Nat) : M Unit := do
  let s ← get'
  match (kget s.wings wing).bind (·.inService) with
  | none => pure ()
  | some v =>
    if s.regions.any (fun p => p.2.wing == wing && p.2.vf != v && p.2.snapshot.isSome) then pure ()
    else do
      each (s.regions.filter (fun p => p.2.wing == wing && p.2.vf == v && p.2.autoSaved)) (fun p =>
        match p.2.saved.bind (imageNo s v) with
        | some x => resumeRegion p.1 x
        | none => pure ())
      each (parkedIn s wing v) unpark

/-- A region that a slice's end pre-empts. -/
def preempted (wing next : Nat) (r : Region) : Bool :=
  r.wing == wing && r.vf != next && r.saved.isNone && r.state != .free && r.snapshot.isNone

/-- A slice ends and the next function's begins. DESIGN CHOICE, log 88. -/
def changeSlice (wing : Nat) : M Unit := do
  let s ← get'
  match kget s.wings wing with
  | none => pure ()
  | some w =>
    let start := fun (v : Option Nat) => modWing wing (fun w => { w with
      inService := v, sliceStart := s.timeNs, sliceCycles := (hallAt s (wingHome w)).cycles })
    match nextServed s wing w with
    | none => start none
    | some v => do
      start (some v)
      each (s.regions.filter (fun p => preempted wing v p.2)) (fun p => startSnapshot p.1 none)
      bringIn wing

/-- A slice's length (R203): smaller values are taken as 65,536. -/
def sliceLength (w : Wing) : Nat := max 65536 w.sliceLen

/-- The cycles of a wing's home hall since its slice began (R202). -/
def sliceCount (s : State) (w : Wing) : Nat := ((hallAt s (wingHome w)).cycles - w.sliceCycles) / 1000

/-- SLICE_END (R202): the home hall has counted LEN cycles. -/
def execSliceEnd (s : State) : Host.Outcome State Fault Refusal :=
  runEvent (match s.input with
    | .index wing => do
      let s ← get'
      match kget s.wings wing with
      | none => pure ()
      | some w => whenM (hallRuns (hallAt s (wingHome w)) && decide (sliceLength w ≤ sliceCount s w)) (changeSlice wing)
    | _ => pure ()) s

/-- SLICE_WALL_CAP (R202, R203): at four times the nominal wall time, LEN / 2.7 GHz. The cycles that remain go to FORF. -/
def execSliceWallCap (s : State) : Host.Outcome State Fault Refusal :=
  runEvent (match s.input with
    | .index wing => do
      let s ← get'
      match kget s.wings wing with
      | none => pure ()
      | some w => whenM (decide (40 * sliceLength w ≤ 27 * (s.timeNs - w.sliceStart))) (do
          modWing wing (fun w => { w with forf := min (2 ^ 32 - 1) (w.forf + (sliceLength w - sliceCount s w)) })
          changeSlice wing)
    | _ => pure ()) s

/-- The source cell of a channel within a region, when a cell's own output feeds it: an out-port from 0 to 31 (R249). -/
def feeder (rid : Nat) (p : Nat × Chan) : Option Nat :=
  if p.2.src = rid ∧ chanOut p.1 < 32 then some (chanCell p.1) else none

/-- The channels into a cell from within its region. -/
def inputsTo (s : State) (rid : Nat) (r : Region) (cell : Nat) : KMap Chan :=
  s.chans.filter (fun p => p.2.src == rid && p.2.hall == r.hall && p.2.ctx == r.ctx && decide (chanOut p.1 < 64)
    && (match p.2.place with | .stream _ => false | x => placeCell x == cell))

/-- The cells of the region that feed a cell and have not saved. DEDUCED, log 89. -/
def feedersPending (s : State) (rid : Nat) (r : Region) (pending : List Nat) (cell : Nat) : List Nat :=
  ((inputsTo s rid r cell).filterMap (feeder rid)).filter (fun c => c != cell && pending.contains c)

/-- Every marker has arrived at a cell: what its saved feeders and its sources sent before theirs is taken in. In a cycle
some cell saves first, and what comes to it later is channel state (R204). -/
def markersIn (s : State) (rid : Nat) (r : Region) (pending : List Nat) (cell : Nat) : Bool :=
  let cyclic := pending.all (fun c => !(feedersPending s rid r pending c).isEmpty)
  ((feedersPending s rid r pending cell).isEmpty || cyclic)
  && (inputsTo s rid r cell).all (fun p =>
    match feeder rid p with
    | some c => c == cell || pending.contains c || (p.2.queue.isEmpty && p.2.flight.isEmpty)
    | none => p.2.queue.isEmpty && p.2.flight.isEmpty)

/-- Every memory request of a cell is answered or waits (R204). -/
def requestsStill (s : State) (rid cell : Nat) : Bool :=
  s.reqs.all (fun q => q.rid != rid || q.cell != cell
    || (match q.op with | .posted _ _ | .fence _ => true | _ => (q.phase != .walking && q.phase != .issued) || inwardWait s q))

/-- MARKER_ARRIVAL (R204, R205, R207): a cell saves; when every cell has, the region is Sealed. -/
def execMarkerArrival (s : State) : Host.Outcome State Fault Refusal :=
  runEvent (match s.input with
    | .pair rid cell => do
      let s ← get'
      withRegion rid (fun r =>
        match r.snapshot with
        | none => pure ()
        | some x =>
          if r.state = .snapshotting ∧ x.pending.contains cell ∧ hallRuns (hallAt s r.hall) ∧ s.issue.all (fun i => i.rid != rid || i.cell != cell)
              ∧ requestsStill s rid cell ∧ markersIn s rid r x.pending cell then
            let rest := x.pending.filter (· != cell)
            if rest.isEmpty then do
              stopRegion rid 1 x.slot .sealed
              modRegion rid (fun r => { r with autoSaved := x.slot.isNone })
              bringIn r.wing
            else modRegion rid (fun r => { r with snapshot := some { x with pending := rest } })
          else pure ())
    | _ => pure ()) s

/-- PTMO in nanoseconds; 0 is taken as 1 µs (R455). -/
def ptmoNs (s : State) : Nat := 1000 * max 1 s.pkg.ptmo

/-- SNAPSHOT_TIMEOUT (R455): the snapshot becomes a freeze into the same slot. -/
def execSnapshotTimeout (s : State) : Host.Outcome State Fault Refusal :=
  runEvent (match s.input with
    | .index rid => do
      let s ← get'
      withRegion rid (fun r =>
        match r.snapshot with
        | none => pure ()
        | some x =>
          if r.state = .snapshotting ∧ hallRuns (hallAt s r.hall) ∧ reached s.timeNs x.start (ptmoNs s) then do
            stopRegion rid 2 x.slot .frozen
            modRegion rid (fun r => { r with autoSaved := x.slot.isNone })
            errorRecord 12 0 r.hall 0 0 2 0 0 r.vf r.wing 0
            bringIn r.wing
          else pure ())
    | _ => pure ()) s

/-- SWAP_WAIT_EXPIRY (R209): a tier-1 pre-emption that waits for a CTX.SWAP of its region starts, when the swap has finished or after
20 µs. -/
def execSwapWaitExpiry (s : State) : Host.Outcome State Fault Refusal :=
  runEvent (match s.input with
    | .index rid => do
      let s ← get'
      withRegion rid (fun r => match r.snapshot with
        | some x => whenM (r.state != .snapshotting && (r.seq.swap.isNone || decide (x.start + swapWait ≤ s.timeNs))) (beginSnapshot rid)
        | none => pure ())
    | _ => pure ()) s

end Sys2Proof.Machine
end

