-- ==== Sys2Proof/Machine/EventsMemory.lean ====
section
/-! DEFINITION. Steps of the memory system: answers to requests, errors in stored data and self-tests, walks, ways that change use,
snoops and streams (R103 to R124, R130, R382, R437 to R446, R463). -/
namespace Sys2Proof.Machine

/-! ### Errors in stored data (R434 to R440) -/

/-- The unit that holds an address: kind, hall or stack, index, way and row (R436, R440). -/
structure ErrPlace where
  unit : Nat
  hall : Nat
  index : Nat
  way : Nat
  row : Nat

/-- The place of a line's copy in a hall's vault; the row is its place among the lines of the way (DESIGN CHOICE, log 24). -/
def copyPlace (s : State) (hall a : Nat) (c : CacheLine) : ErrPlace :=
  { unit := 3, hall := hall, index := homeOf a, way := c.way, row := (wayLines (hallAt s hall) (homeOf a) c.way).idxOf (cacheKey a) }

/-- The hall whose vault gives a read of a hall its bytes: its own copy's, else the one that holds the line Modified (R111). -/
def copyFor (s : State) (hall a : Nat) : Option (Nat × CacheLine) :=
  match kget (hallAt s hall).cache (cacheKey a) with
  | some c => some (hall, c)
  | none => (List.range 64).findSome? (fun h => match kget (hallAt s h).cache (cacheKey a) with
    | some c => if c.mesi = .modified then some (h, c) else none
    | none => none)

/-- The place that gives a hall's read of an address its bytes, where the package keeps check bits over it: a scratch way, a vault copy, or
the stack, channel and row of an HBM line (R108, R437). -/
def errPlace (s : State) (hall a : Nat) : Option ErrPlace :=
  if isScratch a then
    let w := scratchWay s a
    some { unit := 3, hall := (a - 2 ^ 52) / 2 ^ 24, index := w.1, way := w.2, row := (a - 2 ^ 52) % 65536 / 64 }
  else match copyFor s hall a with
  | some (h, c) => some (copyPlace s h a c)
  | none => if rangeMt a = some 0 then some { unit := 8, hall := hbmStack a, index := hbmChannel a, way := 0, row := Config.hbmRow (a / 64) % 2 ^ 30 } else none

/-- An error starts a targeted self-test of the row or unit that holds it (R439). -/
def startTest (cls : Nat) (p : ErrPlace) (addr : Nat) (vf : Option Nat) : M Unit := modPkg (fun q =>
  { q with tests := q.tests ++ [{ cls := cls, unit := p.unit, hall := p.hall, index := p.index, way := p.way, row := p.row, addr := addr, vf := vf }] })

/-- The class of an error at a place: SRAM or HBM, corrected or not (R436). -/
def errClass (p : ErrPlace) (corrected : Bool) : Nat := (if p.unit = 8 then 3 else 1) + (if corrected then 0 else 1)

/-- A unit's registers that hold which tests two tests share. -/
def SelfTest.place (t : SelfTest) : Nat := ((((t.unit * 64 + t.hall) * 64 + t.index) * 16 + t.way) * 2 ^ 30) + t.row

/-- The errors of a place within the last 2^30 ns (R439). -/
def recentErrors (s : State) (t : SelfTest) : List Nat := (kgetD s.pkg.errCounts t.place []).filter (fun x => s.timeNs < x + 2 ^ 30)

/-- A retired-unit descriptor (R247). -/
def retiredWord (kind hall index way : Nat) : Nat := kind * 2 ^ 56 + hall % 64 * 2 ^ 50 + index % 64 * 2 ^ 44 + way % 16 * 2 ^ 40

/-- A unit is retired (R443): the descriptor is added, and a CLASS 11 record is written. -/
def retireUnit (kind hall index way : Nat) : M Unit := do
  let s ← get'
  if s.pkg.retired.contains (retiredWord kind hall index way) then pure ()
  else do
    modPkg (fun p => { p with retired := p.retired ++ [retiredWord kind hall index way] })
    errorRecord 11 kind hall index way 1 0 0 0 0 0

/-- Every region that meets a condition faults with UNITRET (R443). -/
def faultUsers (p : Nat → Region → Bool) : M Unit := do
  let s ← get'
  each (s.regions.filter (fun q => q.2.state != .free && p q.1 q.2)) (fun q => regionFault q.1 { code := 0x4C } 0)

/-- A cell is retired. -/
def retireCell (hall cell : Nat) : M Unit := do
  faultUsers (fun _ r => r.hall == hall && r.cells.contains cell)
  retireUnit 1 hall cell 0

/-- A plinth is retired. -/
def retirePlinth (hall k : Nat) : M Unit := do
  let s ← get'
  let p := plinthAt s hall k
  faultUsers (fun rid _ => p.holder == some rid || p.slotHolder.any (·.2 == rid))
  retireUnit 2 hall k 0

/-- A conservator is retired: its repairs are cancelled, and those still to come go to the next (R440, R447). -/
def retireConservator (die : Nat) : M Unit := do
  let s ← get'
  match s.conservators[die]? with
  | none => pure ()
  | some c => do
    each (c.repairs.filter (!·.ended)) (fun x => cancelRepair die x.number)
    let s ← get'
    eff (.conservators (s.conservators.modify die (fun c => { c with working := false })))
    retireUnit 7 0 die 0

/-- Which 64 KiB of old scratch space each of the new holds, where a way's contents have moved to another. DEDUCED, log 57. -/
def scratchMap (old new : Hall) (moved : Nat × Nat → Nat × Nat) : List (Option Nat) :=
  (waysOf new 1).map (fun w =>
    let i := (waysOf old 1).idxOf (moved w)
    if i < (waysOf old 1).length then some i else none)

/-- A tile's way-use register with one field set. -/
def setWay (h : Hall) (tile way use : Nat) : Hall :=
  { h with vtuse := h.vtuse.modify tile (fun v => v - bits v (4 * way) 4 * 2 ^ (4 * way) + use * 2 ^ (4 * way)) }

/-- A hall's way-use registers change, and with them the places of the scratch space's parts (R102). -/
def changeWays (hall : Nat) (h' : Hall) (moved : Nat × Nat → Nat × Nat) : M Unit := do
  let s ← get'
  let l := scratchMap (hallAt s hall) h' moved
  whenM (l != (List.range (waysOf (hallAt s hall) 1).length).map some) (eff (.remap hall l))
  eff (.hall hall h')

/-- A line in quarantine goes to its I/O die's store; of a full store the oldest line is dropped, and counted in word 5 of a CLASS 6
record (R446). -/
def storeQuarantined (line : Nat) : M Unit := do
  let s ← get'
  let die := portOf (64 * line) / 6
  let l := ((s.pkg.annexStores[die]?).getD []) ++ [line]
  let lost := if 4096 < l.length then l.head? else none
  modPkg (fun q => { q with annexStores := q.annexStores.set die (if lost.isSome then l.drop 1 else l), annexDropped := if lost.isSome then q.annexDropped + 1 else q.annexDropped })
  match lost with
  | some x => do
    freeLine (64 * x)
    errorRecord 6 5 0 (portOf (64 * x)) 0 2 0 (64 * x) 0 0 1
  | none => pure ()

/-- The lines of a way leave a hall's cache: dirty ones are written back, quarantined ones go to their I/O die's store (R110, R446).
DESIGN CHOICE, log 58. -/
def flushWay (hall tile way : Nat) : M Unit := do
  let s ← get'
  let here := fun (p : Nat × CacheLine) => Config.homeTile p.1 % 12 == tile && p.2.way == way
  modHall hall (fun h => { h with cache := h.cache.filter (fun p => !here p) })
  each ((hallAt s hall).cache.filter (fun p => here p && p.2.quarantined)) (fun p => storeQuarantined p.1)

/-- A way that is retired has no walk to end and serves no range (R120, R441). -/
def leaveWay (tile way : Nat) (h : Hall) : Hall :=
  { h with walking := h.walking.filter (fun w => !(w.tile == tile && w.way == way)), reserved := kdel h.reserved (16 * tile + way) }

/-- A region uses a way of a hall: a buffer, a fold or a segment of its lies there (R441). -/
def usesWay (s : State) (hall tile way : Nat) (r : Region) : Bool :=
  let h := hallAt s hall
  let use := wayUse h tile way
  let i := (scratchIndex h tile way).getD (2 ^ 20)
  let j := (waysOf h use).idxOf (tile, way)
  (use == 1 && (vfAt s r.vf).handles.any (fun q => q.1 / 256 == r.ctx && (match q.2.visible with
    | some b => b.scratch == some hall && decide (b.base < 65536 * (i + 1)) && decide (65536 * i < b.base + b.len)
    | none => false)))
  || (use == r.ctx + 4 && r.hall == hall && h.folds.any (fun p => p.1 / 4096 == r.ctx && decide (p.2.lattice.base < 65536 * (j + 1)) && decide (65536 * j < p.2.lattice.endByte)))
  || (use == 2 && (kget s.wings r.wing).any (fun w => w.galleries.any (fun g => g.2.owner == ridOf r.hall r.ctx r.origin && g.2.links.any (fun l => l.hall == hall && l.tile == tile))))

/-- A vault way is retired (R441): what it held goes to the highest-numbered cache way of its tile, which takes its code. Where the tile
has none, the regions that use the way fault. -/
def retireWay (hall tile way : Nat) : M Unit := do
  let s ← get'
  let h := hallAt s hall
  let use := wayUse h tile way
  let other := (cacheWays h tile).find? (fun w => w != way && !isWalking h tile w)
  (match use, other with
   | 0, _ => do
     flushWay hall tile way
     let s ← get'
     changeWays hall (setWay (leaveWay tile way (hallAt s hall)) tile way 13) id
   | _, some c => do
     flushWay hall tile c
     let s ← get'
     let h := leaveWay tile way (leaveWay tile c (hallAt s hall))
     changeWays hall (setWay (setWay h tile c use) tile way 13) (fun w => if w = (tile, c) then (tile, way) else w)
   | _, none => do
     faultUsers (fun _ r => usesWay s hall tile way r)
     let s ← get'
     changeWays hall (setWay (leaveWay tile way (hallAt s hall)) tile way 13) id)
  balanceHall hall
  retireUnit 3 hall tile way

/-- What a lasting error brings (R440). -/
def lastingError (t : SelfTest) : M Unit := do
  let s ← get'
  match t.unit with
  | 3 =>
    if (hallAt s t.hall).spare.any (·.1 == t.index) then retireWay t.hall t.index t.way
    else modHall t.hall (fun h => { h with spare := h.spare ++ [(t.index, t.way)] })
  | 8 => do
    let k := t.hall * 64 + t.index
    let used := kgetD s.pkg.hbmSpares k 0
    if used < 8 then modPkg (fun p => { p with hbmSpares := kset p.hbmSpares k (used + 1) })
    else do
      retireUnit 4 t.hall t.index 0
      modPkg (fun p => { p with frames := { p.frames with marked := addNat p.frames.marked (t.addr / 0x200000) } })
  | 2 => retirePlinth t.hall t.index
  | 7 => retireConservator t.index
  | _ => retireCell t.hall t.index

/-- One test's end: its error record, and the record of KIND 9 of the function that the error affected (R434, R436). -/
def reportTest (t : SelfTest) (lasting : Bool) : M Unit := do
  let n ← fresh
  let s ← get'
  let result := if lasting then 1 else 0
  let vf := t.vf.getD 0
  let wing := match t.vf with | some v => (vfAt s v).wing.getD 0 | none => (frameOwner s t.addr).getD 0
  let detail := Config.freeReading n % 2 ^ 64
  let w0 := (((errWords s t.cls t.unit t.hall t.index t.way result t.row t.addr vf wing detail)[0]?).getD 0).toNat
  errorRecord t.cls t.unit t.hall t.index t.way result t.row t.addr vf wing detail
  match t.vf with
  | some v => faultRecord v 9 serviceRid { code := 0, word8 := t.addr } w0
  | none => pure ()

/-- SELF_TEST_END (R439, R440): the errors that joined the test have its result. -/
def execSelfTestEnd (s : State) : Host.Outcome State Fault Refusal :=
  runEvent (match s.input with
    | .flagged k failed => do
      let s ← get'
      match s.pkg.tests[k]? with
      | none => pure ()
      | some t => do
        let mine := s.pkg.tests.filter (fun x => x.place == t.place)
        let passes := recentErrors s t
        let lasting := failed || decide (3 ≤ passes.length)
        modPkg (fun p => { p with
          tests := p.tests.filter (fun x => x.place != t.place)
          errCounts := if lasting then kdel p.errCounts t.place else kset p.errCounts t.place (passes ++ [s.timeNs]) })
        whenM lasting (lastingError t)
        each mine (fun x => reportTest x lasting)
    | _ => pure ()) s

/-! ### Uncorrected errors in other structures (R438) -/

/-- A vitrine slot is reloaded from its recorded parameters; that waits for a line that is pinned or under test (R438). -/
def reloadSlot (hall k slot : Nat) : M Unit := do
  let s ← get'
  let p := plinthAt s hall k
  match kget p.slots slot, (kget p.slotHolder slot).bind (kget s.regions) with
  | some v, some r =>
    match v.ref with
    | none => pure ()
    | some ref => do
      let b := (handleAt s r.vf r.ctx (refHandle ref)).visible
      match ← attempt (do
        let head ← readBuf hall r.vf b (refOff ref) 8
        readBuf hall r.vf b (refOff ref) (pktHdr head).length) with
      | .ok bs => modPlinth hall k (fun p => { p with slots := kset p.slots slot { v with packet := bs } })
      | .error t => if t.code = stallCode then stall else modPlinth hall k (fun p => { p with slots := kdel p.slots slot })
  | _, _ => pure ()

/-- An accumulator row is marked, and its invocation discarded. ACC's row marks the tag that holds it. -/
def spoilRow (hall k row : Nat) : M Unit := do
  let s ← get'
  let p := plinthAt s hall k
  match kget p.rows row, p.holder with
  | some x, some rid => do
    modPlinth hall k (fun p => { p with rows := kset p.rows row { x with poison := some 0x40 } })
    match (kget s.regions rid).bind (fun r => r.acc.find? (fun q => q.2.rows.contains row)) with
    | some q => do
      modRegion rid (fun r => { r with acc := kset r.acc q.1 { q.2 with poison := some 0x40 } })
      discardTag rid (q.1 % 4096) 0x40
    | none => discardTag rid x.completed.2.2 0x40
  | _, _ => pure ()

/-- The function whose handle leads to a scratch byte of a hall. -/
def scratchUser (s : State) (a : Nat) : Option Nat :=
  (s.vfs.find? (fun p => p.2.handles.any (fun q => q.2.visible.any (fun b => b.scratch.any (fun h =>
    scratchAddr h b.base ≤ a && a < scratchAddr h (b.base + b.len)))))).map (·.1)

/-- A structure that the package keeps check bits over: where it is, the address of a record, and the function that an error of it affects
(R434, R437). -/
structure Guarded where
  place : ErrPlace
  addr : Nat
  vf : Option Nat

/-- The structures of R437 and R438, by kind: 0 element or sequence memory (hall, cell, context), 1 vitrine slot and 2 accumulator row
(hall, plinth, number), 3 store-hold line (hall, invocation, line), 4 fold-slot header and 5 fold-slot tile (hall, fold, slot), 6 gallery
entry or limit (wing, gallery, link), 7 full/empty bit (granule), 8 the bytes that a read meets (address, hall that reads, its function), 9
the registrar's buffer, others a frame entry, token buffer, overflow entry, sequencer register or circuit store (region). None where there is no such
structure. -/
def guardedAt (s : State) (kind a b c : Nat) : Option Guarded :=
  let owner := fun (rid : Option Nat) => (rid.bind (kget s.regions)).map (·.vf)
  let way := fun (h t w : Nat) (vf : Option Nat) => some ({ place := { unit := 3, hall := h, index := t, way := w, row := 0 }, addr := 0, vf := vf } : Guarded)
  let unit := fun (k h i n : Nat) (vf : Option Nat) => some ({ place := { unit := k, hall := h, index := i, way := 0, row := n }, addr := 0, vf := vf } : Guarded)
  if kind ≤ 5 && 64 ≤ a then none
  else match kind with
  | 0 => if b < 64 then unit 1 a b 0 (owner (coverRid s a c b)) else none
  | 1 => if b < 3 ∧ c < 16 then unit 2 a b c (owner (kget (plinthAt s a b).slotHolder c)) else none
  | 2 => if b < 3 ∧ c < 128 then unit 2 a b c (owner (plinthAt s a b).holder) else none
  | 3 => way a (c % 8) 15 (owner ((kget (hallAt s a).invs b).map (·.rid)))
  | 4 | 5 => match (waysOf (hallAt s a) (4 + b / 4096))[0]? with
    | some w => way a w.1 w.2 ((kget (hallAt s a).folds b).map (·.vf))
    | none => none
  | 6 => match galleryAt s a b with
    | some g => (g.links[c]?).bind (fun l => way l.hall l.tile 0 (some g.vf))
    | none => none
  | 7 => (errPlace s 0 (16 * a)).bind (fun p => if isScratch (16 * a) && p.index < 12 then some { place := p, addr := 16 * a, vf := scratchUser s (16 * a) } else none)
  | 8 => (errPlace s b a).bind (fun p => if p.unit = 3 ∧ 12 ≤ p.index then none else some { place := p, addr := a, vf := if c < 1024 then some c else none })
  | 9 => unit 0 0 0 0 none
  | _ => match kget s.regions a with
    | some r => unit 1 r.hall r.origin 0 (some r.vf)
    | none => none

/-- A corrected error: its test starts, and nothing else is seen of it (R437, R439). -/
def correctedAt (g : Guarded) : M Unit := startTest (errClass g.place true) g.place g.addr none

/-- An uncorrected error of the bytes that a hall's read meets: a clean vault copy is dropped and fetched again, which counts as corrected;
else the line keeps a poison marker (R438). -/
def readError (g : Guarded) (hall : Nat) : M Unit := do
  let s ← get'
  match if isScratch g.addr then none else copyFor s hall g.addr with
  | some (h, c) =>
    if c.mesi ≠ .modified then do
      modHall h (fun x => { x with cache := kdel x.cache (cacheKey g.addr) })
      correctedAt g
    else do
      eff (.mark (lineOf g.addr) true)
      startTest (errClass g.place false) g.place g.addr g.vf
  | none => do
    eff (.mark (lineOf g.addr) true)
    startTest (errClass g.place false) g.place g.addr g.vf

/-- What an uncorrected error of a structure does, by kind (R438). -/
def structureError (kind a b c : Nat) : M Unit := do
  let s ← get'
  match kind with
  | 0 | 9 => pure ()
  | 1 => reloadSlot a b c
  | 2 => spoilRow a b c
  | 3 => whenM ((hallAt s a).hold.any (·.inv == b)) (markDiscard a b 0x40)
  | 4 =>
    match kget (hallAt s a).folds b with
    | none => pure ()
    | some f => do
      dropFold a b
      raiseSeq f.owner { code := 0x40 }
  | 5 => modFold a b (fun f => { f with slots := f.slots.map (fun p => if p.1 = c then (p.1, { p.2 with bad := true }) else p) })
  | 6 => modGallery a b (fun g => { g with broken := true })
  | 7 => do
    eff (.granule a true)
    eff (.mark (16 * a) true)
    settleGranules
  | _ => regionFault a { code := 0x40 } 0

/-- An error of a guarded structure: of kind `kind % 16`, corrected from kind 16 on. An uncorrected error that a sequencer, an engine, a
stream or a walker meets comes so before its read (DEDUCED, log 64). -/
def guardedError (kind a b c : Nat) : M Unit := do
  let s ← get'
  match guardedAt s (kind % 16) a b c with
  | none => pure ()
  | some g =>
    if 16 ≤ kind then correctedAt g
    else if kind = 8 then readError g b
    else do
      startTest (errClass g.place false) g.place g.addr g.vf
      structureError kind a b c

/-! ### Answers to requests (R102, R111, R130, R438) -/

/-- A request may be served now: its clock runs, no row that it reaches is under test and no way changes use, and it has its address. -/
def mayServe (s : State) (q : Req) : Bool :=
  q.phase != .walking && hallRuns (hallAt s (ridHall q.rid)) && (nextPieces s q).all (fun p => !rowBusy s (ridHall q.rid) p.1)
  && (match q.op with | .posted _ _ => true | _ => (kget s.regions q.rid).any (fun r => r.saved.isNone && r.state != .free))

/-- A request reads what is stored. -/
def readsMemory : MemOp → Bool
  | .load | .loadFE _ | .amo _ _ _ | .cas _ _ => true
  | _ => false

/-- A request is served with the error, if any, that its read meets. The silence timer restarts when it, or a part of it, is answered
(R417, R438). -/
def answerReq (q : Req) (e : MemReply) : M Unit := do
  let s ← get'
  let hall := ridHall q.rid
  let g := if readsMemory q.op then ((nextPieces s q).head?).bind (fun p => guardedAt s 8 p.1 hall (reqVf s q)) else none
  match g, e with
  | some g, .corrected => correctedAt g
  | some g, .uncorrected _ => readError g hall
  | _, _ => pure ()
  serveReq q
  let s ← get'
  whenM ((s.reqs.find? (fun x => x.number == q.number)).all (fun x => x.got.length != q.got.length)) (stir q.rid)

/-- MEMORY_ACCESS_COMPLETE (R102, R111, R130, R438). -/
def execMemoryAccessComplete (s : State) : Host.Outcome State Fault Refusal :=
  runEvent (match s.input with
    | .reply number e => do
      let s ← get'
      match s.reqs.find? (fun q => q.number == number) with
      | some q => if mayServe s q ∧ q.phase ≠ .granule then answerReq q e else pure ()
      | none => pure ()
    | .quad kind a b c => guardedError kind a b c
    | _ => pure ()) s

/-! ### Walks (R103 to R107, R444) -/

/-- A drain target's write ends in a translation fault, or any other request does (R363, R444). -/
def walkFault (vf : Nat) (q : Req) (e : XFault) : M Unit :=
  match q.op with
  | .drain k row _ => do
    dropReq q.number
    let s ← get'
    drainTrap { q with va := q.need } k row e.code (gpaOf s vf q.need)
  | _ => trapWalk q e q.need

/-- The right that a request needs of a page. -/
def rightOf : MemOp → Right
  | .load | .loadFE _ | .fence _ | .reply _ _ => .read
  | .store _ | .storeFE _ _ | .posted _ _ | .drain _ _ _ => .write
  | .amo _ _ _ | .cas _ _ => .atomic

/-- What a walk brings to a request that joined it: the location that it needs, or a fault. Where the page that the walk found does not
hold its address, it misses again (R105). -/
def walked (vf page : Nat) (r : Except XFault Stage) (q : Req) : M Unit := do
  let s ← get'
  let size := match r with | .ok st => st.log2 | .error _ => 16
  if q.need / 2 ^ size ≠ page / 2 ^ size then do
    let w ← joinWalk (ridHall q.rid) vf q.need
    putReq { q with walk := w }
  else match r with
  | .error e => walkFault vf q e
  | .ok st =>
    let a := st.addr - page % 2 ^ size + q.need % 2 ^ size
    if !pageGrants st.write st.atomic (rightOf q.op) then walkFault vf q (rightFault s vf q.need (rightOf q.op))
    else if q.need = q.va then putReq { q with phase := .issued, loc := some a }
    else putReq { q with phase := .issued, locs := kset q.locs q.need a }

/-- TRANSLATION_WALK_COMPLETE (R103 to R107, R444): one walk answers every request that joined it, and fills the cache of every
hall that asked; a walk that an invalidation met fills none. -/
def execTranslationWalkComplete (s : State) : Host.Outcome State Fault Refusal :=
  runEvent (match s.input with
    | .index number => do
      let s ← get'
      match s.walks.find? (fun w => w.number == number && w.started) with
      | none => pure ()
      | some w => do
        let page := w.page * 65536
        let r := translate s w.vf page
        let rest := s.walks.filter (fun x => x.number != number)
        -- the first that waits for a walker of the die takes the one that is free
        let next := (rest.find? (fun x => !x.started && dieOf x.hall == dieOf w.hall)).map (·.number)
        eff (.walks (rest.map (fun x => if some x.number = next then { x with started := true } else x)))
        (match r with
         | .ok st => whenM (!w.stale) (each w.joined (fun h => modHall h (fun x => tlbFill s.tick x w.vf page st)))
         | .error _ => pure ())
        each (s.reqs.filter (fun q => q.phase == .walking && q.walk == number)) (walked w.vf page r)
    | _ => pure ()) s

/-! ### Ways that change use (R110, R120, R446) -/

/-- WAY_CHANGE_WALK_END (R110, R120): the way is empty and takes its new use, or serves its range from then on. -/
def execWayChangeWalkEnd (s : State) : Host.Outcome State Fault Refusal :=
  runEvent (match s.input with
    | .triple hall tile way => do
      let s ← get'
      match (hallAt s hall).walking.find? (fun w => w.tile == tile && w.way == way) with
      | none => pure ()
      | some w =>
        if !hallRuns (hallAt s hall) then pure ()
        else do
          whenM (wayUse (hallAt s hall) tile way == 0) (flushWay hall tile way)
          let s ← get'
          let h := leaveWay tile way (hallAt s hall)
          changeWays hall (setWay { h with reserved := match w.range with | some k => kset h.reserved (16 * tile + way) k | none => h.reserved } tile way w.use) id
          balanceHall hall
    | _ => pure ()) s

/-! ### Back-invalidate snoops (R121 to R123) -/

/-- A shared annex line whose port works and that no invocation pins: a snoop may take it. No other host has a line of an HDM-H range
(R121). -/
def snooped (s : State) (a : Nat) : Bool :=
  rangeMt a == some 1 && sharedAnnex a && (s.pkg.annex[portOf a]?).any (fun p => p.present && p.trained && !p.lost) && !pinnedByOther s (lineOf a) none

/-- The fills of a line that are outstanding when a snoop takes it serve their requesters once, and the line is not cached (R123). -/
def snoopFills (a : Nat) : M Unit := do
  let s ← get'
  eff (.reqs (s.reqs.map (fun q =>
    if (nextPieces s q).any (fun p => (linesOf p.1 p.2.2).contains (lineOf a)) then { q with snooped := true } else q)))

/-- Every copy of a line changes as a snoop asks. -/
def snoopCopies (a : Nat) (g : CacheLine → Option CacheLine) : M Unit := do
  let s ← get'
  each (List.range s.halls.length) (fun h => match kget (hallAt s h).cache (cacheKey a) with
    | none => pure ()
    | some c => modHall h (fun x => { x with cache := match g c with | some c => kset x.cache (cacheKey a) c | none => kdel x.cache (cacheKey a) }))

/-- A snoop takes a line: its copies change, and its outstanding fills are not cached (R122, R123). -/
def snoop (a : Nat) (g : CacheLine → Option CacheLine) : M Unit := do
  snoopCopies a g
  snoopFills a

/-- BISNPINV (R122): every copy leaves; the input may bring the line that another host then writes, one event for each granule (R140;
DESIGN CHOICE, log 20). -/
def execBisnpinv (s : State) : Host.Outcome State Fault Refusal :=
  runEvent (match s.input with
    | .index a => do
      let s ← get'
      whenM (snooped s a) (snoop a (fun _ => none))
    | .cxl a (some bs) => do
      let s ← get'
      whenM (snooped s a) (do
        snoop a (fun _ => none)
        putBytes (lineOf a) (bs.take 64)
        whenM (decide (64 ≤ bs.length)) (eff (.mark (lineOf a) false))
        each (granulesOf (lineOf a) (min 64 bs.length)) (fun g => raiseVersions [16 * g]))
    | _ => pure ()) s

/-- BISNPDATA (R122): every copy is Shared. -/
def execBisnpdata (s : State) : Host.Outcome State Fault Refusal :=
  runEvent (match s.input with
    | .index a => do
      let s ← get'
      whenM (snooped s a) (snoop a (fun c => some { c with mesi := .shared }))
    | _ => pure ()) s

/-- BISNPCUR (R122): a Modified copy is written back and becomes Exclusive. -/
def execBisnpcur (s : State) : Host.Outcome State Fault Refusal :=
  runEvent (match s.input with
    | .index a => do
      let s ← get'
      whenM (snooped s a) (snoop a (fun c => some (if c.mesi = .modified then { c with mesi := .exclusive } else c)))
    | _ => pure ()) s

/-! ### Streams (R112 to R116, R382, R407, R463) -/

/-- The offset of element `n` of a stream within its buffer: the first `count` dimensions enumerate it (R112). -/
def elementOffset (d : StreamDesc) (n : Nat) : Int :=
  ((d.dims.take d.count).foldl (fun (o, k) p => (o + ((k % p.1 : Nat) : Int) * p.2, k / p.1)) ((d.origin : Int), n)).1

/-- Elements of a stream are left. -/
def streamGoes (x : Stream) : Bool := x.running && decide (x.next < streamTotal x.desc)

/-- A stream's access faults: its region faults with the cause (R411, DEDUCED, log 25). -/
def streamFault (rid code off : Nat) (word8 : Nat := 0) (word9 : Nat := 0) : M Unit :=
  regionFault rid { code := code, operand := off, word8 := word8, word9 := word9 } 0

/-- Change a stream of a region. -/
def modStream (rid k : Nat) (g : Stream → Stream) : M Unit := modRegion rid (fun r => match kget r.streams k with
  | some x => { r with streams := kset r.streams k (g x) }
  | none => r)

/-- The location of byte `o` of an element of `len` bytes; a miss waits for a walk (R105, R306), and the stream's region faults where the
element lies nowhere. -/
def elementAt (rid k : Nat) (r : Region) (x : Stream) (right : Right) (len align o : Nat) (go : Nat → M Unit) : M Unit := do
  let s ← get'
  let off := elementOffset x.desc x.next
  let b := (handleAt s r.vf r.ctx x.desc.handle).visible
  if off < 0 then streamFault rid 0x1A 0
  else match checkAccess b right off.toNat len align with
  | .error c => streamFault rid c (off.toNat % 2 ^ 32)
  | .ok (some h, a) => go (scratchAddr h (a + o))
  | .ok (none, va) => do
    match ← attempt (findPage r.hall r.vf (va + o) right x.walk) with
    | .error t => streamFault rid t.code (off.toNat % 2 ^ 32) t.word8 t.word9
    | .ok (.error w) => do
      whenM (x.walk != some w) (countMiss rid)
      modStream rid k (fun x => { x with walk := some w })
    | .ok (.ok a) => go a

/-- The stream has done an element's access; one that STRM.END stops sends its finish bit (R113). -/
def passElement (rid k : Nat) (push : Bool) : M Unit := do
  modStream rid k (fun x => { x with next := x.next + 1, pushed := if push then x.pushed + 1 else x.pushed, held := none, done := [], walk := none })
  modRegion rid (fun r => match kget r.streams k with
    | some x => if x.ending then takeControl r (streamWord 2 r x.desc) else r
    | none => r)
  stir rid

/-- A part of an element's access has performed (R127). -/
def passPart (rid k : Nat) (bs : List Byte) : M Unit := do
  modStream rid k (fun x => { x with done := x.done ++ bs })
  stir rid

/-- The bytes left of a buffer from an element on. -/
def bufferLeft (s : State) (r : Region) (x : Stream) : Nat :=
  match (handleAt s r.vf r.ctx x.desc.handle).visible with
  | some b => b.len - (elementOffset x.desc x.next).toNat
  | none => 0

/-- A full/empty mode acts on a location: only scratch has the bits (R115). -/
def feActs (x : Stream) (a : Nat) : Bool := x.desc.fe != 0 && isScratch a

/-- An element's read of `n` bytes may perform: no line is pinned, no row is busy, and its granules are full in a full/empty mode (R115,
R134, R439). -/
def readReady (s : State) (hall : Nat) (x : Stream) (a n : Nat) : Bool :=
  !(linesOf a n).any (fun l => pinnedByOther s l none) && !rowBusy s hall a && (!feActs x a || (granulesOf a n).all s.full.contains)

/-- The bytes of an element: those of its type, or of the packet whose header begins with the given bytes. A header is carried unchanged
whatever it holds (R416); the length of a packet whose FMT gives no width is free (DESIGN CHOICE, log 102). -/
def elementSize (s : State) (r : Region) (x : Stream) (head : List Byte) : Nat :=
  if x.desc.fmt ≠ .tile then tyBytes x.desc.fmt
  else if (pktHdr head).known then (pktHdr head).length
  else 8 + Config.freeChoice (leNat head) % (bufferLeft s r x - 7)

/-- A read element, or the poison in its place, enters its circuit. A read that takes leaves its granules empty (R115). -/
def pushElement (rid k : Nat) (x : Stream) (edges : List Edge) (a n : Nat) (t : Token) : M Unit := do
  whenM (x.desc.fe == 1 && isScratch a) (do
    each (granulesOf a n) (fun g => eff (.granule g false))
    settleGranules)
  each edges (sendEdge t)
  passElement rid k true

/-- The next granule of a read stream's element, from its byte `o` at location `a` (R127): all of a scalar, and of an element in a
full/empty mode. -/
def readPart (rid k : Nat) (r : Region) (x : Stream) (edges : List Edge) (o a : Nat) : M Unit := do
  let s ← get'
  let tag := x.pushed % 4096
  let first := if x.desc.fmt = .tile then 8 else tyBytes x.desc.fmt
  let bad := fun (c : Nat) => pushElement rid k x edges a first { value := poisonValue false 0 c, tag := tag, kind := .poison }
  if !readReady s r.hall x a (if o = 0 then first else 1) then pure ()
  else match unreadable s [(a, 0, if o = 0 then first else 1)] with
  | some c => bad c
  | none =>
    let total := elementSize s r x (if o = 0 then readBytes s.mem a 8 else x.done.take 8)
    let n := if x.desc.fmt ≠ .tile ∨ feActs x a then total else min 16 (total - o)
    if x.desc.fmt = .tile ∧ bufferLeft s r x < total then streamFault rid 0x1A (a % 2 ^ 32)
    else if !readReady s r.hall x a n then pure ()
    else match unreadable s [(a, 0, n)] with
    | some c => bad c
    | none => do
      let va := match (handleAt s r.vf r.ctx x.desc.handle).visible with | some b => b.base + (elementOffset x.desc x.next).toNat + o | none => 0
      each (linesOf a n) (fun l => if isScratch l then pure () else cacheRead r.hall r.vf (va + l - a) l)
      let bs := x.done ++ readBytes s.mem a n
      if bs.length < total then passPart rid k (readBytes s.mem a n)
      else pushElement rid k x edges a n (loadToken x.desc.fmt { tag := tag, ops := [] } bs)

/-- A read stream's element enters its circuit (R112, R463). DEDUCED, log 65. -/
def streamRead (rid k : Nat) (r : Region) (x : Stream) : M Unit := do
  let s ← get'
  let edges := circuitEdges s rid r 0 (38 + k) (x.pushed % 4096)
  let len := if x.desc.fmt = .tile then 8 else tyBytes x.desc.fmt
  let align := if x.desc.fmt = .tile then 16 else tyBytes x.desc.fmt
  if !edges.all (edgeFree s 1) then pure ()
  else elementAt rid k r x .read len align x.done.length (readPart rid k r x edges x.done.length)

/-- The report of final poison at a write stream, once in a run (R407, R412). -/
def poisonReport (rid k : Nat) (r : Region) (x : Stream) (t : Token) : M Unit :=
  whenM (!x.poisonReported) (do
    faultRecord r.vf 7 rid { code := t.value.toNat % 2 ^ 16, src := bits t.value.toNat 16 2, iv := (boundId r t.tag).getD 0 } 0
    modStream rid k (fun x => { x with poisonReported := true }))

/-- The next granule of a write stream's element, from its byte `o` at location `a` (R115, R127): all of a scalar, and of an element in a
full/empty mode. -/
def writePart (rid k : Nat) (r : Region) (x : Stream) (bs : List Byte) (o a : Nat) : M Unit := do
  let s ← get'
  let n := if x.desc.fmt ≠ .tile ∨ feActs x a then bs.length else min 16 (bs.length - o)
  if (linesOf a n).any (fun l => pinnedByOther s l none) || rowBusy s r.hall a then pure ()
  else if feActs x a && x.desc.fe == 3 && !(granulesOf a n).all (fun g => !s.full.contains g) then pure ()
  else match answers s a with
  | some c => streamFault rid c (a % 2 ^ 32)
  | none => do
    let va := match (handleAt s r.vf r.ctx x.desc.handle).visible with | some b => b.base + (elementOffset x.desc x.next).toNat + o | none => 0
    performWrite r.hall r.vf va a ((bs.drop o).take n)
    if o + n < bs.length then passPart rid k ((bs.drop o).take n) else passElement rid k false

/-- The access of the token that a write stream has taken (R112, R114, R382, R407). -/
def streamWrite (rid k : Nat) (r : Region) (x : Stream) (t : Token) : M Unit :=
  let tile := x.desc.fmt == .tile
  let bs := if tile then t.packet else bytesOfNat (tyBytes x.desc.fmt) t.value.toNat
  if t.isPending ∨ x.barred then pure ()
  else if t.isFinal then do
    poisonReport rid k r x t
    passElement rid k false
  else if tile ∧ bs.length < 8 then streamFault rid 0x22 0
  else elementAt rid k r x .write bs.length (if tile then 16 else bs.length) x.done.length (writePart rid k r x bs x.done.length)

/-- A write stream takes the next token of its circuit, while it has issued every access before it (R382). -/
def takeElement (rid k key : Nat) : M Unit := do
  let s ← get'
  match kget s.chans key with
  | some { src := src, place := .stream j, queue := t :: _, .. } => whenM (src == rid && j == k) (do
      takeHead key
      modStream rid k (fun x => { x with held := some t })
      stir rid)
  | _ => pure ()

/-- STREAM_ACCESS (R112, R382). -/
def execStreamAccess (s : State) : Host.Outcome State Fault Refusal :=
  runEvent (match s.input with
    | .triple rid k key => do
      let s ← get'
      withRegion rid (fun r =>
        match kget r.streams k with
        | none => pure ()
        | some x =>
          if !sourceRuns s r || !streamGoes x || x.gallery.isSome then pure ()
          else if !x.desc.write then (if x.barred then pure () else streamRead rid k r x)
          else match x.held with
          | some t => streamWrite rid k r x t
          | none => takeElement rid k key)
    | _ => pure ()) s

/-- STREAM_BARRIER_LIFT (R114): every other stream that was started has drained. -/
def execStreamBarrierLift (s : State) : Host.Outcome State Fault Refusal :=
  runEvent (match s.input with
    | .index rid => withRegion rid (fun r =>
        if r.streams.any (fun p => p.2.barred) ∧ r.streams.all (fun p => p.2.barred || !p.2.running || p.2.gallery.isSome) then
          modRegion rid (fun r => { r with streams := r.streams.map (fun p => (p.1, { p.2 with barred := false })) })
        else pure ())
    | _ => pure ()) s

/-- STREAM_DRAINED (R60, R113, R240): the last access has performed, and the finish bit is sent. -/
def execStreamDrained (s : State) : Host.Outcome State Fault Refusal :=
  runEvent (match s.input with
    | .pair rid k => withRegion rid (fun r =>
        match kget r.streams k with
        | some x => whenM (x.running && decide (streamTotal x.desc ≤ x.next)) (do
            modRegion rid (fun r => takeControl r (streamWord 2 r x.desc))
            stir rid)
        | none => pure ())
    | _ => pure ()) s

/-- SLOT_ZEROING_END (R360). -/
def execSlotZeroingEnd (s : State) : Host.Outcome State Fault Refusal :=
  runEvent (match s.input with
    | .triple hall k slot => do
      let s ← get'
      whenM (hallRuns (hallAt s hall)) (modPlinth hall k (fun p => { p with zeroing := p.zeroing.filter (· != slot) }))
    | _ => pure ()) s

end Sys2Proof.Machine
end

