-- ==== Sys2Proof/Machine/EventsEngines.lean ====
section
/-! DEFINITION. Steps of galleries, conservators, the delta engine, couriers, rings and Xipex links (R178 to R196, R224, R301, R389,
R390, R447 to R452). -/
namespace Sys2Proof.Machine

/-! ### Galleries (R178, R184, R185, R389) -/

/-- GALLERY_BLOCK_READ (R178, R389): a token of the request stream enters the head link as a block read. -/
def execGalleryBlockRead (s : State) : Host.Outcome State Fault Refusal :=
  runEvent (match s.input with
    | .index key => do
      let s ← get'
      match kget s.chans key with
      | some { src := rid, place := .stream k, queue := t :: _, .. } => withRegion rid (fun r =>
          match kget r.streams k with
          | none => pure ()
          | some x =>
            match x.gallery, x.gallery.bind (galleryAt s r.wing) with
            | some g, some y =>
              if y.rq ≠ k ∨ !sourceRuns s r ∨ t.isPending then pure ()
              else if t.isFinal then do
                poisonReport rid k r x t
                takeHead key
              else do
                let n ← fresh
                let v := t.value.toNat
                let rd : BlockRead := { number := n, rid := rid, tag := t.tag, rowtag := 64 * bits v 0 18, layer := bits v 24 8, head := bits v 18 6
                                        pos := 64 * bits v 0 18, rows := (List.range 64).map (64 * bits v 0 18 + ·), gen := y.gen, link := 0 }
                modGallery r.wing g (fun y => { y with reads := y.reads ++ [rd] })
                takeHead key
                stir rid
            | _, _ => pure ())
      | _ => pure ()
    | _ => pure ()) s

/-- GALLERY_READ_AT_LINK (R179, R185). -/
def execGalleryReadAtLink (s : State) : Host.Outcome State Fault Refusal :=
  runEvent (match s.input with
    | .triple wing g number => do
      let s ← get'
      match galleryAt s wing g with
      | none => pure ()
      | some x =>
        match x.reads.find? (·.number == number) with
        | some rd =>
          if hallRuns (hallAt s (x.link rd.link).hall) ∧ (regionOf s x.vf rd.rid).any (fun r => r.saved.isNone) then readAtLink wing g x rd else pure ()
        | none => pure ()
    | _ => pure ()) s

/-- The command that waited for a wave is done (R376). -/
def releaseWaiter (w : Option Nat) : M Unit :=
  match w with
  | none => pure ()
  | some rid => modRegion rid (fun r => { r with seq := match r.seq.handler with
      | some (a, i) => { r.seq.settled with handler := some (a, i + 1) }
      | none => { r.seq.settled with index := nextIndex r.seq.index } })

/-- The repairs of segments that a cut has emptied are cancelled. -/
def dropEmptied (wing g : Nat) : M Unit := do
  let s ← get'
  match galleryAt s wing g with
  | none => pure ()
  | some x => each ((repairsOf s).filter (fun p => p.2.wing == wing && p.2.gallery == g && (x.segBy p.2.seg).isNone)) (fun p => cancelRepair p.1 p.2.number)

/-- LIMIT_SHIFT_WAVE (R184): the indivisible update of the next link. -/
def execLimitShiftWave (s : State) : Host.Outcome State Fault Refusal :=
  runEvent (match s.input with
    | .pair wing g => do
      let s ← get'
      match galleryAt s wing g with
      | none => pure ()
      | some x =>
        match x.wave with
        | none => pure ()
        | some w =>
          if !hallRuns (hallAt s (x.link w.next).hall) then pure ()
          else
            let x' := { x with links := x.links.modify w.next (waveLink w w.next), wave := some { w with next := w.next + 1 } }
            if w.next + 1 < x.links.length then modGallery wing g (fun _ => x')
            else do
              modGallery wing g (fun _ => { x' with wave := none })
              whenM w.wave.cut (dropEmptied wing g)
              releaseWaiter w.waiter
    | _ => pure ()) s

/-- REPAIR_LAYER_DONE (R188, R390). -/
def execRepairLayerDone (s : State) : Host.Outcome State Fault Refusal :=
  runEvent (match s.input with
    | .index number => do
      let s ← get'
      match repairNo s number with
      | some (die, x) => if x.ended then pure () else layerDone die x
      | none => pure ()
    | _ => pure ()) s

/-- REPAIR_COPY_DONE (R186, R390). -/
def execRepairCopyDone (s : State) : Host.Outcome State Fault Refusal :=
  runEvent (match s.input with
    | .index number => do
      let s ← get'
      match repairNo s number with
      | some (die, x) => if x.ended then pure () else copyDone die x
      | none => pure ()
    | _ => pure ()) s

/-- A region of a function has not ended: it is resident, or an image is the only copy of it (R210, R318). -/
def present (s : State) (vf rid : Nat) : Bool :=
  (regionOf s vf rid).any (fun r => r.state != .free)
  || (vfAt s vf).saves.any (fun x => (x.vacated || x.parked) && !x.releasing && x.rid == rid)

/-- A repair has a cause to be cancelled (R447): its region has ended, its staging handle is unmapped, its segment has become Stale, or
its conservator is retired. -/
def repairLost (s : State) (die : Nat) (x : Repair) : Bool :=
  !present s x.vf x.region
  || (handleAt s x.vf x.ctx x.staging).visible.isNone
  || (x.running && (match repairView s x with | some (_, _, e) => e.state == .stale | none => true))
  || (s.conservators[die]?).any (fun c => !c.working)

/-- REPAIR_CANCEL (R447). -/
def execRepairCancel (s : State) : Host.Outcome State Fault Refusal :=
  runEvent (match s.input with
    | .index number => do
      let s ← get'
      match repairNo s number with
      | some (die, x) => whenM (!x.ended && repairLost s die x) (cancelRepair die number)
      | none => pure ()
    | _ => pure ()) s

/-! ### Delta runs (R194 to R196) -/

/-- DELTA_RUN_END (R194, R196). -/
def execDeltaRunEnd (s : State) : Host.Outcome State Fault Refusal :=
  runEvent (match s.input with
    | .pair wing l => do
      let s ← get'
      match castAt s wing l with
      | none => pure ()
      | some c =>
        match c.runner with
        | none => startRunAt wing l
        | some q =>
          if hallRuns (hallAt s c.hall) ∧ (regionOf s c.vf q.rid).any (fun r => r.saved.isNone) then finishRun wing l c q else pure ()
    | _ => pure ()) s

/-! ### Engine commands (R301, R328 to R334, R450) -/

/-- A command that may go on: accepted, not ended, and its hall's clock runs. -/
def engineRuns (s : State) (number : Nat) : Option EngineCmd :=
  (engineAt s number).bind (fun e => if !e.done && hallRuns (hallAt s e.hall) then some e else none)

/-- ENGINE_COMMAND_COMPLETE (R301): the command goes on, and ends when its writes are made. One that meets a fault is left to
ENGINE_COMMAND_FAULT. -/
def execEngineCommandComplete (s : State) : Host.Outcome State Fault Refusal :=
  runEvent (match s.input with
    | .index number => do
      let s ← get'
      match engineRuns s number with
      | none => pure ()
      | some e => do
        match ← engineStep e with
        | .goesOn => pure ()
        | .done => endEngine e none
        | .fault _ => stall
    | _ => pure ()) s

/-- ENGINE_COMMAND_FAULT (R450): it stops after the granule in progress, and its ticket ends in error. -/
def execEngineCommandFault (s : State) : Host.Outcome State Fault Refusal :=
  runEvent (match s.input with
    | .index number => do
      let s ← get'
      match engineRuns s number with
      | none => pure ()
      | some e => do
        match ← engineStep e with
        | .fault t => endEngine e (some (engineCause t))
        | _ => stall
    | _ => pure ()) s

/-! ### Rings and links (R192, R224, R451, R452) -/

/-- A message reaches a ring's member; a ring that is broken takes none (R192, R452). -/
def ringMessage (vf k : Nat) (bs : List Byte) : M Unit :=
  modRing vf k (fun x => if x.broken then x else { x with arriving := x.arriving ++ [bs.take x.slotSize] })

/-- The next piece of the first message that has reached a ring is written into a free slot, in the order of arrival; with its last piece
the slot is filled (R127, R192). A write that faults breaks the ring (DESIGN CHOICE, log 114). -/
def fillSlot (vf k : Nat) (x : Ring) (bs : List Byte) : M Unit := do
  let s ← get'
  let h := kgetD (vfAt s vf).handles (handleKey x.ctx x.handle) {}
  let hall := match (vfAt s vf).wing.bind (kget s.wings) with | some w => wingHome w | none => 0
  let off := x.slot0 + x.filled % 2 * x.slotSize
  match ← attempt (stepPieces x.pieces (writePieces hall vf h.visible off bs)) with
  | .ok (.ok _) => modRing vf k (fun x => { x with filled := x.filled + 1, arriving := x.arriving.drop 1, pieces := {} })
  | .ok (.error p) => modRing vf k (fun x => { x with pieces := p })
  | .error t => if t.code = stallCode then stall else modRing vf k (fun x => { x with broken := true, arriving := [], pieces := {} })

/-- RING_SLOT_FILLED (R192): a message reaches the member, or goes on into its slot. -/
def execRingSlotFilled (s : State) : Host.Outcome State Fault Refusal :=
  runEvent (match s.input with
    | .ring vf k bs => ringMessage vf k bs
    | .pair vf k => do
      let s ← get'
      match ringAt s vf k with
      | none => pure ()
      | some x =>
        match x.arriving with
        | [] => pure ()
        | bs :: _ => if x.broken ∨ x.taken + 2 ≤ x.filled + (if x.held then 1 else 0) then pure () else fillSlot vf k x bs
    | _ => pure ()) s

/-- RING_CREDIT_RETURN (R192): the sender's free count rises. -/
def execRingCreditReturn (s : State) : Host.Outcome State Fault Refusal :=
  runEvent (match s.input with
    | .pair vf k => do
      let s ← get'
      match ringAt s vf k with
      | none => pure ()
      | some x => whenM (decide (x.free < 2)) (modRing vf k (fun x => { x with free := x.free + 1 }))
    | _ => pure ()) s

/-- RING_BREAK (R452): the route to the successor is lost, or a member has reset. -/
def execRingBreak (s : State) : Host.Outcome State Fault Refusal :=
  runEvent (match s.input with
    | .pair vf k => do
      let s ← get'
      whenM ((ringAt s vf k).isSome) (modRing vf k (fun x => { x with broken := true }))
    | _ => pure ()) s

/-- A flit for this package is delivered (R192, R225, R331). -/
def deliverFlit (b : FlitBody) : M Unit := do
  let s ← get'
  match b with
  | .ringOpened member members =>
    match (s.vfs.flatMap (fun p => p.2.rings.map (fun q => (p.1, q.1, q.2)))).find? (fun p => p.2.2.members == members && p.2.2.opener.isSome && !p.2.2.opened.contains member) with
    | some (vf, k, _) => modRing vf k (fun x => { x with opened := x.opened ++ [member] })
    | none => modPkg (fun p => { p with ringOpens := p.ringOpens ++ [(member, members)] })
  | .ringSlot vf k bs => ringMessage vf k bs
  | .ringCredit vf k => lay (.event .ringCreditReturn (.pair vf k))
  | .collective vf k seq chunk final bs => modRing vf k (fun x => { x with inbox := x.inbox ++ [{ seq := seq, chunk := chunk, final := final, bytes := bs }] })

/-- A link that carries flits. -/
def linkUp (s : State) (link : Nat) : Bool := (s.pkg.xlinks[link]?).any (fun x => x.present && x.up)

/-- XIPEX_FLIT_RECEIVE (R224, R451): delivered, or forwarded by the route table; traffic over a link that is down is dropped. DESIGN CHOICE, log 100. -/
def execXipexFlitReceive (s : State) : Host.Outcome State Fault Refusal :=
  runEvent (match s.input with
    | .flit link f => do
      let s ← get'
      if !linkUp s link then pure ()
      else do
        modPkg (fun p => { p with xlinks := p.xlinks.modify link (fun x => { x with retries := 0 }) })
        if f.dest = s.pkg.number then deliverFlit f.body
        else match kget s.pkg.routes f.dest with
        | some out => whenM (linkUp s out) (modPkg (fun p => { p with outbox := p.outbox ++ [(out, f)] }))
        | none => pure ()
    | _ => pure ()) s

/-- XIPEX_CRC_ERROR (R451): the flit is retried; after 16 retries the link retrains. -/
def execXipexCrcError (s : State) : Host.Outcome State Fault Refusal :=
  runEvent (match s.input with
    | .index link => do
      let s ← get'
      whenM (linkUp s link) (modPkg (fun p => { p with xlinks := p.xlinks.modify link (fun x =>
        if 16 ≤ x.retries + 1 then { x with retries := 0, up := false, training := true } else { x with retries := x.retries + 1 }) }))
    | _ => pure ()) s

/-- A ring whose successor is reached by a link. -/
def breakRings (link : Nat) : M Unit := do
  let s ← get'
  each s.vfs (fun p => each p.2.rings (fun q =>
    whenM (kget s.pkg.routes (ringNext s q.2) == some link) (modRing p.1 q.1 (fun x => { x with broken := true }))))

/-- A link is down (R451, R452): a CLASS 7 record, and the rings that go by it break. -/
def linkDown (link : Nat) : M Unit := do
  modPkg (fun p => { p with xlinks := p.xlinks.modify link (fun x => { x with up := false, training := false, fails := 0, retries := 0 }) })
  errorRecord 7 6 0 link 0 2 0 0 0 0 3
  breakRings link

/-- XIPEX_LINK_DOWN (R451): the third failed training. -/
def execXipexLinkDown (s : State) : Host.Outcome State Fault Refusal :=
  runEvent (match s.input with
    | .index link => do
      let s ← get'
      match s.pkg.xlinks[link]? with
      | some x => whenM (x.present && x.training && decide (3 ≤ x.fails)) (linkDown link)
      | none => pure ()
    | _ => pure ()) s

/-- XIPEX_RETRAIN_END (R451): the link comes up, the attempt counts, or the link fails its loopback self-test and is retired. -/
def execXipexRetrainEnd (s : State) : Host.Outcome State Fault Refusal :=
  runEvent (match s.input with
    | .train link o => do
      let s ← get'
      match s.pkg.xlinks[link]? with
      | none => pure ()
      | some x =>
        if !x.present || !x.training || decide (3 ≤ x.fails) then pure ()
        else match o with
        | .up => modPkg (fun p => { p with xlinks := p.xlinks.modify link (fun x => { x with up := true, training := false, fails := 0, retries := 0 }) })
        | .failed => modPkg (fun p => { p with xlinks := p.xlinks.modify link (fun x => { x with fails := x.fails + 1 }) })
        | .loopbackFailed => do
          modPkg (fun p => { p with xlinks := p.xlinks.modify link (fun x => { x with up := false, training := false, present := false }) })
          breakRings link
          retireUnit 6 0 link 0
    | _ => pure ()) s

end Sys2Proof.Machine
end

