-- ==== Sys2Proof/Machine/EventsDevice.lean ====
section
/-! DEFINITION. Steps of boot, life cycle, heat, clocks, frames, release, annex ports and the registrar's export (R28 to R31, R106,
R198, R214 to R222, R435, R445, R446, R453, R454, R457 to R461). -/
namespace Sys2Proof.Machine

/-! ### Boot and life cycle (R217 to R221, R459, R460) -/

/-- A measurement register extended by an image's digest (R217). -/
def extendMeasure (m : BitVec 384) (d : BitVec 384) : BitVec 384 := Config.sha384 (bytes384 m ++ bytes384 d)

/-- An image of a boot, by its place: 0 curator firmware, 1 I/O-die firmware, 2 to 5 the microcode of compute dies 0 to 3, 6
registrar firmware (R217); a missing image has failed. -/
def imageOk (l : List BootImage) (i : Nat) : Bool := (l[i]?).any (·.signed)

/-- The stage at which a boot stops: 1 or 2, or 0 where it goes on (R459). -/
def failedStage (l : List BootImage) : Nat := if !imageOk l 0 then 1 else if !imageOk l 1 then 2 else 0

/-- The images that a boot measures: every one, up to the one it stops at (R217, R459). -/
def imagesReached (l : List BootImage) : List BootImage := if failedStage l = 0 then l else l.take (failedStage l)

/-- The registers after the images of a boot: each image that it measures extends a register, image i register i (DEDUCED, log 27). -/
def measured (l : List BootImage) : List (BitVec 384) :=
  (List.range 24).map (fun i => match (imagesReached l)[i]? with | some x => extendMeasure 0 x.digest | none => 0)

/-- The compute dies whose microcode fails. -/
def failedDies (l : List BootImage) : List Nat := (List.range 4).filter (fun d => !imageOk l (2 + d))

/-- What survives a loss of power: fuses, the retired units, and the trips still to report (R443, R460, R461). The wipe of a boot leaves
every frame clean (R217, DEDUCED, log 14). -/
def powerPackage (s : State) (l : List BootImage) : Package :=
  { State.reset.pkg with
    begun := s.pkg.begun, done := s.pkg.done, retired := s.pkg.retired, measures := measured l, bootFail := failedStage l
    badDies := if failedStage l = 0 then failedDies l else [0, 1, 2, 3], booting := failedStage l == 0
    frames := if failedStage l = 0 then { clean := [(0, frameCount)] } else {} }

/-- A CLASS 13 record of an image that fails, with the low word of its digest (R459). -/
def bootRecords (l : List BootImage) : M Unit :=
  each ((List.range (if failedStage l = 0 then 7 else failedStage l)).filter (fun i => !imageOk l i)) (fun i =>
    errorRecord 13 0 0 i 0 2 0 0 0 0 (((l[i]?).map (·.digest.toNat % 2 ^ 64)).getD 0))

/-- A life-cycle transition's fuse is blown, and its entry written; no tenant key is loaded in the returned state (R219). DEDUCED, log 93. -/
def finishTransition : M Unit := do
  eff .lifeNext
  let s ← get'
  modPkg (fun p => { p with done := p.done + 1, keys := if s.pkg.life = .returned then [] else p.keys })
  logEntry 0x07 0 0

/-- The end of a boot: a transition that lost power is finished, the boot's entry is written, and the halls are released. It waits for
room in the registrar's buffer (R222); with REGFAIL set the boot goes on without entries (R459). -/
def finishBoot : M Unit := do
  let s ← get'
  whenM (!s.pkg.registrar.regFail) (do
    whenM (decide (s.pkg.done < s.pkg.begun)) finishTransition
    logEntry 0x08 0 0)
  let s ← get'
  each ((List.range s.halls.length).filter (fun h => !s.pkg.badDies.contains (dieOf h))) (fun h => modHall h (fun x => { x with released := true }))
  modPkg (fun p => { p with booted := true, booting := false })

/-- A boot that waits for the registrar ends when it can. -/
def bootGoesOn : M Unit := do
  let s ← get'
  whenM s.pkg.booting (do
    let _ ← attempt finishBoot
    pure ())

/-- POWER_GOOD (R217, R221, R443, R459 to R461): everything but fuses is as at reset; the boot then releases the halls. -/
def execPowerGood (s : State) : Host.Outcome State Fault Refusal :=
  runEvent (match s.input with
    | .images l => do
      let s ← get'
      let trips := s.pkg.trips
      eff (.power (powerPackage s l))
      let s ← get'
      let r := s.pkg.registrar
      eff (.registrar r.exported r.acked (!imageOk l 6 && failedStage l == 0) r.warned)
      eff .epoch
      each trips (fun h => errorRecord 10 0 h 0 0 2 0 0 0 0 0)
      bootRecords l
      bootGoesOn
    | _ => pure ()) s

/-- Every memory of the package is wiped: what lies in them ends (R217 step 4, R219). -/
def wipeAll : M Unit := do
  let s ← get'
  eff .wipe
  each s.regions (fun p => eff (.region p.1 none))
  each s.chans (fun p => eff (.chan p.1 none))
  eff (.reqs [])
  eff (.names [])
  eff (.walks [])
  eff (.issue none)
  eff (.agenda [])
  each (List.range s.halls.length) (fun h => modHall h (fun x => { x with
    cache := [], tlb := [], overflow := [], invs := [], hold := [], pins := [], folds := [], plinths := [{}, {}, {}], served := [], credits := [] }))
  each s.wings (fun p => modWing p.1 (fun w => { w with galleries := [], docs := [], casts := [], inService := none }))
  each s.vfs (fun p => modVf p.1 (fun v => { v with handles := [], rings := [], saves := [], st := 0 }))
  eff (.conservators (s.conservators.map (fun c => { c with repairs := [] })))
  modPkg (fun p => { p with engines := [], hcalls := [], hcallOrder := [], hcallReplies := [] })

/-- LIFE_CYCLE_TRANSITION (R219, R458, R460): begin fuse, wipe, done fuse, entry. The flag says that power is lost after the begin
fuse: the next POWER_GOOD then ends the transition. -/
def execLifeCycleTransition (s : State) : Host.Outcome State Fault Refusal :=
  runEvent (do
    let s ← get'
    if s.pkg.life = .returned ∨ ¬s.pkg.booted then pure ()
    else do
      needLog
      modPkg (fun p => { p with begun := p.begun + 1 })
      match s.input with
      | .flagged _ true => modPkg (fun p => { p with tripped := true })
      | _ => do
        wipeAll
        finishTransition) s

/-- The code of a life-cycle state in a report. -/
def LifeCycle.code : LifeCycle → Nat
  | .manufacture => 0
  | .provisioned => 1
  | .deployed => 2
  | .returned => 3

/-- What an attestation report holds (R218). -/
def reportBytes (s : State) (nonce : BitVec 256) : List Byte :=
  let r := s.pkg.registrar
  s.pkg.measures.flatMap bytes384 ++ bytesOfNat 32 nonce.toNat ++ bytesOfNat 1 s.pkg.life.code
    ++ bytesOfNat 8 ((r.entries.getLast?.map (fun e => e.body.toNat / 2 ^ 320)).getD 0) ++ bytes384 ((r.entries.getLast?.map RegEntry.chain).getD 0)

/-- ATTESTATION_REPORT (R218). -/
def execAttestationReport (s : State) : Host.Outcome State Fault Refusal :=
  runEvent (match s.input with
    | .nonce n => do
      let s ← get'
      let b := reportBytes s n
      whenM s.pkg.booted (modPkg (fun p => { p with reports := p.reports ++ [(b, Config.signature b)] }))
    | _ => pure ()) s

/-- KEY_LOADED (R219, R220): a tenant key of a wing, by its identifier; none in the returned state. -/
def execKeyLoaded (s : State) : Host.Outcome State Fault Refusal :=
  runEvent (match s.input with
    | .pair wing key => do
      let s ← get'
      if s.pkg.life = .returned ∨ (kget s.wings wing).isNone then pure ()
      else do
        needLog
        modPkg (fun p => { p with keys := kset p.keys wing key })
        logData 0x06 wing 0 (BitVec.ofNat 256 key)
    | _ => pure ()) s

/-! ### The registrar's ring (R222, R458) -/

/-- Bytes of a registrar entry, and the entries that the host's ring holds (DEDUCED, log 28). -/
def entryBytes (e : RegEntry) : List Byte := bytes384 e.body ++ bytes384 e.chain
def registrarRing : Nat := 8192

/-- REGISTRAR_EXPORT (R222, R453, R458): the next entry in order goes to host memory; the flag says that both of its copies have
failed. -/
def execRegistrarExport (s : State) : Host.Outcome State Fault Refusal :=
  runEvent (do
    let s ← get'
    let r := s.pkg.registrar
    match r.entries[r.exported]? with
    | none => pure ()
    | some e =>
      if r.regFail then pure ()
      else match s.input with
      | .flagged _ true => do
        eff (.registrar r.exported r.acked true r.warned)
        errorRecord 14 0 0 0 0 2 0 0 0 0 0
      | _ =>
        if !s.pkg.hostUp then pure ()
        else do
          putBytes (hostAddr (s.pkg.regBase + 96 * (r.exported % registrarRing))) (entryBytes e)
          eff (.registrar (r.exported + 1) r.acked r.regFail r.warned)) s

/-- REGISTRAR_CONSUMER_ADVANCE (R222): the host has taken some exported entries, and a boot that waited for room goes on. -/
def execRegistrarConsumerAdvance (s : State) : Host.Outcome State Fault Refusal :=
  runEvent (match s.input with
    | .index n => do
      let s ← get'
      let r := s.pkg.registrar
      let acked := min r.exported (r.acked + n)
      eff (.registrar r.exported acked r.regFail (r.warned && decide (acked + 7168 ≤ r.entries.length)))
      bootGoesOn
    | _ => pure ()) s

/-! ### Heat and clocks (R28, R30, R198, R461) -/

/-- The ceiling at a sensor's temperature (R30). DEDUCED, log 92. -/
def ceilingAt (t : Nat) : Nat := if t < 95 then 2700 else max 900 (2700 - 100 * ((t - 95) / 2))

/-- The hotter of a hall's two sensors. -/
def hottest (h : Hall) : Nat := max h.temps.1 h.temps.2

/-- HALL_TEMPERATURE_READING (R30). -/
def execHallTemperatureReading (s : State) : Host.Outcome State Fault Refusal :=
  runEvent (match s.input with
    | .triple hall sensor t => do
      let s ← get'
      whenM (decide (hall < s.halls.length)) (modHall hall (fun h =>
        let h := { h with temps := if sensor = 0 then (t, h.temps.2) else (h.temps.1, t) }
        { h with ceiling := ceilingAt (hottest h) }))
    | _ => pure ()) s

/-- THERMAL_HOLD (R461): the hall's clock stops. -/
def execThermalHold (s : State) : Host.Outcome State Fault Refusal :=
  runEvent (match s.input with
    | .index hall => do
      let s ← get'
      let h := hallAt s hall
      whenM (decide (105 ≤ hottest h) && !h.held) (do
        modHall hall (fun h => { h with held := true, heldSince := s.timeNs })
        errorRecord 10 0 hall 0 0 2 0 0 0 (h.wing.getD 0) (hottest h))
    | _ => pure ()) s

/-- A region's timers after a hold of some nanoseconds: a hold is neither silence nor a wait (R455, R461). -/
def afterHold (d : Nat) (r : Region) : Region :=
  { r with silence := r.silence + d, seq := { r.seq with waitStart := r.seq.waitStart + d }, snapshot := r.snapshot.map (fun x => { x with start := x.start + d }) }

/-- THERMAL_HOLD_END (R461): both sensors read below 100 °C; the clock resumes at 0.9 GHz. -/
def execThermalHoldEnd (s : State) : Host.Outcome State Fault Refusal :=
  runEvent (match s.input with
    | .index hall => do
      let s ← get'
      let h := hallAt s hall
      whenM (h.held && decide (hottest h < 100)) (do
        modHall hall (fun h => { h with held := false, freq := 900, step := none })
        each (s.regions.filter (fun p => p.2.hall == hall)) (fun p => modRegion p.1 (afterHold (s.timeNs - h.heldSince))))
    | _ => pure ()) s

/-- HBM_THROTTLE (R461): a stack at or above 95 °C. -/
def execHbmThrottle (s : State) : Host.Outcome State Fault Refusal :=
  runEvent (match s.input with
    | .pair stack t => do
      let s ← get'
      if t < 95 ∨ 8 ≤ stack then pure ()
      else do
        modPkg (fun p => { p with stackTemps := p.stackTemps.set stack t })
        whenM (bits s.pkg.throttled stack 1 == 0) (do
          modPkg (fun p => { p with throttled := p.throttled + 2 ^ stack })
          errorRecord 10 0 stack 0 0 2 0 0 0 0 t)
    | _ => pure ()) s

/-- HBM_THROTTLE_END (R30, R461): a stack below 95 °C reports its temperature, and below 90 °C its throttle ends. -/
def execHbmThrottleEnd (s : State) : Host.Outcome State Fault Refusal :=
  runEvent (match s.input with
    | .pair stack t => do
      let s ← get'
      if 95 ≤ t ∨ 8 ≤ stack then pure ()
      else do
        modPkg (fun p => { p with stackTemps := p.stackTemps.set stack t })
        whenM (decide (t < 90) && bits s.pkg.throttled stack 1 == 1) (modPkg (fun p => { p with throttled := p.throttled - 2 ^ stack }))
    | _ => pure ()) s

/-- THERMTRIP (R461): a hall sensor at or above 115 °C, or a stack at or above 105 °C. Its record is written when power returns. -/
def execThermtrip (s : State) : Host.Outcome State Fault Refusal :=
  runEvent (match s.input with
    | .index hall => do
      let s ← get'
      whenM (decide (115 ≤ hottest (hallAt s hall))) (modPkg (fun p => { p with tripped := true, trips := p.trips ++ [hall] }))
    | .pair stack t => whenM (decide (105 ≤ t) && decide (stack < 8)) (modPkg (fun p => { p with tripped := true, trips := p.trips ++ [stack] }))
    | _ => pure ()) s

/-- Thousandths of a cycle in a window of 65,536 cycles, and in 8,192 cycles (R198). -/
def windowLength : Nat := 65536 * 1000
def windowEighth : Nat := 8192 * 1000

/-- The frequency that a window's end asks for (R198): the power over its cap, the back-pressured and the starved cycles. A clock
above its ceiling goes down (R30). -/
def windowFreq (h : Hall) (power : Bool) : Nat :=
  if power ∨ windowEighth < h.pressed ∨ h.ceiling < h.freq then max 900 (h.freq - 100)
  else if windowEighth < h.starved then (if h.freq + 100 ≤ h.ceiling then h.freq + 100 else h.freq)
  else h.freq

/-- A hall's window ends and the next begins. During the step the hall runs at the lower of the two frequencies (R198). -/
def Hall.endWindow (h : Hall) (power : Bool) : Hall :=
  let f := windowFreq h power
  let h' := { h with windowStart := h.cycles, pressed := 0, starved := 0 }
  if h.step.isNone && f != h.freq then { h' with freq := min f h.freq, step := some f } else h'

/-- DVFS_WINDOW_END (R198): the hall has counted 65,536 cycles; the reading is the wing's power over the window, in watts. -/
def execDvfsWindowEnd (s : State) : Host.Outcome State Fault Refusal :=
  runEvent (match s.input with
    | .pair hall watts => do
      let s ← get'
      let h := hallAt s hall
      let above := (h.wing.bind (kget s.wings)).any (fun w => decide (w.wpcap < watts))
      whenM (hallRuns h && decide (windowLength ≤ h.cycles - h.windowStart)) (modHall hall (·.endWindow above))
    | _ => pure ()) s

/-- CLOCK_STEP_END (R198). -/
def execClockStepEnd (s : State) : Host.Outcome State Fault Refusal :=
  runEvent (match s.input with
    | .index hall => do
      let s ← get'
      match (hallAt s hall).step with
      | some f => whenM (hallRuns (hallAt s hall)) (modHall hall (fun h => { h with freq := f, step := none }))
      | none => pure ()
    | _ => pure ()) s

/-! ### Frames (R214, R215, R442) -/

/-- The first frame of the clean pool and the pool without it. -/
def popClean : List (Nat × Nat) → Option (Nat × List (Nat × Nat))
  | [] => none
  | (k, n) :: t => if n = 0 then popClean t else some (k, if n = 1 then t else (k + 1, n - 1) :: t)

/-- The command that has waited longest is served while the pool is not empty. DEDUCED, log 91. -/
def serveFralloc : M Unit := do
  let s ← get'
  match s.pkg.frallocs, popClean s.pkg.frames.clean with
  | (w, _) :: rest, some (k, pool) =>
    modPkg (fun p => { p with frallocs := rest, frames := { p.frames with owners := kset p.frames.owners k w, clean := pool } })
  | _, _ => pure ()

/-- FRALLOC (R214): it joins those that wait, and the first of them is served; without an input a waiting one goes on. -/
def execFralloc (s : State) : Host.Outcome State Fault Refusal :=
  runEvent (match s.input with
    | .index wing => do
      let s ← get'
      if (kget s.wings wing).isNone then pure ()
      else do
        modPkg (fun p => { p with frallocs := p.frallocs ++ [(wing, s.timeNs)] })
        serveFralloc
    | .absent => serveFralloc
    | _ => pure ()) s

/-- FRFREE (R214, R442): a frame marked bad counts as bad, any other is queued for scrub. -/
def execFrfree (s : State) : Host.Outcome State Fault Refusal :=
  runEvent (match s.input with
    | .index k => do
      let s ← get'
      let f := s.pkg.frames
      if (kget f.owners k).isNone then pure ()
      else do
        let f1 : Frames := if f.marked.contains k then { f with owners := kdel f.owners k, marked := f.marked.filter (· != k), bad := addNat f.bad k }
          else { f with owners := kdel f.owners k, queue := f.queue ++ [k] }
        modPkg (fun p => { p with frames := f1 })
    | _ => pure ()) s

/-- FRAME_SCRUB_START (R215): the engines take frames from the head of the queue. -/
def execFrameScrubStart (s : State) : Host.Outcome State Fault Refusal :=
  runEvent (do
    let s ← get'
    match s.pkg.frames.queue with
    | [] => pure ()
    | k :: rest => modPkg (fun p => { p with frames := { p.frames with queue := rest, scrubbing := p.frames.scrubbing ++ [(k, false)] } })) s

/-- FRAME_SCRUB_DONE (R215, R442): every byte is zero; a frame whose verify fails is scrubbed once more, and is then bad. -/
def execFrameScrubDone (s : State) : Host.Outcome State Fault Refusal :=
  runEvent (match s.input with
    | .flagged k failed => do
      let s ← get'
      match s.pkg.frames.scrubbing.find? (·.1 == k) with
      | none => pure ()
      | some x => do
        zeroFrame k 1
        let rest := s.pkg.frames.scrubbing.filter (·.1 != k)
        if !failed then modPkg (fun p => { p with frames := { p.frames with scrubbing := rest, clean := p.frames.clean ++ [(k, 1)] } })
        else if x.2 then modPkg (fun p => { p with frames := { p.frames with scrubbing := rest, bad := addNat p.frames.bad k } })
        else modPkg (fun p => { p with rescrub := true, frames := { p.frames with scrubbing := rest ++ [(k, true)] } })
    | _ => pure ()) s

/-! ### Release (R216) -/

/-- The scrub of one released context, its entry, and the end of its place, or of the image that kept it. The last context of a wing takes
the wing's scratch and cache ways with it. -/
def finishRelease (r : Region) (gone : M Unit) : M Unit := do
  needLog
  scrubContext r.vf r.wing
  gone
  let s ← get'
  whenM (!wingBusy s r.wing) (match kget s.wings r.wing with
    | some w => each (wingHalls w) (fun h => do
        eff (.clear (scratchAddr h 0) vaultBytes)
        modHall h (fun x => { x with cache := [] }))
    | none => pure ())
  logEntry 0x04 r.wing r.vf

/-- CONTEXT_SCRUB_COMPLETE (R216, R458), of a region's place or of the image that kept a parked one. -/
def execContextScrubComplete (s : State) : Host.Outcome State Fault Refusal :=
  runEvent (match s.input with
    | .index rid => withRegion rid (fun r => if r.state = .free ∧ r.releasing then finishRelease r (eff (.region rid none)) else pure ())
    | .pair vf number => do
      let s ← get'
      match imageNo s vf number with
      | some x => whenM x.releasing (finishRelease x.region (modVf vf (fun v => { v with saves := v.saves.filter (·.number != number) })))
      | none => pure ()
    | _ => pure ()) s

/-! ### Annex ports (R445, R446) -/

/-- An outstanding request ends as an uncorrected error with a code. -/
def failReq (q : Req) (code : Nat) : M Unit :=
  match q.op with
  | .posted _ _ | .reply _ _ => pure ()
  | .drain k row _ => do
    dropReq q.number
    drainTrap q k row code 0
  | _ => poisonReq q code

/-- A port is lost: its requests end, clean copies of its lines go, Modified ones are quarantined. -/
def losePort (port : Nat) : M Unit := do
  let s ← get'
  let on := fun (a : Nat) => rangeMt a == some 1 && portOf a == port
  modPkg (fun p => { p with annex := p.annex.modify port (fun x => { x with lost := true, trained := false }) })
  each (List.range s.halls.length) (fun h =>
    whenM ((hallAt s h).cache.any (fun c => on (64 * c.1))) (modHall h (fun x => { x with cache := x.cache.filterMap (fun c =>
      if on (64 * c.1) then (if c.2.mesi = .modified then some (c.1, { c.2 with quarantined := true }) else none) else some c) })))
  each (s.reqs.filter (fun q => q.phase == .issued && q.loc.any on)) (fun q => failReq q 0x44)
  errorRecord 6 5 0 port 0 2 0 0 0 0 0

/-- A port that works. -/
def portUp (s : State) (port : Nat) : Bool := (s.pkg.annex[port]?).any (fun p => p.present && !p.lost)

/-- ANNEX_PORT_LOST (R445). -/
def execAnnexPortLost (s : State) : Host.Outcome State Fault Refusal :=
  runEvent (match s.input with
    | .index port => do
      let s ← get'
      whenM (portUp s port) (losePort port)
    | _ => pure ()) s

/-- ANNEX_REQUEST_TIMEOUT (R445): a request to a port has stayed unanswered for 2 ms. -/
def execAnnexRequestTimeout (s : State) : Host.Outcome State Fault Refusal :=
  runEvent (match s.input with
    | .index number => do
      let s ← get'
      match (s.reqs.find? (fun q => q.number == number && q.phase == .issued)).bind (·.loc) with
      | some a => whenM (rangeMt a == some 1 && portUp s (portOf a)) (losePort (portOf a))
      | none => pure ()
    | _ => pure ()) s

/-- ANNEX_PORT_RETRAIN (R446): new accesses proceed. -/
def execAnnexPortRetrain (s : State) : Host.Outcome State Fault Refusal :=
  runEvent (match s.input with
    | .index port => do
      let s ← get'
      whenM ((s.pkg.annex[port]?).any (fun p => p.present && p.lost))
        (modPkg (fun p => { p with annex := p.annex.modify port (fun x => { x with lost := false, trained := true }) }))
    | _ => pure ()) s

/-- ROUTE_TABLE_ERROR (R439, R454): every port of the hall closes. -/
def execRouteTableError (s : State) : Host.Outcome State Fault Refusal :=
  runEvent (match s.input with
    | .index hall => do
      let s ← get'
      whenM (decide (hall < s.halls.length)) (do
        modHall hall (fun h => { h with portsOpen := false })
        errorRecord 2 0 hall 0 0 2 0 0 0 ((hallAt s hall).wing.getD 0) 0)
    | _ => pure ()) s

end Sys2Proof.Machine
end

