-- ==== Sys2Proof/Machine/EventsHost.lean ====
section
/-! DEFINITION. The host's side (R106, R211 to R213, R249, R250, R435, R453): the functions' registers, GO, resets, the host link
and the host's CXL.mem accesses. -/
namespace Sys2Proof.Machine

/-! ### Reading the registers (R212, R435) -/

/-- The least number of a list's greatest element. -/
def greatest (l : List Nat) : Nat := l.foldl max 0

/-- What the host reads at an offset of a virtual function's BAR0 (R212). -/
def readVfRegister (s : State) (vf offset : Nat) : Nat :=
  let v := vfAt s vf
  match offset with
  | 0x00 => v.mbimg
  | 0x08 => v.mbhdr0.toNat
  | 0x10 => v.mbhdr1.toNat
  | 0x18 => v.mbarg.toNat
  | 0x20 => v.fres * 2 ^ 12 + v.st * 2 ^ 8 + v.ctx * 2 ^ 6 + v.shape * 2 ^ 3
  | 0x30 => if v.tinv.isSome then 1 else 0
  | 0x38 => Config.saveSize
  | _ => 0

/-- Frames in the clean pool. -/
def cleanCount (f : Frames) : Nat := f.clean.foldl (fun n p => n + p.2) 0

/-- What the host reads at an offset of the physical function's BAR0 (R435; offset 0 after a failed boot, R459). -/
def readPfRegister (s : State) (offset : Nat) : Nat :=
  let p := s.pkg
  match offset with
  | 0x00 => p.bootFail
  | 0x100 => cleanCount p.frames * 2 ^ 44 + p.frames.queue.length * 2 ^ 24 + p.frames.bad.length * 2 ^ 4 + (if p.rescrub then 1 else 0)
  | 0x108 => p.errors.base
  | 0x110 => p.errors.producer * 2 ^ 32 + p.errors.consumer
  | 0x118 => (p.registrar.entries.length - p.registrar.acked) * 2 ^ 32 + (if p.registrar.regFail then 1 else 0)
  | 0x120 => greatest (s.halls.map hottest) % 256 * 2 ^ 56 + greatest p.stackTemps % 256 * 2 ^ 48 + p.throttled * 2 ^ 40
  | 0x128 => p.ptmo
  | 0x130 => (s.halls.zipIdx).foldl (fun n q => if q.1.held then n + 2 ^ q.2 else n) 0
  | _ => 0

/-! ### Plain register writes -/

/-- The host port presents a virtual function; after a failed boot it presents none (R459). DEDUCED, log 97. -/
def presents (s : State) (vf : Nat) : Bool := decide (vf < 1024) && s.pkg.bootFail == 0

/-- MBCTL's writable fields (R212). -/
def setMbctl (vf v : Nat) : M Unit := modVf vf (fun x => { x with fres := bits v 12 5, ctx := bits v 6 2, shape := bits v 3 3 })

/-- A virtual function's register written (R212). -/
def writeVfRegister (vf offset v : Nat) : M Unit :=
  match offset with
  | 0x00 => modVf vf (fun x => { x with mbimg := v / 16 * 16 % 2 ^ 57 })
  | 0x08 => modVf vf (fun x => { x with mbhdr0 := BitVec.ofNat 64 v })
  | 0x10 => modVf vf (fun x => { x with mbhdr1 := BitVec.ofNat 64 v })
  | 0x18 => modVf vf (fun x => { x with mbarg := BitVec.ofNat 64 v })
  | 0x20 => if v % 2 = 0 then setMbctl vf v else pure ()
  | _ => pure ()

/-- A register of the physical function written (R435). -/
def writePfRegister (offset v : Nat) : M Unit :=
  match offset with
  | 0x108 => modPkg (fun p => { p with errors := { p.errors with base := v / 64 * 64 } })
  | 0x128 => modPkg (fun p => { p with ptmo := v % 2 ^ 16 })
  | _ => pure ()

/-- A setting of the physical function that has no register number in R435 (DESIGN CHOICE, log 26): the package's number (R223), a route to a
peer by a link, or with 16 none (R224), where the registrar's ring lies in host memory (R222), the root of a function's host stage or of its guest stage, which
its driver sets (R103), an HBM range for HDM-H (R211), whose lines leave every cache. -/
def pfSetting (k a b c : Nat) : M Unit := do
  let s ← get'
  match k with
  | 0 => whenM (decide (a < 1024)) (modPkg (fun p => { p with number := a }))
  | 1 => whenM (decide (a < 1024)) (modPkg (fun p => { p with routes := if b < 16 then kset p.routes a b else kdel p.routes a }))
  | 2 => modPkg (fun p => { p with regBase := a })
  | 3 => modVf a (fun v => { v with hostRoot := b / 4096 * 4096 })
  | 4 => modVf a (fun v => { v with guestRoot := b / 4096 * 4096 })
  | _ =>
    if 8 ≤ a ∨ 0x8000000000 < b + c then pure ()
    else do
      modPkg (fun p => { p with hdm := if c = 0 then kdel p.hdm a else kset p.hdm a (b, c) })
      each (List.range s.halls.length) (fun h => modHall h (fun x => { x with cache := x.cache.filter (fun l => !(decide (b ≤ 64 * l.1) && decide (64 * l.1 < b + c))) }))

/-- REGISTER_WRITE (R212, R435). -/
def execRegisterWrite (s : State) : Host.Outcome State Fault Refusal :=
  runEvent (match s.input with
    | .register (some vf) offset v => do
      let s ← get'
      whenM (presents s vf) (writeVfRegister vf offset v.toNat)
    | .register none offset v => writePfRegister offset v.toNat
    | .quad k a b c => pfSetting k a b c
    | _ => pure ()) s

/-- RESCRUB_CLEAR (R435). -/
def execRescrubClear (s : State) : Host.Outcome State Fault Refusal :=
  runEvent (match s.input with
    | .register none 0x100 v => whenM (v.toNat % 2 == 1) (modPkg (fun p => { p with rescrub := false }))
    | _ => pure ()) s

/-- ERRPTR_CONSUMER_WRITE (R435): the producer index is read-only. -/
def execErrptrConsumerWrite (s : State) : Host.Outcome State Fault Refusal :=
  runEvent (match s.input with
    | .register none 0x110 v => modPkg (fun p => { p with errors := { p.errors with consumer := bits v.toNat 0 32 % 1024 } })
    | _ => pure ()) s

/-! ### Invalidations (R106, R212) -/

/-- An invalidation of an address and size meets the page of a size's exponent that starts at a 64 KiB page: the two ranges are aligned, so
they meet where the smaller lies in the larger. -/
def covers (page size log p : Nat) : Bool :=
  let n := max (log - 16) (match size with | 0 => 0 | 1 => 5 | _ => 14)
  decide (3 ≤ size) || p / 2 ^ n == page / 2 ^ n

/-- TINV (R106, R212): walks in progress that it covers will fill no cache. One that is pending is finished first. -/
def execTinv (s : State) : Host.Outcome State Fault Refusal :=
  runEvent (match s.input with
    | .register (some vf) 0x28 v => do
      let s ← get'
      whenM (presents s vf) (do
        match (vfAt s vf).tinv with
        | some (page, size) => dropTranslations vf (covers page size)
        | none => pure ()
        let page := bits v.toNat 16 41
        let size := bits v.toNat 0 2
        modVf vf (fun x => { x with tinv := some (page, size) })
        staleWalks vf (covers page size))
    | _ => pure ()) s

/-- TRANSLATION_INVALIDATION_DONE (R106): no cache holds a covered entry, and no walk can fill one. -/
def execTranslationInvalidationDone (s : State) : Host.Outcome State Fault Refusal :=
  runEvent (match s.input with
    | .index vf => do
      let s ← get'
      match (vfAt s vf).tinv with
      | some (page, size) => do
        dropTranslations vf (covers page size)
        modVf vf (fun x => { x with tinv := none })
      | none => pure ()
    | _ => pure ()) s

/-! ### GO (R213, R249, R250, R413, R414) -/

/-- The whole of a function's virtual space, as the image's reader sees it. -/
def wholeSpace : Buffer := { scratch := none, base := 0, len := 2 ^ 57, read := true, write := true, atomic := false }

/-- A refusal of GO, with its reason (R414). -/
def goRefused {α : Type} (reason : Nat) : M α := trapCode 0x13 reason

/-- Bytes of the image; an image that cannot be read is malformed (DEDUCED, log 21). -/
def imageBytesAt (hall vf at_ n : Nat) : M (List Byte) := do
  match ← attempt (readBuf hall vf (some wholeSpace) at_ n) with
  | .ok bs => pure bs
  | .error t => if t.code = stallCode then stall else goRefused 12

/-- Bytes `i` to `i + n - 1` of a list, as a number. -/
def leAt (bs : List Byte) (i n : Nat) : Nat := leNat ((bs.drop i).take n)

/-- A header that R249 admits, for the shape that MBCTL gives. -/
def imageHeadOk (bs : List Byte) (shape : Nat) : Bool :=
  leAt bs 0 4 == 0x314C4957 && leAt bs 4 2 == 1 && decide (1 ≤ leAt bs 6 2) && decide (leAt bs 6 2 ≤ 256) && decide (leAt bs 0x18 4 ≤ 256)
    && leAt bs 0x1C 4 == 0 && leAt bs 0x31 1 == shape && aligned shape (leAt bs 0x30 1) && decide (leAt bs 0x32 1 < 8) && leAt bs 0x33 13 == 0

/-- The act blocks of an image. -/
def imageActs (hall vf at_ : Nat) (head : List Byte) : M (List (List Byte)) :=
  collect (List.range (leAt head 6 2)) (fun i => do
    let e ← imageBytesAt hall vf (at_ + leAt head 8 8 + 16 * i) 16
    imageBytesAt hall vf (at_ + leAt e 0 8) (leAt e 8 8))

/-- An entry of the buffer table: the handle, the buffer, and its initial data (R250). It may not map a cast's range (R193). DEDUCED,
log 95. -/
def imageBuffer (o : Home) (at_ : Nat) (head : List Byte) (i : Nat) : M (Nat × Buffer × List Byte) := do
  let e ← imageBytesAt o.hall o.vf (at_ + leAt head 0x10 8 + 32 * i) 32
  let s ← get'
  let imm := leAt e 1 1 * 2 ^ 8 + leAt e 2 1 * 2 ^ 9 + leAt e 3 1 * 2 ^ 12
  if 1 < leAt e 1 1 ∨ 7 < leAt e 2 1 ∨ 63 < leAt e 3 1 then goRefused 12
  else match bufferOf s o imm (leAt e 8 8) (leAt e 16 8) with
  | none => goRefused 12
  | some b =>
    if b.len < leAt e 28 4 ∨ mapsCast s b then goRefused 12
    else do
      let data ← imageBytesAt o.hall o.vf (at_ + leAt e 24 4) (leAt e 28 4)
      pure (leAt e 0 1, b, data)

/-- A buffer's initial data and zeros, then its mapping. DEDUCED, log 95. -/
def fillBuffer (o : Home) (h : Nat) (b : Buffer) (data : List Byte) : M Unit := do
  let bs := data ++ List.replicate (b.len - data.length) 0
  match b.scratch with
  | some x => do
    performBytes o.hall o.vf b.base (scratchAddr x b.base) bs
    each (List.range (b.len / 16)) (fun i => raiseVersions [scratchAddr x b.base + 16 * i])
  | none => do
    let ok ← guestWrite o.hall o.vf b.base bs
    if ok then pure () else goRefused 12
  modHandle o h (fun x => { x with visible := some b })

/-- A region that GO places. -/
def rootRegion (s : State) (o : Home) (v : VFn) (p : Program) (h : BitVec 128) : Region :=
  let r : Region :=
    { hall := o.hall, ctx := o.ctx, shape := p.shape, origin := p.origin, vf := o.vf, wing := o.wing, root := true, parent := none
      fres := max 1 v.fres, state := .idle
      seq := { (Sequencer.zero.put 1 v.mbarg) with act := hdrEntry h }
      header := h, program := p, silence := s.timeNs }
  if hdrThread h then { r with threads := kset r.threads (hdrEntry h) ((List.range (itersFrom h 1)).map (idAt h)) } else r

/-- The region holds a plinth and its sixteen slots (R213). -/
def holdPlinth (rid hall k : Nat) : M Unit := do
  let s ← get'
  let p := plinthAt s hall k
  if !claimOk s rid hall k true (List.range 16) p || !p.zeroing.isEmpty then goRefused 14
  else modPlinth hall k (fun p => { p with
    holder := some rid, cfg := none, rows := [], slots := [], slotHolder := (List.range 16).map (fun v => (v, rid)) })

/-- The root region placed, loaded and launched (R213). Its placement is not Free while a released context of the function is under scrub:
its handles go with that context (R216; DEDUCED, log 95). -/
def goLaunch (o : Home) (v : VFn) : M Unit := do
  let head ← imageBytesAt o.hall o.vf v.mbimg 64
  if !imageHeadOk head v.shape then goRefused 12
  else do
    let acts ← imageActs o.hall o.vf v.mbimg head
    let p : Program := { acts := acts, origin := leAt head 0x30 1, shape := v.shape, plinths := leAt head 0x32 1 }
    let h := BitVec.ofNat 128 (leAt head 0x20 16)
    let s ← get'
    if !placementFree s o.vf o.hall o.ctx p.shape p.origin || !reservationFits s o.vf o.hall o.ctx p.shape p.origin (max 1 v.fres) || 16 < v.fres
        || s.regions.any (fun q => q.2.vf == o.vf && q.2.releasing) then goRefused 14
    else if !hdrOk h || hdrCtx h != o.ctx || !actOk p (hdrEntry h) then goRefused 10
    else do
      let rid := ridOf o.hall o.ctx p.origin
      clearPlace o.vf o.hall o.ctx p.shape p.origin
      eff (.region rid (some (rootRegion s o v p h)))
      each ((List.range 3).filter (fun k => bits p.plinths k 1 == 1)) (holdPlinth rid o.hall)
      let bufs ← collect (List.range (leAt head 0x18 4)) (imageBuffer o v.mbimg head)
      each bufs (fun b => fillBuffer o b.1 b.2.1 b.2.2)
      startLoad rid (hdrEntry h)
      modVf o.vf (fun x => { x with st := 1 })
      modWing o.wing (fun w => if w.inService.isSome then w else { w with inService := some o.vf, sliceStart := s.timeNs, sliceCycles := (hallAt s o.hall).cycles })

/-- The identifier that a record of a refused launch carries: of the place that MBCTL and the image's ORIGIN name. -/
def refusedIdent (o : Home) (v : VFn) : M Nat := do
  match ← attempt (imageBytesAt o.hall o.vf v.mbimg 64) with
  | .ok head => pure (2 ^ 63 + o.hall * 2 ^ 48 + o.ctx * 2 ^ 40 + v.shape * 2 ^ 32 + leAt head 0x30 1 % 64)
  | .error _ => pure (2 ^ 63 + o.hall * 2 ^ 48 + o.ctx * 2 ^ 40 + v.shape * 2 ^ 32)

/-- GO (R213, R413): a refused launch leaves nothing but ST 4 and a record of KIND 5. -/
def goWrite (vf v : Nat) : M Unit := do
  setMbctl vf v
  let s ← get'
  let x := vfAt s vf
  match x.wing.bind (kget s.wings) with
  | none => do
    setST vf 4
    recordFor vf 5 0 0 0 { code := 0x13, operand := 14, seq := true } 14
  | some w => do
    let o : Home := { hall := wingHome w, vf := vf, ctx := x.ctx, wing := x.wing.getD 0 }
    match ← attempt (goLaunch o x) with
    | .ok _ => pure ()
    | .error t =>
      if t.code = stallCode then stall
      else do
        let ident ← refusedIdent o x
        setST vf 4
        recordFor vf 5 o.hall ident 0 { t with seq := true } (t.operand % 256)

/-- GO: ignored while the function's ST is 1 or 2. -/
def execGo (s : State) : Host.Outcome State Fault Refusal :=
  runEvent (match s.input with
    | .register (some vf) 0x20 v => do
      let s ← get'
      let st := (vfAt s vf).st
      if presents s vf ∧ v.toNat % 2 = 1 ∧ st ≠ 1 ∧ st ≠ 2 then goWrite vf v.toNat else pure ()
    | _ => pure ()) s

/-! ### The host link (R453) -/

/-- An issued request to the host window. -/
def hostRequest (q : Req) : Bool := q.phase == .issued && q.loc.any (fun a => rangeMt a == some 2)

/-- HOST_LINK_ERROR: outstanding host-window requests end with HOSTLK. -/
def execHostLinkError (s : State) : Host.Outcome State Fault Refusal :=
  runEvent (do
    let s ← get'
    whenM s.pkg.hostUp (do
      modPkg (fun p => { p with hostUp := false })
      each (s.reqs.filter hostRequest) (fun q => failReq q 0x45)
      errorRecord 8 0 0 0 0 2 0 0 0 0 0)) s

/-- HOST_COMPLETION_TIMEOUT: one request has had no completion for 50 ms. -/
def execHostCompletionTimeout (s : State) : Host.Outcome State Fault Refusal :=
  runEvent (match s.input with
    | .index number => do
      let s ← get'
      match s.reqs.find? (fun q => q.number == number && hostRequest q) with
      | some q => do
        failReq q 0x45
        errorRecord 8 0 0 0 0 2 0 (q.loc.getD 0) 0 0 0
      | none => pure ()
    | _ => pure ()) s

/-- HOST_LINK_UP: the messages and error records that waited leave in order. -/
def execHostLinkUp (s : State) : Host.Outcome State Fault Refusal :=
  runEvent (do
    let s ← get'
    whenM (!s.pkg.hostUp) (do
      modPkg (fun p => { p with hostUp := true, msi := p.msi ++ p.msiWaiting, msiWaiting := [], errors := { p.errors with waiting := [] } })
      each s.pkg.errors.waiting pushError)) s

/-! ### Resets (R453) -/

/-- FUNCTION_LEVEL_RESET: its contexts are released, MBCTL is 0 and its fault ring is discarded. -/
def execFunctionLevelReset (s : State) : Host.Outcome State Fault Refusal :=
  runEvent (match s.input with
    | .index vf => do
      let s ← get'
      whenM (presents s vf) (do
      releaseVf vf
      modVf vf (fun v => { v with st := 0, ctx := 0, shape := 0, fres := 0, faultSeq := 0 }))
    | _ => pure ()) s

/-- A wing released with every context in it. -/
def releaseWing (k : Nat) (w : Wing) : M Unit := do
  needLog
  let s ← get'
  each (s.regions.filter (fun p => p.2.wing == k && p.2.state != .free)) (fun p => endRegion p.1)
  let s ← get'
  each (s.regions.filter (fun p => p.2.wing == k)) (fun p => finishRelease p.2 (eff (.region p.1 none)))
  each s.vfs (fun p => each (p.2.saves.filter (fun x => x.parked && x.region.wing == k)) (fun x => do
    let gone := modVf p.1 (fun v => { v with saves := v.saves.filter (·.number != x.number) })
    if x.region.root then finishRelease x.region gone else gone))
  modPkg (fun p => { p with engines := p.engines.filter (fun e => (vfAt s e.vf).wing != some k) })
  dropWing k w

/-- PF_RESET: every wing is released; it waits while no registrar entry can be written (R458). -/
def execPfReset (s : State) : Host.Outcome State Fault Refusal :=
  runEvent (do
    let s ← get'
    each s.wings (fun p => releaseWing p.1 p.2)) s

/-! ### CXL.mem of the host port (R211) -/

/-- HOST_CXL_MEM_ACCESS: a range that is exposed; no vault way holds its lines. A line that a commit has pinned is waited for. -/
def execHostCxlMemAccess (s : State) : Host.Outcome State Fault Refusal :=
  runEvent (match s.input with
    | .cxl addr (some bs) => do
      let s ← get'
      let inside := s.pkg.hdm.any (fun p => decide (p.2.1 ≤ addr) && decide (addr + bs.length ≤ p.2.1 + p.2.2))
      whenM (s.pkg.hostUp && inside && !(linesOf addr bs.length).any (fun x => pinnedByOther s x none)) (do
        putBytes addr bs
        each ((linesOf addr bs.length).filter (fun l => decide (addr ≤ l) && decide (l + 64 ≤ addr + bs.length) && s.marks.contains l)) (fun l => eff (.mark l false))
        each (granulesOf addr bs.length) (fun g => raiseVersions [max addr (16 * g)]))
    | _ => pure ()) s

end Sys2Proof.Machine
end

