-- ==== Sys2Proof/Machine/Float.lean ====
section
/-! DEFINITION. Floating-point node and sequence records (R271 to R274). -/
namespace Sys2Proof.Machine

/-- FADD (R271, R272, R274). -/
def execFadd (f : NodeRec) (s : State) : Host.Outcome State Fault Refusal := runNode (pureNode f (faddOp f.ty)) s
/-- FADD in a sequence (R271, R272, R274). -/
def execFaddQ (s : State) : Host.Outcome State Fault Refusal := runSeq (pureSeq (fun f => faddOp f.ty)) s

/-- FSUB (R271, R272, R274). -/
def execFsub (f : NodeRec) (s : State) : Host.Outcome State Fault Refusal := runNode (pureNode f (fsubOp f.ty)) s
/-- FSUB in a sequence (R271, R272, R274). -/
def execFsubQ (s : State) : Host.Outcome State Fault Refusal := runSeq (pureSeq (fun f => fsubOp f.ty)) s

/-- FMUL (R271, R272, R274). -/
def execFmul (f : NodeRec) (s : State) : Host.Outcome State Fault Refusal := runNode (pureNode f (fmulOp f.ty)) s
/-- FMUL in a sequence (R271, R272, R274). -/
def execFmulQ (s : State) : Host.Outcome State Fault Refusal := runSeq (pureSeq (fun f => fmulOp f.ty)) s

/-- FFMA (R271, R272, R274). -/
def execFfma (f : NodeRec) (s : State) : Host.Outcome State Fault Refusal := runNode (pureNode f (ffmaOp f.ty)) s
/-- FFMA in a sequence (R271, R272, R274). -/
def execFfmaQ (s : State) : Host.Outcome State Fault Refusal := runSeq (pureSeq (fun f => ffmaOp f.ty)) s

/-- FMIN (R271, R272, R274). -/
def execFmin (f : NodeRec) (s : State) : Host.Outcome State Fault Refusal := runNode (pureNode f (fminOp f.ty)) s
/-- FMIN in a sequence (R271, R272, R274). -/
def execFminQ (s : State) : Host.Outcome State Fault Refusal := runSeq (pureSeq (fun f => fminOp f.ty)) s

/-- FMAX (R271, R272, R274). -/
def execFmax (f : NodeRec) (s : State) : Host.Outcome State Fault Refusal := runNode (pureNode f (fmaxOp f.ty)) s
/-- FMAX in a sequence (R271, R272, R274). -/
def execFmaxQ (s : State) : Host.Outcome State Fault Refusal := runSeq (pureSeq (fun f => fmaxOp f.ty)) s

/-- FABS (R271, R272, R274). -/
def execFabs (f : NodeRec) (s : State) : Host.Outcome State Fault Refusal := runNode (pureNode f (fabsOp f.ty)) s
/-- FABS in a sequence (R271, R272, R274). -/
def execFabsQ (s : State) : Host.Outcome State Fault Refusal := runSeq (pureSeq (fun f => fabsOp f.ty)) s

/-- FNEG (R271, R272, R274). -/
def execFneg (f : NodeRec) (s : State) : Host.Outcome State Fault Refusal := runNode (pureNode f (fnegOp f.ty)) s
/-- FNEG in a sequence (R271, R272, R274). -/
def execFnegQ (s : State) : Host.Outcome State Fault Refusal := runSeq (pureSeq (fun f => fnegOp f.ty)) s

/-- FCMP (R271, R272, R274). -/
def execFcmp (f : NodeRec) (s : State) : Host.Outcome State Fault Refusal := runNode (pureNode f (fcmpOp f.ty)) s
/-- FCMP in a sequence (R271, R272, R274). -/
def execFcmpQ (s : State) : Host.Outcome State Fault Refusal := runSeq (pureSeq (fun f => fcmpOp f.ty)) s

/-- FRND (R271, R272, R274). -/
def execFrnd (f : NodeRec) (s : State) : Host.Outcome State Fault Refusal := runNode (pureNode f (frndOp f.ty)) s
/-- FRND in a sequence (R271, R272, R274). -/
def execFrndQ (s : State) : Host.Outcome State Fault Refusal := runSeq (pureSeq (fun f => frndOp f.ty)) s

/-- FSCALE (R271, R272, R274). -/
def execFscale (f : NodeRec) (s : State) : Host.Outcome State Fault Refusal := runNode (pureNode f (fscaleOp f.ty)) s
/-- FSCALE in a sequence (R271, R272, R274). -/
def execFscaleQ (s : State) : Host.Outcome State Fault Refusal := runSeq (pureSeq (fun f => fscaleOp f.ty)) s

/-- FCLASS (R271, R272, R274). -/
def execFclass (f : NodeRec) (s : State) : Host.Outcome State Fault Refusal := runNode (pureNode f (fclassOp f.ty)) s
/-- FCLASS in a sequence (R271, R272, R274). -/
def execFclassQ (s : State) : Host.Outcome State Fault Refusal := runSeq (pureSeq (fun f => fclassOp f.ty)) s

/-- FCVT: the source type is ex[3:0] (R273). -/
def execFcvt (f : NodeRec) (s : State) : Host.Outcome State Fault Refusal :=
  runNode (pureNode f (fcvtOp (tyOfCode (f.ex.toNat % 16)) f.ty)) s
/-- FCVT in a sequence: the source type is im[3:0] (R273). -/
def execFcvtQ (s : State) : Host.Outcome State Fault Refusal :=
  runSeq (pureSeq (fun f => fcvtOp (tyOfCode (f.im.toNat % 16)) f.ty)) s

/-- ITOF: the source type is ex[3:0] (R273). -/
def execItof (f : NodeRec) (s : State) : Host.Outcome State Fault Refusal :=
  runNode (pureNode f (itofOp (tyOfCode (f.ex.toNat % 16)) f.ty)) s
/-- ITOF in a sequence: the source type is im[3:0] (R273). -/
def execItofQ (s : State) : Host.Outcome State Fault Refusal :=
  runSeq (pureSeq (fun f => itofOp (tyOfCode (f.im.toNat % 16)) f.ty)) s

/-- FTOI: the source type is ex[3:0] (R273). -/
def execFtoi (f : NodeRec) (s : State) : Host.Outcome State Fault Refusal :=
  runNode (pureNode f (ftoiOp (tyOfCode (f.ex.toNat % 16)) f.ty)) s
/-- FTOI in a sequence: the source type is im[3:0] (R273). -/
def execFtoiQ (s : State) : Host.Outcome State Fault Refusal :=
  runSeq (pureSeq (fun f => ftoiOp (tyOfCode (f.im.toNat % 16)) f.ty)) s

end Sys2Proof.Machine
end

