-- ==== Sys2Proof/Machine/Integer.lean ====
section
/-! DEFINITION. Integer arithmetic, bits and shifts, comparison: node and sequence records (R263 to R269). -/
namespace Sys2Proof.Machine

/-- ADD (R263 to R265). -/
def execAdd (f : NodeRec) (s : State) : Host.Outcome State Fault Refusal := runNode (pureNode f (addOp f.ty)) s
/-- ADD in a sequence (R263 to R265). -/
def execAddQ (s : State) : Host.Outcome State Fault Refusal := runSeq (pureSeq (fun f => addOp f.ty)) s

/-- SUB (R263 to R265). -/
def execSub (f : NodeRec) (s : State) : Host.Outcome State Fault Refusal := runNode (pureNode f (subOp f.ty)) s
/-- SUB in a sequence (R263 to R265). -/
def execSubQ (s : State) : Host.Outcome State Fault Refusal := runSeq (pureSeq (fun f => subOp f.ty)) s

/-- MUL (R263 to R265). -/
def execMul (f : NodeRec) (s : State) : Host.Outcome State Fault Refusal := runNode (pureNode f (mulOp f.ty)) s
/-- MUL in a sequence (R263 to R265). -/
def execMulQ (s : State) : Host.Outcome State Fault Refusal := runSeq (pureSeq (fun f => mulOp f.ty)) s

/-- MULH (R263 to R265). -/
def execMulh (f : NodeRec) (s : State) : Host.Outcome State Fault Refusal := runNode (pureNode f (mulhOp f.ty)) s
/-- MULH in a sequence (R263 to R265). -/
def execMulhQ (s : State) : Host.Outcome State Fault Refusal := runSeq (pureSeq (fun f => mulhOp f.ty)) s

/-- MAD (R263 to R265). -/
def execMad (f : NodeRec) (s : State) : Host.Outcome State Fault Refusal := runNode (pureNode f (madOp f.ty)) s
/-- MAD in a sequence (R263 to R265). -/
def execMadQ (s : State) : Host.Outcome State Fault Refusal := runSeq (pureSeq (fun f => madOp f.ty)) s

/-- DIV (R263 to R265). -/
def execDiv (f : NodeRec) (s : State) : Host.Outcome State Fault Refusal := runNode (pureNode f (divOp f.ty)) s
/-- DIV in a sequence (R263 to R265). -/
def execDivQ (s : State) : Host.Outcome State Fault Refusal := runSeq (pureSeq (fun f => divOp f.ty)) s

/-- REM (R263 to R265). -/
def execRem (f : NodeRec) (s : State) : Host.Outcome State Fault Refusal := runNode (pureNode f (remOp f.ty)) s
/-- REM in a sequence (R263 to R265). -/
def execRemQ (s : State) : Host.Outcome State Fault Refusal := runSeq (pureSeq (fun f => remOp f.ty)) s

/-- MIN (R263 to R265). -/
def execMin (f : NodeRec) (s : State) : Host.Outcome State Fault Refusal := runNode (pureNode f (minOp f.ty)) s
/-- MIN in a sequence (R263 to R265). -/
def execMinQ (s : State) : Host.Outcome State Fault Refusal := runSeq (pureSeq (fun f => minOp f.ty)) s

/-- MAX (R263 to R265). -/
def execMax (f : NodeRec) (s : State) : Host.Outcome State Fault Refusal := runNode (pureNode f (maxOp f.ty)) s
/-- MAX in a sequence (R263 to R265). -/
def execMaxQ (s : State) : Host.Outcome State Fault Refusal := runSeq (pureSeq (fun f => maxOp f.ty)) s

/-- ABS (R263 to R265). -/
def execAbs (f : NodeRec) (s : State) : Host.Outcome State Fault Refusal := runNode (pureNode f (absOp f.ty)) s
/-- ABS in a sequence (R263 to R265). -/
def execAbsQ (s : State) : Host.Outcome State Fault Refusal := runSeq (pureSeq (fun f => absOp f.ty)) s

/-- NEG (R263 to R265). -/
def execNeg (f : NodeRec) (s : State) : Host.Outcome State Fault Refusal := runNode (pureNode f (negOp f.ty)) s
/-- NEG in a sequence (R263 to R265). -/
def execNegQ (s : State) : Host.Outcome State Fault Refusal := runSeq (pureSeq (fun f => negOp f.ty)) s

/-- AND (R266, R267). -/
def execAnd (f : NodeRec) (s : State) : Host.Outcome State Fault Refusal := runNode (pureNode f (andOp f.ty)) s
/-- AND in a sequence (R266, R267). -/
def execAndQ (s : State) : Host.Outcome State Fault Refusal := runSeq (pureSeq (fun f => andOp f.ty)) s

/-- OR (R266, R267). -/
def execOr (f : NodeRec) (s : State) : Host.Outcome State Fault Refusal := runNode (pureNode f (orOp f.ty)) s
/-- OR in a sequence (R266, R267). -/
def execOrQ (s : State) : Host.Outcome State Fault Refusal := runSeq (pureSeq (fun f => orOp f.ty)) s

/-- XOR (R266, R267). -/
def execXor (f : NodeRec) (s : State) : Host.Outcome State Fault Refusal := runNode (pureNode f (xorOp f.ty)) s
/-- XOR in a sequence (R266, R267). -/
def execXorQ (s : State) : Host.Outcome State Fault Refusal := runSeq (pureSeq (fun f => xorOp f.ty)) s

/-- NOT (R266, R267). -/
def execNot (f : NodeRec) (s : State) : Host.Outcome State Fault Refusal := runNode (pureNode f (notOp f.ty)) s
/-- NOT in a sequence (R266, R267). -/
def execNotQ (s : State) : Host.Outcome State Fault Refusal := runSeq (pureSeq (fun f => notOp f.ty)) s

/-- SHL (R266, R267). -/
def execShl (f : NodeRec) (s : State) : Host.Outcome State Fault Refusal := runNode (pureNode f (shlOp f.ty)) s
/-- SHL in a sequence (R266, R267). -/
def execShlQ (s : State) : Host.Outcome State Fault Refusal := runSeq (pureSeq (fun f => shlOp f.ty)) s

/-- SHR (R266, R267). -/
def execShr (f : NodeRec) (s : State) : Host.Outcome State Fault Refusal := runNode (pureNode f (shrOp f.ty)) s
/-- SHR in a sequence (R266, R267). -/
def execShrQ (s : State) : Host.Outcome State Fault Refusal := runSeq (pureSeq (fun f => shrOp f.ty)) s

/-- SAR (R266, R267). -/
def execSar (f : NodeRec) (s : State) : Host.Outcome State Fault Refusal := runNode (pureNode f (sarOp f.ty)) s
/-- SAR in a sequence (R266, R267). -/
def execSarQ (s : State) : Host.Outcome State Fault Refusal := runSeq (pureSeq (fun f => sarOp f.ty)) s

/-- ROTL (R266, R267). -/
def execRotl (f : NodeRec) (s : State) : Host.Outcome State Fault Refusal := runNode (pureNode f (rotlOp f.ty)) s
/-- ROTL in a sequence (R266, R267). -/
def execRotlQ (s : State) : Host.Outcome State Fault Refusal := runSeq (pureSeq (fun f => rotlOp f.ty)) s

/-- CLZ (R266, R267). -/
def execClz (f : NodeRec) (s : State) : Host.Outcome State Fault Refusal := runNode (pureNode f (clzOp f.ty)) s
/-- CLZ in a sequence (R266, R267). -/
def execClzQ (s : State) : Host.Outcome State Fault Refusal := runSeq (pureSeq (fun f => clzOp f.ty)) s

/-- POPC (R266, R267). -/
def execPopc (f : NodeRec) (s : State) : Host.Outcome State Fault Refusal := runNode (pureNode f (popcOp f.ty)) s
/-- POPC in a sequence (R266, R267). -/
def execPopcQ (s : State) : Host.Outcome State Fault Refusal := runSeq (pureSeq (fun f => popcOp f.ty)) s

/-- CMP (R236, R269). -/
def execCmp (f : NodeRec) (s : State) : Host.Outcome State Fault Refusal := runNode (pureNode f (cmpOp f.ty)) s
/-- CMP in a sequence (R236, R269). -/
def execCmpQ (s : State) : Host.Outcome State Fault Refusal := runSeq (pureSeq (fun f => cmpOp f.ty)) s

/-- BFX: a control word outside R268 is ILLOP (R431). -/
def execBfx (f : NodeRec) (s : State) : Host.Outcome State Fault Refusal :=
  runNode (valueNode f (fun md l =>
    if bfOk f.ty (opv f l 1) then (both l (bfxOp f.ty md (opv f l)).1, {}) else (.trap 0x12 (opv f l 0).toNat 0, {}))) s
/-- BFX in a sequence (R268, R431). -/
def execBfxQ (s : State) : Host.Outcome State Fault Refusal :=
  runSeq (seqRow (fun _ _ _ f v =>
    if bfOk f.ty (v f.qb) then { value := (bfxOp f.ty 0 (fun p => if p = 0 then v f.qa else v f.qb)).1 } else { fault := some 0x12 })) s
/-- BFI (R268, R431). -/
def execBfi (f : NodeRec) (s : State) : Host.Outcome State Fault Refusal :=
  runNode (valueNode f (fun md l =>
    if bfOk f.ty (opv f l 2) then (both l (bfiOp f.ty md (opv f l)).1, {}) else (.trap 0x12 (opv f l 0).toNat 0, {}))) s
/-- BFI in a sequence (R268, R431). -/
def execBfiQ (s : State) : Host.Outcome State Fault Refusal :=
  runSeq (seqRow (fun _ _ _ f v =>
    if bfOk f.ty (v f.qc) then { value := (bfiOp f.ty 0 (fun p => if p = 0 then v f.qa else if p = 1 then v f.qb else v f.qc)).1 }
    else { fault := some 0x12 })) s

end Sys2Proof.Machine
end

