-- ==== Sys2Proof/Machine/MemNodes.lean ====
section
/-! DEFINITION. The memory nodes LD, ST, LDFE, STFE, AMO, CAS and FENCE (R289 to R295). -/
namespace Sys2Proof.Machine

/-- A lane starts an access and emits nothing yet; its tokens leave when the access is served (R130). -/
def accessLane (i : Issue) (f : NodeRec) (l : Lane) (k : AccessKind) : M LaneOut := do
  match ← startAccess i f l k with
  | .error o => pure o
  | .ok _ => pure (.emit none none)

/-- The bytes that a store writes: the low bytes of op1, or its packet (R291); none for a header that R416 does
not admit. -/
def storeData (f : NodeRec) (l : Lane) : Option (List Byte) :=
  if f.ty = .tile then
    let p := (operand f l 1).packet
    if (pktHdr p).ok then some p else none
  else some (bytesOfNat (tyBytes f.ty) (opv f l 1).toNat)

/-- The alignment of an access (R101). -/
def accessAlign (f : NodeRec) : Nat := if f.ty = .tile then 16 else tyBytes f.ty

/-- LD (R290). -/
def execLd (f : NodeRec) (s : State) : Host.Outcome State Fault Refusal :=
  runNode (lanesM f .access (fun i _ l => accessLane i f l
    { op := .load, right := .read, len := if f.ty = .tile then 8 else tyBytes f.ty, align := accessAlign f, byHeader := f.ty == .tile })) s

/-- ST (R291): it enters the store hold in this step when its address is known, no earlier lane of its issue waits (R261) and there is a
place. -/
def execSt (f : NodeRec) (s : State) : Host.Outcome State Fault Refusal :=
  runNode (lanesM f .access (fun i _ l => do
    match storeData f l with
    | none => pure (.trap 0x22 (opv f l 0).toNat 0)
    | some d =>
      match ← startAccess i f l { op := .store d, right := .write, len := d.length, align := accessAlign f } with
      | .error o => pure o
      | .ok q => do
        let s ← get'
        whenM (q.phase == .issued) (if behindLane s q then putReq { q with phase := behindPhase s q } else serveStore q d)
        pure (.emit none none))) s

/-- LDFE (R292). -/
def loadFE (take : Bool) (f : NodeRec) : M Unit :=
  lanesM f .access (fun i _ l => accessLane i f l
    { op := .loadFE take, right := .read, len := if f.ty = .tile then 8 else tyBytes f.ty, align := accessAlign f, scratchOnly := true
      byHeader := f.ty == .tile })

/-- LDFE.TAKE (R292). -/
def execLdfeTake (f : NodeRec) (s : State) : Host.Outcome State Fault Refusal := runNode (loadFE true f) s
/-- LDFE.PEEK (R292). -/
def execLdfePeek (f : NodeRec) (s : State) : Host.Outcome State Fault Refusal := runNode (loadFE false f) s

/-- STFE (R292). -/
def storeFE (beyond : Bool) (f : NodeRec) : M Unit :=
  lanesM f .access (fun i _ l => do
    match storeData f l with
    | none => pure (.trap 0x22 (opv f l 0).toNat 0)
    | some d => accessLane i f l { op := .storeFE beyond d, right := .write, len := d.length, align := accessAlign f, scratchOnly := true })

/-- STFE (R292). -/
def execStfe (f : NodeRec) (s : State) : Host.Outcome State Fault Refusal := runNode (storeFE false f) s
/-- STFE.OVW (R292). -/
def execStfeOvw (f : NodeRec) (s : State) : Host.Outcome State Fault Refusal := runNode (storeFE true f) s

/-- An AMO of the operation `op` (R293). -/
def amoNode (op : Nat) (f : NodeRec) : M Unit :=
  lanesM f .access (fun i _ l => accessLane i f l
    { op := .amo op (opv f l 1) (mdOf i f), right := .atomic, len := 4, align := 4 })

/-- AMO.ADD (R293). -/
def execAmoAdd (f : NodeRec) (s : State) : Host.Outcome State Fault Refusal := runNode (amoNode 0 f) s
/-- AMO.AND (R293). -/
def execAmoAnd (f : NodeRec) (s : State) : Host.Outcome State Fault Refusal := runNode (amoNode 1 f) s
/-- AMO.OR (R293). -/
def execAmoOr (f : NodeRec) (s : State) : Host.Outcome State Fault Refusal := runNode (amoNode 2 f) s
/-- AMO.XOR (R293). -/
def execAmoXor (f : NodeRec) (s : State) : Host.Outcome State Fault Refusal := runNode (amoNode 3 f) s
/-- AMO.MIN (R293). -/
def execAmoMin (f : NodeRec) (s : State) : Host.Outcome State Fault Refusal := runNode (amoNode 4 f) s
/-- AMO.MAX (R293). -/
def execAmoMax (f : NodeRec) (s : State) : Host.Outcome State Fault Refusal := runNode (amoNode 5 f) s
/-- AMO.SWAP (R293). -/
def execAmoSwap (f : NodeRec) (s : State) : Host.Outcome State Fault Refusal := runNode (amoNode 6 f) s
/-- AMO.FADD (R293). -/
def execAmoFadd (f : NodeRec) (s : State) : Host.Outcome State Fault Refusal := runNode (amoNode 7 f) s

/-- CAS (R294). -/
def execCas (f : NodeRec) (s : State) : Host.Outcome State Fault Refusal :=
  runNode (lanesM f .access (fun i _ l => accessLane i f l
    { op := .cas (opv f l 1) (opv f l 2), right := .atomic, len := 4, align := 4 })) s

/-- FENCE (R295): its wait is a request that ends as R135 says. -/
def execFence (f : NodeRec) (s : State) : Host.Outcome State Fault Refusal :=
  runNode (lanesM f .access (fun i r l => do
    let n ← fresh
    addReq { rid := i.rid, cell := i.cell, node := i.node, lane := l, wid := boundId r l.tag, op := .fence (f.ax.toNat % 8), ty := .untyped
             da := f.da, db := f.db, va := 0, loc := none, len := 0, phase := .fenced, number := n, retry := i.retry }
    pure (.emit none none))) s

end Sys2Proof.Machine
end

