-- ==== Sys2Proof/Machine/NameNodes.lean ====
section
/-! DEFINITION. The name nodes NRD, NWR and NPROBE (R74, R81 to R88, R296, R425, R426). -/
namespace Sys2Proof.Machine

/-- The identifier a name node forms from its tag, level and distance (R74); none when a field leaves its
extent. -/
def nameOf (r : Region) (f : NodeRec) (tag : Nat) : Option Nat :=
  let id := (boundId r tag).getD 0
  let lv := f.ax.toNat % 8
  if lv = 0 then some id
  else
    let x : Int := (hdrField r.header id lv : Nat) - f.lit.toInt
    if 0 ≤ x ∧ x < (hdrExtent r.header lv : Nat) then
      some (id - hdrField r.header id lv * 2 ^ hdrShift r.header lv + x.toNat * 2 ^ hdrShift r.header lv)
    else none

/-- The statement a name node names (R74). -/
def stmtOf (f : NodeRec) : Nat := f.ex.toNat % 4096

/-- A name and its fold, or the lane's trap: NRANGE, NFOLD (R426). -/
def findName (s : State) (r : Region) (f : NodeRec) (l : Lane) : Except LaneOut (Nat × Fold) :=
  match nameOf r f l.tag with
  | none => .error (.trap 0x29 (stmtOf f) 0)
  | some n =>
    match kget (hallAt s r.hall).folds (foldKey r.ctx (stmtOf f)) with
    | none => .error (.trap 0x2B (stmtOf f) 0 n 0)
    | some x => .ok (n, x)

/-- The request of a lane. -/
def nameReq (s : State) (i : Issue) (r : Region) (f : NodeRec) (l : Lane) (name : Nat) (take write : Bool) (uses : Nat) (data : List Byte) : NameReq :=
  { rid := i.rid, cell := i.cell, node := i.node, lane := l, stmt := stmtOf f, name := name, take := take, write := write
    inv := tagInv s r i.rid l.tag, ty := f.ty, uses := uses, data := data, word := (opv f l 0).toNat, da := f.da, db := f.db
    retry := i.retry }

/-- NRD (R81, R82). -/
def readName (take : Bool) (f : NodeRec) : M Unit :=
  lanesM f .access (fun i r l => do
    let s ← get'
    match findName s r f l with
    | .error o => pure o
    | .ok (n, _) => do
      presentName (nameReq s i r f l n take false 0 [])
      pure (.emit none none))

/-- NRD.TAKE (R82). -/
def execNrdTake (f : NodeRec) (s : State) : Host.Outcome State Fault Refusal := runNode (readName true f) s
/-- NRD.PEEK (R82). -/
def execNrdPeek (f : NodeRec) (s : State) : Host.Outcome State Fault Refusal := runNode (readName false f) s

/-- The use count that port 1 gives, or the fold's (R83). -/
def useCount (l : Lane) (x : Fold) : Nat := match kget l.ops 1 with | some t => t.value.toNat | none => x.lattice.uses

/-- NWR (R83, R426). -/
def execNwr (f : NodeRec) (s : State) : Host.Outcome State Fault Refusal :=
  runNode (lanesM f .access (fun i r l => do
    let s ← get'
    match findName s r f l with
    | .error o => pure o
    | .ok (n, x) =>
      let u := useCount l x
      let p := (operand f l 0).packet
      if x.check ≠ .accepted then pure (.trap 0x2A (stmtOf f) 0 n 0)
      else if u = 0 ∨ 65535 < u then pure (.trap 0x2E (stmtOf f) 0 n 0)
      else if f.ty = .tile ∧ (¬(pktHdr p).ok ∨ x.lattice.size < p.length) then pure (.trap 0x22 (opv f l 0).toNat 0)
      else do
        presentName (nameReq s i r f l n false true u (if f.ty = .tile then p else bytesOfNat 4 (opv f l 0).toNat))
        pure (.emit none none))) s

/-- NPROBE's code and use count (R88). -/
def probeValue (n : Nat) (inv : Option Nat) (sl : FoldSlot) : Nat :=
  match sl.state with
  | .empty => 0
  | .moving => 3
  | st =>
    if sl.iv < n then 0
    else if n < sl.iv then 2
    else if st = .full ∨ inv = some sl.inv then 1 + sl.uses * 65536 else 3

/-- NPROBE (R88). -/
def execNprobe (f : NodeRec) (s : State) : Host.Outcome State Fault Refusal :=
  runNode (lanesM f .access (fun i r l => do
    let s ← get'
    match findName s r f l with
    | .error o => pure o
    | .ok (n, x) =>
      let sl := kgetD x.slots (slotIndex x.lattice (fieldsOf r.header n)) emptySlot
      pure (both l (BitVec.ofNat 32 (if x.gate.isSome then 3 else probeValue n (tagInv s r i.rid l.tag) sl))))) s

end Sys2Proof.Machine
end

