-- ==== Sys2Proof/Machine/Dispatch.lean ====
section
/-! DEFINITION. The meaning of each constructor: one direct call per arm. -/
namespace Sys2Proof.Machine

/-- What an instruction or a device step does. -/
def exec (i : Instr) (s : State) : Host.Outcome State Fault Refusal :=
  match i with
  | .pass f => Sys2Proof.Machine.execPass f s
  | .const f => Sys2Proof.Machine.execConst f s
  | .sink f => Sys2Proof.Machine.execSink f s
  | .join f => Sys2Proof.Machine.execJoin f s
  | .add f => Sys2Proof.Machine.execAdd f s
  | .sub f => Sys2Proof.Machine.execSub f s
  | .mul f => Sys2Proof.Machine.execMul f s
  | .mulh f => Sys2Proof.Machine.execMulh f s
  | .mad f => Sys2Proof.Machine.execMad f s
  | .div f => Sys2Proof.Machine.execDiv f s
  | .rem f => Sys2Proof.Machine.execRem f s
  | .min f => Sys2Proof.Machine.execMin f s
  | .max f => Sys2Proof.Machine.execMax f s
  | .abs f => Sys2Proof.Machine.execAbs f s
  | .neg f => Sys2Proof.Machine.execNeg f s
  | .and f => Sys2Proof.Machine.execAnd f s
  | .or f => Sys2Proof.Machine.execOr f s
  | .xor f => Sys2Proof.Machine.execXor f s
  | .not f => Sys2Proof.Machine.execNot f s
  | .shl f => Sys2Proof.Machine.execShl f s
  | .shr f => Sys2Proof.Machine.execShr f s
  | .sar f => Sys2Proof.Machine.execSar f s
  | .rotl f => Sys2Proof.Machine.execRotl f s
  | .clz f => Sys2Proof.Machine.execClz f s
  | .popc f => Sys2Proof.Machine.execPopc f s
  | .bfx f => Sys2Proof.Machine.execBfx f s
  | .bfi f => Sys2Proof.Machine.execBfi f s
  | .sel f => Sys2Proof.Machine.execSel f s
  | .cmp f => Sys2Proof.Machine.execCmp f s
  | .idx f => Sys2Proof.Machine.execIdx f s
  | .wid f => Sys2Proof.Machine.execWid f s
  | .fadd f => Sys2Proof.Machine.execFadd f s
  | .fsub f => Sys2Proof.Machine.execFsub f s
  | .fmul f => Sys2Proof.Machine.execFmul f s
  | .ffma f => Sys2Proof.Machine.execFfma f s
  | .fmin f => Sys2Proof.Machine.execFmin f s
  | .fmax f => Sys2Proof.Machine.execFmax f s
  | .fabs f => Sys2Proof.Machine.execFabs f s
  | .fneg f => Sys2Proof.Machine.execFneg f s
  | .fcmp f => Sys2Proof.Machine.execFcmp f s
  | .fcvt f => Sys2Proof.Machine.execFcvt f s
  | .itof f => Sys2Proof.Machine.execItof f s
  | .ftoi f => Sys2Proof.Machine.execFtoi f s
  | .exp2 f => Sys2Proof.Machine.execExp2 f s
  | .log2 f => Sys2Proof.Machine.execLog2 f s
  | .rcp f => Sys2Proof.Machine.execRcp f s
  | .rsq f => Sys2Proof.Machine.execRsq f s
  | .sqrt f => Sys2Proof.Machine.execSqrt f s
  | .sincos f => Sys2Proof.Machine.execSincos f s
  | .tanh f => Sys2Proof.Machine.execTanh f s
  | .frnd f => Sys2Proof.Machine.execFrnd f s
  | .fscale f => Sys2Proof.Machine.execFscale f s
  | .fclass f => Sys2Proof.Machine.execFclass f s
  | .steer f => Sys2Proof.Machine.execSteer f s
  | .merge f => Sys2Proof.Machine.execMerge f s
  | .cmerge f => Sys2Proof.Machine.execCmerge f s
  | .gate f => Sys2Proof.Machine.execGate f s
  | .pnot f => Sys2Proof.Machine.execPnot f s
  | .pand f => Sys2Proof.Machine.execPand f s
  | .por f => Sys2Proof.Machine.execPor f s
  | .pxor f => Sys2Proof.Machine.execPxor f s
  | .tagnew f => Sys2Proof.Machine.execTagnew f s
  | .tagret f => Sys2Proof.Machine.execTagret f s
  | .tagset f => Sys2Proof.Machine.execTagset f s
  | .tagget f => Sys2Proof.Machine.execTagget f s
  | .count f => Sys2Proof.Machine.execCount f s
  | .init f => Sys2Proof.Machine.execInit f s
  | .fire f => Sys2Proof.Machine.execFire f s
  | .order f => Sys2Proof.Machine.execOrder f s
  | .done f => Sys2Proof.Machine.execDone f s
  | .trapn f => Sys2Proof.Machine.execTrapn f s
  | .ptest f => Sys2Proof.Machine.execPtest f s
  | .ld f => Sys2Proof.Machine.execLd f s
  | .st f => Sys2Proof.Machine.execSt f s
  | .ldfeTake f => Sys2Proof.Machine.execLdfeTake f s
  | .ldfePeek f => Sys2Proof.Machine.execLdfePeek f s
  | .stfe f => Sys2Proof.Machine.execStfe f s
  | .stfeOvw f => Sys2Proof.Machine.execStfeOvw f s
  | .amoAdd f => Sys2Proof.Machine.execAmoAdd f s
  | .amoAnd f => Sys2Proof.Machine.execAmoAnd f s
  | .amoOr f => Sys2Proof.Machine.execAmoOr f s
  | .amoXor f => Sys2Proof.Machine.execAmoXor f s
  | .amoMin f => Sys2Proof.Machine.execAmoMin f s
  | .amoMax f => Sys2Proof.Machine.execAmoMax f s
  | .amoSwap f => Sys2Proof.Machine.execAmoSwap f s
  | .amoFadd f => Sys2Proof.Machine.execAmoFadd f s
  | .cas f => Sys2Proof.Machine.execCas f s
  | .fence f => Sys2Proof.Machine.execFence f s
  | .nrdTake f => Sys2Proof.Machine.execNrdTake f s
  | .nrdPeek f => Sys2Proof.Machine.execNrdPeek f s
  | .nwr f => Sys2Proof.Machine.execNwr f s
  | .nprobe f => Sys2Proof.Machine.execNprobe f s
  | .vmap f => Sys2Proof.Machine.execVmap f s
  | .vfma f => Sys2Proof.Machine.execVfma f s
  | .vredSum f => Sys2Proof.Machine.execVredSum f s
  | .vredMax f => Sys2Proof.Machine.execVredMax f s
  | .vredMin f => Sys2Proof.Machine.execVredMin f s
  | .vscanSum f => Sys2Proof.Machine.execVscanSum f s
  | .vscanMax f => Sys2Proof.Machine.execVscanMax f s
  | .vscanMin f => Sys2Proof.Machine.execVscanMin f s
  | .vcmpm f => Sys2Proof.Machine.execVcmpm f s
  | .vcompress f => Sys2Proof.Machine.execVcompress f s
  | .vexpand f => Sys2Proof.Machine.execVexpand f s
  | .vtopk f => Sys2Proof.Machine.execVtopk f s
  | .vtopkIdx f => Sys2Proof.Machine.execVtopkIdx f s
  | .vsoft f => Sys2Proof.Machine.execVsoft f s
  | .vquant f => Sys2Proof.Machine.execVquant f s
  | .vdeq f => Sys2Proof.Machine.execVdeq f s
  | .vcvt f => Sys2Proof.Machine.execVcvt f s
  | .vtransp f => Sys2Proof.Machine.execVtransp f s
  | .vslice f => Sys2Proof.Machine.execVslice f s
  | .vcat f => Sys2Proof.Machine.execVcat f s
  | .vhdr f => Sys2Proof.Machine.execVhdr f s
  | .vhdrSet f => Sys2Proof.Machine.execVhdrSet f s
  | .vbcast f => Sys2Proof.Machine.execVbcast f s
  | .vmaskKeep f => Sys2Proof.Machine.execVmaskKeep f s
  | .vmaskCausal f => Sys2Proof.Machine.execVmaskCausal f s
  | .vmaskLength f => Sys2Proof.Machine.execVmaskLength f s
  | .mxrow f => Sys2Proof.Machine.execMxrow f s
  | .mxdrain f => Sys2Proof.Machine.execMxdrain f s
  | .mxsteer f => Sys2Proof.Machine.execMxsteer f s
  | .score f => Sys2Proof.Machine.execScore f s
  | .pair f => Sys2Proof.Machine.execPair f s
  | .acc f => Sys2Proof.Machine.execAcc f s
  | .norm f => Sys2Proof.Machine.execNorm f s
  | .rope f => Sys2Proof.Machine.execRope f s
  | .jmp f => Sys2Proof.Machine.execJmp f s
  | .br f => Sys2Proof.Machine.execBr f s
  | .call f => Sys2Proof.Machine.execCall f s
  | .ret f => Sys2Proof.Machine.execRet f s
  | .li f => Sys2Proof.Machine.execLi f s
  | .lih f => Sys2Proof.Machine.execLih f s
  | .mov f => Sys2Proof.Machine.execMov f s
  | .addCmd f => Sys2Proof.Machine.execAddCmd f s
  | .subCmd f => Sys2Proof.Machine.execSubCmd f s
  | .mulCmd f => Sys2Proof.Machine.execMulCmd f s
  | .andCmd f => Sys2Proof.Machine.execAndCmd f s
  | .orCmd f => Sys2Proof.Machine.execOrCmd f s
  | .xorCmd f => Sys2Proof.Machine.execXorCmd f s
  | .shlCmd f => Sys2Proof.Machine.execShlCmd f s
  | .shrCmd f => Sys2Proof.Machine.execShrCmd f s
  | .sarCmd f => Sys2Proof.Machine.execSarCmd f s
  | .cmpCmd f => Sys2Proof.Machine.execCmpCmd f s
  | .minCmd f => Sys2Proof.Machine.execMinCmd f s
  | .maxCmd f => Sys2Proof.Machine.execMaxCmd f s
  | .lds f => Sys2Proof.Machine.execLds f s
  | .sts f => Sys2Proof.Machine.execSts f s
  | .mfs f => Sys2Proof.Machine.execMfs f s
  | .mts f => Sys2Proof.Machine.execMts f s
  | .wait f => Sys2Proof.Machine.execWait f s
  | .sig f => Sys2Proof.Machine.execSig f s
  | .time f => Sys2Proof.Machine.execTime f s
  | .timeCyc f => Sys2Proof.Machine.execTimeCyc f s
  | .perf f => Sys2Proof.Machine.execPerf f s
  | .fuse f => Sys2Proof.Machine.execFuse f s
  | .split f => Sys2Proof.Machine.execSplit f s
  | .cfgLoad f => Sys2Proof.Machine.execCfgLoad f s
  | .cfgRun f => Sys2Proof.Machine.execCfgRun f s
  | .cfgNext f => Sys2Proof.Machine.execCfgNext f s
  | .launch f => Sys2Proof.Machine.execLaunch f s
  | .circ f => Sys2Proof.Machine.execCirc f s
  | .quiesce f => Sys2Proof.Machine.execQuiesce f s
  | .quiesceProbe f => Sys2Proof.Machine.execQuiesceProbe f s
  | .ctxSave f => Sys2Proof.Machine.execCtxSave f s
  | .ctxLoad f => Sys2Proof.Machine.execCtxLoad f s
  | .ctxSwap f => Sys2Proof.Machine.execCtxSwap f s
  | .bufMap f => Sys2Proof.Machine.execBufMap f s
  | .bufUnmap f => Sys2Proof.Machine.execBufUnmap f s
  | .cap f => Sys2Proof.Machine.execCap f s
  | .strmDef f => Sys2Proof.Machine.execStrmDef f s
  | .strmDim f => Sys2Proof.Machine.execStrmDim f s
  | .strmGo f => Sys2Proof.Machine.execStrmGo f s
  | .strmBar f => Sys2Proof.Machine.execStrmBar f s
  | .strmEnd f => Sys2Proof.Machine.execStrmEnd f s
  | .rsv f => Sys2Proof.Machine.execRsv f s
  | .samp f => Sys2Proof.Machine.execSamp f s
  | .fenceCmd f => Sys2Proof.Machine.execFenceCmd f s
  | .flush f => Sys2Proof.Machine.execFlush f s
  | .inv f => Sys2Proof.Machine.execInv f s
  | .feFill f => Sys2Proof.Machine.execFeFill f s
  | .feEmpty f => Sys2Proof.Machine.execFeEmpty f s
  | .pref f => Sys2Proof.Machine.execPref f s
  | .fold f => Sys2Proof.Machine.execFold f s
  | .foldchk f => Sys2Proof.Machine.execFoldchk f s
  | .refold f => Sys2Proof.Machine.execRefold f s
  | .nstat f => Sys2Proof.Machine.execNstat f s
  | .ndrop f => Sys2Proof.Machine.execNdrop f s
  | .nseed f => Sys2Proof.Machine.execNseed f s
  | .copy f => Sys2Proof.Machine.execCopy f s
  | .copySh f => Sys2Proof.Machine.execCopySh f s
  | .publ f => Sys2Proof.Machine.execPubl f s
  | .mcast f => Sys2Proof.Machine.execMcast f s
  | .ringOpen f => Sys2Proof.Machine.execRingOpen f s
  | .ringPut f => Sys2Proof.Machine.execRingPut f s
  | .ringTake f => Sys2Proof.Machine.execRingTake f s
  | .collSum f => Sys2Proof.Machine.execCollSum f s
  | .collMax f => Sys2Proof.Machine.execCollMax f s
  | .collMin f => Sys2Proof.Machine.execCollMin f s
  | .collRs f => Sys2Proof.Machine.execCollRs f s
  | .collAg f => Sys2Proof.Machine.execCollAg f s
  | .collBc f => Sys2Proof.Machine.execCollBc f s
  | .ewait f => Sys2Proof.Machine.execEwait f s
  | .ecancel f => Sys2Proof.Machine.execEcancel f s
  | .claim f => Sys2Proof.Machine.execClaim f s
  | .release f => Sys2Proof.Machine.execRelease f s
  | .opld f => Sys2Proof.Machine.execOpld f s
  | .mxCfg f => Sys2Proof.Machine.execMxCfg f s
  | .mxRoute f => Sys2Proof.Machine.execMxRoute f s
  | .mxGo f => Sys2Proof.Machine.execMxGo f s
  | .mxStop f => Sys2Proof.Machine.execMxStop f s
  | .galOpen f => Sys2Proof.Machine.execGalOpen f s
  | .galClose f => Sys2Proof.Machine.execGalClose f s
  | .galAppend f => Sys2Proof.Machine.execGalAppend f s
  | .splice f => Sys2Proof.Machine.execSplice f s
  | .galCut f => Sys2Proof.Machine.execGalCut f s
  | .prov f => Sys2Proof.Machine.execProv f s
  | .provRev f => Sys2Proof.Machine.execProvRev f s
  | .repair f => Sys2Proof.Machine.execRepair f s
  | .repairWait f => Sys2Proof.Machine.execRepairWait f s
  | .deltaBind f => Sys2Proof.Machine.execDeltaBind f s
  | .deltaRun f => Sys2Proof.Machine.execDeltaRun f s
  | .deltaRef f => Sys2Proof.Machine.execDeltaRef f s
  | .deltaInv f => Sys2Proof.Machine.execDeltaInv f s
  | .deltaStat f => Sys2Proof.Machine.execDeltaStat f s
  | .trap f => Sys2Proof.Machine.execTrap f s
  | .tretRetry f => Sys2Proof.Machine.execTretRetry f s
  | .sysc f => Sys2Proof.Machine.execSysc f s
  | .hcall f => Sys2Proof.Machine.execHcall f s
  | .hcallTake f => Sys2Proof.Machine.execHcallTake f s
  | .hcallArg f => Sys2Proof.Machine.execHcallArg f s
  | .hcallRet f => Sys2Proof.Machine.execHcallRet f s
  | .freeze f => Sys2Proof.Machine.execFreeze f s
  | .thaw f => Sys2Proof.Machine.execThaw f s
  | .snap f => Sys2Proof.Machine.execSnap f s
  | .wingDef f => Sys2Proof.Machine.execWingDef f s
  | .wingDefRel f => Sys2Proof.Machine.execWingDefRel f s
  | .wingRoute f => Sys2Proof.Machine.execWingRoute f s
  | .vfBind f => Sys2Proof.Machine.execVfBind f s
  | .vfBindRel f => Sys2Proof.Machine.execVfBindRel f s
  | .scrub f => Sys2Proof.Machine.execScrub f s
  | .audit f => Sys2Proof.Machine.execAudit f s
  | .nop => Sys2Proof.Machine.execNop s
  | .halt => Sys2Proof.Machine.execHalt s
  | .next => Sys2Proof.Machine.execNext s
  | .cfgSeal => Sys2Proof.Machine.execCfgSeal s
  | .tretPoison => Sys2Proof.Machine.execTretPoison s
  | .tretDiscard => Sys2Proof.Machine.execTretDiscard s
  | .tretAbort => Sys2Proof.Machine.execTretAbort s
  | .passQ => Sys2Proof.Machine.execPassQ s
  | .constQ => Sys2Proof.Machine.execConstQ s
  | .addQ => Sys2Proof.Machine.execAddQ s
  | .subQ => Sys2Proof.Machine.execSubQ s
  | .mulQ => Sys2Proof.Machine.execMulQ s
  | .mulhQ => Sys2Proof.Machine.execMulhQ s
  | .madQ => Sys2Proof.Machine.execMadQ s
  | .divQ => Sys2Proof.Machine.execDivQ s
  | .remQ => Sys2Proof.Machine.execRemQ s
  | .minQ => Sys2Proof.Machine.execMinQ s
  | .maxQ => Sys2Proof.Machine.execMaxQ s
  | .absQ => Sys2Proof.Machine.execAbsQ s
  | .negQ => Sys2Proof.Machine.execNegQ s
  | .andQ => Sys2Proof.Machine.execAndQ s
  | .orQ => Sys2Proof.Machine.execOrQ s
  | .xorQ => Sys2Proof.Machine.execXorQ s
  | .notQ => Sys2Proof.Machine.execNotQ s
  | .shlQ => Sys2Proof.Machine.execShlQ s
  | .shrQ => Sys2Proof.Machine.execShrQ s
  | .sarQ => Sys2Proof.Machine.execSarQ s
  | .rotlQ => Sys2Proof.Machine.execRotlQ s
  | .clzQ => Sys2Proof.Machine.execClzQ s
  | .popcQ => Sys2Proof.Machine.execPopcQ s
  | .bfxQ => Sys2Proof.Machine.execBfxQ s
  | .bfiQ => Sys2Proof.Machine.execBfiQ s
  | .selQ => Sys2Proof.Machine.execSelQ s
  | .cmpQ => Sys2Proof.Machine.execCmpQ s
  | .idxQ => Sys2Proof.Machine.execIdxQ s
  | .widQ => Sys2Proof.Machine.execWidQ s
  | .faddQ => Sys2Proof.Machine.execFaddQ s
  | .fsubQ => Sys2Proof.Machine.execFsubQ s
  | .fmulQ => Sys2Proof.Machine.execFmulQ s
  | .ffmaQ => Sys2Proof.Machine.execFfmaQ s
  | .fminQ => Sys2Proof.Machine.execFminQ s
  | .fmaxQ => Sys2Proof.Machine.execFmaxQ s
  | .fabsQ => Sys2Proof.Machine.execFabsQ s
  | .fnegQ => Sys2Proof.Machine.execFnegQ s
  | .fcmpQ => Sys2Proof.Machine.execFcmpQ s
  | .fcvtQ => Sys2Proof.Machine.execFcvtQ s
  | .itofQ => Sys2Proof.Machine.execItofQ s
  | .ftoiQ => Sys2Proof.Machine.execFtoiQ s
  | .exp2Q => Sys2Proof.Machine.execExp2Q s
  | .log2Q => Sys2Proof.Machine.execLog2Q s
  | .rcpQ => Sys2Proof.Machine.execRcpQ s
  | .rsqQ => Sys2Proof.Machine.execRsqQ s
  | .sqrtQ => Sys2Proof.Machine.execSqrtQ s
  | .sincosQ => Sys2Proof.Machine.execSincosQ s
  | .tanhQ => Sys2Proof.Machine.execTanhQ s
  | .frndQ => Sys2Proof.Machine.execFrndQ s
  | .fscaleQ => Sys2Proof.Machine.execFscaleQ s
  | .fclassQ => Sys2Proof.Machine.execFclassQ s
  | .pnotQ => Sys2Proof.Machine.execPnotQ s
  | .pandQ => Sys2Proof.Machine.execPandQ s
  | .porQ => Sys2Proof.Machine.execPorQ s
  | .pxorQ => Sys2Proof.Machine.execPxorQ s
  | .emit => Sys2Proof.Machine.execEmit s
  | .emitp => Sys2Proof.Machine.execEmitp s
  | .fralloc => Sys2Proof.Machine.execFralloc s
  | .frfree => Sys2Proof.Machine.execFrfree s
  | .go => Sys2Proof.Machine.execGo s
  | .tinv => Sys2Proof.Machine.execTinv s
  | .translationInvalidationDone => Sys2Proof.Machine.execTranslationInvalidationDone s
  | .registerWrite => Sys2Proof.Machine.execRegisterWrite s
  | .rescrubClear => Sys2Proof.Machine.execRescrubClear s
  | .errptrConsumerWrite => Sys2Proof.Machine.execErrptrConsumerWrite s
  | .registrarConsumerAdvance => Sys2Proof.Machine.execRegistrarConsumerAdvance s
  | .registrarExport => Sys2Proof.Machine.execRegistrarExport s
  | .powerGood => Sys2Proof.Machine.execPowerGood s
  | .lifeCycleTransition => Sys2Proof.Machine.execLifeCycleTransition s
  | .attestationReport => Sys2Proof.Machine.execAttestationReport s
  | .hallTemperatureReading => Sys2Proof.Machine.execHallTemperatureReading s
  | .thermalHold => Sys2Proof.Machine.execThermalHold s
  | .thermalHoldEnd => Sys2Proof.Machine.execThermalHoldEnd s
  | .hbmThrottle => Sys2Proof.Machine.execHbmThrottle s
  | .hbmThrottleEnd => Sys2Proof.Machine.execHbmThrottleEnd s
  | .thermtrip => Sys2Proof.Machine.execThermtrip s
  | .dvfsWindowEnd => Sys2Proof.Machine.execDvfsWindowEnd s
  | .clockStepEnd => Sys2Proof.Machine.execClockStepEnd s
  | .sliceEnd => Sys2Proof.Machine.execSliceEnd s
  | .sliceWallCap => Sys2Proof.Machine.execSliceWallCap s
  | .quiescenceScan => Sys2Proof.Machine.execQuiescenceScan s
  | .silenceExpiry => Sys2Proof.Machine.execSilenceExpiry s
  | .memoryWaitExpiry => Sys2Proof.Machine.execMemoryWaitExpiry s
  | .sequencerWaitExpiry => Sys2Proof.Machine.execSequencerWaitExpiry s
  | .snapshotTimeout => Sys2Proof.Machine.execSnapshotTimeout s
  | .swapWaitExpiry => Sys2Proof.Machine.execSwapWaitExpiry s
  | .cellIssue => Sys2Proof.Machine.execCellIssue s
  | .tokenArrival => Sys2Proof.Machine.execTokenArrival s
  | .overflowReinject => Sys2Proof.Machine.execOverflowReinject s
  | .meshPacketArrival => Sys2Proof.Machine.execMeshPacketArrival s
  | .handoverAck => Sys2Proof.Machine.execHandoverAck s
  | .bufferPlaceFree => Sys2Proof.Machine.execBufferPlaceFree s
  | .counterStep => Sys2Proof.Machine.execCounterStep s
  | .threadAdmit => Sys2Proof.Machine.execThreadAdmit s
  | .configLoadEnd => Sys2Proof.Machine.execConfigLoadEnd s
  | .runComplete => Sys2Proof.Machine.execRunComplete s
  | .blockSchedulerDecision => Sys2Proof.Machine.execBlockSchedulerDecision s
  | .invocationCommit => Sys2Proof.Machine.execInvocationCommit s
  | .memoryAccessComplete => Sys2Proof.Machine.execMemoryAccessComplete s
  | .translationWalkComplete => Sys2Proof.Machine.execTranslationWalkComplete s
  | .wayChangeWalkEnd => Sys2Proof.Machine.execWayChangeWalkEnd s
  | .bisnpinv => Sys2Proof.Machine.execBisnpinv s
  | .bisnpdata => Sys2Proof.Machine.execBisnpdata s
  | .bisnpcur => Sys2Proof.Machine.execBisnpcur s
  | .streamAccess => Sys2Proof.Machine.execStreamAccess s
  | .streamBarrierLift => Sys2Proof.Machine.execStreamBarrierLift s
  | .streamDrained => Sys2Proof.Machine.execStreamDrained s
  | .galleryBlockRead => Sys2Proof.Machine.execGalleryBlockRead s
  | .galleryReadAtLink => Sys2Proof.Machine.execGalleryReadAtLink s
  | .limitShiftWave => Sys2Proof.Machine.execLimitShiftWave s
  | .repairLayerDone => Sys2Proof.Machine.execRepairLayerDone s
  | .repairCopyDone => Sys2Proof.Machine.execRepairCopyDone s
  | .repairCancel => Sys2Proof.Machine.execRepairCancel s
  | .deltaRunEnd => Sys2Proof.Machine.execDeltaRunEnd s
  | .engineCommandComplete => Sys2Proof.Machine.execEngineCommandComplete s
  | .engineCommandFault => Sys2Proof.Machine.execEngineCommandFault s
  | .ringSlotFilled => Sys2Proof.Machine.execRingSlotFilled s
  | .ringCreditReturn => Sys2Proof.Machine.execRingCreditReturn s
  | .ringBreak => Sys2Proof.Machine.execRingBreak s
  | .markerArrival => Sys2Proof.Machine.execMarkerArrival s
  | .contextScrubComplete => Sys2Proof.Machine.execContextScrubComplete s
  | .frameScrubStart => Sys2Proof.Machine.execFrameScrubStart s
  | .frameScrubDone => Sys2Proof.Machine.execFrameScrubDone s
  | .selfTestEnd => Sys2Proof.Machine.execSelfTestEnd s
  | .annexPortLost => Sys2Proof.Machine.execAnnexPortLost s
  | .annexRequestTimeout => Sys2Proof.Machine.execAnnexRequestTimeout s
  | .annexPortRetrain => Sys2Proof.Machine.execAnnexPortRetrain s
  | .xipexFlitReceive => Sys2Proof.Machine.execXipexFlitReceive s
  | .xipexCrcError => Sys2Proof.Machine.execXipexCrcError s
  | .xipexLinkDown => Sys2Proof.Machine.execXipexLinkDown s
  | .hostLinkError => Sys2Proof.Machine.execHostLinkError s
  | .hostCompletionTimeout => Sys2Proof.Machine.execHostCompletionTimeout s
  | .functionLevelReset => Sys2Proof.Machine.execFunctionLevelReset s
  | .pfReset => Sys2Proof.Machine.execPfReset s
  | .routeTableError => Sys2Proof.Machine.execRouteTableError s
  | .hostCxlMemAccess => Sys2Proof.Machine.execHostCxlMemAccess s
  | .slotZeroingEnd => Sys2Proof.Machine.execSlotZeroingEnd s
  | .hostLinkUp => Sys2Proof.Machine.execHostLinkUp s
  | .xipexRetrainEnd => Sys2Proof.Machine.execXipexRetrainEnd s
  | .keyLoaded => Sys2Proof.Machine.execKeyLoaded s

end Sys2Proof.Machine
end

