-- ==== Sys2Proof/Machine/Time.lean ====
section
/-! DEFINITION. The time between two moves and what the halls count in it: cycles of their own clocks, back-pressured and starved ones
(R198, R202). -/
namespace Sys2Proof.Machine

/-- A producer of a hall is held by a full buffer that lies in another hall or at a stream write (R52, R198). -/
def pressedIn (s : State) (hall : Nat) : Bool :=
  s.regions.any (fun p => p.2.hall == hall && p.2.state == .running && (producers s p.1 p.2).any (fun x =>
    (x.2.flatMap (fun d => destEdges s p.1 p.2 x.1 d.1 d.2)).any (fun e =>
      !edgeFree s 1 e && (e.chan.hall != hall || (match e.chan.place with | .stream _ => true | _ => false)))))

/-- The ports of a hall that tokens will reach through a mesh port or from a stream: those that a circuit of a Running region of another
hall leads to, and those of read streams with elements left. Which tokens will come, the specification leaves to the part (R198; DESIGN
CHOICE, log 115). -/
def fedPorts (s : State) (hall : Nat) : List (Nat × Place) :=
  let ends := fun (l : List Edge) => l.filterMap (fun e => if e.chan.hall = hall then some (e.chan.ctx, e.chan.place) else none)
  s.regions.flatMap (fun p =>
    if p.2.state ≠ .running then []
    else if p.2.hall = hall then
      (p.2.streams.filter (streamActive ·.2)).flatMap (fun x => ends (circuitEdges s p.1 p.2 0 (38 + x.1) (x.2.pushed % 4096)))
    else p.2.active.circuits.flatMap (fun c => ends (circuitEdges s p.1 p.2 (c.1 / 64) (c.1 % 64) 0)))

/-- A node of a hall waits for a token at such a port: none is in a buffer for it, and no instance of the node is matched (R198). -/
def starvedIn (s : State) (hall : Nat) : Bool :=
  s.regions.any (fun p => p.2.hall == hall && p.2.state == .running)
  && (fedPorts s hall).any (fun x => match x.2 with
    | .port cell node _ =>
      !s.chans.any (fun c => c.2.hall == hall && c.2.ctx == x.1 && c.2.place == x.2 && !c.2.queue.isEmpty)
      && !s.regions.any (fun p => p.2.hall == hall && p.2.ctx == x.1 && p.2.ready.any (fun i => i.cell == cell && i.node == node))
    | _ => false)

/-- A move is an issue of a cell of a hall. -/
def issuesIn (hall : Nat) : Turn → Bool
  | .issue h _ => h == hall
  | .event .cellIssue (.pair h _) => h == hall
  | _ => false

/-- Time passes in a hall: thousandths of a cycle while its clock runs, MHz times nanoseconds (R198). -/
def Hall.elapse (h : Hall) (ns : Nat) (pressed starved : Bool) : Hall :=
  let n := if hallRuns h then h.freq * ns else 0
  { h with
    cycles := h.cycles + n
    pressed := h.pressed + (if pressed then n else 0)
    starved := h.starved + (if starved then n else 0) }

/-- The state in which the move `t` is made: the step counter and the time go on, and the halls count (DESIGN CHOICE, logs 1 and 2). -/
def beginTurn (s : State) (t : Turn) (rest : List Turn) : State :=
  let ns := Config.freeNs s.tick
  { s with
    turn := t, agenda := rest, tick := s.tick + 1, moves := s.moves + 1, timeNs := s.timeNs + ns
    halls := s.halls.zipIdx.map (fun p => p.1.elapse ns (pressedIn s p.2) (starvedIn s p.2 && !issuesIn p.2 t)) }

end Sys2Proof.Machine
end

