-- ==== Sys2Proof/Machine/Step.lean ====
section
/-! DEFINITION. One step of the machine: the next move is taken from the agenda or chosen freely, its record
is found and decoded, and `exec` gives its effect. -/
namespace Sys2Proof.Machine

/-- The latched node's record runs. -/
def stepFire (s : State) : Host.Outcome State Fault Refusal :=
  match latchedInstr s with
  | some i => exec i s
  | none => .next { s with issue := none }

/-- The sequence record that a FIRE comes to runs. -/
def stepSeq (k : Nat) (s : State) : Host.Outcome State Fault Refusal :=
  match seqRecord s k with
  | none => .next s
  | some r =>
    match decode r with
    | .ok { instr := i, seq := some f } => exec i { s with seqNow := some (k, f) }
    | _ => .next s

/-- A command's record runs on the sequencer that `who` names; a record that is no command, or stands where
it may not, is ILLREC (R416). -/
def stepRecord (r : Rec) (placed : Bool) (s : State) : Host.Outcome State Fault Refusal :=
  match decode r with
  | .ok { instr := i, seq := none } =>
    if placed && recForm r == 2 then exec i s else illegalRecord s
  | _ => illegalRecord s

/-- The move `t`, in the state prepared for it. -/
def stepTurn (t : Turn) (s : State) : Host.Outcome State Fault Refusal :=
  match t with
  | .fire => stepFire s
  | .issue hall cell =>
    match exec .cellIssue { s with input := .pair hall cell } with
    | .next s' => if s'.issue.isSome then stepFire s' else .next s'
    | o => o
  | .qrec k => stepSeq k s
  | .cmd rid =>
    match kget s.regions rid with
    | none => .next s
    | some r =>
      if sequencerFree r then
        match commandAt r with
        | some (c, placed) => stepRecord c placed { s with who := rid }
        | none => illegalRecord { s with who := rid }
      else .next s
  | .service => stepRecord (Config.serviceRecord s.service.service) true { s with who := serviceRid }
  | .event i x => if isEvent i then exec i { s with input := x } else .next s

/-- The next move of a state. -/
def nextTurn (s : State) : Turn × List Turn :=
  match s.agenda with
  | t :: rest => (t, rest)
  | [] => (freeTurn s, [])

/-- One step. After a thermal trip only power-good starts the machine again (R461). -/
def step (s : State) : Host.Outcome State Fault Refusal :=
  let (t, rest) := nextTurn s
  match s.pkg.tripped, t with
  | true, .event .powerGood _ => stepTurn t (beginTurn s t rest)
  | true, _ => .fault .powerLost
  | false, _ => stepTurn t (beginTurn s t rest)

/-- The state whose next step runs the instruction with the given bits (numbered as the opcode table numbers
them; a record has 96 bits): it stands for a loaded program (DESIGN CHOICE, log 5). -/
def State.withFetchWord (s : State) (nbits w : Nat) : State := placeRecord s (bytesOfNat 12 (w % 2 ^ min nbits 96))

end Sys2Proof.Machine
end

