-- ==== Sys2Proof/Safety.lean ====
section
/-! DEFINITION. The terms that claims use: a step that goes on, what an action does on a state, the command issuer's registers,
the tokens that a firing sends, and the invariants of the machine. -/
namespace Sys2Proof

/-- The machine goes on. -/
def Goes (o : Host.Outcome Machine.State Machine.Fault Machine.Refusal) : Prop := ∃ s, o = .next s

/-- A state from which one step goes on. The machine stops only when power is lost (R461), and no arm refuses. -/
def SafeStep (s : Machine.State) : Prop := Goes (Machine.step s)

namespace Machine

/-! ### What an action does on a state -/

/-- An action answers `a` and leaves `t`, whatever changes came before it in its step. -/
def Reaches {α : Type} (m : M α) (s : State) (a : α) (t : State) : Prop :=
  ∀ s0 es, s = applyAll s0 es → ∃ es', m { cur := s, effs := es } = .ok (a, { cur := t, effs := es' }) ∧ t = applyAll s0 es'

/-- An action ends in a trap on a state. -/
def Raises {α : Type} (m : M α) (s : State) (t : TrapRec) : Prop := 
  ∀ s0 es, s = applyAll s0 es → m { cur := s, effs := es } = .error t

/-- The state that an action leaves; one that traps leaves the state as it was. -/
def leaves {α : Type} (m : M α) (s : State) : State :=
  match m { cur := s, effs := [] } with
  | .ok (_, l) => l.cur
  | .error _ => s

/-- The states that differ only in copies of lines and translations, and in the count of free values: what a read may leave. -/
def ReadOnly (s t : State) : Prop :=
  ∃ n hs, t = { s with tick := n, halls := hs } ∧ hs.length = s.halls.length ∧
    ∀ k : Nat, ∀ h h' : Hall, s.halls[k]? = some h → hs[k]? = some h' → h' = { h with tlb := h'.tlb, cache := h'.cache }

/-! ### The issuer of a command (R37, R297, R399) -/

/-- The sequencer whose command runs. -/
def issuer (s : State) : Sequencer :=
  if s.who = serviceRid then s.service else match kget s.regions s.who with | some r => r.seq | none => Sequencer.zero

/-- A register of the issuer. -/
def areg (s : State) (i : BitVec 5) : BitVec 64 := (issuer s).get i.toNat

/-- The state with the issuer's sequencer changed. -/
def withIssuer (s : State) (q : Sequencer) : State :=
  if s.who = serviceRid then { s with service := q }
  else match kget s.regions s.who with | some r => { s with regions := kset s.regions s.who { r with seq := q } } | none => s

/-- The state with a register of the issuer written; a0 discards it. -/
def setA (s : State) (d : BitVec 5) (v : BitVec 64) : State := withIssuer s ((issuer s).put d.toNat v)

/-- A sequencer at its next command: in its handler, or in its act. -/
def Sequencer.onward (q : Sequencer) : Sequencer :=
  match q.handler with
  | some (a, i) => { q.settled with handler := some (a, i + 1) }
  | none => { q.settled with index := q.index + 1 }

/-- The state with the issuer at its next command. -/
def goOn (s : State) : State :=
  withIssuer s (if s.who = serviceRid then { (issuer s).settled with service := (issuer s).service + 1 } else (issuer s).onward)

/-- The state with the issuer's command waiting where it is. -/
def waits (s : State) : State :=
  withIssuer s (if (issuer s).waiting then issuer s else { issuer s with waiting := true, waitStart := s.timeNs })

/-- A region's command may run: the issuer is a region, no trap is to be delivered, and a command that a handler may not use is not
in one. -/
def RegionIssues (s : State) (r : Region) (inHandler : Bool) : Prop :=
  s.who ≠ serviceRid ∧ kget s.regions s.who = some r ∧ trapWaiting s = none ∧ (r.seq.handler.isSome = true → inHandler = true)

/-- The service sequencer's command may run. -/
def ServiceIssues (s : State) : Prop := s.who = serviceRid ∧ kget s.regions serviceRid = none ∧ trapWaiting s = none

/-- A command that every sequencer has, and every handler, may run. -/
def Issues (s : State) : Prop := (∃ r, RegionIssues s r true) ∨ ServiceIssues s

/-- The state with a region changed, where it is there. -/
def onRegion (rid : Nat) (g : Region → Region) (s : State) : State :=
  match kget s.regions rid with
  | some r => { s with regions := kset s.regions rid (g r) }
  | none => s

/-! ### The tokens of a firing (R46 to R52, R130, R404, R408) -/

/-- A token sent along one edge: into the destination's buffer, or onto the mesh when it lies in another hall. -/
def sentOn (t : Token) (s : State) (e : Edge) : State :=
  let c := edgeChan s e
  let cross := match kget s.regions c.src with | some r => r.hall != c.hall | none => false
  let c := if cross then { c with flight := c.flight ++ [{ hall := ridHall c.src, circuit := 0, token := t }] } else { c with queue := c.queue ++ [t] }
  { s with chans := kset s.chans e.key (if c.outside then { c with unacked := c.unacked + 1 } else c) }

/-- A region's silence timer restarts. -/
def stirred (rid : Nat) (s : State) : State :=
  match kget s.regions rid with
  | some r => { s with regions := kset s.regions rid { r with silence := s.timeNs } }
  | none => s

/-- A token sent to a destination byte of a cell. -/
def emitted (rid cell : Nat) (d : Dest) (t : Token) (s : State) : State :=
  match kget s.regions rid with
  | some r => stirred rid ((destEdges s rid r cell d t.tag).foldl (sentOn t) s)
  | none => s

/-- A token delivered for an issue: sent, or put in the place of its pending poison when the issue is a retry. -/
def delivered (x : Issue) (d : Dest) (t : Token) (s : State) : State :=
  if x.retry then leaves (replacePending x.rid x.cell d t) s else emitted x.rid x.cell d t s

/-- A lane's results delivered. -/
def laneSent (f : NodeRec) (x : Issue) (l : Lane) (out : Option Token × Option Token) (s : State) : State :=
  let s1 := match out.1 with | some t => delivered x f.da (t.after s l.past) s | none => s
  match out.2 with | some t => delivered x f.db (t.after s l.past) s1 | none => s1

/-- The results of an issue's lanes delivered in order, and the issue over. -/
def lanesSent (f : NodeRec) (x : Issue) (out : Lane → Option Token × Option Token) (s : State) : State :=
  { x.lanes.foldl (fun s l => laneSent f x l (out l) s) s with issue := none }

/-- The issue `x` of a node of region `r` runs: no trap is to be delivered. -/
def Fires (s : State) (x : Issue) (r : Region) : Prop := s.issue = some x ∧ kget s.regions x.rid = some r ∧ trapWaiting s = none

/-- A lane fires its node: it holds no final poison, and its gate is open (R59, R407). -/
def firing (f : NodeRec) (l : Lane) : Bool := (firstPoison l).isNone && gateOpen f l

/-- What a lane sends: final poison goes on to both destinations under the lane's tag, a lane whose gate is closed sends nothing, another
its results (R59, R407). -/
def laneTokens (f : NodeRec) (l : Lane) (out : Option Token × Option Token) : Option Token × Option Token :=
  match firstPoison l with
  | some t => (some { t with tag := l.tag, packet := [] }, some { t with tag := l.tag, packet := [] })
  | none => if gateOpen f l then out else (none, none)

/-- What every lane of a node sends. -/
def lanewise (f : NodeRec) (out : Lane → Option Token × Option Token) (l : Lane) : Option Token × Option Token := laneTokens f l (out l)

/-- The results of a node delivered lane by lane, and the issue over. -/
def nodeDone (f : NodeRec) (x : Issue) (out : Lane → Option Token × Option Token) (s : State) : State := lanesSent f x (lanewise f out) s

/-- The same data value on both destinations (R257). -/
def sameOnBoth (v : Lane → BitVec 32) (l : Lane) : Option Token × Option Token := (some (dataTok l (v l)), some (dataTok l (v l)))

/-- The same token on both destinations. -/
def tokenOnBoth (t : Lane → Token) (l : Lane) : Option Token × Option Token := (some (t l), some (t l))

/-- A tile result's counts added to the region's LOSTTERM and PROBUNDER (R169). -/
def counted (rid : Nat) (o : TileOut) (s : State) : State :=
  if 0 < o.lost + o.under then onRegion rid (fun r => { r with sys := { r.sys with
    lostTerm := satAdd r.sys.lostTerm o.lost, probUnder := satAdd r.sys.probUnder o.under } }) s
  else s

/-- The results of a tile node delivered lane by lane, their counts added, and the issue over. -/
def tileDone (f : NodeRec) (x : Issue) (o : Lane → TileOut) (s : State) : State :=
  { x.lanes.foldl (fun u l => laneSent f x l (laneTokens f l ((o l).da, (o l).db)) (if firing f l then counted x.rid (o l) u else u)) s with issue := none }

/-! ### Integer types as bit vectors of their width (R146, R147) -/

/-- The bits of a value that an integer type reads. -/
def narrow (t : Ty) (v : BitVec 32) : BitVec (tyWidth t) := v.setWidth (tyWidth t)

/-- Bits of a type in its extended form: sign-extended for i types, zero-extended for n types. -/
def widen (t : Ty) (x : BitVec (tyWidth t)) : BitVec 32 := if isSigned t then x.signExtend 32 else x.setWidth 32

/-- The integer that a type reads. -/
def reads (t : Ty) (v : BitVec 32) : Int := if isSigned t then (narrow t v).toInt else ((narrow t v).toNat : Int)

/-- An exact integer wrapped to a type. -/
def wraps (t : Ty) (z : Int) : BitVec 32 := widen t (BitVec.ofInt (tyWidth t) z)

/-- An exact integer result: clamped with md bit 0, else wrapped (R147). -/
def result (t : Ty) (md : Nat) (z : Int) : BitVec 32 := wraps t (if md % 2 = 1 then max (intMin t) (min (intMax t) z) else z)

/-! ### Traps of nodes (R396 to R401) -/

/-- The pending poison that a faulting lane leaves on both destinations; a retried issue left it before (R401, R408). -/
def pended (f : NodeRec) (x : Issue) (src code : Nat) (s : State) (l : Lane) : State :=
  let t : Token := { value := poisonValue true src code, tag := l.tag, kind := .poison }
  if x.retry then s else emitted x.rid x.cell f.db t (emitted x.rid x.cell f.da t s)

/-- The trap of an issue whose lanes all fault, each of which would have fed both destinations (R398, R401). -/
def nodeTrap (f : NodeRec) (r : Region) (x : Issue) (src code operand : Nat) : TrapRec :=
  { code := code, src := src, operand := operand, iv := ((x.lanes.head?).bind (fun l => boundId r l.tag)).getD 0, act := r.seq.act
    cmd := min r.seq.index 63, cell := x.cell, node := x.node, laneMask := 2 ^ x.lanes.length - 1, held := x.lanes
    fed := x.lanes.map (fun _ => [f.da, f.db]) }

/-- A region takes a trap: it is the trap in work, and the handler act runs from its first command (R401, R403). -/
def handling (t : TrapRec) (r : Region) : Region :=
  { r with trap := some t, seq := { r.seq.settled with handler := some (r.sys.trapVec.toNat % 256, 0), swap := r.seq.swap } }

/-- A region can take a trap at once: it has none, a handler is valid, and it has not stopped (R397, R401). -/
def Handles (r : Region) : Prop := r.trap = none ∧ r.traps = [] ∧ r.state ≠ .free ∧ r.saved = none ∧ r.sys.trapVec.toNat / 256 % 2 = 1

/-! ### A record of a running sequence (R61, R62, R232, R284) -/

/-- A sequence record with the md bits that a handler's retry added. -/
def rowRec (q : SeqRun) (f : SeqRec) : SeqRec := { f with md := BitVec.ofNat 4 (f.md.toNat ||| q.mdSet) }

/-- The token of a lane's EMIT sent on its destination. -/
def rowSent (rid : Nat) (q : SeqRun) (f : SeqRec) (past : State) (l : SeqLane) (v : BitVec 32) (s : State) : State :=
  let t := ({ value := v, tag := l.lane.tag } : Token).after past (l.past ++ l.lane.past)
  if q.retry then leaves (replacePending rid q.cell (emitDest q f) t) s else emitted rid q.cell (emitDest q f) t s

/-- A lane after a record that it has gone on from: its temporary is written, and it has popped nothing since. -/
def rowLane (f : SeqRec) (out : SeqLane → SeqOut) (l : SeqLane) : SeqLane :=
  let temps := if l.live then writeTemp f (out l) l.temps else l.temps
  let bad := if l.live then (tempsOf f (out l)).foldl kdel l.bad else l.bad
  { l with temps := temps, bad := bad, popped := [] }

/-- The run after a record: at its next record with the lanes as they then are. -/
def rowNext (q : SeqRun) (f : SeqRec) (lanes : List SeqLane) (out : SeqLane → SeqOut) : SeqRun :=
  { q with index := q.index + 1, lanes := lanes.map (rowLane f out) }

/-- The runs of a region after record `f` of run `n`: the run is over when the record is its last or no lane lives. -/
def rowFires (n : Nat) (q : SeqRun) (f : SeqRec) (lanes : List SeqLane) (out : SeqLane → SeqOut) (l : List SeqRun) : List SeqRun :=
  if f.last || !(lanes.map (rowLane f out)).any (·.live) then l.eraseIdx n else l.set n (rowNext q f lanes out)

/-- What a lane of a record emits, sent; a lane that has stopped sends nothing. -/
def rowEmit (rid : Nat) (q : SeqRun) (f : SeqRec) (past : State) (out : SeqLane → SeqOut) (s : State) (l : SeqLane) : State :=
  if l.live then match (out l).emit with | some p => rowSent rid q f past l p.2 s | none => s else s

/-- The state after record `f` of run `n` of a region: the queues are popped, each live lane's token is sent, temporaries are written, and
the run is at its next record, or over. -/
def rowDone (rid n : Nat) (q : SeqRun) (f : SeqRec) (lanes : List SeqLane) (qs : InQueues) (out : SeqLane → SeqOut) (s : State) : State :=
  let s1 := onRegion rid (fun r => { r with queues := kset r.queues q.cell qs }) s
  let s2 := lanes.foldl (rowEmit rid q f s out) s1
  let s3 := onRegion rid (fun r => { r with fires := rowFires n q f lanes out r.fires }) s2
  { stirred rid s3 with seqNow := none }

/-- Record `f` of run `q`, number `n` of region `q.rid`, runs: its tokens have places, its queues hold what it pops (`lanes` and `qs` are
the lanes and queues after that), and no lane has popped final poison or reads a temporary that a disposition has poisoned. -/
def Runs (s : State) (r : Region) (n : Nat) (q : SeqRun) (f : SeqRec) (lanes : List SeqLane) (qs : InQueues) : Prop :=
  n < 4096 ∧ s.seqNow = some (q.rid * 4096 + n, f) ∧ kget s.regions q.rid = some r ∧ r.fires[n]? = some q ∧ trapWaiting s = none
    ∧ (q.retry = true ∨ roomFor s q.rid q (emitDest q f) q.lanes = true)
    ∧ popQueues (queuesOf f) q.lanes (kgetD r.queues q.cell {}) = some (lanes, qs)
    ∧ ∀ l ∈ lanes, l.live = true → l.popped.find? (·.isFinal) = none ∧ l.taint f = none

/-! ### Invariants -/

/-- Numbers that strictly rise. -/
def rising : List Nat → Bool
  | [] => true
  | [_] => true
  | a :: b :: t => a < b && rising (b :: t)

/-- Each entry of the registrar chains to the one before it (R220). -/
def chained (prev : BitVec 384) : List RegEntry → Prop
  | [] => True
  | e :: t => e.chain = Config.sha384 (bytes384 prev ++ bytes384 e.body) ∧ chained e.chain t

/-- The order of the life-cycle states (R219). -/
def LifeCycle.rank : LifeCycle → Nat
  | .manufacture => 0
  | .provisioned => 1
  | .deployed => 2
  | .returned => 3

/-- What holds of the machine's storage at every step: memory is in its one form, the full bits, the poison markers, the regions, the
wings, the functions and the channels are listed in rising order, there are 64 halls, and the registrar's entries are chained. -/
structure Inv (s : State) : Prop where
  mem : Memory.wf s.mem = true
  full : rising s.full = true
  marks : rising s.marks = true
  regions : rising (s.regions.map (·.1)) = true
  wings : rising (s.wings.map (·.1)) = true
  vfs : rising (s.vfs.map (·.1)) = true
  chans : rising (s.chans.map (·.1)) = true
  halls : s.halls.length = 64
  chain : chained 0 s.pkg.registrar.entries

end Machine
end Sys2Proof
end

