-- ==== Sys2Proof/Certificates/Slice0/Obligations.lean ====
section
/-! DEFINITION. What is claimed of the machine. Each statement's docstring names the rules of the specification it
formalises; what rests on a choice of the model says so and names its log entry. -/

open Sys2Proof Sys2Proof.Machine

/-! ### Scalar nodes (R257, R263 to R275) -/

namespace Sys2Proof.Claims

/-- The integer nodes whose exact result may leave the type, each with that result. -/
def exactResult : Instr → Option (NodeRec × (Ty → (Nat → BitVec 32) → Int))
  | .add f => some (f, fun t v => reads t (v 0) + reads t (v 1))
  | .sub f => some (f, fun t v => reads t (v 0) - reads t (v 1))
  | .mul f => some (f, fun t v => reads t (v 0) * reads t (v 1))
  | .mad f => some (f, fun t v => reads t (v 0) * reads t (v 1) + reads t (v 2))
  | .abs f => some (f, fun t v => |reads t (v 0)|)
  | .neg f => some (f, fun t v => - reads t (v 0))
  | .shl f => some (f, fun t v => reads t (v 0) * 2 ^ (v 1).toNat)
  | _ => none

/-- A condition of R236 on two integers. -/
def holds (md : Nat) (a b : Int) : Bool :=
  match md with
  | 0 => a == b
  | 1 => a != b
  | 2 => a < b
  | 3 => a ≤ b
  | 4 => b < a
  | 5 => b ≤ a
  | 7 => true
  | _ => false

/-- Bit 0 of a value. -/
def truth (v : BitVec 32) : Bool := v.getLsbD 0

/-- The leading zeros of some bits. -/
def leadingZeros {w : Nat} (x : BitVec w) : Nat := (List.range w).countP (fun i => x.toNat < 2 ^ (w - 1 - i))

/-- The ones of some bits. -/
def ones {w : Nat} (x : BitVec w) : Nat := (List.range w).countP (fun i => x.getLsbD i)

/-- The integer nodes that raise no condition, each with its result from md and the operands. -/
def bitResult : Instr → Option (NodeRec × (Ty → Nat → (Nat → BitVec 32) → BitVec 32))
  | .mulh f => some (f, fun t _ v => wraps t ((reads t (v 0) * reads t (v 1)) / 2 ^ tyWidth t))
  | .min f => some (f, fun t _ v => wraps t (min (reads t (v 0)) (reads t (v 1))))
  | .max f => some (f, fun t _ v => wraps t (max (reads t (v 0)) (reads t (v 1))))
  | .and f => some (f, fun t _ v => widen t (narrow t (v 0) &&& narrow t (v 1)))
  | .or f => some (f, fun t _ v => widen t (narrow t (v 0) ||| narrow t (v 1)))
  | .xor f => some (f, fun t _ v => widen t (narrow t (v 0) ^^^ narrow t (v 1)))
  | .not f => some (f, fun t _ v => widen t (~~~ narrow t (v 0)))
  | .shr f => some (f, fun t _ v => widen t (narrow t (v 0) >>> (v 1).toNat))
  | .sar f => some (f, fun t _ v => widen t ((narrow t (v 0)).sshiftRight (v 1).toNat))
  | .rotl f => some (f, fun t _ v => widen t ((narrow t (v 0)).rotateLeft (v 1).toNat))
  | .clz f => some (f, fun t _ v => wraps t (leadingZeros (narrow t (v 0))))
  | .popc f => some (f, fun t _ v => wraps t (ones (narrow t (v 0))))
  | .cmp f => some (f, fun t md v => pred (holds md (reads t (v 0)) (reads t (v 1))))
  | _ => none

/-- The records of a sequence that are `bitResult`'s nodes in their other form. -/
def bitRecord : Instr → Option (NodeRec → Instr)
  | .mulhQ => some .mulh
  | .minQ => some .min
  | .maxQ => some .max
  | .andQ => some .and
  | .orQ => some .or
  | .xorQ => some .xor
  | .notQ => some .not
  | .shrQ => some .shr
  | .sarQ => some .sar
  | .rotlQ => some .rotl
  | .clzQ => some .clz
  | .popcQ => some .popc
  | .cmpQ => some .cmp
  | _ => none

/-- The value of source `p` of a record for a lane: qa, qb, qc. -/
def source (r : Region) (q : SeqRun) (f : SeqRec) (l : SeqLane) (p : Nat) : BitVec 32 :=
  srcVal r q l f (if p = 0 then f.qa else if p = 1 then f.qb else f.qc)

/-- The predicate nodes with their results. -/
def predicateResult : Instr → Option (NodeRec × ((Nat → BitVec 32) → Bool))
  | .pnot f => some (f, fun v => !truth (v 0))
  | .pand f => some (f, fun v => truth (v 0) && truth (v 1))
  | .por f => some (f, fun v => truth (v 0) || truth (v 1))
  | .pxor f => some (f, fun v => truth (v 0) != truth (v 1))
  | _ => none

/-- The floating and special nodes of one result, each as the operation on md and the operands. -/
def floatResult : Instr → Option (NodeRec × (Nat → (Nat → BitVec 32) → BitVec 32 × Conds))
  | .fadd f => some (f, faddOp f.ty)
  | .fsub f => some (f, fsubOp f.ty)
  | .fmul f => some (f, fmulOp f.ty)
  | .ffma f => some (f, ffmaOp f.ty)
  | .fmin f => some (f, fminOp f.ty)
  | .fmax f => some (f, fmaxOp f.ty)
  | .fabs f => some (f, fabsOp f.ty)
  | .fneg f => some (f, fnegOp f.ty)
  | .fcmp f => some (f, fcmpOp f.ty)
  | .fcvt f => some (f, fcvtOp (tyOfCode (f.ex.toNat % 16)) f.ty)
  | .itof f => some (f, itofOp (tyOfCode (f.ex.toNat % 16)) f.ty)
  | .ftoi f => some (f, ftoiOp (tyOfCode (f.ex.toNat % 16)) f.ty)
  | .frnd f => some (f, frndOp f.ty)
  | .fscale f => some (f, fscaleOp f.ty)
  | .fclass f => some (f, fclassOp f.ty)
  | .exp2 f => some (f, exp2Op f.ty)
  | .log2 f => some (f, log2Op f.ty)
  | .rcp f => some (f, rcpOp f.ty)
  | .rsq f => some (f, rsqOp f.ty)
  | .sqrt f => some (f, sqrtOp f.ty)
  | .tanh f => some (f, tanhOp f.ty)
  | _ => none

/-- The quotient of R265 before it is wrapped or clamped: −1 or the greatest value for a divisor of 0. -/
def quotient (t : Ty) (a b : Int) : Int := if b = 0 then (if isSigned t then -1 else 2 ^ tyWidth t - 1) else a.tdiv b

/-- A control word of BFX and BFI as R268 wants it. -/
def controlOk (t : Ty) (c : BitVec 32) : Bool := c.toNat < 65536 && c.toNat % 256 + c.toNat / 256 ≤ tyWidth t

/-- BFX of R268. -/
def extracted (t : Ty) (x c : BitVec 32) : BitVec 32 :=
  let pos := c.toNat % 256
  let len := c.toNat / 256
  let f : Int := (narrow t x).toNat / 2 ^ pos % 2 ^ len
  wraps t (if len = 0 then 0 else if isSigned t && decide (2 ^ (len - 1) ≤ f) then f - 2 ^ len else f)

/-- BFI of R268. -/
def inserted (t : Ty) (x y c : BitVec 32) : BitVec 32 :=
  let pos := c.toNat % 256
  let len := c.toNat / 256
  let m : BitVec (tyWidth t) := BitVec.ofNat _ ((2 ^ len - 1) * 2 ^ pos)
  widen t ((narrow t x &&& ~~~ m) ||| BitVec.ofNat _ ((narrow t y).toNat % 2 ^ len * 2 ^ pos))

/-! ### Nodes that move tokens (R262, R269, R270, R276 to R278, R281, R286) -/

/-- Op0 as it is passed on. -/
def passed (f : NodeRec) (p : Nat) (l : Lane) : Option Token × Option Token := tokenOnBoth (fun l => forwarded f l p) l

/-- What each moving node sends for a lane. -/
def moved : Instr → Option (NodeRec × (Region → Lane → Option Token × Option Token))
  | .pass f => some (f, fun _ => passed f 0)
  | .const f => some (f, fun _ => sameOnBoth (fun _ => extend f.ty f.lit))
  | .join f => some (f, fun _ => tokenOnBoth (fun l => { value := 0, tag := l.tag, kind := .completion }))
  | .sel f => some (f, fun _ => sameOnBoth (fun l => extend f.ty (if predOf l then opv f l 0 else opv f l 1)))
  | .idx f => some (f, fun r => sameOnBoth (fun l => BitVec.ofNat 32 (hdrField r.header ((boundId r l.tag).getD 0) (f.ax.toNat % 8)) + f.lit))
  | .wid f => some (f, fun r => sameOnBoth (fun l => BitVec.ofNat 32 ((boundId r l.tag).getD 0 / 2 ^ (32 * (f.ax.toNat % 2)))))
  | .steer f => some (f, fun _ l => if predOf l then (some (forwarded f l 0), none) else (none, some (forwarded f l 0)))
  | .merge f => some (f, fun _ => tokenOnBoth (fun l => (((kget l.ops 0) <|> (kget l.ops 1))).getD (forwarded f l 0)))
  | .cmerge f => some (f, fun _ l => passed f (if predOf l then 0 else 1) l)
  | .gate f => some (f, fun _ l => if predOf l then passed f 0 l else (none, none))
  | .ptest f => some (f, fun _ => sameOnBoth (fun l => pred (predOf l)))
  | .order f => some (f, fun _ => passed f 0)
  | .tagget f => some (f, fun _ => sameOnBoth (fun l => BitVec.ofNat 32 l.tag))
  | _ => none

end Sys2Proof.Claims

open Sys2Proof.Claims

/-- R263, R264's sibling rows and R267's SHL: an integer node whose exact result is z sends z, wrapped or clamped as md bit 0 says, to da and db
of each lane, where no lane's overflow stops it; nothing else changes but the tokens, the ready issue and the silence timer. -/
def Obligations.IntegerNodesComplete : Prop :=
  ∀ (i : Instr) (f : NodeRec) (z : Ty → (Nat → BitVec 32) → Int) (s : State) (x : Issue) (r : Region),
    exactResult i = some (f, z) → isInt f.ty = true → Fires s x r →
    (∀ l ∈ x.lanes, firing f l = true → (intMin f.ty ≤ z f.ty (opv f l) ∧ z f.ty (opv f l) ≤ intMax f.ty) ∨ disposition r.sys.trapEn 2 = 0) →
    exec i s = .next (nodeDone f x (sameOnBoth (fun l => result f.ty (mdOf x f) (z f.ty (opv f l)))) s)

/-- R265: DIV sends the quotient, toward zero, wrapped or clamped; REM the remainder; a divisor of 0 gives the values of R265. -/
def Obligations.DivisionCompletes : Prop :=
  ∀ (f : NodeRec) (s : State) (x : Issue) (r : Region),
    isInt f.ty = true → Fires s x r →
    (∀ l ∈ x.lanes, firing f l = true → reads f.ty (opv f l 1) ≠ 0 ∨ disposition r.sys.trapEn 1 = 0) →
    ((∀ l ∈ x.lanes, firing f l = true → quotient f.ty (reads f.ty (opv f l 0)) (reads f.ty (opv f l 1)) ≤ intMax f.ty ∨ disposition r.sys.trapEn 2 = 0) →
      exec (.div f) s = .next (nodeDone f x (sameOnBoth (fun l =>
        result f.ty (mdOf x f) (quotient f.ty (reads f.ty (opv f l 0)) (reads f.ty (opv f l 1))))) s)) ∧
    exec (.rem f) s = .next (nodeDone f x (sameOnBoth (fun l =>
      let a := reads f.ty (opv f l 0)
      let b := reads f.ty (opv f l 1)
      wraps f.ty (if b = 0 then a else a - b * a.tdiv b))) s)

/-- R264, R266, R267, R236 and the MIN and MAX rows of R263: the integer nodes that raise no condition, and the records of a sequence that do the same. -/
def Obligations.BitNodesComplete : Prop :=
  (∀ (i : Instr) (f : NodeRec) (v : Ty → Nat → (Nat → BitVec 32) → BitVec 32) (s : State) (x : Issue) (r : Region),
    bitResult i = some (f, v) → isInt f.ty = true → Fires s x r →
    exec i s = .next (nodeDone f x (sameOnBoth (fun l => v f.ty (mdOf x f) (opv f l))) s)) ∧
  (∀ (i : Instr) (c : NodeRec → Instr) (g : NodeRec) (v : Ty → Nat → (Nat → BitVec 32) → BitVec 32) (s : State) (r : Region) (n : Nat) (q : SeqRun)
    (f : SeqRec) (lanes : List SeqLane) (qs : InQueues),
    bitRecord i = some c → bitResult (c g) = some (g, v) → isInt f.ty = true → Runs s r n q f lanes qs →
    exec i s = .next (rowDone q.rid n q f lanes qs (fun l => { value := v f.ty (rowRec q f).md.toNat (source r q (rowRec q f) l) }) s))

/-- R268: BFX and BFI with a control word that R268 admits. -/
def Obligations.BitFieldNodesComplete : Prop :=
  ∀ (f : NodeRec) (s : State) (x : Issue) (r : Region),
    isInt f.ty = true → Fires s x r →
    ((∀ l ∈ x.lanes, firing f l = true → controlOk f.ty (opv f l 1) = true) →
      exec (.bfx f) s = .next (nodeDone f x (sameOnBoth (fun l => extracted f.ty (opv f l 0) (opv f l 1))) s)) ∧
    ((∀ l ∈ x.lanes, firing f l = true → controlOk f.ty (opv f l 2) = true) →
      exec (.bfi f) s = .next (nodeDone f x (sameOnBoth (fun l => inserted f.ty (opv f l 0) (opv f l 1) (opv f l 2))) s))

/-- R276: the predicate nodes read bit 0 of each operand and write 0 or 1. -/
def Obligations.PredicateNodesComplete : Prop :=
  ∀ (i : Instr) (f : NodeRec) (v : (Nat → BitVec 32) → Bool) (s : State) (x : Issue) (r : Region),
    predicateResult i = some (f, v) → Fires s x r →
    exec i s = .next (nodeDone f x (sameOnBoth (fun l => pred (v (opv f l)))) s)

/-- R271 to R275: the floating and special nodes send their operation's result where no lane's conditions stop it; SINCOS sends the sine to da and
the cosine to db. The special functions' values are free within R170's bounds (DESIGN CHOICE, log 10). -/
def Obligations.FloatNodesComplete : Prop :=
  (∀ (i : Instr) (f : NodeRec) (g : Nat → (Nat → BitVec 32) → BitVec 32 × Conds) (s : State) (x : Issue) (r : Region),
    floatResult i = some (f, g) → Fires s x r →
    (∀ l ∈ x.lanes, firing f l = true → fate r.sys.trapEn (g (mdOf x f) (opv f l)).2 = .stands) →
    exec i s = .next (nodeDone f x (sameOnBoth (fun l => (g (mdOf x f) (opv f l)).1)) s)) ∧
  (∀ (f : NodeRec) (s : State) (x : Issue) (r : Region), Fires s x r →
    (∀ l ∈ x.lanes, firing f l = true → fate r.sys.trapEn ((sinOp f.ty (mdOf x f) (opv f l)).2.or (cosOp f.ty (mdOf x f) (opv f l)).2) = .stands) →
    exec (.sincos f) s = .next (nodeDone f x (fun l =>
      (some (dataTok l (sinOp f.ty (mdOf x f) (opv f l)).1), some (dataTok l (cosOp f.ty (mdOf x f) (opv f l)).1))) s))

/-- R262, R269, R270, R276, R277, R278, R281, R286: the nodes that move, choose and name tokens; SINK sends nothing. -/
def Obligations.MovingNodesComplete : Prop :=
  ∀ (i : Instr) (f : NodeRec) (v : Region → Lane → Option Token × Option Token) (s : State) (x : Issue) (r : Region),
    Fires s x r → (moved i = some (f, v) → exec i s = .next (nodeDone f x (v r) s)) ∧ exec (.sink f) s = .next { s with issue := none }

/-- R130, R284: FIRE starts the sequence at ex[8:0] with m0 to m2 from ports 0 to 2, every firing lane in step; each lane descends from all that its
firing consumed, and FIRE sends nothing itself. -/
def Obligations.FireStartsSequence : Prop :=
  ∀ (f : NodeRec) (s : State) (x : Issue) (r : Region), Fires s x r → (∀ l ∈ x.lanes, firing f l = true) → x.lanes ≠ [] →
    exec (.fire f) s = .next { onRegion x.rid (fun r => { r with fires := r.fires ++ [
      { rid := x.rid, cell := x.cell, node := x.node, index := f.ex.toNat % 512, start := f.ex.toNat % 512
        lanes := x.lanes.map (fun l => { lane := { l with ops := [(0, operand f l 0), (1, operand f l 1), (2, operand f l 2)] }, past := l.past })
        da := f.da, db := f.db, mdSet := x.mdSet }] }) s with issue := none }

/-- R288, R398, R401: TRAPN raises the program trap with cause lit[15:0] and operand op0: each lane leaves pending poison, the lanes are held, and the
handler starts at its first command. -/
def Obligations.ProgramTrapTaken : Prop :=
  ∀ (f : NodeRec) (s : State) (x : Issue) (r : Region) (l0 : Lane) (ls : List Lane),
    Fires s x r → x.lanes = l0 :: ls → (∀ l ∈ x.lanes, firing f l = true) → Handles r →
    exec (.trapn f) s = .next { onRegion x.rid (handling (nodeTrap f r x 1 (f.lit.toNat % 65536) (opv f l0 0).toNat))
      (x.lanes.foldl (pended f x 1 (f.lit.toNat % 65536)) s) with issue := none }

/-- R260, R396, R398, R401: where the exact result of every lane of an integer node leaves its type and IOV's disposition is 10, the region takes
the trap IOV, code 2, with op0 of the lowest lane; no result is sent. -/
def Obligations.OverflowTrapTaken : Prop :=
  ∀ (i : Instr) (f : NodeRec) (z : Ty → (Nat → BitVec 32) → Int) (s : State) (x : Issue) (r : Region) (l0 : Lane) (ls : List Lane),
    exactResult i = some (f, z) → isInt f.ty = true → Fires s x r → x.lanes = l0 :: ls → (∀ l ∈ x.lanes, firing f l = true) → Handles r →
    (∀ l ∈ x.lanes, z f.ty (opv f l) < intMin f.ty ∨ intMax f.ty < z f.ty (opv f l)) → disposition r.sys.trapEn 2 = 2 →
    exec i s = .next { onRegion x.rid (handling (nodeTrap f r x 0 2 (opv f l0 0).toNat)) (x.lanes.foldl (pended f x 0 2) s) with issue := none }

/-- R396: where IOV's disposition is 01, each lane whose exact result leaves the type sends final poison with cause 2 in place of its result. -/
def Obligations.OverflowPoisons : Prop :=
  ∀ (i : Instr) (f : NodeRec) (z : Ty → (Nat → BitVec 32) → Int) (s : State) (x : Issue) (r : Region),
    exactResult i = some (f, z) → isInt f.ty = true → Fires s x r → disposition r.sys.trapEn 2 = 1 →
    exec i s = .next (nodeDone f x (fun l =>
      if intMin f.ty ≤ z f.ty (opv f l) ∧ z f.ty (opv f l) ≤ intMax f.ty then sameOnBoth (fun l => result f.ty (mdOf x f) (z f.ty (opv f l))) l
      else tokenOnBoth (fun l => { value := 2, tag := l.tag, kind := .poison }) l) s)

/-! ### Sequence records (R258, R284, R285) -/

namespace Sys2Proof.Claims

/-- The records of one result that only depends on the sources qa, qb and qc, each as the operation on md and those. -/
def recordOp : Instr → Option (SeqRec → Nat → (Nat → BitVec 32) → BitVec 32 × Conds)
  | .addQ => some (fun f => addOp f.ty)
  | .subQ => some (fun f => subOp f.ty)
  | .mulQ => some (fun f => mulOp f.ty)
  | .mulhQ => some (fun f => mulhOp f.ty)
  | .madQ => some (fun f => madOp f.ty)
  | .divQ => some (fun f => divOp f.ty)
  | .remQ => some (fun f => remOp f.ty)
  | .minQ => some (fun f => minOp f.ty)
  | .maxQ => some (fun f => maxOp f.ty)
  | .absQ => some (fun f => absOp f.ty)
  | .negQ => some (fun f => negOp f.ty)
  | .andQ => some (fun f => andOp f.ty)
  | .orQ => some (fun f => orOp f.ty)
  | .xorQ => some (fun f => xorOp f.ty)
  | .notQ => some (fun f => notOp f.ty)
  | .shlQ => some (fun f => shlOp f.ty)
  | .shrQ => some (fun f => shrOp f.ty)
  | .sarQ => some (fun f => sarOp f.ty)
  | .rotlQ => some (fun f => rotlOp f.ty)
  | .clzQ => some (fun f => clzOp f.ty)
  | .popcQ => some (fun f => popcOp f.ty)
  | .cmpQ => some (fun f => cmpOp f.ty)
  | .faddQ => some (fun f => faddOp f.ty)
  | .fsubQ => some (fun f => fsubOp f.ty)
  | .fmulQ => some (fun f => fmulOp f.ty)
  | .ffmaQ => some (fun f => ffmaOp f.ty)
  | .fminQ => some (fun f => fminOp f.ty)
  | .fmaxQ => some (fun f => fmaxOp f.ty)
  | .fabsQ => some (fun f => fabsOp f.ty)
  | .fnegQ => some (fun f => fnegOp f.ty)
  | .fcmpQ => some (fun f => fcmpOp f.ty)
  | .fcvtQ => some (fun f => fcvtOp (tyOfCode (f.im.toNat % 16)) f.ty)
  | .itofQ => some (fun f => itofOp (tyOfCode (f.im.toNat % 16)) f.ty)
  | .ftoiQ => some (fun f => ftoiOp (tyOfCode (f.im.toNat % 16)) f.ty)
  | .frndQ => some (fun f => frndOp f.ty)
  | .fscaleQ => some (fun f => fscaleOp f.ty)
  | .fclassQ => some (fun f => fclassOp f.ty)
  | .exp2Q => some (fun f => exp2Op f.ty)
  | .log2Q => some (fun f => log2Op f.ty)
  | .rcpQ => some (fun f => rcpOp f.ty)
  | .rsqQ => some (fun f => rsqOp f.ty)
  | .sqrtQ => some (fun f => sqrtOp f.ty)
  | .tanhQ => some (fun f => tanhOp f.ty)
  | .passQ => some (fun f _ v => (if f.ty = .tile then v 0 else extend f.ty (v 0), {}))
  | .pnotQ => some (fun _ _ v => (pred (!truth (v 0)), {}))
  | .pandQ => some (fun _ _ v => (pred (truth (v 0) && truth (v 1)), {}))
  | .porQ => some (fun _ _ v => (pred (truth (v 0) || truth (v 1)), {}))
  | .pxorQ => some (fun _ _ v => (pred (truth (v 0) != truth (v 1)), {}))
  | _ => none

/-- The records with a rule of their own and no condition: what each gives a lane. -/
def recordOut : Instr → Option (Region → SeqRun → SeqRec → SeqLane → SeqOut)
  | .constQ => some (fun _ _ f _ => { value := extend f.ty f.im })
  | .selQ => some (fun r q f l => { value := extend f.ty (if truth (source r q f l 2) then source r q f l 0 else source r q f l 1) })
  | .idxQ => some (fun r _ f l => { value := BitVec.ofNat 32 (hdrField r.header ((boundId r l.lane.tag).getD 0) (f.im.toNat % 8)) })
  | .widQ => some (fun r _ f l => { value := BitVec.ofNat 32 ((boundId r l.lane.tag).getD 0 / 2 ^ (32 * (f.im.toNat % 2))) })
  | .emit => some (fun r q f l => { emit := some (false, extend f.ty (source r q f l 0)) })
  | .emitp => some (fun r q f l => { emit := some (true, pred (truth (source r q f l 0))) })
  | _ => none

end Sys2Proof.Claims

open Sys2Proof.Claims

/-- R258, R262 to R276: a record of a running sequence writes its operation's value, from its sources, to its temporary in every live lane, pops the
in-queues it names, and the sequence goes on to its next record or ends, where no lane's conditions stop it and no lane reads a poisoned temporary. -/
def Obligations.RecordsComplete : Prop :=
  ∀ (i : Instr) (g : SeqRec → Nat → (Nat → BitVec 32) → BitVec 32 × Conds) (s : State) (r : Region) (n : Nat) (q : SeqRun) (f : SeqRec)
    (lanes : List SeqLane) (qs : InQueues), recordOp i = some g → Runs s r n q f lanes qs →
    (∀ l ∈ lanes, l.live = true → fate r.sys.trapEn (g (rowRec q f) (rowRec q f).md.toNat (source r q (rowRec q f) l)).2 = .stands) →
    exec i s = .next (rowDone q.rid n q f lanes qs
      (fun l => { value := (g (rowRec q f) (rowRec q f).md.toNat (source r q (rowRec q f) l)).1 }) s)

/-- R258, R262, R269, R270, R285: CONST, SEL, IDX and WID of a sequence, and EMIT and EMITP, which send a token for every live lane. -/
def Sys2Proof.Claims.emitRecordsRun : Prop :=
  ∀ (i : Instr) (g : Region → SeqRun → SeqRec → SeqLane → SeqOut) (s : State) (r : Region) (n : Nat) (q : SeqRun) (f : SeqRec)
    (lanes : List SeqLane) (qs : InQueues), recordOut i = some g → Runs s r n q f lanes qs →
    exec i s = .next (rowDone q.rid n q f lanes qs (g r q (rowRec q f)) s)

/-- R268, R275: BFX and BFI of a sequence with a control word that R268 admits, and SINCOS, which writes the sine to w(qd) and the cosine to
w(qd + 1). -/
def Sys2Proof.Claims.fieldRecordsRun : Prop :=
  ∀ (s : State) (r : Region) (n : Nat) (q : SeqRun) (f : SeqRec) (lanes : List SeqLane) (qs : InQueues), Runs s r n q f lanes qs →
    (isInt f.ty = true → (∀ l ∈ lanes, l.live = true → controlOk f.ty (source r q (rowRec q f) l 1) = true) →
      exec .bfxQ s = .next (rowDone q.rid n q f lanes qs
        (fun l => { value := extracted f.ty (source r q (rowRec q f) l 0) (source r q (rowRec q f) l 1) }) s)) ∧
    (isInt f.ty = true → (∀ l ∈ lanes, l.live = true → controlOk f.ty (source r q (rowRec q f) l 2) = true) →
      exec .bfiQ s = .next (rowDone q.rid n q f lanes qs
        (fun l => { value := inserted f.ty (source r q (rowRec q f) l 0) (source r q (rowRec q f) l 1) (source r q (rowRec q f) l 2) }) s)) ∧
    (let a := fun l => sinOp f.ty (rowRec q f).md.toNat (fun _ => source r q (rowRec q f) l 0)
     let b := fun l => cosOp f.ty (rowRec q f).md.toNat (fun _ => source r q (rowRec q f) l 0)
     (∀ l ∈ lanes, l.live = true → fate r.sys.trapEn ((a l).2.or (b l).2) = .stands) →
      exec .sincosQ s = .next (rowDone q.rid n q f lanes qs (fun l => { value := (a l).1, second := some (b l).1 }) s))

/-- R258, R262, R268 to R270, R275, R285: the records with a rule of their own: CONST, SEL, IDX, WID, EMIT, EMITP, BFX, BFI and SINCOS. -/
def Obligations.OwnRuleRecordsComplete : Prop := emitRecordsRun ∧ fieldRecordsRun

/-! ### Tile and attention nodes (R340 to R358, R369 to R374) -/

namespace Sys2Proof.Claims

/-- The tile nodes, each with its record and what it gives a lane under md. -/
def tileOp : Instr → Option (NodeRec × TileOp)
  | .vmap f => some (f, vmapOut f)
  | .vfma f => some (f, vfmaOut f)
  | .vcmpm f => some (f, vcmpmOut f)
  | .vredSum f => some (f, vredSumOut f)
  | .vredMax f => some (f, vredMaxOut f)
  | .vredMin f => some (f, vredMinOut f)
  | .vscanSum f => some (f, vscanSumOut f)
  | .vscanMax f => some (f, vscanMaxOut f)
  | .vscanMin f => some (f, vscanMinOut f)
  | .vcompress f => some (f, vcompressOut f)
  | .vexpand f => some (f, vexpandOut f)
  | .vtopk f => some (f, vtopkOut f)
  | .vtopkIdx f => some (f, vtopkIdxOut f)
  | .vsoft f => some (f, vsoftOut f)
  | .vquant f => some (f, vquantOut f)
  | .vdeq f => some (f, vdeqOut f)
  | .vcvt f => some (f, vcvtOut f)
  | .vtransp f => some (f, vtranspOut f)
  | .vslice f => some (f, vsliceOut f)
  | .vcat f => some (f, vcatOut f)
  | .vhdr f => some (f, vhdrOut f)
  | .vhdrSet f => some (f, vhdrSetOut f)
  | .vbcast f => some (f, vbcastOut f)
  | .vmaskKeep f => some (f, vmaskKeepOut f)
  | .vmaskCausal f => some (f, vmaskCausalOut f)
  | .vmaskLength f => some (f, vmaskLengthOut f)
  | _ => none

/-- The attention nodes that keep no state of their own, each with its record and what it gives a lane of an issue on a state. -/
def attentionOut : Instr → Option (NodeRec × (Issue → Region → State → Lane → Except (Nat × Nat) TileOut))
  | .score f => some (f, fun x r s l => scoreOut f (plinthAt s r.hall (f.ex.toNat % 4)) x.rid l)
  | .pair f => some (f, fun _ _ _ l => pairOut f l)
  | .norm f => some (f, fun x _ _ l => normOut f (mdOf x f / 4 * 4) l)
  | .rope f => some (f, fun x _ _ l => ropeOut f (mdOf x f) l)
  | _ => none

/-- The elements of a packet's rows kept where a test holds, and the fill elsewhere. -/
def filled (p : Pkt) (fill : Nat) (keep : Nat → Nat → Bool) : List (List Nat) :=
  (p.rows.zipIdx).map (fun r => (r.1.els.zipIdx).map (fun e => if keep r.2 e.2 then e.1 else fill))

end Sys2Proof.Claims

open Sys2Proof.Claims

/-- R340 to R358: a tile node whose firing lanes all take their operands, and whose conditions let the results stand, sends each lane's packets and
values, and counts dropped softmax terms in LOSTTERM. -/
def Obligations.TileNodesComplete : Prop :=
  ∀ (i : Instr) (f : NodeRec) (g : TileOp) (o : Lane → TileOut) (s : State) (x : Issue) (r : Region),
    tileOp i = some (f, g) → Fires s x r →
    (∀ l ∈ x.lanes, firing f l = true → g (mdOf x f) l = .ok (o l) ∧ fate r.sys.trapEn (o l).conds = .stands) →
    exec i s = .next (tileDone f x o s)

/-- R355, R357, R358 and R342: VTRANSP sends the packet with element (j, i) := (i, j) to both destinations; VBCAST one with ROWS of lit[7:0] and
COLS of lit[15:8] whose every element holds the scalar, LASTK 1, KCH 0 and ROWTAG 0; VMASK.CAUSAL keeps the elements with ROWTAG + j ≤ q + i and
VMASK.LENGTH those with ROWTAG + j < q, and fills the others with lit. -/
def Obligations.TileShapesByRule : Prop :=
  ∀ (f : NodeRec) (s : State) (x : Issue) (r : Region) (l : Lane), Fires s x r → x.lanes = [l] → firing f l = true →
    let one := fun (q : Pkt) => .next (nodeDone f x (tokenOnBoth (fun l => tileToken l.tag q.bytes)) s)
    exec (.vbcast f) s = one
      { hdr := { fmt := tyCode f.ty, rows := f.lit.toNat % 256, cols := f.lit.toNat / 256 % 256, scl := 0, spm := 0, lastk := 1, kch := 0, rowtag := 0 }
        rows := List.replicate (f.lit.toNat % 256) { els := List.replicate (f.lit.toNat / 256 % 256) ((opv f l 0).toNat % 2 ^ tyWidth f.ty) } } ∧
    (∀ p : Pkt, portPkt f l 0 = some p → p.hdr.rows ≠ 0 → p.hdr.fmt ≤ 10 → p.hdr.scl = 0 → p.hdr.spm = 0 →
      exec (.vtransp f) s = one
        { hdr := { p.hdr with rows := p.hdr.cols, cols := p.hdr.rows }
          rows := (List.range p.hdr.cols).map (fun j => { els := (List.range p.hdr.rows).map (fun i => p.el i j) }) } ∧
      (f.lit.toNat < 2 ^ fmtWidth p.hdr.fmt →
        exec (.vmaskCausal f) s = one
          { hdr := p.hdr, rows := (filled p f.lit.toNat (fun i j => (p.hdr.rowtag + j : Int) ≤ (opv f l 1).toInt + i)).map (fun e => { els := e }) } ∧
        exec (.vmaskLength f) s = one
          { hdr := p.hdr, rows := (filled p f.lit.toNat (fun _ j => (p.hdr.rowtag + j : Int) < (opv f l 1).toInt)).map (fun e => { els := e }) }))

/-- R416, R431, R401: a tile node whose lanes' port 0 holds no packet with a legal header takes the trap HDR, code 0x22. -/
def Obligations.HeaderTrapTaken : Prop :=
  ∀ (i : Instr) (f : NodeRec) (g : TileOp) (s : State) (x : Issue) (r : Region) (l0 : Lane) (ls : List Lane),
    tileOp i = some (f, g) → (∀ n, i ≠ .vbcast n) → Fires s x r → x.lanes = l0 :: ls → (∀ l ∈ x.lanes, firing f l = true ∧ portPkt f l 0 = none) →
    Handles r →
    exec i s = .next { onRegion x.rid (handling (nodeTrap f r x 0 0x22 (opv f l0 0).toNat)) (x.lanes.foldl (pended f x 0 0x22) s) with issue := none }

/-- R369 to R371, R373, R374: SCORE, PAIR, NORM and ROPE send each lane's result where it takes its operands and its conditions let it stand. -/
def Obligations.AttentionNodesComplete : Prop :=
  ∀ (i : Instr) (f : NodeRec) (g : Issue → Region → State → Lane → Except (Nat × Nat) TileOut) (o : Lane → TileOut)
    (s : State) (x : Issue) (r : Region), attentionOut i = some (f, g) → Fires s x r → (∀ l ∈ x.lanes, firstPoison l = none) →
    (∀ l ∈ x.lanes, firing f l = true → g x r s l = .ok (o l) ∧ fate r.sys.trapEn (o l).conds = .stands) →
    exec i s = .next (tileDone f x o s)

/-! ### Tags, counters and retirement (R54, R261, R279 to R283, R287) -/

namespace Sys2Proof.Claims

/-- A lane runs a node that handles poison itself: its gate is open, or it holds final poison (R407). -/
def takes (f : NodeRec) (l : Lane) : Bool := gateOpen f l || (firstPoison l).isSome

/-- The lanes of a node that keeps state in its region, in order: each lane sees what the lanes before it did (R261). -/
def lanesInTurn (f : NodeRec) (x : Issue) (run : Lane → Bool) (work : Lane → Region → Region)
    (out : Region → Lane → Option Token × Option Token) (s : State) : State :=
  { x.lanes.foldl (fun u l => match kget u.regions x.rid with
      | some r => laneSent f x l (out r l) (if run l then onRegion x.rid (work l) u else u)
      | none => u) s with issue := none }

/-- The tag at the head of a loop region's free list. -/
def nextTag (r : Region) (loop : Nat) : Nat := (freeTags r loop).headD 0

/-- A region with the tag at the head of a free list drawn and bound as a firing's tag is (R54, R279). -/
def tagTaken (loop tag : Nat) (r : Region) : Region :=
  { r with active := { r.active with
      free := kset r.active.free loop (freeTags r loop).tail
      binds := match boundId r tag with
        | some w => kset r.active.binds (nextTag r loop) w
        | none => kdel r.active.binds (nextTag r loop) } }

/-- A region with a tag at the tail of a free list, bound to nothing (R54, R280). -/
def tagGiven (loop tag : Nat) (r : Region) : Region :=
  { r with active := { r.active with free := kset r.active.free loop (freeTags r loop ++ [tag]), binds := kdel r.active.binds tag } }

/-- The counter of a node. -/
def counter (r : Region) (x : Issue) : Nat := kgetD r.active.counts (x.cell * 32 + x.node) 0

/-- The limit of a COUNT: 0 means 2^32 (R282). -/
def limit (f : NodeRec) : Nat := if f.lit = 0 then 2 ^ 32 else f.lit.toNat

/-- The state with the invocation of an identifier open (R71): a new one takes the lowest free place of the hall, with all of its iterations
unretired. -/
def opened (rid id : Nat) (r : Region) (s : State) : State :=
  match openInv s r rid id, firstFree maxInvs (fun k => (kget (hallAt s r.hall).invs k).isNone) with
  | none, some k =>
    let i : Invocation := { rid := rid, serial := s.tick, first := invFirst r.header id, live := itersFrom r.header (hdrInv r.header + 1)
                            retired := [], discarded := none, poisoned := 0 }
    { s with tick := s.tick + 1, halls := s.halls.set r.hall { hallAt s r.hall with invs := kset (hallAt s r.hall).invs k i } }
  | _, _ => s

/-- The target of a DONE: its port 0 or literal; poison retires (R287, R407). -/
def target (f : NodeRec) (l : Lane) : Nat := if (firstPoison l).isSome then 0xFFFFFFFF else (opv f l 0).toNat

/-- The state with an iteration retired: its invocation has one unretired iteration less, and is discarded with the code of the poison that
retired it (R70, R287, R407). -/
def retiring (rid id : Nat) (poison : Option Nat) (s : State) : State :=
  match kget s.regions rid with
  | none => s
  | some r =>
    let s := match openInv s r rid id with
      | some k => match kget (hallAt s r.hall).invs k with
        | some i =>
          let i := { i with
            live := if i.retired.contains id then i.live else i.live - 1, retired := addNat i.retired id
            discarded := match poison with | some c => some (i.discarded.getD c) | none => i.discarded
            poisoned := if poison.isSome then i.poisoned + 1 else i.poisoned }
          { s with halls := s.halls.set r.hall { hallAt s r.hall with invs := kset (hallAt s r.hall).invs k i } }
        | none => s
      | none => s
    onRegion rid (fun r => { r with run := { r.run with started := r.run.started.filter (· != id) } }) s

/-- What DONE does for a lane of region `r`: it retires the iteration, or queues the thread at an act's entry; in thread mode the tag returns to
loop region 0 (R287). -/
def lanesEnd (f : NodeRec) (x : Issue) (r : Region) (u : State) (l : Lane) : State :=
  let id := (boundId r l.tag).getD 0
  let u := if target f l = 0xFFFFFFFF then retiring x.rid id ((firstPoison l).map (fun t => bits t.value.toNat 0 16)) u
    else onRegion x.rid (fun r => { r with threads := kset r.threads (target f l) (kgetD r.threads (target f l) [] ++ [id]) }) u
  if hdrThread r.header then onRegion x.rid (tagGiven 0 l.tag) u else u

end Sys2Proof.Claims

open Sys2Proof.Claims

/-- R54, R261, R279: TAGNEW draws for each lane the tag at the head of its loop region's free list and binds it as the lane's tag is bound; op0 goes to
da under the new tag, and the tag's number to db under the lane's own. -/
def Sys2Proof.Claims.tagNewRuns : Prop :=
  ∀ (f : NodeRec) (s : State) (x : Issue) (r : Region), Fires s x r →
    (x.lanes.filter (takes f)).length ≤ (freeTags r (f.ax.toNat % 16)).length →
    exec (.tagnew f) s = .next (lanesInTurn f x (takes f) (fun l => tagTaken (f.ax.toNat % 16) l.tag)
      (fun r l => if takes f l then
        (some (poisonOr l { forwarded f l 0 with tag := nextTag r (f.ax.toNat % 16) }),
         some (poisonOr l (dataTok l (BitVec.ofNat 32 (nextTag r (f.ax.toNat % 16)))))) else (none, none)) s)

/-- R280, R281: TAGRET returns each lane's tag, which its loop region has drawn, to the tail of the free list and clears its binding; TAGSET changes
no tag; both send op0 on da and db under the tag op1[11:0]. -/
def Sys2Proof.Claims.tagReturnRuns : Prop :=
  ∀ (f : NodeRec) (s : State) (x : Issue) (r : Region), Fires s x r →
    let sent := fun (_ : Region) (l : Lane) => if takes f l then tokenOnBoth (fun l => poisonOr l { forwarded f l 0 with tag := outerTag f l }) l else (none, none)
    ((∀ l ∈ x.lanes, takes f l = true → tagDrawn r (f.ax.toNat % 16) l.tag = true) → ((x.lanes.filter (takes f)).map (·.tag)).Nodup →
      exec (.tagret f) s = .next (lanesInTurn f x (takes f) (fun l => tagGiven (f.ax.toNat % 16) l.tag) sent s)) ∧
    exec (.tagset f) s = .next (lanesInTurn f x (fun _ => false) (fun _ r => r) sent s)

/-- R422, R431: TAGRET, and DONE that retires, trap with TAG, code 0x21, under tags that their loop region has not drawn. -/
def Obligations.FreeTagTrapTaken : Prop :=
  ∀ (f : NodeRec) (s : State) (x : Issue) (r : Region) (l0 : Lane) (ls : List Lane),
    Fires s x r → x.lanes = l0 :: ls → (∀ l ∈ x.lanes, firing f l = true) → Handles r →
    let trapped : Host.Outcome State Fault Refusal := .next { onRegion x.rid (handling (nodeTrap f r x 0 0x21 (opv f l0 0).toNat))
      (x.lanes.foldl (pended f x 0 0x21) s) with issue := none }
    ((∀ l ∈ x.lanes, tagDrawn r (f.ax.toNat % 16) l.tag = false) → exec (.tagret f) s = trapped) ∧
    ((∀ l ∈ x.lanes, tagDrawn r 0 l.tag = false ∧ (opv f l 0).toNat = 0xFFFFFFFF) → exec (.done f) s = trapped)

/-- R282, R261: COUNT sends each lane the counter's value on da and whether it is the last before the limit on db, and advances it modulo the limit. -/
def Sys2Proof.Claims.countRuns : Prop :=
  ∀ (f : NodeRec) (s : State) (x : Issue) (r : Region), Fires s x r →
    exec (.count f) s = .next (lanesInTurn f x (firing f)
      (fun _ r => { r with active := { r.active with counts := kset r.active.counts (x.cell * 32 + x.node) ((counter r x + 1) % limit f) } })
      (fun r l => laneTokens f l (some (dataTok l (BitVec.ofNat 32 (counter r x))), some (dataTok l (pred (counter r x + 1 == limit f))))) s)

/-- R283: INIT sends its literal to da and db under the tag ex[11:0]; in sequence mode it binds that tag to the run's first identifier, whose invocation
opens, and in thread mode to none. -/
def Sys2Proof.Claims.initRuns : Prop :=
  ∀ (f : NodeRec) (s : State) (x : Issue) (r : Region) (l : Lane), Fires s x r → x.lanes = [l] → firing f l = true →
    let tag := f.ex.toNat % 4096
    let sent := fun (s : State) => .next { laneSent f x l (tokenOnBoth (fun _ => { value := extend f.ty f.lit, tag := tag }) l) s with issue := none }
    if hdrThread r.header = false ∧ r.run.left ≠ 0 then
      exec (.init f) s = sent (onRegion x.rid (fun r => { r with active := { r.active with binds := kset r.active.binds tag r.run.next } }) (opened x.rid r.run.next r s))
    else exec (.init f) s = sent (onRegion x.rid (fun r => { r with active := { r.active with binds := kdel r.active.binds tag } }) s)

/-- R70, R287, R407: DONE retires each lane's iteration, or queues its thread at the act that op0 names; its tag is one that loop region 0 has drawn, and
its iteration has not retired. It sends nothing. -/
def Sys2Proof.Claims.doneRuns : Prop :=
  ∀ (f : NodeRec) (s : State) (x : Issue) (r : Region), Fires s x r →
    (∀ l ∈ x.lanes, takes f l = true → tagDrawn r 0 l.tag = true ∧ iterLive s r x.rid l.tag = true ∧
      (target f l = 0xFFFFFFFF ∨ (hdrThread r.header = true ∧ target f l < 256 ∧ isHandlerAct r.program (target f l) = false))) →
    ((x.lanes.filter (takes f)).map (·.tag)).Nodup → ((x.lanes.filter (takes f)).map (fun l => boundId r l.tag)).Nodup → rising ((hallAt s r.hall).invs.map (·.1)) = true →
    exec (.done f) s = .next { x.lanes.foldl (fun u l => if takes f l then lanesEnd f x r u l else u) s with issue := none }

/-- R54, R261, R279 to R281: TAGNEW draws and binds tags, TAGRET returns them, and TAGSET changes none. -/
def Obligations.TagNodesComplete : Prop := tagNewRuns ∧ tagReturnRuns

/-- R70, R261, R282, R283, R287: COUNT sends and advances its counter, INIT binds its tag and sends its literal, and DONE retires or hands on its iteration. -/
def Obligations.IterationNodesComplete : Prop := countRuns ∧ initRuns ∧ doneRuns

/-! ### Memory nodes (R71, R100 to R105, R130, R289 to R295, R407) -/

namespace Sys2Proof.Claims

/-- The bytes that a load asks for at first: its type's, or the 8 of a packet's header (R290). -/
def firstBytes (f : NodeRec) : Nat := if f.ty = .tile then 8 else tyBytes f.ty

/-- A load's access. -/
def loading (f : NodeRec) (op : MemOp) (scratchOnly : Bool) : AccessKind :=
  { op := op, right := .read, len := firstBytes f, align := accessAlign f, scratchOnly := scratchOnly, byHeader := f.ty == .tile }

/-- An AMO's access. -/
def adding (n : Nat) (f : NodeRec) : NodeRec × (Issue → Lane → Option AccessKind) :=
  (f, fun x l => some { op := .amo n (opv f l 1) (mdOf x f), right := .atomic, len := 4, align := 4 })

/-- A full/empty store's access; none for a packet without a legal header. -/
def filling (beyond : Bool) (f : NodeRec) : NodeRec × (Issue → Lane → Option AccessKind) :=
  (f, fun _ l => (storeData f l).map (fun d =>
    { op := .storeFE beyond d, right := .write, len := d.length, align := accessAlign f, scratchOnly := true }))

/-- The memory nodes that only start an access, each with its record and the access of a lane (R290, R292 to R294). -/
def accessOf : Instr → Option (NodeRec × (Issue → Lane → Option AccessKind))
  | .ld f => some (f, fun _ _ => some (loading f .load false))
  | .ldfeTake f => some (f, fun _ _ => some (loading f (.loadFE true) true))
  | .ldfePeek f => some (f, fun _ _ => some (loading f (.loadFE false) true))
  | .stfe f => some (filling false f)
  | .stfeOvw f => some (filling true f)
  | .amoAdd f => some (adding 0 f)
  | .amoAnd f => some (adding 1 f)
  | .amoOr f => some (adding 2 f)
  | .amoXor f => some (adding 3 f)
  | .amoMin f => some (adding 4 f)
  | .amoMax f => some (adding 5 f)
  | .amoSwap f => some (adding 6 f)
  | .amoFadd f => some (adding 7 f)
  | .cas f => some (f, fun _ l => some { op := .cas (opv f l 1) (opv f l 2), right := .atomic, len := 4, align := 4 })
  | _ => none

/-- The request of an access at a guest address, before it has a number. -/
def request (s : State) (r : Region) (x : Issue) (f : NodeRec) (l : Lane) (op : MemOp) (va len : Nat) (loc : Option Nat) : Req :=
  { rid := x.rid, cell := x.cell, node := x.node, lane := l, wid := boundId r l.tag, op := op, ty := f.ty, da := f.da, db := f.db
    va := va, loc := loc, len := len, phase := .issued, number := 0, retry := x.retry, moment := s.moves }

/-- The buffer of a node's handle. -/
def handleBuffer (s : State) (r : Region) (f : NodeRec) : Option Buffer := (handleAt s r.vf r.ctx (f.ex.toNat % 256)).visible

/-- The request that an access makes when its location is at hand: in scratch, or in memory on a page that the translation cache holds with the right;
its offset is aligned and inside the buffer, and the handle grants it (R100 to R105). None where it traps or misses. -/
def located (s : State) (r : Region) (x : Issue) (f : NodeRec) (l : Lane) (k : AccessKind) : Option Req :=
  let off := (opv f l 0).toNat
  match handleBuffer s r f with
  | none => none
  | some b =>
    let len := if k.byHeader then b.len - off else k.len
    if off % k.align ≠ 0 ∨ b.len < off + k.len ∨ b.has k.right = false then none
    else match b.scratch with
    | some hall => some (request s r x f l k.op (b.base + off) len (some (scratchAddr hall (b.base + off))))
    | none => if k.scratchOnly then none else match tlbLookup s r.hall r.vf (b.base + off) with
      | some (pa, e) => if pageGrants e.write e.atomic k.right then some (request s r x f l k.op (b.base + off) len (some pa)) else none
      | none => none

/-- A request added behind the others under the next number. -/
def queued (q : Req) (u : State) : State := { u with tick := u.tick + 1, reqs := u.reqs ++ [{ q with number := u.tick }] }

/-- The invocation of a tag discarded with a code, unless it was before (R407, R409). -/
def discarding (rid tag code : Nat) (u : State) : State :=
  match kget u.regions rid with
  | none => u
  | some r => match tagInv u r rid tag with
    | none => u
    | some k => match kget (hallAt u r.hall).invs k with
      | none => u
      | some i => { u with halls := u.halls.set r.hall { hallAt u r.hall with
          invs := kset (hallAt u r.hall).invs k { i with discarded := some (i.discarded.getD code) } } }

/-- A lane of a node that accesses memory or names: poison goes on and discards the lane's invocation, a closed gate lets nothing happen, and
otherwise the access starts (R59, R407). -/
def lanesStart (f : NodeRec) (x : Issue) (go : Lane → State → State) (s : State) : State :=
  { x.lanes.foldl (fun u l => match firstPoison l with
    | some t => discarding x.rid l.tag (bits t.value.toNat 0 16)
        (laneSent f x l (some { t with tag := l.tag, packet := [] }, some { t with tag := l.tag, packet := [] }) u)
    | none => if gateOpen f l then go l u else u) s with issue := none }

/-- The code of an access that does not start (R431). -/
def accessCode (b : Option Buffer) (right : Right) (off len align : Nat) (scratchOnly : Bool) : Option Nat :=
  match b with
  | none => some 0x18
  | some b =>
    if off % align ≠ 0 then some 0x19
    else if b.len < off + len then some 0x1A
    else if b.has right = false then some 0x1B
    else if scratchOnly = true ∧ b.scratch = none then some 0x1B
    else none

end Sys2Proof.Claims

open Sys2Proof.Claims

/-- R100 to R102, R130, R290, R292 to R294, R407: LD, LDFE, STFE, AMO and CAS start each lane's access: its request waits to be served, behind those
before it; nothing is read or written yet, and no token leaves. -/
def Obligations.AccessesStart : Prop :=
  ∀ (i : Instr) (f : NodeRec) (k : Issue → Lane → Option AccessKind) (q : Lane → Req) (s : State) (x : Issue) (r : Region),
    accessOf i = some (f, k) → Fires s x r →
    (∀ l ∈ x.lanes, firing f l = true → (k x l).bind (located s r x f l) = some (q l)) →
    exec i s = .next (lanesStart f x (fun l => queued (q l)) s)

/-- R295: FENCE's wait is a request of the node's scope. -/
def Obligations.FenceStarts : Prop :=
  ∀ (f : NodeRec) (s : State) (x : Issue) (r : Region), Fires s x r →
    exec (.fence f) s = .next (lanesStart f x (fun l => queued
      { request s r x f l (.fence (f.ax.toNat % 8)) 0 0 none with ty := .untyped, phase := .fenced, moment := 0 }) s)

/-- R71, R130, R143, R291: ST puts the bytes of op1 into the store hold of its invocation, behind what is there, and its completions leave in the same
step, where its address is at hand, no earlier store of the node waits, no line is pinned, the hold has room and the tokens have places. Memory is
as before. -/
def Obligations.StoreEntersHold : Prop :=
  ∀ (f : NodeRec) (s : State) (x : Issue) (r : Region) (l : Lane) (d : List Byte) (q : Req) (ps : List (Nat × Nat × Nat)) (k : Nat) (i : Invocation),
    Fires s x r → x.lanes = [l] → firing f l = true → x.retry = false → storeData f l = some d →
    located s r x f l { op := .store d, right := .write, len := d.length, align := accessAlign f } = some q →
    tagInv s r x.rid l.tag = some k → kget (hallAt s r.hall).invs k = some i →
    pieces s q .write 0 d.length = .ok ps → (∀ y ∈ s.reqs, ¬ (y.rid = x.rid ∧ y.cell = x.cell ∧ y.node = x.node)) →
    (∀ line ∈ pieceLines ps, pinnedByOther s line (some (r.hall, k)) = false) → holdRoom (hallAt s r.hall) k ps = .fits →
    roomAll s x.rid x.cell [(f.da, l.tag), (f.db, l.tag)] = true →
    let held : List Held := ps.map (fun p => { inv := k, addr := p.1, data := (d.drop p.2.1).take p.2.2, vf := r.vf, va := q.va + p.2.1 })
    let s1 := { s with tick := s.tick + 1, reqs := s.reqs.filter (·.number != s.tick)
                       halls := s.halls.set r.hall { hallAt s r.hall with hold := (hallAt s r.hall).hold ++ held } }
    let done := ({ completion l with past := [i.serial] } : Token).after s l.past
    exec (.st f) s = .next { stirred x.rid (emitted x.rid x.cell f.db done (emitted x.rid x.cell f.da done s1)) with issue := none }

/-- R7, R104, R105: an LD, AMO or CAS in memory whose page the translation cache does not hold waits for a walk: for one of its die for its function's
page in progress, else for a new one, which a free walker of the die's 64 starts; perf register 4 counts the miss. -/
def Obligations.PageMissWalks : Prop :=
  ∀ (i : Instr) (f : NodeRec) (k : Issue → Lane → Option AccessKind) (s : State) (x : Issue) (r : Region) (l : Lane) (a : AccessKind) (b : Buffer),
    accessOf i = some (f, k) → Fires s x r → x.lanes = [l] → firing f l = true → k x l = some a → handleBuffer s r f = some b →
    b.scratch = none → a.scratchOnly = false → accessCode (some b) a.right (opv f l 0).toNat a.len a.align false = none →
    let va := b.base + (opv f l 0).toNat
    tlbLookup s r.hall r.vf va = none →
    let q := request s r x f l a.op va (if a.byHeader then b.len - (opv f l 0).toNat else a.len) none
    let missed := onRegion x.rid (fun r => { r with sys := { r.sys with perf := r.sys.perf.set 4 ((r.sys.perf[4]?).getD 0 + 1) } })
    let waits := fun (w : Nat) (s : State) => .next { missed s with issue := none
                                                                    reqs := s.reqs ++ [{ q with phase := .walking, walk := w, need := va, number := s.tick - 1 }] }
    match s.walks.find? (fun w => w.vf == r.vf && dieOf w.hall == dieOf r.hall && !w.stale && samePage s r.vf (w.page * 65536) va) with
    | some w => exec i s = waits w.number { s with
        tick := s.tick + 1, walks := s.walks.map (fun y => if y.number = w.number then { y with joined := addNat y.joined r.hall } else y) }
    | none => ∃ t, exec i s = .next t ∧ t.tick = s.tick + 2 ∧
        t.reqs = s.reqs ++ [{ q with phase := .walking, walk := s.tick + 1, need := va, number := s.tick }] ∧
        t.walks = s.walks ++ [{ vf := r.vf, page := va / 65536, hall := r.hall, joined := [r.hall], number := s.tick + 1
                                started := (s.walks.filter (fun w => w.started && dieOf w.hall == dieOf r.hall)).length < 64 }]

/-- R101, R398, R431: a memory access takes HANDLE for an unmapped handle, else ALIGN for a misaligned offset, else BOUND outside the buffer, else RIGHTS
for a missing right or, for LDFE and STFE, a memory handle (the order is the model's, DEDUCED, log 29). -/
def Obligations.AccessTrapTaken : Prop :=
  ∀ (i : Instr) (f : NodeRec) (k : Issue → Lane → Option AccessKind) (s : State) (x : Issue) (r : Region) (l : Lane) (a : AccessKind) (c : Nat),
    accessOf i = some (f, k) → Fires s x r → x.lanes = [l] → firing f l = true → k x l = some a → Handles r →
    accessCode (handleBuffer s r f) a.right (opv f l 0).toNat a.len a.align a.scratchOnly = some c →
    exec i s = .next { onRegion x.rid (handling (nodeTrap f r x 0 c (opv f l 0).toNat)) (pended f x 0 c s l) with issue := none }

/-! ### Name nodes (R74, R81 to R88, R296) -/

namespace Sys2Proof.Claims

/-- No request waits on a fold of a hall. -/
def unawaited (s : State) (hall key : Nat) : Prop :=
  ∀ q ∈ s.names, ∀ y, reqSlot s q = some y → ¬ (y.1 = hall ∧ y.2.1 = key)

/-- The slot of a name in a fold of a region. -/
def slotOf (r : Region) (x : Fold) (n : Nat) : FoldSlot := kgetD x.slots (slotIndex x.lattice (fieldsOf r.header n)) emptySlot

/-- The slot of a name of a region's statement in a state. -/
def slotNow (s : State) (r : Region) (stmt n : Nat) : Option FoldSlot := (kget (hallAt s r.hall).folds (foldKey r.ctx stmt)).map (fun x => slotOf r x n)

/-- A lane of a name node names `n` of fold `y`, whose gate is open. -/
def Names (s : State) (r : Region) (f : NodeRec) (l : Lane) (n : Nat) (y : Fold) : Prop :=
  nameOf r f l.tag = some n ∧ kget (hallAt s r.hall).folds (foldKey r.ctx (stmtOf f)) = some y ∧ y.gate = none

end Sys2Proof.Claims

open Sys2Proof.Claims

/-- R81, R82: an NRD that names the occupant of a Full slot, or of a slot that its own invocation holds, is served at once: the value goes to da, a completion to db;
TAKE leaves one use less, and a Full slot whose last use it takes is Empty. -/
def Sys2Proof.Claims.nameReadServed : Prop :=
  ∀ (f : NodeRec) (take : Bool) (s : State) (x : Issue) (r : Region) (l : Lane) (n : Nat) (y : Fold),
    Fires s x r → x.lanes = [l] → firing f l = true → x.retry = false → x.cell < 64 → Names s r f l n y →
    let sl := slotOf r y n
    sl.iv = n → (sl.state = .full ∨ (sl.state = .held ∧ tagInv s r x.rid l.tag = some sl.inv)) → (take = true → 0 < sl.uses) → sl.bad = false →
    (if f.ty = .tile then (pktHdr sl.tile).ok = true else (opv f l 0).toNat < y.lattice.size / 4) →
    roomAll s x.rid x.cell [(f.da, l.tag), (f.db, l.tag)] = true → unawaited s r.hall (foldKey r.ctx (stmtOf f)) →
    let v : Token := if f.ty = .tile then tileToken l.tag (sl.tile.take (pktHdr sl.tile).length)
      else { value := BitVec.ofNat 32 (leNat ((sl.tile.drop (4 * (opv f l 0).toNat)).take 4)), tag := l.tag }
    let sent := stirred x.rid (emitted x.rid x.cell f.db ((completion l).after s l.past) (emitted x.rid x.cell f.da (v.after s l.past) s))
    ∃ t, exec (if take then .nrdTake f else .nrdPeek f) s = .next t ∧ t.regions = sent.regions ∧ t.chans = sent.chans ∧ t.mem = s.mem ∧ t.names = s.names ∧
      slotNow t r (stmtOf f) n = some (if take then (if sl.uses = 1 ∧ sl.state = .full then emptySlot else { sl with uses := sl.uses - 1, wr := false, rd := false })
        else { sl with wr := false, rd := false })

/-- R81, R87: an NRD that finds its slot Empty, or an earlier name in it, waits behind the requests before it; the slot keeps its occupant and nothing is sent. -/
def Sys2Proof.Claims.nameReadWaits : Prop :=
  ∀ (f : NodeRec) (take : Bool) (s : State) (x : Issue) (r : Region) (l : Lane) (n : Nat) (y : Fold),
    Fires s x r → x.lanes = [l] → firing f l = true → Names s r f l n y →
    (slotOf r y n).state = .empty ∨ ((slotOf r y n).state ≠ .moving ∧ (slotOf r y n).iv < n) →
    (f.ty = .tile ∨ (opv f l 0).toNat < y.lattice.size / 4) → rising (y.slots.map (·.1)) = true →
    ∃ t sl, exec (if take then .nrdTake f else .nrdPeek f) s = .next t ∧ t.regions = s.regions ∧ t.chans = s.chans ∧ t.mem = s.mem ∧
      t.names = s.names ++ [nameReq s x r f l n take false 0 []] ∧ slotNow t r (stmtOf f) n = some sl ∧
      sl.rd = true ∧ sl.state = (slotOf r y n).state ∧ ((slotOf r y n).state ≠ .empty → sl = { slotOf r y n with rd := true, wr := sl.wr })

/-- R81, R82, R87: an NRD is served from a slot that holds its name, and waits at one that is Empty or holds an earlier name. -/
def Obligations.NameReadsComplete : Prop := nameReadServed ∧ nameReadWaits

/-- R83, R296: an NWR to an Empty slot writes its tile and header (n, Held, uses, INV), or Full when no invocation is open, and sends its completions. -/
def Obligations.NameWritten : Prop :=
  ∀ (f : NodeRec) (s : State) (x : Issue) (r : Region) (l : Lane) (n : Nat) (y : Fold),
    Fires s x r → x.lanes = [l] → firing f l = true → x.retry = false → x.cell < 64 → Names s r f l n y → y.check = .accepted →
    (slotOf r y n).state = .empty → 0 < useCount l y → useCount l y ≤ 65535 →
    (f.ty = .tile → (pktHdr (operand f l 0).packet).ok = true ∧ (operand f l 0).packet.length ≤ y.lattice.size) →
    roomAll s x.rid x.cell [(f.da, l.tag), (f.db, l.tag)] = true → unawaited s r.hall (foldKey r.ctx (stmtOf f)) →
    let data := if f.ty = .tile then (operand f l 0).packet else bytesOfNat 4 (opv f l 0).toNat
    let done := (completion l).after s l.past
    let sent := stirred x.rid (emitted x.rid x.cell f.db done (emitted x.rid x.cell f.da done s))
    ∃ t, exec (.nwr f) s = .next t ∧ t.regions = sent.regions ∧ t.chans = sent.chans ∧ t.mem = s.mem ∧ t.names = s.names ∧
      slotNow t r (stmtOf f) n = some
        { iv := n, stmt := stmtOf f, state := if (tagInv s r x.rid l.tag).isSome then .held else .full, uses := useCount l y, wr := false, rd := false
          inv := (tagInv s r x.rid l.tag).getD 0, tile := (data ++ List.replicate (y.lattice.size - data.length) 0).take y.lattice.size }

/-- R88, R296: NPROBE sends the code of its name's slot, and with code 1 its USES in bits 31 to 16, to both destinations of each lane; it changes no slot. -/
def Obligations.ProbeCompletes : Prop :=
  ∀ (f : NodeRec) (s : State) (x : Issue) (r : Region), Fires s x r → rising ((hallAt s r.hall).invs.map (·.1)) = true →
    (∀ l ∈ x.lanes, firing f l = true → ∃ n y, nameOf r f l.tag = some n ∧ kget (hallAt s r.hall).folds (foldKey r.ctx (stmtOf f)) = some y) →
    let code := fun (l : Lane) =>
      let n := (nameOf r f l.tag).getD 0
      match kget (hallAt s r.hall).folds (foldKey r.ctx (stmtOf f)) with
      | none => 0
      | some y =>
        let sl := slotOf r y n
        if y.gate.isSome ∨ sl.state = .moving then 3
        else if sl.state = .empty ∨ sl.iv < n then 0
        else if n < sl.iv then 2
        else if sl.state = .full ∨ tagInv s r x.rid l.tag = some sl.inv then 1 + sl.uses * 65536
        else 3
    exec (.nprobe f) s = .next (lanesStart f x (fun l u => laneSent f x l (sameOnBoth (fun l => BitVec.ofNat 32 (code l)) l) u) s)

/-- R74, R426: a name outside its level's extent takes NRANGE, code 0x29, with the statement as operand. -/
def Obligations.NameRangeTrapTaken : Prop :=
  ∀ (i : Instr) (f : NodeRec) (s : State) (x : Issue) (r : Region) (l : Lane), i ∈ [.nrdTake f, .nrdPeek f, .nwr f, .nprobe f] →
    Fires s x r → x.lanes = [l] → firing f l = true → Handles r → nameOf r f l.tag = none →
    exec i s = .next { onRegion x.rid (handling (nodeTrap f r x 0 0x29 (stmtOf f))) (pended f x 0 0x29 s l) with issue := none }

/-! ### Matrix nodes and ACC (R162 to R168, R365 to R368, R372) -/

namespace Sys2Proof.Claims

/-- The rows of a region's plinth in a state. -/
def rowsNow (s : State) (r : Region) (k : Nat) : KMap AccRow := (plinthAt s r.hall k).rows

/-- A node's plinth is held with its slots, is configured, and has no packet in work. -/
def Plinthed (s : State) (x : Issue) (r : Region) (f : NodeRec) (slots : List Nat) (cfg : MxCfg) : Prop :=
  plinthOk (plinthAt s r.hall (f.ex.toNat % 4)) x.rid slots = some cfg ∧ (plinthAt s r.hall (f.ex.toNat % 4)).jobs = []

end Sys2Proof.Claims

open Sys2Proof.Claims

/-- R162 to R166, R365, R366: an A packet of one row at a plinth with nothing in work, whose slot group holds its chunk and whose accumulator row is free,
joins its products to a zero row; in KEEP mode the row stays and a completion leaves on db, and otherwise a packet leaves on da: with LASTK the row's
values, and the row is free again, without LASTK a null packet. -/
def Obligations.RowJoins : Prop :=
  ∀ (f : NodeRec) (s : State) (x : Issue) (r : Region) (l : Lane) (cfg : MxCfg) (a b : Pkt) (v : VitSlot),
    let k := f.ex.toNat % 4
    let p := plinthAt s r.hall k
    let group := slotGroup f.ex.toNat
    let number := a.hdr.rowtag % 128
    let (joined, conds) := joinChunk (List.replicate cfg.n (.fin 0 0))
      ((List.range cfg.n).map (fun j => chunkOf (products b v.tr (aRow a 0).1 (aRow a 0).2 j)))
    let row : AccRow := { tag := a.hdr.rowtag % 2 ^ 24, complete := a.hdr.lastk == 1, nextChunk := 1, elems := joined, completed := (x.cell, x.node, l.tag) }
    let out := if a.hdr.lastk = 1 then csaPkt [joined] cfg.n 1 0 a.hdr.rowtag else csaPkt [] cfg.n 0 0 a.hdr.rowtag
    let done := (completion l).after s l.past
    Fires s x r → x.lanes = [l] → firing f l = true → x.retry = false → x.row = 0 → mayIssue r = true →
    (kget r.active.nodes (x.cell * 32 + x.node)).bind (fun e => nodeFields e.record) = some f →
    Plinthed s x r f group cfg → p.drain = none → portPkt f l 0 = some a → a.hdr.rows = 1 → a.hdr.fmt = tyCode cfg.afmt → a.hdr.scl ≤ 1 → a.hdr.spm = 0 → a.hdr.kch = 0 →
    chunkSlot p group 0 = some v → pktOf v.packet = some b → (b.hdr.spm == 1) = cfg.sparse → kget p.rows number = none →
    fate r.sys.trapEn conds = .stands →
    roomAll s x.rid x.cell ((if cfg.keep then [] else [(f.da, l.tag)]) ++ [(f.db, l.tag)]) = true →
    ∃ t, exec (.mxrow f) s = .next t ∧ t.mem = s.mem ∧
      kget (rowsNow t r k) number = (if cfg.keep = true ∨ a.hdr.lastk ≠ 1 then some row else none) ∧
      (∀ n, n ≠ number → kget (rowsNow t r k) n = kget p.rows n) ∧
      t.chans = (emitted x.rid x.cell f.db done (if cfg.keep then s else emitted x.rid x.cell f.da ((tileToken l.tag out.bytes).after s l.past) s)).chans

/-- R367: MXDRAIN takes the complete rows of its tags from a plinth in KEEP mode, sends them as one csa packet to both destinations, and frees them; while
one is not complete it waits. -/
def Obligations.DrainCompletes : Prop :=
  ∀ (f : NodeRec) (s : State) (x : Issue) (r : Region) (l : Lane) (cfg : MxCfg),
    let k := f.ex.toNat % 4
    let p := plinthAt s r.hall k
    let tags := drainTags f l
    let packet := fun (rs : List AccRow) => tileToken l.tag (csaPkt (rs.map (·.elems)) cfg.n 1 0 ((opv f l 0).toNat % 2 ^ 24)).bytes
    let freed := { p with rows := p.rows.filter (fun q => !(tags.map (· % 128)).contains q.1) }
    Fires s x r → x.lanes = [l] → firing f l = true → Plinthed s x r f [] cfg → cfg.keep = true → p.drain = none →
    (∀ rs : List AccRow, completeRows p tags = some rs → (∀ y ∈ rs, y.poison = none) →
      exec (.mxdrain f) s = .next { laneSent f x l (some (packet rs), some (packet rs))
        { s with halls := s.halls.set r.hall { hallAt s r.hall with plinths := (hallAt s r.hall).plinths.set k freed } } with issue := none }) ∧
    (completeRows p tags = none →
      exec (.mxdrain f) s = .next { onRegion x.rid (fun r => { r with ready := insertInst { cell := x.cell, node := x.node, lane := l } r.ready }) s with issue := none })

/-- R368: MXSTEER sends its packet on every data out-port of its cell that the region's route entry op1 names, in ascending order; an entry above 7 is ILLOP. -/
def Obligations.SteerCompletes : Prop :=
  ∀ (f : NodeRec) (s : State) (x : Issue) (r : Region), Fires s x r →
    ((∀ l ∈ x.lanes, firing f l = true → (opv f l 1).toNat ≤ 7) →
      exec (.mxsteer f) s = .next { x.lanes.foldl (fun u l =>
        if firing f l then ((List.finRange 16).filter (fun j => (kgetD r.routes (opv f l 1).toNat 0 / 2 ^ j.val) % 2 == 1)).foldl
          (fun v j => delivered x (.out j) (({ operand f l 0 with tag := l.tag } : Token).after u l.past) v) u
        else laneSent f x l (laneTokens f l (none, none)) u) s with issue := none }) ∧
    (∀ l0 ls, x.lanes = l0 :: ls → (∀ l ∈ x.lanes, firing f l = true ∧ 7 < (opv f l 1).toNat) → Handles r →
      exec (.mxsteer f) s = .next { onRegion x.rid (handling (nodeTrap f r x 0 0x12 (opv f l0 0).toNat)) (x.lanes.foldl (pended f x 0 0x12) s) with issue := none })

/-- R167, R168, R372: the first pair of a tag at ACC takes the lowest free accumulator rows, one for each query, which hold the numerators of the online softmax;
the region keeps the maxima and denominators. Without a count that is reached nothing leaves. A count on port 1 is kept until as many pairs have joined. -/
def Obligations.PairAccumulates : Prop :=
  ∀ (f : NodeRec) (s : State) (x : Issue) (r : Region) (l : Lane) (cfg : MxCfg),
    let k := f.ex.toNat % 4
    let p := plinthAt s r.hall k
    let count := if litAt f 1 then some f.lit.toNat else none
    Fires s x r → x.lanes = [l] → firing f l = true → Plinthed s x r f (slotGroup f.ex.toNat) cfg →
    (∀ (sc v : Pkt) (rows : List Nat), (kget l.ops 0).isSome = true → pairOf (operand f l 0).packet = some (sc, v) →
      (cfg.afmt = .f8e4 ∨ cfg.afmt = .f8e5) → v.hdr.cols ≤ cfg.n → count ≠ some 0 → count ≠ some 1 → kget r.acc (accKey x l.tag) = none →
      freeRows p sc.hdr.rows = some rows →
      let zero : SoftRow := { max := none, den := .fin 0 0, num := List.replicate v.hdr.cols (.fin 0 0) }
      let joined := sc.rows.map (fun q => softJoin cfg.afmt v (q.els.map (elemVal 6 0)) zero)
      fate r.sys.trapEn (joined.foldl (fun c y => c.or y.conds) {}) = .stands →
      ∃ t r', exec (.acc f) s = .next t ∧ t.chans = s.chans ∧ t.mem = s.mem ∧ kget t.regions x.rid = some r' ∧
        kget r'.acc (accKey x l.tag) = some { maxima := joined.map (·.max), dens := joined.map (·.den), rows := rows, joined := 1, count := count } ∧
        ∀ j (h : j < rows.length), kget (rowsNow t r k) rows[j] =
          (joined[j]?).map (fun y => { tag := 2 ^ 24, complete := false, nextChunk := 0, elems := y.num })) ∧
    (∀ st : AccTag, (kget l.ops 0).isSome = false → kget r.acc (accKey x l.tag) = some st → st.count = none → (opv f l 1).toNat ≠ 0 → st.joined ≠ (opv f l 1).toNat →
      ∃ t r', exec (.acc f) s = .next t ∧ t.chans = s.chans ∧ kget t.regions x.rid = some r' ∧
        kget r'.acc (accKey x l.tag) = some { st with count := some (opv f l 1).toNat })

/-! ### The sequencer: arithmetic, system registers and counters (R37, R236, R244, R303, R304, R306) -/

namespace Sys2Proof.Claims

/-- An action, and then the traps that it raised are delivered. -/
def settles (m : M Unit) (s t : State) : Prop := ∃ u, Reaches m s () u ∧ Reaches deliverTraps u () t

/-- The state with the package changed. -/
def onPkg (g : Package → Package) (s : State) : State := { s with pkg := g s.pkg }

/-- The state with a hall changed. -/
def onHall (h : Nat) (g : Hall → Hall) (s : State) : State := { s with halls := s.halls.set h (g (hallAt s h)) }

/-- Where an access of a region's sequencer through a buffer lies: in scratch, or on a page with the right that the translation cache holds, or whose walk
the sequencer has waited for (R100 to R105, R297). -/
def location (s : State) (r : Region) (b : Buffer) (right : Right) (off : Nat) : Option Nat :=
  match b.scratch with
  | some hall => some (scratchAddr hall (b.base + off))
  | none => match tlbLookup s r.hall r.vf (b.base + off) with
    | some (pa, e) => if pageGrants e.write e.atomic right then some pa else none
    | none => if Machine.walkEnded s r.vf (b.base + off) r.seq.walk = false then none else match translate s r.vf (b.base + off) with
      | .ok st => if pageGrants st.write st.atomic right then some st.addr else none
      | .error _ => none

/-- Bytes at a location can be taken for a hall: it answers, no invocation pins its lines, its row is not under test and its way does not change use (R110, R134, R439,
R445, R453). -/
def takeable (s : State) (hall a n : Nat) : Prop := answers s a = none ∧ (∀ x ∈ linesOf a n, pinnedByOther s x none = false) ∧ rowBusy s hall a = false

/-- A descriptor or buffer reference in its own form (R299). -/
def refOk (v : BitVec 64) : Prop := v.toNat % 8 = 0 ∧ v.extractLsb' 48 16 = 0 ∧ v.extractLsb' 32 8 = 0

/-- The buffer that a reference names (R299). -/
def refBuffer (s : State) (r : Region) (v : BitVec 64) : Option Buffer := (handleAt s r.vf r.ctx (v.toNat / 2 ^ 40 % 256)).visible

/-- Where an access of a hall and function through a buffer lies, in scratch or on a page with the right that the hall's translation cache holds. -/
def heldPlace (s : State) (hall vf : Nat) (b : Buffer) (right : Right) (off : Nat) : Option Nat :=
  match b.scratch with
  | some h => some (scratchAddr h (b.base + off))
  | none => (tlbLookup s hall vf (b.base + off)).bind (fun p => if pageGrants p.2.write p.2.atomic right then some p.1 else none)

/-- An access at a location has no test of its line in a hall's vault, now or once the line is there (R439). -/
def untested (s : State) (hall a : Nat) : Prop := ∀ x ∈ s.pkg.tests, x.unit = 3 → x.hall = hall → x.addr / 64 ≠ a / 64

/-- Pieces of a buffer, each an offset and a size, can be read for a hall and function, and the bytes that they give: each lies in scratch or on a page that the
translation cache holds, can be taken, is not poisoned, and has no test of its line (R101, R105, R438, R439). -/
def piecesAt (s : State) (hall vf : Nat) (b : Buffer) (off : Nat) (l : List (Nat × Nat)) (bs : List Byte) : Prop :=
  ∃ place : Nat → Nat,
    (∀ p ∈ l, heldPlace s hall vf b .read (off + p.1) = some (place p.1) ∧ takeable s hall (place p.1) p.2 ∧ poisoned s (place p.1) p.2 = false ∧ untested s hall (place p.1)) ∧
    bs = l.flatMap (fun p => readBytes s.mem (place p.1) p.2)

/-- The words of a buffer from an offset can be read, and the bytes that they give (R299). -/
def wordsAt (s : State) (r : Region) (b : Buffer) (off n : Nat) (bs : List Byte) : Prop :=
  accessCode (some b) .read off n 1 false = none ∧ piecesAt s r.hall r.vf b off ((List.range ((n + 7) / 8)).map (fun i => (8 * i, min 8 (n - 8 * i)))) bs

/-- A descriptor of `n` bytes can be read at a reference, and is some bytes (R299). -/
def atReference (s : State) (r : Region) (v : BitVec 64) (n : Nat) (bs : List Byte) : Prop :=
  refOk v ∧ ∃ b, refBuffer s r v = some b ∧ wordsAt s r b (v.toNat % 2 ^ 32) n bs

/-- Operand B: aT plus the sign-extended imm (R299). -/
def opB (s : State) (f : CmdRec) : BitVec 64 := areg s f.t + f.imm.signExtend 64

/-- A 64-bit value as ty 0 and ty 1 read it (R303). -/
def seqReads (t : Ty) (v : BitVec 64) : Int := if t = .i32 then v.toInt else (v.toNat : Int)

/-- The scalar commands, each with its record and the value that it writes to aD on a state. -/
def scalarResult : Instr → Option (CmdRec × (CmdRec → State → BitVec 64))
  | .li f => some (f, fun f _ => f.imm.signExtend 64)
  | .lih f => some (f, fun f s => f.imm ++ (areg s f.d).setWidth 32)
  | .mov f => some (f, fun f s => areg s f.s)
  | .addCmd f => some (f, fun f s => areg s f.s + opB s f)
  | .subCmd f => some (f, fun f s => areg s f.s - opB s f)
  | .mulCmd f => some (f, fun f s => areg s f.s * opB s f)
  | .andCmd f => some (f, fun f s => areg s f.s &&& opB s f)
  | .orCmd f => some (f, fun f s => areg s f.s ||| opB s f)
  | .xorCmd f => some (f, fun f s => areg s f.s ^^^ opB s f)
  | .shlCmd f => some (f, fun f s => areg s f.s <<< ((opB s f).toNat % 64))
  | .shrCmd f => some (f, fun f s => areg s f.s >>> ((opB s f).toNat % 64))
  | .sarCmd f => some (f, fun f s => (areg s f.s).sshiftRight ((opB s f).toNat % 64))
  | .cmpCmd f => some (f, fun f s => if holds f.md.toNat (seqReads f.ty (areg s f.s)) (seqReads f.ty (opB s f)) then 1 else 0)
  | .minCmd f => some (f, fun f s => if seqReads f.ty (areg s f.s) ≤ seqReads f.ty (opB s f) then areg s f.s else opB s f)
  | .maxCmd f => some (f, fun f s => if seqReads f.ty (areg s f.s) ≤ seqReads f.ty (opB s f) then opB s f else areg s f.s)
  | .time f => some (f, fun _ s => BitVec.ofNat 64 s.timeNs)
  | _ => none

/-- A system register of a region that MFS reads (R244 to R246, R398, R399). -/
def systemRegister (s : State) (r : Region) (n : Nat) : Option Nat :=
  match n with
  | 0x000 => some (r.hall * 2 ^ 48 + r.ctx * 2 ^ 40 + r.shape * 2 ^ 32 + r.seq.act * 2 ^ 6 + r.origin)
  | 0x001 => some (s.pkg.number % 1024 * 2 ^ 48 + r.vf * 2 ^ 32 + r.wing)
  | 0x003 => some (min r.sys.gwIssues 0xFFFFFFFF * 2 ^ 32 + min r.sys.gwInsts 0xFFFFFFFF)
  | 0x004 => some r.sys.lostTerm
  | 0x005 => some r.sys.probUnder
  | 0x006 => some r.sys.thresh
  | 0x007 => some r.sys.trapEn.toNat
  | 0x008 => some ((r.trap.map causeWord).getD 0)
  | 0x009 => some ((r.trap.map (·.iv)).getD 0)
  | 0x00A => some ((r.trap.map trapPcWord).getD 0)
  | 0x00B => some r.sys.trapVec.toNat
  | 0x010 => some (((kget s.wings r.wing).map (fun w => min w.forf 0xFFFFFFFF * 2 ^ 32 + w.sliceLen)).getD 0)
  | 0x011 => some (((kget s.wings r.wing).map (·.wpcap)).getD 0)
  | 0x012 => some (vfAt s r.vf).saveBase
  | 0x013 => some (hallAt s r.hall).freq
  | _ => if 0x40 ≤ n ∧ n ≤ 0x4B then some (((hallAt s r.hall).vtuse[n - 0x40]?).getD 0) else none

/-- TRAPEN after a write: a disposition of 11 leaves its field, the limits are written, and the rest stays zero (R396). -/
def trapEnAfter (old new : BitVec 64) : BitVec 64 :=
  let field := fun (i : Nat) => if new.extractLsb' (2 * i) 2 = 3#2 then old.extractLsb' (2 * i) 2 else new.extractLsb' (2 * i) 2
  new.extractLsb' 32 32 ++ 0#22 ++ field 4 ++ field 3 ++ field 2 ++ field 1 ++ field 0

/-- A region's registers after an MTS of its own scope: only LOSTTERM, PROBUNDER, THRESH, TRAPEN and TRAPVEC change (R169, R244, R396, R397). -/
def regionRegsAfter (y : RegionRegs) (n : Nat) (v : BitVec 64) : RegionRegs :=
  match n with
  | 0x004 => if v = 0 then { y with lostTerm := 0 } else y
  | 0x005 => if v = 0 then { y with probUnder := 0 } else y
  | 0x006 => { y with thresh := v.toNat % 2 ^ 32 }
  | 0x007 => { y with trapEn := trapEnAfter y.trapEn v }
  | 0x00B => { y with trapVec := v &&& 0x1FF }
  | _ => y

end Sys2Proof.Claims

open Sys2Proof.Claims

/-- R303, R306: a scalar command writes its value to aD, a0 discarding it, and the sequencer goes on; NOP only goes on. TIME.cyc and the cycle counters of
PERF write a value that the model leaves free (DESIGN CHOICE, log 2), PERF's others the region's counter. -/
def Obligations.ScalarCommandsComplete : Prop :=
  (∀ (i : Instr) (f : CmdRec) (v : CmdRec → State → BitVec 64) (s : State), scalarResult i = some (f, v) → Issues s →
    exec i s = .next (goOn (setA s f.d (v f s)))) ∧
  (∀ s : State, Issues s → exec .nop s = .next (goOn s)) ∧
  (∀ (f : CmdRec) (s : State) (r : Region), RegionIssues s r true →
    exec (.timeCyc f) s = .next (goOn (setA { s with tick := s.tick + 1 } f.d (BitVec.ofNat 64 (Config.freeReading s.tick)))) ∧
    exec (.perf f) s = .next (goOn (setA { s with tick := s.tick + 1 } f.d (BitVec.ofNat 64 (min (2 ^ 64 - 1)
      (if f.imm.toNat = 0 ∨ f.imm.toNat = 5 then Config.freeReading s.tick else (r.sys.perf[f.imm.toNat]?).getD 0)))))
    )

/-- R244 to R246, R304, R396, R397, R432: MFS writes the system register to aD, and takes ILLOP for a reserved number; MTS writes the region's own registers field by
field, ignores FREQ and the read-only ones, and takes PRIV in a region for the others. -/
def Obligations.SystemRegistersComplete : Prop :=
  ∀ (f : CmdRec) (s : State) (r : Region), RegionIssues s r true →
    (∀ v, systemRegister s r f.imm.toNat = some v → exec (.mfs f) s = .next (goOn (setA s f.d (BitVec.ofNat 64 v)))) ∧
    (f.imm.toNat ≤ 0xB → f.imm.toNat ≠ 2 →
      exec (.mts f) s = .next (goOn (onRegion s.who (fun r => { r with sys := regionRegsAfter r.sys f.imm.toNat (areg s f.s) }) s))) ∧
    (f.imm.toNat = 0x13 → exec (.mts f) s = .next (goOn s))

/-- R297, R398, R399, R401, R432: outside a handler, MFS and MTS of a number that R244 does not list take ILLOP, code 0x12, and an MTS of SLICE, WPCAP, SAVEBASE or a
VTUSE register by a guest takes PRIV, code 0x11: the handler starts, and TRAPPC names the command. -/
def Sys2Proof.Claims.systemRegisterTraps : Prop :=
  ∀ (f : CmdRec) (s : State) (r : Region), RegionIssues s r false → Handles r →
    let trapped := fun (code : Nat) => .next (onRegion s.who (handling { code := code, operand := 0, seq := true, act := r.seq.act, cmd := r.seq.index }) s)
    (systemRegister s r f.imm.toNat = none → exec (.mfs f) s = trapped 0x12 ∧ exec (.mts f) s = trapped 0x12) ∧
    (f.imm.toNat ∈ [0x10, 0x11, 0x12] ∨ (0x40 ≤ f.imm.toNat ∧ f.imm.toNat ≤ 0x4B) → exec (.mts f) s = trapped 0x11)

/-! ### Transfers, regions, configurations and launches (R38 to R45, R308 to R317) -/

namespace Sys2Proof.Claims

/-- What a command needs, and what its next state is. -/
structure Effects where
  /-- a trap handler may issue it -/
  inHandler : Bool := false
  needs : State → Region → Prop
  leads : State → Region → State → Prop

/-- An act is in a bank of a region, or on its way into one. -/
def atHand (r : Region) (a : Nat) : Prop := r.active.act = some a ∨ r.idle.act = some a ∨ r.loading = some a

/-- A region after a transfer: the act's first command is next, and the banks exchange roles when the idle one holds the act (R39, R45). -/
def entered (a : Nat) (r : Region) : Region :=
  let y := { r with
    sys := { r.sys with gwIssues := 0, gwInsts := 0, lostTerm := 0, probUnder := 0 }
    preload := none, seq := { r.seq.settled with act := a, index := 0 } }
  if r.active.act = some a then y else if r.idle.act = some a then { y with active := r.idle, idle := r.active } else y

/-- A region once the load of an act starts (R39, R40, R413). -/
def loadBegun (a : Nat) (r : Region) : Region :=
  { r with loading := some a, relaunched := false, state := if r.state = .idle ∨ r.state = .sealed then .loading else r.state }

/-- The halls of a region's wing. -/
def wingSize (s : State) (r : Region) : Nat := ((kget s.wings r.wing).map (fun w => (wingHalls w).length)).getD 1

/-- A configuration of a region's program that can be loaded on its own: it passes every check of R413, and has no fold and no stream, whose places depend on what the
hall holds. -/
def loadable (s : State) (r : Region) (a : Nat) : Prop :=
  ∃ bs l, r.program.acts[a]? = some bs ∧ checkAct (wingSize s r) r a bs = none ∧ actSections bs = some l ∧ secs l 4 = [] ∧ secs l 5 = []

/-- A transfer can start a load: no launch has replaced the one that the banks were loaded for, or the region is Sealed or quiescent (R210; log 111). -/
def mayLoad (s : State) (r : Region) : Prop := r.relaunched = false ∨ r.state = .sealed ∨ quiescent s s.who r = true

/-- A transfer to an act that the program has and that is no handler; an act in no bank can be loaded. -/
def canEnter (s : State) (r : Region) (a : Nat) : Prop :=
  actOk r.program a = true ∧ (atHand r a ∨ loadable s (entered a r) a ∧ mayLoad (onRegion s.who (entered a) s) (entered a r))

/-- The state after a transfer. -/
def enters (s : State) (r : Region) (a : Nat) (t : State) : Prop :=
  t = if r.active.act = some a ∨ r.idle.act = some a ∨ r.loading = some a then onRegion s.who (entered a) s
      else onRegion s.who (loadBegun a) (onRegion s.who (entered a) s)

/-- The act that NEXT goes to: the one preloaded or the block scheduler's choice in thread mode, and in sequence mode the next that is no handler (R43, R308). -/
def nextAct (r : Region) : Option Nat :=
  if hdrThread r.header then r.preload <|> chooseAct r none else some (followingAct r.program r.seq.act)

/-- No invocation of the region is open. -/
def closed (s : State) (r : Region) : Prop := ∀ p ∈ (hallAt s r.hall).invs, p.2.rid ≠ s.who

/-- The operands of CFG.RUN: its first identifier and the number of iterations; in thread mode 0 and 0 (R313). -/
def runRange (s : State) (r : Region) (f : CmdRec) : Nat × Nat :=
  if hdrThread r.header then (0, 0) else ((areg s f.s).toNat, (opB s f).toNat)

/-- The number of the region that FUSE's imm names (R21, R310). -/
def fusedRid (f : CmdRec) : Nat := ridOf (f.imm.toNat / 512 % 64) (f.imm.toNat / 2 ^ 15 % 4) (f.imm.toNat % 64)

/-- The frame reservation of a FUSE: at least 1 (R310). -/
def fusedRes (f : CmdRec) : Nat := max 1 (f.imm.toNat / 2 ^ 25 % 32)

/-- A place of the wing for a region of a function is Free for FUSE's operands, and its reservation fits (R49, R310). -/
def canFuse (s : State) (r : Region) (f : CmdRec) : Prop :=
  placementFree s r.vf (f.imm.toNat / 512 % 64) (f.imm.toNat / 2 ^ 15 % 4) (f.imm.toNat / 64 % 8) (f.imm.toNat % 64) = true ∧
    reservationFits s r.vf (f.imm.toNat / 512 % 64) (f.imm.toNat / 2 ^ 15 % 4) (f.imm.toNat / 64 % 8) (f.imm.toNat % 64) (fusedRes f) = true

/-- The region of a FUSE: it has its parent's function, wing, program and header; a1 holds aS, a2 the parent's identifier, its entry act is next, and its other
registers are as at FUSE (R310). -/
def fusedChild (s : State) (r : Region) (f : CmdRec) : Region := {
  hall := f.imm.toNat / 512 % 64, ctx := f.imm.toNat / 2 ^ 15 % 4, shape := f.imm.toNat / 64 % 8, origin := f.imm.toNat % 64
  vf := r.vf, wing := r.wing, root := false, parent := some s.who, fres := fusedRes f, state := .idle
  seq := { (Sequencer.zero.put 1 (areg s f.s)).put 2 (BitVec.ofNat 64 (identOf r)) with act := f.imm.toNat / 2 ^ 17 % 256 }
  header := r.header, program := r.program, silence := s.timeNs }

/-- Where no region stands on FUSE's placement, none has to give way to the new one (R210). -/
def placeEmpty (s : State) (f : CmdRec) : Prop :=
  ∀ p ∈ s.regions, p.2.hall = f.imm.toNat / 512 % 64 → p.2.ctx = f.imm.toNat / 2 ^ 15 % 4 → ∀ c ∈ cellsOf (f.imm.toNat / 64 % 8) (f.imm.toNat % 64), c ∉ p.2.cells

/-- A state `c` with the region of a FUSE of state `s` there, its parent's child; aD holds its identifier (R310). -/
def fusedState (s c : State) (r : Region) (f : CmdRec) : State :=
  setA (onRegion s.who (fun r => { r with children := addNat r.children (fusedRid f) })
    { c with regions := kset c.regions (fusedRid f) (fusedChild s r f) }) f.d (BitVec.ofNat 64 (identOf (fusedChild s r f)))

/-- The state after the child of a FUSE has begun to load its entry act: the load starts, or the child has the trap that refuses it (R310, R413). -/
def childLoads (s : State) (f : CmdRec) (u : State) : Prop :=
  let a := f.imm.toNat / 2 ^ 17 % 256
  Reaches (startLoad (fusedRid f) a) s () u ∨
    ∃ x, Raises (startLoad (fusedRid f) a) s x ∧ u = onRegion (fusedRid f) (fun r => { r with traps := r.traps ++ [{ x with seq := true, act := a }] }) s

/-- The earliest result of an identifier that a region's children have left (R311). -/
def earliest (r : Region) (v : BitVec 64) (x : BitVec 64) (rest : List (BitVec 64)) : Prop := kget r.results v.toNat = some (x :: rest)

/-- The commands of this family. -/
def controlEffect : Instr → Option Effects
  | .call f => some {
      needs := fun _ r => r.seq.stack.length < 8
      leads := fun s r t => t = goOn (withIssuer s { r.seq with stack := f.imm.toNat % 256 :: r.seq.stack }) }
  | .ret f => some {
      needs := fun _ r => r.seq.stack ≠ []
      leads := fun s r t => t = goOn (setA (withIssuer s { r.seq with stack := r.seq.stack.tail }) f.d (BitVec.ofNat 64 (r.seq.stack.headD 0))) }
  | .jmp f => some {
      needs := fun s r => canEnter s r (((areg s f.s).toNat + f.imm.toNat) % 256)
      leads := fun s r t => enters s r (((areg s f.s).toNat + f.imm.toNat) % 256) t }
  | .br f => some {
      needs := fun s r => if holds f.md.toNat (seqReads f.ty (areg s f.s)) (seqReads f.ty (areg s f.t)) then canEnter s r (f.imm.toNat % 256)
        else ∃ a, nextAct r = some a ∧ canEnter s r a
      leads := fun s r t => if holds f.md.toNat (seqReads f.ty (areg s f.s)) (seqReads f.ty (areg s f.t)) then enters s r (f.imm.toNat % 256) t
        else ∀ a, nextAct r = some a → enters s r a t }
  | .next => some {
      needs := fun s r => ∃ a, nextAct r = some a ∧ canEnter s r a
      leads := fun s r t => ∀ a, nextAct r = some a → enters s r a t }
  | .halt => some {
      needs := fun s r => closed s r ∧ childLive s s.who r = false ∧ r.parent ≠ some s.who
      leads := fun s r t => (∀ y, kget t.regions s.who = some y → y.state = .free) ∧
        (r.root = false → (∀ p ∈ (hallAt s r.hall).folds, p.2.owner = s.who → p.2.gate = none) →
          ∀ p y, r.parent = some p → kget s.regions p = some y →
            ∃ y', kget t.regions p = some y' ∧ kget y'.results (identOf r) = some (kgetD y.results (identOf r) [] ++ [r.seq.get 1])) }
  | .fuse f => some {
      needs := fun s r =>
        aligned (f.imm.toNat / 64 % 8) (f.imm.toNat % 64) = true ∧ (∃ w, kget s.wings r.wing = some w ∧ f.imm.toNat / 512 % 64 ∈ wingHalls w) ∧
        actOk r.program (f.imm.toNat / 2 ^ 17 % 256) = true ∧ f.imm.toNat / 2 ^ 25 % 32 ≤ 16 ∧ s.who ≠ fusedRid f
      leads := fun s r t =>
        (¬ canFuse s r f → t = goOn (setA s f.d 0)) ∧
        (canFuse s r f → placeEmpty s f → loadable s (fusedChild s r f) (f.imm.toNat / 2 ^ 17 % 256) →
          t = goOn (onRegion (fusedRid f) (loadBegun (f.imm.toNat / 2 ^ 17 % 256)) (fusedState s s r f))) ∧
        (canFuse s r f → ∃ c u, Reaches (clearPlace r.vf (f.imm.toNat / 512 % 64) (f.imm.toNat / 2 ^ 15 % 4) (f.imm.toNat / 64 % 8) (f.imm.toNat % 64)) s () c ∧
          childLoads (fusedState s c r f) f u ∧ Reaches deliverTraps (goOn u) () t) }
  | .split f => some {
      needs := fun s r => ∃ k x rest, ridOfWord (areg s f.s).toNat = some k ∧ k ∈ r.children ∧ earliest r (areg s f.s) x rest
      leads := fun s r t => ∃ r', kget t.regions s.who = some r' ∧ ∀ x rest, earliest r (areg s f.s) x rest →
        r'.results = (if rest = [] then kdel r.results (areg s f.s).toNat else kset r.results (areg s f.s).toNat rest) ∧
        t = goOn (setA (onRegion s.who (fun y => { y with children := r'.children, results := r'.results }) s) f.d x) ∧
        ∀ k ∈ r.children, ridOfWord (areg s f.s).toNat ≠ some k → k ∈ r'.children }
  | .cfgLoad f => some {
      needs := fun s r => actOk r.program (f.imm.toNat % 256) = true ∧
        (r.active.act = some (f.imm.toNat % 256) ∨ r.idle.act = some (f.imm.toNat % 256) ∨
          loadable s r (f.imm.toNat % 256) ∧ (r.relaunched = false ∨ r.state = .sealed))
      leads := fun s r t =>
        if r.active.act = some (f.imm.toNat % 256) ∨ r.idle.act = some (f.imm.toNat % 256) then t = goOn (onRegion s.who (fun r => { r with state := .idle }) s)
        else t = goOn (onRegion s.who (loadBegun (f.imm.toNat % 256)) s) }
  | .cfgSeal => some {
      needs := fun _ _ => True
      leads := fun s r t => t = if quiescent s s.who r then goOn (onRegion s.who (fun r => { r with state := .sealed }) s) else waits s }
  | .cfgRun f => some {
      needs := fun s r => (hdrThread r.header = true → f.s = 0 ∧ f.t = 0 ∧ f.imm = 0) ∧ (r.midRun = false → strayStream r = false ∧
        (if hdrThread r.header then (kget r.active.loops 0).isSome ∨ kgetD r.threads r.seq.act [] = []
         else idValid r.header (areg s f.s).toNat = true ∧ idOrdinal r.header (areg s f.s).toNat + (opB s f).toNat ≤ itersFrom r.header 1 ∧
           ((kget r.active.loops 0).isSome ∨ opB s f = 0)))
      leads := fun s r t =>
        if r.midRun then t = onRegion s.who (fun r => { r with state := .running, midRun := false }) s
        else ∃ u y, Reaches (startRun s.who (runRange s r f).1 (runRange s r f).2) s () u ∧ Reaches deliverTraps u () t ∧
          kget u.regions s.who = some y ∧ y.state = .running ∧ y.runs = r.runs + 1 ∧ y.run.next = (runRange s r f).1 ∧ y.run.left = (runRange s r f).2 }
  | .cfgNext f => some {
      needs := fun _ _ => True
      leads := fun s r t => t = goOn (setA s f.d (BitVec.ofNat 64 ((chooseAct r none).getD (2 ^ 64 - 1)))) }
  | .launch f => some {
      needs := fun s r =>
        let h := areg s f.t ++ areg s f.s
        hdrOk h = true ∧ hdrCtx h = r.ctx ∧ actOk r.program (hdrEntry h) = true ∧ r.state = .idle ∧ (∀ p ∈ r.threads, p.2 = []) ∧ closed s r
      leads := fun s r t =>
        let h := areg s f.t ++ areg s f.s
        t = goOn (onRegion s.who (fun r => { r with
          header := h, relaunched := true
          threads := if hdrThread h then kset r.threads (hdrEntry h) ((List.range (itersFrom h 1)).map (idAt h)) else r.threads }) s) }
  | .circ f => some {
      needs := fun s r => ∃ k bs, circTarget r f.imm.toNat = some k ∧ atReference s r (areg s f.s) 32 bs ∧
        circuitOk (wingSize s r) r r.active (BitVec.ofNat 256 (leNat bs)) = true
      leads := fun s r t => ∀ k bs, circTarget r f.imm.toNat = some k → atReference s r (areg s f.s) 32 bs → ∃ u, ReadOnly s u ∧
        t = goOn (onRegion s.who (fun r => { r with active := { r.active with circuits := kset r.active.circuits k (BitVec.ofNat 256 (leNat bs)) } }) u) }
  | .quiesce f => some {
      inHandler := true
      needs := fun _ _ => True
      leads := fun s r t => t = if quiescent s s.who r then goOn (setA s f.d 0) else waits s }
  | .quiesceProbe f => some {
      inHandler := true
      needs := fun _ _ => True
      leads := fun s r t => t = goOn (setA s f.d (BitVec.ofNat 64 (probeWord r.detector))) }
  | _ => none

end Sys2Proof.Claims

open Sys2Proof.Claims

/-- R39, R77, R112, R308, R312, R413: a transfer and a CFG.LOAD to a configuration with folds and streams start its load too, where its folds and streams have places. -/
def Sys2Proof.Claims.placedLoads : Prop :=
  ∀ (f : CmdRec) (s : State) (r : Region) (a : Nat) (u : State), RegionIssues s r false → actOk r.program a = true → trapWaiting u = none →
    (¬ atHand r a → mayLoad (onRegion s.who (entered a) s) (entered a r) → Reaches (startLoad s.who a) (onRegion s.who (entered a) s) () u →
      ((areg s f.s).toNat + f.imm.toNat) % 256 = a → exec (.jmp f) s = .next u) ∧
    (r.active.act ≠ some a → r.idle.act ≠ some a → (r.relaunched = false ∨ r.state = .sealed) → Reaches (startLoad s.who a) s () u →
      f.imm.toNat % 256 = a → exec (.cfgLoad f) s = .next (goOn u))

/-- R38 to R45, R308 to R317: transfers, the end of a program, FUSE and SPLIT, configurations, runs, launches, CIRC and QUIESCE: where its operands are in range, each has
the effect of its rule. -/
def Obligations.ControlCommandsComplete : Prop :=
  (∀ (i : Instr) (e : Effects) (s : State) (r : Region), controlEffect i = some e → RegionIssues s r e.inHandler → e.needs s r →
    ∃ t, exec i s = .next t ∧ e.leads s r t) ∧ placedLoads

/-! ### The sequencer: memory, buffers, residency and streams (R113 to R120, R305, R307, R319, R322 to R325) -/

namespace Sys2Proof.Claims

/-- The bytes of a sequencer's access: eight for ty 15 (R305). -/
def moveSize (t : Ty) : Nat := if t = .untyped then 8 else tyWidth t / 8

/-- Bytes as LDS gives them to a register: signed types with their sign (R305). -/
def moveValue (t : Ty) (bs : List Byte) : BitVec 64 :=
  if isInt t ∧ isSigned t then (BitVec.ofNat (tyWidth t) (leNat bs)).signExtend 64 else BitVec.ofNat 64 (leNat bs)

/-- The offset of a sequencer's access: aS plus the sign-extended imm (R305). -/
def moveOffset (s : State) (f : CmdRec) : Nat := (areg s f.s + f.imm.signExtend 64).toNat

/-- The buffer of a command's handle. -/
def cmdBuffer (s : State) (r : Region) (f : CmdRec) : Option Buffer := (handleAt s r.vf r.ctx (f.ext.toNat % 256)).visible

/-- An event counter of a function (R307). -/
def event (s : State) (vf k : Nat) : BitVec 64 := kgetD (vfAt s vf).events k 0

/-- An event counter of a function changed. -/
def withEvent (s : State) (vf k : Nat) (v : BitVec 64) : State :=
  { s with vfs := kset s.vfs vf { vfAt s vf with events := kset (vfAt s vf).events k v } }

/-- A function's handle changed. -/
def withHandle (s : State) (r : Region) (h : Nat) (y : Handle) : State :=
  { s with vfs := kset s.vfs r.vf { vfAt s r.vf with handles := kset (vfAt s r.vf).handles (handleKey r.ctx h) y } }

/-- A wing changed. -/
def withWing (s : State) (n : Nat) (w : Wing) : State := { s with wings := kset s.wings n w }

/-- The halls whose Modified annex lines a fence of the annex scope writes back: those of the issuer's wing (R124, R135). -/
def annexHalls (s : State) (r : Region) : List Nat :=
  match (hallAt s r.hall).wing.bind (kget s.wings) with | some w => wingHalls w | none => [r.hall]

/-- A hall's Modified annex lines written back: its copies are clean (R111, R124). -/
def cleaned (h : Hall) : Hall := { h with cache := h.cache.map (fun p => if p.1 ∈ dirtyAnnex h then (p.1, { p.2 with mesi := .exclusive }) else p) }

/-- The Modified annex lines of the issuer's wing written back. -/
def annexClean (s : State) (r : Region) : State := (annexHalls s r).foldl (fun u h => onHall h cleaned u) s

/-- The lines of a command's range that it has yet to reach: each lies in scratch or on a page in the translation cache, unpinned and not quarantined (R325). -/
def lineRange (s : State) (r : Region) (f : CmdRec) : Prop :=
  ∃ b, cmdBuffer s r f = some b ∧ accessCode (some b) .read (areg s f.s).toNat (areg s f.t).toNat 64 false = none ∧ (areg s f.t).toNat % 64 = 0 ∧
    ∀ i, r.seq.progress ≤ i → i < (areg s f.t).toNat / 64 → ∃ a, location s r b .read ((areg s f.s).toNat + 64 * i) = some a ∧
      (b.scratch = none → (tlbLookup s r.hall r.vf (b.base + (areg s f.s).toNat + 64 * i)).isSome = true) ∧
      (∀ x ∈ linesOf a 64, pinnedByOther s x none = false) ∧ quarantined s a = false

/-- A line of a command's range that it has yet to reach. -/
def inRange (s : State) (r : Region) (f : CmdRec) (a : Nat) : Prop :=
  ∃ b i, cmdBuffer s r f = some b ∧ r.seq.progress ≤ i ∧ i < (areg s f.t).toNat / 64 ∧ location s r b .read ((areg s f.s).toNat + 64 * i) = some a

/-- A scratch range for FE.FILL and FE.EMPTY: whole granules inside a buffer that may be written, and nothing waits at a granule (R101, R117, R321). -/
def granuleRange (s : State) (r : Region) (f : CmdRec) (hall base : Nat) : Prop :=
  ∃ b, cmdBuffer s r f = some b ∧ b.scratch = some hall ∧ b.base = base ∧ b.write = true ∧ (areg s f.s).toNat % 16 = 0 ∧ (areg s f.t).toNat % 16 = 0 ∧
    (areg s f.s).toNat + (areg s f.t).toNat ≤ b.len ∧ (∀ q ∈ s.reqs, q.phase ≠ .granule) ∧
    ∀ i < (areg s f.t).toNat / 16, ∀ x ∈ linesOf (scratchAddr hall (base + (areg s f.s).toNat + 16 * i)) 16, pinnedByOther s x none = false

/-- The effect of FE.FILL and FE.EMPTY: the range's granules are full or empty, and others as before. -/
def granulesSet (full : Bool) (f : CmdRec) (s t : State) (r : Region) : Prop :=
  ∀ hall base, granuleRange s r f hall base → t.mem = s.mem ∧ t.regions = (goOn s).regions ∧
    ∀ g, g ∈ t.full ↔ if ∃ i < (areg s f.t).toNat / 16, g = scratchAddr hall (base + (areg s f.s).toNat + 16 * i) / 16 then full = true else g ∈ s.full

/-- The buffer that BUF.MAP names (R319). -/
def mapped (s : State) (f : CmdRec) : Buffer :=
  { scratch := if f.imm.getLsbD 8 then some (f.imm.toNat / 2 ^ 12 % 64) else none, base := (areg s f.s).toNat, len := (areg s f.t).toNat
    read := f.imm.getLsbD 9, write := f.imm.getLsbD 10, atomic := f.imm.getLsbD 11 }

/-- BUF.MAP's operands are in range (R319, R432). -/
def mapOk (s : State) (r : Region) (f : CmdRec) : Prop :=
  let b := mapped s f
  b.base % 16 = 0 ∧ b.len % 16 = 0 ∧ 0 < b.len ∧ b.len ≤ 2 ^ 32 ∧ mapsCast s b = false ∧
  (match b.scratch with
   | some hall => (∃ w, kget s.wings r.wing = some w ∧ hall ∈ wingHalls w) ∧ b.base + b.len ≤ scratchSize (hallAt s hall)
   | none => b.base < 2 ^ 57)

/-- A handle with a buffer mapped, visible or as its shadow. -/
def mapping (s : State) (r : Region) (f : CmdRec) : Handle :=
  let h := handleAt s r.vf r.ctx (f.imm.toNat % 256)
  if f.imm.getLsbD 18 then { h with shadow := some (mapped s f), shadowFailed := false } else { h with visible := some (mapped s f) }

/-- The state once a wing's range registers are as given: each of its halls has its ways reserved to the ranges, through the walker where they change use (R118, R120). -/
def rangesSet (s : State) (r : Region) (w : Wing) (after : KMap RangeReg) : State :=
  (wingHalls w).foldl (fun u h => onHall h (balance after) u) (withWing s r.wing { w with ranges := after })

/-- The range register that RSV writes: only the fields of R118. -/
def rangeWritten (s : State) (f : CmdRec) : BitVec 128 := (areg s f.t ++ areg s f.s) &&& 0x8FFF03FFFFFFFFFF01FFFFFFFFFF0000

/-- A stream of a mask. -/
def chosen (f : CmdRec) (k : Nat) : Bool := decide (k < 16) && f.imm.toNat / 2 ^ k % 2 == 1

/-- The chosen streams of the issuer changed. -/
def withStreams (s : State) (f : CmdRec) (g : Stream → Stream) : State :=
  onRegion s.who (fun r => { r with streams := r.streams.map (fun p => if chosen f p.1 then (p.1, g p.2) else p) }) s

/-- The stream that STRM.DEF describes, but for its slot (R249, R322). -/
def described (s : State) (f : CmdRec) : StreamDesc :=
  { tile := f.imm.toNat / 16 % 16, slot := f.imm.toNat / 256 % 4, write := f.imm.getLsbD 10, fmt := tyOfCode (f.imm.toNat / 2048 % 16), fe := f.imm.toNat / 2 ^ 15 % 4
    handle := f.ext.toNat % 256, origin := (areg s f.s).toNat % 2 ^ 32, count := f.imm.toNat / 2 ^ 17 % 8, dims := List.replicate 6 (1, 0) }

/-- A region's streams are each on a slot of its own, and their descriptors are in range. -/
def slotsApart (r : Region) : Prop :=
  r.ctx < 4 ∧ ∀ p ∈ r.streams, p.2.desc.tile < 64 ∧ p.2.desc.slot < 4 ∧ p.2.desc.count ≤ 8 ∧
    ∀ q ∈ r.streams, q.2.desc.tile = p.2.desc.tile → q.2.desc.slot = p.2.desc.slot → q = p

/-- The commands of this family. -/
def memoryEffect : Instr → Option Effects
  | .lds f => some {
      inHandler := true
      needs := fun s r => ∃ b a, cmdBuffer s r f = some b ∧ accessCode (some b) .read (moveOffset s f) (moveSize f.ty) (moveSize f.ty) false = none ∧
        location s r b .read (moveOffset s f) = some a ∧ takeable s r.hall a (moveSize f.ty) ∧ poisoned s a (moveSize f.ty) = false
      leads := fun s r t => ∃ b a u, cmdBuffer s r f = some b ∧ location s r b .read (moveOffset s f) = some a ∧ ReadOnly s u ∧
        t = goOn (setA u f.d (moveValue f.ty (readBytes s.mem a (moveSize f.ty)))) }
  | .sts f => some {
      inHandler := true
      needs := fun s r => Memory.wf s.mem = true ∧ (∀ q ∈ s.reqs, q.phase ≠ .granule) ∧
        ∃ b a, cmdBuffer s r f = some b ∧ accessCode (some b) .write (moveOffset s f) (moveSize f.ty) (moveSize f.ty) false = none ∧
          location s r b .write (moveOffset s f) = some a ∧ takeable s r.hall a (moveSize f.ty)
      leads := fun s r t => ∃ b a, cmdBuffer s r f = some b ∧ location s r b .write (moveOffset s f) = some a ∧ t.regions = (goOn s).regions ∧
        (∀ x, readByte t.mem x = if a ≤ x ∧ x < a + moveSize f.ty then BitVec.ofNat 8 ((areg s f.t).toNat / 2 ^ (8 * (x - a))) else readByte s.mem x) ∧
        (isScratch a = true → ∀ g ∈ granulesOf a (moveSize f.ty), g ∈ t.full) }
  | .sig f => some {
      inHandler := true
      needs := fun _ _ => True
      leads := fun s r t => t = goOn (withEvent s r.vf (f.ext.toNat % 256) (event s r.vf (f.ext.toNat % 256) + opB s f)) }
  | .wait f => some {
      inHandler := true
      needs := fun _ _ => True
      leads := fun s r t => t = if areg s f.s ≤ event s r.vf (f.ext.toNat % 256) then goOn (setA s f.d (event s r.vf (f.ext.toNat % 256))) else waits s }
  | .fenceCmd f => some {
      inHandler := true
      needs := fun s r => f.ext.toNat % 8 = 4 → ∀ h ∈ annexHalls s r, ∀ k ∈ dirtyAnnex (hallAt s h), answers s (64 * k) = none
      leads := fun s r t => t = if sentWrites s s.who then waits s else if f.ext.toNat % 8 = 4 then goOn (annexClean s r) else goOn s }
  | .flush f => some {
      inHandler := true
      needs := fun s r => lineRange s r f
      leads := fun s r t => t.mem = s.mem ∧ t.regions = (goOn s).regions ∧
        ∀ a hall c, inRange s r f a → hall < 64 → kget (hallAt t hall).cache (a / 64) = some c → c.mesi ≠ .modified }
  | .inv f => some {
      inHandler := true
      needs := fun s r => lineRange s r f
      leads := fun s r t => t.mem = s.mem ∧ t.regions = (goOn s).regions ∧ ∀ a hall, inRange s r f a → hall < 64 → kget (hallAt t hall).cache (a / 64) = none }
  | .pref f => some {
      inHandler := true
      needs := fun s r => ∃ b, cmdBuffer s r f = some b ∧ accessCode (some b) .read (areg s f.s).toNat (areg s f.t).toNat 64 false = none ∧ (areg s f.t).toNat % 64 = 0
      leads := fun s _ t => ∃ u, ReadOnly s u ∧ t = goOn u }
  | .feFill f => some {
      inHandler := true
      needs := fun s r => ∃ hall base, granuleRange s r f hall base
      leads := fun s r t => granulesSet true f s t r }
  | .feEmpty f => some {
      inHandler := true
      needs := fun s r => ∃ hall base, granuleRange s r f hall base
      leads := fun s r t => granulesSet false f s t r }
  | .rsv f => some {
      inHandler := true
      needs := fun s r => r.seq.waiting = false ∧ ∃ w, kget s.wings r.wing = some w ∧ rangesOk s r.wing w (kset w.ranges (f.imm.toNat % 8) (rangeWritten s f)) = true
      leads := fun s r t => ∀ w, kget s.wings r.wing = some w →
        let u := rangesSet s r w (kset w.ranges (f.imm.toNat % 8) (rangeWritten s f))
        t = if rangeWalks u w then waits u else goOn u }
  | .samp f => some {
      inHandler := true
      needs := fun s r => (kget s.wings r.wing).isSome = true
      leads := fun s r t => ∀ w, kget s.wings r.wing = some w →
        let sampled := (kgetD w.ranges (f.imm.toNat % 8) 0 &&& ~~~ (0xFF#128 <<< 112)) ||| ((areg s f.s).setWidth 8).setWidth 128 <<< 112
        t = goOn (withWing s r.wing { w with ranges := kset w.ranges (f.imm.toNat % 8) sampled }) }
  | .bufMap f => some {
      inHandler := true
      needs := fun s r => mapOk s r f ∧ (f.imm.getLsbD 18 = true → ∃ v, (handleAt s r.vf r.ctx (f.imm.toNat % 256)).visible = some v ∧
        v.len = (mapped s f).len ∧ v.scratch.isSome = (mapped s f).scratch.isSome)
      leads := fun s r t => t = goOn (withHandle s r (f.imm.toNat % 256) (mapping s r f)) }
  | .bufUnmap f => some {
      inHandler := true
      needs := fun _ _ => True
      leads := fun s r t =>
        let h := handleAt s r.vf r.ctx (f.imm.toNat % 256)
        t = goOn (withHandle s r (f.imm.toNat % 256) (if f.imm.getLsbD 18 then { h with shadow := none } else { h with visible := none })) }
  | .cap f => some {
      inHandler := true
      needs := fun s _ => ∃ id v, id ∈ [1, 2, 3, 4, 5, 6] ∧ capOffset s id = (if areg s f.s = 0 then 0x100 else (areg s f.s).toNat) ∧ (capWords s id)[f.imm.toNat]? = some v ∧
        ∀ j < id, j ≠ 0 → capOffset s j ≠ capOffset s id
      leads := fun s _ t => ∃ id v, id ∈ [1, 2, 3, 4, 5, 6] ∧ capOffset s id = (if areg s f.s = 0 then 0x100 else (areg s f.s).toNat) ∧
        (capWords s id)[f.imm.toNat]? = some v ∧ t = goOn (setA s f.d (BitVec.ofNat 64 v)) }
  | .strmDef f => some {
      needs := fun s r =>
        let d := described s f
        d.tile ≤ 11 ∧ (f.imm.toNat / 2048 % 16 ≤ 10 ∨ f.imm.toNat / 2048 % 16 = 14) ∧ 1 ≤ f.imm.toNat / 2 ^ 17 % 8 ∧ f.imm.toNat / 2 ^ 17 % 8 ≤ 6 ∧
        (slotOwner s r.hall d.tile d.slot = none ∨ slotOwner s r.hall d.tile d.slot = some (s.who, f.imm.toNat % 16))
      leads := fun s _ t => t = goOn (onRegion s.who (fun r => { r with streams := kset r.streams (f.imm.toNat % 16) { desc := described s f } }) s) }
  | .strmDim f => some {
      needs := fun s r => ∃ x, kget r.streams (f.imm.toNat % 16) = some x ∧ f.imm.toNat / 16 % 8 ≤ 5 ∧ 1 ≤ areg s f.s ∧ areg s f.s ≤ 65536
      leads := fun s r t => ∀ x, kget r.streams (f.imm.toNat % 16) = some x →
        let dims := x.desc.dims.set (f.imm.toNat / 16 % 8) ((areg s f.s).toNat, ((areg s f.t).setWidth 32).toInt)
        t = goOn (onRegion s.who (fun r => { r with streams := kset r.streams (f.imm.toNat % 16) { x with desc := { x.desc with dims := dims } } }) s) }
  | .strmGo f => some {
      needs := fun s r => ∀ k, chosen f k = true → ∃ x, kget r.streams k = some x ∧
        (x.desc.fe = 0 ∨ ∀ b, (handleAt s r.vf r.ctx x.desc.handle).visible = some b → b.scratch.isSome = true)
      leads := fun s _ t => t = goOn (withStreams s f (fun x => { x with marked := true })) }
  | .strmBar f => some {
      needs := fun _ _ => True
      leads := fun s _ t => t = goOn (withStreams s f (fun x => { x with barMark := true })) }
  | .strmEnd f => some {
      needs := fun _ _ => True
      leads := fun s r t => ∃ r', kget t.regions s.who = some r' ∧ t = goOn (onRegion s.who (fun y => { y with streams := r'.streams, control := r'.control }) s) ∧
        (slotsApart r → ∀ k x, kget r.streams k = some x → ∃ y, kget r'.streams k = some y ∧
          y = if chosen f k = true ∧ x.running = true then (if x.busy then { x with ending := true } else { x with running := false, drained := true, barred := false, ending := false }) else x) }
  | _ => none

end Sys2Proof.Claims

open Sys2Proof.Claims

/-- R113 to R120, R305, R307, R319, R322 to R325: the sequencer's loads and stores, event counters, fences and maintenance, buffers, residency, capabilities and streams:
where its operands are in range, each has the effect of its rule. -/
def Obligations.MemoryCommandsComplete : Prop :=
  ∀ (i : Instr) (e : Effects) (s : State) (r : Region), memoryEffect i = some e → RegionIssues s r e.inHandler → e.needs s r →
    ∃ t, exec i s = .next t ∧ e.leads s r t

/-! ### Fold and name commands (R75 to R77, R90 to R98, R326, R327), engine commands (R301, R328 to R334, R450) -/

namespace Sys2Proof.Claims

/-- The live fold of a statement in a region's name space. -/
def liveFoldOf (s : State) (r : Region) (stmt : Nat) : Option Fold := kget (hallAt s r.hall).folds (foldKey r.ctx stmt)

/-- The state with a fold changed. -/
def withFold (s : State) (r : Region) (stmt : Nat) (x : Fold) : State :=
  { s with halls := s.halls.set r.hall { hallAt s r.hall with folds := kset (hallAt s r.hall).folds (foldKey r.ctx stmt) x } }

/-- The lattice that a fold descriptor describes at a reference, under the region's launch and in its fold space (R75, R326). -/
def describesFold (s : State) (r : Region) (v : BitVec 64) (l : Lattice) : Prop :=
  ∃ bs, atReference s r v 256 bs ∧ latticeOf r.header (foldSpace (hallAt s r.hall) r.ctx) bs = some l

/-- The commands of folds and names. -/
def nameEffect : Instr → Option Effects
  | .fold f => some {
      inHandler := true
      needs := fun s r => ∃ l, describesFold s r (areg s f.s) l ∧ l.stmt = f.imm.toNat ∧ declareFault (hallAt s r.hall) r.ctx l = none
      leads := fun s r t => ∀ l, describesFold s r (areg s f.s) l → ∃ u, ReadOnly s u ∧
        t = goOn (withFold u r l.stmt { owner := s.who, vf := r.vf, lattice := l, check := .unchecked, slots := [] }) }
  | .foldchk f => some {
      inHandler := true
      needs := fun s r => (liveFoldOf s r f.imm.toNat).isSome = true
      leads := fun s r t => ∀ x, liveFoldOf s r f.imm.toNat = some x →
        let c := foldCheck x.lattice r.header
        t = goOn (setA (withFold s r f.imm.toNat { x with check := if c = 0 then .accepted else .refused }) f.d (BitVec.ofNat 64 c)) }
  | .refold f => some {
      inHandler := true
      needs := fun s r => ∃ x, liveFoldOf s r f.imm.toNat = some x ∧ x.owner = s.who ∧
        ((x.gate.isSome = true ∧ r.seq.progress = 1) ∨ (x.gate = none ∧ ∃ l, describesFold s r (areg s f.s) l))
      leads := fun s r t => ∀ x, liveFoldOf s r f.imm.toNat = some x →
        (∀ l, x.gate = some l → ∃ u y, Reaches (endMove r.hall (foldKey r.ctx f.imm.toNat) r.header) s () u ∧ Reaches deliverTraps (goOn (setA u f.d 0)) () t ∧
          liveFoldOf u r f.imm.toNat = some y ∧ y.gate = none ∧ y.lattice = l ∧ y.check = .accepted) ∧
        (x.gate = none → ∀ l, describesFold s r (areg s f.s) l → ∃ u, ReadOnly s u ∧
          let c := refoldCode (hallAt s r.hall) r (foldKey r.ctx f.imm.toNat) x l
          let v := withFold u r f.imm.toNat { x with gate := some l }
          t = if c = 0 then waits (withIssuer v { issuer v with progress := 1 }) else goOn (setA u f.d (BitVec.ofNat 64 c))) }
  | .nstat f => some {
      inHandler := true
      needs := fun s r => (liveFoldOf s r f.imm.toNat).isSome = true
      leads := fun s r t => ∀ x, liveFoldOf s r f.imm.toNat = some x →
        let count := fun (st : SlotState) => min 65535 (x.slots.filter (fun p => p.2.state == st)).length
        let mine := s.names.filter (fun q => match reqSlot s q with | some y => y.1 == r.hall && y.2.1 == foldKey r.ctx f.imm.toNat | none => false)
        let asks := fun (w : Bool) => min 65535 (mine.filter (fun q => q.write == w)).length
        t = goOn (setA s f.d (BitVec.ofNat 16 (count .full) ++ BitVec.ofNat 16 (count .held) ++ BitVec.ofNat 16 (asks false) ++ BitVec.ofNat 16 (asks true))) }
  | .ndrop f => some {
      inHandler := true
      needs := fun s r => (liveFoldOf s r f.imm.toNat).isSome = true ∧ unawaited s r.hall (foldKey r.ctx f.imm.toNat)
      leads := fun s r t => t = goOn { s with halls := s.halls.set r.hall { hallAt s r.hall with folds := kdel (hallAt s r.hall).folds (foldKey r.ctx f.imm.toNat) } } }
  | .nseed f => some {
      inHandler := true
      needs := fun s r => ∃ x, liveFoldOf s r f.imm.toNat = some x ∧ x.gate = none ∧ x.check = .accepted ∧ r.seq.waiting = false ∧ idValid r.header (areg s f.s).toNat = true ∧
        (slotOf r x (areg s f.s).toNat).state = .empty ∧ unawaited s r.hall (foldKey r.ctx f.imm.toNat)
      leads := fun s r t => ∀ x, liveFoldOf s r f.imm.toNat = some x → t.mem = s.mem ∧ t.chans = s.chans ∧
        slotNow t r f.imm.toNat (areg s f.s).toNat = some
          { iv := (areg s f.s).toNat, stmt := f.imm.toNat, state := .full, uses := x.lattice.uses, wr := false, rd := false, inv := 0
            tile := (bytesOfNat 4 (areg s f.t).toNat ++ List.replicate (x.lattice.size - 4) 0).take x.lattice.size } }
  | _ => none

/-- The handle number and offset of a reference. -/
def handleOf (v : BitVec 64) : Nat := (v.extractLsb' 40 8).toNat
def offsetOf (v : BitVec 64) : Nat := (v.extractLsb' 0 32).toNat

/-- The command that an engine accepts from a region, with its ticket (R301). -/
def engineCmd (s : State) (r : Region) (engine : Nat) (op : EngineOp) (src : Option Buffer) (soff : Nat) (dst : Option Buffer) (doff len : Nat) (shadow : Option Nat) : EngineCmd :=
  { number := s.tick, rid := some s.who, hall := r.hall, vf := r.vf, ctx := r.ctx, cell := r.origin, ticket := engine * 2 ^ 60 + r.tickets + 1
    op := op, src := src, soff := soff, dst := dst, doff := doff, len := len, shadow := shadow }

/-- The state with a command accepted: it is behind the others. -/
def accepted (s : State) (e : EngineCmd) : State :=
  let u := onRegion s.who (fun r => { r with tickets := r.tickets + 1 }) { s with tick := s.tick + 1 }
  { u with pkg := { s.pkg with engines := s.pkg.engines ++ [e] } }

/-- The buffer and shadow of a reference's handle. -/
def refHandleOf (s : State) (r : Region) (v : BitVec 64) : Handle := handleAt s r.vf r.ctx (handleOf v)

/-- A courier's command: it is accepted, and aD gets its ticket. -/
def couriers (f : CmdRec) (op : EngineOp) (unit : Nat) (shadow : Bool) : Effects := {
  inHandler := true
  needs := fun s _ => f.imm ≠ 0 ∧ f.imm.toNat % unit = 0 ∧ refOk (areg s f.s) ∧ refOk (areg s f.t)
  leads := fun s r t =>
    let h := refHandleOf s r (areg s f.t)
    let e := engineCmd s r 1 op (refHandleOf s r (areg s f.s)).visible (offsetOf (areg s f.s)) (if shadow then h.shadow else h.visible) (offsetOf (areg s f.t)) f.imm.toNat
      (if shadow then some (handleKey r.ctx (handleOf (areg s f.t))) else none)
    let u := if shadow then withHandle (accepted s e) r (handleOf (areg s f.t)) { h with shadowFailed := false } else accepted s e
    t = goOn (setA u f.d (BitVec.ofNat 64 e.ticket)) }

/-- An open ring of a region's function. -/
def openRingOf (s : State) (r : Region) (k : Nat) (x : Ring) : Prop := kget (vfAt s r.vf).rings k = some x ∧ x.broken = false ∧ x.opener = none

/-- The state with a ring changed. -/
def withRing (s : State) (r : Region) (k : Nat) (x : Ring) : State := { s with vfs := kset s.vfs r.vf { vfAt s r.vf with rings := kset (vfAt s r.vf).rings k x } }

/-- A collective: it is accepted under the ring's next number. -/
def collects (f : CmdRec) (op : Nat) : Effects := {
  inHandler := true
  needs := fun s r => ∃ x, openRingOf s r (f.imm.toNat % 16) x ∧ refOk (areg s f.s) ∧ refOk (areg s f.t) ∧ f.ext ≠ 0 ∧
    (op = 3 ∨ op = 4 → f.ext.toNat % x.members.length = 0) ∧ (op = 5 → f.imm.toNat / 256 % 1024 < x.members.length)
  leads := fun s r t => ∀ x, openRingOf s r (f.imm.toNat % 16) x →
    let total := f.ext.toNat
    let len := (if op = 4 then total / x.members.length else total) * collBytes f.ty
    let e := engineCmd s r 3 (.coll (f.imm.toNat % 16) op (f.imm.toNat / 256 % 1024) f.ty total x.colls) (refHandleOf s r (areg s f.s)).visible (offsetOf (areg s f.s))
      (refHandleOf s r (areg s f.t)).visible (offsetOf (areg s f.t)) len none
    t = goOn (setA (withRing (accepted s e) r (f.imm.toNat % 16) { x with colls := x.colls + 1 }) f.d (BitVec.ofNat 64 e.ticket)) }

/-- The buffer slot that RING.TAKE returns as a reference (R332). -/
def slotRef (x : Ring) : Nat := x.handle * 2 ^ 40 + (x.slot0 + x.taken % 2 * x.slotSize) % 2 ^ 32

/-- Where RING.TAKE sends the reference: an out-port of the origin cell, or nowhere. -/
def takeDest (f : CmdRec) : Dest := if f.ext.getLsbD 4 then .out (Fin.ofNat 16 f.ext.toNat) else .discard

/-- RING.TAKE of the next slot can end now. -/
def canTake (s : State) (r : Region) (f : CmdRec) (x : Ring) : Prop := x.taken < x.filled ∧ roomAll s s.who r.origin [(takeDest f, 0)] = true

/-- A send that has begun to read its slot goes on when it is cancelled (R334). -/
def sending (e : EngineCmd) : Bool := match e.op with | .ringPut _ => !e.data.isEmpty | _ => false

/-- A command has not written all that it writes: a send writes nothing here. -/
def unwritten (e : EngineCmd) : Bool := match e.op with | .ringPut _ => true | _ => e.moved < writesOf e

/-- The engine commands and their waits. -/
def engineEffect : Instr → Option Effects
  | .copy f => some (couriers f .copy 16 false)
  | .copySh f => some (couriers f .copy 16 true)
  | .mcast f => some (couriers f (.mcast (f.ext.toNat % 16) (f.ext.toNat / 16 % 4096)) 4 false)
  | .publ f => some {
      inHandler := true
      needs := fun s r => let h := handleAt s r.vf r.ctx (f.imm.toNat % 256); h.shadow.isSome = true ∧ h.shadowFailed = false
      leads := fun s r t =>
        let h := handleAt s r.vf r.ctx (f.imm.toNat % 256)
        t = if s.pkg.engines.any (fun e => e.vf == r.vf && e.shadow == some (handleKey r.ctx (f.imm.toNat % 256)) && !e.done) then waits s
          else goOn (withHandle s r (f.imm.toNat % 256) { h with visible := h.shadow, shadow := h.visible, version := h.version + 1 }) }
  | .ringOpen f => some {
      inHandler := true
      needs := fun s r => (∃ k x, (vfAt s r.vf).rings.find? (fun p => p.2.opener == some s.who) = some (k, x) ∧ kget (vfAt s r.vf).rings k = some x ∧ x.broken = false) ∨
        ((∀ p ∈ (vfAt s r.vf).rings, p.2.opener ≠ some s.who) ∧ ∃ b head tail x k, refOk (areg s f.s) ∧ refBuffer s r (areg s f.s) = some b ∧
          wordsAt s r b (offsetOf (areg s f.s)) 16 head ∧ wordsAt s r b (offsetOf (areg s f.s) + 16) (2 * (wordAt head 0 / 2 ^ 48 % 2 ^ 16)) tail ∧
          ringOf s.pkg.number r.ctx s.who head tail = some x ∧ firstFree 16 (fun k => (kget (vfAt s r.vf).rings k).all (·.broken)) = some k)
      leads := fun s r t =>
        (∀ k x, (vfAt s r.vf).rings.find? (fun p => p.2.opener == some s.who) = some (k, x) →
          t = if x.members.all x.opened.contains then goOn (setA (withRing s r k { x with opener := none }) f.d (BitVec.ofNat 64 k)) else waits s) ∧
        ((∀ p ∈ (vfAt s r.vf).rings, p.2.opener ≠ some s.who) → ∃ k y, firstFree 16 (fun k => (kget (vfAt s r.vf).rings k).all (·.broken)) = some k ∧
          kget (vfAt t r.vf).rings k = some y ∧ s.pkg.number ∈ y.members ∧ s.pkg.number ∈ y.opened ∧ y.free = 2 ∧ y.broken = false) }
  | .ringPut f => some {
      inHandler := true
      needs := fun s r => refOk (areg s f.s) ∧ ∃ x, openRingOf s r (f.imm.toNat % 16) x
      leads := fun s r t => ∀ x, openRingOf s r (f.imm.toNat % 16) x →
        let e := engineCmd s r 2 (.ringPut (f.imm.toNat % 16)) (refHandleOf s r (areg s f.s)).visible (offsetOf (areg s f.s)) none 0 x.slotSize none
        t = goOn (setA (accepted s e) f.d (BitVec.ofNat 64 e.ticket)) }
  | .ringTake f => some {
      inHandler := true
      needs := fun s r => ∃ x, openRingOf s r (f.imm.toNat % 16) x
      leads := fun s r t => ∀ x, openRingOf s r (f.imm.toNat % 16) x →
        (canTake s r f x → kget (vfAt t r.vf).rings (f.imm.toNat % 16) = some { x with taken := x.taken + 1, held := true } ∧
          (f.d ≠ 0 → areg t f.d = BitVec.ofNat 64 (slotRef x)) ∧
          t.chans = (emitted s.who r.origin (takeDest f) { value := BitVec.ofNat 32 (slotRef x), tag := 0 } s).chans) ∧
        (¬ canTake s r f x → kget (vfAt t r.vf).rings (f.imm.toNat % 16) = some { x with held := false } ∧ t.chans = s.chans ∧ (issuer t).waiting = true) ∧
        (∀ link, x.held = true → kget s.pkg.routes (ringPrior s x) = some link →
          t.pkg.outbox = s.pkg.outbox ++ [(link, { dest := ringPrior s x, body := .ringCredit r.vf (f.imm.toNat % 16) })]) }
  | .collSum f => some (collects f 0)
  | .collMax f => some (collects f 1)
  | .collMin f => some (collects f 2)
  | .collRs f => some (collects f 3)
  | .collAg f => some (collects f 4)
  | .collBc f => some (collects f 5)
  | .ewait f => some {
      inHandler := true
      needs := fun s _ => if areg s f.s = 0 then ∀ e ∈ s.pkg.engines, e.rid = some s.who → e.done = true → e.error = none ∨ e.reported = true
        else ∃ e, (enginesOf s s.who).find? (·.ticket == (areg s f.s).toNat) = some e ∧ (e.done = true → e.error = none)
      leads := fun s _ t => t = if areg s f.s = 0 then (if (enginesOf s s.who).all (·.done) then goOn s else waits s)
        else if ((enginesOf s s.who).find? (·.ticket == (areg s f.s).toNat)).any (·.done) then goOn s else waits s }
  | .ecancel f => some {
      inHandler := true
      needs := fun s _ => ∃ e, (enginesOf s s.who).find? (·.ticket == (areg s f.s).toNat) = some e
      leads := fun s _ t => ∀ e, (enginesOf s s.who).find? (·.ticket == (areg s f.s).toNat) = some e →
        let ended := fun (y : EngineCmd) => if y.number = e.number then { y with done := true, data := [], chunks := [] } else y
        t = if e.done = true ∨ sending e = true then goOn (setA s f.d 0)
          else goOn (setA (onPkg (fun p => { p with engines := p.engines.map ended }) s) f.d (if unwritten e then 1 else 0)) }
  | _ => none

end Sys2Proof.Claims

open Sys2Proof.Claims

/-- R75 to R77, R90 to R98, R327: FOLD, FOLDCHK, REFOLD, NSTAT, NDROP and NSEED: where the statement's fold and the operands are as the rule wants, each has its effect; a
REFOLD that is accepted closes the gate and waits for the move. -/
def Obligations.NameCommandsComplete : Prop :=
  ∀ (i : Instr) (e : Effects) (s : State) (r : Region), nameEffect i = some e → RegionIssues s r e.inHandler → e.needs s r →
    ∃ t, exec i s = .next t ∧ e.leads s r t

/-- R301, R328 to R334, R450: COPY, MCAST, RING.PUT and COLL are accepted and give a ticket; PUBL exchanges a handle's buffers and raises its version; RING.OPEN waits for every
member, RING.TAKE for the next slot, EWAIT for its tickets, and ECANCEL ends one. -/
def Obligations.EngineCommandsComplete : Prop :=
  ∀ (i : Instr) (e : Effects) (s : State) (r : Region), engineEffect i = some e → RegionIssues s r e.inHandler → e.needs s r →
    ∃ t, exec i s = .next t ∧ e.leads s r t

/-! ### Plinths (R359 to R364), galleries (R172 to R190, R375 to R378) and casts (R193 to R196, R379, R380) -/

namespace Sys2Proof.Claims

/-- The state with a plinth of a region's hall changed. -/
def withPlinth (s : State) (r : Region) (k : Nat) (p : Plinth) : State :=
  { s with halls := s.halls.set r.hall { hallAt s r.hall with plinths := (hallAt s r.hall).plinths.set k p } }

/-- The plinth that a command's imm names: 0 to 2 (R360). -/
def plinthOf (s : State) (r : Region) (f : CmdRec) : Plinth := plinthAt s r.hall (f.imm.toNat % 4)

/-- The slots of imm's mask (R360). -/
def slotsOf (f : CmdRec) : List Nat := (List.range 16).filter (fun k => f.imm.getLsbD (16 + k))

/-- A plinth claimed, with some slots, which are empty (R360). -/
def claimed (p : Plinth) (rid : Nat) (whole : Bool) (slots : List Nat) : Plinth :=
  { p with
    holder := if whole then some rid else p.holder, cfg := if whole then none else p.cfg, rows := if whole then [] else p.rows
    slotHolder := slots.foldl (fun m v => kset m v rid) p.slotHolder, slots := p.slots.filter (fun q => !slots.contains q.1) }

/-- A plinth after RELEASE: the region's slots named, or all with the plinth, are released and zeroed (R22, R360). -/
def released (p : Plinth) (rid : Nat) (f : CmdRec) : Plinth :=
  let whole := f.imm.getLsbD 2 && p.holder == some rid
  let mine := (p.slotHolder.filter (fun q => q.2 == rid && (whole || (slotsOf f).contains q.1))).map (·.1)
  { p with
    slotHolder := p.slotHolder.filter (fun q => !mine.contains q.1), slots := p.slots.filter (fun q => !mine.contains q.1)
    zeroing := mine.foldl addNat p.zeroing, holder := if whole then none else p.holder, cfg := if whole then none else p.cfg
    rows := if whole then [] else p.rows, drain := if whole then none else p.drain }

/-- The drain target that MX.GO arms (R363). -/
def drainArmed (s : State) (f : CmdRec) : Drain :=
  { ref := (areg s f.s).toNat, pitch := ((areg s f.t).extractLsb' 0 32).toNat, base := ((areg s f.t).extractLsb' 32 24).toNat, shadow := f.imm.getLsbD 2 }

/-- The configuration that MX.CFG sets (R361). -/
def configOf (f : CmdRec) : MxCfg :=
  { afmt := tyOfCode (f.imm.toNat / 4 % 16), n := f.imm.toNat / 64 % 128 + 1, keep := f.imm.getLsbD 13, sparse := f.imm.getLsbD 14 }

/-- The pieces of a read of `n` bytes of a buffer that have performed, `bs` their bytes: those at the head of `got` (R127). -/
def gathered (b : Buffer) (off n : Nat) (got : List (List Byte)) (bs : List Byte) : Prop :=
  accessCode (some b) .read off n 1 false = none ∧ (granPieces (b.base + off) n).length ≤ got.length ∧ bs = (got.take (granPieces (b.base + off) n).length).flatten

/-- The pieces of OPLD's packet from the one after its header's first `h`. -/
def packetGot (b : Buffer) (off : Nat) (got : List (List Byte)) : List (List Byte) := got.drop (granPieces (b.base + off) 8).length

/-- The packet that OPLD's pieces have given, and that R361 admits: its header is read first, then all of it. -/
def packetRead (s : State) (r : Region) (f : CmdRec) (bs : List Byte) : Prop :=
  refOk (areg s f.s) ∧ ∃ b head p, refBuffer s r (areg s f.s) = some b ∧
    gathered b ((areg s f.s).toNat % 2 ^ 32) 8 r.seq.pieces.got head ∧ bPacketOk (pktHdr head) (f.imm.getLsbD 8) = true ∧
    gathered b ((areg s f.s).toNat % 2 ^ 32) (pktHdr head).length (packetGot b ((areg s f.s).toNat % 2 ^ 32) r.seq.pieces.got) bs ∧
    pktOf bs = some p ∧ masksOk p = true ∧ runScalesFinite p = true

/-- The next piece that OPLD reads: the offset from the reference and the size, in the header first and then in the packet that it describes. -/
def nextPiece (b : Buffer) (off : Nat) (tr : Bool) (got : List (List Byte)) : Option (Nat × Nat) :=
  let hs := granPieces (b.base + off) 8
  let h := pktHdr (got.take hs.length).flatten
  if got.length < hs.length then hs[got.length]?
  else if bPacketOk h tr = true ∧ off + h.length ≤ b.len then (granPieces (b.base + off) h.length)[got.length - hs.length]? else none

/-- OPLD has a piece of its packet at hand to read: in scratch or on a page that the translation cache holds. -/
def pieceReady (s : State) (r : Region) (f : CmdRec) (a n : Nat) : Prop :=
  refOk (areg s f.s) ∧ ∃ b p, refBuffer s r (areg s f.s) = some b ∧ b.read = true ∧ (areg s f.s).toNat % 2 ^ 32 + 8 ≤ b.len ∧
    nextPiece b ((areg s f.s).toNat % 2 ^ 32) (f.imm.getLsbD 8) r.seq.pieces.got = some (p, n) ∧
    location s r b .read ((areg s f.s).toNat % 2 ^ 32 + p) = some a ∧
    (b.scratch = none → (tlbLookup s r.hall r.vf (b.base + (areg s f.s).toNat % 2 ^ 32 + p)).isSome = true) ∧ takeable s r.hall a n ∧ poisoned s a n = false

/-- The plinth commands. -/
def plinthEffect : Instr → Option Effects
  | .claim f => some {
      needs := fun _ _ => f.imm.toNat % 4 ≠ 3
      leads := fun s r t =>
        t = if claimOk s s.who r.hall (f.imm.toNat % 4) (f.imm.getLsbD 2) (slotsOf f) (plinthOf s r f) = false then goOn (setA s f.d 0)
          else if (slotsOf f).any (plinthOf s r f).zeroing.contains then waits s
          else goOn (setA (withPlinth s r (f.imm.toNat % 4) (claimed (plinthOf s r f) s.who (f.imm.getLsbD 2) (slotsOf f))) f.d 1) }
  | .release f => some {
      needs := fun _ _ => f.imm.toNat % 4 ≠ 3
      leads := fun s r t => t = goOn (withPlinth s r (f.imm.toNat % 4) (released (plinthOf s r f) s.who f)) }
  | .opld f => some {
      needs := fun s r => f.imm.toNat % 4 ≠ 3 ∧ (plinthOf s r f).holder = some s.who ∧ kget (plinthOf s r f).slotHolder (f.imm.toNat / 16 % 16) = some s.who ∧
        (plinthOf s r f).jobs = [] ∧ ((∃ bs, packetRead s r f bs) ∨ ∃ a n, pieceReady s r f a n)
      leads := fun s r t =>
        (∀ bs, packetRead s r f bs → t = goOn (withPlinth s r (f.imm.toNat % 4) { plinthOf s r f with
          slots := kset (plinthOf s r f).slots (f.imm.toNat / 16 % 16) { packet := bs, tr := f.imm.getLsbD 8, ref := some (areg s f.s).toNat } })) ∧
        (∀ a n, pieceReady s r f a n → ∃ u, ReadOnly s u ∧
          t = waits (withIssuer u { issuer s with pieces := { got := r.seq.pieces.got ++ [readBytes s.mem a n] } })) }
  | .mxCfg f => some {
      needs := fun s r => f.imm.toNat % 4 ≠ 3 ∧ (plinthOf s r f).holder = some s.who ∧ (plinthOf s r f).rows = [] ∧ 7 ≤ f.imm.toNat / 4 % 16 ∧ f.imm.toNat / 4 % 16 ≤ 10
      leads := fun s r t => t = goOn (withPlinth s r (f.imm.toNat % 4) { plinthOf s r f with cfg := some (configOf f) }) }
  | .mxRoute f => some {
      needs := fun s _ => areg s f.s < 65536
      leads := fun s _ t => t = goOn (onRegion s.who (fun r => { r with routes := kset r.routes (f.imm.toNat % 8) (areg s f.s).toNat }) s) }
  | .mxGo f => some {
      needs := fun s r => f.imm.toNat % 4 ≠ 3 ∧ (plinthOf s r f).holder = some s.who ∧ refOk (areg s f.s) ∧ (areg s f.t).extractLsb' 56 8 = 0 ∧ (areg s f.t).toNat % 16 = 0 ∧
        (plinthOf s r f).cfg.any (·.keep) = true
      leads := fun s r t => t = goOn (withPlinth s r (f.imm.toNat % 4) { plinthOf s r f with drain := some (drainArmed s f) }) }
  | .mxStop f => some {
      needs := fun s r => f.imm.toNat % 4 ≠ 3 ∧ (plinthOf s r f).holder = some s.who
      leads := fun s r t =>
        let p := plinthOf s r f
        t = if s.reqs.any (fun q => q.rid == s.who && (match q.op with | .drain j _ _ => j == f.imm.toNat % 4 | _ => false)) then waits s
          else goOn (withPlinth s r (f.imm.toNat % 4) { p with drain := none, rows := if f.imm.getLsbD 2 then [] else p.rows }) }
  | _ => none

/-- The gallery that a command names is open and not broken. -/
def opened? (s : State) (r : Region) (f : CmdRec) (g : Gallery) : Prop :=
  ∃ w, kget s.wings r.wing = some w ∧ kget w.galleries (f.imm.toNat % 256) = some g ∧ g.broken = false

/-- A gallery in a state. -/
def galleryNow (s : State) (r : Region) (k : Nat) : Option Gallery := (kget s.wings r.wing).bind (fun w => kget w.galleries k)

/-- The state with a gallery changed. -/
def withGallery (s : State) (r : Region) (k : Nat) (g : Gallery) : State :=
  match kget s.wings r.wing with
  | some w => withWing s r.wing { w with galleries := kset w.galleries k g }
  | none => s

/-- The gallery that a descriptor opens, with its chain (R172, R375). -/
def galleryOpened (rid : Nat) (r : Region) (w0 w1 : Nat) (links : List Link) : Gallery :=
  { layers := w0 / 2 ^ 56 % 256 + 1, heads := w0 / 2 ^ 50 % 64 + 1, dim := w0 / 2 ^ 42 % 256, fmt := tyOfCode (w0 / 2 ^ 38 % 16), base := BitVec.ofNat 32 w0
    owner := rid, rq := w1 / 2 ^ 60 % 16, ks := w1 / 2 ^ 56 % 16, vs := w1 / 2 ^ 52 % 16, vf := r.vf, ctx := r.ctx, links := links }

/-- The gallery after an append of `n` positions (R177): the last segment grows when the rows continue it, else a new one follows. -/
def appended (g : Gallery) (n handle lstride skip : Nat) : Option Gallery :=
  let grown := fun (links : List Link) (i : Nat) => (links.zipIdx).map (fun p => if i ≤ p.2 then { p.1 with limit := g.length + n } else p.1)
  match extends? g handle lstride skip with
  | some e =>
    let g' := g.modSeg e.id (fun e => { e with len := e.len + n })
    some { g' with links := grown g'.links g.lastOccupied }
  | none =>
    let i := if (g.link g.lastOccupied).segs.length < 64 then g.lastOccupied else g.lastOccupied + 1
    let e : Segment := { state := .live, wmark := g.layers, start := g.length, len := n, rot := 0, skip := skip, handle := handle, doc := 0, ver := 0
                         lstride := lstride, reg := 0, id := g.nextId }
    if g.links.length ≤ i then none
    else some { g with nextId := g.nextId + 1, links := grown ((g.links.zipIdx).map (fun p => if p.2 = i then { p.1 with segs := p.1.segs ++ [e] } else p.1)) i }

/-- The operands of GAL.APPEND's second register. -/
def appendOf (s : State) (f : CmdRec) (g : Gallery) : Option Gallery :=
  appended g (areg s f.s).toNat ((areg s f.t).extractLsb' 24 8).toNat ((areg s f.t).extractLsb' 32 32).toNat ((areg s f.t).extractLsb' 0 24).toNat

/-- The segment that a position falls inside, at the link that holds it. -/
def cutSeg (g : Gallery) (p : Nat) : Option Segment := (g.link (g.holder p)).segs.find? (fun e => e.start < p && p < e.start + e.len)

/-- The gallery as SPLICE leaves it: the segment at the position is split, and a wave starts that inserts the document's (R183). -/
def spliced (rid : Nat) (g : Gallery) (p a : Nat) (d : DocEntry) : Gallery :=
  let g1 := match cutSeg g p with | some e => splitSeg g p e | none => g
  let e : Segment := { state := .spliced, wmark := 0, start := p, len := d.len, rot := (p : Int) - d.base, skip := 0, handle := d.handle
                       doc := d.doc, ver := d.ver, lstride := d.lstride, reg := a, id := g1.nextId }
  startWave { g1 with nextId := g1.nextId + 1 } false p d.len (g.holder p) (some e) rid

/-- The registry entry of a SPLICE: the one that it read when it issued, where it has waited since, else the wing's (R376). -/
def spliceEntry (s : State) (r : Region) (f : CmdRec) (d : DocEntry) : Prop :=
  r.seq.entry = some d ∨ r.seq.entry = none ∧ ∃ w, kget s.wings r.wing = some w ∧ kget w.docs (areg s f.t).toNat = some d

/-- The document version that PROV's descriptor registers (R390). -/
def docEntry (w0 w1 w2 : Nat) : DocEntry :=
  { doc := w0 / 2 ^ 32 % 2 ^ 32, ver := w0 / 2 ^ 16 % 2 ^ 16, base := w1 % 2 ^ 24, len := w1 / 2 ^ 32 % 2 ^ 25, handle := w2 / 2 ^ 24 % 256
    lstride := w2 / 2 ^ 32 % 2 ^ 32, state := .current }

/-- The gallery commands. -/
def galleryEffect : Instr → Option Effects
  | .galOpen f => some {
      needs := fun s r => ∃ w bs k links, kget s.wings r.wing = some w ∧ atReference s r (areg s f.s) 16 bs ∧ galleryDescOk w r (wordAt bs 0) (wordAt bs 1) = true ∧
        firstFree 256 (fun k => (kget w.galleries k).isNone) = some k ∧
        chainFrom s w (wordAt bs 1 / 2 ^ 40 % 64) (wordAt bs 1 / 2 ^ 36 % 16) (wordAt bs 1 / 2 ^ 26 % 1024 + 1) = some links
      leads := fun s r t => ∀ w bs k links, kget s.wings r.wing = some w → atReference s r (areg s f.s) 16 bs →
        chainFrom s w (wordAt bs 1 / 2 ^ 40 % 64) (wordAt bs 1 / 2 ^ 36 % 16) (wordAt bs 1 / 2 ^ 26 % 1024 + 1) = some links →
        firstFree 256 (fun k => (kget w.galleries k).isNone) = some k →
        galleryNow t r k = some (galleryOpened s.who r (wordAt bs 0) (wordAt bs 1) links) ∧ (f.d ≠ 0 → areg t f.d = BitVec.ofNat 64 k) ∧ t.mem = s.mem ∧
        ∀ j x, j ≠ s.who → kget s.regions j = some x → kget t.regions j = some x }
  | .galClose f => some {
      needs := fun s r => (galleryNow s r (f.imm.toNat % 256)).isSome = true
      leads := fun s r t => ∀ g, galleryNow s r (f.imm.toNat % 256) = some g →
        if g.reads ≠ [] ∨ g.wave.isSome ∨ (repairsOf s).any (fun x => x.2.wing == r.wing && x.2.gallery == f.imm.toNat % 256) then t = waits s
        else galleryNow t r (f.imm.toNat % 256) = none ∧ t.mem = s.mem }
  | .galAppend f => some {
      needs := fun s r => ∃ g, opened? s r f g ∧ areg s f.s ≠ 0 ∧ g.length + (areg s f.s).toNat ≤ 2 ^ 24 ∧ (appendOf s f g).isSome = true
      leads := fun s r t => ∀ g, opened? s r f g → if g.wave.isSome then t = waits s
        else ∀ g', appendOf s f g = some g' → t = goOn (withGallery s r (f.imm.toNat % 256) g') }
  | .splice f => some {
      needs := fun s r => ∃ g d, opened? s r f g ∧ (areg s f.t).toNat < 4096 ∧ spliceEntry s r f d ∧ d.state = .current ∧
        (areg s f.s).toNat ≤ g.length ∧ g.length + d.len ≤ 2 ^ 24 ∧
        (g.link (g.holder (areg s f.s).toNat)).segs.length + (if (cutSeg g (areg s f.s).toNat).isSome then 2 else 1) ≤ 64
      leads := fun s r t => ∀ g d, opened? s r f g → spliceEntry s r f d →
        t = if myWave g s.who then waits s
          else if g.busy ∨ (cutSeg g (areg s f.s).toNat).any (·.state == .repairing) then waits (withIssuer s { issuer s with entry := some d })
          else waits (withGallery s r (f.imm.toNat % 256) (spliced s.who g (areg s f.s).toNat (areg s f.t).toNat d)) }
  | .galCut f => some {
      needs := fun s r => ∃ g, opened? s r f g
      leads := fun s r t => ∀ g, opened? s r f g →
        t = if myWave g s.who || g.busy then waits s
          else waits (withGallery s r (f.imm.toNat % 256) (startWave g true (areg s f.s).toNat (g.length - (areg s f.s).toNat) (g.holder (areg s f.s).toNat) none s.who)) }
  | .prov f => some {
      needs := fun s r => ∃ w bs, kget s.wings r.wing = some w ∧ atReference s r (areg s f.s) 24 bs ∧ wordAt bs 0 / 2 ^ 32 % 2 ^ 32 ≠ 0 ∧ wordAt bs 0 % 2 ^ 16 = 0 ∧
        wordAt bs 1 / 2 ^ 57 % 128 = 0 ∧ wordAt bs 1 / 2 ^ 24 % 256 = 0 ∧ wordAt bs 2 % 2 ^ 24 = 0 ∧ 1 ≤ wordAt bs 1 / 2 ^ 32 % 2 ^ 25 ∧ wordAt bs 1 / 2 ^ 32 % 2 ^ 25 ≤ 2 ^ 24 ∧
        (firstFree 4096 (fun k => (kget w.docs k).isNone)).isSome = true
      leads := fun s r t => ∀ w bs k, kget s.wings r.wing = some w → atReference s r (areg s f.s) 24 bs → firstFree 4096 (fun k => (kget w.docs k).isNone) = some k →
        ∃ w', kget t.wings r.wing = some w' ∧ (f.d ≠ 0 → areg t f.d = BitVec.ofNat 64 k) ∧
        t.mem = s.mem ∧ t.regions = (goOn (setA s f.d (BitVec.ofNat 64 k))).regions ∧ kget w'.docs k = some (docEntry (wordAt bs 0) (wordAt bs 1) (wordAt bs 2)) ∧
        ∀ j d, j ≠ k → kget w.docs j = some d → (∀ p ∈ w.docs, p.1 = j → p.2 = d) →
          kget w'.docs j = some (if d.doc = wordAt bs 0 / 2 ^ 32 % 2 ^ 32 ∧ d.ver < wordAt bs 0 / 2 ^ 16 % 2 ^ 16 then { d with state := .superseded } else d) }
  | .provRev f => some {
      needs := fun s r => ∃ w p, kget s.wings r.wing = some w ∧ p ∈ w.docs ∧ p.2.doc = (areg s f.s).toNat % 2 ^ 32 ∧ p.2.ver = (areg s f.t).toNat % 2 ^ 16
      leads := fun s r t => ∀ w, kget s.wings r.wing = some w → ∃ w', kget t.wings r.wing = some w' ∧ t.mem = s.mem ∧ t.regions = (goOn s).regions ∧
        ∀ j d, kget w.docs j = some d → d.doc = (areg s f.s).toNat % 2 ^ 32 → d.ver = (areg s f.t).toNat % 2 ^ 16 → kget w'.docs j = some { d with state := .revoked } }
  | .repair f => some {
      needs := fun s r => ∃ g k x l e die, opened? s r f g ∧ ridOfIdent s (areg s f.t).toNat = some k ∧ kget s.regions k = some x ∧ x.wing = r.wing ∧ hdrThread x.header = true ∧
        (if f.imm.toNat / 256 % 256 = 0 then 256 else f.imm.toNat / 256 % 256) ≤ g.layers ∧ actOk x.program (f.imm.toNat / 2 ^ 16 % 256) = true ∧
        g.links.find? (fun l => l.segs.any (fun e => e.start ≤ (areg s f.s).toNat && (areg s f.s).toNat < e.start + e.len)) = some l ∧
        g.segAt (areg s f.s).toNat = some e ∧ (e.state = .spliced ∨ e.state = .stale ∧ (if f.imm.toNat / 256 % 256 = 0 then 256 else f.imm.toNat / 256 % 256) = g.layers) ∧
        e.len ≤ 65536 ∧ workingDie s (dieOf l.hall) = some die
      leads := fun s _ t => ∃ die n, (f.d ≠ 0 → areg t f.d = BitVec.ofNat 64 (die * 2 ^ 62 + n % 2 ^ 32)) ∧ t.mem = s.mem ∧
        (t.conservators[die]?).map (·.count) = some n ∧ (s.conservators[die]?).map (·.count) = some (n - 1) ∧ 1 ≤ n }
  | .repairWait f => some {
      needs := fun s r => ∃ die x, repairNo s (areg s f.s).toNat = some (die, x) ∧ x.wing = r.wing ∧ x.vf = r.vf ∧ x.cancelled = false
      leads := fun s _ t => ∀ die x, repairNo s (areg s f.s).toNat = some (die, x) → t = if x.ended then goOn s else waits s }
  | _ => none

/-- A cast of a region's wing that its function bound. -/
def boundCast (s : State) (r : Region) (f : CmdRec) (c : Cast) : Prop :=
  ∃ w, kget s.wings r.wing = some w ∧ kget w.casts (f.imm.toNat % 256) = some c ∧ c.vf = r.vf

/-- The state with a cast changed. -/
def withCast (s : State) (r : Region) (l : Nat) (c : Cast) : State :=
  match kget s.wings r.wing with
  | some w => withWing s r.wing { w with casts := kset w.casts l c }
  | none => s

/-- The cast with a run joined to its queue; a run that is first starts and takes the weights' mapping and version (R196, R380). -/
def joined (s : State) (r : Region) (f : CmdRec) (c : Cast) : Cast :=
  let q := c.queue ++ [{ rid := s.who, d := f.d.toNat, plinth := f.imm.toNat / 256 % 4 }]
  let h := handleAt s c.vf c.ctx c.weights
  if c.runner.isNone then { c with runner := q.head?, queue := q.tail, map := h.visible, seen := h.version } else { c with queue := q }

/-- The cast commands. -/
def castEffect : Instr → Option Effects
  | .deltaBind f => some {
      needs := fun s r => ∃ w bs c, kget s.wings r.wing = some w ∧ atReference s r (areg s f.s) 32 bs ∧ castOf r bs = some c ∧ kget w.casts (f.imm.toNat % 256) = none ∧
        scratchOk s r.hall c.scratch c.bytes = true ∧ scratchTaken s r.hall c.scratch c.bytes = false
      leads := fun s r t => ∀ bs c, atReference s r (areg s f.s) 32 bs → castOf r bs = some c → ∃ u, ReadOnly s u ∧ t = goOn (withCast u r (f.imm.toNat % 256) c) }
  | .deltaRun f => some {
      needs := fun s r => ∃ c, boundCast s r f c ∧ f.imm.toNat / 256 % 4 ≠ 3 ∧ r.hall = c.hall ∧ (plinthAt s r.hall (f.imm.toNat / 256 % 4)).holder = some s.who ∧
        2 ≤ ((plinthAt s r.hall (f.imm.toNat / 256 % 4)).slotHolder.filter (·.2 == s.who)).length
      leads := fun s r t => ∀ c, boundCast s r f c →
        t = if c.runner.any (·.rid == s.who) || c.queue.any (·.rid == s.who) then waits s else waits (withCast s r (f.imm.toNat % 256) (joined s r f c)) }
  | .deltaRef f => some {
      needs := fun s r => ∃ c, boundCast s r f c
      leads := fun s r t => ∀ c, boundCast s r f c →
        t = if c.running then waits s else goOn (withCast s r (f.imm.toNat % 256) { c with state := .cold, afterRef := true }) }
  | .deltaInv f => some {
      needs := fun s r => ∃ c, boundCast s r f c
      leads := fun s r t => ∀ c, boundCast s r f c → if c.running then t = waits s
        else (kget t.wings r.wing).all (fun w => (kget w.casts (f.imm.toNat % 256)).isNone) = true ∧
          ∀ a, readByte t.mem a = if c.base ≤ a ∧ a < c.base + c.bytes then 0 else readByte s.mem a }
  | .deltaStat f => some {
      needs := fun s r => f.imm.toNat / 256 % 256 ≤ 7 ∧ ∃ c, boundCast s r f c
      leads := fun s r t => ∀ c, boundCast s r f c → t = goOn (setA s f.d (BitVec.ofNat 64 ((c.counters[f.imm.toNat / 256 % 256]?).getD 0))) }
  | _ => none

end Sys2Proof.Claims

open Sys2Proof.Claims

/-- R22, R359 to R363, R368: CLAIM and RELEASE, OPLD, MX.CFG, MX.ROUTE, MX.GO and MX.STOP of a plinth that the region holds. -/
def Obligations.PlinthCommandsComplete : Prop :=
  ∀ (i : Instr) (e : Effects) (s : State) (r : Region), plinthEffect i = some e → RegionIssues s r e.inHandler → e.needs s r →
    ∃ t, exec i s = .next t ∧ e.leads s r t

/-- R172 to R190, R193 to R196, R375 to R380, R390, R447 to R449: the gallery and cast commands: where the descriptor, the gallery or cast and the operands are as the rule
wants, each has its effect; those that start a wave or a run wait for its end. -/
def Obligations.GalleryCommandsComplete : Prop :=
  ∀ (i : Instr) (e : Effects) (s : State) (r : Region), (galleryEffect i = some e ∨ castEffect i = some e) → RegionIssues s r e.inHandler → e.needs s r →
    ∃ t, exec i s = .next t ∧ e.leads s r t

/-! ### Traps, calls, saves and the service sequencer (R199 to R222, R318, R335 to R339, R403 to R405, R454 to R459) -/

namespace Sys2Proof.Claims

/-- The state with a region's handler ended (R404). -/
def leftHandler (s : State) : State :=
  stirred s.who (onRegion s.who (fun r => { r with trap := none, seq := { r.seq with handler := none } }) s)

/-- The md that a retry fires with: MDSET and what KEEP kept, limited to what the node admits (R404). -/
def retriedMd (r : Region) (t : TrapRec) (imm : BitVec 32) : Nat :=
  match liveNode r.active t.cell t.node with
  | some x => (imm.toNat % 16 ||| kgetD r.active.keep (t.cell * 32 + t.node) 0) &&& mdMask x.instr x.fields.ty
  | none => 0

/-- A region whose node keeps the md of a retry with KEEP (R404). -/
def keptMd (r : Region) (t : TrapRec) (imm : BitVec 32) (y : Region) : Region :=
  if imm.getLsbD 4 && (liveNode r.active t.cell t.node).isSome then
    { y with active := { y.active with keep := kset r.active.keep (t.cell * 32 + t.node) (retriedMd r t imm) } }
  else y

/-- A region whose held issue, or held sequence, comes again (R404). -/
def comesAgain (rid : Nat) (t : TrapRec) (md : Nat) (y : Region) : Region :=
  match t.seqRun with
  | some q => { y with fires := y.fires ++ [{ q with mdSet := md, retry := true }] }
  | none => { y with again := y.again ++ [{ rid := rid, cell := t.cell, node := t.node, lanes := t.held, mdSet := md, retry := true, row := t.row }] }

/-- A region whose trapped command is skipped, with its destination register 0 (R404). -/
def skipped (d : Nat) (r : Region) : Region := { r with seq := { r.seq.settled.put d 0 with index := r.seq.index + 1 } }

/-- A handler that ends `t`, the only trap of its region. -/
def ends (r : Region) (t : TrapRec) : Prop := r.seq.handler.isSome = true ∧ r.trap = some t ∧ r.traps = []

/-- What TRET.discard leaves of a node's trap: the invocations of the held lanes are discarded, then a drain's row is free or the pending poisons are final (R404). -/
def discarded (s : State) (r : Region) (t : TrapRec) (u : State) : Prop :=
  ∃ v, Reaches (each t.held (fun l => discardTag s.who l.tag t.code)) (leftHandler s) () v ∧
    match t.drain with
    | none => Reaches (finalPoison s.who t) v () u
    | some (k, row) => ∃ w, (match openInv v r s.who t.iv with | some i => Reaches (markDiscard r.hall i t.code) v () w | none => w = v) ∧ Reaches (dropRow r.hall k row) w () u

/-- A vector raised, or kept while the host link is down (R201, R454). -/
def vectored (fn v : Nat) (s : State) : State :=
  { s with pkg := if s.pkg.hostUp then { s.pkg with msi := s.pkg.msi ++ [(fn, v)] } else { s.pkg with msiWaiting := s.pkg.msiWaiting ++ [(fn, v)] } }

/-- The call of a guest in a free entry (R336). -/
def calling (s : State) (r : Region) (f : CmdRec) (k : Nat) : State :=
  let call : HCall := { vf := r.vf, rid := some s.who, handler := r.seq.handler.isSome, fn := f.imm.toNat % 65536, arg := areg s f.s }
  { s with pkg := { s.pkg with hcalls := kset s.pkg.hcalls k call, hcallOrder := s.pkg.hcallOrder ++ [k] } }

/-- The region that a register names by its identifier. -/
def names (s : State) (i : BitVec 5) (k : Nat) (x : Region) : Prop := ridOfIdent s (areg s i).toNat = some k ∧ kget s.regions k = some x

/-- The registrar has one more entry, of a kind, wing and function, chained to the one before (R220). -/
def logs (s t : State) (kind wing vf : Nat) (data : BitVec 256 → Prop) : Prop :=
  ∃ e : RegEntry, t.pkg.registrar.entries = s.pkg.registrar.entries ++ [e] ∧ e.chain = nextChain s.pkg.registrar e.body ∧
    e.body.extractLsb' 312 8 = BitVec.ofNat 8 kind ∧ e.body.extractLsb' 306 6 = BitVec.ofNat 6 wing ∧ e.body.extractLsb' 296 10 = BitVec.ofNat 10 vf ∧
    data (e.body.extractLsb' 0 256)

/-- Every region stays as it is, and of the service sequencer only its place moves on. -/
def servedAlone (s t : State) : Prop := t.regions = s.regions ∧ t.service = (goOn s).service

/-- The trap and call commands of a guest, and AUDIT. -/
def trapEffect : Instr → Option Effects
  | .tretRetry f => some {
      inHandler := true
      needs := fun _ r => ∃ t, ends r t
      leads := fun s r u => ∀ t, r.trap = some t → if t.seq then u = leftHandler s
        else match t.arrival, t.drain with
          | some (p, x), _ => ∃ b v, Reaches (arriveToken s.who t.cell t.node p x true false) (leftHandler s) b v ∧ Reaches deliverTraps v () u
          | none, some (k, row) => settles (startDrain r.hall k row) (leftHandler s) u
          | none, none => u = onRegion s.who (fun y => comesAgain s.who t (retriedMd r t f.imm) (keptMd r t f.imm y)) (leftHandler s) }
  | .tretPoison => some {
      inHandler := true
      needs := fun _ r => ∃ t, ends r t
      leads := fun s r u => ∀ t, r.trap = some t → if t.seq then u = onRegion s.who (skipped (trappedReg r)) (leftHandler s)
        else match t.drain with
          | some (k, row) => settles (dropRow r.hall k row) (leftHandler s) u
          | none => settles (finalPoison s.who t) (leftHandler s) u }
  | .tretDiscard => some {
      inHandler := true
      needs := fun _ r => ∃ t, ends r t
      leads := fun s r u => ∀ t, r.trap = some t → if t.seq then u = onRegion s.who (skipped (trappedReg r)) (leftHandler s)
        else ∃ v, discarded s r t v ∧ Reaches deliverTraps v () u }
  | .tretAbort => some {
      inHandler := true
      needs := fun _ r => ∃ t, ends r t
      leads := fun s r u => ∀ t, r.trap = some t → settles (regionFault s.who t 0) s u }
  | .sysc f => some {
      inHandler := true
      needs := fun _ _ => True
      leads := fun s r t => t = if sentWrites s s.who then waits s else goOn (vectored r.vf (f.imm.toNat % 32) s) }
  | .hcall f => some {
      inHandler := true
      needs := fun _ _ => True
      leads := fun s r t => match s.pkg.hcallReplies.find? (fun x => x.1 == callerKey r.vf s.who && x.2.1 == r.seq.handler.isSome) with
        | some x => t = goOn (setA { s with pkg := { s.pkg with hcallReplies := s.pkg.hcallReplies.erase x } } f.d x.2.2)
        | none => if s.pkg.hcalls.any (fun p => p.2.vf == r.vf && p.2.rid == some s.who && p.2.handler == r.seq.handler.isSome) then t = waits s
          else match firstFree 256 (fun k => (kget s.pkg.hcalls k).isNone) with
            | none => t = waits s
            | some k => t = waits (calling s r f k) }
  | .audit f => some {
      inHandler := true
      needs := fun s r => canLog s = true ∧ ∃ bs, atReference s r (areg s f.s) 32 bs
      leads := fun s r t => ∀ bs, atReference s r (areg s f.s) 32 bs → t.mem = s.mem ∧ t.regions = (goOn s).regions ∧
        logs s t 0x80 r.wing r.vf (fun d => d = BitVec.ofNat 256 (leNat bs)) }
  | _ => none

/-- The pieces of an image's bytes from an offset of a buffer (R208, R318). -/
def imagePieces (b : Buffer) (off : Nat) : List (Nat × Nat) := granPieces (b.base + off) Config.saveSize

/-- An image of a function can be read at an offset of a buffer for a hall. -/
def imageIn (s : State) (hall vf : Nat) (b : Buffer) (off : Nat) (x : SaveImage) : Prop :=
  ∃ bs, accessCode (some b) .read off Config.saveSize 1 false = none ∧ piecesAt s hall vf b off (imagePieces b off) bs ∧ imageWith (vfAt s vf) bs = some x

/-- An image of the issuer's function can be read at a reference (R299, R318). -/
def imageAt (s : State) (r : Region) (v : BitVec 64) (x : SaveImage) : Prop :=
  refOk v ∧ ∃ b, refBuffer s r v = some b ∧ imageIn s r.hall r.vf b (v.toNat % 2 ^ 32) x

/-- An image can be written at a reference (R101, R299, R318). -/
def imageFits (s : State) (r : Region) (v : BitVec 64) : Prop :=
  refOk v ∧ ∃ b, refBuffer s r v = some b ∧ accessCode (some b) .write (v.toNat % 2 ^ 32) Config.saveSize 1 false = none ∧
    ∀ p ∈ imagePieces b (v.toNat % 2 ^ 32), ∃ a, heldPlace s r.hall r.vf b .write (v.toNat % 2 ^ 32 + p.1) = some a ∧ takeable s r.hall a p.2 ∧ untested s r.hall a

/-- A guest's context command can act on a region: another one of its function, Sealed, whose engine commands have ended (R318). -/
def targets (s : State) (r : Region) (i : BitVec 5) (k : Nat) (x : Region) : Prop :=
  names s i k x ∧ k ≠ s.who ∧ x.vf = r.vf ∧ x.state = .sealed ∧ x.saved = none ∧
    s.pkg.engines.any (fun e => e.vf == x.vf && e.rid == some k && !e.done) = false

/-- The placement of an image is Free, and its reservation fits (R310, R318). -/
def imagePlace (s : State) (x : SaveImage) : Prop :=
  placementFree s x.region.vf x.region.hall x.region.ctx x.region.shape x.region.origin = true ∧
    reservationFits s x.region.vf x.region.hall x.region.ctx x.region.shape x.region.origin x.region.fres = true

/-- No slot of a vitrine is an image's region's, so none is to be loaded again (R207). -/
def slotless (s : State) (x : SaveImage) (hall : Nat) : Prop :=
  (∀ p ∈ x.plinths, p.slotHolder = []) ∧ ∀ p ∈ (hallAt s hall).plinths, ∀ q ∈ p.slotHolder, q.2 ≠ x.rid

/-- An image is restored and the command ends; one whose region holds slots of a vitrine may wait, with no effect, until they can be loaded again (R207, R318). -/
def resumes (m : M Unit) (free : Prop) (done : State → State) (s t : State) : Prop :=
  ∃ u, ReadOnly s u ∧ ((∃ v, Reaches m u () v ∧ Reaches deliverTraps (done v) () t) ∨ ¬ free ∧ t = waits s)

/-- The issuer's CTX.SWAP is between its two halves, with the context of a placement away, or in neither (R209). -/
def swapping (s : State) (v : Option Nat) : State := withIssuer s { issuer s with swap := v }

/-- The context commands of a guest (R209, R318). -/
def contextEffect : Instr → Option Effects
  | .ctxSave f => some {
      inHandler := true
      needs := fun s r => (∃ k x, targets s r f.s k x) ∧ imageFits s r (areg s f.t)
      leads := fun s r t => ∀ k x, targets s r f.s k x → ∃ u, Reaches (saveTarget k x (areg s f.t).toNat) s () u ∧ Reaches deliverTraps (goOn u) () t ∧
        kget u.regions k = none ∧ ∃ y ∈ (vfAt u r.vf).saves, y.rid = k ∧ y.tier = 1 ∧ y.vacated = true }
  | .ctxLoad f => some {
      inHandler := true
      needs := fun s r => ∃ x, imageAt s r (areg s f.t) x ∧ imagePlace s x
      leads := fun s r t => ∀ x, imageAt s r (areg s f.t) x →
        resumes (loadImage x) (slotless s x x.region.hall) (fun v => goOn (setA v f.d (BitVec.ofNat 64 (identOf x.region)))) s t }
  | .ctxSwap f => some {
      inHandler := true
      needs := fun s r => ∃ d y, atReference s r (areg s f.t) 16 d ∧ imageAt s r (BitVec.ofNat 64 (wordAt d 1)) y ∧
        if r.seq.swap.isSome then imagePlace (swapping s none) y
        else imageFits s r (BitVec.ofNat 64 (wordAt d 0)) ∧ ∃ k x, targets s r f.s k x ∧ identOf y.region = identOf x
      leads := fun s r t => ∀ d y, atReference s r (areg s f.t) 16 d → imageAt s r (BitVec.ofNat 64 (wordAt d 1)) y →
        if r.seq.swap.isSome then resumes (do modSeq (fun q => { q with swap := none }); loadImage y) (slotless s y y.region.hall) goOn s t
        else ∀ k x, targets s r f.s k x → ∃ u v, ReadOnly s u ∧ Reaches (saveTarget k x (wordAt d 0)) u () v ∧
          Reaches deliverTraps (waits (swapping v (some (identOf x)))) () t ∧ kget v.regions k = none }
  | _ => none

/-- What a command of the service sequencer needs, and what its next state is. -/
structure ServiceEffects where
  needs : State → Prop
  leads : State → State → Prop

/-- The issuer's command has come to a stage of its own. -/
def atWork (n : Nat) (s : State) : State := withIssuer s { issuer s with progress := n }

/-- A region whose snapshot into a slot starts, or waits for a CTX.SWAP of the region (R204, R209, R337). -/
def snapped (slot now : Nat) (r : Region) : Region :=
  let y := { r with snapshot := some { slot := some slot, pending := r.cells, start := now } }
  if r.seq.swap.isSome then y else { y with prior := r.state, state := .snapshotting }

/-- The halls of WING.DEF's rectangle (R200). -/
def rectOf (s : State) (f : CmdRec) : List Nat :=
  let a := (areg s f.s).toNat
  rectHalls (a % 8) (a / 8 % 8) (a / 2 ^ 8 % 8 + 1) (a / 2 ^ 11 % 8 + 1)

/-- The function that VF.BIND's aS names. -/
def vfNo (s : State) (f : CmdRec) : Nat := (areg s f.s).toNat % 1024

/-- The whole address space of a function, for reading. -/
def readSpace : Buffer := { scratch := none, base := 0, len := 2 ^ 57, read := true, write := false, atomic := false }

/-- The commands of the service sequencer. -/
def serviceEffect : Instr → Option ServiceEffects
  | .hcallTake f => some {
      needs := fun s => ∀ k rest, s.pkg.hcallOrder = k :: rest → (kget s.pkg.hcalls k).isSome = true
      leads := fun s t => match s.pkg.hcallOrder with
        | [] => t = waits s
        | k :: rest => ∃ c, kget s.pkg.hcalls k = some c ∧ t = goOn (setA { s with pkg := { s.pkg with hcallOrder := rest, hcalls := kset s.pkg.hcalls k { c with taken := true } } } f.d
            (BitVec.ofNat 64 (k * 2 ^ 56 + c.vf * 2 ^ 32 + c.fn))) }
  | .hcallArg f => some {
      needs := fun s => (kget s.pkg.hcalls ((areg s f.s).toNat % 256)).isSome = true
      leads := fun s t => ∃ c, kget s.pkg.hcalls ((areg s f.s).toNat % 256) = some c ∧ t = goOn (setA s f.d c.arg) }
  | .hcallRet f => some {
      needs := fun s => (kget s.pkg.hcalls ((areg s f.s).toNat % 256)).isSome = true
      leads := fun s t => ∃ c, kget s.pkg.hcalls ((areg s f.s).toNat % 256) = some c ∧
        let k := (areg s f.s).toNat % 256
        t = goOn { s with pkg := { s.pkg with hcalls := kdel s.pkg.hcalls k, hcallOrder := s.pkg.hcallOrder.filter (· != k), hcallReplies := match c.rid with | some rid => s.pkg.hcallReplies ++ [(callerKey c.vf rid, c.handler, areg s f.t)] | none => s.pkg.hcallReplies } } }
  | .freeze f => some {
      needs := fun s => ∃ k x, names s f.s k x ∧ (x.seq.swap = none ∨ s.service.waiting = true ∧ s.service.waitStart + 20000 ≤ s.timeNs)
      leads := fun s t => ∀ k x, names s f.s k x → ∃ y n, kget t.regions k = some y ∧ y.state = .frozen ∧ y.saved = some n ∧ y.active = x.active ∧ y.frames = x.frames ∧
        (∃ z ∈ (vfAt t x.vf).saves, z.number = n ∧ (x.state ≠ .frozen → z.rid = k ∧ z.tier = 2)) ∧ t.service = (goOn s).service ∧ ∀ j, j ≠ k → kget t.regions j = kget s.regions j }
  | .snap f => some {
      needs := fun s => s.service.progress ≠ 0 ∨ ∃ k x, names s f.s k x ∧ (x.snapshot.isSome = true ∨ x.saved = none)
      leads := fun s t =>
        (∀ k x, names s f.s k x →
          t = if x.snapshot.isSome then waits (atWork 1 (if s.service.progress = 0 then onRegion k (fun r => { r with snapshot := r.snapshot.map (fun y => { y with slot := some (f.imm.toNat % 1024) }) }) s else s))
            else if s.service.progress ≠ 0 then goOn s else waits (atWork 1 (onRegion k (snapped (f.imm.toNat % 1024) s.timeNs) s))) ∧
        ((∀ k x, ¬ names s f.s k x) → t = goOn s) }
  | .thaw f => some {
      needs := fun s => ∃ k r x, names s f.s k r ∧ r.saved.isSome = true ∧ imageIn s r.hall r.vf readSpace (slotAddr (vfAt s r.vf) (f.imm.toNat % 1024)) x ∧ x.rid = k ∧ identOf x.region = identOf r
      leads := fun s t => ∀ k r x, names s f.s k r → imageIn s r.hall r.vf readSpace (slotAddr (vfAt s r.vf) (f.imm.toNat % 1024)) x →
        resumes (thawFrom k r x) (slotless s x r.hall) goOn s t }
  | .wingDef f => some {
      needs := fun s => canLog s = true ∧ s.halls.length = 64 ∧ (areg s f.s).toNat / 2 ^ 6 % 4 = 0 ∧ (areg s f.s).toNat < 2 ^ 14 ∧
        (areg s f.s).toNat % 8 + ((areg s f.s).toNat / 2 ^ 8 % 8 + 1) ≤ 8 ∧ (areg s f.s).toNat / 8 % 8 + ((areg s f.s).toNat / 2 ^ 11 % 8 + 1) ≤ 8 ∧
        kget s.wings (f.imm.toNat % 64) = none ∧ s.pkg.booted = true ∧ s.pkg.life ≠ .returned ∧ ∀ x ∈ rectOf s f, (hallAt s x).wing = none ∧ (hallAt s x).released = true
      leads := fun s t => ∃ w, kget t.wings (f.imm.toNat % 64) = some w ∧ wingHalls w = rectOf s f ∧ w.tenant = (areg s f.t).toNat % 2 ^ 32 ∧ w.sliceLen = 0x01000000 ∧ w.forf = 0 ∧
        (∀ x ∈ rectOf s f, (hallAt t x).wing = some (f.imm.toNat % 64) ∧ (hallAt t x).powered = true ∧ ∀ b < vaultBytes, readByte t.mem (scratchAddr x 0 + b) = 0) ∧
        servedAlone s t ∧ logs s t 1 (f.imm.toNat % 64) 0 (fun _ => True) }
  | .wingDefRel f => some {
      needs := fun s => canLog s = true ∧ s.halls.length = 64 ∧ (kget s.wings (f.imm.toNat % 64)).isSome = true ∧ wingBusy s (f.imm.toNat % 64) = false
      leads := fun s t => ∀ w, kget s.wings (f.imm.toNat % 64) = some w → kget t.wings (f.imm.toNat % 64) = none ∧
        (∀ x ∈ wingHalls w, x < 64 → (hallAt t x).wing = none ∧ (hallAt t x).powered = false ∧ ∀ b < vaultBytes, readByte t.mem (scratchAddr x 0 + b) = 0) ∧
        servedAlone s t ∧ logs s t 1 (f.imm.toNat % 64) 0 (fun _ => True) }
  | .wingRoute f => some {
      needs := fun s => canLog s = true ∧ s.halls.length = 64 ∧ (kget s.wings (f.imm.toNat % 64)).isSome = true
      leads := fun s t => ∀ w, kget s.wings (f.imm.toNat % 64) = some w →
        (∀ x ∈ wingHalls w, x < 64 → (hallAt t x).filter = some (f.imm.toNat % 64) ∧ (hallAt t x).portsOpen = true ∧
          (hallAt t x).table = routingTable (wingHalls w) x) ∧ t.mem = s.mem ∧
        servedAlone s t ∧ logs s t 2 (f.imm.toNat % 64) 0 (fun _ => True) }
  | .vfBind f => some {
      needs := fun s => canLog s = true ∧ (kget s.wings (f.imm.toNat % 64)).isSome = true ∧ (vfAt s (vfNo s f)).wing = none ∧
        (s.vfs.filter (fun p => p.2.wing == some (f.imm.toNat % 64))).length < 16
      leads := fun s t => (vfAt t (vfNo s f)).wing = some (f.imm.toNat % 64) ∧ t.mem = s.mem ∧ servedAlone s t ∧ logs s t 3 (f.imm.toNat % 64) (vfNo s f) (fun _ => True) }
  | .vfBindRel f => some {
      needs := fun s => canLog s = true ∧ (vfAt s (vfNo s f)).wing = some (f.imm.toNat % 64)
      leads := fun s t => if contextsOf s (vfNo s f) = [] then (vfAt t (vfNo s f)).wing = none ∧ (vfAt t (vfNo s f)).handles = [] ∧ t.mem = s.mem ∧
          servedAlone s t ∧ logs s t 3 (f.imm.toNat % 64) (vfNo s f) (fun _ => True)
        else ∃ u, Reaches (releaseVf (vfNo s f)) s () u ∧ Reaches deliverTraps (waits u) () t }
  | .scrub f => some {
      needs := fun s => canLog s = true ∧ (areg s f.s).toNat + (areg s f.t).toNat ≤ 262144 ∧
        ∀ i < (areg s f.t).toNat, strayFrame s.pkg.frames ((areg s f.s).toNat + i) = true
      leads := fun s t => (∀ a, readByte t.mem a = if (areg s f.s).toNat * 2 ^ 21 ≤ a ∧ a < ((areg s f.s).toNat + (areg s f.t).toNat) * 2 ^ 21 then 0 else readByte s.mem a) ∧
        (∀ i < (areg s f.t).toNat, inPool t.pkg.frames ((areg s f.s).toNat + i) = true) ∧ servedAlone s t ∧ logs s t 5 0 0 (fun _ => True) }
  | _ => none

end Sys2Proof.Claims

open Sys2Proof.Claims

/-- R335, R336, R339, R403 to R405, R411: TRET ends its region's one trap: retry brings the held issue, sequence, arrival, drain write or command again; poison makes its pending
poisons final, or skips the command; discard discards the invocations as well; abort is a region fault. SYSC raises its vector once no write is on its way; HCALL
queues a call and takes its reply; AUDIT logs 32 bytes. On the service sequencer SYSC raises the vector of the function that its commands act for, which is a free value
(DESIGN CHOICE, log 18). -/
def Obligations.TrapCommandsComplete : Prop :=
  (∀ (i : Instr) (e : Effects) (s : State) (r : Region), trapEffect i = some e → RegionIssues s r e.inHandler → e.needs s r →
    ∃ t, exec i s = .next t ∧ e.leads s r t) ∧
  (∀ (f : CmdRec) (s : State), ServiceIssues s → exec (.sysc f) s = .next (if sentWrites s s.who then waits s
    else goOn (vectored (Config.serviceVf s.service.service % 1024) (f.imm.toNat % 32) s)))

/-- R335, R398, R401, R403: TRAP takes the program trap with cause imm[15:0] and operand aS, SRC 2: the handler starts. -/
def Sys2Proof.Claims.trapCommandTaken : Prop :=
  ∀ (f : CmdRec) (s : State) (r : Region), RegionIssues s r false → Handles r →
    exec (.trap f) s = .next (onRegion s.who (handling { code := f.imm.toNat % 65536, src := 2, operand := (areg s f.s).toNat % 2 ^ 32
                                                         seq := true, act := r.seq.act, cmd := r.seq.index }) s)

/-- R204, R207 to R209, R318: CTX.SAVE writes a Sealed region of the issuer's function to memory and frees it, CTX.LOAD restores a region where its image's placement is free,
CTX.SWAP does both at one placement, the second half once the first has saved. -/
def Obligations.ContextCommandsComplete : Prop :=
  ∀ (i : Instr) (e : Effects) (s : State) (r : Region), contextEffect i = some e → RegionIssues s r e.inHandler → e.needs s r →
    ∃ t, exec i s = .next t ∧ e.leads s r t

/-- R24 to R27, R199 to R201, R204, R206, R215, R220, R336 to R338: the commands of the service sequencer: calls taken and answered, FREEZE, SNAP and THAW, wings and
functions, and SCRUB; those that R220 names log one chained entry. -/
def Obligations.ServiceCommandsComplete : Prop :=
  ∀ (i : Instr) (e : ServiceEffects) (s : State), serviceEffect i = some e → ServiceIssues s → e.needs s →
    ∃ t, exec i s = .next t ∧ e.leads s t

/-- R199, R297, R398, R401, R432: a guest's command of the service sequencer takes PRIV, code 0x11: the handler starts, and TRAPPC names the command. -/
def Sys2Proof.Claims.privilegedTrapTaken : Prop :=
  ∀ (i : Instr) (e : ServiceEffects) (s : State) (r : Region), serviceEffect i = some e → RegionIssues s r false → Handles r →
    exec i s = .next (onRegion s.who (handling { code := 0x11, operand := 0, seq := true, act := r.seq.act, cmd := r.seq.index }) s)

/-- R199, R244, R297, R335, R398, R399, R401, R403, R432: a guest's command of the service sequencer, an MFS or MTS that R244 does not admit, and TRAP take their trap: the
handler starts with TRAPCAUSE and TRAPPC set. -/
def Obligations.CommandTrapsTaken : Prop := systemRegisterTraps ∧ trapCommandTaken ∧ privilegedTrapTaken

/-! ### The device's own steps and the host's: power, life cycle, heat, clocks, frames, registers and links (R28 to R31, R106, R198, R211 to R222, R435, R442 to R446,
R453, R454, R457 to R461) -/

namespace Sys2Proof.Claims

/-- What a device step needs, and what its next state is. -/
structure EventEffects where
  needs : State → Prop := fun _ => True
  leads : State → State → Prop

/-- The state with a function changed. -/
def onVf (k : Nat) (g : VFn → VFn) (s : State) : State := { s with vfs := kset s.vfs k (g (vfAt s k)) }

/-- An error record of CLASS 10, for heat, written (R436, R461). -/
def heatRecord (idx wing detail : Nat) : M Unit := errorRecord 10 0 idx 0 0 2 0 0 0 wing detail

/-- The state of the pool after the command that has waited longest took the first clean frame (R214). -/
def frallocServed (s : State) : State :=
  match s.pkg.frallocs, popClean s.pkg.frames.clean with
  | (w, _) :: rest, some (k, pool) => onPkg (fun p => { p with frallocs := rest, frames := { p.frames with owners := kset p.frames.owners k w, clean := pool } }) s
  | _, _ => s

/-- The frames after FRFREE: a frame marked bad is bad, another is queued for scrub (R214, R442). -/
def freed (f : Frames) (k : Nat) : Frames :=
  if f.marked.contains k then { f with owners := kdel f.owners k, marked := f.marked.filter (· != k), bad := addNat f.bad k }
  else { f with owners := kdel f.owners k, queue := f.queue ++ [k] }

/-- The package after a frame's scrub: the frame is clean, is scrubbed once more after its first failed verify, or is bad (R215, R442). -/
def scrubbed (k : Nat) (failed : Bool) (p : Package) : Package :=
  let rest := p.frames.scrubbing.filter (·.1 != k)
  let again := (p.frames.scrubbing.find? (·.1 == k)).any (·.2)
  if !failed then { p with frames := { p.frames with scrubbing := rest, clean := p.frames.clean ++ [(k, 1)] } }
  else if again then { p with frames := { p.frames with scrubbing := rest, bad := addNat p.frames.bad k } }
  else { p with rescrub := true, frames := { p.frames with scrubbing := rest ++ [(k, true)] } }

/-- The registrar has room for some entries, and a SEQ for each (R221, R222). -/
def roomFor (s : State) (n : Nat) : Prop :=
  let r := s.pkg.registrar
  r.regFail = false ∧ r.entries.length + n ≤ r.acked + 8192 ∧ (r.count + n ≤ 2 ^ 32 ∨ r.epoch < 4096 ∧ n ≤ 2 ^ 32)

/-- A boot ends in its own step: it stops at no stage, and the registrar has room for its entries, or has failed (R217, R222, R459; log 113). -/
def bootEnds (s : State) (l : List BootImage) : Prop :=
  failedStage l = 0 ∧ (imageOk l 6 = false ∨ 4096 ≤ s.pkg.registrar.epoch ∨ s.pkg.registrar.entries.length + 2 ≤ s.pkg.registrar.acked + 8192)

/-- The frequency that a window's end asks for: 100 MHz less when the power is over the wing's cap, 8,192 cycles were back-pressured or the clock is above its
ceiling, 100 MHz more when 8,192 were starved (R30, R198). -/
def askedFreq (h : Hall) (above : Bool) : Nat :=
  if above = true ∨ 8192000 < h.pressed ∨ h.ceiling < h.freq then max 900 (h.freq - 100) else if 8192000 < h.starved ∧ h.freq + 100 ≤ h.ceiling then h.freq + 100 else h.freq

/-- A hall at its next window: while a step of its clock is made it runs at the lower of the two frequencies (R198). -/
def atNextWindow (above : Bool) (h : Hall) : Hall :=
  let y := { h with windowStart := h.cycles, pressed := 0, starved := 0 }
  if h.step = none ∧ askedFreq h above ≠ h.freq then { y with freq := min (askedFreq h above) h.freq, step := some (askedFreq h above) } else y

/-- The steps of boot, life cycle, heat, clocks, frames, release and annex ports. -/
def deviceEffect : Instr → Input → Option EventEffects
  | .powerGood, .images l => some {
      leads := fun s t => t.pkg.bootFail = failedStage l ∧ t.pkg.measures = measured l ∧ t.pkg.retired = s.pkg.retired ∧ t.pkg.keys = [] ∧
        t.regions = [] ∧ t.wings = [] ∧ t.chans = [] ∧ t.reqs = [] ∧ t.vfs = State.reset.vfs ∧ (s.pkg.trips = [] → (∀ i < 7, imageOk l i = true) → t.mem = []) ∧
        (∀ h < 64, (hallAt t h).powered = false) ∧ (∃ es, t.pkg.registrar.entries = s.pkg.registrar.entries ++ es) ∧
        t.pkg.registrar.regFail = ((failedStage l == 0 && !imageOk l 6) || decide (4096 ≤ s.pkg.registrar.epoch)) ∧
        (s.pkg.registrar.epoch < 4096 → t.pkg.registrar.epoch = s.pkg.registrar.epoch + 1) ∧
        (failedStage l ≠ 0 → t.pkg.booted = false ∧ t.pkg.booting = false ∧ ∀ h < 64, (hallAt t h).released = false) ∧
        (bootEnds s l → t.pkg.booted = true ∧ t.pkg.booting = false ∧ (∀ h < 64, (hallAt t h).released = !(failedDies l).contains (dieOf h)) ∧
          (imageOk l 6 = true → s.pkg.registrar.epoch < 4096 → ∃ e, t.pkg.registrar.entries.getLast? = some e ∧ e.body.extractLsb' 312 8 = 0x08#8)) ∧
        (failedStage l = 0 → ¬ bootEnds s l → t.pkg.booted = true ∨ t.pkg.booting = true ∧ ∀ h < 64, (hallAt t h).released = false) }
  | .lifeCycleTransition, .flagged _ true => some {
      needs := fun s => s.pkg.life ≠ .returned ∧ s.pkg.booted = true ∧ canLog s = true
      leads := fun s t => t = onPkg (fun p => { p with begun := p.begun + 1, tripped := true }) s }
  | .lifeCycleTransition, .absent => some {
      needs := fun s => s.pkg.life ≠ .returned ∧ s.pkg.booted = true ∧ canLog s = true
      leads := fun s t => t.pkg.life = s.pkg.life.next ∧ t.pkg.begun = s.pkg.begun + 1 ∧ t.pkg.done = s.pkg.done + 1 ∧ t.mem = [] ∧ t.full = [] ∧ t.marks = [] ∧
        t.regions = [] ∧ t.chans = [] ∧ t.pkg.keys = (if s.pkg.life.next = .returned then [] else s.pkg.keys) ∧ logs s t 7 0 0 (fun _ => True) }
  | .attestationReport, .nonce n => some {
      needs := fun s => s.pkg.booted = true
      leads := fun s t => t = onPkg (fun p => { p with reports := p.reports ++ [(reportBytes s n, Config.signature (reportBytes s n))] }) s }
  | .keyLoaded, .pair wing key => some {
      needs := fun s => s.pkg.life ≠ .returned ∧ (kget s.wings wing).isSome = true ∧ canLog s = true
      leads := fun s t => kget t.pkg.keys wing = some key ∧ t.mem = s.mem ∧ logs s t 6 wing 0 (fun d => d = BitVec.ofNat 256 key) }
  | .registrarExport, .flagged _ true => some {
      needs := fun s => s.pkg.registrar.exported < s.pkg.registrar.entries.length ∧ s.pkg.registrar.regFail = false
      leads := fun s t => Reaches (errorRecord 14 0 0 0 0 2 0 0 0 0 0) (onPkg (fun p => { p with registrar := { p.registrar with regFail := true } }) s) () t }
  | .registrarExport, .absent => some {
      needs := fun s => s.pkg.registrar.exported < s.pkg.registrar.entries.length ∧ s.pkg.registrar.regFail = false ∧ s.pkg.hostUp = true ∧ Memory.wf s.mem = true
      leads := fun s t => ∀ e, s.pkg.registrar.entries[s.pkg.registrar.exported]? = some e → t.pkg.registrar = { s.pkg.registrar with exported := s.pkg.registrar.exported + 1 } ∧
        ∀ a, let base := hostAddr (s.pkg.regBase + 96 * (s.pkg.registrar.exported % 8192))
          readByte t.mem a = if base ≤ a ∧ a < base + 96 then ((entryBytes e)[a - base]?).getD 0 else readByte s.mem a }
  | .registrarConsumerAdvance, .index n => some {
      leads := fun s t =>
        let acked := min s.pkg.registrar.exported (s.pkg.registrar.acked + n)
        let u := onPkg (fun p => { p with registrar := { p.registrar with acked := acked, warned := p.registrar.warned && decide (acked + 7168 ≤ p.registrar.entries.length) } }) s
        (s.pkg.booting = false → t = u) ∧ (s.pkg.booting = true → roomFor u 2 → settles finishBoot u t ∧ t.pkg.booted = true) ∧ settles bootGoesOn u t }
  | .hallTemperatureReading, .triple hall sensor x => some {
      needs := fun s => hall < s.halls.length
      leads := fun s t => t = onHall hall (fun h => let temps := if sensor = 0 then (x, h.temps.2) else (h.temps.1, x); { h with temps := temps, ceiling := ceilingAt (max temps.1 temps.2) }) s }
  | .thermalHold, .index hall => some {
      needs := fun s => 105 ≤ hottest (hallAt s hall) ∧ (hallAt s hall).held = false
      leads := fun s t => Reaches (heatRecord hall ((hallAt s hall).wing.getD 0) (hottest (hallAt s hall))) (onHall hall (fun h => { h with held := true, heldSince := s.timeNs }) s) () t }
  | .thermalHoldEnd, .index hall => some {
      needs := fun s => (hallAt s hall).held = true ∧ hottest (hallAt s hall) < 100 ∧ rising (s.regions.map (·.1)) = true
      leads := fun s t => t.halls = (onHall hall (fun h => { h with held := false, freq := 900, step := none }) s).halls ∧
        ∀ k r, kget s.regions k = some r → kget t.regions k = some (if r.hall = hall then afterHold (s.timeNs - (hallAt s hall).heldSince) r else r) }
  | .hbmThrottle, .pair stack x => some {
      needs := fun _ => 95 ≤ x ∧ stack < 8
      leads := fun s t =>
        let u := onPkg (fun p => { p with stackTemps := p.stackTemps.set stack x }) s
        if s.pkg.throttled / 2 ^ stack % 2 = 0 then Reaches (heatRecord stack 0 x) (onPkg (fun p => { p with throttled := p.throttled + 2 ^ stack }) u) () t else t = u }
  | .hbmThrottleEnd, .pair stack x => some {
      needs := fun _ => x < 95 ∧ stack < 8
      leads := fun s t => t = onPkg (fun p => { p with
        stackTemps := p.stackTemps.set stack x, throttled := if x < 90 ∧ p.throttled / 2 ^ stack % 2 = 1 then p.throttled - 2 ^ stack else p.throttled }) s }
  | .thermtrip, .index hall => some {
      needs := fun s => 115 ≤ hottest (hallAt s hall)
      leads := fun s t => t = onPkg (fun p => { p with tripped := true, trips := p.trips ++ [hall] }) s }
  | .thermtrip, .pair stack x => some {
      needs := fun _ => 105 ≤ x ∧ stack < 8
      leads := fun s t => t = onPkg (fun p => { p with tripped := true, trips := p.trips ++ [stack] }) s }
  | .dvfsWindowEnd, .pair hall watts => some {
      needs := fun s => hallRuns (hallAt s hall) = true ∧ 65536000 ≤ (hallAt s hall).cycles - (hallAt s hall).windowStart
      leads := fun s t => t = onHall hall (atNextWindow (((hallAt s hall).wing.bind (kget s.wings)).any (fun w => decide (w.wpcap < watts)))) s }
  | .clockStepEnd, .index hall => some {
      needs := fun s => hallRuns (hallAt s hall) = true ∧ (hallAt s hall).step.isSome = true
      leads := fun s t => ∀ f, (hallAt s hall).step = some f → t = onHall hall (fun h => { h with freq := f, step := none }) s }
  | .fralloc, .index wing => some {
      needs := fun s => (kget s.wings wing).isSome = true
      leads := fun s t => t = frallocServed (onPkg (fun p => { p with frallocs := p.frallocs ++ [(wing, s.timeNs)] }) s) }
  | .fralloc, .absent => some {
      leads := fun s t => t = frallocServed s }
  | .frfree, .index k => some {
      needs := fun s => (kget s.pkg.frames.owners k).isSome = true
      leads := fun s t => t = onPkg (fun p => { p with frames := freed p.frames k }) s }
  | .frameScrubStart, .absent => some {
      leads := fun s t => match s.pkg.frames.queue with
        | [] => t = s
        | k :: rest => t = onPkg (fun p => { p with frames := { p.frames with queue := rest, scrubbing := p.frames.scrubbing ++ [(k, false)] } }) s }
  | .frameScrubDone, .flagged k failed => some {
      needs := fun s => (s.pkg.frames.scrubbing.find? (·.1 == k)).isSome = true
      leads := fun s t => t.pkg = scrubbed k failed s.pkg ∧ t.regions = s.regions ∧ ∀ a, readByte t.mem a = if k * 2 ^ 21 ≤ a ∧ a < (k + 1) * 2 ^ 21 then 0 else readByte s.mem a }
  | .contextScrubComplete, .index rid => some {
      needs := fun s => canLog s = true ∧ ∃ r, kget s.regions rid = some r ∧ r.state = .free ∧ r.releasing = true
      leads := fun s t => kget t.regions rid = none ∧ ∀ r, kget s.regions rid = some r → (vfAt t r.vf).handles = [] ∧ logs s t 4 r.wing r.vf (fun _ => True) }
  | .contextScrubComplete, .pair vf number => some {
      needs := fun s => canLog s = true ∧ ∃ x, imageNo s vf number = some x ∧ x.releasing = true
      leads := fun s t => (∀ y ∈ (vfAt t vf).saves, y.number ≠ number) ∧
        ∀ x, imageNo s vf number = some x → (vfAt t x.region.vf).handles = [] ∧ logs s t 4 x.region.wing x.region.vf (fun _ => True) }
  | .annexPortLost, .index port => some {
      needs := fun s => portUp s port = true
      leads := fun s t => settles (losePort port) s t ∧ portUp t port = false }
  | .annexRequestTimeout, .index number => some {
      needs := fun s => ∃ q a, s.reqs.find? (fun q => q.number == number && q.phase == .issued) = some q ∧ q.loc = some a ∧ rangeMt a = some 1 ∧ portUp s (portOf a) = true
      leads := fun s t => ∀ q a, s.reqs.find? (fun q => q.number == number && q.phase == .issued) = some q → q.loc = some a → settles (losePort (portOf a)) s t ∧ portUp t (portOf a) = false }
  | .annexPortRetrain, .index port => some {
      needs := fun s => (s.pkg.annex[port]?).any (fun p => p.present && p.lost) = true
      leads := fun s t => t = onPkg (fun p => { p with annex := p.annex.modify port (fun x => { x with lost := false, trained := true }) }) s }
  | .routeTableError, .index hall => some {
      needs := fun s => hall < s.halls.length
      leads := fun s t => Reaches (errorRecord 2 0 hall 0 0 2 0 0 0 ((hallAt s hall).wing.getD 0) 0) (onHall hall (fun h => { h with portsOpen := false }) s) () t }
  | _, _ => none

/-- A function's register after a host write (R212). -/
def vfRegister (offset v : Nat) (x : VFn) : VFn :=
  match offset with
  | 0x00 => { x with mbimg := v / 16 * 16 % 2 ^ 57 }
  | 0x08 => { x with mbhdr0 := BitVec.ofNat 64 v }
  | 0x10 => { x with mbhdr1 := BitVec.ofNat 64 v }
  | 0x18 => { x with mbarg := BitVec.ofNat 64 v }
  | 0x20 => { x with fres := v / 2 ^ 12 % 32, ctx := v / 2 ^ 6 % 4, shape := v / 2 ^ 3 % 8 }
  | _ => x

/-- The state after GO has set MBCTL (R212, R213). -/
def goSet (vf : Nat) (v : BitVec 64) (s : State) : State := onVf vf (vfRegister 0x20 v.toNat) s

/-- Where a root region of a function in a wing is placed: in the wing's home hall (R213). -/
def goHome (x : VFn) (vf : Nat) (w : Wing) : Home := { hall := wingHome w, vf := vf, ctx := x.ctx, wing := x.wing.getD 0 }

/-- The exponent of the size of the page that a function's tables give a 64 KiB page (R104). -/
def pageLog (s : State) (vf page : Nat) : Nat := match translate s vf (page * 65536) with | .ok st => st.log2 | .error _ => 16

/-- Bytes of guest memory that a launch reads from for a hall and function, and what they are (R249). -/
def imageRead (s : State) (o : Home) (at_ n : Nat) (bs : List Byte) : Prop :=
  accessCode (some wholeSpace) .read at_ n 1 false = none ∧ piecesAt s o.hall o.vf wholeSpace at_ (granPieces at_ n) bs

/-- A function's image is one that GO can place and start: its header and its acts can be read and are well formed, it claims no plinth and maps no buffer, its placement
is Free with nothing that gives way there, and its entry act can be loaded (R213, R249, R413, R414). -/
def launchable (s : State) (o : Home) (v : VFn) (p : Program) (h : BitVec 128) : Prop :=
  ∃ head, imageRead s o v.mbimg 64 head ∧ imageHeadOk head v.shape = true ∧ leAt head 0x32 1 = 0 ∧ leAt head 0x18 4 = 0 ∧
    p.acts.length = leAt head 6 2 ∧ (∀ (i : Nat) (x : List Byte), p.acts[i]? = some x →
      ∃ e, imageRead s o (v.mbimg + leAt head 8 8 + 16 * i) 16 e ∧ imageRead s o (v.mbimg + leAt e 0 8) (leAt e 8 8) x) ∧
    p.origin = leAt head 0x30 1 ∧ p.shape = v.shape ∧ p.plinths = 0 ∧ h = BitVec.ofNat 128 (leAt head 0x20 16) ∧
    placementFree s o.vf o.hall o.ctx p.shape p.origin = true ∧ reservationFits s o.vf o.hall o.ctx p.shape p.origin (max 1 v.fres) = true ∧ v.fres ≤ 16 ∧
    (∀ q ∈ s.regions, q.2.vf = o.vf → q.2.releasing = false) ∧ (∀ q ∈ s.regions, q.2.hall = o.hall → q.2.ctx = o.ctx → ∀ c ∈ cellsOf p.shape p.origin, c ∉ q.2.cells) ∧
    hdrOk h = true ∧ hdrCtx h = o.ctx ∧ actOk p (hdrEntry h) = true ∧ loadable s (rootRegion s o v p h) (hdrEntry h)

/-- A function's launched program: its root region loads its entry act, ST is 1, and its wing serves it where it served none (R202, R213). -/
def launched (s u : State) (o : Home) (v : VFn) (p : Program) (h : BitVec 128) : State :=
  let x : State := onVf o.vf (fun y => { y with st := 1 }) { u with regions := kset u.regions (ridOf o.hall o.ctx p.origin) (loadBegun (hdrEntry h) (rootRegion s o v p h)) }
  match kget x.wings o.wing with
  | some w => { x with wings := kset x.wings o.wing (if w.inService.isSome then w else { w with inService := some o.vf, sliceStart := s.timeNs, sliceCycles := (hallAt s o.hall).cycles }) }
  | none => x

/-- The steps of the host. -/
def hostEffect : Instr → Input → Option EventEffects
  | .registerWrite, .register (some vf) offset v => some {
      needs := fun s => presents s vf = true
      leads := fun s t => t = if offset ∈ [0x00, 0x08, 0x10, 0x18] ∨ (offset = 0x20 ∧ v.toNat % 2 = 0) then onVf vf (vfRegister offset v.toNat) s else s }
  | .registerWrite, .register none offset v => some {
      leads := fun s t => t = match offset with
        | 0x108 => onPkg (fun p => { p with errors := { p.errors with base := v.toNat / 64 * 64 } }) s
        | 0x128 => onPkg (fun p => { p with ptmo := v.toNat % 2 ^ 16 }) s
        | _ => s }
  | .registerWrite, .quad k a b c => some {
      needs := fun _ => k < 5 ∨ (a < 8 ∧ b + c ≤ 0x8000000000)
      leads := fun s t => match k with
        | 0 => t = if a < 1024 then onPkg (fun p => { p with number := a }) s else s
        | 1 => t = if a < 1024 then onPkg (fun p => { p with routes := if b < 16 then kset p.routes a b else kdel p.routes a }) s else s
        | 2 => t = onPkg (fun p => { p with regBase := a }) s
        | 3 => t = onVf a (fun v => { v with hostRoot := b / 4096 * 4096 }) s
        | 4 => t = onVf a (fun v => { v with guestRoot := b / 4096 * 4096 }) s
        | _ => t.pkg.hdm = (if c = 0 then kdel s.pkg.hdm a else kset s.pkg.hdm a (b, c)) ∧ t.mem = s.mem ∧
          ∀ (h : Nat) (x : Hall), s.halls[h]? = some x → t.halls[h]? = some { x with cache := x.cache.filter (fun l => !(decide (b ≤ 64 * l.1) && decide (64 * l.1 < b + c))) } }
  | .rescrubClear, .register none 0x100 v => some {
      leads := fun s t => t = if v.toNat % 2 = 1 then onPkg (fun p => { p with rescrub := false }) s else s }
  | .errptrConsumerWrite, .register none 0x110 v => some {
      leads := fun s t => t = onPkg (fun p => { p with errors := { p.errors with consumer := v.toNat % 2 ^ 32 % 1024 } }) s }
  | .tinv, .register (some vf) 0x28 v => some {
      needs := fun s => presents s vf = true
      leads := fun s t =>
        let page := v.toNat / 2 ^ 16 % 2 ^ 41
        ∃ u, (match (vfAt s vf).tinv with | none => u = s | some (p, z) => Reaches (dropTranslations vf (covers p z)) s () u) ∧
          t = { onVf vf (fun x => { x with tinv := some (page, v.toNat % 4) }) u with
                walks := u.walks.map (fun w => if w.vf = vf ∧ covers page (v.toNat % 4) (pageLog s vf w.page) w.page then { w with stale := true } else w) } }
  | .translationInvalidationDone, .index vf => some {
      needs := fun s => (vfAt s vf).tinv.isSome = true
      leads := fun s t => (vfAt t vf).tinv = none ∧ ∀ page size, (vfAt s vf).tinv = some (page, size) →
        (∀ w ∈ t.walks, w.vf = vf → covers page size (pageLog s vf w.page) w.page = true → w.stale = true) ∧
        ∀ (h : Nat) (x : Hall), t.halls[h]? = some x → ∀ e ∈ x.tlb, tlbVf e.1 = vf → covers page size (tlbSize e.1) (tlbPage e.1) = false }
  | .go, .register (some vf) 0x20 v => some {
      needs := fun s => presents s vf = true ∧ v.toNat % 2 = 1 ∧ (vfAt s vf).st ≠ 1 ∧ (vfAt s vf).st ≠ 2 ∧ ((vfAt s vf).wing = none ∨ ∃ k w p h, (vfAt s vf).wing = some k ∧
        kget s.wings k = some w ∧ launchable (goSet vf v s) (goHome (vfAt (goSet vf v s) vf) vf w) (vfAt (goSet vf v s) vf) p h)
      leads := fun s t =>
        let x := vfAt (goSet vf v s) vf
        match (vfAt s vf).wing with
        | none => Reaches (recordFor vf 5 0 0 0 { code := 0x13, operand := 14, seq := true } 14) (onVf vf (fun x => { x with st := 4 }) (goSet vf v s)) () t
        | some k => ∀ w p h, kget s.wings k = some w → launchable (goSet vf v s) (goHome x vf w) x p h →
          ∃ u, ReadOnly (goSet vf v s) u ∧ t = launched (goSet vf v s) u (goHome x vf w) x p h }
  | .hostLinkError, .absent => some {
      needs := fun s => s.pkg.hostUp = true
      leads := fun s t => ∃ u v, Reaches (each (s.reqs.filter hostRequest) (fun q => failReq q 0x45)) (onPkg (fun p => { p with hostUp := false }) s) () u ∧
        Reaches (errorRecord 8 0 0 0 0 2 0 0 0 0 0) u () v ∧ Reaches deliverTraps v () t ∧ t.pkg.hostUp = false }
  | .hostCompletionTimeout, .index number => some {
      needs := fun s => (s.reqs.find? (fun q => q.number == number && hostRequest q)).isSome = true
      leads := fun s t => ∀ q, s.reqs.find? (fun q => q.number == number && hostRequest q) = some q → ∃ u v, Reaches (failReq q 0x45) s () u ∧
        Reaches (errorRecord 8 0 0 0 0 2 0 (q.loc.getD 0) 0 0 0) u () v ∧ Reaches deliverTraps v () t }
  | .hostLinkUp, .absent => some {
      needs := fun s => s.pkg.hostUp = false
      leads := fun s t => Reaches (each s.pkg.errors.waiting pushError)
        (onPkg (fun p => { p with hostUp := true, msi := p.msi ++ p.msiWaiting, msiWaiting := [], errors := { p.errors with waiting := [] } }) s) () t }
  | .functionLevelReset, .index vf => some {
      needs := fun s => presents s vf = true
      leads := fun s t => ∃ u, Reaches (releaseVf vf) s () u ∧ Reaches deliverTraps (onVf vf (fun v => { v with st := 0, ctx := 0, shape := 0, fres := 0, faultSeq := 0 }) u) () t }
  | .pfReset, .absent => some {
      needs := fun s => roomFor s (s.regions.length + (s.vfs.flatMap (·.2.saves)).length + s.wings.length)
      leads := fun s t => settles (each s.wings (fun p => releaseWing p.1 p.2)) s t ∧ t.wings = [] ∧ t.pkg.registrar.entries.length ≥ s.pkg.registrar.entries.length + s.wings.length }
  | .hostCxlMemAccess, .cxl addr (some bs) => some {
      needs := fun s => s.pkg.hostUp = true ∧ s.pkg.hdm.any (fun p => decide (p.2.1 ≤ addr) && decide (addr + bs.length ≤ p.2.1 + p.2.2)) = true ∧
        (∀ x ∈ linesOf addr bs.length, pinnedByOther s x none = false) ∧ Memory.wf s.mem = true
      leads := fun s t => t.halls = s.halls ∧ t.regions = s.regions ∧
        ∀ a, readByte t.mem a = if addr ≤ a ∧ a < addr + bs.length then (bs[a - addr]?).getD 0 else readByte s.mem a }
  | _, _ => none

end Sys2Proof.Claims

open Sys2Proof.Claims

/-- R30, R198, R214 to R222, R442 to R446, R454, R459 to R461: the device's steps of boot, life cycle, attestation, the registrar, heat, clocks, frames, release and annex
ports: each has its effect wherever its condition holds. -/
def Obligations.DeviceEventsComplete : Prop :=
  ∀ (i : Instr) (e : EventEffects) (s : State), deviceEffect i s.input = some e → trapWaiting s = none → e.needs s → ∃ t, exec i s = .next t ∧ e.leads s t

/-- R106, R211 to R213, R413, R435, R453: the host's steps: register writes, invalidations, GO, the host link, resets and CXL.mem accesses. -/
def Obligations.HostEventsComplete : Prop :=
  ∀ (i : Instr) (e : EventEffects) (s : State), hostEffect i s.input = some e → trapWaiting s = none → e.needs s → ∃ t, exec i s = .next t ∧ e.leads s t

/-! ### Steps of regions, cells and the fabric (R25, R38 to R71, R197, R202 to R209, R404, R417 to R421, R424, R454, R455) -/

namespace Sys2Proof.Claims

/-- The region of a number. -/
def regionIs (s : State) (rid : Nat) (r : Region) : Prop := kget s.regions rid = some r

/-- A channel after its head has left: a full buffer gains a place (R52). -/
def headTaken (key : Nat) (s : State) : State :=
  match kget s.chans key with
  | some c => { s with chans := kset s.chans key { c with queue := c.queue.tail, freed := if c.depth ≤ c.used then c.freed + 1 else c.freed } }
  | none => s

/-- The token at the head of a channel to a cell whose region runs. -/
def arriving (s : State) (key : Nat) (c : Chan) (x : Token) (rid : Nat) (r : Region) : Prop :=
  kget s.chans key = some c ∧ c.queue.head? = some x ∧ coverRid s c.hall c.ctx (placeCell c.place) = some rid ∧ regionIs s rid r ∧ cellRuns s r (placeCell c.place) = true

/-- The state after a cell has chosen an issue of a context (R56, R57, R197). -/
def issued (hall cell c rid : Nat) (l : List (Nat × Nat × Region)) (i : Issue) (r : Region) (s : State) : State :=
  let credits := refill (hallAt s hall).credits cell l
  let u := onHall hall (fun h => { h with credits := kset credits (4 * cell + c) (kgetD credits (4 * cell + c) 1 - 1), served := kset h.served cell c }) s
  let v := stirred rid { u with regions := kset s.regions rid { r with sys := countIssue i.lanes.length r.sys } }
  { v with issue := some i, agenda := match s.turn with | .issue _ _ => s.agenda | _ => .fire :: s.agenda }

/-- An identifier has started in a region: its tag, bound to it, left the free list, and its invocation is open (R54, R55, R60). -/
def started (t : State) (rid id tag : Nat) (old new : Region) : Prop :=
  regionIs t rid new ∧ new.run.started = old.run.started ++ [id] ∧ kget new.active.binds tag = some id ∧ freeTags new 0 = (freeTags old 0).tail ∧ (openInv t new rid id).isSome = true

/-- A thread or an iteration can start: a tag is free, no INIT is still to fire, and its index tokens and its invocation have places. -/
def canStart (s : State) (rid id tag : Nat) (r : Region) : Prop :=
  r.hall < s.halls.length ∧
  sourceRuns s r = true ∧ (freeTags r 0).head? = some tag ∧ initsDone r = true ∧ indexRoom s rid r tag = true ∧ canOpen s r rid id = true

/-- The region after a load has ended: the bank is active when a transfer waits for it, else idle (R39, R40). -/
def loadEnded (act : Nat) (b : Bank) (r : Region) : Region :=
  let y := { r with loading := none, state := if r.state = RegionState.loading then RegionState.idle else r.state }
  if r.seq.act = act ∧ r.active.act ≠ some act ∧ y.state ≠ .running then { y with active := b, idle := r.active } else { y with idle := b }

/-- What is left to save of a snapshot once a cell has saved. -/
def stillToSave (r : Region) (cell : Nat) : Option (List Nat) := r.snapshot.map (fun x => x.pending.filter (· != cell))

/-- A cell of a region that is being saved may save: its requests are still and every marker has come (R204). -/
def savesNow (s : State) (rid : Nat) (r : Region) (cell : Nat) : Prop :=
  regionIs s rid r ∧ r.state = .snapshotting ∧ hallRuns (hallAt s r.hall) = true ∧ s.issue.all (fun i => i.rid != rid || i.cell != cell) = true ∧
    requestsStill s rid cell = true ∧ ∃ x, r.snapshot = some x ∧ x.pending.contains cell = true ∧ markersIn s rid r x.pending cell = true

/-- No region of a function in a wing, resident or parked, holds slots of a vitrine, so none is to be loaded again as they come back (R207). -/
def bareIn (s : State) (wing vf : Nat) : Prop :=
  (∀ p ∈ s.regions, p.2.wing = wing → p.2.vf = vf → ∀ h ∈ s.halls, ∀ y ∈ h.plinths, ∀ q ∈ y.slotHolder, q.2 ≠ p.1) ∧
  ∀ x ∈ parkedIn s wing vf, (∀ y ∈ x.plinths, y.slotHolder = []) ∧ ∀ h ∈ s.halls, ∀ y ∈ h.plinths, ∀ q ∈ y.slotHolder, q.2 ≠ x.rid

/-- An event happens, or waits with no effect where a slot of a vitrine that it would load again may not be ready (R207). -/
def unlessHeld (bare : Prop) (s t : State) (P : Prop) : Prop := P ∨ ¬ bare ∧ t = s

/-- A region stops with its image; the incoming function's regions are then brought in (R202, R207). -/
def stopsInto (rid tier : Nat) (r : Region) (st : RegionState) (after : M Unit) (s t : State) : Prop :=
  unlessHeld (∀ w v, kget s.wings r.wing = some w → w.inService = some v → bareIn s r.wing v) s t
    (∃ x u v, r.snapshot = some x ∧ Reaches (stopRegion rid tier x.slot st) s () u ∧
      Reaches after (onRegion rid (fun r => { r with autoSaved := x.slot.isNone }) u) () v ∧ settles (bringIn r.wing) v t)

/-- The next router of a packet's way: packet `i` of a channel is in a hall whose routing table leads to the hall `next` by a port, no earlier packet of its circuit is
there, and neither hall is in thermal hold (R9, R24, R461). -/
def hops (s : State) (key i : Nat) (c : Chan) (p : Packet) (port : MeshPort) (next : Nat) : Prop :=
  kget s.chans key = some c ∧ c.flight[i]? = some p ∧ kget (hallAt s p.hall).table c.hall = some port ∧ neighbour port p.hall = some next ∧
    (hallAt s p.hall).portsOpen = true ∧ (hallAt s p.hall).held = false ∧ (hallAt s next).held = false ∧ ∀ q ∈ c.flight.take i, q.hall ≠ p.hall

/-- A packet has arrived at the next router of its way: it is accepted where that hall's filter is its wing's, and enters the buffer in its destination's hall; another
router discards it, and reports it where its ports are open and it has a wing (R24 to R26, R454). -/
def hopped (s : State) (key i : Nat) (c : Chan) (p : Packet) (port : MeshPort) (next : Nat) (t : State) : Prop :=
  let lost : State := { s with chans := kset s.chans key { c with flight := c.flight.eraseIdx i, lost := c.lost + 1 } }
  if (hallAt s next).portsOpen = true ∧ (hallAt s next).filter = some c.wing then
    t = { s with chans := kset s.chans key (if next = c.hall then { c with flight := c.flight.eraseIdx i, queue := c.queue ++ [p.token] }
      else { c with flight := c.flight.set i { p with hall := next, circuit := circuitOn s key p.hall port } }) }
  else if (hallAt s next).portsOpen = true ∧ (hallAt s next).filter.isSome = true then Reaches (errorRecord 9 0 next 0 0 2 0 0 0 c.wing 0) lost () t
  else t = lost

/-- The steps of cells and of the fabric. -/
def cellEffect : Instr → Input → Option EventEffects
  | .cellIssue, .pair hall cell => some {
      needs := fun s => s.issue = none
      leads := fun s t => ∃ u, Reaches (each ([0, 1, 2, 3] : List Nat) (fun c => match coverRid s hall c cell with | some rid => settleEntries rid cell 64 | none => pure ())) s () u ∧
        let l := readyContexts u hall cell
        match l.find? (fun p => kgetD (refill (hallAt u hall).credits cell l) (4 * cell + p.1) 0 ≠ 0) with
        | none => Reaches deliverTraps u () t
        | some (c, rid, r) => ∃ i r', nextIssue u rid r cell = some (i, r') ∧ Reaches deliverTraps (issued hall cell c rid l i r' u) () t }
  | .tokenArrival, .index key => some {
      needs := fun s => ∃ c x rid r, arriving s key c x rid r ∧ (∀ k, c.place ≠ .stream k) ∧
        (∀ cell q, c.place = .queue cell q → (if q = 0 then (kgetD r.queues cell {}).q0 else (kgetD r.queues cell {}).q1).length < 16)
      leads := fun s t => ∀ c x rid r, arriving s key c x rid r → match c.place with
        | .stream _ => True
        | .queue cell q =>
          let now := kgetD r.queues cell {}
          t = stirred rid (headTaken key (onRegion rid (fun r => { r with queues := kset r.queues cell (if q = 0 then { now with q0 := now.q0 ++ [x] } else { now with q1 := now.q1 ++ [x] }) }) s))
        | .port cell node port => ∃ ok u, Reaches (arriveToken rid cell node port x false false) s ok u ∧ Reaches deliverTraps (if ok then headTaken key u else u) () t }
  | .overflowReinject, .triple hall cell ctx => some {
      needs := fun s => ∃ rid r o, coverRid s hall ctx cell = some rid ∧ regionIs s rid r ∧ lowestQueued (overflowOf s r cell) = some o ∧ cellRuns s r cell = true
      leads := fun s t => ∀ rid r o, coverRid s hall ctx cell = some rid → regionIs s rid r → lowestQueued (overflowOf s r cell) = some o →
        ∃ ok u, Reaches (arriveToken rid cell (keyNode o.key) (keyPort o.key) o.token false true) s ok u ∧
          Reaches deliverTraps (if ok then onHall hall (fun h => { h with overflow := h.overflow.erase o }) u else u) () t }
  | .meshPacketArrival, .index key => some {
      needs := fun s => ∃ c p port next, hops s key 0 c p port next
      leads := fun s t => ∀ c p port next, hops s key 0 c p port next → hopped s key 0 c p port next t }
  | .meshPacketArrival, .pair key i => some {
      needs := fun s => ∃ c p port next, hops s key i c p port next
      leads := fun s t => ∀ c p port next, hops s key i c p port next → hopped s key i c p port next t }
  | .handoverAck, .index key => some {
      needs := fun s => ∃ c, kget s.chans key = some c ∧ c.flight.length + c.lost < c.unacked
      leads := fun s t => ∀ c, kget s.chans key = some c → t = { s with chans := kset s.chans key { c with unacked := c.unacked - 1 } } }
  | .bufferPlaceFree, .index key => some {
      needs := fun s => ∃ c, kget s.chans key = some c ∧ c.freed ≠ 0
      leads := fun s t => ∀ c, kget s.chans key = some c →
        let u : State := { s with chans := kset s.chans key { c with freed := 0 } }
        match kget s.regions c.src with
        | some r => settles (each ([0, 1, 2] : List Nat) (settlePlinth r.hall)) u t
        | none => t = u }
  | .counterStep, .index rid => some {
      needs := fun s => ∃ r tag, regionIs s rid r ∧ hdrThread r.header = false ∧ r.run.counting = true ∧ r.run.left ≠ 0 ∧ canStart s rid r.run.next tag r
      leads := fun s t => ∀ r tag, regionIs s rid r → (freeTags r 0).head? = some tag → ∃ y, started t rid r.run.next tag r y ∧ y.run.left = r.run.left - 1 ∧
        y.run.next = idAt r.header (idOrdinal r.header r.run.next + 1) ∧ y.run.drawn = r.run.drawn ++ [tag] ∧ y.control = r.control ++ (if r.run.left = 1 then [chainWord 2 r] else []) ∧ t.mem = s.mem }
  | .threadAdmit, .index rid => some {
      needs := fun s => ∃ r tag id rest, regionIs s rid r ∧ hdrThread r.header = true ∧ r.run.admitted < 4096 ∧ kgetD r.threads r.seq.act [] = id :: rest ∧ canStart s rid id tag r
      leads := fun s t => ∀ r tag id rest, regionIs s rid r → (freeTags r 0).head? = some tag → kgetD r.threads r.seq.act [] = id :: rest →
        ∃ y, started t rid id tag r y ∧ y.run.admitted = r.run.admitted + 1 ∧ kgetD y.threads r.seq.act [] = rest ∧ t.mem = s.mem }
  | _, _ => none

/-- The steps of a region as a whole, and of slices. -/
def runEffect : Instr → Input → Option EventEffects
  | .configLoadEnd, .index rid => some {
      needs := fun s => ∃ r act l, regionIs s rid r ∧ r.loading = some act ∧ loadRuns s r = true ∧ (r.program.acts[act]?).bind actSections = some l
      leads := fun s t => ∀ r act l, regionIs s rid r → r.loading = some act → (r.program.acts[act]?).bind actSections = some l →
        let u := onRegion rid (loadEnded act (bankOf r act l)) s
        t = if r.root && (vfAt s r.vf).st == 1 then onVf r.vf (fun v => { v with st := 2 }) u else u }
  | .invocationCommit, .pair hall inv => some {
      needs := fun s => ∃ i, kget (hallAt s hall).invs inv = some i ∧ i.live = 0 ∧ hallRuns (hallAt s hall) = true ∧ (kget s.regions i.rid).all (fun r => r.saved.isNone) = true ∧
        (i.discarded = none → commitBlocked s hall inv = false) ∧ hall < s.halls.length
      leads := fun s t => ∀ i, kget (hallAt s hall).invs inv = some i →
        (if i.discarded.isSome then settles (discardInv hall inv true) s t else settles (commitInv hall inv) s t) ∧
        kget (hallAt t hall).invs inv = none ∧ ∀ x ∈ (hallAt t hall).hold, x.inv ≠ inv }
  | .runComplete, .index rid => some {
      needs := fun s => ∃ r, regionIs s rid r ∧ sourceRuns s r = true ∧ exhausted r = true ∧ quiescent s rid r = true ∧
        (∀ p ∈ (hallAt s r.hall).invs, p.2.rid = rid → commitBlocked s r.hall p.1 = false) ∧ ∀ x ∈ s.pkg.tests, x.unit = 3 → x.hall ≠ r.hall
      leads := fun s t => ∀ r, regionIs s rid r → ∃ u y, Reaches (completeRun rid r) s () u ∧ Reaches deliverTraps u () t ∧ regionIs u rid y ∧ y.run.started = [] ∧ y.run.drawn = [] ∧
        (sentWrites u rid = true ∨ y.state = .idle ∧ y.frames = [] ∧ y.seq.index = 64 ∧ y.seq.waiting = false ∧
          (hdrThread r.header = true → u.agenda.head? = some (.event .blockSchedulerDecision (.index rid)))) }
  | .blockSchedulerDecision, .index rid => some {
      needs := fun s => ∃ r, regionIs s rid r ∧ r.deciding = true ∧ r.saved = none
      leads := fun s t => ∀ r, regionIs s rid r → match chooseAct r none with
        | none => t = onRegion rid (fun r => { r with deciding := false, preload := none }) s
        | some a => settles (preloadAct rid a) (onRegion rid (fun r => { r with deciding := false, preload := some a, ages := agesAfter r a }) s) t }
  | .quiescenceScan, .index rid => some {
      needs := fun s => ∃ r, regionIs s rid r ∧ r.saved = none ∧ r.state ≠ .free ∧ hallRuns (hallAt s r.hall) = true
      leads := fun s t => ∀ r, regionIs s rid r → t = onRegion rid (fun r => { r with detector := scan s rid r }) s }
  | .silenceExpiry, .index rid => some {
      needs := fun s => ∃ r, regionIs s rid r ∧ sourceRuns s r = true ∧ externalWait s rid = false ∧ silLim r ≠ 0 ∧ r.silence + silLim r ≤ s.timeNs
      leads := fun s t => ∀ r, regionIs s rid r → ∃ u, Reaches (hangRecord 2 rid 0x31 r) s () u ∧ settles (regionFault rid { code := 0x31 } 0) u t }
  | .memoryWaitExpiry, .index rid => some {
      needs := fun s => ∃ r, regionIs s rid r ∧ sourceRuns s r = true ∧ externalWait s rid = true ∧ memLim r ≠ 0 ∧ r.silence + memLim r ≤ s.timeNs
      leads := fun s t => ∀ r, regionIs s rid r → ∃ u, Reaches (hangRecord 3 rid 0 r) s () u ∧ t = stirred rid u }
  | .sequencerWaitExpiry, .index rid => some {
      needs := fun s => ∃ r, regionIs s rid r ∧ r.saved = none ∧ r.seq.waiting = true ∧ watched r = true ∧ hallRuns (hallAt s r.hall) = true ∧ memLim r ≠ 0 ∧ r.seq.waitStart + memLim r ≤ s.timeNs
      leads := fun s t => ∀ r, regionIs s rid r → ∃ u, Reaches (faultRecord r.vf 8 rid { code := 0, seq := true, act := r.seq.act, cmd := r.seq.index } 0) s () u ∧
        t = onRegion rid (fun r => { r with seq := { r.seq with waitStart := s.timeNs } }) u }
  | .sequencerWaitExpiry, .absent => some {
      needs := fun s => ∃ w since rest, s.pkg.frallocs = (w, since) :: rest ∧ since + 1000000 ≤ s.timeNs
      leads := fun s t => ∀ w since rest, s.pkg.frallocs = (w, since) :: rest → ∃ u, Reaches (faultRecord (Config.serviceVf s.service.service % 1024) 8 serviceRid { code := 0 } 0) s () u ∧
        t = onPkg (fun p => { p with frallocs := (w, s.timeNs) :: rest }) u }
  | .sliceEnd, .index wing => some {
      needs := fun s => ∃ w, kget s.wings wing = some w ∧ hallRuns (hallAt s (wingHome w)) = true ∧ max 65536 w.sliceLen ≤ sliceCount s w
      leads := fun s t => ∀ w, kget s.wings wing = some w → unlessHeld (∀ v, nextServed s wing w = some v → bareIn s wing v) s t (settles (changeSlice wing) s t ∧
        (kget t.wings wing).map (fun y => (y.inService, y.sliceStart, y.sliceCycles)) = some (nextServed s wing w, s.timeNs, (hallAt s (wingHome w)).cycles)) }
  | .sliceWallCap, .index wing => some {
      needs := fun s => ∃ w, kget s.wings wing = some w ∧ 40 * max 65536 w.sliceLen ≤ 27 * (s.timeNs - w.sliceStart)
      leads := fun s t => ∀ w, kget s.wings wing = some w → unlessHeld (∀ v, nextServed s wing w = some v → bareIn s wing v) s t
        (settles (changeSlice wing) { s with wings := kset s.wings wing { w with forf := min (2 ^ 32 - 1) (w.forf + (max 65536 w.sliceLen - sliceCount s w)) } } t) }
  | .markerArrival, .pair rid cell => some {
      needs := fun s => ∃ r, savesNow s rid r cell
      leads := fun s t => ∀ r, regionIs s rid r → if stillToSave r cell = some [] then stopsInto rid 1 r .sealed (pure ()) s t
        else t = onRegion rid (fun r => { r with snapshot := r.snapshot.map (fun x => { x with pending := x.pending.filter (· != cell) }) }) s }
  | .snapshotTimeout, .index rid => some {
      needs := fun s => ∃ r x, regionIs s rid r ∧ r.snapshot = some x ∧ r.state = .snapshotting ∧ hallRuns (hallAt s r.hall) = true ∧ x.start + 1000 * max 1 s.pkg.ptmo ≤ s.timeNs
      leads := fun s t => ∀ r, regionIs s rid r → stopsInto rid 2 r .frozen (errorRecord 12 0 r.hall 0 0 2 0 0 r.vf r.wing 0) s t }
  | .swapWaitExpiry, .index rid => some {
      needs := fun s => ∃ r x, regionIs s rid r ∧ r.snapshot = some x ∧ r.state ≠ .snapshotting ∧ (r.seq.swap = none ∨ x.start + 20000 ≤ s.timeNs)
      leads := fun s t => t = onRegion rid (fun r => { r with prior := r.state, state := .snapshotting, snapshot := r.snapshot.map (fun x => { x with start := s.timeNs }) }) s }
  | _, _ => none

end Sys2Proof.Claims

open Sys2Proof.Claims

/-- R25, R39 to R60, R67 to R71, R197, R202 to R209, R388, R404, R409, R417 to R424, R454, R455, R457: the steps of cells and of the fabric (issue, arrival, the overflow
queue, the mesh, hand-over, freed places, iterations and threads) and of regions and slices (loads, commits, the end of a run, the monitors of waits, snapshots). -/
def Obligations.RegionEventsComplete : Prop :=
  ∀ (i : Instr) (e : EventEffects) (s : State), (cellEffect i s.input = some e ∨ runEffect i s.input = some e) → trapWaiting s = none → e.needs s → ∃ t, exec i s = .next t ∧ e.leads s t

/-! ### Steps of the memory system, galleries, conservators, the delta engine, engines, rings and links (R71, R102 to R124, R130, R134, R178 to R196, R224, R290, R293, R301,
R389, R390, R434 to R440, R447 to R452) -/

namespace Sys2Proof.Claims

/-- The caches of the halls after a snoop of a line, and the requests that fetch it: what they bring is not cached (R122, R123). -/
def snoopedTo (g : CacheLine → Option CacheLine) (a : Nat) (s t : State) : Prop :=
  t.reqs = s.reqs.map (fun q => if (nextPieces s q).any (fun p => (linesOf p.1 p.2.2).contains (lineOf a)) then { q with snooped := true } else q) ∧
  ∀ (h : Nat) (x : Hall), s.halls[h]? = some x → ∃ y, t.halls[h]? = some y ∧ (∀ k, k ≠ cacheKey a → kget y.cache k = kget x.cache k) ∧
    kget y.cache (cacheKey a) = (kget x.cache (cacheKey a)).bind g

/-- A stream of a region whose next element's access has performed; one that STRM.END stops has its finish bit sent (R113, R240). -/
def elementPassed (k : Nat) (push : Bool) (r : Region) : Region :=
  match kget r.streams k with
  | some x =>
    let y := { r with streams := kset r.streams k { x with next := x.next + 1, pushed := if push then x.pushed + 1 else x.pushed, held := none, done := [], walk := none } }
    if x.ending then takeControl y (streamWord 2 y x.desc) else y
  | none => r

/-- A write stream that has taken a token from its circuit (R382). -/
def elementTaken (k : Nat) (y : Token) (r : Region) : Region :=
  match kget r.streams k with
  | some x => { r with streams := kset r.streams k { x with held := some y } }
  | none => r

/-- A stream that goes on in a region that runs. -/
def streamIn (s : State) (rid k : Nat) (r : Region) (x : Stream) : Prop :=
  regionIs s rid r ∧ kget r.streams k = some x ∧ sourceRuns s r = true ∧ x.running = true ∧ x.barred = false ∧ x.next < streamTotal x.desc ∧ x.gallery = none

/-- The scratch bytes of a stream's next element of a scalar format, which may be taken (R110, R112, R134, R438, R439). -/
def scalarAt (s : State) (r : Region) (x : Stream) (right : Right) (a : Nat) : Prop :=
  x.desc.fmt ≠ .tile ∧ x.desc.fe = 0 ∧ x.done = [] ∧ 0 ≤ elementOffset x.desc x.next ∧
    ∃ h va, checkAccess (handleAt s r.vf r.ctx x.desc.handle).visible right (elementOffset x.desc x.next).toNat (tyBytes x.desc.fmt) (tyBytes x.desc.fmt) = .ok (some h, va) ∧ a = scratchAddr h va ∧
      isScratch a = true ∧ (∀ l ∈ linesOf a (tyBytes x.desc.fmt), pinnedByOther s l none = false) ∧ rowBusy s r.hall a = false

/-- The state in which a walk has ended and its page is in the cache of every hall that asked (R105, R106). -/
def walkOver (w : Walk) (s : State) : State :=
  let rest := s.walks.filter (fun x => x.number != w.number)
  let next := (rest.find? (fun x => !x.started && dieOf x.hall == dieOf w.hall)).map (·.number)
  let u : State := { s with walks := rest.map (fun x => if some x.number = next then { x with started := true } else x) }
  match translate s w.vf (w.page * 65536) with
  | .ok st => if w.stale then u else w.joined.foldl (fun s h => onHall h (fun x => tlbFill s.tick x w.vf (w.page * 65536) st) s) u
  | .error _ => u

/-- A self-test that an error starts at the place of a structure (R436, R439). -/
def tested (g : Guarded) (corrected : Bool) (vf : Option Nat) (s : State) : State :=
  let x : SelfTest := {
    cls := errClass g.place corrected, unit := g.place.unit, hall := g.place.hall, index := g.place.index, way := g.place.way, row := g.place.row
    addr := g.addr, vf := vf }
  onPkg (fun p => { p with tests := p.tests ++ [x] }) s

/-- The steps of the memory system. -/
def memoryEvent : Instr → Input → Option EventEffects
  | .memoryAccessComplete, .reply number e => some {
      needs := fun s => ∃ q, s.reqs.find? (fun q => q.number == number) = some q ∧ mayServe s q = true ∧ q.phase ≠ .granule
      leads := fun s t => ∀ q, s.reqs.find? (fun q => q.number == number) = some q → settles (answerReq q e) s t }
  | .memoryAccessComplete, .quad kind a b c => some {
      needs := fun s => (guardedAt s (kind % 16) a b c).isSome = true
      leads := fun s t => ∀ g, guardedAt s (kind % 16) a b c = some g →
        if 16 ≤ kind then t = tested g true none s
        else if kind = 8 then settles (readError g b) s t
        else unlessHeld (kind ≠ 1 ∨ ∀ v, kget (plinthAt s a b).slots c = some v → v.ref = none) s t (settles (structureError kind a b c) (tested g false g.vf s) t) }
  | .selfTestEnd, .flagged k failed => some {
      needs := fun s => (s.pkg.tests[k]?).isSome = true
      leads := fun s t => ∀ x, s.pkg.tests[k]? = some x →
        let passes := recentErrors s x
        let lasting := failed || decide (3 ≤ passes.length)
        t.pkg.tests = s.pkg.tests.filter (fun y => y.place != x.place) ∧ kgetD t.pkg.errCounts x.place [] = if lasting then [] else passes ++ [s.timeNs] }
  | .translationWalkComplete, .index number => some {
      needs := fun s => (s.walks.find? (fun w => w.number == number && w.started)).isSome = true
      leads := fun s t => ∀ w, s.walks.find? (fun w => w.number == number && w.started) = some w →
        settles (each (s.reqs.filter (fun q => q.phase == .walking && q.walk == number)) (walked w.vf (w.page * 65536) (translate s w.vf (w.page * 65536)))) (walkOver w s) t }
  | .wayChangeWalkEnd, .triple hall tile way => some {
      needs := fun s => hallRuns (hallAt s hall) = true ∧ ((hallAt s hall).walking.find? (fun w => w.tile == tile && w.way == way)).isSome = true
      leads := fun s t => ∀ w, (hallAt s hall).walking.find? (fun w => w.tile == tile && w.way == way) = some w →
        ∃ u v, (if wayUse (hallAt s hall) tile way = 0 then Reaches (flushWay hall tile way) s () u else u = s) ∧
          Reaches (changeWays hall (setWay { leaveWay tile way (hallAt u hall) with
            reserved := match w.range with | some k => kset (leaveWay tile way (hallAt u hall)).reserved (16 * tile + way) k | none => (leaveWay tile way (hallAt u hall)).reserved } tile way w.use) id) u () v ∧
          settles (balanceHall hall) v t }
  | .bisnpinv, .index a => some {
      needs := fun s => snooped s a = true
      leads := fun s t => snoopedTo (fun _ => none) a s t ∧ t.mem = s.mem }
  | .bisnpinv, .cxl a (some bs) => some {
      needs := fun s => snooped s a = true ∧ bs.length = 64 ∧ Memory.wf s.mem = true
      leads := fun s t => snoopedTo (fun _ => none) a s t ∧ ∀ b, readByte t.mem b = if lineOf a ≤ b ∧ b < lineOf a + 64 then (bs[b - lineOf a]?).getD 0 else readByte s.mem b }
  | .bisnpdata, .index a => some {
      needs := fun s => snooped s a = true
      leads := fun s t => snoopedTo (fun c => some { c with mesi := .shared }) a s t ∧ t.mem = s.mem }
  | .bisnpcur, .index a => some {
      needs := fun s => snooped s a = true
      leads := fun s t => snoopedTo (fun c => some (if c.mesi = .modified then { c with mesi := .exclusive } else c)) a s t ∧ t.mem = s.mem }
  | .streamAccess, .triple rid k key => some {
      needs := fun s => ∃ r x, streamIn s rid k r x ∧ (x.desc.write = true → x.held = none → ∃ c y, kget s.chans key = some c ∧ c.src = rid ∧ c.place = .stream k ∧ c.queue.head? = some y)
      leads := fun s t => ∀ r x, streamIn s rid k r x → if x.desc.write then
          match x.held with
          | none => ∀ c y, kget s.chans key = some c → c.queue.head? = some y → t = stirred rid (onRegion rid (elementTaken k y) (headTaken key s))
          | some y => settles (streamWrite rid k r x y) s t
        else settles (streamRead rid k r x) s t ∧ ∀ a, scalarAt s r x .read a → poisoned s a (tyBytes x.desc.fmt) = false →
          let edges := circuitEdges s rid r 0 (38 + k) (x.pushed % 4096)
          let token : Token := { value := extend x.desc.fmt (BitVec.ofNat 32 (leNat (readBytes s.mem a (tyBytes x.desc.fmt)))), tag := x.pushed % 4096 }
          edges.all (edgeFree s 1) = true → t = stirred rid (onRegion rid (elementPassed k true) (edges.foldl (sentOn token) s)) }
  | .streamBarrierLift, .index rid => some {
      needs := fun s => ∃ r, regionIs s rid r ∧ (∃ p ∈ r.streams, p.2.barred = true) ∧ ∀ p ∈ r.streams, p.2.barred = true ∨ p.2.running = false ∨ p.2.gallery.isSome = true
      leads := fun s t => t = onRegion rid (fun r => { r with streams := r.streams.map (fun p => (p.1, { p.2 with barred := false })) }) s }
  | .streamDrained, .pair rid k => some {
      needs := fun s => ∃ r x, regionIs s rid r ∧ kget r.streams k = some x ∧ x.running = true ∧ streamTotal x.desc ≤ x.next
      leads := fun s t => ∀ r x, regionIs s rid r → kget r.streams k = some x →
        t = stirred rid (onRegion rid (fun r => takeControl r (streamWord 2 r x.desc)) s) ∧ (takeControl r (streamWord 2 r x.desc)).control = r.control ++ [streamWord 2 r x.desc] }
  | .slotZeroingEnd, .triple hall k slot => some {
      needs := fun s => hallRuns (hallAt s hall) = true ∧ ((hallAt s hall).plinths[k]?).isSome = true
      leads := fun s t => t = onHall hall (fun h => { h with plinths := h.plinths.set k { plinthAt s hall k with zeroing := (plinthAt s hall k).zeroing.filter (· != slot) } }) s }
  | _, _ => none

/-- The state with a ring changed. -/
def ringTo (vf k : Nat) (x : Ring) (s : State) : State := onVf vf (fun v => { v with rings := kset v.rings k x }) s

/-- The state with the gallery of a wing changed. -/
def galleryTo (wing g : Nat) (x : Gallery) (s : State) : State :=
  match kget s.wings wing with
  | some w => withWing s wing { w with galleries := kset w.galleries g x }
  | none => s

/-- The hall by which a function's couriers write: its wing's home. -/
def ringHall (s : State) (vf : Nat) : Nat := match (vfAt s vf).wing.bind (kget s.wings) with | some w => wingHome w | none => 0

/-- The gallery after its wave's next link has made its update (R184). -/
def waved (x : Gallery) (w : Passing) : Gallery :=
  let last := decide (x.links.length ≤ w.next + 1)
  { x with links := x.links.modify w.next (waveLink w w.next), wave := if last then none else some { w with next := w.next + 1 } }

/-- An element of the request stream of a gallery of its region, whose sources run (R178, R389). -/
def asks (s : State) (key rid k g : Nat) (c : Chan) (y : Token) (r : Region) (x : Gallery) : Prop :=
  kget s.chans key = some c ∧ c.src = rid ∧ c.place = .stream k ∧ c.queue.head? = some y ∧ regionIs s rid r ∧ (kget r.streams k).bind (·.gallery) = some g ∧ galleryAt s r.wing g = some x ∧
    x.rq = k ∧ sourceRuns s r = true ∧ y.isPending = false ∧ y.isFinal = false

/-- The block read of a request token (R178, R389). -/
def blockRead (n rid : Nat) (y : Token) (x : Gallery) : BlockRead :=
  let v := y.value.toNat
  { number := n, rid := rid, tag := y.tag, rowtag := 64 * (v % 2 ^ 18), layer := v / 2 ^ 24 % 256, head := v / 2 ^ 18 % 64, pos := 64 * (v % 2 ^ 18),
    rows := (List.range 64).map (64 * (v % 2 ^ 18) + ·), gen := x.gen, link := 0 }

/-- Nothing keeps a read or write of memory back: no line is pinned, no way changes its use, and no test is in progress (R110, R134, R439). -/
def calm (s : State) : Prop := (∀ h ∈ s.halls, h.pins = [] ∧ h.walking = []) ∧ s.pkg.tests = []

/-- An engine's command has begun, or no command of its issuer to that engine has to begin before it (R301). -/
def starts (s : State) (e : EngineCmd) : Prop := e.started = true ∨ issuedAhead s e = false

/-- The chunks that complete a collective at this member, in order (R225). -/
def chunksOf (s : State) (e : EngineCmd) (op : Nat) (x : Ring) : List (Option (List Byte)) := (collNeeds op x.members.length (ringPlace s x)).map (kget e.chunks)

/-- All that an engine's command does is done but its end: a copy and a multicast have read and written all, and sent every word; a send has its data, a free slot at the
successor and no earlier send before it; a collective has begun, no message waits for it, and all its chunks have come and are written (R192, R225, R301, R328 to R333). -/
def finished (s : State) (e : EngineCmd) : Prop :=
  match e.op with
  | .copy => e.len ≤ e.data.length ∧ e.data.length ≤ e.moved
  | .mcast _ _ => e.len ≤ e.moved ∧ (e.rid = none ∨ e.len / 4 ≤ e.sent ∧ e.data.length < 4 * (e.sent + 1))
  | .ringPut ring => ∃ x, ringAt s e.vf ring = some x ∧ x.broken = false ∧ e.len ≤ e.data.length ∧ (e.data ≠ [] ∨ x.free ≠ 0 ∧ putAhead s e ring = false)
  | .coll ring op _ _ _ seq => ∃ x, ringAt s e.vf ring = some x ∧ x.broken = false ∧ e.sent ≠ 0 ∧ (∀ m ∈ x.inbox, m.seq ≠ seq) ∧ (∀ c ∈ chunksOf s e op x, c.isSome = true) ∧
      ((chunksOf s e op x).flatMap (·.getD [])).length ≤ e.moved

/-- An engine's command meets a fault: its ring has broken, or the handle that a copy reads next is not mapped (R101, R450, R452). -/
def faulty (s : State) (e : EngineCmd) : Prop :=
  match e.op with
  | .copy => e.src = none ∧ e.data = [] ∧ e.moved = 0 ∧ 0 < e.len
  | .mcast _ _ => False
  | .ringPut ring | .coll ring _ _ _ _ _ => ∃ x, ringAt s e.vf ring = some x ∧ x.broken = true

/-- The slot of a ring that its next message fills: where it lies from the ring's buffer (R192). -/
def slotOffset (x : Ring) : Nat := x.slot0 + x.filled % 2 * x.slotSize

/-- A message has reached a ring that works and has a free slot, and the ring's buffer admits it there (R101, R192). -/
def receives (s : State) (vf k : Nat) (x : Ring) (bs : List Byte) (b : Buffer) : Prop :=
  ringAt s vf k = some x ∧ x.broken = false ∧ x.arriving.head? = some bs ∧ x.filled + (if x.held then 1 else 0) < x.taken + 2 ∧
    (kgetD (vfAt s vf).handles (handleKey x.ctx x.handle) {}).visible = some b ∧ accessCode (some b) .write (slotOffset x) bs.length 1 false = none

/-- The pieces of a message that are written into its slot, and the next of them (R127). -/
def slotWritten (x : Ring) (bs : List Byte) (b : Buffer) : Prop := (granPieces (b.base + slotOffset x) bs.length).length ≤ x.pieces.got.length
def slotPiece (x : Ring) (bs : List Byte) (b : Buffer) : Option (Nat × Nat) := (granPieces (b.base + slotOffset x) bs.length)[x.pieces.got.length]?

/-- A piece of a message can be written at a location: in scratch, or on a page that the translation cache of the function's home holds. -/
def pieceAt (s : State) (vf : Nat) (x : Ring) (b : Buffer) (p : Nat × Nat) (a : Nat) : Prop :=
  heldPlace s (ringHall s vf) vf b .write (slotOffset x + p.1) = some a ∧ takeable s (ringHall s vf) a p.2

/-- A package's link after a change. -/
def withLink (link : Nat) (g : XLink → XLink) (s : State) : State := onPkg (fun p => { p with xlinks := p.xlinks.modify link g }) s

/-- The steps of galleries, conservators, the delta engine, engines, rings and links. -/
def engineEvent : Instr → Input → Option EventEffects
  | .galleryBlockRead, .index key => some {
      needs := fun s => ∃ rid k g c y r x, asks s key rid k g c y r x
      leads := fun s t => ∀ rid k g c y r x, asks s key rid k g c y r x →
        t = stirred rid (headTaken key (galleryTo r.wing g { x with reads := x.reads ++ [blockRead s.tick rid y x] } { s with tick := s.tick + 1 })) }
  | .galleryReadAtLink, .triple wing g number => some {
      needs := fun s => ∃ x rd, galleryAt s wing g = some x ∧ x.reads.find? (·.number == number) = some rd ∧ hallRuns (hallAt s (x.link rd.link).hall) = true ∧ (regionOf s x.vf rd.rid).any (fun r => r.saved.isNone) = true
      leads := fun s t => ∀ x rd, galleryAt s wing g = some x → x.reads.find? (·.number == number) = some rd → settles (readAtLink wing g x rd) s t }
  | .limitShiftWave, .pair wing g => some {
      needs := fun s => ∃ x w, galleryAt s wing g = some x ∧ x.wave = some w ∧ hallRuns (hallAt s (x.link w.next).hall) = true
      leads := fun s t => ∀ x w, galleryAt s wing g = some x → x.wave = some w →
        let u := galleryTo wing g (waved x w) s
        if w.next + 1 < x.links.length then t = u
        else ∃ v, (if w.wave.cut then Reaches (dropEmptied wing g) u () v else v = u) ∧ settles (releaseWaiter w.waiter) v t }
  | .repairLayerDone, .index number => some {
      needs := fun s => ∃ die x, repairNo s number = some (die, x) ∧ x.ended = false
      leads := fun s t => ∀ die x, repairNo s number = some (die, x) → settles (layerDone die x) s t }
  | .repairCopyDone, .index number => some {
      needs := fun s => ∃ die x, repairNo s number = some (die, x) ∧ x.ended = false
      leads := fun s t => ∀ die x, repairNo s number = some (die, x) → settles (copyDone die x) s t }
  | .repairCancel, .index number => some {
      needs := fun s => ∃ die x, repairNo s number = some (die, x) ∧ x.ended = false ∧ repairLost s die x = true
      leads := fun s t => ∀ die x, repairNo s number = some (die, x) → settles (cancelRepair die number) s t }
  | .deltaRunEnd, .pair wing l => some {
      needs := fun s => ∃ c, castAt s wing l = some c ∧ ∀ q, c.runner = some q → hallRuns (hallAt s c.hall) = true ∧ (regionOf s c.vf q.rid).any (fun r => r.saved.isNone) = true
      leads := fun s t => ∀ c, castAt s wing l = some c → match c.runner with
        | none => settles (startRunAt wing l) s t
        | some q => unlessHeld (calm s) s t (settles (finishRun wing l c q) s t) }
  | .engineCommandComplete, .index number => some {
      needs := fun s => ∃ e, engineRuns s number = some e ∧ starts s e ∧ finished s e
      leads := fun s t => ∀ e, engineRuns s number = some e → ∃ u, Reaches (engineStep e) s .done u ∧ settles (endEngine e none) u t ∧
        ∀ y ∈ t.pkg.engines, y.number = e.number → y.done = true ∧ y.error = none }
  | .engineCommandFault, .index number => some {
      needs := fun s => ∃ e, engineRuns s number = some e ∧ starts s e ∧ faulty s e
      leads := fun s t => ∀ e, engineRuns s number = some e → ∃ x u, Reaches (engineStep e) s (.fault x) u ∧ settles (endEngine e (some (engineCause x))) u t ∧
        ∀ y ∈ t.pkg.engines, y.number = e.number → y.done = true ∧ y.error.map (·.1) = some (if e.op = .copy then 0x46 else 0x48) }
  | .ringSlotFilled, .ring vf k bs => some {
      needs := fun s => ∃ x, ringAt s vf k = some x ∧ x.broken = false
      leads := fun s t => ∀ x, ringAt s vf k = some x → t = ringTo vf k { x with arriving := x.arriving ++ [bs.take x.slotSize] } s }
  | .ringSlotFilled, .pair vf k => some {
      needs := fun s => ∃ x bs b, receives s vf k x bs b ∧ (slotWritten x bs b ∨ ∃ p a, slotPiece x bs b = some p ∧ pieceAt s vf x b p a)
      leads := fun s t => ∀ x bs b, receives s vf k x bs b →
        (slotWritten x bs b → t = ringTo vf k { x with filled := x.filled + 1, arriving := x.arriving.drop 1, pieces := {} } s) ∧
        ∀ p a, slotPiece x bs b = some p → pieceAt s vf x b p a → ∃ u, Reaches (performWrite (ringHall s vf) vf (b.base + slotOffset x + p.1) a ((bs.drop p.1).take p.2)) s () u ∧
          Reaches deliverTraps (ringTo vf k { x with pieces := { got := x.pieces.got ++ [[]] } } u) () t }
  | .ringCreditReturn, .pair vf k => some {
      needs := fun s => (ringAt s vf k).isSome = true
      leads := fun s t => ∀ x, ringAt s vf k = some x → t = if x.free < 2 then ringTo vf k { x with free := x.free + 1 } s else s }
  | .ringBreak, .pair vf k => some {
      needs := fun s => (ringAt s vf k).isSome = true
      leads := fun s t => ∀ x, ringAt s vf k = some x → t = ringTo vf k { x with broken := true } s }
  | .xipexFlitReceive, .flit link f => some {
      needs := fun s => linkUp s link = true
      leads := fun s t =>
        let u := withLink link (fun x => { x with retries := 0 }) s
        if f.dest = s.pkg.number then settles (deliverFlit f.body) u t
        else match kget s.pkg.routes f.dest with
          | some out => t = if linkUp u out then onPkg (fun p => { p with outbox := p.outbox ++ [(out, f)] }) u else u
          | none => t = u }
  | .xipexCrcError, .index link => some {
      needs := fun s => linkUp s link = true
      leads := fun s t => t = withLink link (fun x => if 16 ≤ x.retries + 1 then { x with retries := 0, up := false, training := true } else { x with retries := x.retries + 1 }) s }
  | .xipexLinkDown, .index link => some {
      needs := fun s => ∃ x, s.pkg.xlinks[link]? = some x ∧ x.present = true ∧ x.training = true ∧ 3 ≤ x.fails
      leads := fun s t => Reaches (linkDown link) s () t ∧ linkUp t link = false }
  | .xipexRetrainEnd, .train link o => some {
      needs := fun s => ∃ x, s.pkg.xlinks[link]? = some x ∧ x.present = true ∧ x.training = true ∧ x.fails < 3
      leads := fun s t => match o with
        | .up => t = withLink link (fun x => { x with up := true, training := false, fails := 0, retries := 0 }) s
        | .failed => t = withLink link (fun x => { x with fails := x.fails + 1 }) s
        | .loopbackFailed => ∃ u, Reaches (breakRings link) (withLink link (fun x => { x with up := false, training := false, present := false }) s) () u ∧ Reaches (retireUnit 6 0 link 0) u () t }
  | _, _ => none

end Sys2Proof.Claims

open Sys2Proof.Claims

/-- R102 to R107, R110 to R116, R122, R130, R360, R382, R434 to R440, R444, R446: the steps of the memory system: a served request, an error in a structure, self-tests,
walks, ways that change use, snoops, streams and zeroed slots. -/
def Obligations.MemoryEventsComplete : Prop :=
  ∀ (i : Instr) (e : EventEffects) (s : State), memoryEvent i s.input = some e → trapWaiting s = none → e.needs s → ∃ t, exec i s = .next t ∧ e.leads s t

/-- Every event of an accepted command: one that goes on delivers what it raised, and one that is done or meets a fault ends. -/
def Sys2Proof.Claims.engineStepsTaken : Prop :=
  ∀ (s u : State) (number : Nat) (e : EngineCmd) (x : EngineEnd), s.input = .index number → trapWaiting s = none → engineRuns s number = some e → Reaches (engineStep e) s x u →
    (∃ t, exec .engineCommandComplete s = .next t ∧ (x = .goesOn → Reaches deliverTraps u () t) ∧ (x = .done → settles (endEngine e none) u t)) ∧
    ∃ t, exec .engineCommandFault s = .next t ∧ ∀ c, x = .fault c → settles (endEngine e (some (engineCause c))) u t

/-- R178 to R196, R224, R301, R376, R389, R390, R447 to R452: the steps of galleries, conservators, the delta engine, engine commands, rings and Xipex links. -/
def Obligations.EngineEventsComplete : Prop :=
  Sys2Proof.Claims.engineStepsTaken ∧
  ∀ (i : Instr) (e : EventEffects) (s : State), engineEvent i s.input = some e → trapWaiting s = none → e.needs s → ∃ t, exec i s = .next t ∧ e.leads s t

/-- R71, R130, R132, R143, R290: a load that the memory system answers, with its whole range at hand, sends op's value: the bytes at the location, and its own invocation's
held stores, little-endian and extended; a completion follows it. Memory is as before. -/
def Obligations.LoadServed : Prop :=
  ∀ (s : State) (q : Req) (ps : List (Nat × Nat × Nat)), s.input = .reply q.number .data → trapWaiting s = none → s.reqs.find? (fun x => x.number == q.number) = some q →
    mayServe s q = true → q.phase ≠ .granule → q.op = .load → q.ty ≠ .tile → q.got = [] → behindLane s q = false → pieces s q .read 0 q.len = .ok ps → (∀ x ∈ pieceLines ps, pinnedByOther s x (reqInv s q) = false) →
    unreadable s ps = none →
    ∃ u t, exec .memoryAccessComplete s = .next t ∧ ReadOnly { s with reqs := s.reqs.filter (·.number != q.number) } u ∧ t.mem = s.mem ∧
      Reaches (sendReply q (some { value := extend q.ty (BitVec.ofNat 32 (leNat (pieceBytes s (reqInv s q) ps))), tag := q.lane.tag }) (some (completion q.lane))) u () t

/-- R71, R84, R136: a done invocation that is not discarded commits in one step: each byte that its held stores of its own hall and of memory, and what it
stored to a line of an AMO or CAS, cover becomes the last value held, and every other byte stays. No request waits at a granule or at a fold. -/
def Obligations.CommitWrites : Prop :=
  ∀ (s : State) (hall inv : Nat) (i : Invocation), s.input = .pair hall inv → trapWaiting s = none → Memory.wf s.mem = true → hall < s.halls.length →
    kget (hallAt s hall).invs inv = some i → i.live = 0 → i.discarded = none → hallRuns (hallAt s hall) = true → (kget s.regions i.rid).all (fun r => r.saved.isNone) = true →
    commitBlocked s hall inv = false → (∀ q ∈ s.reqs, q.phase ≠ .granule) → s.names = [] →
    ∃ t, exec .invocationCommit s = .next t ∧ ∀ a, readByte t.mem a =
      ((committed hall ((hallAt s hall).hold.filter (·.inv == inv))).foldl (fun b (x : Held) => if x.addr ≤ a ∧ a < x.addr + x.data.length then (x.data[a - x.addr]?).getD 0 else b)
        (readByte s.mem a))

/-! ### The machine as a whole: reset, invariants, decoding, one step (R26, R109, R203, R212, R217, R219 to R221, R227 to R243, R396, R397, R435,
R461) -/

namespace Sys2Proof.Claims

/-- A region's registers as FUSE leaves them (R244, R396 to R399). -/
def freshRegs : RegionRegs := {}

/-- The move made next, and the state in which it is made. -/
def moving (s : State) (m : Turn) (u : State) : Prop := ∃ rest, nextTurn s = (m, rest) ∧ s.pkg.tripped = false ∧ u = beginTurn s m rest

/-- Words written out from the encodings of R228 and R233 in the specification's examples: bits [95:64], [63:32] and [31:0]. -/
def word96 (a b c : Nat) : Rec := BitVec.ofNat 96 (a * 2 ^ 64 + b * 2 ^ 32 + c)

/-- The fields of a C-form record of type 15 or another. -/
def fields (ty : Ty) (md d s t ext imm : Nat) : CmdRec :=
  { ty := ty, md := BitVec.ofNat 4 md, d := BitVec.ofNat 5 d, s := BitVec.ofNat 5 s, t := BitVec.ofNat 5 t, ext := BitVec.ofNat 31 ext, imm := BitVec.ofNat 32 imm }

end Sys2Proof.Claims

open Sys2Proof.Claims

/-- What reset leaves, by the specification's reset columns: every hall is in no wing, gated, with its ports closed (R26), and every vault
tile's VTUSE holds way 15's code alone (R109); the physical function's registers read as R435 gives and every virtual function's as R212
gives; a region's TRAPEN and TRAPVEC (R396, R397) hold their reset values when FUSE makes it. -/
def Obligations.ResetValues : Prop :=
  (∀ h < 64, ∃ x : Hall, State.reset.halls[h]? = some x ∧ x.wing = none ∧ x.powered = false ∧ x.portsOpen = false ∧ x.released = false ∧
    ∀ tile < 12, x.vtuse[tile]? = some ((if tile < 8 then 14 else 15) * 2 ^ 60)) ∧
  (∀ o ∈ [0x100, 0x108, 0x110, 0x118, 0x120, 0x130], readPfRegister State.reset o = 0) ∧ readPfRegister State.reset 0x128 = 0x64 ∧
  (∀ vf, ∀ o ∈ [0x00, 0x08, 0x10, 0x18, 0x20, 0x30], readVfRegister State.reset vf o = 0) ∧
  freshRegs.trapEn = 0x03E8003200000000#64 ∧ freshRegs.trapVec = 0 ∧ State.reset.pkg.booted = false

/-- Reset meets the invariants. -/
def Obligations.ResetMeetsInv : Prop := Sys2Proof.Machine.Inv State.reset

/-- Every step keeps the invariants: memory is in its one form, the full bits and the poison markers are listed in rising order, so are the
regions, the wings, the functions and the channels, there are 64 halls (R1), and every registrar entry chains to the one before it (R220). -/
def Obligations.StepKeepsInv : Prop := ∀ s t, Sys2Proof.Machine.Inv s → step s = .next t → Sys2Proof.Machine.Inv t

/-- Decoding and encoding agree (R227 to R243): what a well-formed record holds is encoded by one record, which decodes to it, and a record
that decodes is the encoding of what it holds, so that no bit of a record is dropped. -/
def Obligations.DecodeEncode : Prop :=
  (∀ d : Decoded, d.wf = true → ∃ r, encode d = some r ∧ decode r = .ok d) ∧ ∀ (r : Rec) (d : Decoded), decode r = .ok d → encode d = some r

/-- The words that the specification's own examples write out decode to the commands they are examples of (R233). -/
def Obligations.DecodesWords : Prop :=
  decode (word96 0x827C0840 0 1) = .ok { instr := .addCmd (fields .untyped 0 4 4 0 0 1) } ∧
  decode (word96 0x80C08042 0x80000000 3) = .ok { instr := .br (fields .i32 2 0 4 5 0 3) } ∧
  decode (word96 0x8DBC0042 0x80000000 0) = .ok { instr := .launch (fields .untyped 0 0 4 5 0 0) } ∧
  decode (word96 0x95FC0000 4 0) = .ok { instr := .fenceCmd (fields .untyped 0 0 0 0 4 0) } ∧
  decode (word96 0x9D7C0021 0x80000000 7) = .ok { instr := .nseed (fields .untyped 0 0 2 3 0 7) } ∧
  decode (word96 0xA07C0C21 0x80000000 0x800) = .ok { instr := .copySh (fields .untyped 0 6 2 3 0 2048) } ∧
  decode (word96 0xA8BC0020 0 0x30) = .ok { instr := .opld (fields .untyped 0 0 2 0 0 0x30) } ∧
  decode (word96 0xACFC0042 0x80000000 2) = .ok { instr := .splice (fields .untyped 0 0 4 5 0 2) } ∧
  decode (word96 0xB07C0C00 0 0x103) = .ok { instr := .deltaRun (fields .untyped 0 6 0 0 0 0x103) } ∧
  decode (word96 0xB87C0000 0 0x14) = .ok { instr := .tretRetry (fields .untyped 0 0 0 0 0 0x14) } ∧
  decode (word96 0xB87C4000 0 0) = .ok { instr := .tretPoison }

/-- A step runs the record it comes to: the latched node's record, a running sequence's record with its fields, a region's command, the
service sequencer's command, or a device step with what it takes from outside. Which of them moves is the model's choice (DESIGN CHOICE, log 1). -/
def Obligations.StepRunsDecoded : Prop :=
  (∀ s u r d, moving s .fire u → nodeRecord u = some r → decode r = .ok d → step s = exec d.instr u) ∧
  (∀ s u k r i f, moving s (.qrec k) u → seqRecord u k = some r → decode r = .ok { instr := i, seq := some f } → step s = exec i { u with seqNow := some (k, f) }) ∧
  (∀ s u rid r c i, moving s (.cmd rid) u → kget u.regions rid = some r → sequencerFree r = true → commandAt r = some (c, true) → recForm c = 2 →
    decode c = .ok { instr := i } → step s = exec i { u with who := rid }) ∧
  (∀ s u i, moving s .service u → recForm (Config.serviceRecord u.service.service) = 2 → decode (Config.serviceRecord u.service.service) = .ok { instr := i } →
    step s = exec i { u with who := serviceRid }) ∧
  (∀ s u hall cell v, moving s (.issue hall cell) u → exec .cellIssue { u with input := .pair hall cell } = .next v →
    step s = if v.issue.isSome then stepFire v else .next v) ∧
  ∀ s u i x, moving s (.event i x) u → isEvent i = true → step s = exec i { u with input := x }

/-- After a trip all state is lost and every rail is removed: no step but power-good is made (R461). -/
def Obligations.PowerLossStops : Prop :=
  ∀ s m rest, s.pkg.tripped = true → nextTurn s = (m, rest) →
    (∀ x, m = .event .powerGood x → step s = exec .powerGood { beginTurn s m rest with input := x }) ∧
    ((∀ x, m ≠ .event .powerGood x) → step s = .fault .powerLost)

/-- The life cycle advances only in its order (R219), and no step erases or alters a registrar entry (R221). -/
def Obligations.LifeAndRegistrarGrow : Prop :=
  ∀ s t, step s = .next t → s.pkg.life.rank ≤ t.pkg.life.rank ∧ s.pkg.registrar.entries <+: t.pkg.registrar.entries
end

