-- ==== Sys2Proof/Laws/State.lean ====
section
/-! SUPPORT. What each change does to the state, field by field, and how maps read after a write. -/
namespace Sys2Proof.Machine

/-! ### One equation per change -/

@[simp] theorem apply_bump (s : State) : Effect.bump.apply s = { s with tick := s.tick + 1 } := rfl
@[simp] theorem apply_agenda (l : List Turn) (s : State) : (Effect.agenda l).apply s = { s with agenda := l } := rfl
@[simp] theorem apply_issue (i : Option Issue) (s : State) : (Effect.issue i).apply s = { s with issue := i } := rfl
@[simp] theorem apply_seqNow (q : Option (Nat × SeqRec)) (s : State) : (Effect.seqNow q).apply s = { s with seqNow := q } := rfl
@[simp] theorem apply_byte (a : Nat) (v : Byte) (s : State) : (Effect.byte a v).apply s = { s with mem := writeByte s.mem a v } := rfl
@[simp] theorem apply_granule_full (g : Nat) (s : State) : (Effect.granule g true).apply s = { s with full := addNat s.full g } := rfl
@[simp] theorem apply_granule_empty (g : Nat) (s : State) : (Effect.granule g false).apply s = { s with full := s.full.filter (· != g) } := rfl
@[simp] theorem apply_mark_on (a : Nat) (s : State) : (Effect.mark a true).apply s = { s with marks := addNat s.marks a } := rfl
@[simp] theorem apply_mark_off (a : Nat) (s : State) : (Effect.mark a false).apply s = { s with marks := s.marks.filter (· != a) } := rfl
@[simp] theorem apply_region_some (k : Nat) (r : Region) (s : State) : (Effect.region k (some r)).apply s = { s with regions := kset s.regions k r } := rfl
@[simp] theorem apply_region_none (k : Nat) (s : State) : (Effect.region k none).apply s = { s with regions := kdel s.regions k } := rfl
@[simp] theorem apply_hall (h : Nat) (v : Hall) (s : State) : (Effect.hall h v).apply s = { s with halls := s.halls.set h v } := rfl
@[simp] theorem apply_wing_some (k : Nat) (w : Wing) (s : State) : (Effect.wing k (some w)).apply s = { s with wings := kset s.wings k w } := rfl
@[simp] theorem apply_wing_none (k : Nat) (s : State) : (Effect.wing k none).apply s = { s with wings := kdel s.wings k } := rfl
@[simp] theorem apply_vf (k : Nat) (v : VFn) (s : State) : (Effect.vf k v).apply s = { s with vfs := kset s.vfs k v } := rfl
@[simp] theorem apply_chan_some (k : Nat) (c : Chan) (s : State) : (Effect.chan k (some c)).apply s = { s with chans := kset s.chans k c } := rfl
@[simp] theorem apply_chan_none (k : Nat) (s : State) : (Effect.chan k none).apply s = { s with chans := kdel s.chans k } := rfl
@[simp] theorem apply_reqs (l : List Req) (s : State) : (Effect.reqs l).apply s = { s with reqs := l } := rfl
@[simp] theorem apply_names (l : List NameReq) (s : State) : (Effect.names l).apply s = { s with names := l } := rfl
@[simp] theorem apply_walks (l : List Walk) (s : State) : (Effect.walks l).apply s = { s with walks := l } := rfl
@[simp] theorem apply_conservators (l : List Conservator) (s : State) : (Effect.conservators l).apply s = { s with conservators := l } := rfl
@[simp] theorem apply_service (q : Sequencer) (s : State) : (Effect.service q).apply s = { s with service := q } := rfl
@[simp] theorem apply_pkg (p : Package) (s : State) :
    (Effect.pkg p).apply s = { s with pkg := { p with life := s.pkg.life, registrar := s.pkg.registrar } } := rfl
@[simp] theorem apply_lifeNext (s : State) : Effect.lifeNext.apply s = { s with pkg := { s.pkg with life := s.pkg.life.next } } := rfl
@[simp] theorem apply_entry (b : BitVec 384) (s : State) :
    (Effect.entry b).apply s = { s with pkg := { s.pkg with registrar := { s.pkg.registrar with
      entries := s.pkg.registrar.entries ++ [{ chain := nextChain s.pkg.registrar b, body := b }], count := s.pkg.registrar.count + 1 } } } := rfl
@[simp] theorem apply_epoch (s : State) :
    Effect.epoch.apply s = { s with pkg := { s.pkg with registrar := s.pkg.registrar.nextEpoch } } := rfl
@[simp] theorem nextEpoch_entries (r : Registrar) : r.nextEpoch.entries = r.entries := by unfold Registrar.nextEpoch; split <;> rfl
@[simp] theorem apply_registrar (x a : Nat) (f w : Bool) (s : State) :
    (Effect.registrar x a f w).apply s =
      { s with pkg := { s.pkg with registrar := { s.pkg.registrar with exported := x, acked := a, regFail := f, warned := w } } } := rfl
@[simp] theorem apply_wipe (s : State) : Effect.wipe.apply s = { s with mem := [], full := [], marks := [] } := rfl

@[simp] theorem applyAll_nil (s : State) : applyAll s [] = s := rfl
@[simp] theorem applyAll_cons (s : State) (e : Effect) (t : List Effect) : applyAll s (e :: t) = e.apply (applyAll s t) := rfl

/-! ### Maps -/

@[simp] theorem kget_nil {α : Type} (k : Nat) : kget ([] : KMap α) k = none := rfl

/-- A map reads what was last written at a number. -/
@[simp] theorem kget_kset_self {α : Type} (m : KMap α) (k : Nat) (v : α) : kget (kset m k v) k = some v := by
  induction m with
  | nil => simp [kset, kget]
  | cons p t ih =>
    obtain ⟨j, w⟩ := p
    simp only [kset]
    split
    · simp [kget]
    · split
      · simp [kget]
      · next h => simp [kget, Ne.symm h, ih]

/-- A write leaves every other number's value alone. -/
theorem kget_kset_of_ne {α : Type} (m : KMap α) {j k : Nat} (v : α) (h : j ≠ k) : kget (kset m k v) j = kget m j := by
  induction m with
  | nil => simp [kset, kget, Ne.symm h]
  | cons p t ih =>
    obtain ⟨i, w⟩ := p
    simp only [kset]
    split
    · simp [kget, Ne.symm h]
    · split
      · next h1 h2 => subst h2; simp [kget, Ne.symm h]
      · simp only [kget]
        split
        · rfl
        · exact ih

theorem kget_kset {α : Type} (m : KMap α) (j k : Nat) (v : α) : kget (kset m k v) j = if j = k then some v else kget m j := by
  split
  · next h => subst h; simp
  · next h => exact kget_kset_of_ne m v h

/-- The last of two writes at a number counts. -/
@[simp] theorem kset_kset {α : Type} (m : KMap α) (k : Nat) (v w : α) : kset (kset m k v) k w = kset m k w := by
  induction m with
  | nil => simp [kset]
  | cons p t ih =>
    obtain ⟨i, x⟩ := p
    simp only [kset]
    split
    · simp [kset]
    · split
      · simp [kset]
      · next h1 h2 => simp [kset, h1, h2, ih]

/-- The members of a map after a write: the new one, and old ones at other numbers or the same. -/
theorem mem_kset {α : Type} {m : KMap α} {k : Nat} {v : α} {p : Nat × α} (h : p ∈ kset m k v) : p = (k, v) ∨ p ∈ m := by
  induction m with
  | nil => simp [kset] at h; exact .inl h
  | cons q t ih =>
    obtain ⟨i, x⟩ := q
    simp only [kset] at h
    split at h
    · simp only [List.mem_cons] at h ⊢; exact h
    · split at h
      · simp only [List.mem_cons] at h ⊢
        rcases h with h | h
        · exact .inl h
        · exact .inr (.inr h)
      · simp only [List.mem_cons] at h ⊢
        rcases h with h | h
        · exact .inr (.inl h)
        · rcases ih h with h | h
          · exact .inl h
          · exact .inr (.inr h)

theorem mem_of_kget {α : Type} {m : KMap α} {k : Nat} {v : α} (h : kget m k = some v) : (k, v) ∈ m := by
  induction m with
  | nil => simp at h
  | cons p t ih =>
    obtain ⟨j, w⟩ := p
    simp only [kget] at h
    split at h
    · next hj => subst hj; simp at h; simp [h]
    · exact List.mem_cons_of_mem _ (ih h)

/-! ### Sequencer registers -/

@[simp] theorem get_zero (q : Sequencer) : q.get 0 = 0 := rfl
@[simp] theorem put_zero (q : Sequencer) (v : Reg) : q.put 0 v = q := rfl
@[simp] theorem put_handler (q : Sequencer) (i : Nat) (v : Reg) : (q.put i v).handler = q.handler := by unfold Sequencer.put; split <;> rfl
@[simp] theorem put_act (q : Sequencer) (i : Nat) (v : Reg) : (q.put i v).act = q.act := by unfold Sequencer.put; split <;> rfl
@[simp] theorem put_index (q : Sequencer) (i : Nat) (v : Reg) : (q.put i v).index = q.index := by unfold Sequencer.put; split <;> rfl
@[simp] theorem put_service (q : Sequencer) (i : Nat) (v : Reg) : (q.put i v).service = q.service := by unfold Sequencer.put; split <;> rfl
@[simp] theorem put_stack (q : Sequencer) (i : Nat) (v : Reg) : (q.put i v).stack = q.stack := by unfold Sequencer.put; split <;> rfl

/-! ### A sequencer whose command has ended -/

@[simp] theorem settled_regs (q : Sequencer) : q.settled.regs = q.regs := rfl
@[simp] theorem settled_act (q : Sequencer) : q.settled.act = q.act := rfl
@[simp] theorem settled_index (q : Sequencer) : q.settled.index = q.index := rfl
@[simp] theorem settled_handler (q : Sequencer) : q.settled.handler = q.handler := rfl
@[simp] theorem settled_stack (q : Sequencer) : q.settled.stack = q.stack := rfl
@[simp] theorem settled_waiting (q : Sequencer) : q.settled.waiting = false := rfl
@[simp] theorem settled_waitStart (q : Sequencer) : q.settled.waitStart = q.waitStart := rfl
@[simp] theorem settled_service (q : Sequencer) : q.settled.service = q.service := rfl
@[simp] theorem settled_progress (q : Sequencer) : q.settled.progress = 0 := rfl
@[simp] theorem settled_walk (q : Sequencer) : q.settled.walk = none := rfl
@[simp] theorem settled_entry (q : Sequencer) : q.settled.entry = none := rfl
@[simp] theorem settled_pieces (q : Sequencer) : q.settled.pieces = {} := rfl
@[simp] theorem settled_swap (q : Sequencer) : q.settled.swap = none := rfl

end Sys2Proof.Machine
end

