-- ==== Sys2Proof/Laws/Run.lean ====
section
/-! SUPPORT. How a step is carried out: the combinators of `M`, the wrappers, and traps that are not there. -/
namespace Sys2Proof.Machine

/-! ### The combinators -/

theorem bind_run {α β : Type} (m : M α) (f : α → M β) (l : Log) :
    (m >>= f) l = match m l with | .ok (a, l') => f a l' | .error t => .error t := by
  show (StateT.bind m f) l = _
  unfold StateT.bind
  show Except.bind (m l) _ = _
  cases h : m l with
  | ok p => obtain ⟨a, l'⟩ := p; rfl
  | error t => rfl

@[simp] theorem pure_run {α : Type} (a : α) (l : Log) : (pure a : M α) l = .ok (a, l) := rfl
@[simp] theorem get_run (l : Log) : get' l = .ok (l.cur, l) := rfl
@[simp] theorem eff_run (e : Effect) (l : Log) : eff e l = .ok ((), { cur := e.apply l.cur, effs := e :: l.effs }) := rfl
@[simp] theorem trap_run {α : Type} (t : TrapRec) (l : Log) : (trap t : M α) l = .error t := rfl
@[simp] theorem trapCode_run {α : Type} (c o : Nat) (l : Log) : (trapCode c o : M α) l = .error { code := c, operand := o } := rfl
@[simp] theorem each_nil {α : Type} (f : α → M Unit) : each [] f = pure () := rfl
theorem each_cons {α : Type} (a : α) (t : List α) (f : α → M Unit) : each (a :: t) f = f a >>= fun _ => each t f := rfl
@[simp] theorem collect_nil {α β : Type} (f : α → M β) : collect [] f = pure [] := rfl
theorem collect_cons {α β : Type} (a : α) (t : List α) (f : α → M β) :
    collect (a :: t) f = f a >>= fun b => collect t f >>= fun bs => pure (b :: bs) := rfl
@[simp] theorem whenM_true (m : M Unit) : whenM true m = m := rfl
@[simp] theorem whenM_false (m : M Unit) : whenM false m = pure () := rfl

/-! ### What actions reach -/

section
variable {α β : Type} {m : M α} {s t u : State} {a : α} {b : β} {e : TrapRec}

theorem Reaches.pure (a : α) (s : State) : Reaches (pure a : M α) s a s := fun _ es h => ⟨es, rfl, h⟩
theorem Reaches.get (s : State) : Reaches get' s s s := fun _ es h => ⟨es, rfl, h⟩
theorem Reaches.eff (e : Effect) (s : State) : Reaches (eff e) s () (e.apply s) := fun _ es h => ⟨e :: es, rfl, by rw [applyAll_cons, ← h]⟩

/-- The actions of a sequence reach their states in turn. -/
theorem Reaches.bind {f : α → M β} (h : Reaches m s a t) (k : Reaches (f a) t b u) : Reaches (m >>= f) s b u := by
  intro s0 es hs
  obtain ⟨es1, h1, h2⟩ := h s0 es hs
  obtain ⟨es2, h3, h4⟩ := k s0 es1 h2
  exact ⟨es2, by rw [bind_run, h1]; exact h3, h4⟩

theorem Reaches.congr (h : Reaches m s a t) (e : t = u) : Reaches m s a u := e ▸ h

/-- An action that only answers a value. -/
theorem Reaches.answer {a' : α} (h : a = a') (s : State) : Reaches (Pure.pure a : M α) s a' s := h ▸ Reaches.pure a s

theorem Reaches.each_nil (f : α → M Unit) (s : State) : Reaches (each [] f) s () s := Reaches.pure () s
theorem Reaches.each_cons {f : α → M Unit} {l : List α} (h : Reaches (f a) s () t) (k : Reaches (each l f) t () u) :
    Reaches (each (a :: l) f) s () u := Reaches.bind h k

/-- A loop whose rounds each reach the next state of a fold reaches the fold's state. -/
theorem Reaches.each_fold {f : α → M Unit} {g : State → α → State} (P : State → Prop) :
    ∀ (l : List α) (s : State), P s → (∀ s a, a ∈ l → P s → Reaches (f a) s () (g s a) ∧ P (g s a)) → Reaches (each l f) s () (l.foldl g s)
  | [], s, _, _ => Reaches.each_nil f s
  | a :: l, s, hs, h =>
    (h s a (by simp) hs).1.each_cons (Reaches.each_fold P l (g s a) (h s a (by simp) hs).2 fun s b hb hp => h s b (by simp [hb]) hp)

theorem Reaches.collect_nil (f : α → M β) (s : State) : Reaches (collect [] f) s [] s := Reaches.pure [] s
theorem Reaches.collect_cons {f : α → M β} {l : List α} {bs : List β} (h : Reaches (f a) s b t) (k : Reaches (collect l f) t bs u) :
    Reaches (collect (a :: l) f) s (b :: bs) u := h.bind (k.bind (Reaches.pure _ _))

theorem Reaches.attempt (h : Reaches m s a t) : Reaches (attempt m) s (.ok a) t := by
  intro s0 es hs
  obtain ⟨es1, h1, h2⟩ := h s0 es hs
  exact ⟨es1, by simp [Machine.attempt, h1], h2⟩

theorem Raises.attempt (h : Raises m s e) : Reaches (attempt m) s (.error e) s :=
  fun s0 es hs => ⟨es, by simp [Machine.attempt, h s0 es hs], hs⟩

theorem Raises.trap (e : TrapRec) (s : State) : Raises (trap e : M α) s e := fun _ _ _ => rfl
theorem Raises.first {f : α → M β} (h : Raises m s e) : Raises (m >>= f) s e := fun s0 es hs => by rw [bind_run, h s0 es hs]

/-- A trap after an action that reached a state. -/
theorem Reaches.raises {f : α → M β} (h : Reaches m s a t) (k : Raises (f a) t e) : Raises (m >>= f) s e := by
  intro s0 es hs
  obtain ⟨es1, h1, h2⟩ := h s0 es hs
  rw [bind_run, h1]
  exact k s0 es1 h2

/-- A step that reaches a state answers it. -/
theorem Reaches.next {m : M Unit} (h : Reaches m s () t) (k : TrapRec → M Unit) : runM m k s = .next t := by
  obtain ⟨es, h1, h2⟩ := h s [] rfl
  simp [runM, h1, ← h2]

/-- A step that traps answers what the handler of its trap reaches. -/
theorem Raises.next {m : M Unit} {k : TrapRec → M Unit} (h : Raises m s e) (hk : Reaches (k e) s () t) : runM m k s = .next t := by
  obtain ⟨es, h1, h2⟩ := hk s [] rfl
  simp [runM, h s [] rfl, h1, ← h2]

theorem Reaches.leaves (h : Reaches m s a t) : leaves m s = t := by
  obtain ⟨es, h1, _⟩ := h s [] rfl
  simp [Machine.leaves, h1]

end

/-- Whatever a step does, the state it answers comes from the state before by a list of changes. -/
theorem runM_effects (m : M Unit) (h : TrapRec → M Unit) (s : State) : ∃ l, runM m h s = .next (applyAll s l) := by
  unfold runM
  split
  · exact ⟨_, rfl⟩
  · split
    · exact ⟨_, rfl⟩
    · exact ⟨[], rfl⟩

/-! ### No trap to deliver -/

/-- Nothing waits to be delivered: no region has a raised trap and no trap in work. -/
theorem deliver_none {l : Log} (h : trapWaiting l.cur = none) (n : Nat) : deliver n l = .ok ((), l) := by
  cases n with
  | zero => rfl
  | succ n => simp [deliver, bind_run, h]

theorem deliverTraps_none {l : Log} (h : trapWaiting l.cur = none) : deliverTraps l = .ok ((), l) := by
  simp [deliverTraps, bind_run, deliver_none h]

/-- A region written back with the same traps, state and save leaves nothing more to deliver. -/
theorem trapWaiting_kset {s : State} {k : Nat} {r r' : Region} (h : trapWaiting s = none) (hr : kget s.regions k = some r)
    (h1 : r'.trap = r.trap) (h2 : r'.traps = r.traps) (h3 : r'.state = r.state) (h4 : r'.saved = r.saved) (t : State)
    (ht : t.regions = kset s.regions k r') : trapWaiting t = none := by
  unfold trapWaiting at *
  rw [List.find?_eq_none] at *
  intro p hp
  rw [ht] at hp
  rcases mem_kset hp with rfl | hp
  · have := h (k, r) (mem_of_kget hr)
    simpa [h1, h2, h3, h4] using this
  · exact h p hp

end Sys2Proof.Machine
end

