-- ==== Sys2Proof/Laws/Commands.lean ====
section
/-! SUPPORT. What a sequencer's command can do: its registers, going on, waiting, and the frame of `command`. -/
namespace Sys2Proof.Machine

variable {s t : State} {r : Region}

/-! ### The issuer -/

theorem issuer_service (h : s.who = serviceRid) : issuer s = s.service := by simp [issuer, h]
theorem issuer_region (h : s.who ≠ serviceRid) (hr : kget s.regions s.who = some r) : issuer s = r.seq := by simp [issuer, h, hr]

theorem withIssuer_service (q : Sequencer) (h : s.who = serviceRid) : withIssuer s q = { s with service := q } := by simp [withIssuer, h]
theorem withIssuer_region (q : Sequencer) (h : s.who ≠ serviceRid) (hr : kget s.regions s.who = some r) :
    withIssuer s q = { s with regions := kset s.regions s.who { r with seq := q } } := by simp [withIssuer, h, hr]

@[simp] theorem withIssuer_who (q : Sequencer) : (withIssuer s q).who = s.who := by
  unfold withIssuer; split
  · rfl
  · split <;> rfl

/-- Nothing but the issuer's own sequencer changes: memory is as it was. -/
@[simp] theorem withIssuer_mem (q : Sequencer) : (withIssuer s q).mem = s.mem := by
  unfold withIssuer; split
  · rfl
  · split <;> rfl

theorem withIssuer_withIssuer (p q : Sequencer) : withIssuer (withIssuer s p) q = withIssuer s q := by
  unfold withIssuer
  by_cases h : s.who = serviceRid
  · simp [h]
  · simp only [h, if_false]
    cases hr : kget s.regions s.who with
    | none => simp [h, hr]
    | some r => simp [h]

theorem issuer_withIssuer (q : Sequencer) (h : s.who = serviceRid ∨ ∃ r, kget s.regions s.who = some r) : issuer (withIssuer s q) = q := by
  rcases h with h | ⟨r, hr⟩
  · simp [issuer, withIssuer, h]
  · by_cases hs : s.who = serviceRid
    · simp [issuer, withIssuer, hs]
    · simp [issuer, withIssuer, hs, hr]

/-- A sequencer written back raises no trap. -/
theorem withIssuer_quiet (q : Sequencer) (h : trapWaiting s = none) : trapWaiting (withIssuer s q) = none := by
  unfold withIssuer
  split
  · exact h
  · split
    · next r hr => exact trapWaiting_kset (r' := { r with seq := q }) h hr rfl rfl rfl rfl _ rfl
    · exact h

/-! ### Operations on the issuer -/

theorem mySeq_reaches (s : State) : Reaches mySeq s (issuer s) s :=
  (Reaches.get s).bind (Reaches.pure _ s)

theorem modRegion_reaches (g : Region → Region) (rid : Nat) (hr : kget s.regions rid = some r) :
    Reaches (modRegion rid g) s () { s with regions := kset s.regions rid (g r) } := by
  refine (Reaches.get s).bind ?_
  simp only [hr]
  exact Reaches.eff _ s

theorem modRegion_none (g : Region → Region) (rid : Nat) (hr : kget s.regions rid = none) : Reaches (modRegion rid g) s () s := by
  refine (Reaches.get s).bind ?_
  simp only [hr]
  exact Reaches.pure () s

theorem modSeq_reaches (g : Sequencer → Sequencer) (s : State) : Reaches (modSeq g) s () (withIssuer s (g (issuer s))) := by
  refine (Reaches.get s).bind ?_
  unfold withIssuer issuer
  by_cases h : s.who = serviceRid
  · rw [if_pos h, if_pos h, if_pos h]
    exact Reaches.eff _ s
  · rw [if_neg h, if_neg h, if_neg h]
    cases hr : kget s.regions s.who with
    | none => exact modRegion_none _ _ hr
    | some r => exact modRegion_reaches _ _ hr

theorem reg_reaches (i : BitVec 5) (s : State) : Reaches (reg i) s (areg s i).toNat s :=
  (mySeq_reaches s).bind (Reaches.pure _ s)

theorem operandB_reaches (f : CmdRec) (s : State) : Reaches (operandB f) s (((areg s f.t).toNat + sext f.imm) % 2 ^ 64) s :=
  (reg_reaches f.t s).bind (Reaches.pure _ s)

theorem setReg_reaches (d : BitVec 5) (v : Nat) (s : State) : Reaches (setReg d v) s () (setA s d (BitVec.ofNat 64 v)) :=
  modSeq_reaches _ s

theorem advance_reaches (s : State) : Reaches advance s () (goOn s) := by
  refine (Reaches.get s).bind ?_
  unfold goOn
  by_cases h : s.who = serviceRid
  · simp only [h, if_true]
    exact modSeq_reaches _ s
  · simp only [h, if_false]
    refine (modSeq_reaches _ s).congr ?_
    unfold Sequencer.onward nextIndex
    rfl

theorem waitHere_reaches (s : State) : Reaches waitHere s () (waits s) := by
  refine (Reaches.get s).bind ?_
  unfold waits withIssuer issuer
  by_cases h : s.who = serviceRid
  · rw [if_pos h, if_pos h, if_pos h]
    exact Reaches.eff _ s
  · rw [if_neg h, if_neg h, if_neg h]
    cases hr : kget s.regions s.who with
    | none => exact modRegion_none _ _ hr
    | some r => exact modRegion_reaches _ _ hr

theorem deliverTraps_reaches (h : trapWaiting s = none) : Reaches deliverTraps s () s :=
  fun _ es hs => ⟨es, deliverTraps_none (l := { cur := s, effs := es }) h, hs⟩

/-! ### A command -/

/-- What follows a command's body. -/
def after (n : Next) (s : State) : State := match n with | .done => goOn s | .wait => waits s | .moved => s

theorem goOn_quiet (h : trapWaiting s = none) : trapWaiting (goOn s) = none := withIssuer_quiet _ h
theorem waits_quiet (h : trapWaiting s = none) : trapWaiting (waits s) = none := withIssuer_quiet _ h
theorem setA_quiet (d : BitVec 5) (v : BitVec 64) (h : trapWaiting s = none) : trapWaiting (setA s d v) = none := withIssuer_quiet _ h

theorem done_tail (ht : trapWaiting t = none) : Reaches (do advance; deliverTraps) t () (goOn t) :=
  (advance_reaches t).bind (deliverTraps_reaches (goOn_quiet ht))
theorem wait_tail (ht : trapWaiting t = none) : Reaches (do waitHere; deliverTraps) t () (waits t) :=
  (waitHere_reaches t).bind (deliverTraps_reaches (waits_quiet ht))

/-- A region's command does what its body does, and then the sequencer goes on, waits, or is where the body put it. -/
theorem command_region {place : Where} {h : Bool} {body : M Next} {n : Next} (hi : RegionIssues s r h) (hp : place ≠ .privileged)
    (hb : Reaches body s n t) (ht : trapWaiting t = none) : runCommand place h body s = .next (after n t) := by
  obtain ⟨hw, hr, _, hh⟩ := hi
  refine Reaches.next ?_ _
  refine (Reaches.get s).bind ?_
  have h1 : (s.who == serviceRid) = false := by simp [hw]
  simp only [h1, hr, hp, Bool.not_false, false_and, if_false, and_false, reduceCtorEq, Bool.false_eq_true]
  cases hq : r.seq.handler.isSome with
  | false => exact hb.bind (by cases n <;> first | exact done_tail ht | exact wait_tail ht | exact deliverTraps_reaches ht)
  | true => rw [hh hq]; exact hb.bind (by cases n <;> first | exact done_tail ht | exact wait_tail ht | exact deliverTraps_reaches ht)

/-- The service sequencer's command. -/
theorem command_service {place : Where} {h : Bool} {body : M Next} {n : Next} (hi : ServiceIssues s) (hp : place ≠ .regionOnly)
    (hb : Reaches body s n t) (ht : trapWaiting t = none) : runCommand place h body s = .next (after n t) := by
  obtain ⟨hw, hr, _⟩ := hi
  refine Reaches.next ?_ _
  refine (Reaches.get s).bind ?_
  have h1 : (s.who == serviceRid) = true := by simp [hw]
  have h2 : kget s.regions s.who = none := by rw [hw]; exact hr
  simp only [h1, h2, hp, Bool.not_true, and_false, if_false, false_and, Bool.false_eq_true]
  exact hb.bind (by cases n <;> first | exact done_tail ht | exact wait_tail ht | exact deliverTraps_reaches ht)

/-- A command that every sequencer has. -/
theorem command_any {body : M Next} {n : Next} (hi : Issues s) (hb : Reaches body s n t) (ht : trapWaiting t = none) :
    runCommand .anywhere true body s = .next (after n t) := by
  rcases hi with ⟨r, h⟩ | h
  · exact command_region h (by simp) hb ht
  · exact command_service h (by simp) hb ht

theorem Issues.quiet (h : Issues s) : trapWaiting s = none := by
  rcases h with ⟨r, h⟩ | h
  · exact h.2.2.1
  · exact h.2.2

/-- A command that only computes a value for aD. -/
theorem command_value {body : M Nat} {v : Nat} {d : BitVec 5} (hi : Issues s) (hb : Reaches body s v s) :
    runCommand .anywhere true (do let v ← body; setReg d v; pure .done) s = .next (goOn (setA s d (BitVec.ofNat 64 v))) :=
  command_any (n := .done) hi (hb.bind ((setReg_reaches d v s).bind (Reaches.pure _ _))) (setA_quiet _ _ hi.quiet)

/-- A command that traps in a region outside its handler: the trap joins the region's own. -/
theorem command_fault {place : Where} {h : Bool} {body : M Next} {e : TrapRec} {u : State} (hi : RegionIssues s r h) (hp : place ≠ .privileged)
    (hb : Raises body s e) (hc : Reaches (commandTrap e) s () u) : runCommand place h body s = .next u := by
  obtain ⟨hw, hr, _, hh⟩ := hi
  refine Raises.next ?_ hc
  refine (Reaches.get s).raises ?_
  have h1 : (s.who == serviceRid) = false := by simp [hw]
  simp only [h1, hr, hp, Bool.not_false, false_and, if_false, and_false, reduceCtorEq, Bool.false_eq_true]
  cases hq : r.seq.handler.isSome with
  | false => simpa using hb.first
  | true => simpa [hh hq] using hb.first

end Sys2Proof.Machine
end

