-- ==== Sys2Proof/Laws/Memory.lean ====
section
/-! SUPPORT. Memory keeps its one form and reads what was last written; sorted lists and maps stay sorted. -/
namespace Sys2Proof.Machine

/-! ### Sorted numbers -/

theorem rising_iff : ∀ l : List Nat, rising l = true ↔ l.Pairwise (· < ·)
  | [] => by simp [rising]
  | [a] => by simp [rising]
  | a :: b :: t => by
    rw [rising, Bool.and_eq_true, rising_iff (b :: t), List.pairwise_cons (a := a)]
    simp only [decide_eq_true_eq]
    constructor
    · rintro ⟨h, k⟩
      refine ⟨fun c hc => ?_, k⟩
      rcases List.mem_cons.mp hc with rfl | hc
      · exact h
      · exact h.trans ((List.pairwise_cons.mp k).1 c hc)
    · rintro ⟨h, k⟩
      exact ⟨h b (by simp), k⟩

theorem rising_filter (p : Nat → Bool) {l : List Nat} (h : rising l = true) : rising (l.filter p) = true :=
  (rising_iff _).mpr (((rising_iff _).mp h).filter p)

theorem mem_addNat {l : List Nat} {k a : Nat} (h : a ∈ addNat l k) : a = k ∨ a ∈ l := by
  induction l with
  | nil => simpa [addNat] using h
  | cons j t ih =>
    simp only [addNat] at h
    split at h
    · simpa using h
    · split at h
      · exact .inr h
      · rcases List.mem_cons.mp h with h | h
        · simp [h]
        · rcases ih h with h | h <;> simp [h]

theorem rising_addNat {l : List Nat} (k : Nat) (h : rising l = true) : rising (addNat l k) = true := by
  rw [rising_iff] at *
  induction l with
  | nil => simp [addNat]
  | cons j t ih =>
    obtain ⟨h1, h2⟩ := List.pairwise_cons.mp h
    simp only [addNat]
    split
    · next hk =>
      refine List.pairwise_cons.mpr ⟨fun c hc => ?_, h⟩
      rcases List.mem_cons.mp hc with rfl | hc
      · exact hk
      · exact hk.trans (h1 c hc)
    · split
      · exact h
      · refine List.pairwise_cons.mpr ⟨fun c hc => ?_, ih h2⟩
        rcases mem_addNat hc with rfl | hc
        · omega
        · exact h1 c hc

theorem rising_kset {α : Type} {m : KMap α} (k : Nat) (v : α) (h : rising (m.map (·.1)) = true) : rising ((kset m k v).map (·.1)) = true := by
  have e : (kset m k v).map (·.1) = addNat (m.map (·.1)) k := by
    clear h
    induction m with
    | nil => rfl
    | cons p t ih =>
      obtain ⟨j, w⟩ := p
      simp only [kset, List.map_cons, addNat]
      split
      · rfl
      · split
        · next h => simp [h]
        · simp [ih]
  rw [e]
  exact rising_addNat k h

theorem rising_kdel {α : Type} {m : KMap α} (k : Nat) (h : rising (m.map (·.1)) = true) : rising ((kdel m k).map (·.1)) = true := by
  rw [rising_iff] at *
  exact (h.sublist ((List.filter_sublist).map _))

/-! ### Memory -/

theorem wf_iff : ∀ m : Memory, Memory.wf m = true ↔ (m.map (·.1)).Pairwise (· < ·) ∧ ∀ c ∈ m, c.2 ≠ unlisted
  | [] => by simp [Memory.wf]
  | [(a, v)] => by simp [Memory.wf]
  | (a, v) :: (b, w) :: t => by
    rw [Memory.wf, Bool.and_eq_true, Bool.and_eq_true, wf_iff ((b, w) :: t), List.map_cons (a := (a, v)), List.pairwise_cons (a := a)]
    simp only [decide_eq_true_eq, bne_iff_ne, ne_eq, List.map_cons, List.mem_cons, forall_eq_or_imp, List.pairwise_cons]
    constructor
    · rintro ⟨⟨h1, h2⟩, ⟨h3, h4⟩, h5, h6⟩
      exact ⟨⟨⟨h2, fun c hc => h2.trans (h3 c hc)⟩, h3, h4⟩, h1, h5, h6⟩
    · rintro ⟨⟨⟨h2, _⟩, h3, h4⟩, h1, h5, h6⟩
      exact ⟨⟨h1, h2⟩, ⟨h3, h4⟩, h5, h6⟩

theorem mem_writeByte {m : Memory} {a : Nat} {v : Byte} {c : Host.Cell} (h : c ∈ writeByte m a v) : (c = (a, v) ∧ v ≠ unlisted) ∨ c ∈ m := by
  induction m with
  | nil =>
    simp only [writeByte] at h
    split at h
    · simp at h
    · next hv => simp at h; exact .inl ⟨h, hv⟩
  | cons p t ih =>
    obtain ⟨b, w⟩ := p
    simp only [writeByte] at h
    split at h
    · split at h
      · exact .inr h
      · next hv =>
        rcases List.mem_cons.mp h with h | h
        · exact .inl ⟨h, hv⟩
        · exact .inr h
    · split at h
      · split at h
        · exact .inr (List.mem_cons_of_mem _ h)
        · next hv =>
          rcases List.mem_cons.mp h with h | h
          · exact .inl ⟨h, hv⟩
          · exact .inr (List.mem_cons_of_mem _ h)
      · rcases List.mem_cons.mp h with h | h
        · exact .inr (by simp [h])
        · rcases ih h with h | h
          · exact .inl h
          · exact .inr (List.mem_cons_of_mem _ h)

/-- A write keeps the one form of memory. -/
theorem writeByte_wf {m : Memory} (a : Nat) (v : Byte) (h : Memory.wf m = true) : Memory.wf (writeByte m a v) = true := by
  rw [wf_iff] at *
  obtain ⟨h1, h2⟩ := h
  refine ⟨?_, fun c hc => ?_⟩
  · clear h2
    induction m with
    | nil => simp only [writeByte]; split <;> simp
    | cons p t ih =>
      obtain ⟨b, w⟩ := p
      rw [List.map_cons, List.pairwise_cons] at h1
      simp only [writeByte]
      split
      · next hk =>
        split
        · simpa using h1
        · simp only [List.map_cons, List.pairwise_cons, List.mem_cons, forall_eq_or_imp]
          exact ⟨⟨hk, fun c hc => hk.trans (h1.1 c hc)⟩, h1⟩
      · split
        · next hk =>
          subst hk
          split
          · exact h1.2
          · simpa using h1
        · next hk1 hk2 =>
          simp only [List.map_cons, List.pairwise_cons]
          refine ⟨fun c hc => ?_, ih h1.2⟩
          obtain ⟨x, hx, rfl⟩ := List.mem_map.mp hc
          rcases mem_writeByte hx with ⟨rfl, _⟩ | hx
          · simp only at *; omega
          · exact h1.1 _ (List.mem_map_of_mem hx)
  · rcases mem_writeByte hc with ⟨rfl, h⟩ | hc
    · exact h
    · exact h2 c hc

/-- Dropping bytes keeps the one form. -/
theorem wf_filter {m : Memory} (p : Host.Cell → Bool) (h : Memory.wf m = true) : Memory.wf (m.filter p) = true := by
  rw [wf_iff] at *
  exact ⟨h.1.sublist ((List.filter_sublist).map _), fun c hc => h.2 c (List.mem_filter.mp hc).1⟩

theorem readByte_below {m : Memory} {a : Nat} (h : ∀ c ∈ m, a ≠ c.1) : readByte m a = unlisted := by
  induction m with
  | nil => rfl
  | cons p t ih =>
    obtain ⟨b, w⟩ := p
    have hb : a ≠ b := h (b, w) (by simp)
    simp only [readByte, hb.symm, if_false]
    exact ih fun c hc => h c (by simp [hc])

/-- A byte reads as what was last written there. -/
theorem readByte_writeByte_self {m : Memory} (a : Nat) (v : Byte) (h : Memory.wf m = true) : readByte (writeByte m a v) a = v := by
  replace h := ((wf_iff m).mp h).1
  induction m with
  | nil => simp only [writeByte]; split <;> simp_all [readByte]
  | cons p t ih =>
    obtain ⟨b, w⟩ := p
    rw [List.map_cons, List.pairwise_cons] at h
    have ht : ∀ c ∈ t, b < c.1 := fun c hc => h.1 _ (List.mem_map_of_mem hc)
    simp only [writeByte]
    split
    · next hk =>
      split
      · next hv =>
        rw [hv]
        refine readByte_below fun c hc => ?_
        rcases List.mem_cons.mp hc with rfl | hc
        · simp only; omega
        · have := ht c hc; omega
      · simp [readByte]
    · split
      · next hk =>
        split
        · next hv =>
          rw [hv]
          exact readByte_below fun c hc => by have := ht c hc; omega
        · simp [readByte]
      · next hk1 hk2 =>
        simp only [readByte, Ne.symm hk2, if_false]
        exact ih h.2

/-- A write leaves every other byte alone. -/
theorem readByte_writeByte_of_ne (m : Memory) {a b : Nat} (v : Byte) (h : b ≠ a) : readByte (writeByte m a v) b = readByte m b := by
  induction m with
  | nil => simp only [writeByte]; split <;> simp [readByte, Ne.symm h]
  | cons p t ih =>
    obtain ⟨c, w⟩ := p
    simp only [writeByte]
    split
    · split
      · rfl
      · simp [readByte, Ne.symm h]
    · split
      · next hk =>
        subst hk
        split <;> simp [readByte, Ne.symm h]
      · simp only [readByte]
        split
        · rfl
        · exact ih

end Sys2Proof.Machine
end

