-- ==== Sys2Proof/Laws/Effects.lean ====
section
/-! SUPPORT. Whatever an instruction does is a list of changes, and every change keeps the invariants. -/
namespace Sys2Proof.Machine

/-- An outcome that is a state reached from `s` by a list of changes. -/
def Lists (s : State) (o : Host.Outcome State Fault Refusal) : Prop := ∃ l, o = .next (applyAll s l)

theorem runM_lists (m : M Unit) (h : TrapRec → M Unit) (s : State) : Lists s (runM m h s) := runM_effects m h s
theorem runE_lists (m : M Unit) (s : State) : Lists s (runE m s) := runM_lists _ _ _
theorem runNode_lists (m : M Unit) (s : State) : Lists s (runNode m s) := runE_lists _ _
theorem runSeq_lists (m : M Unit) (s : State) : Lists s (runSeq m s) := runE_lists _ _
theorem runCommand_lists (p : Where) (h : Bool) (m : M Next) (s : State) : Lists s (runCommand p h m s) := runM_lists _ _ _
theorem runEvent_lists (m : M Unit) (s : State) : Lists s (runEvent m s) := runE_lists _ _

/-- Every instruction's step answers a state that comes from the one before by a list of changes: it neither faults nor refuses. -/
theorem exec_lists (i : Instr) (s : State) : Lists s (exec i s) := by
  cases i
  case pass | const | sink | join | add | sub | mul | mulh | mad | div | rem | min | max | abs | neg | and | or | xor | not | shl | shr |
      sar | rotl | clz | popc | bfx | bfi | sel | cmp | idx | wid | fadd | fsub | fmul | ffma | fmin | fmax | fabs | fneg | fcmp | fcvt |
      itof | ftoi | exp2 | log2 | rcp | rsq | sqrt | sincos | tanh | frnd | fscale | fclass | steer | merge | cmerge | gate | pnot | pand |
      por | pxor | tagnew | tagret | tagset | tagget | count | init | fire | order | done | trapn | ptest | ld | st | ldfeTake | ldfePeek |
      stfe | stfeOvw | amoAdd | amoAnd | amoOr | amoXor | amoMin | amoMax | amoSwap | amoFadd | cas | fence | nrdTake | nrdPeek | nwr |
      nprobe | vmap | vfma | vredSum | vredMax | vredMin | vscanSum | vscanMax | vscanMin | vcmpm | vcompress | vexpand | vtopk | vtopkIdx |
      vsoft | vquant | vdeq | vcvt | vtransp | vslice | vcat | vhdr | vhdrSet | vbcast | vmaskKeep | vmaskCausal | vmaskLength | mxrow |
      mxdrain | mxsteer | score | pair | acc | norm | rope =>
    exact runNode_lists _ _
  case jmp | br | call | ret | li | lih | mov | addCmd | subCmd | mulCmd | andCmd | orCmd | xorCmd | shlCmd | shrCmd | sarCmd | cmpCmd |
      minCmd | maxCmd | lds | sts | mfs | mts | wait | sig | time | timeCyc | perf | fuse | split | cfgLoad | cfgRun | cfgNext | launch |
      circ | quiesce | quiesceProbe | ctxSave | ctxLoad | ctxSwap | bufMap | bufUnmap | cap | strmDef | strmDim | strmGo | strmBar | strmEnd
      | rsv | samp | fenceCmd | flush | inv | feFill | feEmpty | pref | fold | foldchk | refold | nstat | ndrop | nseed | copy | copySh |
      publ | mcast | ringOpen | ringPut | ringTake | collSum | collMax | collMin | collRs | collAg | collBc | ewait | ecancel | claim |
      release | opld | mxCfg | mxRoute | mxGo | mxStop | galOpen | galClose | galAppend | splice | galCut | prov | provRev | repair |
      repairWait | deltaBind | deltaRun | deltaRef | deltaInv | deltaStat | trap | tretRetry | sysc | hcall | hcallTake | hcallArg |
      hcallRet | freeze | thaw | snap | wingDef | wingDefRel | wingRoute | vfBind | vfBindRel | scrub | audit | nop | halt | next | cfgSeal
      | tretPoison | tretDiscard | tretAbort =>
    exact runCommand_lists _ _ _ _
  case passQ | constQ | addQ | subQ | mulQ | mulhQ | madQ | divQ | remQ | minQ | maxQ | absQ | negQ | andQ | orQ | xorQ | notQ | shlQ | shrQ
      | sarQ | rotlQ | clzQ | popcQ | bfxQ | bfiQ | selQ | cmpQ | idxQ | widQ | faddQ | fsubQ | fmulQ | ffmaQ | fminQ | fmaxQ | fabsQ |
      fnegQ | fcmpQ | fcvtQ | itofQ | ftoiQ | exp2Q | log2Q | rcpQ | rsqQ | sqrtQ | sincosQ | tanhQ | frndQ | fscaleQ | fclassQ | pnotQ |
      pandQ | porQ | pxorQ | emit | emitp =>
    exact runSeq_lists _ _
  case fralloc | frfree | go | tinv | translationInvalidationDone | registerWrite | rescrubClear | errptrConsumerWrite |
      registrarConsumerAdvance | registrarExport | powerGood | lifeCycleTransition | attestationReport | hallTemperatureReading |
      thermalHold | thermalHoldEnd | hbmThrottle | hbmThrottleEnd | thermtrip | dvfsWindowEnd | clockStepEnd | sliceEnd | sliceWallCap |
      quiescenceScan | silenceExpiry | memoryWaitExpiry | sequencerWaitExpiry | snapshotTimeout | swapWaitExpiry | cellIssue | tokenArrival
      | overflowReinject | meshPacketArrival | handoverAck | bufferPlaceFree | counterStep | threadAdmit | configLoadEnd | runComplete |
      blockSchedulerDecision | invocationCommit | memoryAccessComplete | translationWalkComplete | wayChangeWalkEnd | bisnpinv | bisnpdata |
      bisnpcur | streamAccess | streamBarrierLift | streamDrained | galleryBlockRead | galleryReadAtLink | limitShiftWave | repairLayerDone
      | repairCopyDone | repairCancel | deltaRunEnd | engineCommandComplete | engineCommandFault | ringSlotFilled | ringCreditReturn |
      ringBreak | markerArrival | contextScrubComplete | frameScrubStart | frameScrubDone | selfTestEnd | annexPortLost |
      annexRequestTimeout | annexPortRetrain | xipexFlitReceive | xipexCrcError | xipexLinkDown | hostLinkError | hostCompletionTimeout |
      functionLevelReset | pfReset | routeTableError | hostCxlMemAccess | slotZeroingEnd | hostLinkUp | xipexRetrainEnd | keyLoaded =>
    exact runEvent_lists _ _

theorem chained_append (r : Registrar) (b : BitVec 384) : ∀ (l : List RegEntry) (p : BitVec 384), chained p l →
    chained p (l ++ [{ chain := Config.sha384 (bytes384 ((l.getLast?.map RegEntry.chain).getD p) ++ bytes384 b), body := b }])
  | [], p, _ => ⟨rfl, trivial⟩
  | [e], p, h => ⟨h.1, rfl, trivial⟩
  | e :: f :: t, p, h => ⟨h.1, by
      have e1 : ((e :: f :: t).getLast?.map RegEntry.chain).getD p = ((f :: t).getLast?.map RegEntry.chain).getD e.chain := by
        rw [List.getLast?_cons_cons, List.getLast?_cons]; rfl
      rw [e1]
      exact chained_append r b (f :: t) e.chain h.2⟩

theorem foldl_keeps {α β : Type} (P : β → Prop) {g : β → α → β} (h : ∀ b a, P b → P (g b a)) : ∀ (l : List α) (b : β), P b → P (l.foldl g b)
  | [], _, hb => hb
  | a :: l, b, hb => foldl_keeps P h l _ (h b a hb)

/-- A change keeps the invariants. -/
theorem Effect.apply_inv (e : Effect) {s : State} (h : Inv s) : Inv (e.apply s) := by
  obtain ⟨h1, h2, h3, h4, h5, h6, h7, h8, h9⟩ := h
  cases e with
  | byte a v => exact ⟨writeByte_wf a v h1, h2, h3, h4, h5, h6, h7, h8, h9⟩
  | granule g f => cases f <;> exact ⟨h1, by first | exact rising_addNat g h2 | exact rising_filter _ h2, h3, h4, h5, h6, h7, h8, h9⟩
  | mark l on => cases on <;> exact ⟨h1, h2, by first | exact rising_addNat l h3 | exact rising_filter _ h3, h4, h5, h6, h7, h8, h9⟩
  | region k r => cases r <;> exact ⟨h1, h2, h3, by first | exact rising_kset _ _ h4 | exact rising_kdel _ h4, h5, h6, h7, h8, h9⟩
  | wing k w => cases w <;> exact ⟨h1, h2, h3, h4, by first | exact rising_kset _ _ h5 | exact rising_kdel _ h5, h6, h7, h8, h9⟩
  | vf k v => exact ⟨h1, h2, h3, h4, h5, rising_kset _ _ h6, h7, h8, h9⟩
  | chan k c => cases c <;> exact ⟨h1, h2, h3, h4, h5, h6, by first | exact rising_kset _ _ h7 | exact rising_kdel _ h7, h8, h9⟩
  | hall k v => exact ⟨h1, h2, h3, h4, h5, h6, h7, by simpa using h8, h9⟩
  | entry b => exact ⟨h1, h2, h3, h4, h5, h6, h7, h8, chained_append s.pkg.registrar b _ _ h9⟩
  | epoch => exact ⟨h1, h2, h3, h4, h5, h6, h7, h8, by rw [apply_epoch]; simpa using h9⟩
  | clear lo n => exact ⟨wf_filter _ h1, rising_filter _ h2, rising_filter _ h3, h4, h5, h6, h7, h8, h9⟩
  | remap k src =>
    refine ⟨?_, ?_, ?_, h4, h5, h6, h7, h8, h9⟩
    · exact foldl_keeps (fun m => Memory.wf m = true) (fun m c hm => foldl_keeps (fun m => Memory.wf m = true) (fun m a hm => writeByte_wf a c.2 hm) _ m hm) _ _ (wf_filter _ h1)
    · exact foldl_keeps (fun l => rising l = true) (fun l g hl => foldl_keeps (fun l => rising l = true) (fun l a hl => rising_addNat _ hl) _ l hl) _ _ (rising_filter _ h2)
    · exact foldl_keeps (fun l => rising l = true) (fun l g hl => foldl_keeps (fun l => rising l = true) (fun l a hl => rising_addNat _ hl) _ l hl) _ _ (rising_filter _ h3)
  | wipe => exact ⟨rfl, rfl, rfl, h4, h5, h6, h7, h8, h9⟩
  | power p => exact ⟨rfl, rfl, rfl, rfl, rfl, rfl, rfl, rfl, h9⟩
  | _ => exact ⟨h1, h2, h3, h4, h5, h6, h7, h8, h9⟩

/-- A list of changes keeps the invariants. -/
theorem applyAll_inv {s : State} (h : Inv s) : ∀ l : List Effect, Inv (applyAll s l)
  | [] => h
  | e :: l => e.apply_inv (applyAll_inv h l)

/-! ### The life cycle and the registrar only grow (R219, R220) -/

theorem next_rank (l : LifeCycle) : l.rank ≤ l.next.rank := by cases l <;> decide

theorem Effect.apply_rank (e : Effect) (s : State) : s.pkg.life.rank ≤ (e.apply s).pkg.life.rank := by
  cases e with
  | region k r => cases r <;> exact Nat.le_refl _
  | wing k r => cases r <;> exact Nat.le_refl _
  | chan k r => cases r <;> exact Nat.le_refl _
  | lifeNext => exact next_rank s.pkg.life
  | _ => exact Nat.le_refl _

theorem Effect.apply_entries (e : Effect) (s : State) : s.pkg.registrar.entries <+: (e.apply s).pkg.registrar.entries := by
  cases e with
  | region k r => cases r <;> exact List.prefix_rfl
  | wing k r => cases r <;> exact List.prefix_rfl
  | chan k r => cases r <;> exact List.prefix_rfl
  | entry b => exact List.prefix_append _ _
  | epoch => rw [apply_epoch]; simp
  | _ => exact List.prefix_rfl

theorem applyAll_rank (s : State) : ∀ l : List Effect, s.pkg.life.rank ≤ (applyAll s l).pkg.life.rank
  | [] => Nat.le_refl _
  | e :: l => (applyAll_rank s l).trans (e.apply_rank _)

theorem applyAll_entries (s : State) : ∀ l : List Effect, s.pkg.registrar.entries <+: (applyAll s l).pkg.registrar.entries
  | [] => List.prefix_rfl
  | e :: l => (applyAll_entries s l).trans (e.apply_entries _)

end Sys2Proof.Machine
end

