-- ==== Sys2Proof/Laws/Nodes.lean ====
section
/-! SUPPORT. What a node's firing can do: tokens sent, lanes in order, and the frame of a node's step. -/
namespace Sys2Proof.Machine

variable {s t u : State} {r : Region}

/-! ### What sending leaves alone -/

/-- A region without the parts that tokens change. -/
def Region.core (r : Region) : Region := { r with silence := 0, queues := [], frames := [], ready := [], streams := [] }

/-- Every region is there as before, but for the parts that tokens change, and no trap has been raised. -/
def Kin (s t : State) : Prop :=
  (∀ k : Nat, (kget t.regions k).map Region.core = (kget s.regions k).map Region.core) ∧ (trapWaiting s = none → trapWaiting t = none)

theorem Kin.refl (s : State) : Kin s s := ⟨fun _ => rfl, id⟩
theorem Kin.trans (h : Kin s t) (k : Kin t u) : Kin s u := ⟨fun j => (k.1 j).trans (h.1 j), fun q => k.2 (h.2 q)⟩
theorem Kin.of_regions (h : t.regions = s.regions) : Kin s t := ⟨fun k => by rw [h], fun q => by unfold trapWaiting at *; rwa [h]⟩

theorem core_trap {r r' : Region} (h : r'.core = r.core) : r'.trap = r.trap := (congrArg Region.trap h :)
theorem core_traps {r r' : Region} (h : r'.core = r.core) : r'.traps = r.traps := (congrArg Region.traps h :)
theorem core_state {r r' : Region} (h : r'.core = r.core) : r'.state = r.state := (congrArg Region.state h :)
theorem core_saved {r r' : Region} (h : r'.core = r.core) : r'.saved = r.saved := (congrArg Region.saved h :)
theorem core_sys {r r' : Region} (h : r'.core = r.core) : r'.sys = r.sys := (congrArg Region.sys h :)
theorem core_header {r r' : Region} (h : r'.core = r.core) : r'.header = r.header := (congrArg Region.header h :)
theorem core_active {r r' : Region} (h : r'.core = r.core) : r'.active = r.active := (congrArg Region.active h :)
theorem core_hall {r r' : Region} (h : r'.core = r.core) : r'.hall = r.hall := (congrArg Region.hall h :)

theorem Kin.region {k : Nat} {r r' : Region} (hr : kget s.regions k = some r) (ht : t.regions = kset s.regions k r') (h : r'.core = r.core) : Kin s t := by
  constructor
  · intro j
    rw [ht, kget_kset]
    split
    · next e => subst e; simp [hr, h]
    · rfl
  · intro q
    exact trapWaiting_kset q hr (core_trap h) (core_traps h) (core_state h) (core_saved h) t ht

theorem Kin.get (h : Kin s t) {k : Nat} (hr : kget s.regions k = some r) : ∃ r', kget t.regions k = some r' ∧ r'.core = r.core := by
  have := h.1 k
  rw [hr] at this
  cases hk : kget t.regions k with
  | none => simp [hk] at this
  | some r' => simp [hk] at this; exact ⟨r', rfl, this⟩

/-! ### Sending -/

theorem sendEdge_reaches (t : Token) (e : Edge) (s : State) : Reaches (sendEdge t e) s () (sentOn t s e) :=
  (Reaches.get s).bind (Reaches.eff _ s)

theorem sentOn_kin (t : Token) (s : State) (e : Edge) : Kin s (sentOn t s e) := Kin.of_regions rfl

theorem stir_reaches (rid : Nat) (s : State) : Reaches (stir rid) s () (stirred rid s) := by
  refine (Reaches.get s).bind ?_
  unfold stirred
  cases hr : kget s.regions rid with
  | none => exact modRegion_none _ _ hr
  | some r => exact modRegion_reaches _ _ hr

theorem stirred_kin (rid : Nat) (s : State) : Kin s (stirred rid s) := by
  unfold stirred
  split
  · next r hr => exact Kin.region hr rfl rfl
  · exact Kin.refl s

theorem foldl_kin {α : Type} (g : State → α → State) (h : ∀ s a, Kin s (g s a)) : ∀ (l : List α) (s : State), Kin s (l.foldl g s)
  | [], s => Kin.refl s
  | a :: l, s => (h s a).trans (foldl_kin g h l _)

theorem emitTo_reaches (rid cell : Nat) (d : Dest) (t : Token) (s : State) : Reaches (emitTo rid cell d t) s () (emitted rid cell d t s) := by
  refine (Reaches.get s).bind ?_
  unfold emitted
  cases hr : kget s.regions rid with
  | none => exact Reaches.pure () s
  | some r =>
    refine Reaches.bind (a := ()) (t := (destEdges s rid r cell d t.tag).foldl (sentOn t) s) ?_ (stir_reaches rid _)
    exact Reaches.each_fold (fun _ => True) _ s trivial (fun u e _ _ => ⟨sendEdge_reaches t e u, trivial⟩)

theorem emitted_kin (rid cell : Nat) (d : Dest) (t : Token) (s : State) : Kin s (emitted rid cell d t s) := by
  unfold emitted
  split
  · exact (foldl_kin _ (sentOn_kin t) _ s).trans (stirred_kin rid _)
  · exact Kin.refl s

/-- An action that always ends, and leaves regions alone but for what tokens change. -/
def Mild (m : M Unit) : Prop := ∀ s, ∃ t, Reaches m s () t ∧ Kin s t

theorem Mild.pure : Mild (pure ()) := fun s => ⟨s, Reaches.pure () s, Kin.refl s⟩
theorem Mild.get {f : State → M Unit} (h : ∀ s, ∃ t, Reaches (f s) s () t ∧ Kin s t) : Mild (get' >>= f) := fun s => by
  obtain ⟨t, h1, h2⟩ := h s
  exact ⟨t, (Reaches.get s).bind h1, h2⟩
theorem Mild.eff {e : Effect} (h : ∀ s, Kin s (e.apply s)) : Mild (eff e) := fun s => ⟨_, Reaches.eff e s, h s⟩
theorem Mild.each {α : Type} {f : α → M Unit} (h : ∀ a, Mild (f a)) : ∀ l, Mild (each l f)
  | [] => Mild.pure
  | a :: l => fun s => by
    obtain ⟨t, h1, h2⟩ := h a s
    obtain ⟨u, h3, h4⟩ := Mild.each h l t
    exact ⟨u, h1.each_cons h3, h2.trans h4⟩

theorem chan_kin (k : Nat) (c : Chan) (s : State) : Kin s ((Effect.chan k (some c)).apply s) := Kin.of_regions rfl

theorem sendEdge_mild (t : Token) (e : Edge) : Mild (sendEdge t e) := fun s => ⟨_, sendEdge_reaches t e s, sentOn_kin t s e⟩

theorem modRegion_mild {g : Region → Region} (h : ∀ r, (g r).core = r.core) (rid : Nat) : Mild (modRegion rid g) := fun s => by
  cases hr : kget s.regions rid with
  | none => exact ⟨s, modRegion_none _ _ hr, Kin.refl s⟩
  | some r => exact ⟨_, modRegion_reaches _ _ hr, Kin.region hr rfl (h r)⟩

theorem setRegion_mild {k : Nat} {r r' : Region} {s : State} (hr : kget s.regions k = some r) (h : r'.core = r.core) :
    ∃ t, Reaches (eff (.region k (some r'))) s () t ∧ Kin s t := ⟨_, Reaches.eff _ s, Kin.region hr rfl h⟩

/-- An action that always ends with an answer, and leaves regions alone but for what tokens change. -/
def MildAnswer {α : Type} (m : M α) : Prop := ∀ s, ∃ a t, Reaches m s a t ∧ Kin s t

theorem MildAnswer.pure {α : Type} (a : α) : MildAnswer (pure a : M α) := fun s => ⟨a, s, Reaches.pure a s, Kin.refl s⟩
theorem Mild.answer {α : Type} {m : M Unit} (h : Mild m) (a : α) : MildAnswer (m >>= fun _ => (Pure.pure a : M α)) := fun s => by
  obtain ⟨t, h1, h2⟩ := h s
  exact ⟨a, t, h1.bind (Reaches.pure a t), h2⟩

theorem modHall_mild (h : Nat) (g : Hall → Hall) : Mild (modHall h g) := fun s => ⟨_, (Reaches.get s).bind (Reaches.eff _ s), Kin.of_regions rfl⟩

/-- A pending poison that has left its channel is replaced, or is not there. -/
theorem replaceAt_mild (c : Chan) (t : Token) : MildAnswer (replaceAt c t) := by
  intro s
  suffices h : ∃ a u, Reaches (replaceAt c t) s a u ∧ Kin s u from h
  unfold replaceAt
  have hg : ∀ {f : State → M Bool}, (∃ a u, Reaches (f s) s a u ∧ Kin s u) → ∃ a u, Reaches (get' >>= f) s a u ∧ Kin s u :=
    fun ⟨a, u, h1, h2⟩ => ⟨a, u, (Reaches.get s).bind h1, h2⟩
  refine hg ?_
  split
  · split
    · split
      · refine (modRegion_mild ?_ _).answer true s
        intro; rfl
      · exact MildAnswer.pure _ s
    · exact MildAnswer.pure _ s
  · split
    · exact MildAnswer.pure _ s
    · split
      · refine (modRegion_mild ?_ _).answer true s
        intro; rfl
      · exact MildAnswer.pure _ s
  · split
    · exact MildAnswer.pure _ s
    · next rid r hx =>
      split
      · obtain ⟨k, hk, hm⟩ := Option.bind_eq_some_iff.mp hx
        obtain ⟨x, hx1, hx2⟩ := Option.map_eq_some_iff.mp hm
        cases hx2
        exact ⟨true, _, (Reaches.eff _ s).bind (Reaches.pure _ _), Kin.region hx1 rfl rfl⟩
      · split
        · exact (modHall_mild _ _).answer true s
        · exact MildAnswer.pure _ s

/-- A late token ends in the place of its pending poison, or on its way as any token. -/
theorem replacePending_mild (rid cell : Nat) (d : Dest) (t : Token) : Mild (replacePending rid cell d t) := by
  refine Mild.get fun s => ?_
  cases kget s.regions rid with
  | none => exact Mild.pure s
  | some r =>
    refine Mild.each (fun e => Mild.get fun s => ?_) _ s
    dsimp only
    obtain ⟨b, u, h1, h2⟩ := replaceAt_mild (edgeChan s e) t s
    have hu : ∀ {m : M Unit}, (∃ v, Reaches m u () v ∧ Kin u v) → ∃ v, Reaches (do let _ ← replaceAt (edgeChan s e) t; m) s () v ∧ Kin s v :=
      fun ⟨v, h3, h4⟩ => ⟨v, h1.bind h3, h2.trans h4⟩
    cases b with
    | true => exact ⟨u, h1.bind (Reaches.pure () u), h2⟩
    | false =>
      have : ∃ v, Reaches (match swapPending t (edgeChan s e).queue with
          | some q => eff (.chan e.key (some { edgeChan s e with queue := q }))
          | none =>
          match swapPacket t (edgeChan s e).flight with
          | some q => eff (.chan e.key (some { edgeChan s e with flight := q }))
          | none => sendEdge t e) u () v ∧ Kin u v := by
        split
        · exact ⟨_, Reaches.eff _ u, chan_kin _ _ u⟩
        · split
          · exact ⟨_, Reaches.eff _ u, chan_kin _ _ u⟩
          · exact sendEdge_mild t e u
      obtain ⟨v, h3, h4⟩ := this
      exact ⟨v, h1.bind h3, h2.trans h4⟩

theorem delivered_reaches (x : Issue) (d : Dest) (t : Token) (s : State) : Reaches (sendLane x d t) s () (delivered x d t s) := by
  unfold sendLane delivered
  split
  · obtain ⟨u, h, _⟩ := replacePending_mild x.rid x.cell d t s
    exact h.congr h.leaves.symm
  · exact emitTo_reaches _ _ _ _ _

theorem delivered_kin (x : Issue) (d : Dest) (t : Token) (s : State) : Kin s (delivered x d t s) := by
  unfold delivered
  split
  · obtain ⟨u, h, k⟩ := replacePending_mild x.rid x.cell d t s
    rw [h.leaves]; exact k
  · exact emitted_kin _ _ _ _ _

theorem laneSent_kin (f : NodeRec) (x : Issue) (l : Lane) (out : Option Token × Option Token) (s : State) : Kin s (laneSent f x l out s) := by
  obtain ⟨a, b⟩ := out
  cases a <;> cases b <;> simp only [laneSent]
  · exact Kin.refl s
  · exact delivered_kin _ _ _ _
  · exact delivered_kin _ _ _ _
  · exact (delivered_kin _ _ _ _).trans (delivered_kin _ _ _ _)

/-- A lane that emits sends its results and raises nothing. -/
theorem laneOut_emit (x : Issue) (f : NodeRec) (n : Nat) (l : Lane) (a b : Option Token) (s : State) :
    Reaches (laneOut x f n l (.emit a b)) s none (laneSent f x l (a, b) s) := by
  refine (Reaches.get s).bind ?_
  cases a <;> cases b <;> simp only [laneSent]
  · exact (Reaches.pure () s).bind ((Reaches.pure () s).bind (Reaches.pure _ s))
  · exact (Reaches.pure () s).bind ((delivered_reaches _ _ _ _).bind (Reaches.pure _ _))
  · exact (delivered_reaches _ _ _ _).bind ((Reaches.pure () _).bind (Reaches.pure _ _))
  · exact (delivered_reaches _ _ _ _).bind ((delivered_reaches _ _ _ _).bind (Reaches.pure _ _))

/-! ### Lanes -/

/-- A loop of which no round answers anything. -/
theorem collect_none {α β : Type} {f : α → M (Option β)} {h : α → State → State} (P : State → Prop) :
    ∀ (l : List α) (s : State), P s → (∀ a ∈ l, ∀ u, P u → Reaches (f a) u none (h a u) ∧ P (h a u)) →
      Reaches (collect l f) s (l.map fun _ => none) (l.foldl (fun u a => h a u) s)
  | [], s, _, _ => Reaches.collect_nil f s
  | a :: l, s, hs, hf =>
    (hf a (by simp) s hs).1.collect_cons (collect_none P l _ (hf a (by simp) s hs).2 fun b hb => hf b (by simp [hb]))

theorem foldl_zipIdx {α β : Type} (k : α → β → β) : ∀ (l : List α) (n : Nat) (s : β),
    (l.zipIdx n).foldl (fun u p => k p.1 u) s = l.foldl (fun u a => k a u) s
  | [], _, _ => rfl
  | a :: l, n, s => by simp [foldl_zipIdx k l]

theorem myIssue_reaches {x : Issue} (hx : s.issue = some x) (hr : kget s.regions x.rid = some r) : Reaches myIssue s (some (x, r)) s := by
  refine (Reaches.get s).bind ?_
  simp only [hx, hr]
  exact Reaches.pure _ s

/-- The lanes of an issue of which none traps: each that fires does its work and sends its results, each that holds final poison sends
that. -/
theorem lanes_reaches {f : NodeRec} {body : Issue → Region → Lane → M LaneOut} {x : Issue} (hf : Fires s x r)
    (g : Lane → State → State) (out : Lane → State → Option Token × Option Token) (P : State → Prop) (hs : P s)
    (hb : ∀ u l, l ∈ x.lanes → firing f l = true → P u →
      ∃ r, kget u.regions x.rid = some r ∧ Reaches (body x r l) u (.emit (out l u).1 (out l u).2) (g l u))
    (hp : ∀ u l, l ∈ x.lanes → P u → P (laneSent f x l (laneTokens f l (out l u)) (if firing f l then g l u else u))) :
    Reaches (lanesM f .both body) s ()
      (x.lanes.foldl (fun u l => laneSent f x l (laneTokens f l (out l u)) (if firing f l then g l u else u)) s) := by
  refine (myIssue_reaches hf.1 hf.2.1).bind ?_
  dsimp only
  let step : Lane → State → State := fun l u => laneSent f x l (laneTokens f l (out l u)) (if firing f l then g l u else u)
  refine ((collect_none (h := fun p u => step p.1 u) P x.lanes.zipIdx s hs ?_).bind ?_).congr (foldl_zipIdx step x.lanes 0 s)
  · intro p hpm u hu
    have hl : p.1 ∈ x.lanes := by
      obtain ⟨l, n⟩ := p
      exact (List.mem_zipIdx hpm).2.2 ▸ List.getElem_mem _
    refine ⟨?_, hp u p.1 hl hu⟩
    simp only [reduceCtorEq, if_false]
    cases hq : firstPoison p.1 with
    | some t =>
      refine (Reaches.get u).bind ?_
      have e : step p.1 u = delivered x f.db (({ t with tag := p.1.tag, packet := [] } : Token).after u p.1.past)
          (delivered x f.da (({ t with tag := p.1.tag, packet := [] } : Token).after u p.1.past) u) := by
        simp only [step, laneTokens, hq, firing, laneSent, Option.isNone_some, Bool.false_and, Bool.false_eq_true, if_false]
      rw [e]
      exact Reaches.bind ((delivered_reaches _ _ _ _).bind (delivered_reaches _ _ _ _)) ((Reaches.pure () _).bind (Reaches.pure _ _))
    | none =>
      by_cases hg : gateOpen f p.1 = true
      · have hfi : firing f p.1 = true := by simp [firing, hq, hg]
        obtain ⟨r', h1, h2⟩ := hb u p.1 hl hfi hu
        simp only [hg, Bool.true_or, if_true]
        refine (Reaches.get u).bind ?_
        simp only [h1]
        have e : step p.1 u = laneSent f x p.1 (out p.1 u) (g p.1 u) := by simp [step, laneTokens, hq, hg, hfi]
        rw [e]
        exact h2.bind (laneOut_emit x f p.2 p.1 _ _ _)
      · have e : step p.1 u = u := by simp [step, laneTokens, hq, hg, firing, laneSent]
        rw [e]
        simp only [hg, Option.isSome_none, Bool.and_false, Bool.or_false, Bool.false_eq_true, if_false]
        exact Reaches.pure _ u
  · have hn : (x.lanes.zipIdx.map fun _ => (none : Option (Nat × Lane × TrapRec))).filterMap id = [] := by
      simp [List.filterMap_map]
    rw [hn]
    exact Reaches.pure () _

/-- Lanes whose results depend on the lane and on the parts of the region that tokens leave alone. -/
theorem lanes_emit {f : NodeRec} {body : Issue → Region → Lane → M LaneOut} {x : Issue}
    (hf : Fires s x r) (out : Lane → Option Token × Option Token)
    (hb : ∀ u r' l, l ∈ x.lanes → firing f l = true → r'.core = r.core → Reaches (body x r' l) u (.emit (out l).1 (out l).2) u) :
    Reaches (lanesM f .both body) s () (x.lanes.foldl (fun u l => laneSent f x l (lanewise f out l) u) s) := by
  refine (lanes_reaches hf (fun _ u => u) (fun l _ => out l) (Kin s) (Kin.refl s) ?_ ?_).congr ?_
  · intro u l hl hfi hu
    obtain ⟨r', h1, h2⟩ := hu.get hf.2.1
    exact ⟨r', h1, hb u r' l hl hfi h2⟩
  · intro u l _ hu
    simp only [ite_self]
    exact hu.trans (laneSent_kin f x l _ u)
  · simp only [ite_self]
    rfl

/-- A node's step: what its body reaches, with the issue over. -/
theorem node_next {m : M Unit} (h : Reaches m s () t) (ht : trapWaiting t = none) : runNode m s = .next { t with issue := none } := by
  unfold runNode runE
  refine Reaches.next ?_ _
  exact h.bind ((Reaches.eff (.issue none) t).bind (deliverTraps_reaches (s := { t with issue := none }) ht))

/-- A node whose lanes only send: its step sends their results in order. -/
theorem node_emit {f : NodeRec} {body : Issue → Region → Lane → M LaneOut} {x : Issue}
    (hf : Fires s x r) (out : Lane → Option Token × Option Token)
    (hb : ∀ u r' l, l ∈ x.lanes → firing f l = true → r'.core = r.core → Reaches (body x r' l) u (.emit (out l).1 (out l).2) u) :
    runNode (lanesM f .both body) s = .next (lanesSent f x (lanewise f out) s) :=
  node_next (lanes_emit hf out hb)
    ((foldl_kin (fun u l => laneSent f x l (lanewise f out l) u) (fun u l => laneSent_kin f x l _ u) x.lanes s).2 hf.2.2)

/-- A node that computes a value of each lane: where no condition stops it, both destinations get the results. -/
theorem valueNode_next {f : NodeRec} {g : Nat → Lane → LaneOut × Conds} {x : Issue} (hf : Fires s x r)
    (out : Lane → Option Token × Option Token)
    (hg : ∀ l ∈ x.lanes, firing f l = true → (g (mdOf x f) l).1 = .emit (out l).1 (out l).2 ∧ fate r.sys.trapEn (g (mdOf x f) l).2 = .stands) :
    runNode (valueNode f g) s = .next (lanesSent f x (lanewise f out) s) :=
  node_emit hf out fun u r' l hl hfi hk => by
    obtain ⟨h1, h2⟩ := hg l hl hfi
    simp only [judge, core_sys hk, h2, h1]
    exact Reaches.pure _ u

/-- A node of one result. -/
theorem pureNode_next {f : NodeRec} {g : Nat → (Nat → BitVec 32) → BitVec 32 × Conds} {x : Issue} (hf : Fires s x r)
    (hg : ∀ l ∈ x.lanes, firing f l = true → fate r.sys.trapEn (g (mdOf x f) (opv f l)).2 = .stands) :
    runNode (pureNode f g) s = .next (lanesSent f x (lanewise f (sameOnBoth (fun l => (g (mdOf x f) (opv f l)).1))) s) :=
  valueNode_next hf _ fun l hl hfi => ⟨rfl, hg l hl hfi⟩

end Sys2Proof.Machine
end

