-- ==== Sys2Proof/Laws/PerInstr.lean ====
section
/-! SUPPORT. The law of the opcode tables, one lemma per instruction: the row that a record's opcode names is the row whose opcode it has, so
that the decoder's tables (R241 to R243) and the rows' rules agree. -/
namespace Sys2Proof.Laws.OpcodeTable
open Sys2Proof Sys2Proof.Machine

/-- The opcode of a row's rule, with the row's well-formed fields, names the row. -/
def Statement (i : Instr) : Prop :=
  (∀ p, nodeRule i = some p → i.wf = true → nodeOf p.2.op p.1 = some i) ∧ (∀ p, seqRule i = some p → seqOf p.op = some i) ∧
  (∀ p, cmdRule i = some p → i.wf = true → cmdOf p.2.op p.1 = some i)

theorem ofNode {i : Instr} {p : NodeRec × NodeRule} (h : nodeRule i = some p) (hs : seqRule i = none) (hc : cmdRule i = none)
    (k : i.wf = true → nodeOf p.2.op p.1 = some i) : Statement i :=
  ⟨fun q hq w => (by rw [h] at hq; cases hq; exact k w), fun q hq => (by rw [hs] at hq; cases hq), fun q hq => (by rw [hc] at hq; cases hq)⟩

theorem ofSeq {i : Instr} {p : SeqRule} (h : seqRule i = some p) (hn : nodeRule i = none) (hc : cmdRule i = none)
    (k : seqOf p.op = some i) : Statement i :=
  ⟨fun q hq => (by rw [hn] at hq; cases hq), fun q hq => (by rw [h] at hq; cases hq; exact k), fun q hq => (by rw [hc] at hq; cases hq)⟩

theorem ofCmd {i : Instr} {p : CmdRec × CmdRule} (h : cmdRule i = some p) (hn : nodeRule i = none) (hs : seqRule i = none)
    (k : i.wf = true → cmdOf p.2.op p.1 = some i) : Statement i :=
  ⟨fun q hq => (by rw [hn] at hq; cases hq), fun q hq => (by rw [hs] at hq; cases hq), fun q hq w => (by rw [h] at hq; cases hq; exact k w)⟩

theorem ofEvent {i : Instr} (hn : nodeRule i = none) (hs : seqRule i = none) (hc : cmdRule i = none) : Statement i :=
  ⟨fun q hq => (by rw [hn] at hq; cases hq), fun q hq => (by rw [hs] at hq; cases hq), fun q hq => (by rw [hc] at hq; cases hq)⟩

/-- A well-formed node's selecting bits are its row's. -/
theorem node_sel {i : Instr} {p : NodeRec × NodeRule} (h : nodeRule i = some p) (w : i.wf = true) :
    (p.1.ax.toNat &&& p.2.axSel.1) = p.2.axSel.2 ∧ (p.1.ex.toNat &&& p.2.exSel.1) = p.2.exSel.2 := by
  simp only [Instr.wf, admits, h, nodeAdmits, Bool.and_eq_true, beq_iff_eq] at w
  tauto

/-- A well-formed command's selecting bits are its row's. -/
theorem cmd_sel {i : Instr} {p : CmdRec × CmdRule} (h : cmdRule i = some p) (hn : nodeRule i = none) (hs : seqRule i = none) (w : i.wf = true) :
    (p.1.ext.toNat &&& p.2.extSel.1) = p.2.extSel.2 ∧ (p.1.imm.toNat &&& p.2.immSel.1) = p.2.immSel.2 ∧
      (p.1.md.toNat &&& p.2.mdSel.1) = p.2.mdSel.2 := by
  simp only [Instr.wf, admits, h, hn, hs, cmdAdmits, Bool.and_eq_true, beq_iff_eq] at w
  tauto

/-- The rows that share an opcode with ldfeTake. -/
theorem shared_ldfeTake : (∀ f : NodeRec, Statement (.ldfeTake f)) ∧ (∀ f : NodeRec, Statement (.ldfePeek f)) := by
  refine ⟨?_, ?_⟩
  · intro f; exact ofNode rfl rfl rfl (fun w => by obtain ⟨h1, h2⟩ := node_sel (i := .ldfeTake f) rfl w; simp only at h1 h2; simp [nodeOf, h1, h2])
  · intro f; exact ofNode rfl rfl rfl (fun w => by obtain ⟨h1, h2⟩ := node_sel (i := .ldfePeek f) rfl w; simp only at h1 h2; simp [nodeOf, h1, h2])

/-- The rows that share an opcode with stfe. -/
theorem shared_stfe : (∀ f : NodeRec, Statement (.stfe f)) ∧ (∀ f : NodeRec, Statement (.stfeOvw f)) := by
  refine ⟨?_, ?_⟩
  · intro f; exact ofNode rfl rfl rfl (fun w => by obtain ⟨h1, h2⟩ := node_sel (i := .stfe f) rfl w; simp only at h1 h2; simp [nodeOf, h1, h2])
  · intro f; exact ofNode rfl rfl rfl (fun w => by obtain ⟨h1, h2⟩ := node_sel (i := .stfeOvw f) rfl w; simp only at h1 h2; simp [nodeOf, h1, h2])

/-- The rows that share an opcode with amoAdd. -/
theorem shared_amoAdd : (∀ f : NodeRec, Statement (.amoAdd f)) ∧ (∀ f : NodeRec, Statement (.amoAnd f)) ∧ (∀ f : NodeRec, Statement (.amoOr f)) ∧ (∀ f : NodeRec, Statement (.amoXor f)) ∧ (∀ f : NodeRec, Statement (.amoMin f)) ∧ (∀ f : NodeRec, Statement (.amoMax f)) ∧ (∀ f : NodeRec, Statement (.amoSwap f)) ∧ (∀ f : NodeRec, Statement (.amoFadd f)) := by
  refine ⟨?_, ?_, ?_, ?_, ?_, ?_, ?_, ?_⟩
  · intro f; exact ofNode rfl rfl rfl (fun w => by obtain ⟨h1, h2⟩ := node_sel (i := .amoAdd f) rfl w; simp only at h1 h2; simp [nodeOf, h1, h2])
  · intro f; exact ofNode rfl rfl rfl (fun w => by obtain ⟨h1, h2⟩ := node_sel (i := .amoAnd f) rfl w; simp only at h1 h2; simp [nodeOf, h1, h2])
  · intro f; exact ofNode rfl rfl rfl (fun w => by obtain ⟨h1, h2⟩ := node_sel (i := .amoOr f) rfl w; simp only at h1 h2; simp [nodeOf, h1, h2])
  · intro f; exact ofNode rfl rfl rfl (fun w => by obtain ⟨h1, h2⟩ := node_sel (i := .amoXor f) rfl w; simp only at h1 h2; simp [nodeOf, h1, h2])
  · intro f; exact ofNode rfl rfl rfl (fun w => by obtain ⟨h1, h2⟩ := node_sel (i := .amoMin f) rfl w; simp only at h1 h2; simp [nodeOf, h1, h2])
  · intro f; exact ofNode rfl rfl rfl (fun w => by obtain ⟨h1, h2⟩ := node_sel (i := .amoMax f) rfl w; simp only at h1 h2; simp [nodeOf, h1, h2])
  · intro f; exact ofNode rfl rfl rfl (fun w => by obtain ⟨h1, h2⟩ := node_sel (i := .amoSwap f) rfl w; simp only at h1 h2; simp [nodeOf, h1, h2])
  · intro f; exact ofNode rfl rfl rfl (fun w => by obtain ⟨h1, h2⟩ := node_sel (i := .amoFadd f) rfl w; simp only at h1 h2; simp [nodeOf, h1, h2])

/-- The rows that share an opcode with nrdTake. -/
theorem shared_nrdTake : (∀ f : NodeRec, Statement (.nrdTake f)) ∧ (∀ f : NodeRec, Statement (.nrdPeek f)) := by
  refine ⟨?_, ?_⟩
  · intro f; exact ofNode rfl rfl rfl (fun w => by obtain ⟨h1, h2⟩ := node_sel (i := .nrdTake f) rfl w; simp only at h1 h2; simp [nodeOf, h1, h2])
  · intro f; exact ofNode rfl rfl rfl (fun w => by obtain ⟨h1, h2⟩ := node_sel (i := .nrdPeek f) rfl w; simp only at h1 h2; simp [nodeOf, h1, h2])

/-- The rows that share an opcode with vredSum. -/
theorem shared_vredSum : (∀ f : NodeRec, Statement (.vredSum f)) ∧ (∀ f : NodeRec, Statement (.vredMax f)) ∧ (∀ f : NodeRec, Statement (.vredMin f)) := by
  refine ⟨?_, ?_, ?_⟩
  · intro f; exact ofNode rfl rfl rfl (fun w => by obtain ⟨h1, h2⟩ := node_sel (i := .vredSum f) rfl w; simp only at h1 h2; simp [nodeOf, h1, h2])
  · intro f; exact ofNode rfl rfl rfl (fun w => by obtain ⟨h1, h2⟩ := node_sel (i := .vredMax f) rfl w; simp only at h1 h2; simp [nodeOf, h1, h2])
  · intro f; exact ofNode rfl rfl rfl (fun w => by obtain ⟨h1, h2⟩ := node_sel (i := .vredMin f) rfl w; simp only at h1 h2; simp [nodeOf, h1, h2])

/-- The rows that share an opcode with vscanSum. -/
theorem shared_vscanSum : (∀ f : NodeRec, Statement (.vscanSum f)) ∧ (∀ f : NodeRec, Statement (.vscanMax f)) ∧ (∀ f : NodeRec, Statement (.vscanMin f)) := by
  refine ⟨?_, ?_, ?_⟩
  · intro f; exact ofNode rfl rfl rfl (fun w => by obtain ⟨h1, h2⟩ := node_sel (i := .vscanSum f) rfl w; simp only at h1 h2; simp [nodeOf, h1, h2])
  · intro f; exact ofNode rfl rfl rfl (fun w => by obtain ⟨h1, h2⟩ := node_sel (i := .vscanMax f) rfl w; simp only at h1 h2; simp [nodeOf, h1, h2])
  · intro f; exact ofNode rfl rfl rfl (fun w => by obtain ⟨h1, h2⟩ := node_sel (i := .vscanMin f) rfl w; simp only at h1 h2; simp [nodeOf, h1, h2])

/-- The rows that share an opcode with vtopk. -/
theorem shared_vtopk : (∀ f : NodeRec, Statement (.vtopk f)) ∧ (∀ f : NodeRec, Statement (.vtopkIdx f)) := by
  refine ⟨?_, ?_⟩
  · intro f; exact ofNode rfl rfl rfl (fun w => by obtain ⟨h1, h2⟩ := node_sel (i := .vtopk f) rfl w; simp only at h1 h2; simp [nodeOf, h1, h2])
  · intro f; exact ofNode rfl rfl rfl (fun w => by obtain ⟨h1, h2⟩ := node_sel (i := .vtopkIdx f) rfl w; simp only at h1 h2; simp [nodeOf, h1, h2])

/-- The rows that share an opcode with vhdr. -/
theorem shared_vhdr : (∀ f : NodeRec, Statement (.vhdr f)) ∧ (∀ f : NodeRec, Statement (.vhdrSet f)) := by
  refine ⟨?_, ?_⟩
  · intro f; exact ofNode rfl rfl rfl (fun w => by obtain ⟨h1, h2⟩ := node_sel (i := .vhdr f) rfl w; simp only at h1 h2; simp [nodeOf, h1, h2])
  · intro f; exact ofNode rfl rfl rfl (fun w => by obtain ⟨h1, h2⟩ := node_sel (i := .vhdrSet f) rfl w; simp only at h1 h2; simp [nodeOf, h1, h2])

/-- The rows that share an opcode with vmaskKeep. -/
theorem shared_vmaskKeep : (∀ f : NodeRec, Statement (.vmaskKeep f)) ∧ (∀ f : NodeRec, Statement (.vmaskCausal f)) ∧ (∀ f : NodeRec, Statement (.vmaskLength f)) := by
  refine ⟨?_, ?_, ?_⟩
  · intro f; exact ofNode rfl rfl rfl (fun w => by obtain ⟨h1, h2⟩ := node_sel (i := .vmaskKeep f) rfl w; simp only at h1 h2; simp [nodeOf, h1, h2])
  · intro f; exact ofNode rfl rfl rfl (fun w => by obtain ⟨h1, h2⟩ := node_sel (i := .vmaskCausal f) rfl w; simp only at h1 h2; simp [nodeOf, h1, h2])
  · intro f; exact ofNode rfl rfl rfl (fun w => by obtain ⟨h1, h2⟩ := node_sel (i := .vmaskLength f) rfl w; simp only at h1 h2; simp [nodeOf, h1, h2])

/-- The rows that share an opcode with time. -/
theorem shared_time : (∀ f : CmdRec, Statement (.time f)) ∧ (∀ f : CmdRec, Statement (.timeCyc f)) := by
  refine ⟨?_, ?_⟩
  · intro f; exact ofCmd rfl rfl rfl (fun w => by obtain ⟨h1, h2, h3⟩ := cmd_sel (i := .time f) rfl rfl rfl w; simp only at h1 h2 h3; simp [cmdOf, h1, h2, h3])
  · intro f; exact ofCmd rfl rfl rfl (fun w => by obtain ⟨h1, h2, h3⟩ := cmd_sel (i := .timeCyc f) rfl rfl rfl w; simp only at h1 h2 h3; simp [cmdOf, h1, h2, h3])

/-- The rows that share an opcode with quiesce. -/
theorem shared_quiesce : (∀ f : CmdRec, Statement (.quiesce f)) ∧ (∀ f : CmdRec, Statement (.quiesceProbe f)) := by
  refine ⟨?_, ?_⟩
  · intro f; exact ofCmd rfl rfl rfl (fun w => by obtain ⟨h1, h2, h3⟩ := cmd_sel (i := .quiesce f) rfl rfl rfl w; simp only at h1 h2 h3; simp [cmdOf, h1, h2, h3])
  · intro f; exact ofCmd rfl rfl rfl (fun w => by obtain ⟨h1, h2, h3⟩ := cmd_sel (i := .quiesceProbe f) rfl rfl rfl w; simp only at h1 h2 h3; simp [cmdOf, h1, h2, h3])

/-- The rows that share an opcode with collSum. -/
theorem shared_collSum : (∀ f : CmdRec, Statement (.collSum f)) ∧ (∀ f : CmdRec, Statement (.collMax f)) ∧ (∀ f : CmdRec, Statement (.collMin f)) ∧ (∀ f : CmdRec, Statement (.collRs f)) ∧ (∀ f : CmdRec, Statement (.collAg f)) ∧ (∀ f : CmdRec, Statement (.collBc f)) := by
  refine ⟨?_, ?_, ?_, ?_, ?_, ?_⟩
  · intro f; exact ofCmd rfl rfl rfl (fun w => by obtain ⟨h1, h2, h3⟩ := cmd_sel (i := .collSum f) rfl rfl rfl w; simp only at h1 h2 h3; simp [cmdOf, h1, h2, h3])
  · intro f; exact ofCmd rfl rfl rfl (fun w => by obtain ⟨h1, h2, h3⟩ := cmd_sel (i := .collMax f) rfl rfl rfl w; simp only at h1 h2 h3; simp [cmdOf, h1, h2, h3])
  · intro f; exact ofCmd rfl rfl rfl (fun w => by obtain ⟨h1, h2, h3⟩ := cmd_sel (i := .collMin f) rfl rfl rfl w; simp only at h1 h2 h3; simp [cmdOf, h1, h2, h3])
  · intro f; exact ofCmd rfl rfl rfl (fun w => by obtain ⟨h1, h2, h3⟩ := cmd_sel (i := .collRs f) rfl rfl rfl w; simp only at h1 h2 h3; simp [cmdOf, h1, h2, h3])
  · intro f; exact ofCmd rfl rfl rfl (fun w => by obtain ⟨h1, h2, h3⟩ := cmd_sel (i := .collAg f) rfl rfl rfl w; simp only at h1 h2 h3; simp [cmdOf, h1, h2, h3])
  · intro f; exact ofCmd rfl rfl rfl (fun w => by obtain ⟨h1, h2, h3⟩ := cmd_sel (i := .collBc f) rfl rfl rfl w; simp only at h1 h2 h3; simp [cmdOf, h1, h2, h3])

/-- The rows that share an opcode with prov. -/
theorem shared_prov : (∀ f : CmdRec, Statement (.prov f)) ∧ (∀ f : CmdRec, Statement (.provRev f)) := by
  refine ⟨?_, ?_⟩
  · intro f; exact ofCmd rfl rfl rfl (fun w => by obtain ⟨h1, h2, h3⟩ := cmd_sel (i := .prov f) rfl rfl rfl w; simp only at h1 h2 h3; simp [cmdOf, h1, h2, h3])
  · intro f; exact ofCmd rfl rfl rfl (fun w => by obtain ⟨h1, h2, h3⟩ := cmd_sel (i := .provRev f) rfl rfl rfl w; simp only at h1 h2 h3; simp [cmdOf, h1, h2, h3])

/-- The rows that share an opcode with tretRetry. -/
theorem shared_tretRetry : (∀ f : CmdRec, Statement (.tretRetry f)) := by
  intro f; exact ofCmd rfl rfl rfl (fun w => by obtain ⟨h1, h2, h3⟩ := cmd_sel (i := .tretRetry f) rfl rfl rfl w; simp only at h1 h2 h3; simp [cmdOf, h1, h2, h3])

/-- The rows that share an opcode with hcall. -/
theorem shared_hcall : (∀ f : CmdRec, Statement (.hcall f)) ∧ (∀ f : CmdRec, Statement (.hcallTake f)) ∧ (∀ f : CmdRec, Statement (.hcallArg f)) ∧ (∀ f : CmdRec, Statement (.hcallRet f)) := by
  refine ⟨?_, ?_, ?_, ?_⟩
  · intro f; exact ofCmd rfl rfl rfl (fun w => by obtain ⟨h1, h2, h3⟩ := cmd_sel (i := .hcall f) rfl rfl rfl w; simp only at h1 h2 h3; simp [cmdOf, h1, h2, h3])
  · intro f; exact ofCmd rfl rfl rfl (fun w => by obtain ⟨h1, h2, h3⟩ := cmd_sel (i := .hcallTake f) rfl rfl rfl w; simp only at h1 h2 h3; simp [cmdOf, h1, h2, h3])
  · intro f; exact ofCmd rfl rfl rfl (fun w => by obtain ⟨h1, h2, h3⟩ := cmd_sel (i := .hcallArg f) rfl rfl rfl w; simp only at h1 h2 h3; simp [cmdOf, h1, h2, h3])
  · intro f; exact ofCmd rfl rfl rfl (fun w => by obtain ⟨h1, h2, h3⟩ := cmd_sel (i := .hcallRet f) rfl rfl rfl w; simp only at h1 h2 h3; simp [cmdOf, h1, h2, h3])

/-- The rows that share an opcode with wingDef. -/
theorem shared_wingDef : (∀ f : CmdRec, Statement (.wingDef f)) ∧ (∀ f : CmdRec, Statement (.wingDefRel f)) := by
  refine ⟨?_, ?_⟩
  · intro f; exact ofCmd rfl rfl rfl (fun w => by obtain ⟨h1, h2, h3⟩ := cmd_sel (i := .wingDef f) rfl rfl rfl w; simp only at h1 h2 h3; simp [cmdOf, h1, h2, h3])
  · intro f; exact ofCmd rfl rfl rfl (fun w => by obtain ⟨h1, h2, h3⟩ := cmd_sel (i := .wingDefRel f) rfl rfl rfl w; simp only at h1 h2 h3; simp [cmdOf, h1, h2, h3])

/-- The rows that share an opcode with vfBind. -/
theorem shared_vfBind : (∀ f : CmdRec, Statement (.vfBind f)) ∧ (∀ f : CmdRec, Statement (.vfBindRel f)) := by
  refine ⟨?_, ?_⟩
  · intro f; exact ofCmd rfl rfl rfl (fun w => by obtain ⟨h1, h2, h3⟩ := cmd_sel (i := .vfBind f) rfl rfl rfl w; simp only at h1 h2 h3; simp [cmdOf, h1, h2, h3])
  · intro f; exact ofCmd rfl rfl rfl (fun w => by obtain ⟨h1, h2, h3⟩ := cmd_sel (i := .vfBindRel f) rfl rfl rfl w; simp only at h1 h2 h3; simp [cmdOf, h1, h2, h3])

theorem pass (f : NodeRec) : Statement (.pass f) := ofNode rfl rfl rfl (fun _ => rfl)
theorem const (f : NodeRec) : Statement (.const f) := ofNode rfl rfl rfl (fun _ => rfl)
theorem sink (f : NodeRec) : Statement (.sink f) := ofNode rfl rfl rfl (fun _ => rfl)
theorem join (f : NodeRec) : Statement (.join f) := ofNode rfl rfl rfl (fun _ => rfl)
theorem add (f : NodeRec) : Statement (.add f) := ofNode rfl rfl rfl (fun _ => rfl)
theorem sub (f : NodeRec) : Statement (.sub f) := ofNode rfl rfl rfl (fun _ => rfl)
theorem mul (f : NodeRec) : Statement (.mul f) := ofNode rfl rfl rfl (fun _ => rfl)
theorem mulh (f : NodeRec) : Statement (.mulh f) := ofNode rfl rfl rfl (fun _ => rfl)
theorem mad (f : NodeRec) : Statement (.mad f) := ofNode rfl rfl rfl (fun _ => rfl)
theorem div (f : NodeRec) : Statement (.div f) := ofNode rfl rfl rfl (fun _ => rfl)
theorem rem (f : NodeRec) : Statement (.rem f) := ofNode rfl rfl rfl (fun _ => rfl)
theorem min (f : NodeRec) : Statement (.min f) := ofNode rfl rfl rfl (fun _ => rfl)
theorem max (f : NodeRec) : Statement (.max f) := ofNode rfl rfl rfl (fun _ => rfl)
theorem abs (f : NodeRec) : Statement (.abs f) := ofNode rfl rfl rfl (fun _ => rfl)
theorem neg (f : NodeRec) : Statement (.neg f) := ofNode rfl rfl rfl (fun _ => rfl)
theorem and (f : NodeRec) : Statement (.and f) := ofNode rfl rfl rfl (fun _ => rfl)
theorem or (f : NodeRec) : Statement (.or f) := ofNode rfl rfl rfl (fun _ => rfl)
theorem xor (f : NodeRec) : Statement (.xor f) := ofNode rfl rfl rfl (fun _ => rfl)
theorem not (f : NodeRec) : Statement (.not f) := ofNode rfl rfl rfl (fun _ => rfl)
theorem shl (f : NodeRec) : Statement (.shl f) := ofNode rfl rfl rfl (fun _ => rfl)
theorem shr (f : NodeRec) : Statement (.shr f) := ofNode rfl rfl rfl (fun _ => rfl)
theorem sar (f : NodeRec) : Statement (.sar f) := ofNode rfl rfl rfl (fun _ => rfl)
theorem rotl (f : NodeRec) : Statement (.rotl f) := ofNode rfl rfl rfl (fun _ => rfl)
theorem clz (f : NodeRec) : Statement (.clz f) := ofNode rfl rfl rfl (fun _ => rfl)
theorem popc (f : NodeRec) : Statement (.popc f) := ofNode rfl rfl rfl (fun _ => rfl)
theorem bfx (f : NodeRec) : Statement (.bfx f) := ofNode rfl rfl rfl (fun _ => rfl)
theorem bfi (f : NodeRec) : Statement (.bfi f) := ofNode rfl rfl rfl (fun _ => rfl)
theorem sel (f : NodeRec) : Statement (.sel f) := ofNode rfl rfl rfl (fun _ => rfl)
theorem cmp (f : NodeRec) : Statement (.cmp f) := ofNode rfl rfl rfl (fun _ => rfl)
theorem idx (f : NodeRec) : Statement (.idx f) := ofNode rfl rfl rfl (fun _ => rfl)
theorem wid (f : NodeRec) : Statement (.wid f) := ofNode rfl rfl rfl (fun _ => rfl)
theorem fadd (f : NodeRec) : Statement (.fadd f) := ofNode rfl rfl rfl (fun _ => rfl)
theorem fsub (f : NodeRec) : Statement (.fsub f) := ofNode rfl rfl rfl (fun _ => rfl)
theorem fmul (f : NodeRec) : Statement (.fmul f) := ofNode rfl rfl rfl (fun _ => rfl)
theorem ffma (f : NodeRec) : Statement (.ffma f) := ofNode rfl rfl rfl (fun _ => rfl)
theorem fmin (f : NodeRec) : Statement (.fmin f) := ofNode rfl rfl rfl (fun _ => rfl)
theorem fmax (f : NodeRec) : Statement (.fmax f) := ofNode rfl rfl rfl (fun _ => rfl)
theorem fabs (f : NodeRec) : Statement (.fabs f) := ofNode rfl rfl rfl (fun _ => rfl)
theorem fneg (f : NodeRec) : Statement (.fneg f) := ofNode rfl rfl rfl (fun _ => rfl)
theorem fcmp (f : NodeRec) : Statement (.fcmp f) := ofNode rfl rfl rfl (fun _ => rfl)
theorem fcvt (f : NodeRec) : Statement (.fcvt f) := ofNode rfl rfl rfl (fun _ => rfl)
theorem itof (f : NodeRec) : Statement (.itof f) := ofNode rfl rfl rfl (fun _ => rfl)
theorem ftoi (f : NodeRec) : Statement (.ftoi f) := ofNode rfl rfl rfl (fun _ => rfl)
theorem exp2 (f : NodeRec) : Statement (.exp2 f) := ofNode rfl rfl rfl (fun _ => rfl)
theorem log2 (f : NodeRec) : Statement (.log2 f) := ofNode rfl rfl rfl (fun _ => rfl)
theorem rcp (f : NodeRec) : Statement (.rcp f) := ofNode rfl rfl rfl (fun _ => rfl)
theorem rsq (f : NodeRec) : Statement (.rsq f) := ofNode rfl rfl rfl (fun _ => rfl)
theorem sqrt (f : NodeRec) : Statement (.sqrt f) := ofNode rfl rfl rfl (fun _ => rfl)
theorem sincos (f : NodeRec) : Statement (.sincos f) := ofNode rfl rfl rfl (fun _ => rfl)
theorem tanh (f : NodeRec) : Statement (.tanh f) := ofNode rfl rfl rfl (fun _ => rfl)
theorem frnd (f : NodeRec) : Statement (.frnd f) := ofNode rfl rfl rfl (fun _ => rfl)
theorem fscale (f : NodeRec) : Statement (.fscale f) := ofNode rfl rfl rfl (fun _ => rfl)
theorem fclass (f : NodeRec) : Statement (.fclass f) := ofNode rfl rfl rfl (fun _ => rfl)
theorem steer (f : NodeRec) : Statement (.steer f) := ofNode rfl rfl rfl (fun _ => rfl)
theorem merge (f : NodeRec) : Statement (.merge f) := ofNode rfl rfl rfl (fun _ => rfl)
theorem cmerge (f : NodeRec) : Statement (.cmerge f) := ofNode rfl rfl rfl (fun _ => rfl)
theorem gate (f : NodeRec) : Statement (.gate f) := ofNode rfl rfl rfl (fun _ => rfl)
theorem pnot (f : NodeRec) : Statement (.pnot f) := ofNode rfl rfl rfl (fun _ => rfl)
theorem pand (f : NodeRec) : Statement (.pand f) := ofNode rfl rfl rfl (fun _ => rfl)
theorem por (f : NodeRec) : Statement (.por f) := ofNode rfl rfl rfl (fun _ => rfl)
theorem pxor (f : NodeRec) : Statement (.pxor f) := ofNode rfl rfl rfl (fun _ => rfl)
theorem tagnew (f : NodeRec) : Statement (.tagnew f) := ofNode rfl rfl rfl (fun _ => rfl)
theorem tagret (f : NodeRec) : Statement (.tagret f) := ofNode rfl rfl rfl (fun _ => rfl)
theorem tagset (f : NodeRec) : Statement (.tagset f) := ofNode rfl rfl rfl (fun _ => rfl)
theorem tagget (f : NodeRec) : Statement (.tagget f) := ofNode rfl rfl rfl (fun _ => rfl)
theorem count (f : NodeRec) : Statement (.count f) := ofNode rfl rfl rfl (fun _ => rfl)
theorem init (f : NodeRec) : Statement (.init f) := ofNode rfl rfl rfl (fun _ => rfl)
theorem fire (f : NodeRec) : Statement (.fire f) := ofNode rfl rfl rfl (fun _ => rfl)
theorem order (f : NodeRec) : Statement (.order f) := ofNode rfl rfl rfl (fun _ => rfl)
theorem done (f : NodeRec) : Statement (.done f) := ofNode rfl rfl rfl (fun _ => rfl)
theorem trapn (f : NodeRec) : Statement (.trapn f) := ofNode rfl rfl rfl (fun _ => rfl)
theorem ptest (f : NodeRec) : Statement (.ptest f) := ofNode rfl rfl rfl (fun _ => rfl)
theorem ld (f : NodeRec) : Statement (.ld f) := ofNode rfl rfl rfl (fun _ => rfl)
theorem st (f : NodeRec) : Statement (.st f) := ofNode rfl rfl rfl (fun _ => rfl)
theorem ldfeTake (f : NodeRec) : Statement (.ldfeTake f) := (shared_ldfeTake.1) f
theorem ldfePeek (f : NodeRec) : Statement (.ldfePeek f) := (shared_ldfeTake.2) f
theorem stfe (f : NodeRec) : Statement (.stfe f) := (shared_stfe.1) f
theorem stfeOvw (f : NodeRec) : Statement (.stfeOvw f) := (shared_stfe.2) f
theorem amoAdd (f : NodeRec) : Statement (.amoAdd f) := (shared_amoAdd.1) f
theorem amoAnd (f : NodeRec) : Statement (.amoAnd f) := (shared_amoAdd.2.1) f
theorem amoOr (f : NodeRec) : Statement (.amoOr f) := (shared_amoAdd.2.2.1) f
theorem amoXor (f : NodeRec) : Statement (.amoXor f) := (shared_amoAdd.2.2.2.1) f
theorem amoMin (f : NodeRec) : Statement (.amoMin f) := (shared_amoAdd.2.2.2.2.1) f
theorem amoMax (f : NodeRec) : Statement (.amoMax f) := (shared_amoAdd.2.2.2.2.2.1) f
theorem amoSwap (f : NodeRec) : Statement (.amoSwap f) := (shared_amoAdd.2.2.2.2.2.2.1) f
theorem amoFadd (f : NodeRec) : Statement (.amoFadd f) := (shared_amoAdd.2.2.2.2.2.2.2) f
theorem cas (f : NodeRec) : Statement (.cas f) := ofNode rfl rfl rfl (fun _ => rfl)
theorem fence (f : NodeRec) : Statement (.fence f) := ofNode rfl rfl rfl (fun _ => rfl)
theorem nrdTake (f : NodeRec) : Statement (.nrdTake f) := (shared_nrdTake.1) f
theorem nrdPeek (f : NodeRec) : Statement (.nrdPeek f) := (shared_nrdTake.2) f
theorem nwr (f : NodeRec) : Statement (.nwr f) := ofNode rfl rfl rfl (fun _ => rfl)
theorem nprobe (f : NodeRec) : Statement (.nprobe f) := ofNode rfl rfl rfl (fun _ => rfl)
theorem vmap (f : NodeRec) : Statement (.vmap f) := ofNode rfl rfl rfl (fun _ => rfl)
theorem vfma (f : NodeRec) : Statement (.vfma f) := ofNode rfl rfl rfl (fun _ => rfl)
theorem vredSum (f : NodeRec) : Statement (.vredSum f) := (shared_vredSum.1) f
theorem vredMax (f : NodeRec) : Statement (.vredMax f) := (shared_vredSum.2.1) f
theorem vredMin (f : NodeRec) : Statement (.vredMin f) := (shared_vredSum.2.2) f
theorem vscanSum (f : NodeRec) : Statement (.vscanSum f) := (shared_vscanSum.1) f
theorem vscanMax (f : NodeRec) : Statement (.vscanMax f) := (shared_vscanSum.2.1) f
theorem vscanMin (f : NodeRec) : Statement (.vscanMin f) := (shared_vscanSum.2.2) f
theorem vcmpm (f : NodeRec) : Statement (.vcmpm f) := ofNode rfl rfl rfl (fun _ => rfl)
theorem vcompress (f : NodeRec) : Statement (.vcompress f) := ofNode rfl rfl rfl (fun _ => rfl)
theorem vexpand (f : NodeRec) : Statement (.vexpand f) := ofNode rfl rfl rfl (fun _ => rfl)
theorem vtopk (f : NodeRec) : Statement (.vtopk f) := (shared_vtopk.1) f
theorem vtopkIdx (f : NodeRec) : Statement (.vtopkIdx f) := (shared_vtopk.2) f
theorem vsoft (f : NodeRec) : Statement (.vsoft f) := ofNode rfl rfl rfl (fun _ => rfl)
theorem vquant (f : NodeRec) : Statement (.vquant f) := ofNode rfl rfl rfl (fun _ => rfl)
theorem vdeq (f : NodeRec) : Statement (.vdeq f) := ofNode rfl rfl rfl (fun _ => rfl)
theorem vcvt (f : NodeRec) : Statement (.vcvt f) := ofNode rfl rfl rfl (fun _ => rfl)
theorem vtransp (f : NodeRec) : Statement (.vtransp f) := ofNode rfl rfl rfl (fun _ => rfl)
theorem vslice (f : NodeRec) : Statement (.vslice f) := ofNode rfl rfl rfl (fun _ => rfl)
theorem vcat (f : NodeRec) : Statement (.vcat f) := ofNode rfl rfl rfl (fun _ => rfl)
theorem vhdr (f : NodeRec) : Statement (.vhdr f) := (shared_vhdr.1) f
theorem vhdrSet (f : NodeRec) : Statement (.vhdrSet f) := (shared_vhdr.2) f
theorem vbcast (f : NodeRec) : Statement (.vbcast f) := ofNode rfl rfl rfl (fun _ => rfl)
theorem vmaskKeep (f : NodeRec) : Statement (.vmaskKeep f) := (shared_vmaskKeep.1) f
theorem vmaskCausal (f : NodeRec) : Statement (.vmaskCausal f) := (shared_vmaskKeep.2.1) f
theorem vmaskLength (f : NodeRec) : Statement (.vmaskLength f) := (shared_vmaskKeep.2.2) f
theorem mxrow (f : NodeRec) : Statement (.mxrow f) := ofNode rfl rfl rfl (fun _ => rfl)
theorem mxdrain (f : NodeRec) : Statement (.mxdrain f) := ofNode rfl rfl rfl (fun _ => rfl)
theorem mxsteer (f : NodeRec) : Statement (.mxsteer f) := ofNode rfl rfl rfl (fun _ => rfl)
theorem score (f : NodeRec) : Statement (.score f) := ofNode rfl rfl rfl (fun _ => rfl)
theorem pair (f : NodeRec) : Statement (.pair f) := ofNode rfl rfl rfl (fun _ => rfl)
theorem acc (f : NodeRec) : Statement (.acc f) := ofNode rfl rfl rfl (fun _ => rfl)
theorem norm (f : NodeRec) : Statement (.norm f) := ofNode rfl rfl rfl (fun _ => rfl)
theorem rope (f : NodeRec) : Statement (.rope f) := ofNode rfl rfl rfl (fun _ => rfl)
theorem jmp (f : CmdRec) : Statement (.jmp f) := ofCmd rfl rfl rfl (fun _ => rfl)
theorem br (f : CmdRec) : Statement (.br f) := ofCmd rfl rfl rfl (fun _ => rfl)
theorem call (f : CmdRec) : Statement (.call f) := ofCmd rfl rfl rfl (fun _ => rfl)
theorem ret (f : CmdRec) : Statement (.ret f) := ofCmd rfl rfl rfl (fun _ => rfl)
theorem li (f : CmdRec) : Statement (.li f) := ofCmd rfl rfl rfl (fun _ => rfl)
theorem lih (f : CmdRec) : Statement (.lih f) := ofCmd rfl rfl rfl (fun _ => rfl)
theorem mov (f : CmdRec) : Statement (.mov f) := ofCmd rfl rfl rfl (fun _ => rfl)
theorem addCmd (f : CmdRec) : Statement (.addCmd f) := ofCmd rfl rfl rfl (fun _ => rfl)
theorem subCmd (f : CmdRec) : Statement (.subCmd f) := ofCmd rfl rfl rfl (fun _ => rfl)
theorem mulCmd (f : CmdRec) : Statement (.mulCmd f) := ofCmd rfl rfl rfl (fun _ => rfl)
theorem andCmd (f : CmdRec) : Statement (.andCmd f) := ofCmd rfl rfl rfl (fun _ => rfl)
theorem orCmd (f : CmdRec) : Statement (.orCmd f) := ofCmd rfl rfl rfl (fun _ => rfl)
theorem xorCmd (f : CmdRec) : Statement (.xorCmd f) := ofCmd rfl rfl rfl (fun _ => rfl)
theorem shlCmd (f : CmdRec) : Statement (.shlCmd f) := ofCmd rfl rfl rfl (fun _ => rfl)
theorem shrCmd (f : CmdRec) : Statement (.shrCmd f) := ofCmd rfl rfl rfl (fun _ => rfl)
theorem sarCmd (f : CmdRec) : Statement (.sarCmd f) := ofCmd rfl rfl rfl (fun _ => rfl)
theorem cmpCmd (f : CmdRec) : Statement (.cmpCmd f) := ofCmd rfl rfl rfl (fun _ => rfl)
theorem minCmd (f : CmdRec) : Statement (.minCmd f) := ofCmd rfl rfl rfl (fun _ => rfl)
theorem maxCmd (f : CmdRec) : Statement (.maxCmd f) := ofCmd rfl rfl rfl (fun _ => rfl)
theorem lds (f : CmdRec) : Statement (.lds f) := ofCmd rfl rfl rfl (fun _ => rfl)
theorem sts (f : CmdRec) : Statement (.sts f) := ofCmd rfl rfl rfl (fun _ => rfl)
theorem mfs (f : CmdRec) : Statement (.mfs f) := ofCmd rfl rfl rfl (fun _ => rfl)
theorem mts (f : CmdRec) : Statement (.mts f) := ofCmd rfl rfl rfl (fun _ => rfl)
theorem wait (f : CmdRec) : Statement (.wait f) := ofCmd rfl rfl rfl (fun _ => rfl)
theorem sig (f : CmdRec) : Statement (.sig f) := ofCmd rfl rfl rfl (fun _ => rfl)
theorem time (f : CmdRec) : Statement (.time f) := (shared_time.1) f
theorem timeCyc (f : CmdRec) : Statement (.timeCyc f) := (shared_time.2) f
theorem perf (f : CmdRec) : Statement (.perf f) := ofCmd rfl rfl rfl (fun _ => rfl)
theorem fuse (f : CmdRec) : Statement (.fuse f) := ofCmd rfl rfl rfl (fun _ => rfl)
theorem split (f : CmdRec) : Statement (.split f) := ofCmd rfl rfl rfl (fun _ => rfl)
theorem cfgLoad (f : CmdRec) : Statement (.cfgLoad f) := ofCmd rfl rfl rfl (fun _ => rfl)
theorem cfgRun (f : CmdRec) : Statement (.cfgRun f) := ofCmd rfl rfl rfl (fun _ => rfl)
theorem cfgNext (f : CmdRec) : Statement (.cfgNext f) := ofCmd rfl rfl rfl (fun _ => rfl)
theorem launch (f : CmdRec) : Statement (.launch f) := ofCmd rfl rfl rfl (fun _ => rfl)
theorem circ (f : CmdRec) : Statement (.circ f) := ofCmd rfl rfl rfl (fun _ => rfl)
theorem quiesce (f : CmdRec) : Statement (.quiesce f) := (shared_quiesce.1) f
theorem quiesceProbe (f : CmdRec) : Statement (.quiesceProbe f) := (shared_quiesce.2) f
theorem ctxSave (f : CmdRec) : Statement (.ctxSave f) := ofCmd rfl rfl rfl (fun _ => rfl)
theorem ctxLoad (f : CmdRec) : Statement (.ctxLoad f) := ofCmd rfl rfl rfl (fun _ => rfl)
theorem ctxSwap (f : CmdRec) : Statement (.ctxSwap f) := ofCmd rfl rfl rfl (fun _ => rfl)
theorem bufMap (f : CmdRec) : Statement (.bufMap f) := ofCmd rfl rfl rfl (fun _ => rfl)
theorem bufUnmap (f : CmdRec) : Statement (.bufUnmap f) := ofCmd rfl rfl rfl (fun _ => rfl)
theorem cap (f : CmdRec) : Statement (.cap f) := ofCmd rfl rfl rfl (fun _ => rfl)
theorem strmDef (f : CmdRec) : Statement (.strmDef f) := ofCmd rfl rfl rfl (fun _ => rfl)
theorem strmDim (f : CmdRec) : Statement (.strmDim f) := ofCmd rfl rfl rfl (fun _ => rfl)
theorem strmGo (f : CmdRec) : Statement (.strmGo f) := ofCmd rfl rfl rfl (fun _ => rfl)
theorem strmBar (f : CmdRec) : Statement (.strmBar f) := ofCmd rfl rfl rfl (fun _ => rfl)
theorem strmEnd (f : CmdRec) : Statement (.strmEnd f) := ofCmd rfl rfl rfl (fun _ => rfl)
theorem rsv (f : CmdRec) : Statement (.rsv f) := ofCmd rfl rfl rfl (fun _ => rfl)
theorem samp (f : CmdRec) : Statement (.samp f) := ofCmd rfl rfl rfl (fun _ => rfl)
theorem fenceCmd (f : CmdRec) : Statement (.fenceCmd f) := ofCmd rfl rfl rfl (fun _ => rfl)
theorem flush (f : CmdRec) : Statement (.flush f) := ofCmd rfl rfl rfl (fun _ => rfl)
theorem inv (f : CmdRec) : Statement (.inv f) := ofCmd rfl rfl rfl (fun _ => rfl)
theorem feFill (f : CmdRec) : Statement (.feFill f) := ofCmd rfl rfl rfl (fun _ => rfl)
theorem feEmpty (f : CmdRec) : Statement (.feEmpty f) := ofCmd rfl rfl rfl (fun _ => rfl)
theorem pref (f : CmdRec) : Statement (.pref f) := ofCmd rfl rfl rfl (fun _ => rfl)
theorem fold (f : CmdRec) : Statement (.fold f) := ofCmd rfl rfl rfl (fun _ => rfl)
theorem foldchk (f : CmdRec) : Statement (.foldchk f) := ofCmd rfl rfl rfl (fun _ => rfl)
theorem refold (f : CmdRec) : Statement (.refold f) := ofCmd rfl rfl rfl (fun _ => rfl)
theorem nstat (f : CmdRec) : Statement (.nstat f) := ofCmd rfl rfl rfl (fun _ => rfl)
theorem ndrop (f : CmdRec) : Statement (.ndrop f) := ofCmd rfl rfl rfl (fun _ => rfl)
theorem nseed (f : CmdRec) : Statement (.nseed f) := ofCmd rfl rfl rfl (fun _ => rfl)
theorem copy (f : CmdRec) : Statement (.copy f) := ofCmd rfl rfl rfl (fun _ => rfl)
theorem copySh (f : CmdRec) : Statement (.copySh f) := ofCmd rfl rfl rfl (fun _ => rfl)
theorem publ (f : CmdRec) : Statement (.publ f) := ofCmd rfl rfl rfl (fun _ => rfl)
theorem mcast (f : CmdRec) : Statement (.mcast f) := ofCmd rfl rfl rfl (fun _ => rfl)
theorem ringOpen (f : CmdRec) : Statement (.ringOpen f) := ofCmd rfl rfl rfl (fun _ => rfl)
theorem ringPut (f : CmdRec) : Statement (.ringPut f) := ofCmd rfl rfl rfl (fun _ => rfl)
theorem ringTake (f : CmdRec) : Statement (.ringTake f) := ofCmd rfl rfl rfl (fun _ => rfl)
theorem collSum (f : CmdRec) : Statement (.collSum f) := (shared_collSum.1) f
theorem collMax (f : CmdRec) : Statement (.collMax f) := (shared_collSum.2.1) f
theorem collMin (f : CmdRec) : Statement (.collMin f) := (shared_collSum.2.2.1) f
theorem collRs (f : CmdRec) : Statement (.collRs f) := (shared_collSum.2.2.2.1) f
theorem collAg (f : CmdRec) : Statement (.collAg f) := (shared_collSum.2.2.2.2.1) f
theorem collBc (f : CmdRec) : Statement (.collBc f) := (shared_collSum.2.2.2.2.2) f
theorem ewait (f : CmdRec) : Statement (.ewait f) := ofCmd rfl rfl rfl (fun _ => rfl)
theorem ecancel (f : CmdRec) : Statement (.ecancel f) := ofCmd rfl rfl rfl (fun _ => rfl)
theorem claim (f : CmdRec) : Statement (.claim f) := ofCmd rfl rfl rfl (fun _ => rfl)
theorem release (f : CmdRec) : Statement (.release f) := ofCmd rfl rfl rfl (fun _ => rfl)
theorem opld (f : CmdRec) : Statement (.opld f) := ofCmd rfl rfl rfl (fun _ => rfl)
theorem mxCfg (f : CmdRec) : Statement (.mxCfg f) := ofCmd rfl rfl rfl (fun _ => rfl)
theorem mxRoute (f : CmdRec) : Statement (.mxRoute f) := ofCmd rfl rfl rfl (fun _ => rfl)
theorem mxGo (f : CmdRec) : Statement (.mxGo f) := ofCmd rfl rfl rfl (fun _ => rfl)
theorem mxStop (f : CmdRec) : Statement (.mxStop f) := ofCmd rfl rfl rfl (fun _ => rfl)
theorem galOpen (f : CmdRec) : Statement (.galOpen f) := ofCmd rfl rfl rfl (fun _ => rfl)
theorem galClose (f : CmdRec) : Statement (.galClose f) := ofCmd rfl rfl rfl (fun _ => rfl)
theorem galAppend (f : CmdRec) : Statement (.galAppend f) := ofCmd rfl rfl rfl (fun _ => rfl)
theorem splice (f : CmdRec) : Statement (.splice f) := ofCmd rfl rfl rfl (fun _ => rfl)
theorem galCut (f : CmdRec) : Statement (.galCut f) := ofCmd rfl rfl rfl (fun _ => rfl)
theorem prov (f : CmdRec) : Statement (.prov f) := (shared_prov.1) f
theorem provRev (f : CmdRec) : Statement (.provRev f) := (shared_prov.2) f
theorem repair (f : CmdRec) : Statement (.repair f) := ofCmd rfl rfl rfl (fun _ => rfl)
theorem repairWait (f : CmdRec) : Statement (.repairWait f) := ofCmd rfl rfl rfl (fun _ => rfl)
theorem deltaBind (f : CmdRec) : Statement (.deltaBind f) := ofCmd rfl rfl rfl (fun _ => rfl)
theorem deltaRun (f : CmdRec) : Statement (.deltaRun f) := ofCmd rfl rfl rfl (fun _ => rfl)
theorem deltaRef (f : CmdRec) : Statement (.deltaRef f) := ofCmd rfl rfl rfl (fun _ => rfl)
theorem deltaInv (f : CmdRec) : Statement (.deltaInv f) := ofCmd rfl rfl rfl (fun _ => rfl)
theorem deltaStat (f : CmdRec) : Statement (.deltaStat f) := ofCmd rfl rfl rfl (fun _ => rfl)
theorem trap (f : CmdRec) : Statement (.trap f) := ofCmd rfl rfl rfl (fun _ => rfl)
theorem tretRetry (f : CmdRec) : Statement (.tretRetry f) := shared_tretRetry f
theorem sysc (f : CmdRec) : Statement (.sysc f) := ofCmd rfl rfl rfl (fun _ => rfl)
theorem hcall (f : CmdRec) : Statement (.hcall f) := (shared_hcall.1) f
theorem hcallTake (f : CmdRec) : Statement (.hcallTake f) := (shared_hcall.2.1) f
theorem hcallArg (f : CmdRec) : Statement (.hcallArg f) := (shared_hcall.2.2.1) f
theorem hcallRet (f : CmdRec) : Statement (.hcallRet f) := (shared_hcall.2.2.2) f
theorem freeze (f : CmdRec) : Statement (.freeze f) := ofCmd rfl rfl rfl (fun _ => rfl)
theorem thaw (f : CmdRec) : Statement (.thaw f) := ofCmd rfl rfl rfl (fun _ => rfl)
theorem snap (f : CmdRec) : Statement (.snap f) := ofCmd rfl rfl rfl (fun _ => rfl)
theorem wingDef (f : CmdRec) : Statement (.wingDef f) := (shared_wingDef.1) f
theorem wingDefRel (f : CmdRec) : Statement (.wingDefRel f) := (shared_wingDef.2) f
theorem wingRoute (f : CmdRec) : Statement (.wingRoute f) := ofCmd rfl rfl rfl (fun _ => rfl)
theorem vfBind (f : CmdRec) : Statement (.vfBind f) := (shared_vfBind.1) f
theorem vfBindRel (f : CmdRec) : Statement (.vfBindRel f) := (shared_vfBind.2) f
theorem scrub (f : CmdRec) : Statement (.scrub f) := ofCmd rfl rfl rfl (fun _ => rfl)
theorem audit (f : CmdRec) : Statement (.audit f) := ofCmd rfl rfl rfl (fun _ => rfl)
theorem nop : Statement .nop := ofCmd rfl rfl rfl (fun _ => rfl)
theorem halt : Statement .halt := ofCmd rfl rfl rfl (fun _ => rfl)
theorem next : Statement .next := ofCmd rfl rfl rfl (fun _ => rfl)
theorem cfgSeal : Statement .cfgSeal := ofCmd rfl rfl rfl (fun _ => rfl)
theorem tretPoison : Statement .tretPoison := ofCmd rfl rfl rfl (fun _ => rfl)
theorem tretDiscard : Statement .tretDiscard := ofCmd rfl rfl rfl (fun _ => rfl)
theorem tretAbort : Statement .tretAbort := ofCmd rfl rfl rfl (fun _ => rfl)
theorem passQ : Statement .passQ := ofSeq rfl rfl rfl rfl
theorem constQ : Statement .constQ := ofSeq rfl rfl rfl rfl
theorem addQ : Statement .addQ := ofSeq rfl rfl rfl rfl
theorem subQ : Statement .subQ := ofSeq rfl rfl rfl rfl
theorem mulQ : Statement .mulQ := ofSeq rfl rfl rfl rfl
theorem mulhQ : Statement .mulhQ := ofSeq rfl rfl rfl rfl
theorem madQ : Statement .madQ := ofSeq rfl rfl rfl rfl
theorem divQ : Statement .divQ := ofSeq rfl rfl rfl rfl
theorem remQ : Statement .remQ := ofSeq rfl rfl rfl rfl
theorem minQ : Statement .minQ := ofSeq rfl rfl rfl rfl
theorem maxQ : Statement .maxQ := ofSeq rfl rfl rfl rfl
theorem absQ : Statement .absQ := ofSeq rfl rfl rfl rfl
theorem negQ : Statement .negQ := ofSeq rfl rfl rfl rfl
theorem andQ : Statement .andQ := ofSeq rfl rfl rfl rfl
theorem orQ : Statement .orQ := ofSeq rfl rfl rfl rfl
theorem xorQ : Statement .xorQ := ofSeq rfl rfl rfl rfl
theorem notQ : Statement .notQ := ofSeq rfl rfl rfl rfl
theorem shlQ : Statement .shlQ := ofSeq rfl rfl rfl rfl
theorem shrQ : Statement .shrQ := ofSeq rfl rfl rfl rfl
theorem sarQ : Statement .sarQ := ofSeq rfl rfl rfl rfl
theorem rotlQ : Statement .rotlQ := ofSeq rfl rfl rfl rfl
theorem clzQ : Statement .clzQ := ofSeq rfl rfl rfl rfl
theorem popcQ : Statement .popcQ := ofSeq rfl rfl rfl rfl
theorem bfxQ : Statement .bfxQ := ofSeq rfl rfl rfl rfl
theorem bfiQ : Statement .bfiQ := ofSeq rfl rfl rfl rfl
theorem selQ : Statement .selQ := ofSeq rfl rfl rfl rfl
theorem cmpQ : Statement .cmpQ := ofSeq rfl rfl rfl rfl
theorem idxQ : Statement .idxQ := ofSeq rfl rfl rfl rfl
theorem widQ : Statement .widQ := ofSeq rfl rfl rfl rfl
theorem faddQ : Statement .faddQ := ofSeq rfl rfl rfl rfl
theorem fsubQ : Statement .fsubQ := ofSeq rfl rfl rfl rfl
theorem fmulQ : Statement .fmulQ := ofSeq rfl rfl rfl rfl
theorem ffmaQ : Statement .ffmaQ := ofSeq rfl rfl rfl rfl
theorem fminQ : Statement .fminQ := ofSeq rfl rfl rfl rfl
theorem fmaxQ : Statement .fmaxQ := ofSeq rfl rfl rfl rfl
theorem fabsQ : Statement .fabsQ := ofSeq rfl rfl rfl rfl
theorem fnegQ : Statement .fnegQ := ofSeq rfl rfl rfl rfl
theorem fcmpQ : Statement .fcmpQ := ofSeq rfl rfl rfl rfl
theorem fcvtQ : Statement .fcvtQ := ofSeq rfl rfl rfl rfl
theorem itofQ : Statement .itofQ := ofSeq rfl rfl rfl rfl
theorem ftoiQ : Statement .ftoiQ := ofSeq rfl rfl rfl rfl
theorem exp2Q : Statement .exp2Q := ofSeq rfl rfl rfl rfl
theorem log2Q : Statement .log2Q := ofSeq rfl rfl rfl rfl
theorem rcpQ : Statement .rcpQ := ofSeq rfl rfl rfl rfl
theorem rsqQ : Statement .rsqQ := ofSeq rfl rfl rfl rfl
theorem sqrtQ : Statement .sqrtQ := ofSeq rfl rfl rfl rfl
theorem sincosQ : Statement .sincosQ := ofSeq rfl rfl rfl rfl
theorem tanhQ : Statement .tanhQ := ofSeq rfl rfl rfl rfl
theorem frndQ : Statement .frndQ := ofSeq rfl rfl rfl rfl
theorem fscaleQ : Statement .fscaleQ := ofSeq rfl rfl rfl rfl
theorem fclassQ : Statement .fclassQ := ofSeq rfl rfl rfl rfl
theorem pnotQ : Statement .pnotQ := ofSeq rfl rfl rfl rfl
theorem pandQ : Statement .pandQ := ofSeq rfl rfl rfl rfl
theorem porQ : Statement .porQ := ofSeq rfl rfl rfl rfl
theorem pxorQ : Statement .pxorQ := ofSeq rfl rfl rfl rfl
theorem emit : Statement .emit := ofSeq rfl rfl rfl rfl
theorem emitp : Statement .emitp := ofSeq rfl rfl rfl rfl
theorem fralloc : Statement .fralloc := ofEvent rfl rfl rfl
theorem frfree : Statement .frfree := ofEvent rfl rfl rfl
theorem go : Statement .go := ofEvent rfl rfl rfl
theorem tinv : Statement .tinv := ofEvent rfl rfl rfl
theorem translationInvalidationDone : Statement .translationInvalidationDone := ofEvent rfl rfl rfl
theorem registerWrite : Statement .registerWrite := ofEvent rfl rfl rfl
theorem rescrubClear : Statement .rescrubClear := ofEvent rfl rfl rfl
theorem errptrConsumerWrite : Statement .errptrConsumerWrite := ofEvent rfl rfl rfl
theorem registrarConsumerAdvance : Statement .registrarConsumerAdvance := ofEvent rfl rfl rfl
theorem registrarExport : Statement .registrarExport := ofEvent rfl rfl rfl
theorem powerGood : Statement .powerGood := ofEvent rfl rfl rfl
theorem lifeCycleTransition : Statement .lifeCycleTransition := ofEvent rfl rfl rfl
theorem attestationReport : Statement .attestationReport := ofEvent rfl rfl rfl
theorem hallTemperatureReading : Statement .hallTemperatureReading := ofEvent rfl rfl rfl
theorem thermalHold : Statement .thermalHold := ofEvent rfl rfl rfl
theorem thermalHoldEnd : Statement .thermalHoldEnd := ofEvent rfl rfl rfl
theorem hbmThrottle : Statement .hbmThrottle := ofEvent rfl rfl rfl
theorem hbmThrottleEnd : Statement .hbmThrottleEnd := ofEvent rfl rfl rfl
theorem thermtrip : Statement .thermtrip := ofEvent rfl rfl rfl
theorem dvfsWindowEnd : Statement .dvfsWindowEnd := ofEvent rfl rfl rfl
theorem clockStepEnd : Statement .clockStepEnd := ofEvent rfl rfl rfl
theorem sliceEnd : Statement .sliceEnd := ofEvent rfl rfl rfl
theorem sliceWallCap : Statement .sliceWallCap := ofEvent rfl rfl rfl
theorem quiescenceScan : Statement .quiescenceScan := ofEvent rfl rfl rfl
theorem silenceExpiry : Statement .silenceExpiry := ofEvent rfl rfl rfl
theorem memoryWaitExpiry : Statement .memoryWaitExpiry := ofEvent rfl rfl rfl
theorem sequencerWaitExpiry : Statement .sequencerWaitExpiry := ofEvent rfl rfl rfl
theorem snapshotTimeout : Statement .snapshotTimeout := ofEvent rfl rfl rfl
theorem swapWaitExpiry : Statement .swapWaitExpiry := ofEvent rfl rfl rfl
theorem cellIssue : Statement .cellIssue := ofEvent rfl rfl rfl
theorem tokenArrival : Statement .tokenArrival := ofEvent rfl rfl rfl
theorem overflowReinject : Statement .overflowReinject := ofEvent rfl rfl rfl
theorem meshPacketArrival : Statement .meshPacketArrival := ofEvent rfl rfl rfl
theorem handoverAck : Statement .handoverAck := ofEvent rfl rfl rfl
theorem bufferPlaceFree : Statement .bufferPlaceFree := ofEvent rfl rfl rfl
theorem counterStep : Statement .counterStep := ofEvent rfl rfl rfl
theorem threadAdmit : Statement .threadAdmit := ofEvent rfl rfl rfl
theorem configLoadEnd : Statement .configLoadEnd := ofEvent rfl rfl rfl
theorem runComplete : Statement .runComplete := ofEvent rfl rfl rfl
theorem blockSchedulerDecision : Statement .blockSchedulerDecision := ofEvent rfl rfl rfl
theorem invocationCommit : Statement .invocationCommit := ofEvent rfl rfl rfl
theorem memoryAccessComplete : Statement .memoryAccessComplete := ofEvent rfl rfl rfl
theorem translationWalkComplete : Statement .translationWalkComplete := ofEvent rfl rfl rfl
theorem wayChangeWalkEnd : Statement .wayChangeWalkEnd := ofEvent rfl rfl rfl
theorem bisnpinv : Statement .bisnpinv := ofEvent rfl rfl rfl
theorem bisnpdata : Statement .bisnpdata := ofEvent rfl rfl rfl
theorem bisnpcur : Statement .bisnpcur := ofEvent rfl rfl rfl
theorem streamAccess : Statement .streamAccess := ofEvent rfl rfl rfl
theorem streamBarrierLift : Statement .streamBarrierLift := ofEvent rfl rfl rfl
theorem streamDrained : Statement .streamDrained := ofEvent rfl rfl rfl
theorem galleryBlockRead : Statement .galleryBlockRead := ofEvent rfl rfl rfl
theorem galleryReadAtLink : Statement .galleryReadAtLink := ofEvent rfl rfl rfl
theorem limitShiftWave : Statement .limitShiftWave := ofEvent rfl rfl rfl
theorem repairLayerDone : Statement .repairLayerDone := ofEvent rfl rfl rfl
theorem repairCopyDone : Statement .repairCopyDone := ofEvent rfl rfl rfl
theorem repairCancel : Statement .repairCancel := ofEvent rfl rfl rfl
theorem deltaRunEnd : Statement .deltaRunEnd := ofEvent rfl rfl rfl
theorem engineCommandComplete : Statement .engineCommandComplete := ofEvent rfl rfl rfl
theorem engineCommandFault : Statement .engineCommandFault := ofEvent rfl rfl rfl
theorem ringSlotFilled : Statement .ringSlotFilled := ofEvent rfl rfl rfl
theorem ringCreditReturn : Statement .ringCreditReturn := ofEvent rfl rfl rfl
theorem ringBreak : Statement .ringBreak := ofEvent rfl rfl rfl
theorem markerArrival : Statement .markerArrival := ofEvent rfl rfl rfl
theorem contextScrubComplete : Statement .contextScrubComplete := ofEvent rfl rfl rfl
theorem frameScrubStart : Statement .frameScrubStart := ofEvent rfl rfl rfl
theorem frameScrubDone : Statement .frameScrubDone := ofEvent rfl rfl rfl
theorem selfTestEnd : Statement .selfTestEnd := ofEvent rfl rfl rfl
theorem annexPortLost : Statement .annexPortLost := ofEvent rfl rfl rfl
theorem annexRequestTimeout : Statement .annexRequestTimeout := ofEvent rfl rfl rfl
theorem annexPortRetrain : Statement .annexPortRetrain := ofEvent rfl rfl rfl
theorem xipexFlitReceive : Statement .xipexFlitReceive := ofEvent rfl rfl rfl
theorem xipexCrcError : Statement .xipexCrcError := ofEvent rfl rfl rfl
theorem xipexLinkDown : Statement .xipexLinkDown := ofEvent rfl rfl rfl
theorem hostLinkError : Statement .hostLinkError := ofEvent rfl rfl rfl
theorem hostCompletionTimeout : Statement .hostCompletionTimeout := ofEvent rfl rfl rfl
theorem functionLevelReset : Statement .functionLevelReset := ofEvent rfl rfl rfl
theorem pfReset : Statement .pfReset := ofEvent rfl rfl rfl
theorem routeTableError : Statement .routeTableError := ofEvent rfl rfl rfl
theorem hostCxlMemAccess : Statement .hostCxlMemAccess := ofEvent rfl rfl rfl
theorem slotZeroingEnd : Statement .slotZeroingEnd := ofEvent rfl rfl rfl
theorem hostLinkUp : Statement .hostLinkUp := ofEvent rfl rfl rfl
theorem xipexRetrainEnd : Statement .xipexRetrainEnd := ofEvent rfl rfl rfl
theorem keyLoaded : Statement .keyLoaded := ofEvent rfl rfl rfl

end Sys2Proof.Laws.OpcodeTable
end

