-- ==== Sys2Proof/Laws/Sequences.lean ====
section
/-! SUPPORT. What a sequence record can do when no lane of it traps. -/
namespace Sys2Proof.Machine

variable {s t : State} {r : Region}

theorem onRegion_reaches (rid : Nat) (g : Region → Region) (s : State) : Reaches (modRegion rid g) s () (onRegion rid g s) := by
  unfold onRegion
  cases hr : kget s.regions rid with
  | none => exact modRegion_none _ _ hr
  | some r => exact modRegion_reaches _ _ hr

theorem onRegion_quiet (rid : Nat) {g : Region → Region} (h1 : ∀ r, (g r).trap = r.trap) (h2 : ∀ r, (g r).traps = r.traps)
    (h3 : ∀ r, (g r).state = r.state) (h4 : ∀ r, (g r).saved = r.saved) (h : trapWaiting s = none) : trapWaiting (onRegion rid g s) = none := by
  unfold onRegion
  cases hr : kget s.regions rid with
  | none => exact h
  | some r => exact trapWaiting_kset (r' := g r) h hr (h1 r) (h2 r) (h3 r) (h4 r) _ rfl

theorem onRegion_kin (rid : Nat) {g : Region → Region} (h : ∀ r, (g r).core = r.core) (s : State) : Kin s (onRegion rid g s) := by
  unfold onRegion
  split
  · next r hr => exact Kin.region hr rfl (h r)
  · exact Kin.refl s

/-- What each live lane of a record gives. -/
def rowOut (g : Region → SeqRun → SeqLane → SeqRec → (QSrc → BitVec 32) → SeqOut) (r : Region) (q : SeqRun) (f : SeqRec) (l : SeqLane) : SeqOut :=
  g r q l (rowRec q f) (srcVal r q l (rowRec q f))

theorem rowSent_reaches (rid : Nat) (q : SeqRun) (f : SeqRec) (past : State) (l : SeqLane) (v : BitVec 32) (s : State) :
    Reaches (if q.retry then replacePending rid q.cell (emitDest q f) (({ value := v, tag := l.lane.tag } : Token).after past (l.past ++ l.lane.past))
      else emitTo rid q.cell (emitDest q f) (({ value := v, tag := l.lane.tag } : Token).after past (l.past ++ l.lane.past))) s ()
      (rowSent rid q f past l v s) ∧ Kin s (rowSent rid q f past l v s) := by
  unfold rowSent
  dsimp only
  split
  · obtain ⟨u, h, k⟩ := replacePending_mild rid q.cell (emitDest q f) _ s
    rw [h.leaves]; exact ⟨h, k⟩
  · exact ⟨emitTo_reaches _ _ _ _ _, emitted_kin _ _ _ _ _⟩

/-- A record's step: what its body reaches, with the record over. -/
theorem seq_next {m : M Unit} (h : Reaches m s () t) (ht : trapWaiting t = none) : runSeq m s = .next { t with seqNow := none } := by
  unfold runSeq runE
  refine Reaches.next ?_ _
  exact h.bind ((Reaches.eff (.seqNow none) t).bind (deliverTraps_reaches (s := { t with seqNow := none }) ht))

/-- A record of which no lane traps or is poisoned: the tokens go, the temporaries are written, and the run goes on. -/
theorem seqRow_next {g : Region → SeqRun → SeqLane → SeqRec → (QSrc → BitVec 32) → SeqOut} {n : Nat} {q : SeqRun} {f : SeqRec}
    {lanes : List SeqLane} {qs : InQueues} (h : Runs s r n q f lanes qs)
    (hg : ∀ l ∈ lanes, l.live = true → (rowOut g r q f l).fault = none ∧ fate r.sys.trapEn (rowOut g r q f l).conds = .stands) :
    runSeq (seqRow g) s = .next (rowDone q.rid n q f lanes qs (rowOut g r q f) s) := by
  obtain ⟨h0, h1, h2, h3, h5, h6, h7, h8⟩ := h
  have e1 : (q.rid * 4096 + n) / 4096 = q.rid := by omega
  have e2 : (q.rid * 4096 + n) % 4096 = n := by omega
  have hI : Reaches mySeqRun s (some (q.rid, n, r, q, f)) s := by
    refine (Reaches.get s).bind ?_
    simp only [h1, e1, e2, h2, h3]
    exact Reaches.pure _ s
  set s1 := onRegion q.rid (fun r => { r with queues := kset r.queues q.cell qs }) s with hs1
  have k1 : Kin s s1 := onRegion_kin _ (g := fun r => { r with queues := kset r.queues q.cell qs }) (fun _ => rfl) s
  let send := rowEmit q.rid q f s (rowOut g r q f)
  have hsend : ∀ u l, Kin u (send u l) := by
    intro u l
    simp only [send, rowEmit]
    split
    · split
      · exact (rowSent_reaches _ _ _ _ _ _ _).2
      · exact Kin.refl u
    · exact Kin.refl u
  have k2 : Kin s (lanes.foldl send s1) := k1.trans (foldl_kin _ hsend _ _)
  have body : Reaches (seqRow g) s () (stirred q.rid (onRegion q.rid (fun x => { x with fires := rowFires n q f lanes (rowOut g r q f) x.fires })
      (lanes.foldl send s1))) := by
    refine hI.bind ((Reaches.get s).bind ?_)
    have hroom : (!q.retry && !roomFor s q.rid q (emitDest q f) q.lanes) = false := by
      rcases h6 with h | h <;> simp [h]
    dsimp only
    simp only [hroom, h7, Bool.false_eq_true, if_false]
    refine (onRegion_reaches q.rid _ s).bind ?_
    let plain : SeqLane → RowLane := fun l => { lane := l, out := if l.live then rowOut g r q f l else {} }
    have hplain : ∀ l ∈ lanes, (plain l).ends r.sys.trapEn = if l.live then some .stands else none := by
      intro l hl
      by_cases hv : l.live = true
      · obtain ⟨f1, f2⟩ := hg l hl hv
        simp [plain, RowLane.ends, hv, f1, f2]
      · simp [plain, RowLane.ends, hv]
    generalize hO : List.map _ lanes = outs
    have hO' : outs = lanes.map plain := by
      rw [← hO]
      refine List.map_congr_left fun l hl => ?_
      by_cases hv : l.live = true
      · have ht : SeqLane.taint (rowRec q f) l = none := (h8 l hl hv).2
        simp only [plain, if_pos hv, (h8 l hl hv).1]
        exact congrArg (fun x => ({ lane := l, out := rowOut g r q f l, taint := x } : RowLane)) ht
      · simp only [plain, if_neg hv]
    clear hO
    subst hO'
    refine Reaches.bind (a := ()) (t := lanes.foldl send s1) ?_ ?_
    · have hfold : (lanes.map plain).foldl (fun u p => send u p.lane) s1 = lanes.foldl send s1 := by rw [List.foldl_map]
      refine Reaches.congr (Reaches.each_fold (fun _ => True) _ s1 trivial fun u p hp _ => ⟨?_, trivial⟩) hfold
      obtain ⟨l, hl, rfl⟩ := List.mem_map.mp hp
      rw [hplain l hl]
      by_cases hv : l.live = true
      · simp only [send, rowEmit, plain, if_pos hv]
        cases ho : (rowOut g r q f l).emit with
        | none => exact Reaches.pure () u
        | some v => exact (rowSent_reaches q.rid q f s l v.2 u).1
      · have e : send u (plain l).lane = u := if_neg hv
        rw [e, if_neg hv]
        exact Reaches.pure () u
    · refine Reaches.bind (a := ()) (t := lanes.foldl send s1) ?_ ?_
      · refine (Reaches.each_fold (g := fun u _ => u) (fun _ => True) _ _ trivial fun u p hp _ => ⟨?_, trivial⟩).congr
          (List.foldl_fixed (a := lanes.foldl send s1) _)
        obtain ⟨l, hl, rfl⟩ := List.mem_map.mp hp
        exact Reaches.pure () u
      · have hcode : ∀ l ∈ lanes, (plain l).code r.sys.trapEn = none := by
          intro l hl
          rw [RowLane.code, hplain l hl]
          split <;> simp_all
        have hnone : (lanes.map plain).zipIdx.filterMap (fun p => (p.1.code r.sys.trapEn).map (fun c => (p.2, p.1.lane, c))) = [] := by
          rw [List.filterMap_eq_nil_iff]
          intro p hp
          have hm : p.1 ∈ lanes.map plain := (List.mem_zipIdx (x := p.1) (i := p.2) hp).2.2 ▸ List.getElem_mem _
          obtain ⟨l, hl, e⟩ := List.mem_map.mp hm
          rw [← e, hcode l hl]; rfl
        have hnext : (lanes.map plain).map (RowLane.next r.sys.trapEn (rowRec q f)) = lanes.map (rowLane f (rowOut g r q f)) := by
          rw [List.map_map]
          refine List.map_congr_left fun l hl => ?_
          simp only [Function.comp, RowLane.next, hplain l hl, rowLane]
          by_cases hv : l.live = true
          · simp only [if_pos hv, plain]; rfl
          · simp only [if_neg hv, plain]; rfl
        rw [hnone]
        refine (Reaches.pure () _).bind ?_
        refine Reaches.bind (a := ()) (t := onRegion q.rid (fun x => { x with fires := rowFires n q f lanes (rowOut g r q f) x.fires })
          (lanes.foldl send s1)) ((onRegion_reaches q.rid _ _).congr ?_) (stir_reaches q.rid _)
        have e : (lanes.map plain).map (RowLane.next r.sys.trapEn { f with md := BitVec.ofNat 4 (f.md.toNat ||| q.mdSet) })
          = lanes.map (rowLane f (rowOut g r q f)) := hnext
        rw [e]
        congr 1
        funext x
        unfold rowFires rowNext
        cases hl : (f.last || !(lanes.map (rowLane f (rowOut g r q f))).any (·.live)) <;> simp
  have hq := (onRegion_quiet q.rid (g := fun x => { x with fires := rowFires n q f lanes (rowOut g r q f) x.fires }) (fun _ => rfl) (fun _ => rfl)
    (fun _ => rfl) (fun _ => rfl) (k2.2 h5))
  exact seq_next body ((stirred_kin q.rid _).2 hq)

/-- What a record leaves depends only on the values and tokens of its live lanes. -/
theorem rowDone_congr {rid n : Nat} {q : SeqRun} {f : SeqRec} {lanes : List SeqLane} {qs : InQueues} {a b : SeqLane → SeqOut}
    (h : ∀ l ∈ lanes, l.live = true → (a l).value = (b l).value ∧ (a l).second = (b l).second ∧ (a l).emit = (b l).emit) :
    rowDone rid n q f lanes qs a s = rowDone rid n q f lanes qs b s := by
  have h1 : lanes.map (rowLane f a) = lanes.map (rowLane f b) := by
    refine List.map_congr_left fun l hl => ?_
    by_cases hv : l.live = true
    · obtain ⟨e1, e2, _⟩ := h l hl hv
      simp only [rowLane, hv, if_true, writeTemp, tempsOf, e1, e2]
    · simp only [rowLane, hv, if_false, Bool.false_eq_true]
  have h2 : ∀ l ∈ lanes, ∀ u, rowEmit rid q f s a u l = rowEmit rid q f s b u l := by
    intro l hl u
    by_cases hv : l.live = true
    · obtain ⟨_, _, e3⟩ := h l hl hv
      simp only [rowEmit, hv, if_true, e3]
    · simp only [rowEmit, hv, if_false, Bool.false_eq_true]
  have h3 : ∀ (m : List SeqLane), (∀ l ∈ m, l ∈ lanes) → ∀ u, m.foldl (rowEmit rid q f s a) u = m.foldl (rowEmit rid q f s b) u := by
    intro m
    induction m with
    | nil => intro _ u; rfl
    | cons l m ih =>
      intro hm u
      rw [List.foldl_cons, List.foldl_cons, h2 l (hm l (by simp)) u]
      exact ih (fun x hx => hm x (by simp [hx])) _
  simp only [rowDone, rowFires, rowNext, h1, h3 lanes fun _ h => h]

/-- The value of source `p` of a record for a lane: qa, qb, qc. -/
def srcOf (r : Region) (q : SeqRun) (f : SeqRec) (l : SeqLane) (p : Nat) : BitVec 32 :=
  srcVal r q l f (if p = 0 then f.qa else if p = 1 then f.qb else f.qc)

/-- A record of one value from its sources. -/
theorem pureSeq_next {g : SeqRec → Nat → (Nat → BitVec 32) → BitVec 32 × Conds} {n : Nat} {q : SeqRun} {f : SeqRec}
    {lanes : List SeqLane} {qs : InQueues} (h : Runs s r n q f lanes qs)
    (hg : ∀ l ∈ lanes, l.live = true → fate r.sys.trapEn (g (rowRec q f) (rowRec q f).md.toNat (srcOf r q (rowRec q f) l)).2 = .stands) :
    runSeq (pureSeq g) s = .next (rowDone q.rid n q f lanes qs
      (fun l => { value := (g (rowRec q f) (rowRec q f).md.toNat (srcOf r q (rowRec q f) l)).1 }) s) := by
  let G : Region → SeqRun → SeqLane → SeqRec → (QSrc → BitVec 32) → SeqOut := fun _ _ _ f v =>
    let o := g f f.md.toNat (fun p => v (if p = 0 then f.qa else if p = 1 then f.qb else f.qc))
    { value := o.1, conds := o.2 }
  have e : pureSeq g = seqRow G := rfl
  rw [e, seqRow_next (g := G) h fun l hl hv => ⟨rfl, hg l hl hv⟩]
  congr 1

end Sys2Proof.Machine
end

