-- ==== Sys2Proof/Laws/Scalar.lean ====
section
/-! SUPPORT. The integer operations in terms of bit vectors of their type's width. -/
namespace Sys2Proof.Machine

theorem tyWidth_pos (t : Ty) (h : isInt t = true) : 0 < tyWidth t := by cases t <;> simp_all [isInt, tyWidth]

theorem tyWidth_le (t : Ty) (h : isInt t = true) : tyWidth t ≤ 32 := by cases t <;> simp_all [isInt, tyWidth]

/-- The low bits of a number as two's complement. -/
theorem signed_toInt (w n : Nat) (hw : 0 < w) : signed w n = (BitVec.ofNat w n).toInt := by
  obtain ⟨k, rfl⟩ : ∃ k, w = k + 1 := ⟨w - 1, by omega⟩
  unfold signed
  rw [BitVec.toInt_eq_toNat_cond, BitVec.toNat_ofNat, Nat.add_sub_cancel]
  have h2 : 2 ^ (k + 1) = 2 * 2 ^ k := by rw [Nat.pow_succ]; omega
  have hl : n % 2 ^ (k + 1) < 2 ^ (k + 1) := Nat.mod_lt _ (by positivity)
  by_cases h : n % 2 ^ (k + 1) < 2 ^ k
  · rw [if_pos h, if_pos (by omega)]
  · rw [if_neg h, if_neg (by omega)]

/-- What an operand is read as. -/
theorem intOf_eq (t : Ty) (v : BitVec 32) (h : isInt t = true) : intOf t v = reads t v := by
  unfold intOf reads narrow
  split
  · rw [signed_toInt _ _ (tyWidth_pos t h)]
    congr 1
    apply BitVec.eq_of_toNat_eq
    rw [BitVec.toNat_ofNat, BitVec.toNat_setWidth]
  · rw [BitVec.toNat_setWidth]

theorem unsigned_lt (w : Nat) (z : Int) : unsigned w z < 2 ^ w := by
  unfold unsigned
  have h1 := Int.emod_lt_of_pos z (b := ((2 ^ w : Nat) : Int)) (by positivity)
  have h2 := Int.emod_nonneg z (b := ((2 ^ w : Nat) : Int)) (by positivity)
  omega

/-- How an exact integer is written. -/
theorem ofInt_eq (t : Ty) (z : Int) (h : isInt t = true) : ofInt t z = wraps t z := by
  have hu : BitVec.ofNat (tyWidth t) (unsigned (tyWidth t) z) = BitVec.ofInt (tyWidth t) z := by
    apply BitVec.eq_of_toNat_eq
    rw [BitVec.toNat_ofNat, BitVec.toNat_ofInt, unsigned]
    exact Nat.mod_eq_of_lt (unsigned_lt _ _)
  unfold ofInt wraps widen
  split
  · rw [signed_toInt _ _ (tyWidth_pos t h), hu, BitVec.signExtend]
  · have hn : unsigned (tyWidth t) z = (BitVec.ofInt (tyWidth t) z).toNat := by
      rw [← hu, BitVec.toNat_ofNat, Nat.mod_eq_of_lt (unsigned_lt _ _)]
    rw [hn, BitVec.ofInt_natCast]
    apply BitVec.eq_of_toNat_eq
    rw [BitVec.toNat_ofNat, BitVec.toNat_setWidth]

/-- A clamped integer. -/
theorem clampInt_eq (t : Ty) (z : Int) : clampInt t z = max (intMin t) (min (intMax t) z) := by
  have : intMin t ≤ intMax t := by cases t <;> decide
  unfold clampInt
  split
  · omega
  · split <;> omega

/-- An exact integer result. -/
theorem intResult_eq (t : Ty) (md : Nat) (z : Int) (h : isInt t = true) :
    intResult t (md % 2 == 1) z = (result t md z, { iov := !inRange t z }) := by
  unfold intResult result
  rw [ofInt_eq t _ h, clampInt_eq]
  simp only [beq_iff_eq]

end Sys2Proof.Machine
end

