-- ==== Sys2Proof/Laws/Sure.lean ====
section
/-! SUPPORT. The actions that never trap: on every state they answer, so a step that ends in one of them is carried out whole. -/
namespace Sys2Proof.Machine

/-- An action answers on every state. -/
def Sure {α : Type} (m : M α) : Prop := ∀ s, ∃ a t, Reaches m s a t

/-- An action answers or traps, by the state alone. -/
def Plain {α : Type} (m : M α) : Prop := ∀ s, (∃ a t, Reaches m s a t) ∨ ∃ e, Raises m s e

theorem Sure.plain {α : Type} {m : M α} (h : Sure m) : Plain m := fun s => .inl (h s)

namespace Plain
variable {α β : Type} {m : M α}

theorem pure (a : α) : Plain (Pure.pure a : M α) := fun s => .inl ⟨a, s, Reaches.pure a s⟩
theorem get : Plain get' := fun s => .inl ⟨s, s, Reaches.get s⟩
theorem eff (e : Effect) : Plain (Machine.eff e) := fun s => .inl ⟨(), _, Reaches.eff e s⟩
theorem trap (e : TrapRec) : Plain (Machine.trap e : M α) := fun s => .inr ⟨e, Raises.trap e s⟩

theorem bind {f : α → M β} (h : Plain m) (k : ∀ a, Plain (f a)) : Plain (m >>= f) := fun s => by
  rcases h s with ⟨a, t, hm⟩ | ⟨e, hm⟩
  · rcases k a t with ⟨b, u, hf⟩ | ⟨e, hf⟩
    · exact .inl ⟨b, u, hm.bind hf⟩
    · exact .inr ⟨e, hm.raises hf⟩
  · exact .inr ⟨e, hm.first⟩

theorem each {f : α → M Unit} (h : ∀ a, Plain (f a)) : ∀ l, Plain (Machine.each l f)
  | [] => Plain.pure ()
  | a :: l => (h a).bind fun _ => Plain.each h l

theorem collect {f : α → M β} (h : ∀ a, Plain (f a)) : ∀ l, Plain (Machine.collect l f)
  | [] => Plain.pure []
  | a :: l => (h a).bind fun _ => (Plain.collect h l).bind fun _ => Plain.pure _

theorem whenM {m : M Unit} (h : Plain m) : ∀ c, Plain (Machine.whenM c m)
  | true => h
  | false => Plain.pure ()

end Plain

namespace Sure
variable {α β : Type} {m : M α}

theorem pure (a : α) : Sure (Pure.pure a : M α) := fun s => ⟨a, s, Reaches.pure a s⟩
theorem get : Sure get' := fun s => ⟨s, s, Reaches.get s⟩
theorem eff (e : Effect) : Sure (Machine.eff e) := fun s => ⟨(), _, Reaches.eff e s⟩

/-- An action that never traps, and goes on with one that does not, never traps. -/
theorem bind {f : α → M β} (h : Sure m) (k : ∀ a, Sure (f a)) : Sure (m >>= f) := fun s => by
  obtain ⟨a, t, hm⟩ := h s
  obtain ⟨b, u, hf⟩ := k a t
  exact ⟨b, u, hm.bind hf⟩

theorem each {f : α → M Unit} (h : ∀ a, Sure (f a)) : ∀ l, Sure (Machine.each l f)
  | [] => Sure.pure ()
  | a :: l => (h a).bind fun _ => Sure.each h l

theorem collect {f : α → M β} (h : ∀ a, Sure (f a)) : ∀ l, Sure (Machine.collect l f)
  | [] => Sure.pure []
  | a :: l => (h a).bind fun _ => (Sure.collect h l).bind fun _ => Sure.pure _

theorem whenM {m : M Unit} (h : Sure m) : ∀ c, Sure (Machine.whenM c m)
  | true => h
  | false => Sure.pure ()

/-- What an attempt does not carry out, it undoes. -/
theorem attempt (h : Plain m) : Sure (Machine.attempt m) := fun s => by
  rcases h s with ⟨a, t, h⟩ | ⟨e, h⟩
  · exact ⟨_, _, h.attempt⟩
  · exact ⟨_, _, h.attempt⟩

/-- The state that an action which never traps leaves. -/
theorem settles {m : M Unit} (h : Sure m) (s : State) : ∃ t, Reaches m s () t := by
  obtain ⟨_, t, h⟩ := h s
  exact ⟨t, h⟩

end Sure
theorem modRegion_sure (rid : Nat) (g : Region → Region) : Sure (modRegion rid g) := by
  unfold modRegion
  repeat' (first | with_reducible (first | exact Sure.pure _ | exact Sure.eff _ | exact Sure.get | (refine Sure.bind ?_ fun _ => ?_)) | split | (dsimp only))

theorem modHall_sure (h : Nat) (g : Hall → Hall) : Sure (modHall h g) := by
  unfold modHall
  repeat' (first | with_reducible (first | exact Sure.pure _ | exact Sure.eff _ | exact Sure.get | (refine Sure.bind ?_ fun _ => ?_)) | split | (dsimp only))

theorem modVf_sure (v : Nat) (g : VFn → VFn) : Sure (modVf v g) := by
  unfold modVf
  repeat' (first | with_reducible (first | exact Sure.pure _ | exact Sure.eff _ | exact Sure.get | (refine Sure.bind ?_ fun _ => ?_)) | split | (dsimp only))

theorem modWing_sure (w : Nat) (g : Wing → Wing) : Sure (modWing w g) := by
  unfold modWing
  repeat' (first | with_reducible (first | exact Sure.pure _ | exact Sure.eff _ | exact Sure.get | (refine Sure.bind ?_ fun _ => ?_)) | split | (dsimp only))

theorem modPkg_sure (g : Package → Package) : Sure (modPkg g) := by
  unfold modPkg
  repeat' (first | with_reducible (first | exact Sure.pure _ | exact Sure.eff _ | exact Sure.get | (refine Sure.bind ?_ fun _ => ?_)) | split | (dsimp only))

theorem modChan_sure (k : Nat) (g : Chan → Chan) : Sure (modChan k g) := by
  unfold modChan
  repeat' (first | with_reducible (first | exact Sure.pure _ | exact Sure.eff _ | exact Sure.get | (refine Sure.bind ?_ fun _ => ?_)) | split | (dsimp only))

theorem modFold_sure (h k : Nat) (g : Fold → Fold) : Sure (modFold h k g) := by
  unfold modFold
  repeat' (first | with_reducible (first | exact Sure.pure _ | exact Sure.eff _ | exact Sure.get | (refine Sure.bind ?_ fun _ => ?_) | exact modHall_sure _ _) | split | (dsimp only))

theorem fresh_sure  : Sure (fresh) := by
  unfold fresh
  repeat' (first | with_reducible (first | exact Sure.pure _ | exact Sure.eff _ | exact Sure.get | (refine Sure.bind ?_ fun _ => ?_)) | split | (dsimp only))

theorem stir_sure (rid : Nat) : Sure (stir rid) := by
  unfold stir
  repeat' (first | with_reducible (first | exact Sure.pure _ | exact Sure.eff _ | exact Sure.get | (refine Sure.bind ?_ fun _ => ?_) | exact modRegion_sure _ _) | split | (dsimp only))

theorem sendEdge_sure (t : Token) (e : Edge) : Sure (sendEdge t e) := by
  unfold sendEdge
  repeat' (first | with_reducible (first | exact Sure.pure _ | exact Sure.eff _ | exact Sure.get | (refine Sure.bind ?_ fun _ => ?_)) | split | (dsimp only))

theorem emitTo_sure (rid cell : Nat) (d : Dest) (t : Token) : Sure (emitTo rid cell d t) := by
  unfold emitTo
  repeat' (first | with_reducible (first | exact Sure.pure _ | exact Sure.eff _ | exact Sure.get | (refine Sure.bind ?_ fun _ => ?_) | (refine Sure.each (fun _ => ?_) _) | exact stir_sure _ | exact sendEdge_sure _ _) | split | (dsimp only))

theorem replaceAt_sure (c : Chan) (t : Token) : Sure (replaceAt c t) := by
  unfold replaceAt
  repeat' (first | with_reducible (first | exact Sure.pure _ | exact Sure.eff _ | exact Sure.get | (refine Sure.bind ?_ fun _ => ?_) | exact modRegion_sure _ _ | exact modHall_sure _ _) | split | (dsimp only))

theorem replacePending_sure (rid cell : Nat) (d : Dest) (t : Token) : Sure (replacePending rid cell d t) := by
  unfold replacePending
  repeat' (first | with_reducible (first | exact Sure.pure _ | exact Sure.eff _ | exact Sure.get | (refine Sure.bind ?_ fun _ => ?_) | (refine Sure.each (fun _ => ?_) _) | exact sendEdge_sure _ _ | exact replaceAt_sure _ _) | split | (dsimp only))

theorem raiseNode_sure (rid cell node : Nat) (retry : Bool) (t : TrapRec) (lanes : List (Nat × Lane × List Dest)) : Sure (raiseNode rid cell node retry t lanes) := by
  unfold raiseNode
  repeat' (first | with_reducible (first | exact Sure.pure _ | exact Sure.eff _ | exact Sure.get | (refine Sure.bind ?_ fun _ => ?_) | (refine Sure.each (fun _ => ?_) _) | exact modRegion_sure _ _ | exact emitTo_sure _ _ _ _) | split | (dsimp only))

theorem sendReply_sure (q : Req) (a b : Option Token) : Sure (sendReply q a b) := by
  unfold sendReply
  repeat' (first | with_reducible (first | exact Sure.pure _ | exact Sure.eff _ | exact Sure.get | (refine Sure.bind ?_ fun _ => ?_) | (refine Sure.each (fun _ => ?_) _) | exact fresh_sure | exact stir_sure _ | exact emitTo_sure _ _ _ _ | exact replacePending_sure _ _ _ _) | split | (dsimp only))

theorem raiseLate_sure (rid cell node : Nat) (da db : Dest) (retry : Bool) (l : Lane) (t : TrapRec) : Sure (raiseLate rid cell node da db retry l t) := by
  unfold raiseLate
  repeat' (first | with_reducible (first | exact Sure.pure _ | exact Sure.eff _ | exact Sure.get | (refine Sure.bind ?_ fun _ => ?_) | exact raiseNode_sure _ _ _ _ _ _) | split | (dsimp only))

theorem putSlot_sure (hall key i : Nat) (sl : FoldSlot) : Sure (putSlot hall key i sl) := by
  unfold putSlot
  repeat' (first | with_reducible (first | exact Sure.pure _ | exact Sure.eff _ | exact Sure.get | (refine Sure.bind ?_ fun _ => ?_) | exact modFold_sure _ _ _) | split | (dsimp only))

theorem seedEnds_sure (q : NameReq) (o : Option TrapRec) : Sure (seedEnds q o) := by
  unfold seedEnds
  repeat' (first | with_reducible (first | exact Sure.pure _ | exact Sure.eff _ | exact Sure.get | (refine Sure.bind ?_ fun _ => ?_) | exact modRegion_sure _ _) | split | (dsimp only))

theorem answerName_sure (q : NameReq) (sl : FoldSlot) : Sure (answerName q sl) := by
  unfold answerName
  repeat' (first | with_reducible (first | exact Sure.pure _ | exact Sure.eff _ | exact Sure.get | (refine Sure.bind ?_ fun _ => ?_) | exact sendReply_sure _ _ _ | exact seedEnds_sure _ _) | split | (dsimp only))

theorem tryName_sure (q : NameReq) : Sure (tryName q) := by
  unfold tryName
  repeat' (first | with_reducible (first | exact Sure.pure _ | exact Sure.eff _ | exact Sure.get | (refine Sure.bind ?_ fun _ => ?_) | exact raiseLate_sure _ _ _ _ _ _ _ _ | exact putSlot_sure _ _ _ _ | exact seedEnds_sure _ _ | exact answerName_sure _ _) | split | (dsimp only))

theorem reflag_sure (hall key : Nat) : Sure (reflag hall key) := by
  unfold reflag
  repeat' (first | with_reducible (first | exact Sure.pure _ | exact Sure.eff _ | exact Sure.get | (refine Sure.bind ?_ fun _ => ?_) | exact modFold_sure _ _ _) | split | (dsimp only))

theorem settle_sure : ∀ (n : Nat) (hall key : Nat), Sure (settle hall key n)
  | 0, _, _ => Sure.pure _
  | n + 1, _, _ => by
    have ih := settle_sure n
    unfold settle
    repeat' (first | with_reducible (first | apply ih | exact Sure.pure _ | exact Sure.eff _ | exact Sure.get | (refine Sure.bind ?_ fun _ => ?_) | exact tryName_sure _) | split | (dsimp only))

theorem settleFold_sure (hall key : Nat) : Sure (settleFold hall key) := by
  unfold settleFold
  repeat' (first | with_reducible (first | exact Sure.pure _ | exact Sure.eff _ | exact Sure.get | (refine Sure.bind ?_ fun _ => ?_) | exact reflag_sure _ _ | exact settle_sure _ _ _) | split | (dsimp only))

theorem presentName_sure (q : NameReq) : Sure (presentName q) := by
  unfold presentName
  repeat' (first | with_reducible (first | exact Sure.pure _ | exact Sure.eff _ | exact Sure.get | (refine Sure.bind ?_ fun _ => ?_) | exact tryName_sure _ | exact reflag_sure _ _ | exact settleFold_sure _ _) | split | (dsimp only))

theorem endMove_sure (hall key : Nat) (h : BitVec 128) : Sure (endMove hall key h) := by
  unfold endMove
  repeat' (first | with_reducible (first | exact Sure.pure _ | exact Sure.eff _ | exact Sure.get | (refine Sure.bind ?_ fun _ => ?_) | (refine Sure.each (fun _ => ?_) _) | exact modFold_sure _ _ _ | exact settleFold_sure _ _ | exact presentName_sure _) | split | (dsimp only))

theorem putBytes_sure : ∀ (bs : List Byte) (a : Nat), Sure (putBytes a bs)
  | [], _ => Sure.pure _
  | _ :: t, a => (Sure.eff _).bind fun _ => putBytes_sure t (a + 1)

theorem msi_sure (fn v : Nat) : Sure (msi fn v) := by
  unfold msi
  repeat' (first | with_reducible (first | exact Sure.pure _ | exact Sure.eff _ | exact Sure.get | (refine Sure.bind ?_ fun _ => ?_) | exact modPkg_sure _) | split | (dsimp only))

theorem pushError_sure (ws : List (BitVec 64)) : Sure (pushError ws) := by
  unfold pushError
  repeat' (first | with_reducible (first | exact Sure.pure _ | exact Sure.eff _ | exact Sure.get | (refine Sure.bind ?_ fun _ => ?_) | exact modPkg_sure _ | exact putBytes_sure _ _ | exact msi_sure _ _) | split | (dsimp only))

theorem allocate_sure (hall : Nat) (k : Option Nat) (a : Nat) (m : Mesi) : Sure (allocate hall k a m) := by
  unfold allocate
  repeat' (first | with_reducible (first | exact Sure.pure _ | exact Sure.eff _ | exact Sure.get | (refine Sure.bind ?_ fun _ => ?_) | exact modHall_sure _ _ | exact fresh_sure) | split | (dsimp only))

theorem cacheRead_sure (hall vf va a : Nat) : Sure (cacheRead hall vf va a) := by
  unfold cacheRead
  repeat' (first | with_reducible (first | exact Sure.pure _ | exact Sure.eff _ | exact Sure.get | (refine Sure.bind ?_ fun _ => ?_) | (refine Sure.each (fun _ => ?_) _) | exact modHall_sure _ _ | exact allocate_sure _ _ _ _) | split | (dsimp only))

theorem cacheWrite_sure (hall vf va a : Nat) : Sure (cacheWrite hall vf va a) := by
  unfold cacheWrite
  repeat' (first | with_reducible (first | exact Sure.pure _ | exact Sure.eff _ | exact Sure.get | (refine Sure.bind ?_ fun _ => ?_) | (refine Sure.each (fun _ => ?_) _) | (refine Sure.whenM ?_ _) | exact modHall_sure _ _ | exact allocate_sure _ _ _ _) | split | (dsimp only))

theorem performBytes_sure (hall vf va a : Nat) (bs : List Byte) : Sure (performBytes hall vf va a bs) := by
  unfold performBytes
  repeat' (first | with_reducible (first | exact Sure.pure _ | exact Sure.eff _ | exact Sure.get | (refine Sure.bind ?_ fun _ => ?_) | (refine Sure.each (fun _ => ?_) _) | (refine Sure.whenM ?_ _) | exact putBytes_sure _ _ | exact cacheWrite_sure _ _ _ _) | split | (dsimp only))

theorem fillGranules_sure (a n : Nat) : Sure (fillGranules a n) := by
  unfold fillGranules
  repeat' (first | with_reducible (first | exact Sure.pure _ | exact Sure.eff _ | exact Sure.get | (refine Sure.bind ?_ fun _ => ?_) | (refine Sure.each (fun _ => ?_) _)) | split | (dsimp only))

theorem raiseVersions_sure (l : List Nat) : Sure (raiseVersions l) := by
  unfold raiseVersions
  repeat' (first | with_reducible (first | exact Sure.pure _ | exact Sure.eff _ | exact Sure.get | (refine Sure.bind ?_ fun _ => ?_) | (refine Sure.each (fun _ => ?_) _) | (refine Sure.whenM ?_ _)) | split | (dsimp only))

theorem locateNow_plain (hall vf va : Nat) (r : Right) : Plain (locateNow hall vf va r) := by
  unfold locateNow
  repeat' (first | with_reducible (first | exact Sure.pure _ | exact Sure.eff _ | exact Sure.get | (refine Sure.bind ?_ fun _ => ?_) | exact Plain.pure _ | exact Plain.eff _ | exact Plain.get | exact Plain.trap _ | (refine Plain.bind ?_ fun _ => ?_) | exact modHall_sure _ _ | exact Sure.plain (modHall_sure _ _)) | split | (dsimp only))

theorem guestWrite_sure (hall vf va : Nat) (bs : List Byte) : Sure (guestWrite hall vf va bs) := by
  unfold guestWrite
  repeat' (first | with_reducible (first | exact Sure.pure _ | exact Sure.eff _ | exact Sure.get | (refine Sure.bind ?_ fun _ => ?_) | (refine Sure.each (fun _ => ?_) _) | (refine Sure.attempt ?_) | exact Plain.pure _ | exact Plain.eff _ | exact Plain.get | exact Plain.trap _ | (refine Plain.bind ?_ fun _ => ?_) | (refine Plain.each (fun _ => ?_) _) | exact performBytes_sure _ _ _ _ _ | exact raiseVersions_sure _ | exact Sure.plain (performBytes_sure _ _ _ _ _) | exact Sure.plain (raiseVersions_sure _) | exact locateNow_plain _ _ _ _) | split | (dsimp only))

theorem errorRecord_sure (a b c d e f g h i j k : Nat) : Sure (errorRecord a b c d e f g h i j k) := by
  unfold errorRecord
  repeat' (first | with_reducible (first | exact Sure.pure _ | exact Sure.eff _ | exact Sure.get | (refine Sure.bind ?_ fun _ => ?_) | exact modPkg_sure _ | exact pushError_sure _) | split | (dsimp only))

theorem recordFor_sure (a b c d e : Nat) (t : TrapRec) (w : Nat) (l : List Nat) : Sure (recordFor a b c d e t w l) := by
  unfold recordFor
  repeat' (first | with_reducible (first | exact Sure.pure _ | exact Sure.eff _ | exact Sure.get | (refine Sure.bind ?_ fun _ => ?_) | (refine Sure.whenM ?_ _) | exact modVf_sure _ _ | exact msi_sure _ _ | exact guestWrite_sure _ _ _ _ | exact errorRecord_sure _ _ _ _ _ _ _ _ _ _ _) | split | (dsimp only))

theorem faultRecord_sure (a b c : Nat) (t : TrapRec) (w : Nat) (l : List Nat) : Sure (faultRecord a b c t w l) := by
  unfold faultRecord
  repeat' (first | with_reducible (first | exact Sure.pure _ | exact Sure.eff _ | exact Sure.get | (refine Sure.bind ?_ fun _ => ?_) | exact recordFor_sure _ _ _ _ _ _ _ _) | split | (dsimp only))

theorem serveFE_sure (q : Req) (n : Nat) : Sure (serveFE q n) := by
  unfold serveFE
  repeat' (first | with_reducible (first | exact Sure.pure _ | exact Sure.eff _ | exact Sure.get | (refine Sure.bind ?_ fun _ => ?_) | (refine Sure.each (fun _ => ?_) _) | (refine Sure.whenM ?_ _) | exact sendReply_sure _ _ _ | exact performBytes_sure _ _ _ _ _ | exact fillGranules_sure _ _ | exact raiseVersions_sure _) | split | (dsimp only))

theorem tryFE_sure (q : Req) : Sure (tryFE q) := by
  unfold tryFE
  repeat' (first | with_reducible (first | exact Sure.pure _ | exact Sure.eff _ | exact Sure.get | (refine Sure.bind ?_ fun _ => ?_) | exact raiseLate_sure _ _ _ _ _ _ _ _ | exact serveFE_sure _ _) | split | (dsimp only))

theorem settleFrom_sure : ∀ (n : Nat) , Sure (settleFrom n)
  | 0 => Sure.pure _
  | n + 1 => by
    have ih := settleFrom_sure n
    unfold settleFrom
    repeat' (first | with_reducible (first | apply ih | exact Sure.pure _ | exact Sure.eff _ | exact Sure.get | (refine Sure.bind ?_ fun _ => ?_) | exact tryFE_sure _) | split | (dsimp only))

theorem settleGranules_sure  : Sure (settleGranules) := by
  unfold settleGranules
  repeat' (first | with_reducible (first | exact Sure.pure _ | exact Sure.eff _ | exact Sure.get | (refine Sure.bind ?_ fun _ => ?_) | exact settleFrom_sure _) | split | (dsimp only))

theorem closeSlots_sure (hall inv : Nat) (c : Bool) : Sure (closeSlots hall inv c) := by
  unfold closeSlots
  repeat' (first | with_reducible (first | exact Sure.pure _ | exact Sure.eff _ | exact Sure.get | (refine Sure.bind ?_ fun _ => ?_) | (refine Sure.each (fun _ => ?_) _) | exact modFold_sure _ _ _ | exact settleFold_sure _ _) | split | (dsimp only))

theorem freeInv_sure (hall inv : Nat) : Sure (freeInv hall inv) := by
  unfold freeInv
  repeat' (first | with_reducible (first | exact Sure.pure _ | exact Sure.eff _ | exact Sure.get | (refine Sure.bind ?_ fun _ => ?_) | exact modHall_sure _ _) | split | (dsimp only))

theorem postStore_sure (rid serial : Nat) (x : Held) : Sure (postStore rid serial x) := by
  unfold postStore
  repeat' (first | with_reducible (first | exact Sure.pure _ | exact Sure.eff _ | exact Sure.get | (refine Sure.bind ?_ fun _ => ?_) | exact fresh_sure) | split | (dsimp only))

theorem commitInv_sure (hall inv : Nat) : Sure (commitInv hall inv) := by
  unfold commitInv
  repeat' (first | with_reducible (first | exact Sure.pure _ | exact Sure.eff _ | exact Sure.get | (refine Sure.bind ?_ fun _ => ?_) | (refine Sure.each (fun _ => ?_) _) | exact performBytes_sure _ _ _ _ _ | exact fillGranules_sure _ _ | exact raiseVersions_sure _ | exact settleGranules_sure | exact closeSlots_sure _ _ _ | exact freeInv_sure _ _ | exact postStore_sure _ _ _) | split | (dsimp only))

theorem discardInv_sure (hall inv : Nat) (r : Bool) : Sure (discardInv hall inv r) := by
  unfold discardInv
  repeat' (first | with_reducible (first | exact Sure.pure _ | exact Sure.eff _ | exact Sure.get | (refine Sure.bind ?_ fun _ => ?_) | (refine Sure.whenM ?_ _) | exact faultRecord_sure _ _ _ _ _ _ | exact settleGranules_sure | exact closeSlots_sure _ _ _ | exact freeInv_sure _ _) | split | (dsimp only))

theorem cancelRepair_sure (die number : Nat) : Sure (cancelRepair die number) := by
  unfold cancelRepair
  repeat' (first | with_reducible (first | exact Sure.pure _ | exact Sure.eff _ | exact Sure.get | (refine Sure.bind ?_ fun _ => ?_) | exact modWing_sure _ _) | split | (dsimp only))

theorem cancelRepairsOf_sure (vf rid : Nat) : Sure (cancelRepairsOf vf rid) := by
  unfold cancelRepairsOf
  repeat' (first | with_reducible (first | exact Sure.pure _ | exact Sure.eff _ | exact Sure.get | (refine Sure.bind ?_ fun _ => ?_) | (refine Sure.each (fun _ => ?_) _) | exact cancelRepair_sure _ _) | split | (dsimp only))

theorem freeRegion_sure (rid : Nat) (v : BitVec 64) : Sure (freeRegion rid v) := by
  unfold freeRegion
  repeat' (first | with_reducible (first | exact Sure.pure _ | exact Sure.eff _ | exact Sure.get | (refine Sure.bind ?_ fun _ => ?_) | (refine Sure.each (fun _ => ?_) _) | exact modRegion_sure _ _ | exact modHall_sure _ _ | exact modVf_sure _ _ | exact modWing_sure _ _ | exact modPkg_sure _ | exact endMove_sure _ _ _ | exact cancelRepairsOf_sure _ _) | split | (dsimp only))

theorem finalPoison_sure (rid : Nat) (t : TrapRec) : Sure (finalPoison rid t) := by
  unfold finalPoison
  repeat' (first | with_reducible (first | exact Sure.pure _ | exact Sure.eff _ | exact Sure.get | (refine Sure.bind ?_ fun _ => ?_) | (refine Sure.each (fun _ => ?_) _) | exact replacePending_sure _ _ _ _) | split | (dsimp only))

theorem faultOne_sure (rid : Nat) (t : TrapRec) (d k : Nat) : Sure (faultOne rid t d k) := by
  unfold faultOne
  repeat' (first | with_reducible (first | exact Sure.pure _ | exact Sure.eff _ | exact Sure.get | (refine Sure.bind ?_ fun _ => ?_) | (refine Sure.each (fun _ => ?_) _) | exact faultRecord_sure _ _ _ _ _ _ | exact discardInv_sure _ _ _ | exact freeRegion_sure _ _ | exact finalPoison_sure _ _) | split | (dsimp only))

theorem regionFault_sure (rid : Nat) (t : TrapRec) (d k : Nat) : Sure (regionFault rid t d k) := by
  unfold regionFault
  repeat' (first | with_reducible (first | exact Sure.pure _ | exact Sure.eff _ | exact Sure.get | (refine Sure.bind ?_ fun _ => ?_) | (refine Sure.each (fun _ => ?_) _) | exact faultOne_sure _ _ _ _) | split | (dsimp only))

theorem takeTrap_sure (rid : Nat) (r : Region) : Sure (takeTrap rid r) := by
  unfold takeTrap
  repeat' (first | with_reducible (first | exact Sure.pure _ | exact Sure.eff _ | exact Sure.get | (refine Sure.bind ?_ fun _ => ?_) | exact regionFault_sure _ _ _ _) | split | (dsimp only))

theorem deliver_sure : ∀ (n : Nat) , Sure (deliver n)
  | 0 => Sure.pure _
  | n + 1 => by
    have ih := deliver_sure n
    unfold deliver
    repeat' (first | with_reducible (first | apply ih | exact Sure.pure _ | exact Sure.eff _ | exact Sure.get | (refine Sure.bind ?_ fun _ => ?_) | exact takeTrap_sure _ _) | split | (dsimp only))

theorem deliverTraps_sure  : Sure (deliverTraps) := by
  unfold deliverTraps
  repeat' (first | with_reducible (first | exact Sure.pure _ | exact Sure.eff _ | exact Sure.get | (refine Sure.bind ?_ fun _ => ?_) | exact deliver_sure _) | split | (dsimp only))

theorem waitHere_sure  : Sure (waitHere) := by
  unfold waitHere
  repeat' (first | with_reducible (first | exact Sure.pure _ | exact Sure.eff _ | exact Sure.get | (refine Sure.bind ?_ fun _ => ?_) | exact modRegion_sure _ _) | split | (dsimp only))

theorem modSeq_sure (g : Sequencer → Sequencer) : Sure (modSeq g) := by
  unfold modSeq
  repeat' (first | with_reducible (first | exact Sure.pure _ | exact Sure.eff _ | exact Sure.get | (refine Sure.bind ?_ fun _ => ?_) | exact modRegion_sure _ _) | split | (dsimp only))

theorem mySeq_sure  : Sure (mySeq) := by
  unfold mySeq
  repeat' (first | with_reducible (first | exact Sure.pure _ | exact Sure.eff _ | exact Sure.get | (refine Sure.bind ?_ fun _ => ?_)) | split | (dsimp only))

theorem advance_sure  : Sure (advance) := by
  unfold advance
  repeat' (first | with_reducible (first | exact Sure.pure _ | exact Sure.eff _ | exact Sure.get | (refine Sure.bind ?_ fun _ => ?_) | exact modSeq_sure _) | split | (dsimp only))

theorem reg_sure (i : BitVec 5) : Sure (reg i) := by
  unfold reg
  repeat' (first | with_reducible (first | exact Sure.pure _ | exact Sure.eff _ | exact Sure.get | (refine Sure.bind ?_ fun _ => ?_) | exact mySeq_sure) | split | (dsimp only))

theorem setReg_sure (i : BitVec 5) (v : Nat) : Sure (setReg i v) := by
  unfold setReg
  repeat' (first | with_reducible (first | exact Sure.pure _ | exact Sure.eff _ | exact Sure.get | (refine Sure.bind ?_ fun _ => ?_) | exact modSeq_sure _) | split | (dsimp only))

theorem operandB_sure (f : CmdRec) : Sure (operandB f) := by
  unfold operandB
  repeat' (first | with_reducible (first | exact Sure.pure _ | exact Sure.eff _ | exact Sure.get | (refine Sure.bind ?_ fun _ => ?_) | exact reg_sure _) | split | (dsimp only))

theorem arrivalTrap_sure (a b c d : Nat) (t : Token) (e f : Nat) : Sure (arrivalTrap a b c d t e f) := by
  unfold arrivalTrap
  repeat' (first | with_reducible (first | exact Sure.pure _ | exact Sure.eff _ | exact Sure.get | (refine Sure.bind ?_ fun _ => ?_) | exact modRegion_sure _ _) | split | (dsimp only))

theorem addReady_sure (a b c d : Nat) (o : KMap Token) : Sure (addReady a b c d o) := by
  unfold addReady
  repeat' (first | with_reducible (first | exact Sure.pure _ | exact Sure.eff _ | exact Sure.get | (refine Sure.bind ?_ fun _ => ?_) | exact modRegion_sure _ _) | split | (dsimp only))

theorem arriveToken_sure (a b c d : Nat) (t : Token) (f q : Bool) : Sure (arriveToken a b c d t f q) := by
  unfold arriveToken
  repeat' (first | with_reducible (first | exact Sure.pure _ | exact Sure.eff _ | exact Sure.get | (refine Sure.bind ?_ fun _ => ?_) | exact modRegion_sure _ _ | exact modHall_sure _ _ | exact stir_sure _ | exact arrivalTrap_sure _ _ _ _ _ _ _ | exact addReady_sure _ _ _ _ _) | split | (dsimp only))

theorem declareFold_sure (hall ctx owner vf : Nat) (l : Lattice) (c : CheckState) : Sure (declareFold hall ctx owner vf l c) := by
  unfold declareFold
  repeat' (first | with_reducible (first | exact Sure.pure _ | exact Sure.eff _ | exact Sure.get | (refine Sure.bind ?_ fun _ => ?_) | exact modHall_sure _ _) | split | (dsimp only))

theorem defineStream_sure (rid k : Nat) (d : StreamDesc) : Sure (defineStream rid k d) := by
  unfold defineStream
  repeat' (first | with_reducible (first | exact Sure.pure _ | exact Sure.eff _ | exact Sure.get | (refine Sure.bind ?_ fun _ => ?_) | exact modRegion_sure _ _) | split | (dsimp only))

theorem loadFolds_sure (rid : Nat) (l : List Section) : Sure (loadFolds rid l) := by
  unfold loadFolds
  repeat' (first | with_reducible (first | exact Sure.pure _ | exact Sure.eff _ | exact Sure.get | (refine Sure.bind ?_ fun _ => ?_) | (refine Sure.collect (fun _ => ?_) _) | exact declareFold_sure _ _ _ _ _ _) | split | (dsimp only))

theorem loadStreams_sure (rid : Nat) (l : List Section) : Sure (loadStreams rid l) := by
  unfold loadStreams
  repeat' (first | with_reducible (first | exact Sure.pure _ | exact Sure.eff _ | exact Sure.get | (refine Sure.bind ?_ fun _ => ?_) | (refine Sure.collect (fun _ => ?_) _) | exact defineStream_sure _ _ _) | split | (dsimp only))

theorem placeAct_sure (rid act : Nat) : Sure (placeAct rid act) := by
  unfold placeAct
  repeat' (first | with_reducible (first | exact Sure.pure _ | exact Sure.eff _ | exact Sure.get | (refine Sure.bind ?_ fun _ => ?_) | exact loadFolds_sure _ _ | exact loadStreams_sure _ _) | split | (dsimp only))

theorem trapCode_plain (c o : Nat) : Plain ((trapCode c o : M Unit)) := by
  unfold trapCode
  repeat' (first | with_reducible (first | exact Sure.pure _ | exact Sure.eff _ | exact Sure.get | (refine Sure.bind ?_ fun _ => ?_) | exact Plain.pure _ | exact Plain.eff _ | exact Plain.get | exact Plain.trap _ | (refine Plain.bind ?_ fun _ => ?_)) | split | (dsimp only))

theorem startLoad_plain (rid act : Nat) : Plain (startLoad rid act) := by
  unfold startLoad
  repeat' (first | with_reducible (first | exact Sure.pure _ | exact Sure.eff _ | exact Sure.get | (refine Sure.bind ?_ fun _ => ?_) | exact Plain.pure _ | exact Plain.eff _ | exact Plain.get | exact Plain.trap _ | (refine Plain.bind ?_ fun _ => ?_) | exact modRegion_sure _ _ | exact placeAct_sure _ _ | exact Sure.plain (modRegion_sure _ _) | exact Sure.plain (placeAct_sure _ _) | exact trapCode_plain _ _) | split | (dsimp only))

theorem preloadAct_sure (rid act : Nat) : Sure (preloadAct rid act) := by
  unfold preloadAct
  repeat' (first | with_reducible (first | exact Sure.pure _ | exact Sure.eff _ | exact Sure.get | (refine Sure.bind ?_ fun _ => ?_) | (refine Sure.attempt ?_) | exact Plain.pure _ | exact Plain.eff _ | exact Plain.get | exact Plain.trap _ | (refine Plain.bind ?_ fun _ => ?_) | exact startLoad_plain _ _) | split | (dsimp only))

theorem startRun_sure (rid first n : Nat) : Sure (startRun rid first n) := by
  unfold startRun
  repeat' (first | with_reducible (first | exact Sure.pure _ | exact Sure.eff _ | exact Sure.get | (refine Sure.bind ?_ fun _ => ?_) | (refine Sure.each (fun _ => ?_) _) | (refine Sure.whenM ?_ _) | exact modRegion_sure _ _ | exact addReady_sure _ _ _ _ _ | exact arriveToken_sure _ _ _ _ _ _ _ | exact preloadAct_sure _ _) | split | (dsimp only))

theorem modImage_sure (vf n : Nat) (g : SaveImage → SaveImage) : Sure (modImage vf n g) := by
  unfold modImage
  repeat' (first | with_reducible (first | exact Sure.pure _ | exact Sure.eff _ | exact Sure.get | (refine Sure.bind ?_ fun _ => ?_) | exact modVf_sure _ _) | split | (dsimp only))

theorem withdraw_sure (rid : Nat) : Sure (withdraw rid) := by
  unfold withdraw
  repeat' (first | with_reducible (first | exact Sure.pure _ | exact Sure.eff _ | exact Sure.get | (refine Sure.bind ?_ fun _ => ?_)) | split | (dsimp only))

theorem vacate_sure (rid : Nat) : Sure (vacate rid) := by
  unfold vacate
  repeat' (first | with_reducible (first | exact Sure.pure _ | exact Sure.eff _ | exact Sure.get | (refine Sure.bind ?_ fun _ => ?_) | (refine Sure.each (fun _ => ?_) _) | exact modHall_sure _ _ | exact withdraw_sure _) | split | (dsimp only))

theorem park_sure (rid : Nat) : Sure (park rid) := by
  unfold park
  repeat' (first | with_reducible (first | exact Sure.pure _ | exact Sure.eff _ | exact Sure.get | (refine Sure.bind ?_ fun _ => ?_) | exact modImage_sure _ _ _ | exact vacate_sure _) | split | (dsimp only))

theorem clearPlace_sure (vf hall ctx shape origin : Nat) : Sure (clearPlace vf hall ctx shape origin) := by
  unfold clearPlace
  repeat' (first | with_reducible (first | exact Sure.pure _ | exact Sure.eff _ | exact Sure.get | (refine Sure.bind ?_ fun _ => ?_) | (refine Sure.each (fun _ => ?_) _) | exact park_sure _) | split | (dsimp only))

theorem leaveHandler_sure (rid : Nat) : Sure (leaveHandler rid) := by
  unfold leaveHandler
  repeat' (first | with_reducible (first | exact Sure.pure _ | exact Sure.eff _ | exact Sure.get | (refine Sure.bind ?_ fun _ => ?_) | exact modRegion_sure _ _ | exact stir_sure _) | split | (dsimp only))

theorem skipCommand_sure (rid d : Nat) : Sure (skipCommand rid d) := by
  unfold skipCommand
  repeat' (first | with_reducible (first | exact Sure.pure _ | exact Sure.eff _ | exact Sure.get | (refine Sure.bind ?_ fun _ => ?_) | exact modRegion_sure _ _) | split | (dsimp only))

theorem markDiscard_sure (hall inv code : Nat) : Sure (markDiscard hall inv code) := by
  unfold markDiscard
  repeat' (first | with_reducible (first | exact Sure.pure _ | exact Sure.eff _ | exact Sure.get | (refine Sure.bind ?_ fun _ => ?_) | exact modHall_sure _ _) | split | (dsimp only))

theorem discardTag_sure (rid tag code : Nat) : Sure (discardTag rid tag code) := by
  unfold discardTag
  repeat' (first | with_reducible (first | exact Sure.pure _ | exact Sure.eff _ | exact Sure.get | (refine Sure.bind ?_ fun _ => ?_) | exact markDiscard_sure _ _ _) | split | (dsimp only))

theorem addReq_sure (q : Req) : Sure (addReq q) := by
  unfold addReq
  repeat' (first | with_reducible (first | exact Sure.pure _ | exact Sure.eff _ | exact Sure.get | (refine Sure.bind ?_ fun _ => ?_)) | split | (dsimp only))

theorem joinWalk_sure (hall vf va : Nat) : Sure (joinWalk hall vf va) := by
  unfold joinWalk
  repeat' (first | with_reducible (first | exact Sure.pure _ | exact Sure.eff _ | exact Sure.get | (refine Sure.bind ?_ fun _ => ?_) | exact fresh_sure) | split | (dsimp only))

theorem countMiss_sure (rid : Nat) : Sure (countMiss rid) := by
  unfold countMiss
  repeat' (first | with_reducible (first | exact Sure.pure _ | exact Sure.eff _ | exact Sure.get | (refine Sure.bind ?_ fun _ => ?_) | exact modRegion_sure _ _) | split | (dsimp only))

theorem drainTrap_sure (q : Req) (k row code w9 : Nat) : Sure (drainTrap q k row code w9) := by
  unfold drainTrap
  repeat' (first | with_reducible (first | exact Sure.pure _ | exact Sure.eff _ | exact Sure.get | (refine Sure.bind ?_ fun _ => ?_) | exact modRegion_sure _ _) | split | (dsimp only))

theorem modPlinth_sure (hall k : Nat) (g : Plinth → Plinth) : Sure (modPlinth hall k g) := by
  unfold modPlinth
  repeat' (first | with_reducible (first | exact Sure.pure _ | exact Sure.eff _ | exact Sure.get | (refine Sure.bind ?_ fun _ => ?_) | exact modHall_sure _ _) | split | (dsimp only))

theorem startDrain_sure (hall k row : Nat) : Sure (startDrain hall k row) := by
  unfold startDrain
  repeat' (first | with_reducible (first | exact Sure.pure _ | exact Sure.eff _ | exact Sure.get | (refine Sure.bind ?_ fun _ => ?_) | exact fresh_sure | exact addReq_sure _ | exact joinWalk_sure _ _ _ | exact countMiss_sure _ | exact drainTrap_sure _ _ _ _ _ | exact modPlinth_sure _ _ _) | split | (dsimp only))

theorem sendLane_sure (i : Issue) (d : Dest) (t : Token) : Sure (sendLane i d t) := by
  unfold sendLane
  repeat' (first | with_reducible (first | exact Sure.pure _ | exact Sure.eff _ | exact Sure.get | (refine Sure.bind ?_ fun _ => ?_) | exact emitTo_sure _ _ _ _ | exact replacePending_sure _ _ _ _) | split | (dsimp only))

theorem sendBoth_sure (i : Issue) (f : NodeRec) (t : Token) : Sure (sendBoth i f t) := by
  unfold sendBoth
  repeat' (first | with_reducible (first | exact Sure.pure _ | exact Sure.eff _ | exact Sure.get | (refine Sure.bind ?_ fun _ => ?_) | exact sendLane_sure _ _ _) | split | (dsimp only))

theorem mxSend_sure (j : PlinthJob) (f : NodeRec) (da : Option Token) : Sure (mxSend j f da) := by
  unfold mxSend
  repeat' (first | with_reducible (first | exact Sure.pure _ | exact Sure.eff _ | exact Sure.get | (refine Sure.bind ?_ fun _ => ?_) | exact sendLane_sure _ _ _ | exact sendBoth_sure _ _ _) | split | (dsimp only))

theorem jobStep_sure (hall k n : Nat) (j : PlinthJob) : Sure (jobStep hall k n j) := by
  unfold jobStep
  repeat' (first | with_reducible (first | exact Sure.pure _ | exact Sure.eff _ | exact Sure.get | (refine Sure.bind ?_ fun _ => ?_) | (refine Sure.whenM ?_ _) | exact stir_sure _ | exact raiseNode_sure _ _ _ _ _ _ | exact modPlinth_sure _ _ _ | exact startDrain_sure _ _ _ | exact mxSend_sure _ _ _) | split | (dsimp only))

theorem plinthStep_sure (hall k : Nat) : Sure (plinthStep hall k) := by
  unfold plinthStep
  repeat' (first | with_reducible (first | exact Sure.pure _ | exact Sure.eff _ | exact Sure.get | (refine Sure.bind ?_ fun _ => ?_) | exact jobStep_sure _ _ _ _) | split | (dsimp only))

theorem settlePlinthN_sure : ∀ (n : Nat) (hall k : Nat), Sure (settlePlinthN hall k n)
  | 0, _, _ => Sure.pure _
  | n + 1, _, _ => by
    have ih := settlePlinthN_sure n
    unfold settlePlinthN
    repeat' (first | with_reducible (first | apply ih | exact Sure.pure _ | exact Sure.eff _ | exact Sure.get | (refine Sure.bind ?_ fun _ => ?_) | exact plinthStep_sure _ _) | split | (dsimp only))

theorem settlePlinth_sure (hall k : Nat) : Sure (settlePlinth hall k) := by
  unfold settlePlinth
  repeat' (first | with_reducible (first | exact Sure.pure _ | exact Sure.eff _ | exact Sure.get | (refine Sure.bind ?_ fun _ => ?_) | exact settlePlinthN_sure _ _ _) | split | (dsimp only))

theorem dropRow_sure (hall k row : Nat) : Sure (dropRow hall k row) := by
  unfold dropRow
  repeat' (first | with_reducible (first | exact Sure.pure _ | exact Sure.eff _ | exact Sure.get | (refine Sure.bind ?_ fun _ => ?_) | exact modPlinth_sure _ _ _ | exact settlePlinth_sure _ _) | split | (dsimp only))

theorem keepImage_sure (vf : Nat) (x : SaveImage) : Sure (keepImage vf x) := by
  unfold keepImage
  repeat' (first | with_reducible (first | exact Sure.pure _ | exact Sure.eff _ | exact Sure.get | (refine Sure.bind ?_ fun _ => ?_) | exact modVf_sure _ _) | split | (dsimp only))

theorem stopRegion_sure (rid tier : Nat) (slot : Option Nat) (st : RegionState) : Sure (stopRegion rid tier slot st) := by
  unfold stopRegion
  repeat' (first | with_reducible (first | exact Sure.pure _ | exact Sure.eff _ | exact Sure.get | (refine Sure.bind ?_ fun _ => ?_) | (refine Sure.whenM ?_ _) | exact modWing_sure _ _ | exact fresh_sure | exact guestWrite_sure _ _ _ _ | exact withdraw_sure _ | exact keepImage_sure _ _) | split | (dsimp only))

theorem beginSnapshot_sure (rid : Nat) : Sure (beginSnapshot rid) := by
  unfold beginSnapshot
  repeat' (first | with_reducible (first | exact Sure.pure _ | exact Sure.eff _ | exact Sure.get | (refine Sure.bind ?_ fun _ => ?_) | exact modRegion_sure _ _) | split | (dsimp only))

theorem startSnapshot_sure (rid : Nat) (slot : Option Nat) : Sure (startSnapshot rid slot) := by
  unfold startSnapshot
  repeat' (first | with_reducible (first | exact Sure.pure _ | exact Sure.eff _ | exact Sure.get | (refine Sure.bind ?_ fun _ => ?_) | (refine Sure.whenM ?_ _) | exact modRegion_sure _ _ | exact beginSnapshot_sure _) | split | (dsimp only))

theorem reissue_sure (vf : Nat) (q : Req) : Sure (reissue vf q) := by
  unfold reissue
  repeat' (first | with_reducible (first | exact Sure.pure _ | exact Sure.eff _ | exact Sure.get | (refine Sure.bind ?_ fun _ => ?_) | exact fresh_sure | exact addReq_sure _ | exact joinWalk_sure _ _ _) | split | (dsimp only))

theorem endRegion_sure (rid : Nat) : Sure (endRegion rid) := by
  unfold endRegion
  repeat' (first | with_reducible (first | exact Sure.pure _ | exact Sure.eff _ | exact Sure.get | (refine Sure.bind ?_ fun _ => ?_) | (refine Sure.each (fun _ => ?_) _) | exact discardInv_sure _ _ _ | exact freeRegion_sure _ _) | split | (dsimp only))

theorem releaseVf_sure (vf : Nat) : Sure (releaseVf vf) := by
  unfold releaseVf
  repeat' (first | with_reducible (first | exact Sure.pure _ | exact Sure.eff _ | exact Sure.get | (refine Sure.bind ?_ fun _ => ?_) | (refine Sure.each (fun _ => ?_) _) | exact modVf_sure _ _ | exact modPkg_sure _ | exact endRegion_sure _) | split | (dsimp only))

end Sys2Proof.Machine
end

