-- ==== Sys2Proof/Laws/Tiles.lean ====
section
/-! SUPPORT. What a tile node and an attention node can do when no lane of it traps. -/
namespace Sys2Proof.Machine

variable {s t u : State} {r : Region}

theorem counted_reaches (rid : Nat) (o : TileOut) (s : State) :
    Reaches (whenM (0 < o.lost + o.under) (modRegion rid (fun r =>
      { r with sys := { r.sys with lostTerm := satAdd r.sys.lostTerm o.lost, probUnder := satAdd r.sys.probUnder o.under } }))) s ()
      (counted rid o s) := by
  unfold counted
  by_cases h : 0 < o.lost + o.under
  · simp only [h, decide_true, whenM_true, if_true]
    exact onRegion_reaches _ _ _
  · simp only [h, decide_false, whenM_false, if_false]
    exact Reaches.pure () s

/-- A region is there, with a TRAPEN, and no trap is to be delivered. -/
def Steady (rid : Nat) (en : BitVec 64) (s : State) : Prop := trapWaiting s = none ∧ ∃ r, kget s.regions rid = some r ∧ r.sys.trapEn = en

theorem Steady.kin {rid : Nat} {en : BitVec 64} (h : Steady rid en s) (k : Kin s t) : Steady rid en t := by
  obtain ⟨h1, r, h2, h3⟩ := h
  obtain ⟨r', h4, h5⟩ := k.get h2
  exact ⟨k.2 h1, r', h4, by rw [core_sys h5]; exact h3⟩

theorem Steady.counted {rid : Nat} {en : BitVec 64} (o : TileOut) (h : Steady rid en s) : Steady rid en (counted rid o s) := by
  unfold Machine.counted
  split
  · obtain ⟨h1, r, h2, h3⟩ := h
    refine ⟨onRegion_quiet rid (fun _ => rfl) (fun _ => rfl) (fun _ => rfl) (fun _ => rfl) h1,
      { r with sys := { r.sys with lostTerm := satAdd r.sys.lostTerm o.lost, probUnder := satAdd r.sys.probUnder o.under } }, ?_, h3⟩
    simp only [onRegion, h2, kget_kset_self]
  · exact h

/-- A tile node whose firing lanes all give results that their conditions let stand. -/
theorem tileNode_next {f : NodeRec} {g : TileOp} {x : Issue} (hf : Fires s x r) (o : Lane → TileOut)
    (hg : ∀ l ∈ x.lanes, firing f l = true → g (mdOf x f) l = .ok (o l) ∧ fate r.sys.trapEn (o l).conds = .stands) :
    runNode (tileNode f g) s = .next (tileDone f x o s) := by
  have hs : Steady x.rid r.sys.trapEn s := ⟨hf.2.2, r, hf.2.1, rfl⟩
  have hp : ∀ u l, l ∈ x.lanes → Steady x.rid r.sys.trapEn u →
      Steady x.rid r.sys.trapEn (laneSent f x l (laneTokens f l ((o l).da, (o l).db)) (if firing f l then counted x.rid (o l) u else u)) := by
    intro u l _ hu
    refine Steady.kin ?_ (laneSent_kin f x l _ _)
    split
    · exact hu.counted _
    · exact hu
  refine node_next (lanes_reaches hf (fun l u => counted x.rid (o l) u) (fun l _ => ((o l).da, (o l).db)) (Steady x.rid r.sys.trapEn) hs ?_ hp) ?_
  · intro u l hl hfi hu
    obtain ⟨h1, r', h2, h3⟩ := hu
    refine ⟨r', h2, ?_⟩
    obtain ⟨h4, h5⟩ := hg l hl hfi
    simp only [h4, judge, h3, h5]
    exact (counted_reaches _ _ _).bind (Reaches.pure _ _)
  · have : ∀ (m : List Lane) (u : State), (∀ l ∈ m, l ∈ x.lanes) → Steady x.rid r.sys.trapEn u → Steady x.rid r.sys.trapEn
        (m.foldl (fun u l => laneSent f x l (laneTokens f l ((o l).da, (o l).db)) (if firing f l then counted x.rid (o l) u else u)) u) := by
      intro m
      induction m with
      | nil => intro u _ h; exact h
      | cons l m ih => intro u hm h; exact ih _ (fun y hy => hm y (by simp [hy])) (hp u l (hm l (by simp)) h)
    exact (this x.lanes s (fun _ h => h) hs).1

end Sys2Proof.Machine
end

