-- ==== Sys2Proof/Laws/Time.lean ====
section
/-! SUPPORT. What the time between two moves changes: counts of the halls, and nothing else (R198). -/
namespace Sys2Proof.Machine

/-! ### A hall -/

@[simp] theorem elapse_wing (h : Hall) (n : Nat) (p q : Bool) : (h.elapse n p q).wing = h.wing := rfl
@[simp] theorem elapse_powered (h : Hall) (n : Nat) (p q : Bool) : (h.elapse n p q).powered = h.powered := rfl
@[simp] theorem elapse_filter (h : Hall) (n : Nat) (p q : Bool) : (h.elapse n p q).filter = h.filter := rfl
@[simp] theorem elapse_portsOpen (h : Hall) (n : Nat) (p q : Bool) : (h.elapse n p q).portsOpen = h.portsOpen := rfl
@[simp] theorem elapse_table (h : Hall) (n : Nat) (p q : Bool) : (h.elapse n p q).table = h.table := rfl
@[simp] theorem elapse_released (h : Hall) (n : Nat) (p q : Bool) : (h.elapse n p q).released = h.released := rfl
@[simp] theorem elapse_freq (h : Hall) (n : Nat) (p q : Bool) : (h.elapse n p q).freq = h.freq := rfl
@[simp] theorem elapse_step (h : Hall) (n : Nat) (p q : Bool) : (h.elapse n p q).step = h.step := rfl
@[simp] theorem elapse_ceiling (h : Hall) (n : Nat) (p q : Bool) : (h.elapse n p q).ceiling = h.ceiling := rfl
@[simp] theorem elapse_windowStart (h : Hall) (n : Nat) (p q : Bool) : (h.elapse n p q).windowStart = h.windowStart := rfl
@[simp] theorem elapse_temps (h : Hall) (n : Nat) (p q : Bool) : (h.elapse n p q).temps = h.temps := rfl
@[simp] theorem elapse_held (h : Hall) (n : Nat) (p q : Bool) : (h.elapse n p q).held = h.held := rfl
@[simp] theorem elapse_heldSince (h : Hall) (n : Nat) (p q : Bool) : (h.elapse n p q).heldSince = h.heldSince := rfl
@[simp] theorem elapse_vtuse (h : Hall) (n : Nat) (p q : Bool) : (h.elapse n p q).vtuse = h.vtuse := rfl
@[simp] theorem elapse_walking (h : Hall) (n : Nat) (p q : Bool) : (h.elapse n p q).walking = h.walking := rfl
@[simp] theorem elapse_reserved (h : Hall) (n : Nat) (p q : Bool) : (h.elapse n p q).reserved = h.reserved := rfl
@[simp] theorem elapse_spare (h : Hall) (n : Nat) (p q : Bool) : (h.elapse n p q).spare = h.spare := rfl
@[simp] theorem elapse_cache (h : Hall) (n : Nat) (p q : Bool) : (h.elapse n p q).cache = h.cache := rfl
@[simp] theorem elapse_tlb (h : Hall) (n : Nat) (p q : Bool) : (h.elapse n p q).tlb = h.tlb := rfl
@[simp] theorem elapse_overflow (h : Hall) (n : Nat) (p q : Bool) : (h.elapse n p q).overflow = h.overflow := rfl
@[simp] theorem elapse_invs (h : Hall) (n : Nat) (p q : Bool) : (h.elapse n p q).invs = h.invs := rfl
@[simp] theorem elapse_hold (h : Hall) (n : Nat) (p q : Bool) : (h.elapse n p q).hold = h.hold := rfl
@[simp] theorem elapse_pins (h : Hall) (n : Nat) (p q : Bool) : (h.elapse n p q).pins = h.pins := rfl
@[simp] theorem elapse_folds (h : Hall) (n : Nat) (p q : Bool) : (h.elapse n p q).folds = h.folds := rfl
@[simp] theorem elapse_plinths (h : Hall) (n : Nat) (p q : Bool) : (h.elapse n p q).plinths = h.plinths := rfl
@[simp] theorem elapse_served (h : Hall) (n : Nat) (p q : Bool) : (h.elapse n p q).served = h.served := rfl
@[simp] theorem elapse_credits (h : Hall) (n : Nat) (p q : Bool) : (h.elapse n p q).credits = h.credits := rfl

/-! ### The machine -/

@[simp] theorem beginTurn_turn (s : State) (t : Turn) (rest : List Turn) : (beginTurn s t rest).turn = t := rfl
@[simp] theorem beginTurn_agenda (s : State) (t : Turn) (rest : List Turn) : (beginTurn s t rest).agenda = rest := rfl
@[simp] theorem beginTurn_tick (s : State) (t : Turn) (rest : List Turn) : (beginTurn s t rest).tick = s.tick + 1 := rfl
@[simp] theorem beginTurn_moves (s : State) (t : Turn) (rest : List Turn) : (beginTurn s t rest).moves = s.moves + 1 := rfl
@[simp] theorem beginTurn_timeNs (s : State) (t : Turn) (rest : List Turn) : (beginTurn s t rest).timeNs = s.timeNs + Config.freeNs s.tick := rfl
@[simp] theorem beginTurn_issue (s : State) (t : Turn) (rest : List Turn) : (beginTurn s t rest).issue = s.issue := rfl
@[simp] theorem beginTurn_seqNow (s : State) (t : Turn) (rest : List Turn) : (beginTurn s t rest).seqNow = s.seqNow := rfl
@[simp] theorem beginTurn_who (s : State) (t : Turn) (rest : List Turn) : (beginTurn s t rest).who = s.who := rfl
@[simp] theorem beginTurn_input (s : State) (t : Turn) (rest : List Turn) : (beginTurn s t rest).input = s.input := rfl
@[simp] theorem beginTurn_mem (s : State) (t : Turn) (rest : List Turn) : (beginTurn s t rest).mem = s.mem := rfl
@[simp] theorem beginTurn_full (s : State) (t : Turn) (rest : List Turn) : (beginTurn s t rest).full = s.full := rfl
@[simp] theorem beginTurn_marks (s : State) (t : Turn) (rest : List Turn) : (beginTurn s t rest).marks = s.marks := rfl
@[simp] theorem beginTurn_pkg (s : State) (t : Turn) (rest : List Turn) : (beginTurn s t rest).pkg = s.pkg := rfl
@[simp] theorem beginTurn_wings (s : State) (t : Turn) (rest : List Turn) : (beginTurn s t rest).wings = s.wings := rfl
@[simp] theorem beginTurn_vfs (s : State) (t : Turn) (rest : List Turn) : (beginTurn s t rest).vfs = s.vfs := rfl
@[simp] theorem beginTurn_regions (s : State) (t : Turn) (rest : List Turn) : (beginTurn s t rest).regions = s.regions := rfl
@[simp] theorem beginTurn_service (s : State) (t : Turn) (rest : List Turn) : (beginTurn s t rest).service = s.service := rfl
@[simp] theorem beginTurn_chans (s : State) (t : Turn) (rest : List Turn) : (beginTurn s t rest).chans = s.chans := rfl
@[simp] theorem beginTurn_reqs (s : State) (t : Turn) (rest : List Turn) : (beginTurn s t rest).reqs = s.reqs := rfl
@[simp] theorem beginTurn_names (s : State) (t : Turn) (rest : List Turn) : (beginTurn s t rest).names = s.names := rfl
@[simp] theorem beginTurn_walks (s : State) (t : Turn) (rest : List Turn) : (beginTurn s t rest).walks = s.walks := rfl
@[simp] theorem beginTurn_conservators (s : State) (t : Turn) (rest : List Turn) : (beginTurn s t rest).conservators = s.conservators := rfl
@[simp] theorem beginTurn_halls_length (s : State) (t : Turn) (rest : List Turn) : (beginTurn s t rest).halls.length = s.halls.length := by
  simp only [beginTurn, List.length_map, List.length_zipIdx]

/-- Each hall counts the time, and is otherwise as it was. -/
theorem beginTurn_hall (s : State) (t : Turn) (rest : List Turn) {k : Nat} {h : Hall} (e : s.halls[k]? = some h) :
    (beginTurn s t rest).halls[k]? = some (h.elapse (Config.freeNs s.tick) (pressedIn s k) (starvedIn s k && !issuesIn k t)) := by
  simp only [beginTurn, List.getElem?_map, List.getElem?_zipIdx, e, Option.map_some, Nat.zero_add]

end Sys2Proof.Machine
end

