-- ==== Sys2Proof/Tests/Slice0.lean ====
section
/-! SUPPORT. Tests and witnesses. `test_…`: words written out from the specification's encodings, terms that the checks refuse, and the specification's worked
examples. `meets_…`: for each statement with premises, a concrete state and operands that meet them together; for a statement over the entries of a table, one for
each entry, named by its constructor. -/
namespace Sys2Proof.Tests
open Sys2Proof Sys2Proof.Machine Sys2Proof.Claims
set_option maxRecDepth 20000
set_option linter.unusedTactic false
set_option linter.unreachableTactic false
set_option linter.unusedSimpArgs false
set_option Elab.async false
/-- A hall of wing 0 that runs. -/
def hall : Hall := { Hall.reset with wing := some 0, powered := true, filter := some 0, portsOpen := true, released := true }
/-- A wing of one hall. -/
def wing : Wing := { x0 := 0, y0 := 0, width := 1, height := 1, tenant := 7 }
/-- A state with hall 0 in wing 0, function 0 in it, and some regions. -/
def site (l : KMap Region) : State := { State.reset with
  halls := State.reset.halls.set 0 hall, wings := [(0, wing)], vfs := [(0, { wing := some 0 })], regions := l, who := 0
  pkg := { State.reset.pkg with booted := true, life := .deployed } }
/-- A running region of cell 0 of hall 0. -/
def running : Region := { probeRegion [] with state := .running }
/-- A node's fields, with nothing set. -/
def node : NodeRec := { ty := .i32, md := 0, da := .discard, db := .discard, ls := .absent, pg := .ungated, gather := 0, ax := 0, ex := 0, lit := 0 }
/-- A command's fields, with nothing set. -/
def cmd : CmdRec := { ty := .untyped, md := 0, d := 0, s := 0, t := 0, ext := 0, imm := 0 }
def withHall (g : Hall → Hall) (s : State) : State := { s with halls := s.halls.set 0 (g (hallAt s 0)) }
def withPkg (g : Package → Package) (s : State) : State := { s with pkg := g s.pkg }
def site0 : State := site []

def enc (i : Instr) : Rec := (encode { instr := i, seq := none }).getD 0
def recBytes (r : Rec) : List Byte := bytesOfNat 4 (r.toNat / 2^64) ++ bytesOfNat 4 (r.toNat / 2^32) ++ bytesOfNat 4 r.toNat
def bank (l : KMap Rec) (cs : KMap (BitVec 256)) : Bank := { act := some 0, nodes := l.map (fun p => (p.1, { record := p.2, base := 0, size := 0 })), circuits := cs, free := [(0, [5,6])] }
def ln (t : Nat) : Lane := { tag := t, ops := [(0,{value := 3, tag := t}), (1,{value := 4, tag := t}), (2,{value := 4, tag := t}), (3,{value := 4, tag := t})] }
def ch (p : Place) (q f : List Token) : Chan := { src := 0, hall := 0, ctx := 0, wing := 0, place := p, depth := 4, outside := false, queue := q, flight := f.map (fun x => { hall := 0, circuit := 0, token := x }), unacked := f.length + 1, freed := 0 }
def tk : Token := { value := 7, tag := 2 }
def late (s : State) : State := { s with timeNs := 10000000 }

def act0 : List Byte := oneCommandAct (recBytes 0)
def act0Secs : List Section := [{ kind := 9, cell := 0, log2 := 0, count := 1, base := 0, payload := recBytes 0 }]
def regs (l : List (Nat × Reg)) (q : Sequencer) : Sequencer := l.foldl (fun q p => q.put p.1 p.2) q
def buf : Buffer := { scratch := some 0, base := 0, len := 4096, read := true, write := true, atomic := true }
def mem (vs : List (Nat × Nat)) : Memory := vs.foldl (fun m p => (List.range 8).foldl (fun m i => writeByte m (scratchAddr 0 (p.1 + i)) (BitVec.ofNat 8 (p.2 / 2^(8*i)))) m) []
def scr (s : State) : State := withHall (fun h => { h with vtuse := (h.vtuse.set 0 0x11).set 1 0x444444 }) { s with vfs := [(0, { wing := some 0, events := [(7, 5)], handles := [(handleKey 0 1, { visible := some buf }), (handleKey 0 2, { visible := some buf, shadow := some buf })] })] }
def inWing (g : Wing → Wing) (s : State) : State := { s with wings := [(0, g wing)] }

/-- No trap is on its way, and the state with what comes from outside is as an entry needs it. -/
def Ready (s : State) (x : Input) (needs : State → Prop) : Prop := trapWaiting s = none ∧ needs { s with input := x }

/-- An action that is run on a concrete state. -/
theorem reached {α : Type} {m : M α} {s : State} {a : α} (h : ∀ es, ∃ es', m { cur := s, effs := es } = .ok (a, { cur := leaves m s, effs := es' }) ∧
    ∀ s0, s = applyAll s0 es → leaves m s = applyAll s0 es') : Reaches m s a (leaves m s) := fun s0 es e => (h es).imp fun _ p => ⟨p.1, p.2 s0 e⟩

/-- What an action answers on a state. -/
def answer {α : Type} [Inhabited α] (m : M α) (s : State) : α := match m { cur := s, effs := [] } with | .ok (a, _) => a | .error _ => default

/-- An action that is run on a concrete state and answers. -/
theorem answered {α : Type} [Inhabited α] {m : M α} {s : State} (h : ∀ es, ∃ es', m { cur := s, effs := es } = .ok (answer m s, { cur := leaves m s, effs := es' }) ∧
    ∀ s0, s = applyAll s0 es → leaves m s = applyAll s0 es') : Reaches m s (answer m s) (leaves m s) := reached h

/-- A line lies on one of the twelve ports. -/
theorem portOf_lt (a : Nat) : portOf a < 12 := by
  have h : ∀ p ∈ rangePorts (Config.annexRange (a / 256)), p < 12 := by
    intro p hp
    unfold rangePorts at hp
    dsimp only at hp
    split at hp
    · obtain ⟨q, -, rfl⟩ := List.mem_map.mp (List.mem_eraseDups.mp hp)
      exact Nat.mod_lt _ (by decide)
    · obtain rfl := List.mem_singleton.mp hp
      exact Nat.mod_lt _ (by decide)
  unfold portOf
  dsimp only
  match hx : (rangePorts (Config.annexRange (a / 256)))[a / 256 % (rangePorts (Config.annexRange (a / 256))).length]? with
  | none => exact (by decide : (0 : Nat) < 12)
  | some p => exact h p (List.mem_of_getElem? hx)

/-- Every annex port of a part whose ports all carry data is up. -/
theorem annexUp {s : State} (h : s.pkg.annex = List.replicate 12 {}) (a : Nat) : portUp s (portOf a) = true := by
  have := (by decide : ∀ p < 12, ((List.replicate 12 ({} : Annex))[p]?).any (fun p => p.present && !p.lost) = true) (portOf a) (portOf_lt a)
  simpa only [portUp, h] using this

/-- A snoop is taken for a line of the annex that other hosts may share and that is not pinned. -/
theorem snoops {s : State} {a : Nat} (h : s.pkg.annex = List.replicate 12 {}) (hr : rangeMt a = some 1) (hs : sharedAnnex a = true)
    (hp : pinnedByOther s (lineOf a) none = false) : snooped s a = true := by
  have := (by decide : ∀ p < 12, ((List.replicate 12 ({} : Annex))[p]?).any (fun p => p.present && p.trained && !p.lost) = true) (portOf a) (portOf_lt a)
  simp only [snooped, h, hr, hs, hp, this]; rfl

/-- A location of scratch can be taken, and no test is in progress. -/
def freeAt (s : State) (hall a n : Nat) : Bool :=
  (answers s a).isNone && (linesOf a n).all (fun x => !pinnedByOther s x none) && !rowBusy s hall a

theorem freeAt_takeable {s : State} {hall a n : Nat} (h : freeAt s hall a n = true) : takeable s hall a n := by
  simp only [freeAt, Bool.and_eq_true, Option.isNone_iff_eq_none, List.all_eq_true, Bool.not_eq_true'] at h
  exact ⟨h.1.1, h.1.2, h.2⟩

/-- Where a byte of a buffer lies. -/
def placeOf (s : State) (hall vf : Nat) (b : Buffer) (right : Right) (off : Nat) : Nat := (heldPlace s hall vf b right off).getD 0

/-- Pieces of a buffer can be read, and their bytes. -/
def readsAt (s : State) (hall vf : Nat) (b : Buffer) (off : Nat) (l : List (Nat × Nat)) : Bool :=
  s.pkg.tests.isEmpty && l.all (fun p => (heldPlace s hall vf b .read (off + p.1)).isSome && freeAt s hall (placeOf s hall vf b .read (off + p.1)) p.2 &&
    !poisoned s (placeOf s hall vf b .read (off + p.1)) p.2)
def bytesAt (s : State) (hall vf : Nat) (b : Buffer) (off : Nat) (l : List (Nat × Nat)) : List Byte :=
  l.flatMap (fun p => readBytes s.mem (placeOf s hall vf b .read (off + p.1)) p.2)

theorem readsAt_pieces {s : State} {hall vf : Nat} {b : Buffer} {off : Nat} {l : List (Nat × Nat)} (h : readsAt s hall vf b off l = true) :
    piecesAt s hall vf b off l (bytesAt s hall vf b off l) := by
  simp only [readsAt, Bool.and_eq_true, List.all_eq_true, Bool.not_eq_true', List.isEmpty_iff] at h
  obtain ⟨ht, h⟩ := h
  refine ⟨fun o => placeOf s hall vf b .read (off + o), fun p hp => ⟨?_, freeAt_takeable (h p hp).1.2, (h p hp).2, ?_⟩, rfl⟩
  · obtain ⟨a, ha⟩ := Option.isSome_iff_exists.mp (h p hp).1.1
    simp only [placeOf, ha, Option.getD_some]
  · intro x hx; rw [ht] at hx; cases hx

/-- The words of a descriptor. -/
def wordsOf (n : Nat) : List (Nat × Nat) := (List.range ((n + 7) / 8)).map (fun i => (8 * i, min 8 (n - 8 * i)))

/-- A descriptor can be read at a reference, and its bytes. -/
def readsRef (s : State) (r : Region) (v : BitVec 64) (n : Nat) : Bool :=
  v.toNat % 8 == 0 && v.extractLsb' 48 16 == 0 && v.extractLsb' 32 8 == 0 && (refBuffer s r v).any (fun b =>
    (accessCode (some b) .read (v.toNat % 2 ^ 32) n 1 false).isNone && readsAt s r.hall r.vf b (v.toNat % 2 ^ 32) (wordsOf n))
def refBytes (s : State) (r : Region) (v : BitVec 64) (n : Nat) : List Byte :=
  match refBuffer s r v with | some b => bytesAt s r.hall r.vf b (v.toNat % 2 ^ 32) (wordsOf n) | none => []

theorem readsRef_at {s : State} {r : Region} {v : BitVec 64} {n : Nat} (h : readsRef s r v n = true) : atReference s r v n (refBytes s r v n) := by
  simp only [readsRef, Bool.and_eq_true, beq_iff_eq] at h
  obtain ⟨⟨⟨h1, h2⟩, h3⟩, h4⟩ := h
  refine ⟨⟨h1, h2, h3⟩, ?_⟩
  match hb : refBuffer s r v, h4 with
  | some b, h4 =>
    simp only [Option.any_some, Bool.and_eq_true, Option.isNone_iff_eq_none] at h4
    refine ⟨b, rfl, h4.1, ?_⟩
    have := readsAt_pieces h4.2
    unfold refBytes; rw [hb]; exact this

/-- Words of a buffer can be read. -/
def readsWords (s : State) (r : Region) (b : Buffer) (off n : Nat) : Bool := (accessCode (some b) .read off n 1 false).isNone && readsAt s r.hall r.vf b off (wordsOf n)
theorem readsWords_at {s : State} {r : Region} {b : Buffer} {off n : Nat} (h : readsWords s r b off n = true) : wordsAt s r b off n (bytesAt s r.hall r.vf b off (wordsOf n)) := by
  simp only [readsWords, Bool.and_eq_true, Option.isNone_iff_eq_none] at h
  exact ⟨h.1, readsAt_pieces h.2⟩

/-- Bytes of guest memory that a launch reads. -/
def readsImage (s : State) (o : Home) (p n : Nat) : Bool := (accessCode (some wholeSpace) .read p n 1 false).isNone && readsAt s o.hall o.vf wholeSpace p (granPieces p n)
def launchBytes (s : State) (o : Home) (p n : Nat) : List Byte := bytesAt s o.hall o.vf wholeSpace p (granPieces p n)
theorem readsImage_read {s : State} {o : Home} {p n : Nat} (h : readsImage s o p n = true) : imageRead s o p n (launchBytes s o p n) := by
  simp only [readsImage, Bool.and_eq_true, Option.isNone_iff_eq_none] at h
  exact ⟨h.1, readsAt_pieces h.2⟩

/-- An action that only reads. -/
theorem read {α : Type} [Inhabited α] {m : M α} {s : State} (h : ∀ es, m { cur := s, effs := es } = .ok (answer m s, { cur := s, effs := es })) :
    Reaches m s (answer m s) s := fun _ es e => ⟨es, h es, e⟩

theorem same (s : State) : ReadOnly s s := ⟨s.tick, s.halls, rfl, rfl, fun k g g' h h' => by rw [h] at h'; cases h'; rfl⟩
/-! ### Decoding: words written out from the encodings of R228, R231 and R233 -/

namespace Words

/-- A node record's bits by R228: form 00, op [93:86], ty [85:82], md [81:78], da [77:70], db [69:62], ls [61:60], pg [59:57], ax [56:48], ex [47:32] and lit. -/
def nWord (op ty md da db ls pg ax ex lit : Nat) : Rec :=
  BitVec.ofNat 96 (op * 2 ^ 86 + ty * 2 ^ 82 + md * 2 ^ 78 + da * 2 ^ 70 + db * 2 ^ 62 + ls * 2 ^ 60 + pg * 2 ^ 57 + ax * 2 ^ 48 + ex * 2 ^ 32 + lit)
def isNode (r : Rec) (i : Instr) : Bool := match decode r with | .ok d => d.instr == i && d.seq.isNone | .error _ => false
def isSeq (r : Rec) (i : Instr) (f : SeqRec) : Bool := match decode r with | .ok d => d.instr == i && d.seq == some f | .error _ => false
def n0 : NodeRec := { node with ty := .i32 }

/-- The specification's examples of R228 and the cell image: `mul.i32 #3.r`, `add.i32 #1.r`, `shl.i32 #2.r`, `st.i32 h0`. -/
theorem test_word_mul : isNode (word96 0x0180013F 0xE0000000 3) (.mul { n0 with da := .node 1 0, ls := .port1, lit := 3 }) = true := by decide +kernel
theorem test_word_shl : isNode (word96 0x0500033F 0xE0000000 2) (.shl { n0 with da := .node 3 0, ls := .port1, lit := 2 }) = true := by decide +kernel
theorem test_word_st : isNode (word96 0x18403FFF 0xC0000000 0) (.st n0) = true := by decide +kernel
/-- R290's `n04: ld.f32 h3 -> n05.l, n06.r`. -/
theorem test_word_ld : isNode (word96 0x18180506 0x40000003 0) (.ld { n0 with ty := .f32, da := .node 5 0, db := .node 6 1, ex := 3 }) = true := by decide +kernel
/-- R296's `n04: nrd.take.i32 st=7, lv=1, dist=#1 -> n05.l`. -/
theorem test_word_nrd : isNode (word96 0x1A00053F 0xC0090007 1) (.nrdTake { n0 with da := .node 5 0, ax := 9, ex := 7, lit := 1 }) = true := by decide +kernel
/-- R352's `n12: vtopk.idx.f32 #3 -> n13.l, n14.l`. -/
theorem test_word_vtopk : isNode (word96 0x21D80D0E 0x00400001 3)
    (.vtopkIdx { n0 with ty := .f32, da := .node 13 0, db := .node 14 0, gather := 1, ex := 1, lit := 3 }) = true := by decide +kernel
/-- R366's `n05: mxrow.tile pl=1, v=4:2 -> n06.l, -`. -/
theorem test_word_mxrow : isNode (word96 0x2838063F 0xC0400241 0) (.mxrow { n0 with ty := .tile, da := .node 6 0, gather := 1, ex := 0x241 }) = true := by decide +kernel
/-- R284's `n07: fire seq=dbl -> n08.l` and the sequence that it fires. -/
theorem test_word_fire : isNode (word96 0x13BC083F 0xC0000010 0) (.fire { n0 with ty := .untyped, da := .node 8 0, ex := 0x10 }) = true := by decide +kernel
theorem test_word_add_sequence : isSeq (word96 0x41000777 0xC0000000 0) .addQ
    { ty := .i32, md := 0, qd := .w 1, qa := .q 0, qb := .q 0, qc := .zr, last := false, im := 0 } = true := by decide +kernel
theorem test_word_emit : isSeq (word96 0x7000207F 0xE0000000 0) .emit
    { ty := .i32, md := 0, qd := .da, qa := .w 1, qb := .zr, qc := .zr, last := true, im := 0 } = true := by decide +kernel
/-- R254's `ffma.f32 w3, m0, w2, im #0.5f`. -/
theorem test_word_ffma : isSeq (word96 0x48D80E0B 0 0x3F000000) .ffmaQ
    { ty := .f32, md := 0, qd := .w 3, qa := .m 0, qb := .w 2, qc := .im, last := false, im := 0x3F000000 } = true := by decide +kernel
/-- R263's `n04: sub.n16 #1.r -> n05.l` and `add.sat`, R276's `n50: steer.i32 -> n51.l, o7` at a node that there is, R271's `fadd.f32`, R270's `idx.n32 lv=2, #0`,
R279's TAGNEW of loop region 3, R353's VSOFT, R369's SCORE with slot 4. -/
theorem test_word_sub : isNode (nWord 0x05 3 0 0x14 0xFF 2 0 0 0 1) (.sub { n0 with ty := .n16, da := .node 5 0, ls := .port1, lit := 1 }) = true := by decide +kernel
theorem test_word_saturate : isNode (nWord 0x04 0 1 0x81 0xFF 0 0 0 0 0) (.add { n0 with md := 1, da := .out 1 }) = true := by decide +kernel
theorem test_word_steer : isNode (nWord 0x40 0 0 0x2C 0x87 0 0 0 0 0) (.steer { n0 with da := .node 11 0, db := .out 7 }) = true := by decide +kernel
theorem test_word_fadd : isNode (nWord 0x20 6 0 0x7C 0xFF 0 1 0 0 0) (.fadd { n0 with ty := .f32, da := .node 31 0, pg := .ifTrue }) = true := by decide +kernel
theorem test_word_idx : isNode (nWord 0x1E 1 0 0x58 0xFF 0 0 2 0 0) (.idx { n0 with ty := .n32, da := .node 22 0, ax := 2 }) = true := by decide +kernel
theorem test_word_tagnew : isNode (nWord 0x48 0 0 0x93 0xFF 0 0 3 0 0) (.tagnew { n0 with da := .predOut 3, ax := 3 }) = true := by decide +kernel
theorem test_word_vsoft : isNode (nWord 0x88 8 0 0x80 0xFF 0 0 0x40 0 0) (.vsoft { n0 with ty := .f16, da := .out 0, gather := 1 }) = true := by decide +kernel
theorem test_word_score : isNode (nWord 0xA3 6 0 0x80 0xFF 0 0 0x40 0x41 0x3F800000)
    (.score { n0 with ty := .f32, da := .out 0, gather := 1, ex := 0x41, lit := 0x3F800000 }) = true := by decide +kernel
/-- R254's `cfg.run a0, #8` and `halt`. -/
theorem test_word_cfgRun : isNode (word96 0x8D3C0000 0 8) (.cfgRun { cmd with imm := 8 }) = true := by decide +kernel
theorem test_word_halt : isNode (word96 0x807C0000 0 0) .halt = true := by decide +kernel

/-! ### Terms that the checks of R416 refuse, and what they admit beside them -/

theorem test_admits : (.add { n0 with da := .out 0 } : Instr).wf = true ∧ Instr.halt.wf = true ∧ (.fence { n0 with ty := .untyped, gather := 1, ax := 5 } : Instr).wf = true := by decide +kernel
/-- A type, an md, a literal select, a literal beyond its type, an ax or ex bit, a literal without a select. -/
theorem test_refuses_type : (.add { n0 with ty := .f32 } : Instr).wf = false := by decide +kernel
theorem test_refuses_md : (.add { n0 with md := 2 } : Instr).wf = false := by decide +kernel
theorem test_refuses_literal_port : (.add { n0 with ls := .port2 } : Instr).wf = false := by decide +kernel
theorem test_refuses_literal_value : (.add { n0 with ty := .i8, ls := .port1, lit := 0x100 } : Instr).wf = false := by decide +kernel
theorem test_refuses_lone_literal : (.add { n0 with lit := 1 } : Instr).wf = false := by decide +kernel
theorem test_refuses_ax : (.add { n0 with ax := 1 } : Instr).wf = false := by decide +kernel
theorem test_refuses_ex : (.add { n0 with ex := 1 } : Instr).wf = false := by decide +kernel
/-- A gathered tile node, a second destination where there is none, a gate on a node whose predicate is an operand, a scope, a level, a plinth. -/
theorem test_refuses_gather : (.mxrow { n0 with ty := .tile, gather := 2 } : Instr).wf = false := by decide +kernel
theorem test_refuses_destination : (.sink { n0 with db := .out 0 } : Instr).wf = false := by decide +kernel
theorem test_refuses_gate : (.steer { n0 with pg := .ifTrue } : Instr).wf = false := by decide +kernel
theorem test_refuses_scope : (.fence { n0 with ty := .untyped, gather := 1, ax := 6 } : Instr).wf = false := by decide +kernel
theorem test_refuses_level : (.idx { n0 with ty := .n32, ax := 7 } : Instr).wf = false := by decide +kernel
theorem test_refuses_plinth : (.mxrow { n0 with ty := .tile, gather := 1, ex := 3 } : Instr).wf = false := by decide +kernel
/-- A command's register, ext or imm bits that its row does not name, and a counter that PERF has not. -/
theorem test_refuses_register : (.cfgLoad { cmd with d := 1 } : Instr).wf = false := by decide +kernel
theorem test_refuses_ext : (.addCmd { cmd with ext := 1 } : Instr).wf = false := by decide +kernel
theorem test_refuses_imm : (.cfgLoad { cmd with imm := 0x100 } : Instr).wf = false := by decide +kernel
theorem test_refuses_counter : (.perf { cmd with imm := 6 } : Instr).wf = false := by decide +kernel
/-- A sequence record's source beyond its arity, an im that no source names, an EMIT to a register, and another record to da. -/
def q0 : SeqRec := { ty := .i32, md := 0, qd := .w 1, qa := .q 0, qb := .q 0, qc := .zr, last := false, im := 0 }
theorem test_refuses_source : ({ instr := .addQ, seq := some { q0 with qc := .w 0 } } : Decoded).wf = false := by decide +kernel
theorem test_refuses_im : ({ instr := .addQ, seq := some { q0 with im := 1 } } : Decoded).wf = false := by decide +kernel
theorem test_refuses_emit : ({ instr := .emit, seq := some { q0 with qb := .zr } } : Decoded).wf = false := by decide +kernel
theorem test_refuses_result_to_da : ({ instr := .addQ, seq := some { q0 with qd := .da } } : Decoded).wf = false := by decide +kernel
/-- Records without a meaning: form 11, an opcode that is free, a destination byte that is reserved, a reserved gate code, Q-form bits that must be zero. -/
def refused (r : Rec) : Bool := match decode r with | .ok _ => false | .error _ => true
theorem test_refuses_form : refused (word96 0xC0000000 0 0) = true := by decide +kernel
theorem test_refuses_opcode : refused (nWord 0xFF 0 0 0x80 0xFF 0 0 0 0 0) = true := by decide +kernel
theorem test_refuses_destination_code : refused (nWord 0x04 0 0 0xA0 0xFF 0 0 0 0 0) = true := by decide +kernel
theorem test_refuses_gate_code : refused (nWord 0x04 0 0 0x80 0xFF 0 3 0 0 0) = true := by decide +kernel
theorem test_refuses_sequence_bits : refused (word96 0x41000777 0xC0000001 0) = true := by decide +kernel
/-- A record's 12 bytes hold its three words in order, most significant word first, each little-endian (R3, R227). -/
theorem test_bytes : (recOfBytes [0x40, 0x08, 0x7C, 0x82, 0, 0, 0, 0, 1, 0, 0, 0]) = some (word96 0x827C0840 0 1) := by decide +kernel

end Words

/-! ### States that meet the premises of the statements about nodes -/

namespace Nodes

def vt (t : Nat) (v : BitVec 32) : Token := { value := v, tag := t }
def ops (a b c d : BitVec 32) (t : Nat) : Lane := { tag := t, ops := [(0, vt t a), (1, vt t b), (2, vt t c), (3, vt t d)] }
def poisoned (t : Nat) : Lane := { tag := t, ops := [(0, { value := 5, tag := t, kind := .poison }), (1, vt t 3)] }
def issueOf (ls : List Lane) : Issue := { rid := 0, cell := 0, node := 0, lanes := ls }
def ff : NodeRec := { node with ty := .i32, da := .node 3 1, db := .out 2, ex := 1 }
def inv (n : Nat) : Invocation := { rid := 0, serial := 77, first := n, live := 1, retired := [], discarded := none, poisoned := 0 }
def header3 : BitVec 128 := BitVec.ofNat 128 (2 ^ 64 + 2 ^ 67 + 3 * 2 ^ 88 + 3)
/-- A region with a valid handler, two bound tags, and no condition that traps. -/
def rr : Region := { running with
  active := { bank [] [] with binds := [(1, 0), (2, 2)], free := [(0, [5, 6]), (1, [9])], loops := [(0, (0, 8)), (1, (8, 4))] }
  header := header3, sys := { trapVec := 0x101, trapEn := 0 } }
/-- The state that fires a node of a region, with an invocation open and a page of memory translated. -/
def st (r : Region) (x : Issue) : State := withHall (fun h => { h with
    invs := [(0, inv 0)], tlb := [(tlbKey 0 0x10000 16, { base := 0x40000, size := 16, write := true, atomic := true, filled := 0 })] })
  (let s := scr { site [(0, r)] with issue := some x, tick := 9 }
   { s with vfs := s.vfs.map (fun p => (p.1, { p.2 with handles := kset p.2.handles (handleKey 0 3) { visible := some { buf with scratch := none, base := 0x10000 } } })) })

/-- An integer of every lane at the edge of its type, and one beyond it. -/
def edge : Lane := ops 0x7FFFFFFF 0 0 1 1
def beyond : Lane := ops 0x80000000 0x80000000 0x80000000 1 1

theorem meets_IntegerNodesComplete : List.Forall (fun i => ∃ f z, exactResult i = some (f, z) ∧
    isInt f.ty = true ∧ Fires (st rr (issueOf [edge])) (issueOf [edge]) rr ∧
    ∀ l ∈ [edge], firing f l = true → (intMin f.ty ≤ z f.ty (opv f l) ∧ z f.ty (opv f l) ≤ intMax f.ty) ∨ disposition rr.sys.trapEn 2 = 0) ([.add ff, .sub ff, .mul ff, .mad ff, .abs ff, .neg ff, .shl ff] : List Instr) :=
  ⟨⟨_, _, rfl, rfl, ⟨rfl, rfl, rfl⟩, by decide⟩, ⟨_, _, rfl, rfl, ⟨rfl, rfl, rfl⟩, by decide⟩, ⟨_, _, rfl, rfl, ⟨rfl, rfl, rfl⟩, by decide⟩,
    ⟨_, _, rfl, rfl, ⟨rfl, rfl, rfl⟩, by decide⟩, ⟨_, _, rfl, rfl, ⟨rfl, rfl, rfl⟩, by decide⟩, ⟨_, _, rfl, rfl, ⟨rfl, rfl, rfl⟩, by decide⟩,
    ⟨_, _, rfl, rfl, ⟨rfl, rfl, rfl⟩, by decide⟩⟩

/-- A region whose IOV traps, and one where it poisons. -/
def traps : Region := { rr with sys := { rr.sys with trapEn := 0x8 } }
def poisons : Region := { rr with sys := { rr.sys with trapEn := 0x4 } }

theorem meets_OverflowTrapTaken : ∃ f z, exactResult (.add ff) = some (f, z) ∧ isInt f.ty = true ∧ Fires (st traps (issueOf [beyond])) (issueOf [beyond]) traps ∧
    (∀ l ∈ [beyond], firing f l = true) ∧ Handles traps ∧ (∀ l ∈ [beyond], z f.ty (opv f l) < intMin f.ty ∨ intMax f.ty < z f.ty (opv f l)) ∧
    disposition traps.sys.trapEn 2 = 2 := ⟨_, _, rfl, rfl, ⟨rfl, rfl, rfl⟩, by decide, ⟨rfl, rfl, by decide, rfl, rfl⟩, by decide, rfl⟩

theorem meets_OverflowPoisons : ∃ f z, exactResult (.neg ff) = some (f, z) ∧ isInt f.ty = true ∧ Fires (st poisons (issueOf [beyond, edge])) (issueOf [beyond, edge]) poisons ∧
    disposition poisons.sys.trapEn 2 = 1 := ⟨_, _, rfl, rfl, ⟨rfl, rfl, rfl⟩, rfl⟩

theorem meets_DivisionCompletes : isInt ff.ty = true ∧ Fires (st rr (issueOf [edge])) (issueOf [edge]) rr ∧
    (∀ l ∈ [edge], firing ff l = true → reads ff.ty (opv ff l 1) ≠ 0 ∨ disposition rr.sys.trapEn 1 = 0) ∧
    ∀ l ∈ [edge], firing ff l = true → quotient ff.ty (reads ff.ty (opv ff l 0)) (reads ff.ty (opv ff l 1)) ≤ intMax ff.ty ∨ disposition rr.sys.trapEn 2 = 0 :=
  ⟨rfl, ⟨rfl, rfl, rfl⟩, by decide, by decide⟩

theorem meets_BitNodesComplete : List.Forall (fun i => ∃ f v, bitResult i = some (f, v) ∧ isInt f.ty = true ∧
    Fires (st rr (issueOf [beyond])) (issueOf [beyond]) rr) ([.mulh ff, .min ff, .max ff, .and ff, .or ff, .xor ff, .not ff, .shr ff, .sar ff, .rotl ff, .clz ff, .popc ff,
    .cmp ff] : List Instr) :=
  ⟨⟨_, _, rfl, rfl, rfl, rfl, rfl⟩, ⟨_, _, rfl, rfl, rfl, rfl, rfl⟩, ⟨_, _, rfl, rfl, rfl, rfl, rfl⟩, ⟨_, _, rfl, rfl, rfl, rfl, rfl⟩, ⟨_, _, rfl, rfl, rfl, rfl, rfl⟩,
    ⟨_, _, rfl, rfl, rfl, rfl, rfl⟩, ⟨_, _, rfl, rfl, rfl, rfl, rfl⟩, ⟨_, _, rfl, rfl, rfl, rfl, rfl⟩, ⟨_, _, rfl, rfl, rfl, rfl, rfl⟩, ⟨_, _, rfl, rfl, rfl, rfl, rfl⟩,
    ⟨_, _, rfl, rfl, rfl, rfl, rfl⟩, ⟨_, _, rfl, rfl, rfl, rfl, rfl⟩, ⟨_, _, rfl, rfl, rfl, rfl, rfl⟩⟩

/-- Control words whose field is empty and whose field is the whole type. -/
def fields : List Lane := [ops 9 0 0 1 1, ops 9 0x2000 0x2000 1 2]

theorem meets_BitFieldNodesComplete : isInt ff.ty = true ∧ Fires (st rr (issueOf fields)) (issueOf fields) rr ∧
    (∀ l ∈ fields, firing ff l = true → controlOk ff.ty (opv ff l 1) = true) ∧ ∀ l ∈ fields, firing ff l = true → controlOk ff.ty (opv ff l 2) = true :=
  ⟨rfl, ⟨rfl, rfl, rfl⟩, by decide, by decide⟩

theorem meets_PredicateNodesComplete : List.Forall (fun i => ∃ f v, predicateResult i = some (f, v) ∧
    Fires (st rr (issueOf [edge])) (issueOf [edge]) rr) ([.pnot ff, .pand ff, .por ff, .pxor ff] : List Instr) :=
  ⟨⟨_, _, rfl, rfl, rfl, rfl⟩, ⟨_, _, rfl, rfl, rfl, rfl⟩, ⟨_, _, rfl, rfl, rfl, rfl⟩, ⟨_, _, rfl, rfl, rfl, rfl⟩⟩

/-- With every disposition 00 each result stands (R396). -/
theorem stands (c : Conds) : fate 0 c = .stands := by
  rcases c with ⟨a, b, c, d, e⟩; revert a b c d e; decide

def fl : NodeRec := { ff with ty := .f32, ex := 6 }

theorem meets_FloatNodesComplete : List.Forall (fun i => ∃ g, floatResult i = some (fl, g) ∧
      ∀ l ∈ [edge], firing fl l = true → fate rr.sys.trapEn (g (mdOf (issueOf [edge]) fl) (opv fl l)).2 = .stands) ([.fadd fl, .fsub fl, .fmul fl, .ffma fl, .fmin fl, .fmax fl, .fabs fl, .fneg fl, .fcmp fl, .fcvt fl, .itof fl, .ftoi fl, .frnd fl,
      .fscale fl, .fclass fl, .exp2 fl, .log2 fl, .rcp fl, .rsq fl, .sqrt fl, .tanh fl] : List Instr) ∧
    Fires (st rr (issueOf [edge])) (issueOf [edge]) rr ∧
    ∀ l ∈ [edge], firing fl l = true → fate rr.sys.trapEn ((sinOp fl.ty 0 (opv fl l)).2.or (cosOp fl.ty 0 (opv fl l)).2) = .stands := by
  refine ⟨?_, ⟨rfl, rfl, rfl⟩, fun _ _ _ => stands _⟩
  exact ⟨⟨_, rfl, fun _ _ _ => stands _⟩, ⟨_, rfl, fun _ _ _ => stands _⟩, ⟨_, rfl, fun _ _ _ => stands _⟩, ⟨_, rfl, fun _ _ _ => stands _⟩, ⟨_, rfl, fun _ _ _ => stands _⟩,
    ⟨_, rfl, fun _ _ _ => stands _⟩, ⟨_, rfl, fun _ _ _ => stands _⟩, ⟨_, rfl, fun _ _ _ => stands _⟩, ⟨_, rfl, fun _ _ _ => stands _⟩, ⟨_, rfl, fun _ _ _ => stands _⟩,
    ⟨_, rfl, fun _ _ _ => stands _⟩, ⟨_, rfl, fun _ _ _ => stands _⟩, ⟨_, rfl, fun _ _ _ => stands _⟩, ⟨_, rfl, fun _ _ _ => stands _⟩, ⟨_, rfl, fun _ _ _ => stands _⟩,
    ⟨_, rfl, fun _ _ _ => stands _⟩, ⟨_, rfl, fun _ _ _ => stands _⟩, ⟨_, rfl, fun _ _ _ => stands _⟩, ⟨_, rfl, fun _ _ _ => stands _⟩, ⟨_, rfl, fun _ _ _ => stands _⟩,
    ⟨_, rfl, fun _ _ _ => stands _⟩⟩

theorem meets_MovingNodesComplete : List.Forall (fun i => ∃ f v, moved i = some (f, v) ∧ Fires (st rr (issueOf [edge])) (issueOf [edge]) rr) ([.pass ff, .const ff, .join ff, .sel ff, .idx ff, .wid ff, .steer ff, .merge ff, .cmerge ff, .gate ff, .ptest ff, .order ff,
    .tagget ff] : List Instr) :=
  ⟨⟨_, _, rfl, rfl, rfl, rfl⟩, ⟨_, _, rfl, rfl, rfl, rfl⟩, ⟨_, _, rfl, rfl, rfl, rfl⟩, ⟨_, _, rfl, rfl, rfl, rfl⟩, ⟨_, _, rfl, rfl, rfl, rfl⟩,
    ⟨_, _, rfl, rfl, rfl, rfl⟩, ⟨_, _, rfl, rfl, rfl, rfl⟩, ⟨_, _, rfl, rfl, rfl, rfl⟩, ⟨_, _, rfl, rfl, rfl, rfl⟩, ⟨_, _, rfl, rfl, rfl, rfl⟩,
    ⟨_, _, rfl, rfl, rfl, rfl⟩, ⟨_, _, rfl, rfl, rfl, rfl⟩, ⟨_, _, rfl, rfl, rfl, rfl⟩⟩

theorem meets_FireStartsSequence : Fires (st rr (issueOf [edge])) (issueOf [edge]) rr ∧ (∀ l ∈ [edge], firing ff l = true) ∧ [edge] ≠ [] :=
  ⟨⟨rfl, rfl, rfl⟩, by decide, by decide⟩

theorem meets_ProgramTrapTaken : Fires (st rr (issueOf [edge])) (issueOf [edge]) rr ∧ (∀ l ∈ [edge], firing ff l = true) ∧ Handles rr :=
  ⟨⟨rfl, rfl, rfl⟩, by decide, ⟨rfl, rfl, by decide, rfl, rfl⟩⟩

/-! #### Sequence records -/

def sq (t : Ty) : SeqRec := { ty := t, md := 0, qd := .w 2, qa := .m 0, qb := .q 0, qc := .m 2, last := false, im := 0 }
def run : SeqRun := { rid := 0, cell := 0, node := 0, index := 3, start := 3, lanes := [{ lane := ops 9 0x104 0x104 1 1 }], da := .node 3 1, db := .out 2 }
def queue : InQueues := { q0 := [vt 1 0x104], q1 := [] }
def runs : Region := { rr with fires := [run], queues := [(0, queue)] }
def sqs (f : SeqRec) : State := { site [(0, runs)] with seqNow := some (0, f) }
/-- The lanes after the record has popped q0. -/
def popped : List SeqLane := [{ lane := ops 9 0x104 0x104 1 1, popped := [vt 1 0x104, { value := 0, tag := 0 }] }]

theorem meets_Runs (t : Ty) : Runs (sqs (sq t)) runs 0 run (sq t) popped {} :=
  ⟨by decide, rfl, rfl, rfl, rfl, Or.inr (by cases t <;> decide +kernel), by cases t <;> decide +kernel, by cases t <;> decide +kernel⟩

theorem meets_RecordsComplete : ∀ i ∈ ([.addQ, .subQ, .mulQ, .mulhQ, .madQ, .divQ, .remQ, .minQ, .maxQ, .absQ, .negQ, .andQ, .orQ, .xorQ, .notQ, .shlQ, .shrQ, .sarQ, .rotlQ,
    .clzQ, .popcQ, .cmpQ, .faddQ, .fsubQ, .fmulQ, .ffmaQ, .fminQ, .fmaxQ, .fabsQ, .fnegQ, .fcmpQ, .fcvtQ, .itofQ, .ftoiQ, .frndQ, .fscaleQ, .fclassQ, .exp2Q, .log2Q, .rcpQ,
    .rsqQ, .sqrtQ, .tanhQ, .passQ, .pnotQ, .pandQ, .porQ, .pxorQ] : List Instr), ∃ g, recordOp i = some g ∧ ∀ f : SeqRec, ∀ l ∈ popped, l.live = true →
      fate runs.sys.trapEn (g (rowRec run f) (rowRec run f).md.toNat (source runs run (rowRec run f) l)).2 = .stands := by
  intro i h
  have : (recordOp i).isSome = true := by revert i; decide
  obtain ⟨g, hg⟩ := Option.isSome_iff_exists.mp this
  exact ⟨g, hg, fun _ _ _ _ => stands _⟩

theorem meets_OwnRuleRecordsComplete : (∀ i ∈ ([.constQ, .selQ, .idxQ, .widQ, .emit, .emitp] : List Instr), (recordOut i).isSome = true) ∧ isInt (sq .i32).ty = true ∧
    (∀ l ∈ popped, l.live = true → controlOk (sq .i32).ty (source runs run (rowRec run (sq .i32)) l 1) = true) ∧
    (∀ l ∈ popped, l.live = true → controlOk (sq .i32).ty (source runs run (rowRec run (sq .i32)) l 2) = true) ∧
    ∀ c : SeqLane → Conds, ∀ l ∈ popped, l.live = true → fate runs.sys.trapEn (c l) = .stands :=
  ⟨by decide, rfl, by decide +kernel, by decide +kernel, fun _ _ _ _ => stands _⟩

end Nodes

namespace Nodes

/-- A packet of small values of a format. -/
def pk (fmt rows cols k : Nat) : Pkt :=
  { hdr := { fmt := fmt, rows := rows, cols := cols, scl := 0, spm := 0, lastk := 1, kch := 0, rowtag := 3 }
    rows := (List.range rows).map (fun i => { els := (List.range cols).map (fun j =>
      (if fmt = 8 then 0x3C00 else if fmt = 6 then 0x3F800000 else 0x30) + (i * 3 + j + k)) }) }
def pt (p : Pkt) : Token := tileToken 1 p.bytes
def mask (rows cols : Nat) : Pkt := { pk 5 rows cols 0 with rows := (List.range rows).map (fun i => { els := (List.range cols).map (fun j => (i + j) % 2) }) }
def scaled : Pkt := { pk 9 2 2 0 with hdr := { (pk 9 2 2 0).hdr with scl := 1 }, scales := [0x3F800000, 0x3F800000] }
def ft : NodeRec := { ff with ty := .f16, ex := 0 }
def tiles (a b c : Token) : Lane := { tag := 1, ops := [(0, a), (1, b), (2, c)] }
def two : Lane := tiles (pt (pk 8 2 2 1)) (pt (pk 8 2 2 2)) (pt (pk 8 2 2 3))

/-- A tile operation takes its operands. -/
def taken (e : Except (Nat × Nat) TileOut) : Bool := match e with | .ok _ => true | .error _ => false
theorem taken_ok {e : Except (Nat × Nat) TileOut} (h : taken e = true) : ∃ o, e = .ok o ∧ fate 0 o.conds = .stands := by
  cases e with
  | ok o => exact ⟨o, rfl, stands _⟩
  | error _ => cases h

/-- The tile nodes with lanes whose operands they take. -/
def tileSites : List (Instr × Lane) := [
  (.vmap { ft with ex := 0x22 }, two), (.vfma ft, two), (.vcmpm ft, two), (.vredSum ft, two), (.vredMax ft, two), (.vredMin ft, two), (.vscanSum ft, two), (.vscanMax ft, two), (.vscanMin ft, two),
  (.vcompress { ft with ty := .untyped }, tiles (pt (pk 8 2 2 1)) (pt (mask 2 1)) (vt 1 0)),
  (.vexpand { ft with ty := .untyped }, { tag := 1, ops := [(0, pt (pk 8 1 2 1)), (1, pt (mask 2 1))] }),
  (.vtopk { ft with lit := 2 }, two), (.vtopkIdx { ft with lit := 2 }, two), (.vsoft ft, { tag := 1, ops := [(0, pt (pk 8 2 2 1))] }),
  (.vquant { ft with ty := .f8e4 }, { tag := 1, ops := [(0, pt (pk 8 2 2 1))] }), (.vdeq ft, { tag := 1, ops := [(0, pt scaled)] }), (.vcvt { ft with ty := .f32 }, two),
  (.vtransp ft, two), (.vslice { ft with ty := .untyped, ls := .port1, lit := 0x02010100 }, tiles (pt (pk 8 4 4 1)) (vt 1 0) (vt 1 0)), (.vcat ft, two), (.vhdr ft, two),
  (.vhdrSet { ft with ty := .untyped, ex := 0xF }, tiles (pt (pk 8 2 2 1)) (vt 1 7) (vt 1 0)), (.vbcast { ft with lit := 0x0202 }, tiles (vt 1 5) (vt 1 0) (vt 1 0)),
  (.vmaskKeep ft, tiles (pt (pk 8 2 2 1)) (pt (mask 2 2)) (vt 1 0)), (.vmaskCausal ft, tiles (pt (pk 8 2 2 1)) (vt 1 4) (vt 1 0)),
  (.vmaskLength ft, tiles (pt (pk 8 2 2 1)) (vt 1 4) (vt 1 0))]

theorem tileSites_taken : tileSites.all (fun p => match tileOp p.1 with | some (f, g) => taken (g (mdOf (issueOf [p.2]) f) p.2) | none => false) = true := by decide +kernel

theorem meets_TileNodesComplete : ∀ p ∈ tileSites, ∃ (f : NodeRec) (g : TileOp) (o : Lane → TileOut), tileOp p.1 = some (f, g) ∧ Fires (st rr (issueOf [p.2])) (issueOf [p.2]) rr ∧
    ∀ l ∈ [p.2], firing f l = true → g (mdOf (issueOf [p.2]) f) l = .ok (o l) ∧ fate rr.sys.trapEn (o l).conds = .stands := by
  intro p hp
  have h := List.all_eq_true.mp tileSites_taken p hp
  split at h
  · next f g e =>
    obtain ⟨o, ho, hs⟩ := taken_ok h
    refine ⟨f, g, fun _ => o, e, ⟨rfl, rfl, rfl⟩, fun l hl _ => ?_⟩
    cases List.mem_singleton.mp hl
    exact ⟨ho, hs⟩
  · cases h

theorem meets_TileShapesByRule : ∃ p : Pkt, Fires (st rr (issueOf [tiles (pt p) (vt 1 4) (vt 1 0)])) (issueOf [tiles (pt p) (vt 1 4) (vt 1 0)]) rr ∧
    firing ft (tiles (pt p) (vt 1 4) (vt 1 0)) = true ∧ portPkt ft (tiles (pt p) (vt 1 4) (vt 1 0)) 0 = some p ∧ p.hdr.rows ≠ 0 ∧ p.hdr.fmt ≤ 10 ∧ p.hdr.scl = 0 ∧
    p.hdr.spm = 0 ∧ ft.lit.toNat < 2 ^ fmtWidth p.hdr.fmt := ⟨pk 8 2 2 1, ⟨rfl, rfl, rfl⟩, rfl, by decide +kernel, by decide, by decide, rfl, rfl, by decide⟩

theorem meets_HeaderTrapTaken : ∃ f g, tileOp (.vtransp ft) = some (f, g) ∧ (∀ n, Instr.vtransp ft ≠ .vbcast n) ∧ Fires (st rr (issueOf [edge])) (issueOf [edge]) rr ∧
    (∀ l ∈ [edge], firing f l = true ∧ portPkt f l 0 = none) ∧ Handles rr :=
  ⟨_, _, rfl, fun _ h => (by cases h), ⟨rfl, rfl, rfl⟩, by decide +kernel, ⟨rfl, rfl, by decide, rfl, rfl⟩⟩

/-! #### Attention nodes -/

/-- A plinth of region 0 with one slot held and loaded. -/
def plinth (afmt : Ty) (keep : Bool) : Plinth :=
  { holder := some 0, slotHolder := [(0, 0), (1, 0)], slots := [(0, { packet := (pk (tyCode afmt) 2 2 1).bytes, tr := false, ref := none })]
    cfg := some { afmt := afmt, n := 2, keep := keep, sparse := false } }
def onPlinth (p : Plinth) (s : State) : State := withHall (fun h => { h with plinths := [p, {}, {}] }) s
def scoring (x : Issue) : State := onPlinth (plinth .f16 false) (st rr x)
def sums (n : Nat) : Pkt := csaPkt (List.replicate 2 (List.replicate n (.fin 5 100))) n 1 0 3
def fa : NodeRec := { ft with ty := .f32 }
def attentionSites : List (Instr × Lane) := [
  (.score { fa with ex := 0x100 }, { tag := 1, ops := [(0, pt (pk 8 2 2 1))] }), (.pair { fa with ty := .untyped }, { tag := 1, ops := [(0, pt (pk 6 2 2 1)), (1, pt (pk 9 2 2 1))] }),
  (.norm fa, { tag := 1, ops := [(0, pt (sums 2)), (1, pt (sums 1))] }), (.rope ft, tiles (pt (pk 8 2 2 1)) (vt 1 0) (vt 1 0x40000000))]

theorem attentionSites_taken : attentionSites.all (fun p => match attentionOut p.1 with
    | some (_, g) => taken (g (issueOf [p.2]) rr (scoring (issueOf [p.2])) p.2) && (firstPoison p.2).isNone | none => false) = true := by decide +kernel

theorem meets_AttentionNodesComplete : ∀ p ∈ attentionSites, ∃ (f : NodeRec) (g : Issue → Region → State → Lane → Except (Nat × Nat) TileOut) (o : Lane → TileOut), attentionOut p.1 = some (f, g) ∧ Fires (scoring (issueOf [p.2])) (issueOf [p.2]) rr ∧
    (∀ l ∈ [p.2], firstPoison l = none) ∧
    ∀ l ∈ [p.2], firing f l = true → g (issueOf [p.2]) rr (scoring (issueOf [p.2])) l = .ok (o l) ∧ fate rr.sys.trapEn (o l).conds = .stands := by
  intro p hp
  have h := List.all_eq_true.mp attentionSites_taken p hp
  split at h
  · next f g e =>
    obtain ⟨h1, h2⟩ := Bool.and_eq_true_iff.mp h
    obtain ⟨o, ho, hs⟩ := taken_ok h1
    refine ⟨f, g, fun _ => o, e, ⟨rfl, rfl, rfl⟩, fun l hl => ?_, fun l hl _ => ?_⟩ <;> cases List.mem_singleton.mp hl
    · exact Option.isNone_iff_eq_none.mp h2
    · exact ⟨ho, hs⟩
  · cases h

/-! #### Tags and iterations -/

theorem meets_TagNodesComplete : Fires (st rr (issueOf [edge, poisoned 2])) (issueOf [edge, poisoned 2]) rr ∧
    (([edge, poisoned 2] : List Lane).filter (takes ff)).length ≤ (freeTags rr (ff.ax.toNat % 16)).length ∧
    (∀ l ∈ ([edge, poisoned 2] : List Lane), takes ff l = true → tagDrawn rr (ff.ax.toNat % 16) l.tag = true) ∧
    ((([edge, poisoned 2] : List Lane).filter (takes ff)).map (·.tag)).Nodup := ⟨⟨rfl, rfl, rfl⟩, by decide, by decide, by decide⟩

/-- A lane under a tag that no loop region has drawn. -/
def untaken : Lane := ops 0xFFFFFFFF 0 0 1 5

theorem meets_FreeTagTrapTaken : Fires (st rr (issueOf [untaken])) (issueOf [untaken]) rr ∧ (∀ l ∈ [untaken], firing ff l = true) ∧ Handles rr ∧
    (∀ l ∈ [untaken], tagDrawn rr (ff.ax.toNat % 16) l.tag = false) ∧ ∀ l ∈ [untaken], tagDrawn rr 0 l.tag = false ∧ (opv ff l 0).toNat = 0xFFFFFFFF :=
  ⟨⟨rfl, rfl, rfl⟩, by decide, ⟨rfl, rfl, by decide, rfl, rfl⟩, by decide, by decide⟩

/-- A lane that retires its iteration, and one in thread mode that goes on at act 2. -/
def ends : Lane := ops 0xFFFFFFFF 0 0 1 1
def hands : Lane := ops 2 0 0 1 1
def threads : Region := { rr with header := BitVec.ofNat 128 (2 ^ 64 + 2 ^ 67 + 2 ^ 70), program := { acts := [act0, act0, act0] } }

theorem meets_IterationNodesComplete : Fires (st rr (issueOf [ends])) (issueOf [ends]) rr ∧ firing ff ends = true ∧
    (∀ l ∈ [ends], takes ff l = true → tagDrawn rr 0 l.tag = true ∧ iterLive (st rr (issueOf [ends])) rr 0 l.tag = true ∧
      (target ff l = 0xFFFFFFFF ∨ (hdrThread rr.header = true ∧ target ff l < 256 ∧ isHandlerAct rr.program (target ff l) = false))) ∧
    (∀ l ∈ [hands], takes ff l = true → tagDrawn threads 0 l.tag = true ∧ iterLive (st threads (issueOf [hands])) threads 0 l.tag = true ∧
      (target ff l = 0xFFFFFFFF ∨ (hdrThread threads.header = true ∧ target ff l < 256 ∧ isHandlerAct threads.program (target ff l) = false))) ∧
    (([ends].filter (takes ff)).map (·.tag)).Nodup ∧ (([ends].filter (takes ff)).map (fun l => boundId rr l.tag)).Nodup ∧
    rising ((hallAt (st rr (issueOf [ends])) rr.hall).invs.map (·.1)) = true :=
  ⟨⟨rfl, rfl, rfl⟩, rfl, by decide +kernel, by decide +kernel, by decide, by decide, by decide +kernel⟩

end Nodes

namespace Nodes

/-! #### Memory nodes -/

def access : List Lane := [ops 16 5 6 1 1, poisoned 2]
def tileAccess : List Lane := [tiles (vt 1 16) (pt (pk 8 2 2 1)) (vt 1 0)]
def ffm : NodeRec := { ff with ex := 3 }

theorem meets_AccessesStart : List.Forall (fun p : Instr × List Lane => ∃ (f : NodeRec) (k : Issue → Lane → Option AccessKind) (q : Lane → Req), accessOf p.1 = some (f, k) ∧
    Fires (st rr (issueOf p.2)) (issueOf p.2) rr ∧
    ∀ l ∈ p.2, firing f l = true → (k (issueOf p.2) l).bind (located (st rr (issueOf p.2)) rr (issueOf p.2) f l) = some (q l))
    [(.ld ffm, access), (.ld ff, access), (.ld { ff with ty := .tile }, tileAccess), (.ldfeTake ff, access), (.ldfePeek ff, access), (.stfe ff, access), (.stfeOvw ff, access),
     (.amoAdd ffm, access), (.amoAnd ff, access), (.amoOr ff, access), (.amoXor ff, access), (.amoMin ff, access), (.amoMax ff, access), (.amoSwap ff, access),
     (.amoFadd { ffm with ty := .f32 }, access), (.cas ffm, access)] := by
  have h : ∀ (f : NodeRec) (k : Issue → Lane → Option AccessKind) (ls : List Lane),
      (∀ l ∈ ls, firing f l = true → ((k (issueOf ls) l).bind (located (st rr (issueOf ls)) rr (issueOf ls) f l)).isSome = true) →
      ∃ q : Lane → Req, ∀ l ∈ ls, firing f l = true → (k (issueOf ls) l).bind (located (st rr (issueOf ls)) rr (issueOf ls) f l) = some (q l) :=
    fun f k ls h => ⟨fun l => ((k (issueOf ls) l).bind (located (st rr (issueOf ls)) rr (issueOf ls) f l)).getD (request (st rr (issueOf ls)) rr (issueOf ls) f l .load 0 0 none),
      fun l hl hf => by obtain ⟨x, hx⟩ := Option.isSome_iff_exists.mp (h l hl hf); simp only [hx, Option.getD_some]⟩
  have g : ∀ (i : Instr) (f : NodeRec) (k : Issue → Lane → Option AccessKind) (ls : List Lane), accessOf i = some (f, k) → Fires (st rr (issueOf ls)) (issueOf ls) rr →
      (∀ l ∈ ls, firing f l = true → ((k (issueOf ls) l).bind (located (st rr (issueOf ls)) rr (issueOf ls) f l)).isSome = true) →
      ∃ (f : NodeRec) (k : Issue → Lane → Option AccessKind) (q : Lane → Req), accessOf i = some (f, k) ∧ Fires (st rr (issueOf ls)) (issueOf ls) rr ∧
      ∀ l ∈ ls, firing f l = true → (k (issueOf ls) l).bind (located (st rr (issueOf ls)) rr (issueOf ls) f l) = some (q l) :=
    fun i f k ls a b c => (h f k ls c).elim fun q hq => ⟨f, k, q, a, b, hq⟩
  exact ⟨g _ _ _ _ rfl ⟨rfl, rfl, rfl⟩ (by decide +kernel), g _ _ _ _ rfl ⟨rfl, rfl, rfl⟩ (by decide +kernel), g _ _ _ _ rfl ⟨rfl, rfl, rfl⟩ (by decide +kernel),
    g _ _ _ _ rfl ⟨rfl, rfl, rfl⟩ (by decide +kernel), g _ _ _ _ rfl ⟨rfl, rfl, rfl⟩ (by decide +kernel), g _ _ _ _ rfl ⟨rfl, rfl, rfl⟩ (by decide +kernel),
    g _ _ _ _ rfl ⟨rfl, rfl, rfl⟩ (by decide +kernel), g _ _ _ _ rfl ⟨rfl, rfl, rfl⟩ (by decide +kernel), g _ _ _ _ rfl ⟨rfl, rfl, rfl⟩ (by decide +kernel),
    g _ _ _ _ rfl ⟨rfl, rfl, rfl⟩ (by decide +kernel), g _ _ _ _ rfl ⟨rfl, rfl, rfl⟩ (by decide +kernel), g _ _ _ _ rfl ⟨rfl, rfl, rfl⟩ (by decide +kernel),
    g _ _ _ _ rfl ⟨rfl, rfl, rfl⟩ (by decide +kernel), g _ _ _ _ rfl ⟨rfl, rfl, rfl⟩ (by decide +kernel), g _ _ _ _ rfl ⟨rfl, rfl, rfl⟩ (by decide +kernel),
    g _ _ _ _ rfl ⟨rfl, rfl, rfl⟩ (by decide +kernel)⟩

theorem meets_FenceStarts : Fires (st rr (issueOf access)) (issueOf access) rr := ⟨rfl, rfl, rfl⟩

def stores : Lane := ops 16 0xABCDEF01 0 1 1

theorem meets_StoreEntersHold : ∃ (d : List Byte) (q : Req) (ps : List (Nat × Nat × Nat)) (k : Nat) (i : Invocation), let s := st rr (issueOf [stores])
    Fires s (issueOf [stores]) rr ∧ firing ff stores = true ∧ storeData ff stores = some d ∧
    located s rr (issueOf [stores]) ff stores { op := .store d, right := .write, len := d.length, align := accessAlign ff } = some q ∧
    tagInv s rr 0 stores.tag = some k ∧ kget (hallAt s rr.hall).invs k = some i ∧ pieces s q .write 0 d.length = .ok ps ∧
    (∀ y ∈ s.reqs, ¬ (y.rid = 0 ∧ y.cell = 0 ∧ y.node = 0)) ∧ (∀ line ∈ pieceLines ps, pinnedByOther s line (some (rr.hall, k)) = false) ∧
    holdRoom (hallAt s rr.hall) k ps = .fits ∧ roomAll s 0 0 [(ff.da, stores.tag), (ff.db, stores.tag)] = true :=
  ⟨_, _, _, _, _, ⟨rfl, rfl, rfl⟩, rfl, rfl, rfl, rfl, rfl, rfl, fun _ h => (by cases h), by decide +kernel, by decide +kernel, by decide +kernel⟩

/-- The state with no translation held, with a walk of the page in progress or without. -/
def missing (walks : List Walk) : State := { withHall (fun h => { h with tlb := [] }) (st rr (issueOf [stores])) with walks := walks }

theorem meets_PageMissWalks : ∃ k a b, accessOf (.ld ffm) = some (ffm, k) ∧ k (issueOf [stores]) stores = some a ∧ firing ffm stores = true ∧ ∀ w ∈ ([[],
      [{ vf := 0, page := 1, hall := 5, joined := [5], number := 4 }]] : List (List Walk)),
    Fires (missing w) (issueOf [stores]) rr ∧ handleBuffer (missing w) rr ffm = some b ∧ b.scratch = none ∧ a.scratchOnly = false ∧
    accessCode (some b) a.right (opv ffm stores 0).toNat a.len a.align false = none ∧ tlbLookup (missing w) rr.hall rr.vf (b.base + (opv ffm stores 0).toNat) = none := by
  refine ⟨_, _, { buf with scratch := none, base := 0x10000 }, rfl, rfl, rfl, List.forall_mem_cons.mpr ⟨⟨⟨rfl, rfl, rfl⟩, rfl, rfl, rfl, rfl, rfl⟩, fun w hw => ?_⟩⟩
  cases List.mem_singleton.mp hw
  exact ⟨⟨rfl, rfl, rfl⟩, rfl, rfl, rfl, rfl, rfl⟩

/-- Offsets: one that is not aligned, the first beyond the buffer, and one inside; a handle that maps nothing, and one in memory. -/
theorem meets_AccessTrapTaken : List.Forall (fun p : Instr × Lane × Nat => ∃ f k a, accessOf p.1 = some (f, k) ∧ Fires (st rr (issueOf [p.2.1])) (issueOf [p.2.1]) rr ∧
    firing f p.2.1 = true ∧ k (issueOf [p.2.1]) p.2.1 = some a ∧ Handles rr ∧
    accessCode (handleBuffer (st rr (issueOf [p.2.1])) rr f) a.right (opv f p.2.1 0).toNat a.len a.align a.scratchOnly = some p.2.2)
    [(.ld { ff with ex := 9 }, ops 17 0 0 1 1, 0x18), (.ld ff, ops 17 0 0 1 1, 0x19), (.ld ff, ops 4096 0 0 1 1, 0x1A), (.ldfePeek ffm, ops 16 0 0 1 1, 0x1B)] :=
  ⟨⟨_, _, _, rfl, ⟨rfl, rfl, rfl⟩, rfl, rfl, ⟨rfl, rfl, by decide, rfl, rfl⟩, by decide +kernel⟩, ⟨_, _, _, rfl, ⟨rfl, rfl, rfl⟩, rfl, rfl, ⟨rfl, rfl, by decide, rfl, rfl⟩, by decide +kernel⟩,
    ⟨_, _, _, rfl, ⟨rfl, rfl, rfl⟩, rfl, rfl, ⟨rfl, rfl, by decide, rfl, rfl⟩, by decide +kernel⟩, ⟨_, _, _, rfl, ⟨rfl, rfl, rfl⟩, rfl, rfl, ⟨rfl, rfl, by decide, rfl, rfl⟩, by decide +kernel⟩⟩

/-! #### Name nodes -/

def fn : NodeRec := { ff with ex := 5 }
def lattice : Lattice := { stmt := 5, size := 16, uses := 2, skewed := false, m := [4], stride := [1], coef := [], modulus := 1, base := 0, dists := [] }
def slot (n : Nat) (s : SlotState) (u : Nat) : FoldSlot := { iv := n, stmt := 5, state := s, uses := u, wr := false, rd := false, inv := 0, tile := [1, 2, 3, 4, 5, 6, 7, 8, 9, 10, 11, 12, 13, 14, 15, 16] }
def fold (l : KMap FoldSlot) : Fold := { owner := 0, lattice := lattice, check := .accepted, slots := l }
def names (y : Fold) (l : Lane) : State := withHall (fun h => { h with folds := [(foldKey 0 5, y)] }) (st rr (issueOf [l]))
def word1 (t : Nat) : Lane := ops 1 3 0 1 t

theorem meets_nameReadServed : List.Forall (fun y : Fold => let s := names y (word1 1)
    Fires s (issueOf [word1 1]) rr ∧ firing fn (word1 1) = true ∧ Names s rr fn (word1 1) 0 y ∧ (slotOf rr y 0).iv = 0 ∧
    ((slotOf rr y 0).state = .full ∨ ((slotOf rr y 0).state = .held ∧ tagInv s rr 0 (word1 1).tag = some (slotOf rr y 0).inv)) ∧ 0 < (slotOf rr y 0).uses ∧
    (slotOf rr y 0).bad = false ∧ (opv fn (word1 1) 0).toNat < y.lattice.size / 4 ∧ roomAll s 0 0 [(fn.da, (word1 1).tag), (fn.db, (word1 1).tag)] = true ∧
    unawaited s rr.hall (foldKey rr.ctx (stmtOf fn))) [fold [(0, slot 0 .full 1)], fold [(0, slot 0 .held 1)]] :=
  ⟨⟨⟨rfl, rfl, rfl⟩, rfl, ⟨rfl, rfl, rfl⟩, rfl, Or.inl rfl, by decide, rfl, by decide, by decide +kernel, fun _ h => (by cases h)⟩,
   ⟨rfl, rfl, rfl⟩, rfl, ⟨rfl, rfl, rfl⟩, rfl, Or.inr ⟨rfl, rfl⟩, by decide, rfl, by decide, by decide +kernel, fun _ h => (by cases h)⟩

theorem meets_nameReadWaits : Fires (names (fold []) (word1 1)) (issueOf [word1 1]) rr ∧ Names (names (fold []) (word1 1)) rr fn (word1 1) 0 (fold []) ∧
    (slotOf rr (fold []) 0).state = .empty ∧ Names (names (fold [(2, slot 1 .full 2)]) (word1 2)) rr fn (word1 2) 2 (fold [(2, slot 1 .full 2)]) ∧
    ((slotOf rr (fold [(2, slot 1 .full 2)]) 2).state ≠ .moving ∧ (slotOf rr (fold [(2, slot 1 .full 2)]) 2).iv < 2) ∧
    (opv fn (word1 1) 0).toNat < (fold []).lattice.size / 4 ∧ rising ((fold [(2, slot 1 .full 2)]).slots.map (·.1)) = true :=
  ⟨⟨rfl, rfl, rfl⟩, ⟨rfl, rfl, rfl⟩, rfl, ⟨rfl, rfl, rfl⟩, by decide +kernel, by decide, rfl⟩

theorem meets_NameWritten : let s := names (fold []) (word1 1)
    Fires s (issueOf [word1 1]) rr ∧ firing fn (word1 1) = true ∧ Names s rr fn (word1 1) 0 (fold []) ∧ (fold []).check = .accepted ∧ (slotOf rr (fold []) 0).state = .empty ∧
    0 < useCount (word1 1) (fold []) ∧ useCount (word1 1) (fold []) ≤ 65535 ∧ roomAll s 0 0 [(fn.da, (word1 1).tag), (fn.db, (word1 1).tag)] = true ∧
    unawaited s rr.hall (foldKey rr.ctx (stmtOf fn)) :=
  ⟨⟨rfl, rfl, rfl⟩, rfl, ⟨rfl, rfl, rfl⟩, rfl, rfl, by decide +kernel, by decide +kernel, by decide +kernel, fun _ h => (by cases h)⟩

theorem meets_ProbeCompletes : let s := names (fold [(0, slot 0 .full 2)]) (word1 1)
    Fires s (issueOf [word1 1]) rr ∧ rising ((hallAt s rr.hall).invs.map (·.1)) = true ∧
    ∀ l ∈ [word1 1], firing fn l = true → ∃ n y, nameOf rr fn l.tag = some n ∧ kget (hallAt s rr.hall).folds (foldKey rr.ctx (stmtOf fn)) = some y :=
  ⟨⟨rfl, rfl, rfl⟩, by decide +kernel, fun l hl _ => by cases List.mem_singleton.mp hl; exact ⟨_, _, rfl, rfl⟩⟩

/-- A region whose inner level ends at 0: identifier 2's predecessor is out of its levels. -/
def short : Region := { rr with header := BitVec.ofNat 128 (2 ^ 64 + 2 ^ 67 + 3 * 2 ^ 88) }

theorem meets_NameRangeTrapTaken : let f := { fn with ax := 1 }; let s := withHall (fun h => { h with folds := [(foldKey 0 5, fold [])] }) (st short (issueOf [word1 2]))
    Fires s (issueOf [word1 2]) short ∧ firing f (word1 2) = true ∧ Handles short ∧ nameOf short f (word1 2).tag = none :=
  ⟨⟨rfl, rfl, rfl⟩, rfl, ⟨rfl, rfl, by decide, rfl, rfl⟩, by decide +kernel⟩

end Nodes

namespace Nodes

/-! #### Matrix nodes -/

def fm : NodeRec := { ff with ty := .tile, ex := 0x100 }
def arow (t : Nat) : AccRow := { tag := t, complete := true, nextChunk := 1, elems := [.fin 3 5, .fin 1 0] }
/-- A region that runs the row node at node 0. -/
def rows : Region := { rr with active := { rr.active with nodes := [(0, { record := enc (.mxrow fm), base := 0, size := 0 })] } }
def rowLane (lastk : Nat) : Lane := { tag := 1, ops := [(0, pt { pk 8 1 2 2 with hdr := { (pk 8 1 2 2).hdr with lastk := lastk } })] }
def rowState (keep : Bool) (lastk : Nat) : State := onPlinth (plinth .f16 keep) (st rows (issueOf [rowLane lastk]))

/-- A last chunk on a plinth that drains, and a chunk on one that keeps its rows. -/
theorem meets_RowJoins : ∀ z ∈ ([(false, 1), (true, 0)] : List (Bool × Nat)), ∃ (cfg : MxCfg) (a b : Pkt) (v : VitSlot),
    let s := rowState z.1 z.2
    let l := rowLane z.2
    let p := plinthAt s rows.hall 0
    let conds := (joinChunk (List.replicate cfg.n (.fin 0 0)) ((List.range cfg.n).map (fun j => chunkOf (products b v.tr (aRow a 0).1 (aRow a 0).2 j)))).2
    Fires s (issueOf [l]) rows ∧ firing fm l = true ∧ mayIssue rows = true ∧
    (kget rows.active.nodes 0).bind (fun e => nodeFields e.record) = some fm ∧ Plinthed s (issueOf [l]) rows fm (slotGroup fm.ex.toNat) cfg ∧ p.drain = none ∧
    portPkt fm l 0 = some a ∧ a.hdr.rows = 1 ∧ a.hdr.fmt = tyCode cfg.afmt ∧ a.hdr.scl ≤ 1 ∧ a.hdr.spm = 0 ∧ a.hdr.kch = 0 ∧
    chunkSlot p (slotGroup fm.ex.toNat) 0 = some v ∧ pktOf v.packet = some b ∧ (b.hdr.spm == 1) = cfg.sparse ∧ kget p.rows (a.hdr.rowtag % 128) = none ∧
    fate rows.sys.trapEn conds = .stands ∧ roomAll s 0 0 ((if cfg.keep then [] else [(fm.da, l.tag)]) ++ [(fm.db, l.tag)]) = true := by
  intro z hz
  have h : ∀ z ∈ ([(false, 1), (true, 0)] : List (Bool × Nat)), portPkt fm (rowLane z.2) 0 = some { pk 8 1 2 2 with hdr := { (pk 8 1 2 2).hdr with lastk := z.2 } } ∧
      pktOf (pk 8 2 2 1).bytes = some (pk 8 2 2 1) ∧ (kget rows.active.nodes 0).bind (fun e => nodeFields e.record) = some fm ∧
      roomAll (rowState z.1 z.2) 0 0 ((if z.1 then [] else [(fm.da, (rowLane z.2).tag)]) ++ [(fm.db, (rowLane z.2).tag)]) = true := by decide +kernel
  obtain ⟨h1, h2, h3, h4⟩ := h z hz
  refine ⟨{ afmt := .f16, n := 2, keep := z.1, sparse := false }, _, pk 8 2 2 1, { packet := (pk 8 2 2 1).bytes, tr := false, ref := none }, ⟨rfl, rfl, rfl⟩, rfl, rfl, h3, ?_, rfl, h1, rfl, rfl,
    Nat.zero_le 1, rfl, rfl, rfl, h2, rfl, rfl, stands _, h4⟩
  rcases List.mem_cons.mp hz with rfl | hz
  · exact ⟨rfl, rfl⟩
  · cases List.mem_singleton.mp hz; exact ⟨rfl, rfl⟩

def drains : NodeRec := { ff with ty := .untyped, ex := 0, lit := 2 }
def asks : Lane := ops 3 2 0 0 1
def kept (l : KMap AccRow) : State := onPlinth { plinth .f16 true with rows := l } (st rr (issueOf [asks]))

theorem meets_DrainCompletes : (∀ l : KMap AccRow, Fires (kept l) (issueOf [asks]) rr ∧ firing drains asks = true ∧
      Plinthed (kept l) (issueOf [asks]) rr drains [] { afmt := .f16, n := 2, keep := true, sparse := false }) ∧
    completeRows (plinthAt (kept [(3, arow 3), (4, arow 4), (7, arow 7)]) 0 0) (drainTags drains asks) = some [arow 3, arow 4] ∧ (∀ y ∈ [arow 3, arow 4], y.poison = none) ∧
    completeRows (plinthAt (kept [(3, arow 3), (4, { arow 4 with complete := false })]) 0 0) (drainTags drains asks) = none :=
  ⟨fun _ => ⟨⟨rfl, rfl, rfl⟩, rfl, ⟨rfl, rfl⟩⟩, by decide +kernel, by decide, by decide +kernel⟩

def steered : Lane := tiles (pt (pk 8 1 2 1)) (vt 1 7) (vt 1 0)
def astray : Lane := tiles (pt (pk 8 1 2 1)) (vt 1 8) (vt 1 0)

theorem meets_SteerCompletes : Fires (st rr (issueOf [steered, poisoned 2])) (issueOf [steered, poisoned 2]) rr ∧
    (∀ l ∈ [steered, poisoned 2], firing ff l = true → (opv ff l 1).toNat ≤ 7) ∧ Fires (st rr (issueOf [astray])) (issueOf [astray]) rr ∧
    (∀ l ∈ [astray], firing ff l = true ∧ 7 < (opv ff l 1).toNat) ∧ Handles rr :=
  ⟨⟨rfl, rfl, rfl⟩, by decide +kernel, ⟨rfl, rfl, rfl⟩, by decide +kernel, ⟨rfl, rfl, by decide, rfl, rfl⟩⟩

/-- The packets that PAIR joins: two queries' scores of two keys, and the keys' values. -/
def queries : Pkt := { pk 6 2 2 1 with rows := [{ els := [0x3F800000, 0x40000000] }, { els := [0, 0x3F800000] }] }
def values : Pkt := pk 9 2 2 1
def pairs : Lane := { tag := 1, ops := [(0, { value := 3, tag := 1, packet := queries.bytes ++ values.bytes })] }
def counted : Lane := { tag := 1, ops := [(1, vt 1 4)] }
def facc : NodeRec := { ff with ty := .untyped, ex := 0x100 }
def joins (r : Region) (l : Lane) : State := onPlinth { plinth .f8e4 false with slots := [] } (st r (issueOf [l]))
/-- A region that has joined one pair. -/
def joined : Region := { rr with acc := [(accKey (issueOf [counted]) 1, { maxima := [], dens := [], rows := [], joined := 1, count := none })] }

theorem pairs_hold : pairOf (operand facc pairs 0).packet = some (queries, values) := by decide +kernel
theorem rows_free : freeRows { plinth .f8e4 false with slots := [] } 2 = some [0, 1] := by decide +kernel

theorem meets_PairAccumulates : ∃ cfg, Fires (joins rr pairs) (issueOf [pairs]) rr ∧ firing facc pairs = true ∧ Plinthed (joins rr pairs) (issueOf [pairs]) rr facc (slotGroup facc.ex.toNat) cfg ∧
    ((kget pairs.ops 0).isSome = true ∧ pairOf (operand facc pairs 0).packet = some (queries, values) ∧ cfg.afmt = .f8e4 ∧ values.hdr.cols ≤ cfg.n ∧
      kget rr.acc (accKey (issueOf [pairs]) 1) = none ∧ freeRows (plinthAt (joins rr pairs) 0 0) queries.hdr.rows = some [0, 1]) ∧
    Fires (joins joined counted) (issueOf [counted]) joined ∧ firing facc counted = true ∧ Plinthed (joins joined counted) (issueOf [counted]) joined facc (slotGroup facc.ex.toNat) cfg ∧
    ∃ y, (kget counted.ops 0).isSome = false ∧ kget joined.acc (accKey (issueOf [counted]) 1) = some y ∧ y.count = none ∧ (opv facc counted 1).toNat ≠ 0 ∧ y.joined ≠ (opv facc counted 1).toNat :=
  ⟨{ afmt := .f8e4, n := 2, keep := false, sparse := false }, ⟨rfl, rfl, rfl⟩, rfl, ⟨rfl, rfl⟩, ⟨rfl, pairs_hold, rfl, by decide, rfl, rows_free⟩, ⟨rfl, rfl, rfl⟩, rfl, ⟨rfl, rfl⟩,
    _, rfl, rfl, rfl, by decide, by decide⟩

end Nodes

namespace Nodes

/-! ### The specification's worked examples, one issue of one node each -/

/-- The tokens of a channel, and the values that an issue sends on its channels, in their order. -/
def tokens (c : Chan) : List Token := c.flight.map (·.token) ++ c.queue
def sent (o : Host.Outcome State Fault Refusal) : List Nat := match o with | .next t => t.chans.flatMap (fun p => (tokens p.2).map (·.value.toNat)) | _ => []
/-- What a node with one destination sends on its operands. -/
def fires (i : NodeRec → Instr) (f : NodeRec) (a b c : BitVec 32) : List Nat := sent (exec (i { f with da := .node 3 1 }) (st rr (issueOf [ops a b c 1 1])))
def i32 : NodeRec := { node with ty := .i32 }

/-- R147: ADD.i8 of 100 and 50, and ADD.i8.sat. -/
theorem test_add : fires .add { node with ty := .i8 } 100 50 0 = [0xFFFFFF96] ∧ fires .add { node with ty := .i8, md := 1 } 100 50 0 = [0x7F] := by decide +kernel
/-- R263: ABS.i32 of −2^31 and NEG.n32 of 5, each with and without .sat. -/
theorem test_abs : fires .abs i32 0x80000000 0 0 = [0x80000000] ∧ fires .abs { i32 with md := 1 } 0x80000000 0 0 = [0x7FFFFFFF] := by decide +kernel
theorem test_neg : fires .neg { node with ty := .n32 } 5 0 0 = [0xFFFFFFFB] ∧ fires .neg { node with ty := .n32, md := 1 } 5 0 0 = [0] := by decide +kernel
/-- R265: −2^31 by −1, and −7 by 2; a divisor of zero. -/
theorem test_div : fires .div i32 0x80000000 0xFFFFFFFF 0 = [0x80000000] ∧ fires .div { i32 with md := 1 } 0x80000000 0xFFFFFFFF 0 = [0x7FFFFFFF] ∧
    fires .div { node with ty := .n16 } 9 0 0 = [0xFFFF] := by decide +kernel
theorem test_rem : fires .rem i32 0x80000000 0xFFFFFFFF 0 = [0] ∧ fires .rem i32 0xFFFFFFF9 2 0 = [0xFFFFFFFF] ∧ fires .rem i32 9 0 0 = [9] := by decide +kernel
/-- R268: control word 0x0804 puts the low 8 bits of op1 into bits [11:4] of op0; BFX of them is signed for an i type. -/
theorem test_bfi : fires .bfi i32 0xFFFFFFFF 0x12 0x0804 = [0xFFFFF12F] := by decide +kernel
theorem test_bfx : fires .bfx i32 0xF80 0x0804 0 = [0xFFFFFFF8] ∧ fires .bfx { node with ty := .n32 } 0xF80 0x0804 0 = [0xF8] := by decide +kernel
/-- R152, R153: the example's conversions of FP32 to f8e4, without and with saturation; its −∞ without saturation is log 31's. -/
theorem test_fcvt : ([0x43E60000, 0x43E80000, 0x43EB0000, 0x3A83126F, 0x3A800000] : List (BitVec 32)).map (fun v => fires .fcvt { node with ty := .f8e4, ex := 6 } v 0 0) =
    [[0x7E], [0x7E], [0x7F], [0x01], [0x00]] := by decide +kernel
theorem test_fcvt_saturates : ([0x43E60000, 0x43E80000, 0x43EB0000, 0xFF800000, 0x3A83126F, 0x3A800000] : List (BitVec 32)).map (fun v => fires .fcvt { node with ty := .f8e4, ex := 6, md := 4 } v 0 0) =
    [[0x7E], [0x7E], [0x7E], [0xFE], [0x01], [0x00]] := by decide +kernel

/-- The packet that a node sends first. -/
def packet (o : Host.Outcome State Fault Refusal) : Option Pkt := match o with | .next t => (t.chans.flatMap (fun p => tokens p.2)).head?.bind (fun x => pktOf x.packet) | _ => none
def table (fmt : Nat) (rs : List (List Nat)) : Pkt :=
  { hdr := { fmt := fmt, rows := rs.length, cols := (rs.headD []).length, scl := 0, spm := 0, lastk := 1, kch := 0, rowtag := 0 }, rows := rs.map (fun r => { els := r }) }
def elements (o : Host.Outcome State Fault Refusal) : List (List Nat) := (packet o).elim [] (fun p => p.rows.map (·.els))
def single (i : NodeRec → Instr) (f : NodeRec) (p : Pkt) : Host.Outcome State Fault Refusal := let x := issueOf [{ tag := 1, ops := [(0, pt p)] }]; exec (i { f with da := .node 3 1 }) (st rr x)

/-- R158: the header of a BF16 packet of 32 rows of 32 elements with LASTK. -/
theorem test_header : ({ fmt := 7, rows := 32, cols := 32, scl := 0, spm := 0, lastk := 1, kch := 0, rowtag := 0 } : PktHdr).toNat = 0x7202010000000000 := by decide
/-- R352: the indices and the values of the three greatest of each column. -/
def columns2 : Pkt := table 6 [[0x40A00000, 0x40400000], [0x40E00000, 0x40400000], [0x40E00000, 0x41100000], [0x40000000, 0x40400000], [0x40E00000, 0], [0x3F800000, 0x41000000],
  [0x40C00000, 0x40400000], [0x40C00000, 0x41100000]]
theorem test_vtopk_indices : elements (single .vtopkIdx { node with ty := .f32, ex := 1, lit := 3 } columns2) = [[1, 2], [2, 7], [4, 5]] := by decide +kernel
theorem test_vtopk_values : elements (let x := issueOf [{ tag := 1, ops := [(0, pt columns2)] }]; exec (.vtopk { node with ty := .f32, db := .node 3 1, lit := 3 }) (st rr x)) =
    [[0x40E00000, 0x41100000], [0x40E00000, 0x41100000], [0x40E00000, 0x41000000]] := by decide +kernel
/-- R354: VQUANT.f8e4 of (0.75, −3.0, 0.1, 0.0), and VDEQ of what it gives. -/
theorem test_vquant : (packet (single .vquant { node with ty := .f8e4 } (table 6 [[0x3F400000, 0xC0400000, 0x3DCCCCCD, 0]]))).map (fun p => (p.rows.map (·.els), p.scales)) =
    some ([[0x6C, 0xFC, 0x55, 0x00]], [0x3C000000]) := by decide +kernel
theorem test_vdeq : elements (single .vdeq { node with ty := .f32 } { table 9 [[0x6C, 0xFC, 0x55, 0x00]] with hdr := { (table 9 [[0x6C, 0xFC, 0x55, 0x00]]).hdr with scl := 1 }, scales := [0x3C000000] }) =
    [[0x3F400000, 0xC0400000, 0x3DD00000, 0]] := by decide +kernel
/-- R163 to R166: the chunks of the example, their joins, and the FP32 number that NORM resolves. -/
def bf (a b : Nat) : Fl × Bool := mulFl (elemVal 7 0 a) (elemVal 7 0 b)
theorem test_chunks : (chunkOf [bf 0x3FC0 0x4040, bf 0x3300 0x3300, bf 0xB300 0x3300]).1 = .fin (9 * 2 ^ 43 - 1) 468 ∧ (chunkOf [bf 0x4480 0x4480]).1 = .fin (2 ^ 46) 486 := by decide +kernel
theorem test_joins : (joinCsa (.fin (9 * 2 ^ 43 - 1) 468) (.fin (2 ^ 46) 486)).value = .fin (2 ^ 46 + 9 * 2 ^ 25 - 1) 486 ∧
    (normCsa 0 (.fin (2 ^ 46 + 9 * 2 ^ 25 - 1) 486)).1 = 0x49800024 := by decide +kernel
/-- R34 and R233: the launch of fields (4, 10, 6) and extents (3, 1000, 64), from the words of LAUNCH's example: the iteration (2, 37, 5), and its invocation's first. -/
def launch : BitVec 128 := BitVec.ofNat 128 (0x0000005243000013 * 2 ^ 64 + 0x2F9FF)
theorem test_iterations : idAt launch (2 * 64000 + 37 * 64 + 5) = 0x20945 ∧ invFirst launch 0x20945 = 0x20940 ∧ itersFrom launch 1 = 192000 ∧ hdrInv launch = 2 := by decide +kernel

end Nodes

/-! ### States that meet the premises of the entries of a table: Device -/

namespace Device

def img (b : Bool) : BootImage := { digest := 5, signed := b }

def st1 := withPkg (fun p => { p with frames := { clean := [(0, 4)], owners := [(9,0)], queue := [7], scrubbing := [(5,false)] }, trips := [3] }) site0

theorem meets_powerGood : ∃ e, deviceEffect .powerGood (.images (List.replicate 7 (img true))) = some e ∧ Ready st1 (.images (List.replicate 7 (img true))) e.needs :=
  ⟨_, rfl, rfl, by (try dsimp only); repeat' (first | exact True.intro | rfl | decide | apply And.intro | apply Exists.intro)⟩

theorem meets_lifeCycleTransition : ∃ e, deviceEffect .lifeCycleTransition (.flagged 0 true) = some e ∧ Ready st1 (.flagged 0 true) e.needs :=
  ⟨_, rfl, rfl, by (try dsimp only); repeat' (first | exact True.intro | rfl | decide | apply And.intro | apply Exists.intro)⟩

theorem meets_attestationReport : ∃ e, deviceEffect .attestationReport (.nonce 5) = some e ∧ Ready st1 (.nonce 5) e.needs :=
  ⟨_, rfl, rfl, by (try dsimp only); repeat' (first | exact True.intro | rfl | decide | apply And.intro | apply Exists.intro)⟩

theorem meets_keyLoaded : ∃ e, deviceEffect .keyLoaded (.pair 0 77) = some e ∧ Ready st1 (.pair 0 77) e.needs :=
  ⟨_, rfl, rfl, by (try dsimp only); repeat' (first | exact True.intro | rfl | decide | apply And.intro | apply Exists.intro)⟩

def ent : RegEntry := { chain := 0xABCDEF, body := 0x123456789 }

def st2 := withPkg (fun p => { p with registrar := { p.registrar with entries := [ent, ent], exported := 1 } }) site0

theorem meets_registrarExport : ∃ e, deviceEffect .registrarExport (.flagged 0 true) = some e ∧ Ready st2 (.flagged 0 true) e.needs :=
  ⟨_, rfl, rfl, by (try dsimp only); repeat' (first | exact True.intro | rfl | decide | apply And.intro | apply Exists.intro)⟩

theorem meets_registrarConsumerAdvance : ∃ e, deviceEffect .registrarConsumerAdvance (.index 1) = some e ∧ Ready st2 (.index 1) e.needs :=
  ⟨_, rfl, rfl, by (try dsimp only); repeat' (first | exact True.intro | rfl | decide | apply And.intro | apply Exists.intro)⟩

theorem meets_hallTemperatureReading : ∃ e, deviceEffect .hallTemperatureReading (.triple 0 1 101) = some e ∧ Ready st2 (.triple 0 1 101) e.needs :=
  ⟨_, rfl, rfl, by (try dsimp only); repeat' (first | exact True.intro | rfl | decide | apply And.intro | apply Exists.intro)⟩

def hot := withHall (fun h => { h with temps := (105, 116) }) st2

theorem meets_thermalHold : ∃ e, deviceEffect .thermalHold (.index 0) = some e ∧ Ready hot (.index 0) e.needs :=
  ⟨_, rfl, rfl, by (try dsimp only); repeat' (first | exact True.intro | rfl | decide | apply And.intro | apply Exists.intro)⟩

theorem meets_thermalHoldEnd : ∃ e, deviceEffect .thermalHoldEnd (.index 0) = some e ∧ Ready (withHall (fun h => { h with held := true, heldSince := 4 }) { site [(0, running)] with timeNs := 100 }) (.index 0) e.needs :=
  ⟨_, rfl, rfl, by (try dsimp only); repeat' (first | exact True.intro | rfl | decide | apply And.intro | apply Exists.intro)⟩

theorem meets_hbmThrottle : ∃ e, deviceEffect .hbmThrottle (.pair 2 95) = some e ∧ Ready st2 (.pair 2 95) e.needs :=
  ⟨_, rfl, rfl, by (try dsimp only); repeat' (first | exact True.intro | rfl | decide | apply And.intro | apply Exists.intro)⟩

theorem meets_hbmThrottleEnd : ∃ e, deviceEffect .hbmThrottleEnd (.pair 2 89) = some e ∧ Ready (withPkg (fun p => { p with throttled := 4 }) st2) (.pair 2 89) e.needs :=
  ⟨_, rfl, rfl, by (try dsimp only); repeat' (first | exact True.intro | rfl | decide | apply And.intro | apply Exists.intro)⟩

theorem meets_thermtrip : ∃ e, deviceEffect .thermtrip (.index 0) = some e ∧ Ready hot (.index 0) e.needs :=
  ⟨_, rfl, rfl, by (try dsimp only); repeat' (first | exact True.intro | rfl | decide | apply And.intro | apply Exists.intro)⟩

theorem meets_dvfsWindowEnd : ∃ e, deviceEffect .dvfsWindowEnd (.pair 0 300) = some e ∧ Ready (withHall (fun h => { h with freq := 1000, cycles := 70000000, windowStart := 1000 }) st2) (.pair 0 300) e.needs :=
  ⟨_, rfl, rfl, by (try dsimp only); repeat' (first | exact True.intro | rfl | decide | apply And.intro | apply Exists.intro)⟩

theorem meets_clockStepEnd : ∃ e, deviceEffect .clockStepEnd (.index 0) = some e ∧ Ready (withHall (fun h => { h with step := some 1000 }) st2) (.index 0) e.needs :=
  ⟨_, rfl, rfl, by (try dsimp only); repeat' (first | exact True.intro | rfl | decide | apply And.intro | apply Exists.intro)⟩

theorem meets_fralloc : ∃ e, deviceEffect .fralloc (.index 0) = some e ∧ Ready st1 (.index 0) e.needs :=
  ⟨_, rfl, rfl, by (try dsimp only); repeat' (first | exact True.intro | rfl | decide | apply And.intro | apply Exists.intro)⟩

theorem meets_frfree : ∃ e, deviceEffect .frfree (.index 9) = some e ∧ Ready st1 (.index 9) e.needs :=
  ⟨_, rfl, rfl, by (try dsimp only); repeat' (first | exact True.intro | rfl | decide | apply And.intro | apply Exists.intro)⟩

theorem meets_frameScrubStart : ∃ e, deviceEffect .frameScrubStart .absent = some e ∧ Ready st1 .absent e.needs :=
  ⟨_, rfl, rfl, by (try dsimp only); repeat' (first | exact True.intro | rfl | decide | apply And.intro | apply Exists.intro)⟩

theorem meets_frameScrubDone : ∃ e, deviceEffect .frameScrubDone (.flagged 5 false) = some e ∧ Ready { st1 with mem := [(5*2^21, 3), (2^24,1)] } (.flagged 5 false) e.needs :=
  ⟨_, rfl, rfl, by (try dsimp only); repeat' (first | exact True.intro | rfl | decide | apply And.intro | apply Exists.intro)⟩

theorem meets_contextScrubComplete : ∃ e, deviceEffect .contextScrubComplete (.index 0) = some e ∧ Ready (site [(0, { running with state := .free, releasing := true })]) (.index 0) e.needs :=
  ⟨_, rfl, rfl, by (try dsimp only); repeat' (first | exact True.intro | rfl | decide | apply And.intro | apply Exists.intro)⟩

theorem meets_annexPortLost : ∃ e, deviceEffect .annexPortLost (.index 4) = some e ∧ Ready (site [(0, running)]) (.index 4) e.needs :=
  ⟨_, rfl, rfl, by (try dsimp only); repeat' (first | exact True.intro | rfl | decide | apply And.intro | apply Exists.intro)⟩

theorem meets_annexPortRetrain : ∃ e, deviceEffect .annexPortRetrain (.index 4) = some e ∧ Ready (withPkg (fun p => { p with annex := p.annex.set 4 { lost := true } }) st1) (.index 4) e.needs :=
  ⟨_, rfl, rfl, by (try dsimp only); repeat' (first | exact True.intro | rfl | decide | apply And.intro | apply Exists.intro)⟩

theorem meets_routeTableError : ∃ e, deviceEffect .routeTableError (.index 0) = some e ∧ Ready st1 (.index 0) e.needs :=
  ⟨_, rfl, rfl, by (try dsimp only); repeat' (first | exact True.intro | rfl | decide | apply And.intro | apply Exists.intro)⟩

def rq : Req := { rid := 0, cell := 0, node := 0, lane := { tag := 0, ops := [] }, wid := none, op := .load, ty := .i32, da := .discard, db := .discard, va := 0, loc := some 0x100000000000, len := 4, phase := .issued, number := 6 }

theorem meets_annexRequestTimeout : ∃ e, deviceEffect .annexRequestTimeout (.index 6) = some e ∧ Ready { site [(0, running)] with reqs := [rq] } (.index 6) e.needs :=
  ⟨_, rfl, rfl, by (try dsimp only); repeat' (first | exact True.intro | exact annexUp rfl _ | rfl | decide | apply And.intro | apply Exists.intro)⟩

theorem meets_registerWrite : ∃ e, hostEffect .registerWrite (.register (some 0) 0x20 0x5040) = some e ∧ Ready site0 (.register (some 0) 0x20 0x5040) e.needs :=
  ⟨_, rfl, rfl, by (try dsimp only); repeat' (first | exact True.intro | rfl | decide | apply And.intro | apply Exists.intro)⟩

theorem meets_rescrubClear : ∃ e, hostEffect .rescrubClear (.register none 0x100 1) = some e ∧ Ready (withPkg (fun p => { p with rescrub := true }) site0) (.register none 0x100 1) e.needs :=
  ⟨_, rfl, rfl, by (try dsimp only); repeat' (first | exact True.intro | rfl | decide | apply And.intro | apply Exists.intro)⟩

theorem meets_errptrConsumerWrite : ∃ e, hostEffect .errptrConsumerWrite (.register none 0x110 0x50000000F) = some e ∧ Ready site0 (.register none 0x110 0x50000000F) e.needs :=
  ⟨_, rfl, rfl, by (try dsimp only); repeat' (first | exact True.intro | rfl | decide | apply And.intro | apply Exists.intro)⟩

theorem meets_tinv : ∃ e, hostEffect .tinv (.register (some 0) 0x28 0x10001) = some e ∧ Ready { site0 with walks := [{ vf := 0, page := 1, hall := 0, joined := [0], number := 1 }, { vf := 1, page := 1, hall := 0, joined := [0], number := 2 }] } (.register (some 0) 0x28 0x10001) e.needs :=
  ⟨_, rfl, rfl, by (try dsimp only); repeat' (first | exact True.intro | rfl | decide | apply And.intro | apply Exists.intro)⟩

def ti := withHall (fun h => { h with tlb := [(1, { base := 0, size := 16, write := true, atomic := true, filled := 0 }), (9, { base := 0, size := 16, write := true, atomic := true, filled := 0 }), (2^41+1, { base := 0, size := 16, write := true, atomic := true, filled := 0 })] }) { site0 with vfs := [(0, { wing := some 0, tinv := some (1, 0) })], walks := [{ vf := 0, page := 1, hall := 0, joined := [0], number := 1, stale := true }] }

theorem meets_translationInvalidationDone : ∃ e, hostEffect .translationInvalidationDone (.index 0) = some e ∧ Ready ti (.index 0) e.needs :=
  ⟨_, rfl, rfl, by (try dsimp only); repeat' (first | exact True.intro | rfl | decide | apply And.intro | apply Exists.intro)⟩

theorem meets_hostLinkError : ∃ e, hostEffect .hostLinkError .absent = some e ∧ Ready { site [(0, running)] with reqs := [{ rq with loc := some (2^51+3) }] } .absent e.needs :=
  ⟨_, rfl, rfl, by (try dsimp only); repeat' (first | exact True.intro | rfl | decide | apply And.intro | apply Exists.intro)⟩

theorem meets_hostCompletionTimeout : ∃ e, hostEffect .hostCompletionTimeout (.index 6) = some e ∧ Ready { site [(0, running)] with reqs := [{ rq with loc := some (2^51+3) }] } (.index 6) e.needs :=
  ⟨_, rfl, rfl, by (try dsimp only); repeat' (first | exact True.intro | rfl | decide | apply And.intro | apply Exists.intro)⟩

theorem meets_hostLinkUp : ∃ e, hostEffect .hostLinkUp .absent = some e ∧ Ready (withPkg (fun p => { p with hostUp := false, msiWaiting := [(1,2)], errors := { p.errors with waiting := [[1,2,3,4,5,6,7,8]] } }) site0) .absent e.needs :=
  ⟨_, rfl, rfl, by (try dsimp only); repeat' (first | exact True.intro | rfl | decide | apply And.intro | apply Exists.intro)⟩

theorem meets_functionLevelReset : ∃ e, hostEffect .functionLevelReset (.index 0) = some e ∧ Ready (site [(0, running)]) (.index 0) e.needs :=
  ⟨_, rfl, rfl, by (try dsimp only); repeat' (first | exact True.intro | rfl | decide | apply And.intro | apply Exists.intro)⟩

theorem meets_pfReset : ∃ e, hostEffect .pfReset .absent = some e ∧ Ready { site [(0, running)] with tick := 3 } .absent e.needs :=
  ⟨_, rfl, rfl, by decide, by decide, Or.inl (by decide)⟩

theorem meets_hostCxlMemAccess : ∃ e, hostEffect .hostCxlMemAccess (.cxl 64 (some [1,2,3])) = some e ∧ Ready (withPkg (fun p => { p with hdm := [(3,(0,128))] }) { site0 with mem := [(65,1)] }) (.cxl 64 (some [1,2,3])) e.needs :=
  ⟨_, rfl, rfl, by (try dsimp only); repeat' (first | exact True.intro | rfl | decide | apply And.intro | apply Exists.intro)⟩

theorem meets_go : ∃ e, hostEffect .go (.register (some 1) 0x20 1) = some e ∧ Ready site0 (.register (some 1) 0x20 1) e.needs :=
  ⟨_, rfl, rfl, by (try dsimp only); repeat' (first | exact True.intro | exact (by decide : (0:Nat) ≠ 1) | exact Or.inl rfl | rfl | decide | apply And.intro | apply Exists.intro)⟩

def imgB : List Byte := bytesOfNat 4 0x314C4957 ++ bytesOfNat 2 1 ++ bytesOfNat 2 1 ++ bytesOfNat 8 0x40 ++ bytesOfNat 16 0 ++ bytesOfNat 16 (2^64 + 2^67) ++ bytesOfNat 16 0 ++ bytesOfNat 8 0x50 ++ bytesOfNat 8 act0.length ++ act0

def imgM : Memory := (imgB.zipIdx.filter (fun p => p.1 != 0)).map (fun p => (p.2, p.1))

def gs : State := withPkg (fun p => { p with hdm := [(0, (0, 4096))] }) (withHall (fun h => { h with tlb := [(tlbKey 0 0 16, { base := 0, size := 16, write := true, atomic := true, filled := 0 })] }) { site0 with mem := imgM, input := .register (some 0) 0x20 1 })


/-- The state once GO has set MBCTL, where the root region comes to stand, and what it runs. -/
def gs1 : State := goSet 0 1 gs
def goH : Home := goHome (vfAt gs1 0) 0 wing
def goP : Program := { acts := [act0], origin := 0, shape := 0, plinths := 0 }
def goHdr : BitVec 128 := BitVec.ofNat 128 (2 ^ 64 + 2 ^ 67)

theorem meets_launchable : launchable gs1 goH (vfAt gs1 0) goP goHdr := by
  refine ⟨launchBytes gs1 goH 0 64, readsImage_read (by decide +kernel), by decide +kernel, by decide +kernel, by decide +kernel, by decide +kernel, ?_, by decide +kernel, rfl, rfl,
    by decide +kernel, by decide +kernel, by decide +kernel, by decide +kernel, fun q h => (by cases h), fun q h => (by cases h), by decide +kernel, by decide +kernel, by decide +kernel,
    act0, act0Secs, by decide +kernel, by decide +kernel, by decide +kernel, rfl, rfl⟩
  intro i x h
  match i, h with
  | 0, h =>
    have e : act0 = x := Option.some.inj h
    subst e
    refine ⟨launchBytes gs1 goH 0x40 16, ?_, ?_⟩
    · exact (by decide +kernel : (vfAt gs1 0).mbimg + leAt (launchBytes gs1 goH 0 64) 8 8 + 16 * 0 = 0x40) ▸ readsImage_read (by decide +kernel)
    · have a : (vfAt gs1 0).mbimg + leAt (launchBytes gs1 goH 0x40 16) 0 8 = 0x50 := by decide +kernel
      have b : leAt (launchBytes gs1 goH 0x40 16) 8 8 = act0.length := by decide +kernel
      have c : launchBytes gs1 goH 0x50 act0.length = act0 := by decide +kernel
      rw [a, b]
      exact c ▸ readsImage_read (by decide +kernel)
  | i + 1, h => exact absurd h (by simp [goP])

theorem meets_go_launch : ∃ e, hostEffect .go (.register (some 0) 0x20 1) = some e ∧ Ready gs (.register (some 0) 0x20 1) e.needs :=
  ⟨_, rfl, rfl, rfl, by decide, by decide, by decide, Or.inr ⟨0, wing, goP, goHdr, rfl, rfl, meets_launchable⟩⟩

end Device

/-! ### States that meet the premises of the entries of a table: Cells -/

namespace Cells

def cadd : Rec := enc (.add { node with da := .node 1 0 })

def rr : Region := { running with active := bank [(0, cadd), (1, enc (.add { node with ls := .port1, lit := 5 }))] [], ready := [{ cell := 0, node := 0, lane := ln 2 }] }

def s1 := site [(0, rr)]

def hdr (thread : Bool) : BitVec 128 := BitVec.ofNat 128 (2^64 + 2^67 + (if thread then 2^70 else 0) + 0)

theorem meets_cellIssue : ∃ e, cellEffect .cellIssue (.pair 0 0) = some e ∧ Ready s1 (.pair 0 0) e.needs :=
  ⟨_, rfl, rfl, by (try dsimp only); repeat' (first | exact True.intro | rfl | decide | apply And.intro | apply Exists.intro)⟩

def s2 (p : Place) := { s1 with chans := [(8, ch p [tk] [])] }

theorem meets_tokenArrival : ∃ e, cellEffect .tokenArrival (.index 8) = some e ∧ Ready (s2 (.port 0 1 0)) (.index 8) e.needs :=
  ⟨_, rfl, rfl, by (try dsimp only); repeat' (first | exact True.intro | (intro k q h; cases h) | (intro k h; cases h) | rfl | decide | apply And.intro | apply Exists.intro)⟩

def okey (node tag port row : Nat) : Nat := ((node * 4096 + tag) * 4 + port) * 2^24 + row

def s3 := withHall (fun h => { h with overflow := [{ cell := 0, ctx := 0, key := okey 1 2 0 0, token := tk }] }) s1

theorem meets_overflowReinject : ∃ e, cellEffect .overflowReinject (.triple 0 0 0) = some e ∧ Ready s3 (.triple 0 0 0) e.needs :=
  ⟨_, rfl, rfl, by (try dsimp only); repeat' (first | exact True.intro | rfl | decide | apply And.intro | apply Exists.intro)⟩

/-- A packet of a circuit from hall 0 to hall 1, whose way leads by the east port. -/
def mesh : State := { withHall (fun h => { h with table := [(1, .east)] }) s1 with chans := [(8, { ch (.port 0 1 0) [] [tk, tk] with hall := 1 })] }

theorem meets_meshPacketArrival : ∃ e, cellEffect .meshPacketArrival (.index 8) = some e ∧ Ready mesh (.index 8) e.needs :=
  ⟨_, rfl, rfl, _, _, .east, 1, rfl, rfl, rfl, rfl, rfl, rfl, rfl, by decide⟩

theorem meets_meshPacketArrival_later : ∃ e, cellEffect .meshPacketArrival (.pair 8 1) = some e ∧
    Ready { mesh with chans := [(8, { ch (.port 0 1 0) [] [] with hall := 1, flight := [{ hall := 1, circuit := 0, token := tk }, { hall := 0, circuit := 0, token := tk }] })] } (.pair 8 1) e.needs :=
  ⟨_, rfl, rfl, _, _, .east, 1, rfl, rfl, rfl, rfl, rfl, rfl, rfl, by decide⟩

theorem meets_handoverAck : ∃ e, cellEffect .handoverAck (.index 8) = some e ∧ Ready { s1 with chans := [(8, ch (.port 0 1 0) [] [tk])] } (.index 8) e.needs :=
  ⟨_, rfl, rfl, by (try dsimp only); repeat' (first | exact True.intro | rfl | decide | apply And.intro | apply Exists.intro)⟩

theorem meets_bufferPlaceFree : ∃ e, cellEffect .bufferPlaceFree (.index 8) = some e ∧ Ready { s1 with chans := [(8, { ch (.port 0 1 0) [] [tk] with freed := 2 })] } (.index 8) e.needs :=
  ⟨_, rfl, rfl, by (try dsimp only); repeat' (first | exact True.intro | rfl | decide | apply And.intro | apply Exists.intro)⟩

theorem meets_counterStep : ∃ e, cellEffect .counterStep (.index 0) = some e ∧ Ready (site [(0, { rr with ready := [], run := { left := 2, next := 0, counting := true } })]) (.index 0) e.needs :=
  ⟨_, rfl, rfl, by (try dsimp only); repeat' (first | exact True.intro | rfl | decide | apply And.intro | apply Exists.intro)⟩

theorem meets_threadAdmit : ∃ e, cellEffect .threadAdmit (.index 0) = some e ∧ Ready (site [(0, { rr with header := hdr true, threads := [(0, [0, 0])], ready := [], run := { left := 2, next := 3 } })]) (.index 0) e.needs :=
  ⟨_, rfl, rfl, by (try dsimp only); repeat' (first | exact True.intro | rfl | decide | apply And.intro | apply Exists.intro)⟩

def sec : List Byte := oneCommandAct (List.replicate 12 0)

def ld : Region := { rr with state := .loading, loading := some 0, program := { acts := [sec, sec] }, active := {}, ready := [] }

theorem meets_configLoadEnd : ∃ e, runEffect .configLoadEnd (.index 0) = some e ∧ Ready (site [(0, ld)]) (.index 0) e.needs :=
  ⟨_, rfl, rfl, by (try dsimp only); repeat' (first | exact True.intro | rfl | decide | apply And.intro | apply Exists.intro)⟩

def wInv (d : Option Nat) (s : State) := withHall (fun h => { h with invs := [(1, { rid := 0, serial := 1, first := 0, live := 0, retired := [], discarded := d, poisoned := 0 })], hold := [{ inv := 1, addr := scratchAddr 0 0, data := [1,2], vf := 0, va := 0}, { inv := 2, addr := 100, data := [1,2], vf := 0, va := 0}] }) s

theorem meets_invocationCommit : ∃ e, runEffect .invocationCommit (.pair 0 1) = some e ∧ Ready (wInv none s1) (.pair 0 1) e.needs :=
  ⟨_, rfl, rfl, by (try dsimp only); repeat' (first | exact True.intro | rfl | decide | apply And.intro | apply Exists.intro)⟩

def quiet : Region := { rr with ready := [], detector := { zeros := 2 }, run := { started := [0], drawn := [5] }, active := { rr.active with binds := [(5, 0)], free := [(0,[6])] } }

theorem meets_quiescenceScan : ∃ e, runEffect .quiescenceScan (.index 0) = some e ∧ Ready (site [(0, quiet)]) (.index 0) e.needs :=
  ⟨_, rfl, rfl, by (try dsimp only); repeat' (first | exact True.intro | rfl | decide | apply And.intro | apply Exists.intro)⟩

theorem meets_runComplete : ∃ e, runEffect .runComplete (.index 0) = some e ∧ Ready (site [(0, quiet)]) (.index 0) e.needs :=
  ⟨_, rfl, rfl, by (try dsimp only); repeat' (first | exact True.intro | exact reached (fun es => ⟨_, rfl, by intro s0 h; (try simp only [applyAll_cons, ← h]); try rfl⟩) | rfl | decide | apply And.intro | apply Exists.intro)⟩

theorem meets_blockSchedulerDecision : ∃ e, runEffect .blockSchedulerDecision (.index 0) = some e ∧ Ready (site [(0, { quiet with state := .idle, deciding := true })]) (.index 0) e.needs :=
  ⟨_, rfl, rfl, by (try dsimp only); repeat' (first | exact True.intro | (intro a h; cases h) | rfl | decide | apply And.intro | apply Exists.intro)⟩

theorem meets_silenceExpiry : ∃ e, runEffect .silenceExpiry (.index 0) = some e ∧ Ready (late s1) (.index 0) e.needs :=
  ⟨_, rfl, rfl, by (try dsimp only); repeat' (first | exact True.intro | rfl | decide | apply And.intro | apply Exists.intro)⟩

def lt : Region := { rr with sys := { rr.sys with trapEn := 0x03E80032#64 <<< 32 } }

def rq : Req := { rid := 0, cell := 0, node := 0, lane := { tag := 0, ops := [] }, wid := none, op := .load, ty := .i32, da := .discard, db := .discard, va := 0, loc := some 0x100000000000, len := 4, phase := .issued, number := 6 }

theorem meets_memoryWaitExpiry : ∃ e, runEffect .memoryWaitExpiry (.index 0) = some e ∧ Ready { late s1 with reqs := [rq] } (.index 0) e.needs :=
  ⟨_, rfl, rfl, by (try dsimp only); repeat' (first | exact True.intro | rfl | decide | apply And.intro | apply Exists.intro)⟩

theorem meets_sequencerWaitExpiry : ∃ e, runEffect .sequencerWaitExpiry (.index 0) = some e ∧ Ready (late (site [(0, { rr with program := { acts := [oneCommandAct (recBytes (enc (.wait { cmd with s := 1 })))] }, seq := { rr.seq with waiting := true } })])) (.index 0) e.needs :=
  ⟨_, rfl, rfl, by (try dsimp only); repeat' (first | exact True.intro | rfl | decide | apply And.intro | apply Exists.intro)⟩

theorem meets_sliceEnd : ∃ e, runEffect .sliceEnd (.index 0) = some e ∧ Ready (withHall (fun h => { h with cycles := 1000000000000 }) (late s1)) (.index 0) e.needs :=
  ⟨_, rfl, rfl, by (try dsimp only); repeat' (first | exact True.intro | rfl | decide | apply And.intro | apply Exists.intro)⟩

def two : State := { late (site [(0, rr), (16, { rr with vf := 1, ctx := 1 })]) with wings := [(0, { wing with inService := some 0 })], vfs := [(0, { wing := some 0, fres := 1 }), (1, { wing := some 0, fres := 1 })] }

theorem meets_sliceWallCap : ∃ e, runEffect .sliceWallCap (.index 0) = some e ∧ Ready { two with timeNs := 2^40 } (.index 0) e.needs :=
  ⟨_, rfl, rfl, ⟨_, rfl, by decide⟩⟩

def snap : Region := { rr with state := .snapshotting, snapshot := some { slot := some 3, pending := [0], start := 0 } }

theorem meets_markerArrival : ∃ e, runEffect .markerArrival (.pair 0 0) = some e ∧ Ready (site [(0, snap)]) (.pair 0 0) e.needs :=
  ⟨_, rfl, rfl, by (try dsimp only); repeat' (first | exact True.intro | rfl | decide | apply And.intro | apply Exists.intro)⟩

theorem meets_snapshotTimeout : ∃ e, runEffect .snapshotTimeout (.index 0) = some e ∧ Ready (late (site [(0, snap)])) (.index 0) e.needs :=
  ⟨_, rfl, rfl, by (try dsimp only); repeat' (first | exact True.intro | rfl | decide | apply And.intro | apply Exists.intro)⟩

theorem meets_swapWaitExpiry : ∃ e, runEffect .swapWaitExpiry (.index 0) = some e ∧ Ready (late (site [(0, { rr with snapshot := some { slot := none, pending := [0], start := 0 } })])) (.index 0) e.needs :=
  ⟨_, rfl, rfl, _, _, rfl, rfl, by decide, Or.inl rfl⟩

end Cells

/-! ### States that meet the premises of the entries of a table: Memory -/

namespace Memory

def rr : Region := { running with active := bank [(0, enc (.add { node with da := .node 1 0 })), (1, enc (.add { node with ls := .port1, lit := 5 }))] [] }

def rq (op : MemOp) (loc : Nat) : Req := { rid := 0, cell := 0, node := 0, lane := { tag := 0, ops := [], }, wid := none, op := op, ty := .i32, da := .node 1 0, db := .discard, va := 0, loc := some loc, len := 4, phase := .issued, number := 6 }

def s1 (op : MemOp) (loc : Nat) : State := { site [(0, rr)] with reqs := [rq op loc] }

theorem meets_memoryAccessComplete : ∃ e, memoryEvent .memoryAccessComplete (.reply 6 .data) = some e ∧ Ready (s1 .load 64) (.reply 6 .data) e.needs :=
  ⟨_, rfl, rfl, by (try dsimp only); repeat' (first | exact True.intro | rfl | decide | apply And.intro | apply Exists.intro)⟩

theorem meets_memoryAccessComplete_structure : ∀ k ∈ ([2, 18] : List Nat), ∃ e, memoryEvent .memoryAccessComplete (.quad k 0 1 5) = some e ∧ Ready (s1 .load 64) (.quad k 0 1 5) e.needs :=
  fun k h => by
    rcases List.mem_cons.mp h with rfl | h
    · exact ⟨_, rfl, rfl, by decide⟩
    · cases List.mem_singleton.mp h; exact ⟨_, rfl, rfl, by decide⟩

def stt (c u h i w r a : Nat) : SelfTest := { cls := c, unit := u, hall := h, index := i, way := w, row := r, addr := a, vf := none }

def t1 (c u : Nat) := withPkg (fun p => { p with tests := [stt c u 0 1 2 3 64], errCounts := [] }) (s1 .load 0)

theorem meets_selfTestEnd : ∃ e, memoryEvent .selfTestEnd (.flagged 0 false) = some e ∧ Ready (t1 2 3) (.flagged 0 false) e.needs :=
  ⟨_, rfl, rfl, by (try dsimp only); repeat' (first | exact True.intro | rfl | decide | apply And.intro | apply Exists.intro)⟩

def wk (s : State) : State := { s with walks := [{ vf := 0, page := 0, hall := 0, joined := [0], number := 3 }, { vf := 0, page := 5, hall := 0, joined := [0], number := 4, started := false }], reqs := s.reqs.map (fun q => { q with phase := .walking, walk := 3, loc := none, va := 16 }) }

theorem meets_translationWalkComplete : ∃ e, memoryEvent .translationWalkComplete (.index 3) = some e ∧ Ready (wk (s1 .load 64)) (.index 3) e.needs :=
  ⟨_, rfl, rfl, by (try dsimp only); repeat' (first | exact True.intro | rfl | decide | apply And.intro | apply Exists.intro)⟩

def wv := withHall (fun h => { h with walking := [{ tile := 1, way := 2, use := 1 }], cache := [(scratchAddr 0 0 / 64, { mesi := .exclusive, way := 0 }), (3, { mesi := .modified, way := 0 })] }) (site [])

theorem meets_wayChangeWalkEnd : ∃ e, memoryEvent .wayChangeWalkEnd (.triple 0 1 2) = some e ∧ Ready wv (.triple 0 1 2) e.needs :=
  ⟨_, rfl, rfl, by (try dsimp only); repeat' (first | exact True.intro | rfl | decide | apply And.intro | apply Exists.intro)⟩

/-- Which annex ranges other hosts may share is fixed by the part (DESIGN CHOICE, log 15). -/
theorem meets_bisnpinv (hs : sharedAnnex 0x100000000000 = true) : ∃ e, memoryEvent .bisnpinv (.index 0x100000000000) = some e ∧ Ready wv (.index 0x100000000000) e.needs :=
  ⟨_, rfl, rfl, by (try dsimp only); repeat' (first | exact True.intro | exact snoops rfl rfl hs rfl | rfl | decide | apply And.intro | apply Exists.intro)⟩

def cx := withHall (fun h => { h with cache := [(0x100000000000 / 64, { mesi := .modified, way := 0 }), (3, { mesi := .modified, way := 0 })] }) { site [] with mem := [(0x100000000000, 5)] }

theorem meets_bisnpdata (hs : sharedAnnex 0x100000000000 = true) : ∃ e, memoryEvent .bisnpdata (.index 0x100000000000) = some e ∧ Ready cx (.index 0x100000000000) e.needs :=
  ⟨_, rfl, rfl, by (try dsimp only); repeat' (first | exact True.intro | exact snoops rfl rfl hs rfl | rfl | decide | apply And.intro | apply Exists.intro)⟩

theorem meets_bisnpcur (hs : sharedAnnex 0x100000000000 = true) : ∃ e, memoryEvent .bisnpcur (.index 0x100000000000) = some e ∧ Ready cx (.index 0x100000000000) e.needs :=
  ⟨_, rfl, rfl, by (try dsimp only); repeat' (first | exact True.intro | exact snoops rfl rfl hs rfl | rfl | decide | apply And.intro | apply Exists.intro)⟩

def sd (w : Bool) (f : Ty) : StreamDesc := { tile := 0, slot := 0, write := w, fmt := f, fe := 0, handle := 1, origin := 0, count := 1, dims := [(4, 4)] }

def str (w : Bool) (f : Ty) : Stream := { desc := sd w f, running := true, started := true, drained := false }

def hk (c k : Nat) : Nat := c * 65536 + k

def sS (w : Bool) (f : Ty) (l : KMap Chan) : State := { site [(0, { rr with streams := [(2, str w f)], active := bank [(0, enc (.add { node with ls := .port1, lit := 5 }))] [] })] with chans := l, vfs := [(0, { wing := some 0, handles := [(1, { visible := some buf })] })], mem := [(scratchAddr 0 0, 7)] }

theorem meets_streamAccess : ∃ e, memoryEvent .streamAccess (.triple 0 2 0) = some e ∧ Ready (sS false .i32 []) (.triple 0 2 0) e.needs :=
  ⟨_, rfl, rfl, by (try dsimp only); repeat' (first | exact True.intro | (intro h; cases h) | rfl | decide | apply And.intro | apply Exists.intro)⟩

/-- A write stream before and after it takes the token at its circuit's head. -/
theorem meets_streamAccess_write : ∀ held ∈ ([none, some tk] : List (Option Token)), ∃ e, memoryEvent .streamAccess (.triple 0 2 8) = some e ∧
    Ready { site [(0, { rr with streams := [(2, { str true .i32 with held := held })] })] with chans := [(8, ch (.stream 2) [tk] [])] } (.triple 0 2 8) e.needs := by
  intro held h
  rcases List.mem_cons.mp h with rfl | h
  · exact ⟨_, rfl, rfl, _, _, ⟨rfl, rfl, rfl, rfl, rfl, by decide, rfl⟩, fun _ _ => ⟨_, _, rfl, rfl, rfl, rfl⟩⟩
  · cases List.mem_singleton.mp h
    exact ⟨_, rfl, rfl, _, _, ⟨rfl, rfl, rfl, rfl, rfl, by decide, rfl⟩, fun _ h => (by cases h)⟩

def br : Stream := { str false .i32 with barred := true }

theorem meets_streamBarrierLift : ∃ e, memoryEvent .streamBarrierLift (.index 0) = some e ∧ Ready (site [(0, { rr with streams := [(2, br), (3, { br with barred := false, running := false })] })]) (.index 0) e.needs :=
  ⟨_, rfl, rfl, by (try dsimp only); repeat' (first | exact True.intro | rfl | decide | apply And.intro | apply Exists.intro)⟩

theorem meets_streamDrained : ∃ e, memoryEvent .streamDrained (.pair 0 2) = some e ∧ Ready (site [(0, { rr with streams := [(2, { str false .i32 with next := 4 })] })]) (.pair 0 2) e.needs :=
  ⟨_, rfl, rfl, by (try dsimp only); repeat' (first | exact True.intro | rfl | decide | apply And.intro | apply Exists.intro)⟩

theorem meets_slotZeroingEnd : ∃ e, memoryEvent .slotZeroingEnd (.triple 0 1 4) = some e ∧ Ready (withHall (fun h => { h with plinths := [{}, { zeroing := [4, 5] }, {}] }) (site [])) (.triple 0 1 4) e.needs :=
  ⟨_, rfl, rfl, by (try dsimp only); repeat' (first | exact True.intro | rfl | decide | apply And.intro | apply Exists.intro)⟩

end Memory

/-! ### States that meet the premises of the entries of a table: Engines -/

namespace Engines

def rr : Region := { running with active := bank [(0, enc (.add { node with da := .node 1 0 })), (1, enc (.add { node with ls := .port1, lit := 5 }))] [] }

def st (g : Option Nat) : Stream := { desc := { tile := 0, slot := 0, write := true, fmt := .i32, fe := 0, handle := 1, origin := 0, count := 1, dims := [(4, 4)] }, running := true, started := true, drained := false, gallery := g }

def seg : Segment := { state := .live, wmark := 2, start := 0, len := 64, rot := 0, skip := 0, handle := 1, doc := 1, ver := 1, lstride := 4096, reg := 1, id := 1 }

def gal : Gallery := { layers := 2, heads := 1, dim := 16, fmt := .f16, base := 0, owner := 0, rq := 2, ks := 3, vs := 4, vf := 0, ctx := 0, links := [{ hall := 0, tile := 0, limit := 64, segs := [seg] }, { hall := 0, tile := 1, limit := 64 }] }

def gw (g : Gallery) (s : State) : State := { s with wings := [(0, { wing with galleries := [(5, g)] })] }

def base : State := { site [(0, { rr with streams := [(2, st (some 5)), (3, st none), (4, st none)] })] with vfs := [(0, { wing := some 0, handles := [(1, { visible := some buf })] })], mem := [(scratchAddr 0 0, 7)] }

theorem meets_galleryBlockRead : ∃ e, engineEvent .galleryBlockRead (.index 9) = some e ∧ Ready (gw gal { base with chans := [(9, ch (.stream 2) [tk] [])] }) (.index 9) e.needs :=
  ⟨_, rfl, rfl, by (try dsimp only); repeat' (first | exact True.intro | rfl | decide | apply And.intro | apply Exists.intro)⟩

def rd (l : Nat) : BlockRead := { number := 1, rid := 0, tag := 2, rowtag := 0, layer := 0, head := 0, pos := 0, rows := List.range 64, gen := 0, link := l }

theorem meets_galleryReadAtLink : ∃ e, engineEvent .galleryReadAtLink (.triple 0 5 1) = some e ∧ Ready (gw { gal with reads := [rd 0] } base) (.triple 0 5 1) e.needs :=
  ⟨_, rfl, rfl, by (try dsimp only); repeat' (first | exact True.intro | rfl | decide | apply And.intro | apply Exists.intro)⟩

def wv (n : Nat) (c : Bool) : Gallery := { gal with gen := 1, wave := some { wave := { gen := 1, cut := c, pos := 10, len := 4 }, next := n, holder := 0, entry := some { seg with id := 2 }, waiter := some 0 } }

theorem meets_limitShiftWave : ∃ e, engineEvent .limitShiftWave (.pair 0 5) = some e ∧ Ready (gw (wv 0 false) base) (.pair 0 5) e.needs :=
  ⟨_, rfl, rfl, by (try dsimp only); repeat' (first | exact True.intro | rfl | decide | apply And.intro | apply Exists.intro)⟩

def rep : Repair := { number := 7, vf := 0, ctx := 0, wing := 0, gallery := 5, seg := 1, probe := 1, entry := 0, region := 0, staging := 1, thresh := 0 }

def cons (x : Repair) (s : State) : State := { s with conservators := s.conservators.set 0 { repairs := [x] } }

def gs (st : SegState) := { gal with links := [{ hall := 0, tile := 0, limit := 64, segs := [{ seg with state := st, wmark := 0 }] }] }

theorem meets_repairLayerDone : ∃ e, engineEvent .repairLayerDone (.index 7) = some e ∧ Ready (cons rep (gw (gs .spliced) base)) (.index 7) e.needs :=
  ⟨_, rfl, rfl, by (try dsimp only); repeat' (first | exact True.intro | rfl | decide | apply And.intro | apply Exists.intro)⟩

theorem meets_repairCopyDone : ∃ e, engineEvent .repairCopyDone (.index 7) = some e ∧ Ready (cons { rep with running := true, copying := true } (gw (gs .repairing) base)) (.index 7) e.needs :=
  ⟨_, rfl, rfl, by (try dsimp only); repeat' (first | exact True.intro | rfl | decide | apply And.intro | apply Exists.intro)⟩

theorem meets_repairCancel : ∃ e, engineEvent .repairCancel (.index 7) = some e ∧ Ready (cons { rep with running := true, region := 3 } (gw (gs .repairing) base)) (.index 7) e.needs :=
  ⟨_, rfl, rfl, by (try dsimp only); repeat' (first | exact True.intro | rfl | decide | apply And.intro | apply Exists.intro)⟩

def dcast (r : Option CastRun) (q : List CastRun) : Cast := { hall := 0, vf := 0, ctx := 0, input := 1, weights := 1, output := 1, m := 1, k := 16, n := 16, xfmt := .bf16, period := 4, bound := 0, pstride := 64, scratch := 2048, state := .cold, runner := r, queue := q }

def cw (c : Cast) (s : State) : State := { s with wings := [(0, { wing with casts := [(3, c)] })] }

theorem meets_deltaRunEnd : ∃ e, engineEvent .deltaRunEnd (.pair 0 3) = some e ∧ Ready (cw (dcast none [{ rid := 0, d := 4, plinth := 0 }]) base) (.pair 0 3) e.needs :=
  ⟨_, rfl, rfl, by (try dsimp only); repeat' (first | exact True.intro | (intro q h; cases h) | rfl | decide | apply And.intro | apply Exists.intro)⟩

theorem meets_deltaRunEnd_run : ∃ e, engineEvent .deltaRunEnd (.pair 0 3) = some e ∧ Ready (cw (dcast (some { rid := 0, d := 4, plinth := 0 }) []) base) (.pair 0 3) e.needs ∧
    calm { cw (dcast (some { rid := 0, d := 4, plinth := 0 }) []) base with input := .pair 0 3 } :=
  ⟨_, rfl, ⟨rfl, _, rfl, fun q h => by cases h; exact ⟨rfl, rfl⟩⟩, by decide +kernel, rfl⟩

def ec (op : EngineOp) : EngineCmd := { number := 4, rid := some 0, hall := 0, vf := 0, ctx := 0, cell := 0, ticket := 1, op := op, src := some buf, soff := 0, dst := some { buf with base := 64 }, doff := 0, len := 16 }

def eng (e : EngineCmd) (s : State) : State := withPkg (fun p => { p with engines := [e] }) s

def ring : Ring := { members := [0, 1], handle := 1, ctx := 0, slotSize := 16, slot0 := 0, opened := [0,1], opener := none }

def rs (f : Ring → Ring) : State := { base with vfs := [(0, { wing := some 0, handles := [(1, { visible := some buf })], rings := [(6, f ring)] })] }

/-- A copy of a handle that maps nothing, and a send on a ring that has broken. -/
theorem meets_engineCommandFault : ∀ x ∈ ([(ec .copy, false), (ec (.ringPut 6), true), (ec (.coll 6 0 0 .i32 8 1), true)] : List (EngineCmd × Bool)),
    ∃ e, engineEvent .engineCommandFault (.index 4) = some e ∧ Ready (eng { x.1 with src := none } (rs (fun r => { r with broken := x.2 }))) (.index 4) e.needs := by
  intro x h
  rcases List.mem_cons.mp h with rfl | h
  · exact ⟨_, rfl, rfl, _, rfl, Or.inr rfl, rfl, rfl, rfl, by decide⟩
  rcases List.mem_cons.mp h with rfl | h
  · exact ⟨_, rfl, rfl, _, rfl, Or.inr rfl, _, rfl, rfl⟩
  · cases List.mem_singleton.mp h
    exact ⟨_, rfl, rfl, _, rfl, Or.inr rfl, _, rfl, rfl⟩

/-- Commands that have done all but end: a copy, a multicast, a send and a broadcast from another member. -/
theorem meets_engineCommandComplete : ∀ x ∈ ([{ ec .copy with data := List.replicate 16 1, moved := 16 }, { ec (.mcast 2 5) with data := List.replicate 16 1, moved := 16, sent := 4 },
      { ec (.ringPut 6) with data := List.replicate 16 1 }, { ec (.coll 6 5 0 .i32 1 1) with sent := 1, chunks := [(0, [1, 2, 3, 4])], moved := 4 }] : List EngineCmd),
    ∃ e, engineEvent .engineCommandComplete (.index 4) = some e ∧ Ready (eng x (rs id)) (.index 4) e.needs := by
  intro x h
  rcases List.mem_cons.mp h with rfl | h
  · exact ⟨_, rfl, rfl, _, rfl, Or.inr rfl, by decide, by decide⟩
  rcases List.mem_cons.mp h with rfl | h
  · exact ⟨_, rfl, rfl, _, rfl, Or.inr rfl, by decide, Or.inr ⟨by decide, by decide⟩⟩
  rcases List.mem_cons.mp h with rfl | h
  · exact ⟨_, rfl, rfl, _, rfl, Or.inr rfl, _, rfl, rfl, by decide, Or.inl (by decide)⟩
  · cases List.mem_singleton.mp h
    exact ⟨_, rfl, rfl, _, rfl, Or.inr rfl, _, rfl, rfl, by decide, by decide, by decide, by decide⟩

theorem meets_ringSlotFilled : ∃ e, engineEvent .ringSlotFilled (.ring 0 6 [1]) = some e ∧ Ready (rs id) (.ring 0 6 [1]) e.needs :=
  ⟨_, rfl, rfl, _, rfl, rfl⟩

/-- A message whose piece can be written, and one whose piece has been. -/
theorem meets_ringSlotFilled_piece : ∀ got ∈ ([[], [[]]] : List (List (List Byte))), ∃ e, engineEvent .ringSlotFilled (.pair 0 6) = some e ∧
    Ready (rs (fun r => { r with arriving := [[1, 2]], pieces := { got := got } })) (.pair 0 6) e.needs := by
  intro got h
  rcases List.mem_cons.mp h with rfl | h
  · exact ⟨_, rfl, rfl, _, _, _, ⟨rfl, rfl, rfl, by decide, rfl, rfl⟩, Or.inr ⟨(0, 2), scratchAddr 0 0, rfl, rfl, rfl, by decide +kernel, by decide +kernel⟩⟩
  · cases List.mem_singleton.mp h
    exact ⟨_, rfl, rfl, _, _, _, ⟨rfl, rfl, rfl, by decide, rfl, rfl⟩, Or.inl (by unfold slotWritten; decide +kernel)⟩

theorem meets_ringCreditReturn : ∃ e, engineEvent .ringCreditReturn (.pair 0 6) = some e ∧ Ready (rs id) (.pair 0 6) e.needs :=
  ⟨_, rfl, rfl, by (try dsimp only); repeat' (first | exact True.intro | rfl | decide | apply And.intro | apply Exists.intro)⟩

theorem meets_ringBreak : ∃ e, engineEvent .ringBreak (.pair 0 6) = some e ∧ Ready (rs id) (.pair 0 6) e.needs :=
  ⟨_, rfl, rfl, by (try dsimp only); repeat' (first | exact True.intro | rfl | decide | apply And.intro | apply Exists.intro)⟩

theorem meets_xipexFlitReceive : ∃ e, engineEvent .xipexFlitReceive (.flit 2 { dest := 0, body := .ringCredit 0 6 }) = some e ∧ Ready (rs id) (.flit 2 { dest := 0, body := .ringCredit 0 6 }) e.needs :=
  ⟨_, rfl, rfl, by (try dsimp only); repeat' (first | exact True.intro | rfl | decide | apply And.intro | apply Exists.intro)⟩

theorem meets_xipexCrcError : ∃ e, engineEvent .xipexCrcError (.index 2) = some e ∧ Ready (rs id) (.index 2) e.needs :=
  ⟨_, rfl, rfl, by (try dsimp only); repeat' (first | exact True.intro | rfl | decide | apply And.intro | apply Exists.intro)⟩

def lk (x : XLink) := withPkg (fun p => { p with xlinks := p.xlinks.set 2 x, routes := [(1, 2)] }) (rs id)

theorem meets_xipexLinkDown : ∃ e, engineEvent .xipexLinkDown (.index 2) = some e ∧ Ready (lk { training := true, fails := 3, up := false }) (.index 2) e.needs :=
  ⟨_, rfl, rfl, by (try dsimp only); repeat' (first | exact True.intro | rfl | decide | apply And.intro | apply Exists.intro)⟩

theorem meets_xipexRetrainEnd : ∃ e, engineEvent .xipexRetrainEnd (.train 2 .up) = some e ∧ Ready (lk { training := true, fails := 2, up := false }) (.train 2 .up) e.needs :=
  ⟨_, rfl, rfl, by (try dsimp only); repeat' (first | exact True.intro | rfl | decide | apply And.intro | apply Exists.intro)⟩

end Engines

/-! ### States that meet the premises of the entries of a table: Control -/

namespace Control

def rr : Region := { running with program := { acts := [act0, act0, act0] }, state := .idle, seq := regs [(1, 5), (2, 7), (3, 0xFFFFFFFFFFFFFFFE)] Sequencer.zero, active := bank [(0, enc (.add { node with da := .node 1 0 }))] [] }

def s1 := site [(0, rr)]

def c0 := cmd

def hr : Region := { rr with sys := { rr.sys with trapVec := 0x101 } }

theorem meets_call : ∃ e, controlEffect (.call { c0 with imm := 7 }) = some e ∧ RegionIssues s1 rr e.inHandler ∧ e.needs s1 rr :=
  ⟨_, rfl, ⟨by decide, rfl, rfl, by decide⟩, by (try dsimp only); repeat' (first | exact True.intro | rfl | decide | apply And.intro | apply Exists.intro)⟩

def rs : Region := { rr with seq := { rr.seq with stack := [3, 4] } }

theorem meets_ret : ∃ e, controlEffect (.ret { c0 with d := 4 }) = some e ∧ RegionIssues (site [(0, rs)]) rs e.inHandler ∧ e.needs (site [(0, rs)]) rs :=
  ⟨_, rfl, ⟨by decide, rfl, rfl, by decide⟩, by (try dsimp only); repeat' (first | exact True.intro | rfl | decide | apply And.intro | apply Exists.intro)⟩

theorem meets_jmp : ∃ e, controlEffect (.jmp { c0 with imm := 2 }) = some e ∧ RegionIssues s1 rr e.inHandler ∧ e.needs s1 rr :=
  ⟨_, rfl, ⟨by decide, rfl, rfl, by decide⟩, rfl, Or.inr ⟨⟨act0, act0Secs, rfl, by decide +kernel, by decide +kernel, rfl, rfl⟩, Or.inl rfl⟩⟩

def r2 : Region := { rr with idle := { act := some 2 } }

def r3 : Region := { rr with loading := some 2, state := .loading }

theorem meets_br : ∃ e, controlEffect (.br { c0 with s := 1, t := 2, imm := 2, ty := .i32, md := 2 }) = some e ∧ RegionIssues s1 rr e.inHandler ∧ e.needs s1 rr :=
  ⟨_, rfl, ⟨by decide, rfl, rfl, by decide⟩, rfl, Or.inr ⟨⟨act0, act0Secs, rfl, by decide +kernel, by decide +kernel, rfl, rfl⟩, Or.inl rfl⟩⟩

theorem meets_next : ∃ e, controlEffect .next = some e ∧ RegionIssues s1 rr e.inHandler ∧ e.needs s1 rr :=
  ⟨_, rfl, ⟨by decide, rfl, rfl, by decide⟩, _, rfl, rfl, Or.inr ⟨⟨act0, act0Secs, rfl, by decide +kernel, by decide +kernel, rfl, rfl⟩, Or.inl rfl⟩⟩

def hdr (thread : Bool) : BitVec 128 := BitVec.ofNat 128 (2^64 + 2^67 + (if thread then 2^70 else 0) + 0)

def rt : Region := { rr with header := hdr true, threads := [(2, [0])] }

theorem meets_halt : ∃ e, controlEffect .halt = some e ∧ RegionIssues s1 rr e.inHandler ∧ e.needs s1 rr :=
  ⟨_, rfl, ⟨by decide, rfl, rfl, by decide⟩, by (try dsimp only); repeat' (first | exact True.intro | unfold closed | rfl | decide | apply And.intro | apply Exists.intro)⟩

def kid : Region := { rr with root := false, parent := some 0, ctx := 1 }

theorem meets_fuse : ∃ e, controlEffect (.fuse { c0 with d := 5, s := 1, imm := 0x28000 }) = some e ∧ RegionIssues s1 rr e.inHandler ∧ e.needs s1 rr :=
  ⟨_, rfl, ⟨by decide, rfl, rfl, by decide⟩, rfl, ⟨_, rfl, by decide⟩, rfl, by decide, by decide⟩

def rp : Region := { rr with children := [64], results := [(identOf kid, [9])], seq := rr.seq.put 6 (BitVec.ofNat 64 (identOf kid)) }

theorem meets_split : ∃ e, controlEffect (.split { c0 with d := 5, s := 6 }) = some e ∧ RegionIssues (site [(0, rp)]) rp e.inHandler ∧ e.needs (site [(0, rp)]) rp :=
  ⟨_, rfl, ⟨by decide, rfl, rfl, by decide⟩, 64, 9, [], by decide +kernel, by decide, by unfold earliest; decide +kernel⟩

theorem meets_cfgLoad : ∃ e, controlEffect (.cfgLoad { c0 with imm := 1 }) = some e ∧ RegionIssues s1 rr e.inHandler ∧ e.needs s1 rr :=
  ⟨_, rfl, ⟨by decide, rfl, rfl, by decide⟩, rfl, Or.inr (Or.inr ⟨⟨act0, act0Secs, rfl, by decide +kernel, by decide +kernel, rfl, rfl⟩, Or.inl rfl⟩)⟩

theorem meets_cfgSeal : ∃ e, controlEffect .cfgSeal = some e ∧ RegionIssues s1 rr e.inHandler ∧ e.needs s1 rr :=
  ⟨_, rfl, ⟨by decide, rfl, rfl, by decide⟩, by (try dsimp only); repeat' (first | exact True.intro | rfl | decide | apply And.intro | apply Exists.intro)⟩

def rz : Region := { rr with detector := { zeros := 2 } }

theorem meets_quiesce : ∃ e, controlEffect (.quiesce { c0 with d := 3 }) = some e ∧ RegionIssues (site [(0, rz)]) rz e.inHandler ∧ e.needs (site [(0, rz)]) rz :=
  ⟨_, rfl, ⟨by decide, rfl, rfl, by decide⟩, by (try dsimp only); repeat' (first | exact True.intro | rfl | decide | apply And.intro | apply Exists.intro)⟩

theorem meets_quiesceProbe : ∃ e, controlEffect (.quiesceProbe { c0 with d := 3 }) = some e ∧ RegionIssues s1 rr e.inHandler ∧ e.needs s1 rr :=
  ⟨_, rfl, ⟨by decide, rfl, rfl, by decide⟩, by (try dsimp only); repeat' (first | exact True.intro | rfl | decide | apply And.intro | apply Exists.intro)⟩

def rl : Region := { rr with active := { rr.active with loops := [(0, (0,0))] } }

theorem meets_cfgRun : ∃ e, controlEffect (.cfgRun { c0 with imm := 1 }) = some e ∧ RegionIssues (site [(0, rl)]) rl e.inHandler ∧ e.needs (site [(0, rl)]) rl :=
  ⟨_, rfl, ⟨by decide, rfl, rfl, by decide⟩, by (try dsimp only); repeat' (first | exact True.intro | exact reached (fun es => ⟨_, rfl, by intro s0 h; (try simp only [applyAll_cons, ← h]); try rfl⟩) | rfl | decide | apply And.intro | apply Exists.intro)⟩

def rlt : Region := { rt with active := { rr.active with loops := [(0, (0,0))] } }

theorem meets_cfgNext : ∃ e, controlEffect (.cfgNext { c0 with d := 3 }) = some e ∧ RegionIssues (site [(0, rt)]) rt e.inHandler ∧ e.needs (site [(0, rt)]) rt :=
  ⟨_, rfl, ⟨by decide, rfl, rfl, by decide⟩, by (try dsimp only); repeat' (first | exact True.intro | rfl | decide | apply And.intro | apply Exists.intro)⟩

def rla : Region := { rr with seq := (rr.seq.put 1 ((hdr true).setWidth 64)).put 2 (((hdr true) >>> 64).setWidth 64) }

theorem meets_launch : ∃ e, controlEffect (.launch { c0 with s := 1, t := 2 }) = some e ∧ RegionIssues (site [(0, rla)]) rla e.inHandler ∧ e.needs (site [(0, rla)]) rla :=
  ⟨_, rfl, ⟨by decide, rfl, rfl, by decide⟩, by (try dsimp only); repeat' (first | exact True.intro | unfold closed | rfl | decide | apply And.intro | apply Exists.intro)⟩

def s6 (s : State) : State := { s with vfs := [(0, { wing := some 0, handles := [(handleKey 0 1, { visible := some buf })] })], mem := [(scratchAddr 0 0, 7)] }

def rc : Region := { rr with seq := rr.seq.put 1 0x10000000000 }

def rcs : State := { s6 (site [(0, rc)]) with mem := [] }

theorem meets_circ : ∃ e, controlEffect (.circ { c0 with s := 1 }) = some e ∧ RegionIssues rcs rc e.inHandler ∧ e.needs rcs rc :=
  ⟨_, rfl, ⟨by decide, rfl, rfl, by decide⟩, _, _, rfl, readsRef_at (by decide +kernel), by decide +kernel⟩

end Control

/-! ### States that meet the premises of the entries of a table: Sequencer -/

namespace Sequencer

def rr : Region := { running with program := { acts := [act0, act0, act0] }, state := .idle, seq := regs [(1, 0), (2, 64), (3, 0xFFFFFFFFFFFFFFF7)] Sequencer.zero, active := bank [(0, enc (.add { node with da := .node 1 0 }))] [] }

def pbuf : Buffer := { scratch := none, base := 0, len := 4096, read := true, write := true, atomic := true }

def s6 (s : State) : State := { s with vfs := [(0, { wing := some 0, events := [(7, 5)], handles := [(handleKey 0 1, { visible := some buf }), (handleKey 0 2, { visible := some pbuf })] })], mem := [(3, 9), (scratchAddr 0 0, 0xF7)] }

def tl := withHall (fun h => { h with vtuse := h.vtuse.set 0 0x11, tlb := [(tlbKey 0 0 16, { base := 0, size := 16, write := true, atomic := true, filled := 0 })], cache := [(0, { mesi := .modified, way := 0 }), (0x100000000000 / 64, { mesi := .modified, way := 0 })] }) (s6 (site [(0, rr)]))

def c1 := { cmd with ext := 1 }

def c2 := { cmd with ext := 2 }

theorem meets_lds : ∃ e, memoryEffect (.lds { c1 with d := 5, s := 1, ty := .i8 }) = some e ∧ RegionIssues tl rr e.inHandler ∧ e.needs tl rr :=
  ⟨_, rfl, ⟨by decide, rfl, rfl, by decide⟩, by (try dsimp only); repeat' (first | exact True.intro | rfl | decide | apply And.intro | apply Exists.intro)⟩

theorem meets_sts : ∃ e, memoryEffect (.sts { c1 with s := 1, t := 3, ty := .i8, imm := 8 }) = some e ∧ RegionIssues tl rr e.inHandler ∧ e.needs tl rr :=
  ⟨_, rfl, ⟨by decide, rfl, rfl, by decide⟩, by (try dsimp only); repeat' (first | exact True.intro | rfl | decide | apply And.intro | apply Exists.intro)⟩

theorem meets_sig : ∃ e, memoryEffect (.sig { cmd with ext := 7, t := 3, imm := 2 }) = some e ∧ RegionIssues tl rr e.inHandler ∧ e.needs tl rr :=
  ⟨_, rfl, ⟨by decide, rfl, rfl, by decide⟩, by (try dsimp only); repeat' (first | exact True.intro | rfl | decide | apply And.intro | apply Exists.intro)⟩

theorem meets_wait : ∃ e, memoryEffect (.wait { cmd with ext := 7, d := 5, s := 3 }) = some e ∧ RegionIssues tl rr e.inHandler ∧ e.needs tl rr :=
  ⟨_, rfl, ⟨by decide, rfl, rfl, by decide⟩, by (try dsimp only); repeat' (first | exact True.intro | rfl | decide | apply And.intro | apply Exists.intro)⟩

theorem meets_fenceCmd : ∃ e, memoryEffect (.fenceCmd { cmd with ext := 0 }) = some e ∧ RegionIssues tl rr e.inHandler ∧ e.needs tl rr :=
  ⟨_, rfl, ⟨by decide, rfl, rfl, by decide⟩, by (try dsimp only); repeat' (first | exact True.intro | rfl | decide | apply And.intro | apply Exists.intro)⟩

def rq : Req := { rid := 0, cell := 0, node := 0, lane := { tag := 0, ops := [], }, wid := none, op := .posted [1] 3, ty := .i32, da := .discard, db := .discard, va := 0, loc := some 0, len := 4, phase := .issued, number := 6 }

theorem meets_flush : ∃ e, memoryEffect (.flush { c2 with s := 1, t := 2 }) = some e ∧ RegionIssues tl rr e.inHandler ∧ e.needs tl rr :=
  ⟨_, rfl, ⟨by decide, rfl, rfl, by decide⟩, by (try dsimp only); repeat' (first | exact True.intro | rfl | decide | apply And.intro | apply Exists.intro)⟩

theorem meets_inv : ∃ e, memoryEffect (.inv { c2 with s := 1, t := 2 }) = some e ∧ RegionIssues tl rr e.inHandler ∧ e.needs tl rr :=
  ⟨_, rfl, ⟨by decide, rfl, rfl, by decide⟩, by (try dsimp only); repeat' (first | exact True.intro | rfl | decide | apply And.intro | apply Exists.intro)⟩

theorem meets_pref : ∃ e, memoryEffect (.pref { c2 with s := 1, t := 2 }) = some e ∧ RegionIssues tl rr e.inHandler ∧ e.needs tl rr :=
  ⟨_, rfl, ⟨by decide, rfl, rfl, by decide⟩, by (try dsimp only); repeat' (first | exact True.intro | rfl | decide | apply And.intro | apply Exists.intro)⟩

theorem meets_feFill : ∃ e, memoryEffect (.feFill { c1 with s := 1, t := 2 }) = some e ∧ RegionIssues { tl with full := [] } rr e.inHandler ∧ e.needs { tl with full := [] } rr :=
  ⟨_, rfl, ⟨by decide, rfl, rfl, by decide⟩, by (try dsimp only); repeat' (first | exact True.intro | rfl | decide | apply And.intro | apply Exists.intro)⟩

theorem meets_feEmpty : ∃ e, memoryEffect (.feEmpty { c1 with s := 1, t := 2 }) = some e ∧ RegionIssues { tl with full := [scratchAddr 0 0 / 16, scratchAddr 0 0 / 16 + 9] } rr e.inHandler ∧ e.needs { tl with full := [scratchAddr 0 0 / 16, scratchAddr 0 0 / 16 + 9] } rr :=
  ⟨_, rfl, ⟨by decide, rfl, rfl, by decide⟩, by (try dsimp only); repeat' (first | exact True.intro | rfl | decide | apply And.intro | apply Exists.intro)⟩

theorem meets_rsv : ∃ e, memoryEffect (.rsv { cmd with s := 1, t := 1, imm := 2 }) = some e ∧ RegionIssues tl rr e.inHandler ∧ e.needs tl rr :=
  ⟨_, rfl, ⟨by decide, rfl, rfl, by decide⟩, by (try dsimp only); repeat' (first | exact True.intro | rfl | decide | apply And.intro | apply Exists.intro)⟩

def rv : Region := { rr with seq := regs [(4, 0x0), (5, 0x0)] rr.seq }

theorem meets_samp : ∃ e, memoryEffect (.samp { cmd with s := 3, imm := 2 }) = some e ∧ RegionIssues tl rr e.inHandler ∧ e.needs tl rr :=
  ⟨_, rfl, ⟨by decide, rfl, rfl, by decide⟩, by (try dsimp only); repeat' (first | exact True.intro | rfl | decide | apply And.intro | apply Exists.intro)⟩

def rb : Region := { rr with seq := regs [(4, 0x40), (5, 0x100)] rr.seq }

def tb : State := { tl with regions := [(0, rb)] }

theorem meets_bufMap : ∃ e, memoryEffect (.bufMap { cmd with s := 4, t := 5, imm := 0x0E03 }) = some e ∧ RegionIssues tb rb e.inHandler ∧ e.needs tb rb :=
  ⟨_, rfl, ⟨by decide, rfl, rfl, by decide⟩, by (try dsimp only); repeat' (first | exact True.intro | (change (_ : Nat) < 2 ^ 57; decide +kernel) | (intro h; exact absurd h (by decide)) | rfl | decide | apply And.intro | apply Exists.intro)⟩

def rb2 : Region := { rr with seq := regs [(4, 0x40), (5, 0x1000)] rr.seq }

theorem meets_bufUnmap : ∃ e, memoryEffect (.bufUnmap { cmd with imm := 1 }) = some e ∧ RegionIssues tl rr e.inHandler ∧ e.needs tl rr :=
  ⟨_, rfl, ⟨by decide, rfl, rfl, by decide⟩, by (try dsimp only); repeat' (first | exact True.intro | rfl | decide | apply And.intro | apply Exists.intro)⟩

theorem meets_cap : ∃ e, memoryEffect (.cap { cmd with d := 4, s := 1, imm := 0 }) = some e ∧ RegionIssues tl rr e.inHandler ∧ e.needs tl rr :=
  ⟨_, rfl, ⟨by decide, rfl, rfl, by decide⟩, ⟨1, _, by decide, rfl, rfl, by decide⟩⟩

theorem meets_strmDef : ∃ e, memoryEffect (.strmDef { c1 with s := 1, imm := 0x20003 }) = some e ∧ RegionIssues tl rr e.inHandler ∧ e.needs tl rr :=
  ⟨_, rfl, ⟨by decide, rfl, rfl, by decide⟩, by (try dsimp only); repeat' (first | exact True.intro | rfl | decide | apply And.intro | apply Exists.intro)⟩

def sd : StreamDesc := { tile := 0, slot := 0, write := false, fmt := .i32, fe := 0, handle := 1, origin := 0, count := 1, dims := [(4, 4)] }

def rS : Region := { rb with streams := [(3, { desc := sd }), (4, { desc := { sd with slot := 1}, running := true, drained := false })], seq := regs [(6, 1), (7, 0xFFFFFFFF)] rb.seq }

def tS : State := { tl with regions := [(0, rS)] }

theorem meets_strmDim : ∃ e, memoryEffect (.strmDim { cmd with s := 6, t := 7, imm := 3 }) = some e ∧ RegionIssues tS rS e.inHandler ∧ e.needs tS rS :=
  ⟨_, rfl, ⟨by decide, rfl, rfl, by decide⟩, by (try dsimp only); repeat' (first | exact True.intro | rfl | decide | apply And.intro | apply Exists.intro)⟩

theorem meets_strmGo : ∃ e, memoryEffect (.strmGo { cmd with imm := 0x18 }) = some e ∧ RegionIssues tS rS e.inHandler ∧ e.needs tS rS :=
  ⟨_, rfl, ⟨by decide, rfl, rfl, by decide⟩, fun k h => by
    have hk : k < 16 := of_decide_eq_true (Bool.and_eq_true_iff.mp h).1
    interval_cases k <;> first | exact absurd h (by decide) | exact ⟨_, rfl, Or.inl rfl⟩⟩

theorem meets_strmBar : ∃ e, memoryEffect (.strmBar { cmd with imm := 0x18 }) = some e ∧ RegionIssues tS rS e.inHandler ∧ e.needs tS rS :=
  ⟨_, rfl, ⟨by decide, rfl, rfl, by decide⟩, by (try dsimp only); repeat' (first | exact True.intro | rfl | decide | apply And.intro | apply Exists.intro)⟩

theorem meets_strmEnd : ∃ e, memoryEffect (.strmEnd { cmd with imm := 0x18 }) = some e ∧ RegionIssues tS rS e.inHandler ∧ e.needs tS rS :=
  ⟨_, rfl, ⟨by decide, rfl, rfl, by decide⟩, by (try dsimp only); repeat' (first | exact True.intro | rfl | decide | apply And.intro | apply Exists.intro)⟩

end Sequencer

/-! ### States that meet the premises of the entries of a table: Names -/

namespace Names

def rr : Region := { running with program := { acts := [act0, act0, act0] }, state := .idle, seq := regs [(1, 0x10000000000), (2, 64), (3, 5), (4, 0x20000000010), (6, 0)] Sequencer.zero, active := bank [(0, enc (.add { node with da := .node 1 0 }))] [] }

def s6 (s : State) : State := withHall (fun h => { h with vtuse := (h.vtuse.set 0 0x11).set 1 0x444444 }) { s with vfs := [(0, { wing := some 0, events := [(7, 5)], handles := [(handleKey 0 1, { visible := some buf }), (handleKey 0 2, { visible := some buf, shadow := some buf })] })], mem := mem [(0, 0x0050000100000010)] }

def s1 := s6 (site [(0, rr)])

theorem meets_fold : ∃ e, nameEffect (.fold { cmd with s := 1, imm := 5 }) = some e ∧ RegionIssues s1 rr e.inHandler ∧ e.needs s1 rr :=
  ⟨_, rfl, ⟨by decide, rfl, rfl, by decide⟩, by (try dsimp only); repeat' (first | exact True.intro | exact readsRef_at (by decide +kernel) | rfl | decide | apply And.intro | apply Exists.intro)⟩

def lat : Lattice := (latticeOf rr.header (foldSpace (hallAt s1 0) 0) (readBytes s1.mem (scratchAddr 0 0) 256)).getD { stmt := 0, size := 0, uses := 0, skewed := false, m := [], stride := [], coef := [], modulus := 0, base := 0, dists := [] }

def fo : Fold := { owner := 0, lattice := lat, check := .accepted, slots := [] }

def sf (fo : Fold) := withHall (fun h => { h with folds := [(foldKey 0 5, fo)] }) s1

theorem meets_foldchk : ∃ e, nameEffect (.foldchk { cmd with d := 7, imm := 5 }) = some e ∧ RegionIssues (sf fo) rr e.inHandler ∧ e.needs (sf fo) rr :=
  ⟨_, rfl, ⟨by decide, rfl, rfl, by decide⟩, by (try dsimp only); repeat' (first | exact True.intro | rfl | decide | apply And.intro | apply Exists.intro)⟩

theorem meets_refold : ∃ e, nameEffect (.refold { cmd with d := 7, s := 1, imm := 5 }) = some e ∧ RegionIssues (sf fo) rr e.inHandler ∧ e.needs (sf fo) rr :=
  ⟨_, rfl, ⟨by decide, rfl, rfl, by decide⟩, fo, rfl, rfl, Or.inr ⟨rfl, lat, _, readsRef_at (by decide +kernel), by decide +kernel⟩⟩

/-- The move that waits behind a closed gate ends. -/
def rmove : Region := { rr with seq := { rr.seq with progress := 1, waiting := true } }
theorem meets_refold_move : ∃ e, nameEffect (.refold { cmd with d := 7, s := 1, imm := 5 }) = some e ∧
    RegionIssues { sf { fo with gate := some lat } with regions := [(0, rmove)] } rmove e.inHandler ∧ e.needs { sf { fo with gate := some lat } with regions := [(0, rmove)] } rmove :=
  ⟨_, rfl, ⟨by decide, rfl, rfl, by decide⟩, { fo with gate := some lat }, rfl, rfl, Or.inl ⟨rfl, rfl⟩⟩

theorem meets_nstat : ∃ e, nameEffect (.nstat { cmd with d := 7, imm := 5 }) = some e ∧ RegionIssues (sf fo) rr e.inHandler ∧ e.needs (sf fo) rr :=
  ⟨_, rfl, ⟨by decide, rfl, rfl, by decide⟩, by (try dsimp only); repeat' (first | exact True.intro | rfl | decide | apply And.intro | apply Exists.intro)⟩

theorem meets_ndrop : ∃ e, nameEffect (.ndrop { cmd with imm := 5 }) = some e ∧ RegionIssues (sf fo) rr e.inHandler ∧ e.needs (sf fo) rr :=
  ⟨_, rfl, ⟨by decide, rfl, rfl, by decide⟩, by (try dsimp only); repeat' (first | exact True.intro | (intro q h; cases h) | rfl | decide | apply And.intro | apply Exists.intro)⟩

theorem meets_nseed : ∃ e, nameEffect (.nseed { cmd with s := 6, t := 3, imm := 5 }) = some e ∧ RegionIssues (sf fo) rr e.inHandler ∧ e.needs (sf fo) rr :=
  ⟨_, rfl, ⟨by decide, rfl, rfl, by decide⟩, by (try dsimp only); repeat' (first | exact True.intro | (intro q h; cases h) | rfl | decide | apply And.intro | apply Exists.intro)⟩

theorem meets_copy : ∃ e, engineEffect (.copy { cmd with d := 7, s := 1, t := 4, imm := 32 }) = some e ∧ RegionIssues s1 rr e.inHandler ∧ e.needs s1 rr :=
  ⟨_, rfl, ⟨by decide, rfl, rfl, by decide⟩, by (try dsimp only); repeat' (first | exact True.intro | rfl | decide | apply And.intro | apply Exists.intro)⟩

theorem meets_copySh : ∃ e, engineEffect (.copySh { cmd with d := 7, s := 1, t := 4, imm := 32 }) = some e ∧ RegionIssues s1 rr e.inHandler ∧ e.needs s1 rr :=
  ⟨_, rfl, ⟨by decide, rfl, rfl, by decide⟩, by (try dsimp only); repeat' (first | exact True.intro | rfl | decide | apply And.intro | apply Exists.intro)⟩

theorem meets_mcast : ∃ e, engineEffect (.mcast { cmd with d := 7, s := 1, t := 4, imm := 8, ext := 0x33 }) = some e ∧ RegionIssues s1 rr e.inHandler ∧ e.needs s1 rr :=
  ⟨_, rfl, ⟨by decide, rfl, rfl, by decide⟩, by (try dsimp only); repeat' (first | exact True.intro | rfl | decide | apply And.intro | apply Exists.intro)⟩

theorem meets_publ : ∃ e, engineEffect (.publ { cmd with imm := 2 }) = some e ∧ RegionIssues s1 rr e.inHandler ∧ e.needs s1 rr :=
  ⟨_, rfl, ⟨by decide, rfl, rfl, by decide⟩, by (try dsimp only); repeat' (first | exact True.intro | rfl | decide | apply And.intro | apply Exists.intro)⟩

def ec : EngineCmd := { number := 4, rid := some 0, hall := 0, vf := 0, ctx := 0, cell := 0, ticket := 1, op := .copy, src := some buf, soff := 0, dst := some buf, doff := 0, len := 16, shadow := some (handleKey 0 2) }

def we (l : List EngineCmd) := withPkg (fun p => { p with engines := l }) s1

def head0 : Nat := 16 + 2^40 * 1 + 2^48 * 2

def sr := { s1 with mem := mem [(0, head0), (8, 0), (16, 0x10000)] }

theorem meets_ringOpen : ∃ e, engineEffect (.ringOpen { cmd with d := 7, s := 1 }) = some e ∧ RegionIssues sr rr e.inHandler ∧ e.needs sr rr :=
  ⟨_, rfl, ⟨by decide, rfl, rfl, by decide⟩, Or.inr ⟨by decide, buf, bytesAt sr 0 0 buf 0 (wordsOf 16), bytesAt sr 0 0 buf 16 (wordsOf 4), _, 0, ⟨by decide, by decide, by decide⟩, rfl, readsWords_at (by decide +kernel),
    readsWords_at (by decide +kernel), rfl, rfl⟩⟩

/-- A ring that this package has opened, and one of its members. -/
def ring : Ring := { members := [0, 1], handle := 1, ctx := 0, slotSize := 16, slot0 := 0, opened := [0,1], opener := none }

def wr (x : Ring) : State := { s1 with vfs := s1.vfs.map (fun p => (p.1, { p.2 with rings := [(0, x)] })) }

theorem meets_ringPut : ∃ e, engineEffect (.ringPut { cmd with d := 7, s := 1, imm := 0 }) = some e ∧ RegionIssues (wr ring) rr e.inHandler ∧ e.needs (wr ring) rr :=
  ⟨_, rfl, ⟨by decide, rfl, rfl, by decide⟩, by (try dsimp only); repeat' (first | exact True.intro | rfl | decide | apply And.intro | apply Exists.intro)⟩

theorem meets_ringTake : ∃ e, engineEffect (.ringTake { cmd with d := 7, imm := 0 }) = some e ∧ RegionIssues (wr ring) rr e.inHandler ∧ e.needs (wr ring) rr :=
  ⟨_, rfl, ⟨by decide, rfl, rfl, by decide⟩, by (try dsimp only); repeat' (first | exact True.intro | rfl | decide | apply And.intro | apply Exists.intro)⟩

theorem meets_collSum : ∃ e, engineEffect (.collSum { cmd with d := 7, s := 1, t := 4, ext := 4, ty := .i32 }) = some e ∧ RegionIssues (wr ring) rr e.inHandler ∧ e.needs (wr ring) rr :=
  ⟨_, rfl, ⟨by decide, rfl, rfl, by decide⟩, by (try dsimp only); repeat' (first | exact True.intro | rfl | decide | apply And.intro | apply Exists.intro)⟩

theorem meets_collMax : ∃ e, engineEffect (.collMax { cmd with d := 7, s := 1, t := 4, ext := 4, ty := .f16 }) = some e ∧ RegionIssues (wr ring) rr e.inHandler ∧ e.needs (wr ring) rr :=
  ⟨_, rfl, ⟨by decide, rfl, rfl, by decide⟩, by (try dsimp only); repeat' (first | exact True.intro | rfl | decide | apply And.intro | apply Exists.intro)⟩

theorem meets_collMin : ∃ e, engineEffect (.collMin { cmd with d := 7, s := 1, t := 4, ext := 4, ty := .bf16 }) = some e ∧ RegionIssues (wr ring) rr e.inHandler ∧ e.needs (wr ring) rr :=
  ⟨_, rfl, ⟨by decide, rfl, rfl, by decide⟩, by (try dsimp only); repeat' (first | exact True.intro | rfl | decide | apply And.intro | apply Exists.intro)⟩

theorem meets_collRs : ∃ e, engineEffect (.collRs { cmd with d := 7, s := 1, t := 4, ext := 4, ty := .f32 }) = some e ∧ RegionIssues (wr ring) rr e.inHandler ∧ e.needs (wr ring) rr :=
  ⟨_, rfl, ⟨by decide, rfl, rfl, by decide⟩, by (try dsimp only); repeat' (first | exact True.intro | rfl | decide | apply And.intro | apply Exists.intro)⟩

theorem meets_collAg : ∃ e, engineEffect (.collAg { cmd with d := 7, s := 1, t := 4, ext := 4, ty := .f32 }) = some e ∧ RegionIssues (wr ring) rr e.inHandler ∧ e.needs (wr ring) rr :=
  ⟨_, rfl, ⟨by decide, rfl, rfl, by decide⟩, by (try dsimp only); repeat' (first | exact True.intro | rfl | decide | apply And.intro | apply Exists.intro)⟩

theorem meets_collBc : ∃ e, engineEffect (.collBc { cmd with d := 7, s := 1, t := 4, ext := 4, ty := .f32, imm := 0x100 }) = some e ∧ RegionIssues (wr ring) rr e.inHandler ∧ e.needs (wr ring) rr :=
  ⟨_, rfl, ⟨by decide, rfl, rfl, by decide⟩, by (try dsimp only); repeat' (first | exact True.intro | rfl | decide | apply And.intro | apply Exists.intro)⟩

theorem meets_ewait : ∃ e, engineEffect (.ewait { cmd with s := 6 }) = some e ∧ RegionIssues (we [ec]) rr e.inHandler ∧ e.needs (we [ec]) rr :=
  ⟨_, rfl, ⟨by decide, rfl, rfl, by decide⟩, by (try dsimp only); repeat' (first | exact True.intro | rfl | decide | apply And.intro | apply Exists.intro)⟩

def r7 : Region := { rr with seq := rr.seq.put 3 1 }

theorem meets_ecancel : ∃ e, engineEffect (.ecancel { cmd with d := 7, s := 3 }) = some e ∧ RegionIssues { (we [ec]) with regions := [(0, r7)] } r7 e.inHandler ∧ e.needs { (we [ec]) with regions := [(0, r7)] } r7 :=
  ⟨_, rfl, ⟨by decide, rfl, rfl, by decide⟩, by (try dsimp only); repeat' (first | exact True.intro | rfl | decide | apply And.intro | apply Exists.intro)⟩

end Names

/-! ### States that meet the premises of the entries of a table: Galleries -/

namespace Galleries

def rr : Region := { running with program := { acts := [act0, act0, act0] }, state := .idle, seq := regs [(1, 0x10000000000), (2, 64), (3, 5), (4, 0x20000000010), (6, 0)] Sequencer.zero, active := bank [(0, enc (.add { node with da := .node 1 0 }))] [] }

def s1 := scr (site [(0, rr)])

def wp (p : Plinth) := withHall (fun h => { h with plinths := [{}, p, {}] }) s1

theorem meets_claim : ∃ e, plinthEffect (.claim { cmd with d := 7, imm := 0x30005 }) = some e ∧ RegionIssues (wp {}) rr e.inHandler ∧ e.needs (wp {}) rr :=
  ⟨_, rfl, ⟨by decide, rfl, rfl, by decide⟩, by (try dsimp only); repeat' (first | exact True.intro | rfl | decide | apply And.intro | apply Exists.intro)⟩

def hp : Plinth := { holder := some 0, slotHolder := [(0, 0), (3, 0), (5, 16)], slots := [(0, { packet := [], tr := false, ref := none })], cfg := some { afmt := .f16, n := 3, keep := true, sparse := false } }

theorem meets_release : ∃ e, plinthEffect (.release { cmd with imm := 5 }) = some e ∧ RegionIssues (wp hp) rr e.inHandler ∧ e.needs (wp hp) rr :=
  ⟨_, rfl, ⟨by decide, rfl, rfl, by decide⟩, by (try dsimp only); repeat' (first | exact True.intro | rfl | decide | apply And.intro | apply Exists.intro)⟩

def hdrW : Nat := 9 * 2^60 + 1 * 2^52 + 8 * 2^44

def wo : State := { wp hp with mem := mem [(0, hdrW), (8, 0x123456)] }

theorem meets_opld : ∃ e, plinthEffect (.opld { cmd with s := 1, imm := 1 }) = some e ∧ RegionIssues wo rr e.inHandler ∧ e.needs wo rr :=
  ⟨_, rfl, ⟨by decide, rfl, rfl, by decide⟩, by decide, rfl, rfl, rfl, Or.inr ⟨scratchAddr 0 0, 8, ⟨by decide, by decide, by decide⟩, buf, 0, rfl, rfl, by decide, by decide +kernel, rfl,
    (fun h => by cases h), freeAt_takeable (by decide +kernel), by decide +kernel⟩⟩

/-- OPLD when all pieces of its packet have been read. -/
def ro : Region := { rr with seq := { rr.seq with pieces := { got := [readBytes wo.mem (scratchAddr 0 0) 8, readBytes wo.mem (scratchAddr 0 0) 16] } } }

theorem meets_opld_packet : ∃ e, plinthEffect (.opld { cmd with s := 1, imm := 1 }) = some e ∧ RegionIssues { wo with regions := [(0, ro)] } ro e.inHandler ∧ e.needs { wo with regions := [(0, ro)] } ro := by
  refine ⟨_, rfl, ⟨by decide, rfl, rfl, by decide⟩, by decide, rfl, rfl, rfl, Or.inl ⟨readBytes wo.mem (scratchAddr 0 0) 16, ⟨by decide, by decide, by decide⟩, buf, readBytes wo.mem (scratchAddr 0 0) 8,
    (pktOf (readBytes wo.mem (scratchAddr 0 0) 16)).get (by decide +kernel), rfl, ?_, by decide +kernel, ?_, (Option.some_get _).symm, by decide +kernel, by decide +kernel⟩⟩ <;> unfold gathered <;> decide +kernel

theorem meets_mxCfg : ∃ e, plinthEffect (.mxCfg { cmd with imm := 1 + 8 * 4 + 64 * 3 }) = some e ∧ RegionIssues (wp hp) rr e.inHandler ∧ e.needs (wp hp) rr :=
  ⟨_, rfl, ⟨by decide, rfl, rfl, by decide⟩, by (try dsimp only); repeat' (first | exact True.intro | rfl | decide | apply And.intro | apply Exists.intro)⟩

theorem meets_mxRoute : ∃ e, plinthEffect (.mxRoute { cmd with s := 3, imm := 3 }) = some e ∧ RegionIssues (wp hp) rr e.inHandler ∧ e.needs (wp hp) rr :=
  ⟨_, rfl, ⟨by decide, rfl, rfl, by decide⟩, by (try dsimp only); repeat' (first | exact True.intro | rfl | decide | apply And.intro | apply Exists.intro)⟩

theorem meets_mxGo : ∃ e, plinthEffect (.mxGo { cmd with s := 1, t := 2, imm := 1 }) = some e ∧ RegionIssues (wp hp) rr e.inHandler ∧ e.needs (wp hp) rr :=
  ⟨_, rfl, ⟨by decide, rfl, rfl, by decide⟩, by (try dsimp only); repeat' (first | exact True.intro | rfl | decide | apply And.intro | apply Exists.intro)⟩

theorem meets_mxStop : ∃ e, plinthEffect (.mxStop { cmd with imm := 5 }) = some e ∧ RegionIssues (wp hp) rr e.inHandler ∧ e.needs (wp hp) rr :=
  ⟨_, rfl, ⟨by decide, rfl, rfl, by decide⟩, by (try dsimp only); repeat' (first | exact True.intro | rfl | decide | apply And.intro | apply Exists.intro)⟩

def rq : Req := { rid := 0, cell := 0, node := 0, lane := { tag := 0, ops := [], }, wid := none, op := .drain 1 2 [], ty := .i32, da := .discard, db := .discard, va := 0, loc := some 0, len := 4, phase := .issued, number := 6 }

def sd (w : Bool) (f : Ty) (sl : Nat) : Stream := { desc := { tile := 0, slot := sl, write := w, fmt := f, fe := 0, handle := 1, origin := 0, count := 1, dims := [(4, 4)] } }

def rg : Region := { rr with streams := [(2, sd true .n32 0), (3, sd false .tile 1), (4, sd false .tile 2)] }

def s2 := scr (site [(0, rg)])

def g0 : Nat := (1 * 2^56 + 0 + 16 * 2^42 + 8 * 2^38 + 0x3F900000)

def g1 : Nat := (2 * 2^60 + 3 * 2^56 + 4 * 2^52 + 0 + 0 + 0)

theorem meets_galOpen : ∃ e, galleryEffect (.galOpen { cmd with d := 7, s := 1 }) = some e ∧ RegionIssues (withHall (fun h => { h with vtuse := h.vtuse.set 2 0x2 }) { s2 with mem := mem [(0, g0), (8, g1)] }) rg e.inHandler ∧ e.needs (withHall (fun h => { h with vtuse := h.vtuse.set 2 0x2 }) { s2 with mem := mem [(0, g0), (8, g1)] }) rg :=
  ⟨_, rfl, ⟨by decide, rfl, rfl, by decide⟩, by (try dsimp only); repeat' (first | exact True.intro | exact readsRef_at (by decide +kernel) | rfl | decide | apply And.intro | apply Exists.intro)⟩

def seg : Segment := { state := .live, wmark := 2, start := 0, len := 64, rot := 0, skip := 0, handle := 1, doc := 1, ver := 1, lstride := 4096, reg := 1, id := 1 }

def gal : Gallery := { layers := 2, heads := 1, dim := 16, fmt := .f16, base := 0, owner := 0, rq := 2, ks := 3, vs := 4, vf := 0, ctx := 0, links := [{ hall := 0, tile := 0, limit := 64, segs := [seg] }, { hall := 0, tile := 1, limit := 64 }], nextId := 2 }

def doc : DocEntry := { doc := 5, ver := 1, base := 0, len := 16, handle := 1, lstride := 64, state := .current }

def gw (g : Gallery) (s : State) : State := { s with wings := [(0, { wing with galleries := [(5, g)], docs := [(5, doc)] })] }

def c5 := { cmd with imm := 5 }

theorem meets_galClose : ∃ e, galleryEffect (.galClose c5) = some e ∧ RegionIssues (gw gal s2) rg e.inHandler ∧ e.needs (gw gal s2) rg :=
  ⟨_, rfl, ⟨by decide, rfl, rfl, by decide⟩, by (try dsimp only); repeat' (first | exact True.intro | rfl | decide | apply And.intro | apply Exists.intro)⟩

theorem meets_galAppend : ∃ e, galleryEffect (.galAppend { c5 with s := 3, t := 1 }) = some e ∧ RegionIssues (gw gal s2) rg e.inHandler ∧ e.needs (gw gal s2) rg :=
  ⟨_, rfl, ⟨by decide, rfl, rfl, by decide⟩, by (try dsimp only); repeat' (first | exact True.intro | rfl | decide | apply And.intro | apply Exists.intro)⟩

theorem meets_splice : ∃ e, galleryEffect (.splice { c5 with s := 3, t := 3 }) = some e ∧ RegionIssues (gw gal s2) rg e.inHandler ∧ e.needs (gw gal s2) rg :=
  ⟨_, rfl, ⟨by decide, rfl, rfl, by decide⟩, gal, doc, ⟨_, rfl, rfl, rfl⟩, by decide, Or.inr ⟨rfl, _, rfl, rfl⟩, rfl, by decide, by decide, by decide⟩

/-- SPLICE goes on with the entry that it read when it issued. -/
theorem meets_splice_held : ∃ e, galleryEffect (.splice { c5 with s := 3, t := 3 }) = some e ∧
    RegionIssues { gw gal s2 with regions := [(0, { rg with seq := { rg.seq with entry := some { doc with len := 3 } } })] } { rg with seq := { rg.seq with entry := some { doc with len := 3 } } } e.inHandler ∧
    e.needs { gw gal s2 with regions := [(0, { rg with seq := { rg.seq with entry := some { doc with len := 3 } } })] } { rg with seq := { rg.seq with entry := some { doc with len := 3 } } } :=
  ⟨_, rfl, ⟨by decide, rfl, rfl, by decide⟩, gal, { doc with len := 3 }, ⟨_, rfl, rfl, rfl⟩, by decide, Or.inl rfl, rfl, by decide, by decide, by decide⟩

theorem meets_galCut : ∃ e, galleryEffect (.galCut { c5 with s := 3 }) = some e ∧ RegionIssues (gw gal s2) rg e.inHandler ∧ e.needs (gw gal s2) rg :=
  ⟨_, rfl, ⟨by decide, rfl, rfl, by decide⟩, by (try dsimp only); repeat' (first | exact True.intro | rfl | decide | apply And.intro | apply Exists.intro)⟩

def p0 : Nat := 5 * 2^32 + 7 * 2^16

def p1 : Nat := 16 * 2^32

theorem meets_prov : ∃ e, galleryEffect (.prov { cmd with d := 7, s := 1 }) = some e ∧ RegionIssues { gw gal s2 with mem := mem [(0, p0), (8, p1), (16, 64 * 2^32)] } rg e.inHandler ∧ e.needs { gw gal s2 with mem := mem [(0, p0), (8, p1), (16, 64 * 2^32)] } rg :=
  ⟨_, rfl, ⟨by decide, rfl, rfl, by decide⟩, by (try dsimp only); repeat' (first | exact True.intro | exact readsRef_at (by decide +kernel) | rfl | decide | apply And.intro | apply Exists.intro)⟩

theorem meets_provRev : ∃ e, galleryEffect (.provRev { cmd with s := 3, t := 6 }) = some e ∧ RegionIssues { gw gal s2 with regions := [(0, { rg with seq := rg.seq.put 6 1 })] } { rg with seq := rg.seq.put 6 1 } e.inHandler ∧ e.needs { gw gal s2 with regions := [(0, { rg with seq := rg.seq.put 6 1 })] } { rg with seq := rg.seq.put 6 1 } :=
  ⟨_, rfl, ⟨by decide, rfl, rfl, by decide⟩, ⟨_, _, rfl, List.mem_cons_self, rfl, rfl⟩⟩

def hdr (thread : Bool) : BitVec 128 := BitVec.ofNat 128 (2^64 + 2^67 + (if thread then 2^70 else 0) + 0)

def rt : Region := { rg with header := hdr true, seq := rg.seq.put 6 (BitVec.ofNat 64 (identOf rg)) }

def gs (st : SegState) := { gal with links := [{ hall := 0, tile := 0, limit := 64, segs := [{ seg with state := st, wmark := 0 }] }] }

theorem meets_repair : ∃ e, galleryEffect (.repair { c5 with d := 7, s := 3, t := 6, imm := 0x105 }) = some e ∧ RegionIssues { gw (gs .spliced) s2 with regions := [(0, rt)] } rt e.inHandler ∧ e.needs { gw (gs .spliced) s2 with regions := [(0, rt)] } rt :=
  ⟨_, rfl, ⟨by decide, rfl, rfl, by decide⟩, ⟨gs .spliced, 0, rt, _, _, 0, ⟨_, rfl, rfl, rfl⟩, by decide +kernel, rfl, rfl, rfl, by decide, by decide, rfl, rfl, Or.inl rfl, by decide, rfl⟩⟩

def rep : Repair := { number := 5, vf := 0, ctx := 0, wing := 0, gallery := 5, seg := 1, probe := 1, entry := 0, region := 0, staging := 1, thresh := 0 }

def cons (x : Repair) (s : State) : State := { s with conservators := s.conservators.set 0 { repairs := [x] } }

theorem meets_repairWait : ∃ e, galleryEffect (.repairWait { cmd with s := 3 }) = some e ∧ RegionIssues (cons rep (gw (gs .spliced) s2)) rg e.inHandler ∧ e.needs (cons rep (gw (gs .spliced) s2)) rg :=
  ⟨_, rfl, ⟨by decide, rfl, rfl, by decide⟩, by (try dsimp only); repeat' (first | exact True.intro | rfl | decide | apply And.intro | apply Exists.intro)⟩

def d0 : Nat := 1 * 2^56 + 1 * 2^48 + 1 * 2^40 + 7 * 2^6

theorem meets_deltaBind : ∃ e, castEffect (.deltaBind { cmd with s := 1, imm := 9 }) = some e ∧ RegionIssues { s2 with mem := mem [(0, d0), (8, 0), (16, 0x2000), (24, 0)] } rg e.inHandler ∧ e.needs { s2 with mem := mem [(0, d0), (8, 0), (16, 0x2000), (24, 0)] } rg :=
  ⟨_, rfl, ⟨by decide, rfl, rfl, by decide⟩, by (try dsimp only); repeat' (first | exact True.intro | exact readsRef_at (by decide +kernel) | rfl | decide | apply And.intro | apply Exists.intro)⟩

def dcast (r : Option CastRun) (q : List CastRun) : Cast := { hall := 0, vf := 0, ctx := 0, input := 1, weights := 1, output := 1, m := 1, k := 16, n := 16, xfmt := .bf16, period := 4, bound := 0, pstride := 64, scratch := 2048, state := .cold, runner := r, queue := q }

def cw (c : Cast) (s : State) : State := { s with wings := [(0, { wing with casts := [(9, c)] })] }

def c9 := { cmd with imm := 0x109 }

def hp2 (s : State) := withHall (fun h => { h with plinths := [{}, hp, {}] }) s

theorem meets_deltaRun : ∃ e, castEffect (.deltaRun { c9 with d := 7 }) = some e ∧ RegionIssues (hp2 (cw (dcast none []) s2)) rg e.inHandler ∧ e.needs (hp2 (cw (dcast none []) s2)) rg :=
  ⟨_, rfl, ⟨by decide, rfl, rfl, by decide⟩, by (try dsimp only); repeat' (first | exact True.intro | rfl | decide | apply And.intro | apply Exists.intro)⟩

theorem meets_deltaRef : ∃ e, castEffect (.deltaRef c9) = some e ∧ RegionIssues (hp2 (cw (dcast none []) s2)) rg e.inHandler ∧ e.needs (hp2 (cw (dcast none []) s2)) rg :=
  ⟨_, rfl, ⟨by decide, rfl, rfl, by decide⟩, by (try dsimp only); repeat' (first | exact True.intro | rfl | decide | apply And.intro | apply Exists.intro)⟩

theorem meets_deltaInv : ∃ e, castEffect (.deltaInv c9) = some e ∧ RegionIssues (hp2 (cw (dcast none []) { s2 with mem := mem [(2048, 7), (2040, 7)] })) rg e.inHandler ∧ e.needs (hp2 (cw (dcast none []) { s2 with mem := mem [(2048, 7), (2040, 7)] })) rg :=
  ⟨_, rfl, ⟨by decide, rfl, rfl, by decide⟩, by (try dsimp only); repeat' (first | exact True.intro | rfl | decide | apply And.intro | apply Exists.intro)⟩

theorem meets_deltaStat : ∃ e, castEffect (.deltaStat { c9 with d := 7 }) = some e ∧ RegionIssues (hp2 (cw { dcast none [] with counters := [1,2,3,4,5,6,7,8] } s2)) rg e.inHandler ∧ e.needs (hp2 (cw { dcast none [] with counters := [1,2,3,4,5,6,7,8] } s2)) rg :=
  ⟨_, rfl, ⟨by decide, rfl, rfl, by decide⟩, by (try dsimp only); repeat' (first | exact True.intro | rfl | decide | apply And.intro | apply Exists.intro)⟩

end Galleries

/-! ### States that meet the premises of the entries of a table: Traps -/

namespace Traps

def rr : Region := { running with program := { acts := [act0, act0, act0] }, seq := { regs [(1, 0x10000000000), (2, 64), (3, 5), (4, 0x20000000010), (6, 0)] Sequencer.zero with handler := some (1, 0) }, active := bank [(0, enc (.add { node with da := .node 1 0 })), (1, enc (.add { node with ls := .port1, lit := 5 }))] [], sys := { trapVec := 0x101 } }

def tr : TrapRec := { code := 2, cell := 0, node := 0, held := [ln 2], laneMask := 1, operand := 3 }

def rt (t : TrapRec) : Region := { rr with trap := some t }

def st (t : TrapRec) : State := scr (site [(0, rt t)])

theorem meets_tretRetry : ∃ e, trapEffect (.tretRetry { cmd with imm := 0x11 }) = some e ∧ RegionIssues (st tr) (rt tr) e.inHandler ∧ e.needs (st tr) (rt tr) :=
  ⟨_, rfl, ⟨by decide, rfl, rfl, by decide⟩, tr, rfl, rfl, rfl⟩

def ts : TrapRec := { tr with seq := true }

def ta : TrapRec := { tr with arrival := some (1, tk) }

def td : TrapRec := { tr with drain := some (1, 2) }

def q : SeqRun := { rid := 0, cell := 0, node := 0, index := 0, start := 0, lanes := [{ lane := ln 2 }], da := .discard, db := .discard }

def tq : TrapRec := { tr with seqRun := some q }

theorem meets_tretPoison : ∃ e, trapEffect .tretPoison = some e ∧ RegionIssues (st tr) (rt tr) e.inHandler ∧ e.needs (st tr) (rt tr) :=
  ⟨_, rfl, ⟨by decide, rfl, rfl, by decide⟩, by (try dsimp only); repeat' (first | exact True.intro | exact fun _ _ _ h => (by cases h) | rfl | decide | apply And.intro | apply Exists.intro)⟩

theorem meets_tretDiscard : ∃ e, trapEffect .tretDiscard = some e ∧ RegionIssues (st tr) (rt tr) e.inHandler ∧ e.needs (st tr) (rt tr) :=
  ⟨_, rfl, ⟨by decide, rfl, rfl, by decide⟩, by (try dsimp only); repeat' (first | exact True.intro | exact fun _ h => (by cases h) | rfl | decide | apply And.intro | apply Exists.intro)⟩

theorem meets_tretAbort : ∃ e, trapEffect .tretAbort = some e ∧ RegionIssues (st tr) (rt tr) e.inHandler ∧ e.needs (st tr) (rt tr) :=
  ⟨_, rfl, ⟨by decide, rfl, rfl, by decide⟩, by (try dsimp only); repeat' (first | exact True.intro | rfl | decide | apply And.intro | apply Exists.intro)⟩

def r0 : Region := { rr with seq := { rr.seq with handler := none }, state := .idle }

def s0 := scr (site [(0, r0)])

def rq : Req := { rid := 0, cell := 0, node := 0, lane := { tag := 0, ops := [], }, wid := none, op := .posted [1] 3, ty := .i32, da := .discard, db := .discard, va := 0, loc := some 0, len := 4, phase := .issued, number := 6 }

theorem meets_sysc : ∃ e, trapEffect (.sysc { cmd with imm := 33 }) = some e ∧ RegionIssues s0 r0 e.inHandler ∧ e.needs s0 r0 :=
  ⟨_, rfl, ⟨by decide, rfl, rfl, by decide⟩, by (try dsimp only); repeat' (first | exact True.intro | rfl | decide | apply And.intro | apply Exists.intro)⟩

theorem meets_hcall : ∃ e, trapEffect (.hcall { cmd with d := 7, s := 3, imm := 33 }) = some e ∧ RegionIssues s0 r0 e.inHandler ∧ e.needs s0 r0 :=
  ⟨_, rfl, ⟨by decide, rfl, rfl, by decide⟩, by (try dsimp only); repeat' (first | exact True.intro | rfl | decide | apply And.intro | apply Exists.intro)⟩

def hc : HCall := { vf := 0, rid := some 0, handler := false, fn := 4, arg := 5 }

theorem meets_audit : ∃ e, trapEffect (.audit { cmd with s := 1 }) = some e ∧ RegionIssues s0 r0 e.inHandler ∧ e.needs s0 r0 :=
  ⟨_, rfl, ⟨by decide, rfl, rfl, by decide⟩, by (try dsimp only); repeat' (first | exact True.intro | exact readsRef_at (by decide +kernel) | rfl | decide | apply And.intro | apply Exists.intro)⟩

def kid : Region := { r0 with ctx := 1, state := .sealed }

def rk : Region := { r0 with seq := regs [(8, BitVec.ofNat 64 (identOf kid))] r0.seq }

def sk : State := scr (site [(0, rk), (64, kid)])

def img : SaveImage := { number := 0, tier := 1, rid := 64, region := kid, reqs := [], names := [], hold := [], invs := [], pins := [], overflow := [], chans := [], folds := [], plinths := [{}, {}, {}] }

def svs (s : State) : State := { s with vfs := s.vfs.map (fun p => (p.1, { p.2 with saves := [img] })) }

def srv (s : State) (l : List (Nat × Reg)) : State := { s with who := serviceRid, service := regs l s.service }

theorem meets_hcallTake : ∃ e, serviceEffect (.hcallTake { cmd with d := 3 }) = some e ∧ ServiceIssues (srv s0 []) ∧ e.needs (srv s0 []) :=
  ⟨_, rfl, ⟨rfl, rfl, rfl⟩, fun _ _ h => (by cases h)⟩

theorem meets_hcallArg : ∃ e, serviceEffect (.hcallArg { cmd with d := 3, s := 1 }) = some e ∧ ServiceIssues (srv (withPkg (fun p => { p with hcalls := [(4, hc)], hcallOrder := [4] }) s0) [(1, 4)]) ∧ e.needs (srv (withPkg (fun p => { p with hcalls := [(4, hc)], hcallOrder := [4] }) s0) [(1, 4)]) :=
  ⟨_, rfl, ⟨rfl, rfl, rfl⟩, by (try dsimp only); repeat' (first | exact True.intro | rfl | decide | apply And.intro | apply Exists.intro)⟩

theorem meets_hcallRet : ∃ e, serviceEffect (.hcallRet { cmd with d := 3, s := 1, t := 1 }) = some e ∧ ServiceIssues (srv (withPkg (fun p => { p with hcalls := [(4, hc)], hcallOrder := [4] }) s0) [(1, 4)]) ∧ e.needs (srv (withPkg (fun p => { p with hcalls := [(4, hc)], hcallOrder := [4] }) s0) [(1, 4)]) :=
  ⟨_, rfl, ⟨rfl, rfl, rfl⟩, by (try dsimp only); repeat' (first | exact True.intro | rfl | decide | apply And.intro | apply Exists.intro)⟩

theorem meets_freeze : ∃ e, serviceEffect (.freeze { cmd with s := 1 }) = some e ∧ ServiceIssues (srv sk [(1, BitVec.ofNat 64 (identOf kid))]) ∧ e.needs (srv sk [(1, BitVec.ofNat 64 (identOf kid))]) :=
  ⟨_, rfl, ⟨rfl, rfl, rfl⟩, 64, kid, ⟨by decide +kernel, rfl⟩, Or.inl rfl⟩

theorem meets_snap : ∃ e, serviceEffect (.snap { cmd with s := 1, imm := 3 }) = some e ∧ ServiceIssues (srv sk [(1, BitVec.ofNat 64 (identOf kid))]) ∧ e.needs (srv sk [(1, BitVec.ofNat 64 (identOf kid))]) :=
  ⟨_, rfl, ⟨rfl, rfl, rfl⟩, Or.inr ⟨64, kid, ⟨by decide +kernel, rfl⟩, Or.inr rfl⟩⟩

/-- A FREEZE that has waited 20 microseconds for the two halves of a CTX.SWAP. -/
def ks : Region := { kid with seq := { kid.seq with swap := some 0 } }

def waited : State := let s := srv (scr (site [(0, rk), (64, ks)])) [(1, BitVec.ofNat 64 (identOf kid))]
  { s with timeNs := 20005, service := { s.service with waiting := true, waitStart := 5 } }

theorem meets_freeze_swap : ∃ e, serviceEffect (.freeze { cmd with s := 1 }) = some e ∧ ServiceIssues waited ∧ e.needs waited :=
  ⟨_, rfl, ⟨rfl, rfl, rfl⟩, 64, ks, ⟨by decide +kernel, rfl⟩, Or.inr ⟨rfl, by decide⟩⟩

def sb : State := { State.reset with pkg := { State.reset.pkg with booted := true, life := .deployed }, halls := State.reset.halls.map (fun h => { h with released := true }), mem := [(scratchAddr 0 0, 5), (scratchAddr 1 9, 5)] }

theorem meets_wingDef : ∃ e, serviceEffect (.wingDef { cmd with s := 1, t := 2, imm := 5 }) = some e ∧ ServiceIssues (srv sb [(1, 0x900), (2, 77)]) ∧ e.needs (srv sb [(1, 0x900), (2, 77)]) :=
  ⟨_, rfl, ⟨rfl, rfl, rfl⟩, by (try dsimp only); repeat' (first | exact True.intro | rfl | decide | apply And.intro | apply Exists.intro)⟩

theorem meets_wingDefRel : ∃ e, serviceEffect (.wingDefRel { cmd with imm := 0 }) = some e ∧ ServiceIssues (srv (scr (site [])) []) ∧ e.needs (srv (scr (site [])) []) :=
  ⟨_, rfl, ⟨rfl, rfl, rfl⟩, by (try dsimp only); repeat' (first | exact True.intro | rfl | decide | apply And.intro | apply Exists.intro)⟩

theorem meets_wingRoute : ∃ e, serviceEffect (.wingRoute { cmd with imm := 0 }) = some e ∧ ServiceIssues (srv (scr (site [])) []) ∧ e.needs (srv (scr (site [])) []) :=
  ⟨_, rfl, ⟨rfl, rfl, rfl⟩, by (try dsimp only); repeat' (first | exact True.intro | rfl | decide | apply And.intro | apply Exists.intro)⟩

theorem meets_vfBind : ∃ e, serviceEffect (.vfBind { cmd with s := 1, imm := 0 }) = some e ∧ ServiceIssues (srv (scr (site [])) [(1, 3)]) ∧ e.needs (srv (scr (site [])) [(1, 3)]) :=
  ⟨_, rfl, ⟨rfl, rfl, rfl⟩, by (try dsimp only); repeat' (first | exact True.intro | rfl | decide | apply And.intro | apply Exists.intro)⟩

theorem meets_vfBindRel : ∃ e, serviceEffect (.vfBindRel { cmd with s := 1, imm := 0 }) = some e ∧ ServiceIssues (srv (scr (site [])) [(1, 0)]) ∧ e.needs (srv (scr (site [])) [(1, 0)]) :=
  ⟨_, rfl, ⟨rfl, rfl, rfl⟩, by (try dsimp only); repeat' (first | exact True.intro | rfl | decide | apply And.intro | apply Exists.intro)⟩

theorem meets_scrub : ∃ e, serviceEffect (.scrub { cmd with s := 1, t := 2 }) = some e ∧ ServiceIssues (srv { sb with mem := [(2^21 * 3 + 5, 5), (2^21 * 5, 4)] } [(1, 3), (2, 2)]) ∧ e.needs (srv { sb with mem := [(2^21 * 3 + 5, 5), (2^21 * 5, 4)] } [(1, 3), (2, 2)]) :=
  ⟨_, rfl, ⟨rfl, rfl, rfl⟩, by (try dsimp only); repeat' (first | exact True.intro | rfl | decide | apply And.intro | apply Exists.intro)⟩

end Traps

namespace Traps

/-! #### Images of the part's own size (DESIGN CHOICE, log 7) -/

/-- Nothing keeps an access waiting: no test, mark, pin, walk or fill, and all links are up. -/
def quiet (s : State) : Bool :=
  s.pkg.tests.isEmpty && s.marks.isEmpty && s.pkg.annex.all (fun p => !p.lost && p.trained && p.present) && s.pkg.hostUp
    && s.pkg.annexStores.all (·.isEmpty) && s.halls.all (fun h => h.pins.isEmpty && h.cache.isEmpty && h.walking.isEmpty)

theorem quiet_takeable {s : State} (h : quiet s = true) (hall a n : Nat) : takeable s hall a n ∧ poisoned s a n = false ∧ untested s hall a := by
  simp only [quiet, Bool.and_eq_true, List.isEmpty_iff, List.all_eq_true, Bool.not_eq_true'] at h
  obtain ⟨⟨⟨⟨⟨ht, hm⟩, ha⟩, hu⟩, hs⟩, hh⟩ := h
  have hat (k : Nat) : (hallAt s k).cache = [] ∧ (hallAt s k).walking = [] := by
    unfold hallAt
    match e : s.halls[k]? with
    | none => exact ⟨rfl, rfl⟩
    | some x => exact ⟨(hh x (List.mem_of_getElem? e)).1.2, (hh x (List.mem_of_getElem? e)).2⟩
  refine ⟨⟨?_, fun x _ => ?_, ?_⟩, ?_, ?_⟩
  · have hp : (s.pkg.annex[portOf a]?).any (fun p => p.lost || !p.trained || !p.present) = false := by
      match e : s.pkg.annex[portOf a]? with
      | none => rfl
      | some p => have := ha p (List.mem_of_getElem? e); simp [this.1.1, this.1.2, this.2]
    have hq : quarantined s a = false := by
      simp only [quarantined, Bool.or_eq_false_iff, List.any_eq_false]
      exact ⟨fun x hx => by simp [(hh x hx).1.2], fun l hl => by simp [hs l hl]⟩
    simp only [answers, hp, hq, hu]
    split <;> rfl
  · simp only [pinnedByOther, List.any_eq_false]
    intro p hp
    simp [(hh p.1 (List.fst_mem_of_mem_zipIdx hp)).1.1]
  · simp only [rowBusy, underTest, copyTest, wayStalls, isWalking, ht, hat, List.any_nil, Bool.and_false, kget_nil, Option.isSome_none, Option.any_none, Bool.or_self, ite_self]
  · simp [poisoned, hm]
  · intro x hx; rw [ht] at hx; cases hx

/-- Bytes laid from an address. -/
def laid (a : Nat) (f : Nat → Byte) (n : Nat) : Memory := (List.range n).foldl (fun m i => writeByte m (a + i) (f i)) []

theorem laid_succ (a : Nat) (f : Nat → Byte) (n : Nat) : laid a f (n + 1) = writeByte (laid a f n) (a + n) (f n) := by
  simp only [laid, List.range_succ, List.foldl_append, List.foldl_cons, List.foldl_nil]

theorem laid_wf (a : Nat) (f : Nat → Byte) (n : Nat) : Memory.wf (laid a f n) = true := by
  induction n with
  | zero => rfl
  | succ n ih => rw [laid_succ]; exact writeByte_wf _ _ ih

theorem read_laid (a : Nat) (f : Nat → Byte) (n i : Nat) (h : i < n) : readByte (laid a f n) (a + i) = f i := by
  induction n with
  | zero => cases h
  | succ n ih =>
    rw [laid_succ]
    by_cases e : i = n
    · subst e; exact readByte_writeByte_self _ _ (laid_wf a f i)
    · rw [readByte_writeByte_of_ne _ _ (by omega)]; exact ih (by omega)

/-- Pieces cover what they cut, in order. -/
theorem pieces_cover {α : Type} (g : Nat → α) (start n : Nat) :
    (granPieces start n).flatMap (fun p => (List.range p.2).map (fun i => g (p.1 + i))) = (List.range n).map g := by
  have grow (a b : Nat) : (List.range a).map g ++ (List.range b).map (fun i => g (a + i)) = (List.range (a + b)).map g := by
    rw [List.range_add, List.map_append, List.map_map]; rfl
  have rest (h m k : Nat) : (List.range h).map g ++ ((List.range k).map (fun i => (h + 16 * i, min 16 (m - 16 * i)))).flatMap
      (fun p => (List.range p.2).map (fun i => g (p.1 + i))) = (List.range (h + min m (16 * k))).map g := by
    induction k with
    | zero => simp
    | succ k ih =>
      rw [List.range_succ, List.map_append, List.flatMap_append, ← List.append_assoc, ih]
      simp only [List.map_cons, List.map_nil, List.flatMap_cons, List.flatMap_nil, List.append_nil]
      by_cases e : 16 * k < m
      · rw [show min m (16 * k) = 16 * k by omega, grow]; congr 2; omega
      · rw [show min 16 (m - 16 * k) = 0 by omega, show min m (16 * (k + 1)) = min m (16 * k) by omega]; simp
  have e := rest (min n (16 - start % 16)) (n - min n (16 - start % 16)) ((n - min n (16 - start % 16) + 15) / 16)
  rw [show min n (16 - start % 16) + min (n - min n (16 - start % 16)) (16 * ((n - min n (16 - start % 16) + 15) / 16)) = n by omega] at e
  unfold granPieces
  simp only [List.flatMap_append, ← e]
  congr 1
  split
  · rename_i z; simp [z]
  · simp

theorem below_laid (a : Nat) (f : Nat → Byte) (n b : Nat) (h : b < a) : readByte (laid a f n) b = unlisted := by
  induction n with
  | zero => rfl
  | succ n ih => rw [laid_succ, readByte_writeByte_of_ne _ _ (by omega)]; exact ih

theorem pieces_lt {start n : Nat} {p : Nat × Nat} (h : p ∈ granPieces start n) : p.1 < n := by
  unfold granPieces at h
  simp only [List.mem_append, List.mem_map, List.mem_range] at h
  rcases h with h | ⟨i, hi, rfl⟩
  · split at h
    · cases h
    · obtain rfl := List.mem_singleton.mp h; dsimp only; omega
  · dsimp only; omega

/-- An image that memory holds can be read. -/
theorem image_in {s : State} {hall vf off p0 : Nat} {b : Buffer} {x : SaveImage} (hq : quiet s = true) (hr : b.read = true) (hl : off + Config.saveSize ≤ b.len)
    (hp : ∀ o < Config.saveSize, heldPlace s hall vf b .read (off + o) = some (p0 + o)) (hm : s.mem = laid p0 (Config.saveByte x.number) Config.saveSize)
    (hv : (vfAt s vf).saves = [x]) : imageIn s hall vf b off x := by
  refine ⟨imageBytes x.number, ?_, ⟨fun o => p0 + o, fun p hx => ?_, ?_⟩, ?_⟩
  · simp only [accessCode, Nat.mod_one, ne_eq, not_true_eq_false, if_false, Nat.not_lt.mpr hl, Buffer.has, hr, Bool.true_eq_false, Bool.false_eq_true, false_and]
  · have := quiet_takeable hq hall (p0 + p.1) p.2
    exact ⟨hp p.1 (pieces_lt hx), this.1, this.2.1, this.2.2⟩
  · have e : ∀ p ∈ imagePieces b off, readBytes s.mem (p0 + p.1) p.2 = (List.range p.2).map (fun i => readByte s.mem (p0 + (p.1 + i))) :=
      fun p _ => List.map_congr_left fun i _ => by rw [Nat.add_assoc]
    rw [List.flatMap_congr e, imagePieces, pieces_cover (fun i => readByte s.mem (p0 + i)), imageBytes]
    exact List.map_congr_left fun i hi => by rw [hm, read_laid _ _ _ _ (List.mem_range.mp hi)]
  · simp only [imageWith, hv, List.find?_cons, beq_self_eq_true]

/-- A buffer of an image's size, and a function whose memory holds its image. -/
def imgBuf : Buffer := { scratch := some 0, base := 4096, len := Config.saveSize, read := true, write := true, atomic := true }
def imgs (s : State) : State := { s with
  vfs := [(0, { wing := some 0, saves := [img], handles := [(handleKey 0 0, { visible := some imgBuf }), (handleKey 0 2, { visible := some buf })] })]
  mem := laid (scratchAddr 0 4096) (Config.saveByte 0) Config.saveSize }

theorem imgs_at {s : State} (hq : quiet (imgs s) = true) (r : Region) (hr : r.vf = 0 ∧ r.ctx = 0) {v : BitVec 64} (hv : v = 0) : imageAt (imgs s) r v img := by
  subst hv
  refine ⟨⟨rfl, rfl, rfl⟩, imgBuf, by unfold refBuffer; rw [hr.1, hr.2]; rfl, ?_⟩
  rw [hr.1]
  exact image_in (p0 := scratchAddr 0 4096) hq rfl (Nat.le_of_eq (Nat.zero_add _)) (fun o _ => congrArg some (by simp only [scratchAddr, imgBuf, BitVec.ofNat_eq_ofNat, BitVec.toNat_ofNat, Nat.zero_mod]; omega)) rfl rfl

theorem imgs_fit {s : State} (hq : quiet (imgs s) = true) (r : Region) (hr : r.vf = 0 ∧ r.ctx = 0) {v : BitVec 64} (hv : v = 0) : imageFits (imgs s) r v := by
  subst hv
  refine ⟨⟨rfl, rfl, rfl⟩, imgBuf, by unfold refBuffer; rw [hr.1, hr.2]; rfl, ?_, fun p _ => ⟨_, rfl, (quiet_takeable hq _ _ _).1, (quiet_takeable hq _ _ 0).2.2⟩⟩
  simp only [accessCode, Nat.mod_one, ne_eq, not_true_eq_false, if_false, imgBuf, BitVec.ofNat_eq_ofNat, BitVec.toNat_ofNat, Nat.zero_mod, Nat.zero_add, Nat.lt_irrefl, Buffer.has, Bool.true_eq_false, Bool.false_eq_true, false_and]

def saving : State := imgs (scr (site [(0, rk), (64, kid)]))

theorem meets_ctxSave : ∃ e, contextEffect (.ctxSave { cmd with s := 8, t := 6 }) = some e ∧ RegionIssues saving rk e.inHandler ∧ e.needs saving rk :=
  ⟨_, rfl, ⟨by decide, rfl, rfl, by decide⟩, ⟨64, kid, ⟨by decide +kernel, rfl⟩, by decide, rfl, rfl, rfl, rfl⟩, imgs_fit (by decide +kernel) rk ⟨rfl, rfl⟩ rfl⟩

def loading : State := imgs s0

theorem meets_ctxLoad : ∃ e, contextEffect (.ctxLoad { cmd with d := 7, t := 6 }) = some e ∧ RegionIssues loading r0 e.inHandler ∧ e.needs loading r0 :=
  ⟨_, rfl, ⟨by decide, rfl, rfl, by decide⟩, img, imgs_at (by decide +kernel) r0 ⟨rfl, rfl⟩ rfl, by decide +kernel, by decide +kernel⟩

/-- CTX.SWAP's descriptor in memory that nothing has written below the image: two references of 0. -/
theorem imgs_desc {s : State} (hq : quiet (imgs s) = true) (r : Region) (hr : r.vf = 0 ∧ r.ctx = 0) {v : BitVec 64} (hv : v = 0x20000000010) :
    atReference (imgs s) r v 16 (List.replicate 16 0) := by
  subst hv
  refine ⟨⟨by decide, by decide, by decide⟩, buf, by unfold refBuffer; rw [hr.1, hr.2]; rfl, by decide, fun o => scratchAddr 0 (16 + o), fun p _ => ⟨(by simp only [heldPlace, buf, Nat.zero_add]; rfl), ?_⟩, ?_⟩
  · have := quiet_takeable hq r.hall (scratchAddr 0 (16 + p.1)) p.2
    exact ⟨this.1, this.2.1, this.2.2⟩
  · have e (a : Nat) (h : a < scratchAddr 0 4096) : readByte (imgs s).mem a = 0 := below_laid _ _ _ _ h
    have z (a : Nat) (h : a + 8 ≤ scratchAddr 0 4096) : readBytes (imgs s).mem a 8 = List.replicate 8 0 := by
      rw [List.eq_replicate_iff]
      refine ⟨by simp only [readBytes, List.length_map, List.length_range], fun b hb => ?_⟩
      obtain ⟨i, hi, rfl⟩ := List.mem_map.mp hb
      exact e _ (by have := List.mem_range.mp hi; omega)
    show _ = readBytes (imgs s).mem (scratchAddr 0 16) 8 ++ (readBytes (imgs s).mem (scratchAddr 0 24) 8 ++ [])
    rw [z _ (by decide), z _ (by decide)]; rfl

theorem meets_ctxSwap : ∃ e, contextEffect (.ctxSwap { cmd with s := 8, t := 4 }) = some e ∧ RegionIssues saving rk e.inHandler ∧ e.needs saving rk :=
  ⟨_, rfl, ⟨by decide, rfl, rfl, by decide⟩, _, img, imgs_desc (by decide +kernel) rk ⟨rfl, rfl⟩ rfl, imgs_at (by decide +kernel) rk ⟨rfl, rfl⟩ (by decide +kernel), imgs_fit (by decide +kernel) rk ⟨rfl, rfl⟩ (by decide +kernel),
    64, kid, ⟨⟨by decide +kernel, rfl⟩, by decide, rfl, rfl, rfl, rfl⟩, rfl⟩

/-- The second half of CTX.SWAP, once the first has saved. -/
def rsw : Region := { rk with seq := { rk.seq with swap := some (identOf kid) } }
def swapped : State := imgs (scr (site [(0, rsw)]))

theorem meets_ctxSwap_half : ∃ e, contextEffect (.ctxSwap { cmd with s := 8, t := 4 }) = some e ∧ RegionIssues swapped rsw e.inHandler ∧ e.needs swapped rsw :=
  ⟨_, rfl, ⟨by decide, rfl, rfl, by decide⟩, _, img, imgs_desc (by decide +kernel) rsw ⟨rfl, rfl⟩ rfl, imgs_at (by decide +kernel) rsw ⟨rfl, rfl⟩ (by decide +kernel), by decide +kernel, by decide +kernel⟩

/-- A save area in guest memory, whose 1 GiB pages the translation cache holds. -/
def pages (n : Nat) : KMap TlbEntry := (List.range n).map (fun i => (tlbKey 0 (i * 2 ^ 30) 30, { base := i * 2 ^ 30, size := 30, write := true, atomic := true, filled := 0 }))

theorem pages_lookup {s : State} {n : Nat} (h : (hallAt s 0).tlb = pages n) {va : Nat} (hv : va < n * 2 ^ 30) : (tlbLookup s 0 0 va).map (fun p => (p.1, p.2.write, p.2.atomic)) = some (va, true, true) := by
  have miss (k : Nat) (hk : k % 32 ≠ 30) : ∀ m, kget (pages m) k = none := by
    intro m
    unfold pages
    induction List.range m with
    | nil => rfl
    | cons i l ih =>
      simp only [List.map_cons, kget]
      rw [if_neg (by unfold tlbKey; omega)]; exact ih
  have hit (l : List Nat) (j : Nat) (hj : j ∈ l) : kget (l.map (fun i => (tlbKey 0 (i * 2 ^ 30) 30, ({ base := i * 2 ^ 30, size := 30, write := true, atomic := true, filled := 0 } : TlbEntry)))) (tlbKey 0 (j * 2 ^ 30) 30)
      = some { base := j * 2 ^ 30, size := 30, write := true, atomic := true, filled := 0 } := by
    induction l with
    | nil => cases hj
    | cons i l ih =>
      simp only [List.map_cons, kget]
      by_cases e : i = j
      · subst e; rw [if_pos rfl]
      · rw [if_neg (by unfold tlbKey; omega)]
        exact ih ((List.mem_cons.mp hj).resolve_left (Ne.symm e))
  have k : tlbKey 0 va 30 = tlbKey 0 (va / 2 ^ 30 * 2 ^ 30) 30 := by unfold tlbKey; omega
  simp only [tlbLookup, pageSizes, h, List.findSome?_cons, miss (tlbKey 0 va 16) (by unfold tlbKey; omega), miss (tlbKey 0 va 21) (by unfold tlbKey; omega), Option.map_none, k]
  unfold pages
  rw [hit (List.range n) (va / 2 ^ 30) (List.mem_range.mpr (by omega))]
  simp only [Option.map_some, Option.some.injEq, Prod.mk.injEq, and_true]
  omega

def kf : Region := { kid with saved := some 0, state := .frozen }

def thawsWith (n : Nat) : State := let s := imgs (withHall (fun h => { h with tlb := pages n }) (scr (site [(0, rk), (64, kf)])))
  { srv s [(1, BitVec.ofNat 64 (identOf kid))] with mem := laid 0 (Config.saveByte 0) Config.saveSize }

theorem thaws_tlb (n : Nat) : (hallAt (thawsWith n) 0).tlb = pages n := rfl

def thaws : State := thawsWith (2 ^ 27)

/-- THAW, on a part whose SAVESZ lies in the address space of a function, as R412 has it. -/
theorem meets_thaw (h : Config.saveSize ≤ 2 ^ 57) : ∃ e, serviceEffect (.thaw { cmd with s := 1, imm := 0 }) = some e ∧ ServiceIssues thaws ∧ e.needs thaws := by
  refine ⟨_, rfl, ⟨rfl, rfl, rfl⟩, 64, kf, img, ⟨by decide +kernel, rfl⟩, rfl, ?_, rfl, by decide +kernel⟩
  have z : slotAddr (vfAt thaws 0) 0 = 0 := by simp only [slotAddr, Nat.zero_mul, Nat.add_zero]; rfl
  show imageIn thaws 0 0 readSpace (slotAddr (vfAt thaws 0) 0) img
  rw [z]
  refine image_in (p0 := 0) (by decide +kernel) rfl (by rw [Nat.zero_add]; exact h) (fun o ho => ?_) rfl rfl
  have e := pages_lookup (thaws_tlb (2 ^ 27)) (va := o) (by omega)
  match q : tlbLookup thaws 0 0 o, e with
  | some p, e =>
    simp only [Option.map_some, Option.some.injEq, Prod.mk.injEq] at e
    simp only [heldPlace, readSpace, Nat.zero_add, q, Option.bind_some, e, pageGrants, if_true]

end Traps

/-! ### States that meet the premises of the statements about scalar commands, traps, served loads, commits and the whole machine -/

namespace Whole

/-- A region that is Idle with values in its registers, and one with a valid handler. -/
def rg : Region := { running with program := { acts := [act0, act0, act0] }, state := .idle, seq := regs [(1, 5), (2, 7), (3, 0xFFFFFFFFFFFFFFFE)] Sequencer.zero }
def hg : Region := { rg with sys := { rg.sys with trapVec := 0x101 } }
def c3 : CmdRec := { cmd with d := 3, s := 1, t := 2 }

theorem meets_ScalarCommandsComplete : List.Forall (fun i => (∃ f v, scalarResult i = some (f, v)) ∧ Issues (site [(0, rg)]) ∧ RegionIssues (site [(0, rg)]) rg true)
    ([.li c3, .lih c3, .mov c3, .addCmd c3, .subCmd c3, .mulCmd c3, .andCmd c3, .orCmd c3, .xorCmd c3, .shlCmd c3, .shrCmd c3, .sarCmd c3, .cmpCmd c3, .minCmd c3, .maxCmd c3,
      .time c3] : List Instr) := by
  have h : RegionIssues (site [(0, rg)]) rg true := ⟨by decide, rfl, rfl, fun h => (by cases h)⟩
  exact ⟨⟨⟨_, _, rfl⟩, Or.inl ⟨_, h⟩, h⟩, ⟨⟨_, _, rfl⟩, Or.inl ⟨_, h⟩, h⟩, ⟨⟨_, _, rfl⟩, Or.inl ⟨_, h⟩, h⟩, ⟨⟨_, _, rfl⟩, Or.inl ⟨_, h⟩, h⟩, ⟨⟨_, _, rfl⟩, Or.inl ⟨_, h⟩, h⟩,
    ⟨⟨_, _, rfl⟩, Or.inl ⟨_, h⟩, h⟩, ⟨⟨_, _, rfl⟩, Or.inl ⟨_, h⟩, h⟩, ⟨⟨_, _, rfl⟩, Or.inl ⟨_, h⟩, h⟩, ⟨⟨_, _, rfl⟩, Or.inl ⟨_, h⟩, h⟩, ⟨⟨_, _, rfl⟩, Or.inl ⟨_, h⟩, h⟩,
    ⟨⟨_, _, rfl⟩, Or.inl ⟨_, h⟩, h⟩, ⟨⟨_, _, rfl⟩, Or.inl ⟨_, h⟩, h⟩, ⟨⟨_, _, rfl⟩, Or.inl ⟨_, h⟩, h⟩, ⟨⟨_, _, rfl⟩, Or.inl ⟨_, h⟩, h⟩, ⟨⟨_, _, rfl⟩, Or.inl ⟨_, h⟩, h⟩,
    ⟨⟨_, _, rfl⟩, Or.inl ⟨_, h⟩, h⟩⟩

/-- The service sequencer issues the same commands. -/
theorem meets_ScalarCommandsComplete_service : Issues { site0 with who := serviceRid } := Or.inr ⟨rfl, rfl, rfl⟩

/-- Registers of each kind: read, written by a region, ignored. -/
theorem meets_SystemRegistersComplete : RegionIssues (site [(0, rg)]) rg true ∧
    (∀ n ∈ ([0, 1, 3, 4, 5, 6, 7, 8, 9, 10, 11, 0x10, 0x11, 0x12, 0x13, 0x40, 0x4B] : List Nat), (systemRegister (site [(0, rg)]) rg n).isSome = true) :=
  ⟨⟨by decide, rfl, rfl, fun h => (by cases h)⟩, by decide +kernel⟩

theorem meets_CommandTrapsTaken : RegionIssues (site [(0, hg)]) hg false ∧ Handles hg ∧
    (∀ n ∈ ([2, 0xC, 0x14, 0x3F, 0x4C, 0xFFFFFFFF] : List Nat), systemRegister (site [(0, hg)]) hg n = none) ∧
    List.Forall (fun i => ∃ e, serviceEffect i = some e)
      ([.hcallTake cmd, .hcallArg cmd, .hcallRet cmd, .freeze cmd, .snap cmd, .thaw cmd, .wingDef cmd, .wingDefRel cmd, .wingRoute cmd, .vfBind cmd, .vfBindRel cmd, .scrub cmd] : List Instr) :=
  ⟨⟨by decide, rfl, rfl, fun h => (by cases h)⟩, ⟨rfl, rfl, by decide, rfl, rfl⟩, by decide +kernel,
    ⟨_, rfl⟩, ⟨_, rfl⟩, ⟨_, rfl⟩, ⟨_, rfl⟩, ⟨_, rfl⟩, ⟨_, rfl⟩, ⟨_, rfl⟩, ⟨_, rfl⟩, ⟨_, rfl⟩, ⟨_, rfl⟩, ⟨_, rfl⟩, ⟨_, rfl⟩⟩

/-! #### A served load and a commit -/

def inv0 : Invocation := { rid := 0, serial := 77, first := 0, live := 0, retired := [], discarded := none, poisoned := 0 }
/-- A load of two bytes of memory by no invocation, and by invocation 3, whose held store precedes it. -/
def load (wid : Option Nat) : Req := { rid := 0, cell := 0, node := 0, lane := { tag := 1, ops := [(0, { value := 5, tag := 1, past := [77] })] }, wid := wid, op := .load, ty := .i16, da := .node 1 0, db := .out 3
                                       va := 0, loc := some 64, len := 2, phase := .issued, number := 6 }
def served (wid : Option Nat) : State := withHall (fun h => { h with invs := [(3, inv0)], hold := [{ inv := 3, addr := 65, data := [0x99], vf := 0, va := 0 }] })
  { scr (site [(0, running)]) with reqs := [load wid], input := .reply 6 .data, mem := [(64, 0x85), (65, 0x43)]
                                   pkg := { State.reset.pkg with hdm := [(0, (0, 2 ^ 39))] } }

theorem meets_LoadServed : ∀ w ∈ ([none, some 0] : List (Option Nat)), ∃ ps, (served w).input = .reply (load w).number .data ∧ trapWaiting (served w) = none ∧
    (served w).reqs.find? (fun x => x.number == (load w).number) = some (load w) ∧ mayServe (served w) (load w) = true ∧ (load w).phase ≠ .granule ∧ (load w).op = .load ∧ (load w).ty ≠ .tile ∧
    (load w).got = [] ∧ behindLane (served w) (load w) = false ∧ pieces (served w) (load w) .read 0 (load w).len = .ok ps ∧
    (∀ x ∈ pieceLines ps, pinnedByOther (served w) x (reqInv (served w) (load w)) = false) ∧ unreadable (served w) ps = none := by
  intro w hw
  rcases List.mem_cons.mp hw with rfl | hw
  · exact ⟨[(64, 0, 2)], rfl, rfl, rfl, rfl, by decide, rfl, by decide, rfl, rfl, rfl, by decide +kernel, rfl⟩
  · cases List.mem_singleton.mp hw
    exact ⟨[(64, 0, 2)], rfl, rfl, rfl, rfl, by decide, rfl, by decide, rfl, rfl, rfl, by decide +kernel, rfl⟩

/-- Stores of the invocation and of another, to memory, to a scratch of its hall, to one of another hall, and to the host's window. -/
def committing : State := withHall (fun h => { h with invs := [(3, inv0)], hold := [{ inv := 3, addr := 4, data := [7, 0, 9], vf := 0, va := 0 }, { inv := 3, addr := 5, data := [0, 0], vf := 0, va := 0 },
      { inv := 2, addr := 6, data := [1], vf := 0, va := 0 }, { inv := 3, addr := scratchAddr 0 62, data := [1, 2], vf := 0, va := 0 }] })
  { scr (site [(0, running)]) with input := .pair 0 3, mem := [(5, 1), (64, 0x85)] }

theorem meets_CommitWrites : committing.input = .pair 0 3 ∧ trapWaiting committing = none ∧ Memory.wf committing.mem = true ∧ 0 < committing.halls.length ∧ kget (hallAt committing 0).invs 3 = some inv0 ∧ inv0.live = 0 ∧
    inv0.discarded = none ∧ hallRuns (hallAt committing 0) = true ∧ (kget committing.regions 0).all (fun r => r.saved.isNone) = true ∧ commitBlocked committing 0 3 = false ∧
    (∀ q ∈ committing.reqs, q.phase ≠ .granule) ∧ committing.names = [] :=
  ⟨rfl, rfl, by decide +kernel, by decide, rfl, rfl, rfl, by decide +kernel, rfl, by decide +kernel, fun _ h => (by cases h), rfl⟩

/-! #### Steps -/

/-- Every move is the next one of some state that has power. -/
theorem moves (s : State) (m : Turn) (h : s.pkg.tripped = false) : moving { s with agenda := [m] } m (beginTurn { s with agenda := [m] } m []) := ⟨[], rfl, h, rfl⟩

/-- The word of `add.i32 #1.r -> n03.r`, of R284's `add.i32 w1, q0, q0`, and of `add a4, a4, #1`. -/
def nodeWord : Rec := word96 0x0100037F 0xE0000000 1
def placed (r : Rec) : State := placeRecord State.reset (bytesOfNat 4 (r.toNat / 2 ^ 64) ++ bytesOfNat 4 (r.toNat / 2 ^ 32) ++ bytesOfNat 4 r.toNat)
def seqWord : Rec := word96 0x41000777 0xC0000000 0
def cmdWord : Rec := word96 0x827C0840 0 1

def begun (s : State) (m : Turn) : State := beginTurn s m []
theorem meets_StepRunsDecoded_fire : ∃ d, moving (placed nodeWord) .fire (begun (placed nodeWord) .fire) ∧ nodeRecord (begun (placed nodeWord) .fire) = some nodeWord ∧ decode nodeWord = .ok d :=
  ⟨_, ⟨[], rfl, rfl, rfl⟩, by decide +kernel, rfl⟩
theorem meets_StepRunsDecoded_sequence : ∃ i f, moving (placed seqWord) (.qrec 0) (begun (placed seqWord) (.qrec 0)) ∧ seqRecord (begun (placed seqWord) (.qrec 0)) 0 = some seqWord ∧
    decode seqWord = .ok { instr := i, seq := some f } := ⟨_, _, ⟨[], rfl, rfl, rfl⟩, by decide +kernel, rfl⟩
theorem meets_StepRunsDecoded_command : ∃ r i, moving (placed cmdWord) (.cmd 0) (begun (placed cmdWord) (.cmd 0)) ∧ kget (begun (placed cmdWord) (.cmd 0)).regions 0 = some r ∧ sequencerFree r = true ∧
    commandAt r = some (cmdWord, true) ∧ recForm cmdWord = 2 ∧ decode cmdWord = .ok { instr := i } := ⟨_, _, ⟨[], rfl, rfl, rfl⟩, rfl, rfl, by decide +kernel, by decide +kernel, rfl⟩
/-- The service sequencer's record is the part's own (DESIGN CHOICE, log 6): where it is NOP's word, this is met. -/
theorem meets_StepRunsDecoded_service (h : Config.serviceRecord State.reset.service.service = word96 0x803C0000 0 0) :
    recForm (Config.serviceRecord (begun { State.reset with agenda := [.service] } .service).service.service) = 2 ∧
    decode (Config.serviceRecord (begun { State.reset with agenda := [.service] } .service).service.service) = .ok { instr := .nop } := by
  have e : (begun { State.reset with agenda := [.service] } .service).service.service = State.reset.service.service := rfl
  rw [e, h]; exact ⟨by decide +kernel, by decide +kernel⟩
theorem meets_StepRunsDecoded_issue : ∃ v, exec .cellIssue { begun { site0 with agenda := [.issue 0 0] } (.issue 0 0) with input := .pair 0 0 } = .next v := ⟨_, rfl⟩
theorem meets_StepRunsDecoded_event : isEvent .thermtrip = true := rfl

/-- A machine that tripped, with power-good next or another step. -/
def tripped (m : Turn) : State := { withPkg (fun p => { p with tripped := true }) State.reset with agenda := [m] }
theorem meets_PowerLossStops : (tripped .fire).pkg.tripped = true ∧ nextTurn (tripped .fire) = (.fire, []) ∧ nextTurn (tripped (.event .powerGood .absent)) = (.event .powerGood .absent, []) ∧
    (∀ x, Turn.fire ≠ .event .powerGood x) := ⟨rfl, rfl, rfl, fun _ h => (by cases h)⟩

/-- Reset with a step of the machine laid out meets the invariants, and the step is made. -/
theorem meets_StepKeepsInv : Sys2Proof.Machine.Inv (placed cmdWord) ∧ ∃ t, step (placed cmdWord) = .next t :=
  ⟨⟨rfl, rfl, rfl, rfl, rfl, rfl, rfl, rfl, trivial⟩, _, rfl⟩
theorem meets_LifeAndRegistrarGrow : ∃ t, step (placed cmdWord) = .next t := ⟨_, rfl⟩

/-- A record of each form that is well formed, and the words that hold them. -/
theorem meets_DecodeEncode : ({ instr := .add { node with da := .node 3 1, ls := .port1, lit := 1 } } : Decoded).wf = true ∧
    ({ instr := .addQ, seq := some { ty := .i32, md := 0, qd := .w 1, qa := .q 0, qb := .q 0, qc := .zr, last := false, im := 0 } } : Decoded).wf = true ∧
    ({ instr := .addCmd { cmd with d := 4, s := 4, imm := 1 } } : Decoded).wf = true ∧ (∃ d, decode nodeWord = .ok d) ∧ (∃ d, decode seqWord = .ok d) ∧ ∃ d, decode cmdWord = .ok d :=
  ⟨by decide +kernel, by decide +kernel, by decide +kernel, ⟨_, rfl⟩, ⟨_, rfl⟩, ⟨_, rfl⟩⟩

/-- From reset, the first step of a placed record runs it: ADD writes a4, and MUL's word is fetched as MUL. -/
theorem test_step_add : (match step (placed cmdWord) with | .next t => (kget t.regions 0).map (fun r => (r.seq.get 4, r.seq.index)) | _ => none) = some (1, 1) := by decide +kernel
theorem test_decodeTableWord : decodeTableWord 96 (leNat (bytesOfNat 4 0x0180013F ++ bytesOfNat 4 0xE0000000 ++ bytesOfNat 4 3)) =
    some (.mul { node with da := .node 1 0, ls := .port1, lit := 3 }) := by decide +kernel

end Whole

end Sys2Proof.Tests
end

/-! PROOFS. The statements about the whole machine: what reset meets and what every step keeps. -/
namespace Sys2Proof.Machine

/-! ### What no step breaks -/

/-- A property of the machine that nothing within a step breaks: neither a change of the state, nor naming the issuer or the input of a
move, nor the time between two moves. -/
structure Durable (P : State → Prop) : Prop where
  change : ∀ (e : Effect) {s : State}, P s → P (e.apply s)
  who : ∀ (k : Nat) {s : State}, P s → P { s with who := k }
  input : ∀ (x : Input) {s : State}, P s → P { s with input := x }
  time : ∀ (t : Turn) (rest : List Turn) {s : State}, P s → P (beginTurn s t rest)

/-- The state that an outcome answers, where it answers one, has a property. -/
def Answers (P : State → Prop) (o : Host.Outcome State Fault Refusal) : Prop := ∀ t, o = .next t → P t

theorem Answers.next {P : State → Prop} {s : State} (h : P s) : Answers P (.next s) := by
  rintro t ⟨⟩
  exact h

theorem Answers.fault (P : State → Prop) (r : Fault) : Answers P (.fault r) := by
  rintro t ⟨⟩

/-- The step of an illegal record, too, comes from a list of changes: those that take its trap (R416). -/
theorem illegalRecord_lists (s : State) : Lists s (illegalRecord s) := runM_lists _ _ _

namespace Durable

variable {P : State → Prop} {s : State} (hP : Durable P) (hs : P s)
include hP hs

theorem keeps_applyAll : ∀ l : List Effect, P (applyAll s l)
  | [] => hs
  | e :: l => hP.change e (keeps_applyAll l)

theorem answers_of_lists {o : Host.Outcome State Fault Refusal} (h : Lists s o) : Answers P o := by
  obtain ⟨l, rfl⟩ := h
  exact .next (hP.keeps_applyAll hs l)

theorem answers_exec (i : Instr) : Answers P (exec i s) := hP.answers_of_lists hs (exec_lists i s)

theorem answers_illegalRecord : Answers P (illegalRecord s) := hP.answers_of_lists hs (illegalRecord_lists s)

theorem answers_stepFire : Answers P (stepFire s) := by
  unfold stepFire
  split
  · exact hP.answers_exec hs _
  · exact .next (hP.change (.issue none) hs)

theorem answers_stepSeq (k : Nat) : Answers P (stepSeq k s) := by
  unfold stepSeq
  split
  · exact .next hs
  · split
    · exact hP.answers_exec (hP.change (.seqNow _) hs) _
    · exact .next hs

theorem answers_stepRecord (r : Rec) (placed : Bool) : Answers P (stepRecord r placed s) := by
  unfold stepRecord
  split
  · split
    · exact hP.answers_exec hs _
    · exact hP.answers_illegalRecord hs
  · exact hP.answers_illegalRecord hs

/-- A cell's issue is two instructions in one step: CELL_ISSUE, and the record of the node that it latched (log 1). -/
theorem answers_issue (hall cell : Nat) : Answers P (stepTurn (.issue hall cell) s) := by
  have hissue := hP.answers_exec (hP.input (.pair hall cell) hs) .cellIssue
  simp only [stepTurn]
  split
  · next u hu =>
    split
    · exact hP.answers_stepFire (hissue u hu)
    · exact .next (hissue u hu)
  · exact hissue

theorem answers_cmd (rid : Nat) : Answers P (stepTurn (.cmd rid) s) := by
  have hwho : P { s with who := rid } := hP.who rid hs
  simp only [stepTurn]
  split
  · exact .next hs
  · split
    · split
      · exact hP.answers_stepRecord hwho _ _
      · exact hP.answers_illegalRecord hwho
    · exact .next hs

theorem answers_event (i : Instr) (x : Input) : Answers P (stepTurn (.event i x) s) := by
  simp only [stepTurn]
  split
  · exact hP.answers_exec (hP.input x hs) i
  · exact .next hs

theorem answers_stepTurn (t : Turn) : Answers P (stepTurn t s) := by
  cases t with
  | fire => exact hP.answers_stepFire hs
  | issue hall cell => exact hP.answers_issue hs hall cell
  | qrec k => exact hP.answers_stepSeq hs k
  | cmd rid => exact hP.answers_cmd hs rid
  | service => exact hP.answers_stepRecord (hP.who serviceRid hs) _ true
  | event i x => exact hP.answers_event hs i x

/-- A durable property outlives every step: the next move is made in the state that the time has brought, or the tripped machine stops. -/
theorem answers_step : Answers P (step s) := by
  have hmove (t : Turn) (rest : List Turn) : Answers P (stepTurn t (beginTurn s t rest)) := hP.answers_stepTurn (hP.time t rest hs) t
  unfold step
  split
  split
  · exact hmove _ _
  · exact .fault P _
  · exact hmove _ _

end Durable

/-! ### The invariants -/

/-- The time between two moves only counts in the halls, so it keeps the invariants. -/
theorem beginTurn_inv {s : State} (t : Turn) (rest : List Turn) (h : Inv s) : Inv (beginTurn s t rest) where
  mem := h.mem
  full := h.full
  marks := h.marks
  regions := h.regions
  wings := h.wings
  vfs := h.vfs
  chans := h.chans
  halls := (beginTurn_halls_length s t rest).trans h.halls
  chain := h.chain

/-- The invariants speak of storage alone, and every change of it keeps them. -/
theorem durable_inv : Durable Inv where
  change e _ h := e.apply_inv h
  who _ _ h := { h with }
  input _ _ h := { h with }
  time t rest _ h := beginTurn_inv t rest h

/-- Settles O54: storage is empty at reset, the 64 halls are there, and the registrar has no entry. -/
theorem resetMeetsInv : Obligations.ResetMeetsInv where
  mem := rfl
  full := rfl
  marks := rfl
  regions := rfl
  wings := rfl
  vfs := rfl
  chans := rfl
  halls := List.length_replicate
  chain := trivial

/-- Settles O55: every move is a list of changes (`exec_lists`), and the invariants are durable (`Effect.apply_inv`). -/
theorem stepKeepsInv : Obligations.StepKeepsInv := by
  intro s t hs hstep
  exact durable_inv.answers_step hs t hstep

end Sys2Proof.Machine

/-! PROOFS. What reset leaves, by the specification's reset columns. -/
namespace Sys2Proof.Machine
open Sys2Proof.Claims

/-- A hall at power-on: in no wing, gated, with its ports closed, and VTUSE with way 15's code alone (R26, R109). -/
theorem reset_hall {h : Nat} (hh : h < 64) : ∃ x : Hall, State.reset.halls[h]? = some x ∧ x.wing = none ∧ x.powered = false ∧
    x.portsOpen = false ∧ x.released = false ∧ ∀ tile < 12, x.vtuse[tile]? = some ((if tile < 8 then 14 else 15) * 2 ^ 60) := by
  refine ⟨Hall.reset, List.getElem?_replicate_of_lt hh, rfl, rfl, rfl, rfl, fun tile ht => ?_⟩
  show ((List.range 12).map vtuseReset)[tile]? = _
  rw [List.getElem?_map, List.getElem?_range ht]
  rfl

/-- The physical function's registers after reset: 0, but for PTMO (R435). -/
theorem reset_pfRegister : (∀ o ∈ [0x100, 0x108, 0x110, 0x118, 0x120, 0x130], readPfRegister State.reset o = 0) ∧
    readPfRegister State.reset 0x128 = 0x64 := by
  decide +kernel

/-- A function that nothing has bound or written reads 0 (R212). -/
theorem reset_vfRegister (vf : Nat) : ∀ o ∈ [0x00, 0x08, 0x10, 0x18, 0x20, 0x30], readVfRegister State.reset vf o = 0 := by
  have hv : vfAt State.reset vf = {} := rfl
  simp [readVfRegister, hv]

/-- Settles O53: each of reset's values is the one that its rule's reset column gives. -/
theorem resetValues : Obligations.ResetValues :=
  ⟨fun _ hh => reset_hall hh, reset_pfRegister.1, reset_pfRegister.2, reset_vfRegister, by decide, rfl, rfl⟩

end Sys2Proof.Machine

/-! PROOFS. The plinth commands: CLAIM, RELEASE, MX.CFG, MX.ROUTE, MX.GO and MX.STOP. -/
namespace Sys2Proof.Machine
open Sys2Proof.Claims

variable {s t u : State} {r : Region} {f : CmdRec}

/-! ### Fields of words -/

/-- A field of a word, as a number. -/
theorem bits_toNat {n : Nat} (v : BitVec n) (i w : Nat) : bits v.toNat i w = (v.extractLsb' i w).toNat := by
  rw [BitVec.extractLsb'_toNat, Nat.shiftRight_eq_div_pow, bits]

/-- A field is the number 0 where its bits are. -/
theorem bits_eq_zero {n : Nat} {v : BitVec n} {i w : Nat} (h : v.extractLsb' i w = 0) : bits v.toNat i w = 0 := by
  rw [bits_toNat, h]; rfl

/-- A field of one bit, as a truth value. -/
theorem bits_one {n : Nat} (v : BitVec n) (i : Nat) : (bits v.toNat i 1 == 1) = v.getLsbD i := by
  rw [BitVec.getLsbD, Nat.testBit_eq_decide_div_mod_eq]; rfl

theorem maskSlots_eq (f : CmdRec) : maskSlots f = slotsOf f := by
  simp only [maskSlots, slotsOf, bits_one]

/-- A reference in its own form passes its check (R299). -/
theorem checkRef_reaches {v : BitVec 64} (h : refOk v) (s : State) : Reaches (checkRef v.toNat) s () s := by
  obtain ⟨h8, hhigh, hmid⟩ := h
  have hc : ¬ (bits v.toNat 48 16 ≠ 0 ∨ bits v.toNat 32 8 ≠ 0 ∨ v.toNat % 8 ≠ 0) := by
    simp [bits_eq_zero hhigh, bits_eq_zero hmid, h8]
  rw [checkRef, if_neg hc]
  exact Reaches.pure () s

/-! ### What a region's command reads and changes -/

theorem myRegion_reaches (hr : kget s.regions s.who = some r) : Reaches myRegion s (s.who, r) s := by
  refine (Reaches.get s).bind ?_
  rw [hr]
  exact Reaches.pure _ s

theorem home_reaches (hr : kget s.regions s.who = some r) :
    Reaches home s { hall := r.hall, vf := r.vf, ctx := r.ctx, wing := r.wing } s := by
  refine (Reaches.get s).bind ?_
  rw [hr]
  exact Reaches.pure _ s

theorem modHall_reaches (k : Nat) (g : Hall → Hall) (s : State) : Reaches (modHall k g) s () (onHall k g s) :=
  (Reaches.get s).bind (Reaches.eff _ s)

/-- A command that cannot go on has no effect, and waits (R297). -/
theorem commandTrap_stall (s : State) : Reaches (commandTrap { code := stallCode }) s () (waits s) := by
  refine (Reaches.get s).bind ?_
  rw [if_pos rfl]
  exact waitHere_reaches s

theorem stall_raises {α : Type} (s : State) : Raises (stall : M α) s { code := stallCode } := Raises.trap _ s

/-- A region's command that stalls waits, and nothing else changes. -/
theorem command_stall {place : Where} {h : Bool} {body : M Next} (hi : RegionIssues s r h) (hp : place ≠ .privileged)
    (hb : Raises body s { code := stallCode }) : runCommand place h body s = .next (waits s) :=
  command_fault hi hp hb (commandTrap_stall s)

/-! ### A plinth of the issuer -/

theorem plinthNo_reaches (h : f.imm.toNat % 4 ≠ 3) (s : State) : Reaches (plinthNo f) s (f.imm.toNat % 4) s := by
  rw [plinthNo, if_neg h]
  exact Reaches.pure _ s

/-- The plinth of a command of its holder. -/
theorem myPlinth_reaches (hr : kget s.regions s.who = some r) (h : f.imm.toNat % 4 ≠ 3) (hp : (plinthOf s r f).holder = some s.who) :
    Reaches (myPlinth f) s (f.imm.toNat % 4, s.who, r, plinthOf s r f) s := by
  refine (myRegion_reaches hr).bind ((plinthNo_reaches h s).bind ((Reaches.get s).bind ?_))
  exact (if_pos hp).symm ▸ Reaches.pure _ s

theorem modPlinth_reaches (r : Region) (k : Nat) (g : Plinth → Plinth) (s : State) :
    Reaches (modPlinth r.hall k g) s () (withPlinth s r k (g (plinthAt s r.hall k))) := by
  refine (modHall_reaches _ _ s).congr ?_
  unfold onHall withPlinth plinthAt
  cases hp : (hallAt s r.hall).plinths[k]? with
  | some p => simp only [hp, Option.getD_some]
  | none => simp only [hp, List.set_eq_of_length_le (List.getElem?_eq_none_iff.mp hp)]

/-- A changed plinth raises no trap. -/
@[simp] theorem trapWaiting_withPlinth (s : State) (r : Region) (k : Nat) (p : Plinth) :
    trapWaiting (withPlinth s r k p) = trapWaiting s := rfl

/-! ### CLAIM and RELEASE (R360) -/

/-- CLAIM: all or nothing, and it waits while a slot that it names is being zeroed. -/
theorem execClaim_next (hi : RegionIssues s r false) (h3 : f.imm.toNat % 4 ≠ 3) :
    execClaim f s = .next (
      if claimOk s s.who r.hall (f.imm.toNat % 4) (f.imm.getLsbD 2) (slotsOf f) (plinthOf s r f) = false then goOn (setA s f.d 0)
      else if (slotsOf f).any (plinthOf s r f).zeroing.contains then waits s
      else goOn (setA (withPlinth s r (f.imm.toNat % 4) (claimed (plinthOf s r f) s.who (f.imm.getLsbD 2) (slotsOf f))) f.d 1)) := by
  have ⟨_, hr, hq, _⟩ := hi
  unfold plinthOf
  by_cases hok : claimOk s s.who r.hall (f.imm.toNat % 4) (f.imm.getLsbD 2) (slotsOf f) (plinthAt s r.hall (f.imm.toNat % 4)) = false
  · rw [if_pos hok]
    refine command_region (n := .done) (t := setA s f.d 0) hi (by decide) ?_ (setA_quiet _ _ hq)
    refine (myRegion_reaches hr).bind ((plinthNo_reaches h3 s).bind ((Reaches.get s).bind ?_))
    simp only [bits_one, maskSlots_eq, hok, Bool.not_false, if_true]
    exact (setReg_reaches f.d 0 s).bind (Reaches.pure _ _)
  · rw [if_neg hok]
    rw [Bool.not_eq_false] at hok
    split
    next hz =>
      refine command_stall hi (by decide) ?_
      refine (myRegion_reaches hr).raises ((plinthNo_reaches h3 s).raises ((Reaches.get s).raises ?_))
      simp only [bits_one, maskSlots_eq, hok, hz, Bool.not_true, Bool.false_eq_true, if_false, if_true]
      exact stall_raises s
    next hz =>
      refine command_region (n := .done) hi (by decide) ?_ (setA_quiet _ _ (by rw [trapWaiting_withPlinth]; exact hq))
      refine (myRegion_reaches hr).bind ((plinthNo_reaches h3 s).bind ((Reaches.get s).bind ?_))
      simp only [bits_one, maskSlots_eq, hok, hz, Bool.not_true, Bool.false_eq_true, if_false]
      refine ((modPlinth_reaches r _ _ s).congr ?_).bind ((setReg_reaches f.d 1 _).bind (Reaches.pure _ _))
      congr 1
      unfold claimed
      split <;> simp only [*]

/-- RELEASE: of what it names, what the region holds (R22). -/
theorem execRelease_next (hi : RegionIssues s r false) (h3 : f.imm.toNat % 4 ≠ 3) :
    execRelease f s = .next (goOn (withPlinth s r (f.imm.toNat % 4) (released (plinthOf s r f) s.who f))) := by
  have ⟨_, hr, hq, _⟩ := hi
  refine command_region (n := .done) hi (by decide) ?_ hq
  refine (myRegion_reaches hr).bind ((plinthNo_reaches h3 s).bind (((modPlinth_reaches r _ _ s).congr ?_).bind (Reaches.pure _ _)))
  congr 1
  simp only [bits_one, maskSlots_eq, released, releaseSlots, plinthOf]
  split <;> simp only [*] <;> rfl

/-! ### MX.CFG, MX.ROUTE, MX.GO and MX.STOP (R361 to R363, R368) -/

/-- MX.CFG sets the configuration of a plinth without rows (R362). -/
theorem execMxCfg_next (hi : RegionIssues s r false) (h3 : f.imm.toNat % 4 ≠ 3) (hp : (plinthOf s r f).holder = some s.who)
    (hrows : (plinthOf s r f).rows = []) (hlo : 7 ≤ f.imm.toNat / 4 % 16) (hhi : f.imm.toNat / 4 % 16 ≤ 10) :
    execMxCfg f s = .next (goOn (withPlinth s r (f.imm.toNat % 4) { plinthOf s r f with cfg := some (configOf f) })) := by
  have ⟨_, hr, hq, _⟩ := hi
  have hfmt : ¬ (f.imm.toNat / 4 % 16 < 7 ∨ 10 < f.imm.toNat / 4 % 16) := by omega
  refine command_region (n := .done) hi (by decide) ?_ hq
  refine (myPlinth_reaches hr h3 hp).bind ?_
  simp only [hrows, List.isEmpty_nil, Bool.not_true, Bool.false_eq_true, if_false, bits, Nat.reducePow, hfmt]
  refine ((modPlinth_reaches r _ _ s).congr ?_).bind (Reaches.pure _ _)
  simp only [← bits_one, configOf, plinthOf, bits, Nat.reducePow]
  rw [← hrows, plinthOf]

/-- MX.ROUTE sets an entry of the region's route table (R368). -/
theorem execMxRoute_next (hi : RegionIssues s r false) (hv : areg s f.s < 65536) :
    execMxRoute f s = .next (goOn (onRegion s.who (fun r => { r with routes := kset r.routes (f.imm.toNat % 8) (areg s f.s).toNat }) s)) := by
  have ⟨_, hr, hq, _⟩ := hi
  have hlt : ¬ 2 ^ 16 ≤ (areg s f.s).toNat := by
    have : (areg s f.s).toNat < 65536 := hv
    omega
  refine command_region (n := .done) hi (by decide) ?_ (onRegion_quiet _ (fun _ => rfl) (fun _ => rfl) (fun _ => rfl) (fun _ => rfl) hq)
  refine (myRegion_reaches hr).bind ((reg_reaches f.s s).bind ?_)
  rw [if_neg hlt]
  exact (onRegion_reaches _ _ s).bind (Reaches.pure _ _)

/-- MX.GO arms the drain target of a plinth whose configuration keeps its rows (R363). -/
theorem execMxGo_next (hi : RegionIssues s r false) (h3 : f.imm.toNat % 4 ≠ 3) (hp : (plinthOf s r f).holder = some s.who)
    (href : refOk (areg s f.s)) (hres : (areg s f.t).extractLsb' 56 8 = 0) (hal : (areg s f.t).toNat % 16 = 0)
    (hkeep : (plinthOf s r f).cfg.any (·.keep) = true) :
    execMxGo f s = .next (goOn (withPlinth s r (f.imm.toNat % 4) { plinthOf s r f with drain := some (drainArmed s f) })) := by
  have ⟨_, hr, hq, _⟩ := hi
  have ht : ¬ (bits (areg s f.t).toNat 56 8 ≠ 0 ∨ (areg s f.t).toNat % 16 ≠ 0) := by simp [bits_eq_zero hres, hal]
  refine command_region (n := .done) hi (by decide) ?_ hq
  refine (myPlinth_reaches hr h3 hp).bind ((reg_reaches f.s s).bind ((reg_reaches f.t s).bind ((checkRef_reaches href s).bind ?_)))
  simp only [ht, hkeep, Bool.not_true, Bool.false_eq_true, if_false]
  refine ((modPlinth_reaches r _ _ s).congr ?_).bind (Reaches.pure _ _)
  simp only [bits_one, drainArmed, plinthOf, ← bits_toNat]

/-- MX.STOP waits for the writes of the plinth's drain target, and disarms it (R363). -/
theorem execMxStop_next (hi : RegionIssues s r false) (h3 : f.imm.toNat % 4 ≠ 3) (hp : (plinthOf s r f).holder = some s.who) :
    execMxStop f s = .next (
      if s.reqs.any (fun q => q.rid == s.who && (match q.op with | .drain j _ _ => j == f.imm.toNat % 4 | _ => false)) then waits s
      else goOn (withPlinth s r (f.imm.toNat % 4)
        { plinthOf s r f with drain := none, rows := if f.imm.getLsbD 2 then [] else (plinthOf s r f).rows })) := by
  have ⟨_, hr, hq, _⟩ := hi
  split
  next hw =>
    refine command_stall hi (by decide) ?_
    refine (myPlinth_reaches hr h3 hp).raises ((Reaches.get s).raises ?_)
    exact (if_pos hw).symm ▸ stall_raises s
  next hw =>
    refine command_region (n := .done) hi (by decide) ?_ hq
    refine (myPlinth_reaches hr h3 hp).bind ((Reaches.get s).bind ?_)
    refine (if_neg hw).symm ▸ ((modPlinth_reaches r _ _ s).congr ?_).bind (Reaches.pure _ _)
    simp only [← bits_one, beq_iff_eq, plinthOf]

end Sys2Proof.Machine

/-! PROOFS. Reads that leave only copies of lines and translations behind, and accesses made piece by piece (R105, R111, R127). -/
namespace Sys2Proof.Machine
open Sys2Proof.Claims

variable {s t u : State} {r : Region}

/-! ### What a read may leave -/

/-- Each hall has what it had, but for copies of lines and translations. -/
theorem ReadOnly.hall (h : ReadOnly s t) (k : Nat) :
    hallAt t k = { hallAt s k with tlb := (hallAt t k).tlb, cache := (hallAt t k).cache } := by
  obtain ⟨n, hs, rfl, hlen, hhall⟩ := h
  simp only [hallAt]
  cases ex : s.halls[k]? with
  | none =>
    rw [List.getElem?_eq_none_iff, ← hlen, ← List.getElem?_eq_none_iff] at ex
    rw [ex]
  | some x =>
    have hk : k < hs.length := hlen ▸ (List.getElem?_eq_some_iff.mp ex).1
    rw [List.getElem?_eq_getElem hk]
    exact hhall k x _ ex (List.getElem?_eq_getElem hk)

theorem ReadOnly.regions (h : ReadOnly s t) : t.regions = s.regions := by obtain ⟨_, _, rfl, _⟩ := h; rfl
theorem ReadOnly.vfs (h : ReadOnly s t) : t.vfs = s.vfs := by obtain ⟨_, _, rfl, _⟩ := h; rfl
theorem ReadOnly.who (h : ReadOnly s t) : t.who = s.who := by obtain ⟨_, _, rfl, _⟩ := h; rfl
theorem ReadOnly.service (h : ReadOnly s t) : t.service = s.service := by obtain ⟨_, _, rfl, _⟩ := h; rfl
theorem ReadOnly.issuer (h : ReadOnly s t) : issuer t = issuer s := by obtain ⟨_, _, rfl, _⟩ := h; rfl
theorem ReadOnly.quiet (h : ReadOnly s t) (hq : trapWaiting s = none) : trapWaiting t = none := by
  unfold trapWaiting at *; rwa [h.regions]

/-! ### Actions that answer on every state and keep a part of it -/

section
variable {β : Type} {g : State → β} {m k : M Unit}

/-- An action that answers on every state, and keeps `g` of it. -/
def Keeps (g : State → β) (m : M Unit) : Prop := ∀ s, ∃ t, Reaches m s () t ∧ g t = g s

theorem Keeps.pure : Keeps g (pure ()) := fun s => ⟨s, Reaches.pure () s, rfl⟩

theorem Keeps.eff {e : Effect} (h : ∀ s, g (e.apply s) = g s) : Keeps g (eff e) := fun s => ⟨_, Reaches.eff e s, h s⟩

theorem Keeps.get {f : State → M Unit} (h : ∀ s, Keeps g (f s)) : Keeps g (get' >>= f) := fun s => by
  obtain ⟨t, hf, ht⟩ := h s s
  exact ⟨t, (Reaches.get s).bind hf, ht⟩

theorem Keeps.bind (h : Keeps g m) (hk : Keeps g k) : Keeps g (m >>= fun _ => k) := fun s => by
  obtain ⟨t, hm, ht⟩ := h s
  obtain ⟨u, hf, hu⟩ := hk t
  exact ⟨u, hm.bind hf, hu.trans ht⟩

theorem Keeps.each {α : Type} {f : α → M Unit} : ∀ l, (∀ a ∈ l, Keeps g (f a)) → Keeps g (each l f)
  | [], _ => Keeps.pure
  | a :: l, h => (h a (by simp)).bind (Keeps.each l fun b hb => h b (by simp [hb]))

theorem Keeps.whenM (h : Keeps g m) : ∀ c, Keeps g (whenM c m)
  | true => h
  | false => Keeps.pure

end

/-! ### Reads (R111, R126) -/

theorem fresh_reaches (s : State) : Reaches fresh s s.tick { s with tick := s.tick + 1 } :=
  (Reaches.get s).bind ((Reaches.eff .bump s).bind (Reaches.pure s.tick _))

/-- A state without what a read may change: copies of lines and translations, and the count of free values. -/
def withoutCopies (s : State) : State := { s with tick := 0, halls := s.halls.map (fun h => { h with tlb := [], cache := [] }) }

/-- The states with the same such rest are those that reads may lead to. -/
theorem readOnly_of_withoutCopies (h : withoutCopies t = withoutCopies s) : ReadOnly s t := by
  have hhalls : t.halls.map (fun h => { h with tlb := [], cache := [] }) = s.halls.map (fun h => { h with tlb := [], cache := [] }) :=
    congrArg State.halls h
  refine ⟨t.tick, t.halls, ?_, by simpa using congrArg List.length hhalls, fun k x y ex ey => ?_⟩
  · calc t = { withoutCopies t with tick := t.tick, halls := t.halls } := rfl
      _ = { withoutCopies s with tick := t.tick, halls := t.halls } := by rw [h]
  · have hk := congrArg (·[k]?) hhalls
    simp only [List.getElem?_map, ex, ey, Option.map_some, Option.some.injEq] at hk
    calc y = { ({ y with tlb := [], cache := [] } : Hall) with tlb := y.tlb, cache := y.cache } := rfl
      _ = { x with tlb := y.tlb, cache := y.cache } := by rw [hk]

theorem Keeps.fresh {f : Nat → M Unit} (h : ∀ n, Keeps withoutCopies (f n)) : Keeps withoutCopies (fresh >>= f) := fun s => by
  obtain ⟨t, hf, ht⟩ := h s.tick { s with tick := s.tick + 1 }
  exact ⟨t, (fresh_reaches s).bind hf, ht⟩

/-- A change of a hall's copies and translations. -/
theorem Keeps.modHall (k : Nat) {g : Hall → Hall} (h : ∀ x, { g x with tlb := [], cache := [] } = { x with tlb := [], cache := [] }) :
    Keeps withoutCopies (modHall k g) := fun s => by
  refine ⟨_, modHall_reaches k g s, ?_⟩
  simp only [withoutCopies, onHall, List.map_set, h]
  congr 1
  cases e : s.halls[k]? with
  | none => rw [List.set_eq_of_length_le (by simpa using e)]
  | some x =>
    have hk : (s.halls.map (fun h => { h with tlb := [], cache := [] }))[k]? = some { hallAt s k with tlb := [], cache := [] } := by
      rw [List.getElem?_map, hallAt, e]; rfl
    obtain ⟨_, hget⟩ := List.getElem?_eq_some_iff.mp hk
    rw [← hget, List.set_getElem_self]

/-- A line that comes into a hall's vault makes room among the copies alone (R119). -/
theorem allocate_keeps (hall : Nat) (k : Option Nat) (a : Nat) (m : Mesi) : Keeps withoutCopies (allocate hall k a m) := by
  refine Keeps.get fun s => ?_
  dsimp only
  split
  · exact .modHall _ fun _ => rfl
  · refine .fresh fun n => ?_
    split
    · exact .pure
    · exact .modHall _ fun _ => rfl

/-- A read changes copies of lines alone (R111). -/
theorem cacheRead_keeps (hall vf va a : Nat) : Keeps withoutCopies (cacheRead hall vf va a) := by
  refine Keeps.get fun s => ?_
  split
  · refine .bind (.each _ fun k _ => .modHall k fun x => ?_) (allocate_keeps _ _ _ _)
    split <;> rfl
  · exact .pure

/-- Bytes that can be taken are read, and copies of their lines stay (R126, R134, R438). -/
theorem readAt_reaches {hall a n : Nat} (vf va : Nat) (ht : takeable s hall a n) (hp : poisoned s a n = false) :
    ∃ u, ReadOnly s u ∧ Reaches (readAt hall vf va a n) s (readBytes s.mem a n) u := by
  obtain ⟨hans, hpins, hrow⟩ := ht
  have hpin : (linesOf a n).any (fun x => pinnedByOther s x none) = false := List.any_eq_false.mpr fun x hx => by simp [hpins x hx]
  have hlines : Keeps withoutCopies (each (linesOf a n) (fun l => if isScratch l then pure () else cacheRead hall vf (va + l - a) l)) := by
    refine .each _ fun l _ => ?_
    split
    · exact .pure
    · exact cacheRead_keeps _ _ _ _
  obtain ⟨u, hu, hro⟩ := hlines s
  refine ⟨u, readOnly_of_withoutCopies hro, (Reaches.get s).bind ?_⟩
  simp only [hans, hpin, hrow, hp, Bool.or_self, Bool.false_eq_true, if_false]
  exact hu.bind (Reaches.pure _ _)

/-! ### Where an access lies -/

/-- A page that the translation cache holds with the right is at hand (R104, R105). -/
theorem locateNow_held {hall vf va pa : Nat} {right : Right} {e : TlbEntry} (h : tlbLookup s hall vf va = some (pa, e))
    (hg : pageGrants e.write e.atomic right = true) : Reaches (locateNow hall vf va right) s pa s := by
  refine (Reaches.get s).bind ?_
  simp only [h, hg, if_true]
  exact Reaches.pure _ s

theorem findPage_held {hall vf va pa : Nat} {right : Right} {e : TlbEntry} (walk : Option (Nat × Nat))
    (h : tlbLookup s hall vf va = some (pa, e)) (hg : pageGrants e.write e.atomic right = true) :
    Reaches (findPage hall vf va right walk) s (.ok pa) s := by
  refine (Reaches.get s).bind ?_
  simp only [h, Option.isSome_some, Bool.true_or, if_true]
  exact (locateNow_held h hg).bind (Reaches.pure _ s)

/-- R101's checks pass where no code is due (R431). -/
theorem checkAccess_ok {b : Buffer} {right : Right} {off len align : Nat} (h : accessCode (some b) right off len align false = none) :
    checkAccess (some b) right off len align = .ok (b.scratch, b.base + off) := by
  simp only [accessCode] at h
  split at h
  · cases h
  · split at h
    · cases h
    · split at h
      · cases h
      · next h1 h2 h3 => simp [checkAccess, h1, h2, h3]

/-! ### Accesses piece by piece (R105, R127) -/

section
variable {α β : Type} {m : Pieces α} {p p' : Progress} {a : α} {w : Pause}

/-- An access goes through what has performed, with no effect, and answers; `p'` is what it has not gone through. -/
def Performed (m : Pieces α) (s : State) (p : Progress) (a : α) (p' : Progress) : Prop := Reaches (m.run.run p) s (.ok a, p') s

/-- An access stops at its next piece, or at a walk. -/
def Stops (m : Pieces α) (s : State) (p : Progress) (w : Pause) (t : State) : Prop := ∃ p', Reaches (m.run.run p) s (.error w, p') t

theorem Performed.pure (a : α) (s : State) (p : Progress) : Performed (pure a : Pieces α) s p a p := Reaches.pure _ s

/-- An access in two parts goes on with the second where the first has answered. -/
theorem Pieces.bind_run (m : Pieces α) (f : α → Pieces β) (p : Progress) : (m >>= f).run.run p =
    m.run.run p >>= fun x => match x.1 with | .ok a => (f a).run.run x.2 | .error w => pure (.error w, x.2) := by
  show (m.run.run p >>= fun x => (ExceptT.bindCont f x.1).run x.2) = _
  congr 1
  funext x
  obtain ⟨e, q⟩ := x
  cases e <;> rfl

theorem Performed.bind {f : α → Pieces β} {b : β} {q : Progress} (h : Performed m s p a p') (k : Performed (f a) s p' b q) :
    Performed (m >>= f) s p b q := by
  rw [Performed, Pieces.bind_run]
  exact Reaches.bind h k

theorem Performed.stops {f : α → Pieces β} (h : Performed m s p a p') (k : Stops (f a) s p' w t) : Stops (m >>= f) s p w t := by
  obtain ⟨q, k⟩ := k
  exact ⟨q, Pieces.bind_run m f p ▸ Reaches.bind h k⟩

theorem Stops.first {f : α → Pieces β} (h : Stops m s p w t) : Stops (m >>= f) s p w t := by
  obtain ⟨q, h⟩ := h
  exact ⟨q, Pieces.bind_run m f p ▸ Reaches.bind h (Reaches.pure _ t)⟩

theorem stepPieces_performed (h : Performed m s p a p') : Reaches (stepPieces p m) s (.ok a) s := Reaches.bind h (Reaches.pure _ s)

theorem stepPieces_stops {bs : List Byte} (h : Stops m s p (.piece bs) t) :
    Reaches (stepPieces p m) s (.error { got := p.got ++ [bs] }) t := by
  obtain ⟨q, h⟩ := h
  exact Reaches.bind h (Reaches.pure _ t)

end

/-- A piece that has performed gives what it gave. -/
theorem piece_performed {hall vf va : Nat} {scr : Option Nat} {right : Right} {act : Nat → M (List Byte)} {p : Progress} {bs : List Byte}
    {rest : List (List Byte)} (h : p.got = bs :: rest) : Performed (piece hall vf scr va right act) s p bs { p with got := rest } := by
  unfold Performed piece
  show Reaches (match p.got with | bs :: rest => _ | [] => _) s _ s
  rw [h]
  exact Reaches.pure _ s

/-- The piece that an access comes to lies at `a`: in scratch, or on a page that the translation cache holds with the right. -/
def PieceAt (s : State) (hall vf : Nat) (scr : Option Nat) (va : Nat) (right : Right) (a : Nat) : Prop :=
  match scr with
  | some h => a = scratchAddr h va
  | none => ∃ e, tlbLookup s hall vf va = some (a, e) ∧ pageGrants e.write e.atomic right = true

/-- The next piece performs, and the access stops there. -/
theorem piece_stops {hall vf va a : Nat} {scr : Option Nat} {right : Right} {act : Nat → M (List Byte)} {p : Progress} {bs : List Byte}
    (hg : p.got = []) (ha : PieceAt s hall vf scr va right a) (h : Reaches (act a) s bs t) :
    Stops (piece hall vf scr va right act) s p (.piece bs) t := by
  refine ⟨p, ?_⟩
  unfold piece
  show Reaches (match p.got with | bs :: rest => _ | [] => _) s _ t
  rw [hg]
  cases scr with
  | some k =>
    obtain rfl : a = scratchAddr k va := ha
    exact h.bind (Reaches.pure _ t)
  | none =>
    obtain ⟨e, he, hr⟩ := ha
    exact (findPage_held p.walk he hr).bind (h.bind (Reaches.pure _ t))

/-- Pieces that have all performed. -/
theorem mapM_performed {α : Type} {g : α → Pieces (List Byte)}
    (hg : ∀ x p bs rest, p.got = bs :: rest → Performed (g x) s p bs { p with got := rest }) :
    ∀ (l : List α) (p : Progress), l.length ≤ p.got.length →
      Performed (l.mapM g) s p (p.got.take l.length) { p with got := p.got.drop l.length }
  | [], p, _ => by simpa using Performed.pure [] s p
  | x :: l, p, h => by
    obtain ⟨got, walk⟩ := p
    cases got with
    | nil => simp at h
    | cons bs rest =>
      rw [List.mapM_cons]
      have htail := mapM_performed hg l { got := rest, walk := walk } (by simpa using h)
      exact (hg x _ bs rest rfl).bind (htail.bind (Performed.pure _ s _))

/-- Pieces of which the first ones have performed: the next performs, and the access stops there. -/
theorem mapM_stops {α : Type} {g : α → Pieces (List Byte)} {x : α} {w : Pause}
    (hg : ∀ x p bs rest, p.got = bs :: rest → Performed (g x) s p bs { p with got := rest })
    (hx : ∀ p : Progress, p.got = [] → Stops (g x) s p w t) :
    ∀ (l : List α) (p : Progress), l[p.got.length]? = some x → Stops (l.mapM g) s p w t
  | [], p, h => by simp at h
  | y :: l, p, h => by
    obtain ⟨got, walk⟩ := p
    rw [List.mapM_cons]
    cases got with
    | nil =>
      obtain rfl : y = x := by simpa using h
      exact (hx _ rfl).first
    | cons bs rest =>
      have htail := mapM_stops hg hx l { got := rest, walk := walk } (by simpa using h)
      exact (hg y _ bs rest rfl).stops htail.first

/-- A buffer's bytes whose pieces have all performed. -/
theorem readPieces_performed {hall vf off n : Nat} {b : Buffer} {p : Progress} {bs : List Byte} (h : gathered b off n p.got bs) :
    Performed (readPieces hall vf (some b) off n) s p bs { p with got := p.got.drop (granPieces (b.base + off) n).length } := by
  obtain ⟨hcode, hlen, rfl⟩ := h
  simp only [readPieces, checkAccess_ok hcode]
  exact (mapM_performed (fun _ _ _ _ hp => piece_performed hp) _ p hlen).bind (Performed.pure _ s _)

/-- A buffer's bytes of which a piece is next: it performs. -/
theorem readPieces_stops {hall vf off n a : Nat} {b : Buffer} {p : Progress} {x : Nat × Nat} {bs : List Byte}
    (hcode : accessCode (some b) .read off n 1 false = none) (hx : (granPieces (b.base + off) n)[p.got.length]? = some x)
    (ha : PieceAt s hall vf b.scratch (b.base + off + x.1) .read a) (hread : Reaches (readAt hall vf (b.base + off + x.1) a x.2) s bs t) :
    Stops (readPieces hall vf (some b) off n) s p (.piece bs) t := by
  simp only [readPieces, checkAccess_ok hcode]
  refine (mapM_stops (x := x) (fun _ _ _ _ hp => piece_performed hp) (fun q hq => ?_) _ p hx).first
  exact piece_stops (act := fun a => readAt hall vf (b.base + off + x.1) a x.2) hq ha hread

end Sys2Proof.Machine

/-! PROOFS. OPLD, which reads its packet piece by piece (R127, R361). -/
namespace Sys2Proof.Machine
open Sys2Proof.Claims

variable {s t u : State} {r : Region} {f : CmdRec}

/-- The bytes of a buffer that may be read, within it, can be accessed (R101). -/
theorem accessCode_read {b : Buffer} {off n : Nat} (hr : b.read = true) (hl : off + n ≤ b.len) :
    accessCode (some b) .read off n 1 false = none := by
  simp [accessCode, Nat.mod_one, Buffer.has, hr, Nat.not_lt.mpr hl]

/-- Where a ready piece lies, it can be reached at once. -/
theorem pieceAt_of_location {b : Buffer} {off a : Nat} (h : location s r b .read off = some a)
    (hheld : b.scratch = none → (tlbLookup s r.hall r.vf (b.base + off)).isSome = true) :
    PieceAt s r.hall r.vf b.scratch (b.base + off) .read a := by
  unfold location at h
  unfold PieceAt
  cases hb : b.scratch with
  | some k => simp only [hb, Option.some.injEq] at h; exact h.symm
  | none =>
    obtain ⟨⟨pa, e⟩, he⟩ := Option.isSome_iff_exists.mp (hheld hb)
    simp only [hb, he] at h
    split at h
    next hg => cases h; exact ⟨e, he, hg⟩
    next => cases h

/-- A packet whose pieces have all performed: its header, and then all of it. -/
theorem packetPieces_performed {hall vf off : Nat} {b : Buffer} {tr : Bool} {p : Progress} {head bs : List Byte}
    (hh : gathered b off 8 p.got head) (hok : bPacketOk (pktHdr head) tr = true)
    (hb : gathered b off (pktHdr head).length (packetGot b off p.got) bs) :
    ∃ p', Performed (packetPieces hall vf (some b) off tr) s p (some bs, pktHdr head) p' := by
  refine ⟨{ p with got := (packetGot b off p.got).drop (granPieces (b.base + off) (pktHdr head).length).length },
    (readPieces_performed hh).bind ?_⟩
  rw [if_pos hok]
  exact (readPieces_performed (p := { p with got := packetGot b off p.got }) hb).bind (Performed.pure _ s _)

/-- A packet of which a piece is next: it performs, and the access stops there. -/
theorem packetPieces_stops {hall vf off a : Nat} {b : Buffer} {tr : Bool} {p : Progress} {x : Nat × Nat} {bs : List Byte}
    (hr : b.read = true) (hl : off + 8 ≤ b.len) (hx : nextPiece b off tr p.got = some x)
    (ha : PieceAt s hall vf b.scratch (b.base + off + x.1) .read a) (hread : Reaches (readAt hall vf (b.base + off + x.1) a x.2) s bs t) :
    Stops (packetPieces hall vf (some b) off tr) s p (.piece bs) t := by
  unfold nextPiece at hx
  dsimp only at hx
  by_cases hshort : p.got.length < (granPieces (b.base + off) 8).length
  · rw [if_pos hshort] at hx
    exact (readPieces_stops (accessCode_read hr hl) hx ha hread).first
  · rw [if_neg hshort] at hx
    split at hx
    next hok =>
      obtain ⟨hok, hfits⟩ := hok
      have hhead : gathered b off 8 p.got (p.got.take (granPieces (b.base + off) 8).length).flatten :=
        ⟨accessCode_read hr hl, Nat.not_lt.mp hshort, rfl⟩
      refine (readPieces_performed hhead).stops ?_
      rw [if_pos hok]
      refine (readPieces_stops (accessCode_read hr hfits) ?_ ha hread).first
      rwa [List.length_drop]
    next => cases hx

theorem myBuffer_reaches (hr : kget s.regions s.who = some r) (h : Nat) : Reaches (myBuffer h) s (handleAt s r.vf r.ctx h).visible s :=
  (Reaches.get s).bind ((home_reaches hr).bind (Reaches.pure _ s))

/-- The buffer that a reference names (R299). -/
theorem refBuffer_reaches (hr : kget s.regions s.who = some r) {v : BitVec 64} {b : Buffer} (hb : refBuffer s r v = some b) :
    Reaches (myBuffer (refHandle v.toNat)) s (some b) s :=
  hb ▸ myBuffer_reaches hr _

theorem refOff_eq (v : BitVec 64) : refOff v.toNat = v.toNat % 2 ^ 32 := by simp [refOff, bits]

/-- A plinth with no packet in work has nothing to go on with. -/
theorem settlePlinth_idle {hall k : Nat} (h : (plinthAt s hall k).jobs = []) : Reaches (settlePlinth hall k) s () s := by
  refine (Reaches.get s).bind ?_
  rw [h]
  have hstep : Reaches (plinthStep hall k) s false s := by
    refine (Reaches.get s).bind ?_
    rw [h]
    exact Reaches.pure _ s
  exact hstep.bind (Reaches.pure _ s)

/-- A plinth that was changed reads as it was changed; one that is not there reads as before. -/
theorem plinthAt_withPlinth (s : State) (r : Region) (k : Nat) (p : Plinth) :
    plinthAt (withPlinth s r k p) r.hall k = p ∨ plinthAt (withPlinth s r k p) r.hall k = plinthAt s r.hall k := by
  by_cases hh : r.hall < s.halls.length
  · have e : hallAt (withPlinth s r k p) r.hall = { hallAt s r.hall with plinths := (hallAt s r.hall).plinths.set k p } := by
      rw [hallAt, withPlinth, List.getElem?_set_self hh]; rfl
    simp only [plinthAt, e]
    by_cases hk : k < (hallAt s r.hall).plinths.length
    · exact .inl (by rw [List.getElem?_set_self hk]; rfl)
    · exact .inr (by rw [List.set_eq_of_length_le (Nat.not_lt.mp hk)])
  · refine .inr ?_
    have e : hallAt (withPlinth s r k p) r.hall = hallAt s r.hall := by
      simp only [hallAt, withPlinth, List.set_eq_of_length_le (Nat.not_lt.mp hh)]
    rw [plinthAt, e, plinthAt]

theorem withPlinth_jobs {k : Nat} {p : Plinth} (h : (plinthAt s r.hall k).jobs = []) (hp : p.jobs = []) :
    (plinthAt (withPlinth s r k p) r.hall k).jobs = [] := by
  rcases plinthAt_withPlinth s r k p with e | e <;> rw [e]
  · exact hp
  · exact h

/-- OPLD's packet has been read whole: it goes into its slot (R361). -/
theorem execOpld_packet {bs : List Byte} (hi : RegionIssues s r false) (h3 : f.imm.toNat % 4 ≠ 3) (hp : (plinthOf s r f).holder = some s.who)
    (hslot : kget (plinthOf s r f).slotHolder (f.imm.toNat / 16 % 16) = some s.who) (hjobs : (plinthOf s r f).jobs = [])
    (hread : packetRead s r f bs) :
    execOpld f s = .next (goOn (withPlinth s r (f.imm.toNat % 4) { plinthOf s r f with
      slots := kset (plinthOf s r f).slots (f.imm.toNat / 16 % 16) { packet := bs, tr := f.imm.getLsbD 8, ref := some (areg s f.s).toNat } })) := by
  have ⟨hw, hr, hq, _⟩ := hi
  obtain ⟨href, b, head, p, hb, hhead, hok, hbody, hpkt, hmasks, hscales⟩ := hread
  obtain ⟨p', hperf⟩ := packetPieces_performed (s := s) (hall := r.hall) (vf := r.vf) hhead hok hbody
  refine command_region (n := .done) hi (by decide) ?_ hq
  refine (myPlinth_reaches hr h3 hp).bind ?_
  have hbits : bits f.imm.toNat 4 4 = f.imm.toNat / 16 % 16 := rfl
  simp only [hbits, bits_one, hslot, ne_eq, not_true_eq_false, if_false]
  refine (reg_reaches f.s s).bind ((checkRef_reaches href s).bind ((refBuffer_reaches hr hb).bind ((mySeq_reaches s).bind ?_)))
  rw [issuer_region hw hr, refOff_eq]
  refine (stepPieces_performed hperf).bind ?_
  simp only [hpkt, hmasks, hscales, Bool.not_true, Bool.false_eq_true, if_false]
  refine (modPlinth_reaches r _ _ s).bind (Reaches.bind (settlePlinth_idle ?_) (Reaches.pure _ _))
  exact withPlinth_jobs hjobs (show (plinthOf s r f).jobs = [] from hjobs)

/-- OPLD with a piece of its packet at hand: it reads the piece, and waits to go on (R127). -/
theorem execOpld_piece {a n : Nat} (hi : RegionIssues s r false) (h3 : f.imm.toNat % 4 ≠ 3) (hp : (plinthOf s r f).holder = some s.who)
    (hslot : kget (plinthOf s r f).slotHolder (f.imm.toNat / 16 % 16) = some s.who) (hready : pieceReady s r f a n) :
    ∃ u, ReadOnly s u ∧
      execOpld f s = .next (waits (withIssuer u { issuer s with pieces := { got := r.seq.pieces.got ++ [readBytes s.mem a n] } })) := by
  have ⟨hw, hr, hq, _⟩ := hi
  obtain ⟨href, b, o, hb, hrd, hlen, hnext, hloc, hheld, htake, hpois⟩ := hready
  obtain ⟨u, hro, hread⟩ := readAt_reaches r.vf (b.base + (areg s f.s).toNat % 2 ^ 32 + o) htake hpois
  have hat := pieceAt_of_location hloc (by rwa [← Nat.add_assoc])
  rw [← Nat.add_assoc] at hat
  have hstop := packetPieces_stops (x := (o, n)) hrd hlen hnext hat hread
  refine ⟨u, hro, command_region (n := .wait) hi (by decide) ?_ (withIssuer_quiet _ (hro.quiet hq))⟩
  refine (myPlinth_reaches hr h3 hp).bind ?_
  have hbits : bits f.imm.toNat 4 4 = f.imm.toNat / 16 % 16 := rfl
  simp only [hbits, bits_one, hslot, ne_eq, not_true_eq_false, if_false]
  refine (reg_reaches f.s s).bind ((checkRef_reaches href s).bind ((refBuffer_reaches hr hb).bind ((mySeq_reaches s).bind ?_)))
  rw [issuer_region hw hr, refOff_eq]
  refine (stepPieces_stops hstop).bind ?_
  exact ((modSeq_reaches _ u).congr (by rw [hro.issuer, issuer_region hw hr])).bind (Reaches.pure _ _)

/-- While a piece is next, the packet has not been read whole. -/
theorem nextPiece_none {b : Buffer} {off : Nat} {tr : Bool} {got : List (List Byte)} {head bs : List Byte}
    (hhead : gathered b off 8 got head) (hbody : gathered b off (pktHdr head).length (packetGot b off got) bs) :
    nextPiece b off tr got = none := by
  obtain ⟨_, hlen, rfl⟩ := hhead
  obtain ⟨_, hlen', _⟩ := hbody
  unfold nextPiece
  dsimp only
  rw [if_neg (Nat.not_lt.mpr hlen)]
  split
  · rw [List.getElem?_eq_none_iff]
    rwa [packetGot, List.length_drop] at hlen'
  · rfl

theorem pieceReady_not_read {a n : Nat} {bs : List Byte} (hready : pieceReady s r f a n) : ¬ packetRead s r f bs := by
  obtain ⟨_, b, o, hb, _, _, hnext, _⟩ := hready
  rintro ⟨_, b', head, p, hb', hhead, _, hbody, _⟩
  obtain rfl : b = b' := Option.some.inj (hb.symm.trans hb')
  rw [nextPiece_none hhead hbody] at hnext
  cases hnext

/-- The bytes of a packet that has been read whole are the ones that its pieces gave. -/
theorem packetRead_unique {bs bs' : List Byte} (h : packetRead s r f bs) (h' : packetRead s r f bs') : bs = bs' := by
  obtain ⟨_, b, head, p, hb, ⟨_, _, rfl⟩, _, ⟨_, _, rfl⟩, _⟩ := h
  obtain ⟨_, b', head, p, hb', ⟨_, _, rfl⟩, _, ⟨_, _, rfl⟩, _⟩ := h'
  obtain rfl : b = b' := Option.some.inj (hb.symm.trans hb')
  rfl

/-- Where OPLD's next piece lies is fixed. -/
theorem pieceReady_unique {a a' n n' : Nat} (h : pieceReady s r f a n) (h' : pieceReady s r f a' n') : a = a' ∧ n = n' := by
  obtain ⟨_, b, o, hb, _, _, hnext, hloc, _⟩ := h
  obtain ⟨_, b', o', hb', _, _, hnext', hloc', _⟩ := h'
  obtain rfl : b = b' := Option.some.inj (hb.symm.trans hb')
  obtain ⟨rfl, rfl⟩ : o = o' ∧ n = n' := by simpa using hnext.symm.trans hnext'
  exact ⟨Option.some.inj (hloc.symm.trans hloc'), rfl⟩

/-- OPLD reads the next piece of its packet, or, once it has read them all, loads the slot (R127, R361). -/
theorem execOpld_next (hi : RegionIssues s r false) (h3 : f.imm.toNat % 4 ≠ 3) (hp : (plinthOf s r f).holder = some s.who)
    (hslot : kget (plinthOf s r f).slotHolder (f.imm.toNat / 16 % 16) = some s.who) (hjobs : (plinthOf s r f).jobs = [])
    (hat : (∃ bs, packetRead s r f bs) ∨ ∃ a n, pieceReady s r f a n) :
    ∃ t, execOpld f s = .next t ∧
      (∀ bs, packetRead s r f bs → t = goOn (withPlinth s r (f.imm.toNat % 4) { plinthOf s r f with
        slots := kset (plinthOf s r f).slots (f.imm.toNat / 16 % 16) { packet := bs, tr := f.imm.getLsbD 8, ref := some (areg s f.s).toNat } })) ∧
      (∀ a n, pieceReady s r f a n → ∃ u, ReadOnly s u ∧
        t = waits (withIssuer u { issuer s with pieces := { got := r.seq.pieces.got ++ [readBytes s.mem a n] } })) := by
  rcases hat with ⟨bs, hread⟩ | ⟨a, n, hready⟩
  · refine ⟨_, execOpld_packet hi h3 hp hslot hjobs hread, fun bs' hread' => ?_, fun _ _ hready => absurd hread (pieceReady_not_read hready)⟩
    rw [packetRead_unique hread' hread]
  · obtain ⟨u, hro, hnext⟩ := execOpld_piece hi h3 hp hslot hready
    refine ⟨_, hnext, fun _ hread => absurd hread (pieceReady_not_read hready), fun a' n' hready' => ⟨u, hro, ?_⟩⟩
    obtain ⟨rfl, rfl⟩ := pieceReady_unique hready hready'
    rfl

/-- Settles O40: each plinth command, taken apart by its instruction, has the effect of its rule. -/
theorem plinthCommandsComplete : Obligations.PlinthCommandsComplete := by
  intro i e s r he hi hn
  unfold plinthEffect at he
  split at he
  next f => cases he; exact ⟨_, execClaim_next hi hn, rfl⟩
  next f => cases he; exact ⟨_, execRelease_next hi hn, rfl⟩
  next f =>
    cases he
    obtain ⟨h3, hp, hslot, hjobs, hat⟩ := hn
    exact execOpld_next hi h3 hp hslot hjobs hat
  next f =>
    cases he
    obtain ⟨h3, hp, hrows, hlo, hhi⟩ := hn
    exact ⟨_, execMxCfg_next hi h3 hp hrows hlo hhi, rfl⟩
  next f => cases he; exact ⟨_, execMxRoute_next hi hn, rfl⟩
  next f =>
    cases he
    obtain ⟨h3, hp, href, hres, hal, hkeep⟩ := hn
    exact ⟨_, execMxGo_next hi h3 hp href hres hal hkeep, rfl⟩
  next f => cases he; exact ⟨_, execMxStop_next hi hn.1 hn.2, rfl⟩
  next => cases he

end Sys2Proof.Machine

/-! PROOFS. THAW where an identifier names two placements (R300, R337). A region's context number fills its field of the identifier; the
model's regions may carry a number beyond the field, and then an image of hall 0 has the identifier of a region of hall 1. THAW restores
it in hall 0 and waits there for a pinned source of a slot (R207), while the statement asks for slots in hall 1. The invariants of the
storage (`Inv`) say nothing of the field. The state is read where an image has no bytes: Config.saveSize is a free value (log 7). -/
namespace Sys2Proof.Machine
open Sys2Proof.Claims

variable {s u : State} {r : Region}

/-- An action does not trap and answer as well. -/
theorem not_reaches_of_raises {α : Type} {m : M α} {t : State} {a : α} {e : TrapRec} (h : Raises m s e) : ¬ Reaches m s a t := fun k => by
  obtain ⟨es, hok, _⟩ := k s [] rfl
  rw [h s [] rfl] at hok
  cases hok

/-- Nothing is cut into no pieces. -/
theorem granPieces_zero (a : Nat) : granPieces a 0 = [] := by simp [granPieces]

/-- A read of a pinned line stalls (R134). -/
theorem readAt_pinned {hall vf va a n x : Nat} (hans : answers s a = none) (hx : x ∈ linesOf a n) (hp : pinnedByOther s x none = true) :
    Raises (readAt hall vf va a n) s { code := stallCode } := by
  have hany : (linesOf a n).any (fun x => pinnedByOther s x none) = true := List.any_eq_true.mpr ⟨x, hx, hp⟩
  refine (Reaches.get s).raises ?_
  simp only [hans, hany, Bool.true_or, if_true]
  exact stall_raises s

/-- A read of a buffer in scratch stalls where its first piece does. -/
theorem readBuf_scratch_stalls {hall vf off n h : Nat} {b : Buffer} {x : Nat × Nat} {l : List (Nat × Nat)} (hb : b.scratch = some h)
    (hcode : accessCode (some b) .read off n 1 false = none) (hl : granPieces (b.base + off) n = x :: l)
    (hread : Raises (readAt hall vf (b.base + off + x.1) (scratchAddr h (b.base + off + x.1)) x.2) s { code := stallCode }) :
    Raises (readBuf hall vf (some b) off n) s { code := stallCode } := by
  simp only [readBuf, checkAccess_ok hcode, hl, hb]
  exact Raises.first (Raises.first ((Reaches.pure _ s).raises hread))

/-- Slots of a vitrine cannot be loaded again while the source of the first one stalls (R207). -/
theorem reloadSlots_stalls {rid k ref : Nat} {q : VitSlot} {l : KMap VitSlot} (hr : kget s.regions rid = some r)
    (hl : (plinthAt s r.hall 0).slots.filter (fun q => kget (plinthAt s r.hall 0).slotHolder q.1 == some rid) = (k, q) :: l) (href : q.ref = some ref)
    (hread : Raises (readBuf r.hall r.vf (handleAt s r.vf r.ctx (refHandle ref)).visible (refOff ref) 8) s { code := stallCode }) :
    Raises (reloadSlots rid) s { code := stallCode } := by
  refine (Reaches.get s).raises ?_
  rw [hr]
  dsimp only
  rw [each_cons, hl, each_cons, href]
  exact Raises.first (Raises.first ((Raises.attempt hread.first).raises (stall_raises s)))

namespace SharedIdentifier

/-- A Frozen region of hall 1; the machine below lists hall 0 alone. Its identifier is 2^63 + 2^48. -/
def there : Region :=
  { hall := 1, ctx := 0, shape := 0, origin := 0, vf := 0, wing := 0, root := false, parent := none, fres := 0, state := .frozen
    seq := Sequencer.zero, header := 0, program := { acts := [] }, saved := some 1 }

/-- A region of hall 0 whose context number is out of its field: it has the same identifier. -/
def here : Region := { there with hall := 0, ctx := 256, saved := none }

/-- Its image, which holds nothing of a vitrine. -/
def image : SaveImage :=
  { number := 0, tier := 2, rid := 256, region := here, reqs := [], names := [], hold := [], invs := [], pins := []
    overflow := [], chans := [], folds := [], plinths := [{}, {}, {}] }

/-- Hall 0: the region holds a slot of its first plinth, and the line that the slot was loaded from is pinned. -/
def pinned : Hall :=
  { Hall.reset with
    plinths := [{ slotHolder := [(0, 256)], slots := [(0, { packet := [], tr := false, ref := some 0 })] }, {}, {}]
    pins := [(scratchAddr 0 0, 0)] }

/-- 64 bytes of hall 0's scratch, which the region's first handle names. -/
def source : Buffer := { scratch := some 0, base := 0, len := 64, read := true, write := false, atomic := false }

/-- The machine: THAW's register 1 names the region of hall 1. -/
def state : State :=
  { State.reset with
    halls := [pinned]
    regions := [(256, there)]
    vfs := [(0, { saves := [image], handles := [(handleKey 256 0, { visible := some source })] })]
    service := Sequencer.zero.put 1 (BitVec.ofNat 64 (identOf there)) }

/-- THAW of the region that register 1 names, from slot 0. -/
def thawRecord : CmdRec := { ty := .f32, md := 0, d := 0, s := 1, t := 0, ext := 0, imm := 0 }

theorem state_issues : ServiceIssues state := ⟨rfl, rfl, rfl⟩

theorem there_named : names state thawRecord.s 256 there := ⟨by decide +kernel, rfl⟩

/-- What a read leaves of the machine. -/
theorem readOnly_eq {u : State} (h : ReadOnly state u) : ∃ (n : Nat) (l : KMap TlbEntry) (c : KMap CacheLine),
    u = { state with tick := n, halls := [{ pinned with tlb := l, cache := c }] } := by
  obtain ⟨n, hs, rfl, hlen, hhall⟩ := h
  match hs, hlen with
  | [a], _ =>
    have ha : a = { pinned with tlb := a.tlb, cache := a.cache } := hhall 0 pinned a rfl rfl
    exact ⟨n, a.tlb, a.cache, by rw [← ha]⟩

/-- The slot is to be loaded again, and its line is pinned. -/
theorem thawFrom_stalls {u : State} (h : ReadOnly state u) : Raises (thawFrom 256 there image) u { code := stallCode } := by
  obtain ⟨n, l, c, rfl⟩ := readOnly_eq h
  have hother : ¬ there.saved = some image.number := by decide
  rw [thawFrom, if_neg hother, vacate, restoreImage]
  -- the region of hall 1 leaves
  refine Reaches.raises (a := ()) ((Reaches.get _).bind (Reaches.bind ((Reaches.get _).bind ((Reaches.eff _ _).bind (Reaches.eff _ _)))
    ((modHall_reaches _ _ _).bind ((Reaches.each_nil _ _).bind ((modHall_reaches _ _ _).bind (Reaches.eff _ _)))))) ?_
  -- the image's region comes, with no parent, channels, requests or name requests
  refine (Reaches.get _).raises ((Reaches.eff _ _).raises ((Reaches.pure _ _).raises ?_))
  refine ((Reaches.get _).bind (Reaches.eff _ _)).raises ((modHall_reaches _ _ _).raises ?_)
  refine (Reaches.each_nil _ _).raises ((Reaches.each_nil _ _).raises ((Reaches.each_nil _ _).raises ?_))
  -- its slot in hall 0 is to be loaded again
  refine Raises.first (reloadSlots_stalls (r := here) (k := 0) (ref := 0) (l := []) rfl rfl rfl ?_)
  refine readBuf_scratch_stalls (b := source) (h := 0) (x := (0, 8)) (l := []) rfl rfl (by decide) ?_
  exact readAt_pinned (x := scratchAddr 0 0) rfl (by decide) rfl

/-- Where an image has no bytes, a save slot holds the function's one image. -/
theorem image_in (hz : Config.saveSize = 0) (a : Nat) (ha : a < 2 ^ 57) : imageIn state 1 0 readSpace a image := by
  refine ⟨[], ?_, ⟨fun _ => 0, fun p hp => ?_, ?_⟩, ?_⟩
  · rw [hz]; exact accessCode_read rfl (Nat.le_of_lt ha)
  · rw [imagePieces, hz, granPieces_zero] at hp; cases hp
  · rw [imagePieces, hz, granPieces_zero]; rfl
  · have hb : imageBytes image.number = [] := by rw [imageBytes, hz]; rfl
    show [image].find? (fun x => imageBytes x.number == []) = some image
    rw [List.find?_cons, hb]; rfl

/-- The hall of the region that the identifier names holds no slot of it. -/
theorem there_slotless : slotless state image there.hall := ⟨by decide, by decide⟩

/-- THAW waits, though no slot is in its way. -/
theorem thaw_refutes (hz : Config.saveSize = 0) : ¬ Obligations.ServiceCommandsComplete := fun h => by
  have himg := image_in hz (slotAddr (vfAt state there.vf) (thawRecord.imm.toNat % 1024)) (Nat.mod_lt _ (by decide))
  obtain ⟨t, _, hleads⟩ := h (.thaw thawRecord) _ state rfl state_issues ⟨256, there, image, there_named, rfl, himg, rfl, by decide⟩
  obtain ⟨u, hread, ⟨v, hthaw, _⟩ | ⟨hslots, _⟩⟩ := hleads 256 there image there_named himg
  · exact not_reaches_of_raises (thawFrom_stalls hread) hthaw
  · exact hslots there_slotless

end SharedIdentifier
end Sys2Proof.Machine

/-! PROOFS. FREEZE where the list of functions holds one function twice, which `Inv` excludes and the statement about the service
sequencer's commands does not: while the image is written to the save area, the versions of both listings rise (R140), the second one
takes the place of the first, and the image that the first one kept is lost (R206, R337). -/
namespace Sys2Proof.Machine
open Sys2Proof.Claims

variable {s t u : State} {r : Region}

/-! ### Writes to scratch change memory and its markers alone -/

/-- The parts of a state that say where bytes lie, and whose they are. -/
def directory (s : State) : List Hall × KMap Region × KMap VFn := (s.halls, s.regions, s.vfs)

theorem putBytes_keeps : ∀ (bs : List Byte) (a : Nat), Keeps directory (putBytes a bs)
  | [], _ => Keeps.pure
  | b :: bs, a => (Keeps.eff (e := .byte a b) fun _ => rfl).bind (putBytes_keeps bs (a + 1))

/-- No hall holds copies of scratch. -/
theorem cacheWrite_scratch {hall vf va a : Nat} (h : isScratch a = true) : Keeps directory (cacheWrite hall vf va a) :=
  Keeps.get fun _ => by rw [if_pos h]; exact Keeps.pure

/-- The lines of scratch bytes lie in scratch. -/
theorem isScratch_of_mem_linesOf {a n l : Nat} (h : isScratch a = true) (hl : l ∈ linesOf a n) : isScratch l = true := by
  obtain ⟨i, _, rfl⟩ : ∃ i ∈ List.range n, lineOf (a + i) = l := by simpa [linesOf] using hl
  simp only [isScratch, decide_eq_true_eq] at h
  have hi : 2 ^ 52 ≤ a + i := by omega
  simp only [lineOf, isScratch, decide_eq_true hi, if_true, decide_eq_true_eq]
  omega

theorem performBytes_scratch {hall vf va a : Nat} (bs : List Byte) (h : isScratch a = true) : Keeps directory (performBytes hall vf va a bs) := by
  refine Keeps.get fun s => (putBytes_keeps bs a).bind (Keeps.each _ fun l hl => ?_)
  exact (Keeps.whenM (Keeps.eff fun _ => rfl) _).bind (cacheWrite_scratch (isScratch_of_mem_linesOf h hl))

/-! ### FREEZE's region -/

theorem namedRegion_reaches {i : BitVec 5} {k : Nat} (h : names s i k r) : Reaches (namedRegion i) s (k, r) s := by
  obtain ⟨hk, hr⟩ := h
  refine (reg_reaches i s).bind ((Reaches.get s).bind ?_)
  rw [hk, Option.bind_some, hr]
  exact Reaches.pure _ s

/-- A region in no CTX.SWAP is not waited for (R209). -/
theorem swapFirst_reaches (h : r.seq.swap = none) (s : State) : Reaches (swapFirst? r) s false s := by
  refine (Reaches.get s).bind ((mySeq_reaches s).bind ?_)
  rw [h]
  exact Reaches.pure _ s

/-- FREEZE of a region that is not Frozen stops it in tier 2 (R206, R337). -/
theorem execFreeze_reaches {f : CmdRec} {k : Nat} (hi : ServiceIssues s) (hn : names s f.s k r) (hswap : r.seq.swap = none) (hf : r.state ≠ .frozen)
    (ht : Reaches (stopRegion k 2 (some (f.imm.toNat % 1024)) .frozen) s () t) (hq : trapWaiting t = none) :
    execFreeze f s = .next (goOn t) := by
  refine command_service (n := .done) hi (by decide) ?_ hq
  refine (namedRegion_reaches hn).bind ((Reaches.get s).bind ((swapFirst_reaches hswap s).bind ?_))
  simp only [Bool.false_eq_true, if_false, hf]
  exact ht.bind (Reaches.pure _ t)

theorem vfs_withIssuer (s : State) (q : Sequencer) : (withIssuer s q).vfs = s.vfs := by
  unfold withIssuer
  repeat' split
  all_goals rfl

namespace ListedTwice

/-- The page that every entry of the translation cache gives: the first 1 GiB of hall 0's scratch. -/
def page : TlbEntry := { base := scratchAddr 0 0, size := 30, write := true, atomic := true, filled := 0 }

/-- Hall 0: its translation cache holds a page for every address of an image. -/
def mapped : Hall := { Hall.reset with tlb := (List.range Config.saveSize).map (fun i => (tlbKey 0 (i * 2 ^ 30) 30, page)) }

/-- A region of hall 0. -/
def region : Region :=
  { hall := 0, ctx := 0, shape := 0, origin := 0, vf := 0, wing := 0, root := false, parent := none, fres := 0, state := .idle
    seq := Sequencer.zero, header := 0, program := { acts := [] } }

/-- The page as a buffer. -/
def window : Buffer := { scratch := some 0, base := 0, len := 2 ^ 30, read := true, write := true, atomic := false }

/-- The function's second listing: it has the page as a buffer, and no image. -/
def second : VFn := { handles := [(0, { visible := some window })] }

/-- The machine: its list of functions lists function 0 twice, and FREEZE's register 1 names the region. -/
def state : State :=
  { State.reset with
    halls := [mapped]
    regions := [(0, region)]
    vfs := [(0, {}), (0, second)]
    service := Sequencer.zero.put 1 (BitVec.ofNat 64 (identOf region)) }

/-- FREEZE of the region that register 1 names, into slot 0. -/
def freezeRecord : CmdRec := { ty := .f32, md := 0, d := 0, s := 1, t := 0, ext := 0, imm := 0 }

theorem state_issues : ServiceIssues state := ⟨rfl, rfl, rfl⟩

theorem region_named : names state freezeRecord.s 0 region := ⟨by decide +kernel, rfl⟩

/-- A list of pages of one kind holds none of another. -/
theorem kget_pages_other {k : Nat} (hk : k % 32 ≠ 30) : ∀ l : List Nat, kget (l.map (fun i => (tlbKey 0 (i * 2 ^ 30) 30, page))) k = none
  | [] => rfl
  | i :: l => by
    rw [List.map_cons, kget, if_neg (by unfold tlbKey; omega)]
    exact kget_pages_other hk l

/-- A list of pages holds each of them. -/
theorem kget_pages {j : Nat} : ∀ l : List Nat, j ∈ l → kget (l.map (fun i => (tlbKey 0 (i * 2 ^ 30) 30, page))) (tlbKey 0 (j * 2 ^ 30) 30) = some page
  | i :: l, h => by
    rw [List.map_cons, kget]
    split
    · rfl
    next hne =>
      refine kget_pages l ((List.mem_cons.mp h).resolve_left fun e => hne ?_)
      rw [e]

/-- Every address of an image lies on the page. -/
theorem tlbLookup_mapped (h : s.halls = [mapped]) {va : Nat} (hv : va < Config.saveSize) :
    tlbLookup s 0 0 va = some (scratchAddr 0 0 + va % 2 ^ 30, page) := by
  have hh : (hallAt s 0).tlb = (List.range Config.saveSize).map (fun i => (tlbKey 0 (i * 2 ^ 30) 30, page)) := by rw [hallAt, h]; rfl
  have hkey : tlbKey 0 va 30 = tlbKey 0 (va / 2 ^ 30 * 2 ^ 30) 30 := by unfold tlbKey; omega
  have hmem : va / 2 ^ 30 ∈ List.range Config.saveSize := List.mem_range.mpr (by omega)
  have h16 : tlbKey 0 va 16 % 32 ≠ 30 := by unfold tlbKey; omega
  have h21 : tlbKey 0 va 21 % 32 ≠ 30 := by unfold tlbKey; omega
  simp only [tlbLookup, pageSizes, hh, List.findSome?_cons, kget_pages_other h16, kget_pages_other h21, Option.map_none, hkey, kget_pages _ hmem]
  rfl

/-- The function's two listings, and where a write finds its bytes. -/
structure Writing (v : VFn) (s : State) : Prop where
  halls : s.halls = [mapped]
  regions : s.regions = [(0, region)]
  vfs : s.vfs = [(0, v), (0, second)]

/-- The second listing with its buffer's version raised. -/
def raised : VFn := { second with handles := [(0, { visible := some window, version := 1 })] }

/-- What is written to the function's number goes to its first listing. -/
theorem Writing.put {v : VFn} (h : Writing v s) (w : VFn) : Writing w ((Effect.vf 0 w).apply s) :=
  ⟨h.halls, h.regions, by show kset s.vfs 0 w = _; rw [h.vfs]; rfl⟩

/-- Where both listings may be written to, in turn, the second one takes the place of the first. -/
theorem each_listing {f : Nat × VFn → M Unit} {v w : VFn} {c : Bool} (hw : Writing v s) (hfirst : f (0, v) = whenM c (eff (.vf 0 w)))
    (hsecond : f (0, second) = eff (.vf 0 raised)) : ∃ t, Reaches (each s.vfs f) s () t ∧ Writing raised t := by
  have hput {x : VFn} {y : State} (h : Writing x y) : ∃ t, Reaches (each [(0, second)] f) y () t ∧ Writing raised t :=
    ⟨_, Reaches.each_cons (by rw [hsecond]; exact Reaches.eff _ y) (Reaches.each_nil _ _), h.put raised⟩
  rw [hw.vfs]
  cases c with
  | true =>
    obtain ⟨t, ht, hwt⟩ := hput (hw.put w)
    exact ⟨t, Reaches.each_cons (by rw [hfirst]; exact Reaches.eff _ s) ht, hwt⟩
  | false =>
    obtain ⟨t, ht, hwt⟩ := hput hw
    exact ⟨t, Reaches.each_cons (by rw [hfirst]; exact Reaches.pure _ s) ht, hwt⟩

/-- A write on the page raises the versions of both listings, and the second one takes the place of the first. -/
theorem raiseVersions_second {v : VFn} {a : Nat} (hw : Writing v s) (hlo : scratchAddr 0 0 ≤ a) (hhi : a < scratchAddr 0 0 + 2 ^ 30) :
    ∃ t, Reaches (raiseVersions [a]) s () t ∧ Writing raised t := by
  have hin : [a].any (bufferHolds s 0 window) = true := by
    have hend : a < scratchAddr 0 (window.base + window.len) := hhi
    have hstart : scratchAddr 0 window.base ≤ a := hlo
    simp only [List.any_cons, List.any_nil, Bool.or_false]
    show (decide _ && decide _) = true
    rw [decide_eq_true hstart, decide_eq_true hend]; rfl
  suffices h : ∃ t, Reaches (each s.vfs _) s () t ∧ Writing raised t from
    h.imp fun t ht => ⟨(Reaches.get s).bind ht.1, ht.2⟩
  refine each_listing hw rfl ?_
  simp only [second, List.map_cons, List.map_nil, hin, if_true]
  rfl

theorem Writing.of_directory {v : VFn} (h : Writing v s) (e : directory t = directory s) : Writing v t := by
  obtain ⟨hh, hr, hv⟩ : t.halls = s.halls ∧ t.regions = s.regions ∧ t.vfs = s.vfs := by simpa [directory] using e
  exact ⟨hh.trans h.halls, hr.trans h.regions, hv.trans h.vfs⟩

/-- A piece of an image is written to the save area (R412). -/
def writePiece (p : Nat × List Byte) : M Unit := do
  let a ← locateNow 0 0 p.1 .write
  performBytes 0 0 p.1 a p.2
  raiseVersions [a]

/-- A piece of an image is written on the page. -/
theorem piece_written {v : VFn} (p : Nat × List Byte) (hw : Writing v s) (hv : p.1 < Config.saveSize) :
    ∃ t, Reaches (writePiece p) s () t ∧ Writing raised t := by
  have hlt : p.1 % 2 ^ 30 < 2 ^ 30 := Nat.mod_lt _ (by decide)
  have hscr : isScratch (scratchAddr 0 0 + p.1 % 2 ^ 30) = true := decide_eq_true (by unfold scratchAddr; omega)
  obtain ⟨t, ht, hkeep⟩ := performBytes_scratch (hall := 0) (vf := 0) (va := p.1) p.2 hscr s
  obtain ⟨w, hwr, hww⟩ := raiseVersions_second (hw.of_directory hkeep) (Nat.le_add_right _ (p.1 % 2 ^ 30)) (by omega)
  exact ⟨w, (locateNow_held (tlbLookup_mapped hw.halls hv) rfl).bind (ht.bind hwr), hww⟩

/-- Once all of an image is written, the second listing has the place of the first. -/
theorem pieces_written {v : VFn} : ∀ (p : Nat × List Byte) (l : List (Nat × List Byte)) {s : State}, Writing v s → (∀ q ∈ p :: l, q.1 < Config.saveSize) →
    ∃ t, Reaches (each (p :: l) writePiece) s () t ∧ Writing raised t
  | p, [], s, hw, hl => by
    obtain ⟨t, ht, hwt⟩ := piece_written p hw (hl p (by simp))
    exact ⟨t, ht.each_cons (Reaches.each_nil _ t), hwt⟩
  | p, q :: l, s, hw, hl => by
    obtain ⟨t, ht, hwt⟩ := piece_written p hw (hl p (by simp))
    obtain ⟨u, hu, hwu⟩ := pieces_written q l hwt fun x hx => hl x (by simp [List.mem_cons.mp hx])
    exact ⟨u, ht.each_cons hu, hwu⟩

theorem guestWrite_image {v : VFn} (n : Nat) (hz : Config.saveSize ≠ 0) (hw : Writing v s) :
    ∃ t, Reaches (guestWrite 0 0 0 (imageBytes n)) s true t ∧ Writing raised t := by
  have hlen : (imageBytes n).length = Config.saveSize := by simp [imageBytes]
  obtain ⟨k, hk⟩ : ∃ k, ((imageBytes n).length + 15) / 16 = k + 1 := ⟨((imageBytes n).length + 15) / 16 - 1, by omega⟩
  have hlt : ∀ q ∈ (List.range (((imageBytes n).length + 15) / 16)).map (fun i => (0 + 16 * i, ((imageBytes n).drop (16 * i)).take 16)), q.1 < Config.saveSize := by
    intro q hq
    obtain ⟨i, hi, rfl⟩ := List.mem_map.mp hq
    have := List.mem_range.mp hi
    dsimp only
    omega
  rw [hk, List.range_succ_eq_map, List.map_cons] at hlt
  obtain ⟨t, ht, hwt⟩ := pieces_written _ _ hw hlt
  refine ⟨t, ?_, hwt⟩
  unfold guestWrite
  rw [hk, List.range_succ_eq_map, List.map_cons]
  exact ht.attempt.bind (Reaches.pure _ t)

/-- The region as FREEZE leaves it. -/
def frozen : Region := { region with state := .frozen, saved := some 0 }

/-- The region stops, and its image is lost. -/
theorem stopRegion_reaches (hz : Config.saveSize ≠ 0) :
    ∃ t, Reaches (stopRegion 0 2 (some 0) .frozen) state () t ∧ t.regions = [(0, frozen)] ∧ t.vfs = [(0, raised), (0, second)] := by
  have hslot : slotAddr (vfAt state 0) (saveSlot 0 (some 0)) = 0 := by simp [slotAddr, saveSlot, vfAt, state, kgetD, kget]
  have hstart : Writing {} { state with tick := 1 } := ⟨rfl, rfl, rfl⟩
  have hkept := hstart.put { saves := [imageOf state 0 region 2 0] }
  obtain ⟨t, ht, hwt⟩ := guestWrite_image 0 hz hkept
  refine ⟨(Effect.region 0 (some frozen)).apply t, ?_, ?_, hwt.vfs⟩
  · unfold stopRegion
    refine (Reaches.get _).bind ((fresh_reaches _).bind (Reaches.bind ((Reaches.get _).bind (Reaches.eff _ _)) ?_))
    refine (Reaches.pure _ _).bind (Reaches.bind ((Reaches.get _).bind (Reaches.pure _ _)) ?_)
    rw [show slotAddr (vfAt state region.vf) (saveSlot state.tick (some 0)) = 0 from hslot]
    exact ht.bind (Reaches.eff _ _)
  · show kset t.regions 0 frozen = _
    rw [hwt.regions]; rfl

/-- FREEZE leaves the function without an image of the region. -/
theorem freeze_refutes (hz : Config.saveSize ≠ 0) : ¬ Obligations.ServiceCommandsComplete := fun h => by
  obtain ⟨t, ht, hregions, hvfs⟩ := stopRegion_reaches hz
  have hquiet : trapWaiting t = none := by rw [trapWaiting, hregions]; rfl
  have hnext : exec (.freeze freezeRecord) state = .next (goOn t) := execFreeze_reaches state_issues region_named rfl (by decide) ht hquiet
  obtain ⟨t', ht', hleads⟩ := h (.freeze freezeRecord) _ state rfl state_issues ⟨0, region, region_named, .inl rfl⟩
  obtain rfl : goOn t = t' := by rw [hnext] at ht'; cases ht'; rfl
  obtain ⟨_, _, _, _, _, _, _, ⟨z, hsaved, _⟩, _⟩ := hleads 0 region region_named
  have hv : vfAt (goOn t) region.vf = raised := by rw [vfAt, goOn, vfs_withIssuer, hvfs]; rfl
  rw [hv] at hsaved
  cases hsaved

end ListedTwice

/-- Refutes O44: its premises admit states in which FREEZE (`ListedTwice.state`, an image of some bytes) loses the image that it has
kept, or THAW (`SharedIdentifier.state`, an image of none) waits with no slot in its way. -/
theorem not_serviceCommandsComplete : ¬ Obligations.ServiceCommandsComplete := by
  by_cases hz : Config.saveSize = 0
  · exact SharedIdentifier.thaw_refutes hz
  · exact ListedTwice.freeze_refutes hz

end Sys2Proof.Machine

/-! PROOFS. Nodes that access memory or names, lane by lane, and a node's trap (R59, R401, R407, R409). -/
namespace Sys2Proof.Machine
open Sys2Proof.Claims

variable {s t u v : State} {r : Region} {f : NodeRec} {x : Issue} {l : Lane}

/-! ### Discard marks (R409) -/

/-- A hall written back as it is changes nothing. -/
theorem onHall_same (s : State) (k : Nat) {g : Hall → Hall} (h : g (hallAt s k) = hallAt s k) : onHall k g s = s := by
  have e : s.halls.set k (hallAt s k) = s.halls := by
    by_cases hk : k < s.halls.length
    · rw [hallAt, List.getElem?_eq_getElem hk]
      exact List.set_getElem_self hk
    · exact List.set_eq_of_length_le (Nat.not_lt.mp hk)
  simp only [onHall, h, e]

theorem discardTag_reaches (rid tag code : Nat) (s : State) : Reaches (discardTag rid tag code) s () (discarding rid tag code s) := by
  refine (Reaches.get s).bind ?_
  unfold discarding
  cases hr : kget s.regions rid with
  | none => exact Reaches.pure () s
  | some r =>
    cases hi : tagInv s r rid tag with
    | none => simpa only [hi] using Reaches.pure () s
    | some k =>
      simp only [hi, markDiscard]
      refine (modHall_reaches _ _ s).congr ?_
      cases hk : kget (hallAt s r.hall).invs k with
      | none => exact onHall_same s r.hall (by rw [hk])
      | some i => simp only [onHall, hk]

/-! ### The lanes of an access -/

/-- What a lane of a node that accesses memory or names does (R59, R407). -/
def laneStart (f : NodeRec) (x : Issue) (go : Lane → State → State) (u : State) (l : Lane) : State :=
  match firstPoison l with
  | some t => discarding x.rid l.tag (bits t.value.toNat 0 16)
      (laneSent f x l (some { t with tag := l.tag, packet := [] }, some { t with tag := l.tag, packet := [] }) u)
  | none => if gateOpen f l then go l u else u

theorem lanesStart_eq (f : NodeRec) (x : Issue) (go : Lane → State → State) (s : State) :
    lanesStart f x go s = { x.lanes.foldl (laneStart f x go) s with issue := none } := rfl

/-- The lanes of an access of which none traps. -/
theorem accessLanes_reaches {body : Issue → Region → Lane → M LaneOut} (hf : Fires s x r) (go : Lane → State → State) (P : State → Prop)
    (hs : P s)
    (hlane : ∀ u l, l ∈ x.lanes → firing f l = true → P u →
      ∃ r' out w, kget u.regions x.rid = some r' ∧ Reaches (body x r' l) u (.emit out.1 out.2) w ∧ laneSent f x l out w = go l u)
    (hkeep : ∀ u l, l ∈ x.lanes → P u → P (laneStart f x go u l)) :
    Reaches (lanesM f .access body) s () (x.lanes.foldl (laneStart f x go) s) := by
  refine (myIssue_reaches hf.1 hf.2.1).bind ?_
  dsimp only
  refine ((collect_none (h := fun p u => laneStart f x go u p.1) P x.lanes.zipIdx s hs ?_).bind ?_).congr
    (foldl_zipIdx (fun l u => laneStart f x go u l) x.lanes 0 s)
  · intro p hp u hu
    have hl : p.1 ∈ x.lanes := (List.mem_zipIdx hp).2.2 ▸ List.getElem_mem _
    refine ⟨?_, hkeep u p.1 hl hu⟩
    simp only [reduceCtorEq, if_false]
    cases hq : firstPoison p.1 with
    | some t =>
      simp only [laneStart, hq]
      exact (Reaches.get u).bind (Reaches.bind ((delivered_reaches _ _ _ _).bind (delivered_reaches _ _ _ _))
        ((discardTag_reaches _ _ _ _).bind (Reaches.pure _ _)))
    | none =>
      simp only [laneStart, hq, Option.isSome_none, Bool.and_false, Bool.or_false]
      by_cases hg : gateOpen f p.1 = true
      · obtain ⟨r', out, w, hr', hb, hgo⟩ := hlane u p.1 hl (by simp [firing, hq, hg]) hu
        simp only [hg, if_true]
        refine (Reaches.get u).bind ?_
        simp only [hr', ← hgo]
        exact hb.bind (laneOut_emit x f p.2 p.1 out.1 out.2 w)
      · simp only [hg, Bool.false_eq_true, if_false]
        exact Reaches.pure _ u
  · have e : (x.lanes.zipIdx.map fun _ => (none : Option (Nat × Lane × TrapRec))).filterMap id = [] := by simp [List.filterMap_map]
    rw [e]
    exact Reaches.pure () _

/-- An issue of one lane that fires its node: what its body answers is carried out, and a trap of it is raised. -/
theorem lanesM_one {rule : PoisonRule} {body : Issue → Region → Lane → M LaneOut} {o : LaneOut} {c : Option (Nat × Lane × TrapRec)}
    (hf : Fires s x r) (hl : x.lanes = [l]) (hfi : firing f l = true) (hb : Reaches (body x r l) s o t) (ho : Reaches (laneOut x f 0 l o) t c u)
    (hc : Reaches (raiseLanes x c.toList) u () v) : Reaches (lanesM f rule body) s () v := by
  obtain ⟨hp, hg⟩ : firstPoison l = none ∧ gateOpen f l = true := by simpa [firing] using hfi
  refine (myIssue_reaches hf.1 hf.2.1).bind ?_
  dsimp only
  rw [hl]
  refine Reaches.bind (a := [c]) (t := u) (Reaches.collect_cons ?_ (Reaches.collect_nil _ u)) ?_
  · simp only [hp, ite_self, hg, Bool.true_or, if_true]
    refine (Reaches.get s).bind ?_
    simp only [hf.2.1]
    exact hb.bind ho
  · have e : List.filterMap id [c] = c.toList := by cases c <;> rfl
    rw [e]
    exact hc

/-- An access of one lane that starts and sends nothing now. -/
theorem accessLane_reaches {rule : PoisonRule} {body : Issue → Region → Lane → M LaneOut} (hf : Fires s x r) (hl : x.lanes = [l])
    (hfi : firing f l = true) (hb : Reaches (body x r l) s (.emit none none) t) : Reaches (lanesM f rule body) s () t :=
  lanesM_one hf hl hfi hb (laneOut_emit x f 0 l none none t) (Reaches.pure () t)

/-! ### A node's trap (R401) -/

theorem pended_kin (f : NodeRec) (x : Issue) (src code : Nat) (s : State) (l : Lane) : Kin s (pended f x src code s l) := by
  unfold pended
  dsimp only
  split
  · exact Kin.refl s
  · exact (emitted_kin _ _ _ _ _).trans (emitted_kin _ _ _ _ _)

theorem Handles.of_core {r' : Region} (h : Handles r) (e : r'.core = r.core) : Handles r' := by
  obtain ⟨h1, h2, h3, h4, h5⟩ := h
  exact ⟨core_trap e ▸ h1, core_traps e ▸ h2, core_state e ▸ h3, core_saved e ▸ h4, core_sys e ▸ h5⟩

/-- The state with a trap raised in a region. -/
def raised (k : Nat) (e : TrapRec) (s : State) : State := onRegion k (fun r => { r with traps := r.traps ++ [e] }) s

/-- A region that has a handler takes its one trap (R397, R401). -/
theorem deliverTraps_raised {k : Nat} {e : TrapRec} (hq : trapWaiting s = none) (hr : kget s.regions k = some r) (hh : Handles r) :
    Reaches deliverTraps (raised k e s) () (onRegion k (handling e) s) := by
  obtain ⟨htrap, htraps, hstate, hsaved, hvec⟩ := hh
  have eraised : raised k e s = { s with regions := kset s.regions k { r with traps := [e] } } := by simp [raised, onRegion, hr, htraps]
  have hwait : trapWaiting (raised k e s) = some (k, { r with traps := [e] }) := by
    rw [eraised]
    unfold trapWaiting at *
    rw [List.find?_eq_none] at hq
    obtain ⟨p, hp⟩ : ∃ p, (kset s.regions k { r with traps := [e] }).find?
        (fun p => p.2.trap.isNone && !p.2.traps.isEmpty && p.2.state != .free && p.2.saved.isNone) = some p := by
      rw [← Option.isSome_iff_exists, List.find?_isSome]
      exact ⟨_, mem_of_kget (kget_kset_self _ _ _), by simp [htrap, hstate, hsaved]⟩
    rcases mem_kset (List.mem_of_find?_eq_some hp) with rfl | hmem
    · exact hp
    · exact absurd (List.find?_some hp) (hq p hmem)
  have htaken : Reaches (takeTrap k { r with traps := [e] }) (raised k e s) () (onRegion k (handling e) s) := by
    simp only [takeTrap, hvec, if_true]
    refine (Reaches.eff _ _).congr ?_
    simp [eraised, onRegion, hr, handling, ← htraps]
  have hquiet : trapWaiting (onRegion k (handling e) s) = none := by
    unfold trapWaiting at *
    rw [List.find?_eq_none] at *
    intro p hp
    simp only [onRegion, hr] at hp
    rcases mem_kset hp with rfl | hp
    · simp [handling]
    · exact hq p hp
  refine (Reaches.get _).bind ?_
  rw [show 2 * ((raised k e s).regions.length + 1) = 2 * (raised k e s).regions.length + 1 + 1 from rfl]
  refine (Reaches.get _).bind ?_
  simp only [hwait]
  exact htaken.bind fun _ es hs => ⟨es, deliver_none (l := { cur := _, effs := es }) hquiet _, hs⟩

/-- The lane of an issue of one lane traps: its trap is raised behind its pending poison (R401). -/
theorem raiseLanes_one {code operand src : Nat} (hr : kget s.regions x.rid = some r) (hl : x.lanes = [l]) :
    Reaches (raiseLanes x [(0, l, { code := code, operand := operand, src := src, fed := [[f.da, f.db]] })]) s ()
      (raised x.rid (nodeTrap f r x src code operand) (pended f x src code s l)) := by
  have hpend : Reaches (each (if x.retry then [] else [(0, l, [f.da, f.db])]) (fun p => each p.2.2 (fun d =>
      emitTo x.rid x.cell d { value := poisonValue true src code, tag := p.2.1.tag, kind := .poison }))) s () (pended f x src code s l) := by
    have hboth : ∀ t : Token, Reaches (each [f.da, f.db] (fun d => emitTo x.rid x.cell d t)) s ()
        (emitted x.rid x.cell f.db t (emitted x.rid x.cell f.da t s)) := fun t =>
      Reaches.each_cons (f := fun d => emitTo x.rid x.cell d t) (emitTo_reaches _ _ _ _ _)
        (Reaches.each_cons (emitTo_reaches _ _ _ _ _) (Reaches.each_nil _ _))
    unfold pended
    cases x.retry with
    | true => exact Reaches.each_nil _ s
    | false => exact (hboth _).each_cons (Reaches.each_nil _ _)
  obtain ⟨r', hr', -⟩ := (pended_kin f x src code s l).get hr
  simp only [raiseLanes, raiseNode, List.map_cons, List.map_nil]
  refine (Reaches.get s).bind ?_
  simp only [hr]
  refine hpend.bind ((modRegion_reaches _ _ hr').congr ?_)
  simp [raised, onRegion, hr', nodeTrap, hl]

/-- A node of which the one lane traps: the region's handler starts (R401). -/
theorem node_trap {rule : PoisonRule} {body : Issue → Region → Lane → M LaneOut} {code operand src : Nat} (hf : Fires s x r)
    (hl : x.lanes = [l]) (hfi : firing f l = true) (hh : Handles r) (hb : Reaches (body x r l) s (.trap code operand src) s) :
    runNode (lanesM f rule body) s =
      .next { onRegion x.rid (handling (nodeTrap f r x src code operand)) (pended f x src code s l) with issue := none } := by
  have ho : Reaches (laneOut x f 0 l (.trap code operand src)) s (some (0, l, { code := code, operand := operand, src := src, fed := [[f.da, f.db]] })) s :=
    (Reaches.get s).bind (Reaches.pure _ s)
  have hk := pended_kin f x src code s l
  obtain ⟨r', hr', hcore⟩ := hk.get hf.2.1
  have hdeliver := deliverTraps_raised (s := { pended f x src code s l with issue := none }) (e := nodeTrap f r x src code operand)
    (hk.2 hf.2.2) hr' (hh.of_core hcore)
  unfold runNode runE
  refine Reaches.next ?_ _
  refine ((lanesM_one hf hl hfi hb ho (raiseLanes_one hf.2.1 hl)).bind ((Reaches.eff (.issue none) _).bind ?_))
  have e : ∀ g, (Effect.issue none).apply (onRegion x.rid g (pended f x src code s l)) = onRegion x.rid g { pended f x src code s l with issue := none } := by
    intro g
    simp [onRegion, hr']
  rw [raised, e]
  exact hdeliver.congr (e _).symm

end Sys2Proof.Machine

/-! PROOFS. Folds and their slots: what a name request does at its slot, and the requests that wait (R72 to R88, R296). -/
namespace Sys2Proof.Machine
open Sys2Proof.Claims

variable {s t u : State} {r : Region} {q : NameReq} {y z : Fold} {stmt i : Nat} {sl : FoldSlot}

/-! ### A fold of a region's name space -/

/-- Only a hall that is there has folds. -/
theorem hall_lt_of_fold (hy : liveFoldOf s r stmt = some y) : r.hall < s.halls.length := by
  by_contra hk
  rw [liveFoldOf, hallAt, List.getElem?_eq_none (Nat.not_lt.mp hk)] at hy
  cases hy

theorem hallAt_onHall {k : Nat} (h : k < s.halls.length) (g : Hall → Hall) : hallAt (onHall k g s) k = g (hallAt s k) := by
  rw [hallAt, onHall, List.getElem?_set_self h]; rfl

theorem hallAt_withFold (hy : liveFoldOf s r stmt = some y) (z : Fold) :
    hallAt (withFold s r stmt z) r.hall = { hallAt s r.hall with folds := kset (hallAt s r.hall).folds (foldKey r.ctx stmt) z } :=
  hallAt_onHall (hall_lt_of_fold hy) fun h => { h with folds := kset h.folds (foldKey r.ctx stmt) z }

theorem liveFoldOf_withFold (hy : liveFoldOf s r stmt = some y) (z : Fold) : liveFoldOf (withFold s r stmt z) r stmt = some z := by
  rw [liveFoldOf, hallAt_withFold hy]
  exact kget_kset_self _ _ _

theorem withFold_withFold (hy : liveFoldOf s r stmt = some y) (w z : Fold) : withFold (withFold s r stmt w) r stmt z = withFold s r stmt z := by
  rw [withFold, hallAt_withFold hy]
  simp [withFold]

/-- A fold that is live is changed (R77). -/
theorem modFold_reaches (hy : liveFoldOf s r stmt = some y) (g : Fold → Fold) :
    Reaches (modFold r.hall (foldKey r.ctx stmt) g) s () (withFold s r stmt (g y)) := by
  refine (modHall_reaches _ _ s).congr ?_
  rw [liveFoldOf] at hy
  simp only [onHall, hy, withFold]

/-- Tokens find the same invocations open, whatever a hall's folds (R135). -/
theorem openSerial_withFold (s : State) (r : Region) (stmt : Nat) (z : Fold) : openSerial (withFold s r stmt z) = openSerial s := by
  have e : (withFold s r stmt z).halls.map (·.invs) = s.halls.map (·.invs) := by
    have hset : (withFold s r stmt z).halls.map (·.invs) = (onHall r.hall id s).halls.map (·.invs) := by
      simp only [withFold, onHall, List.map_set, id]
    rw [hset, onHall_same s r.hall rfl]
  funext k
  have hany : ∀ l : List Hall, l.any (fun h => h.invs.any (fun p => p.2.serial == k)) = (l.map (·.invs)).any (fun m => m.any (fun p => p.2.serial == k)) :=
    fun l => by rw [List.any_map]; rfl
  unfold openSerial
  rw [hany, hany, e]
  rfl

theorem after_withFold (s : State) (r : Region) (stmt : Nat) (z : Fold) (past : List Nat) (t : Token) :
    t.after (withFold s r stmt z) past = t.after s past := by
  unfold Token.after
  rw [openSerial_withFold]

/-! ### The slot of a request (R76) -/

theorem reqSlot_eq (hr : kget s.regions q.rid = some r) (hy : liveFoldOf s r q.stmt = some y) :
    reqSlot s q = some (r.hall, foldKey r.ctx q.stmt, slotIndex y.lattice (fieldsOf r.header q.name), y, slotOf r y q.name) := by
  rw [liveFoldOf] at hy
  simp only [reqSlot, hr, hy]
  rfl

theorem reqSlot_fold {a : Nat × Nat × Nat × Fold × FoldSlot} (h : reqSlot s q = some a) :
    ∃ r, kget s.regions q.rid = some r ∧ a.1 = r.hall ∧ a.2.1 = foldKey r.ctx q.stmt := by
  unfold reqSlot at h
  cases hr : kget s.regions q.rid with
  | none => rw [hr] at h; cases h
  | some r =>
    refine ⟨r, rfl, ?_⟩
    simp only [hr] at h
    split at h
    · cases h
    · cases h; exact ⟨rfl, rfl⟩

/-- Whether requests wait on a fold depends on its being there, on the regions and on the requests. -/
theorem unawaited_of_kin (h : unawaited s r.hall (foldKey r.ctx stmt)) (hy : liveFoldOf s r stmt = some y) (hk : Kin s t) (hn : t.names = s.names) :
    unawaited t r.hall (foldKey r.ctx stmt) := by
  rintro q hq a ha ⟨h1, h2⟩
  obtain ⟨r', hr', e1, e2⟩ := reqSlot_fold ha
  have hcore := hk.1 q.rid
  rw [hr'] at hcore
  obtain ⟨r0, hr0, hc⟩ := Option.map_eq_some_iff.mp hcore.symm
  have hhall : r0.hall = r.hall := (core_hall hc).trans (e1.symm.trans h1)
  have hctx : r0.ctx = r'.ctx := (congrArg Region.ctx hc :)
  have hkey : foldKey r0.ctx q.stmt = foldKey r.ctx stmt := by rw [hctx, ← e2, h2]
  have hy' : liveFoldOf s r0 q.stmt = some y := by rw [liveFoldOf, hhall, hkey]; exact hy
  exact h q (hn ▸ hq) _ (reqSlot_eq hr0 hy') ⟨hhall, hkey⟩

/-! ### Slots put and flagged (R78, R86) -/

/-- The slots with one stored; an Empty slot without flags is not listed. -/
def slotsPut (m : KMap FoldSlot) (i : Nat) (sl : FoldSlot) : KMap FoldSlot := if sl.state = .empty ∧ ¬sl.wr ∧ ¬sl.rd then kdel m i else kset m i sl

/-- The occupied slots, without the flags of requests that wait. -/
def bareSlots (m : KMap FoldSlot) : KMap FoldSlot := (m.map (fun p => (p.1, { p.2 with wr := false, rd := false }))).filter (fun p => p.2.state != .empty)

/-- The flag of a request that waits at a slot: WR of a write, RD of a read. -/
def flagSlot (m : KMap FoldSlot) (w : Nat × Bool) : KMap FoldSlot :=
  let sl := kgetD m w.1 emptySlot
  kset m w.1 (if w.2 then { sl with wr := true } else { sl with rd := true })

/-- The requests that wait on a fold: each with its slot, and whether it writes. -/
def waitersOf (s : State) (hall key : Nat) : List (Nat × Bool) :=
  s.names.filterMap (fun q => match reqSlot s q with
    | some (h, k, i, _, _) => if h = hall ∧ k = key then some (i, q.write) else none
    | none => none)

theorem putSlot_reaches (hy : liveFoldOf s r stmt = some y) (i : Nat) (sl : FoldSlot) :
    Reaches (putSlot r.hall (foldKey r.ctx stmt) i sl) s () (withFold s r stmt { y with slots := slotsPut y.slots i sl }) :=
  modFold_reaches hy _

theorem reflag_reaches (hy : liveFoldOf s r stmt = some y) :
    Reaches (reflag r.hall (foldKey r.ctx stmt)) s ()
      (withFold s r stmt { y with slots := (waitersOf s r.hall (foldKey r.ctx stmt)).foldl flagSlot (bareSlots y.slots) }) :=
  (Reaches.get s).bind (modFold_reaches hy _)

theorem waitersOf_unawaited {hall key : Nat} (h : unawaited s hall key) : waitersOf s hall key = [] := by
  rw [waitersOf, List.filterMap_eq_nil_iff]
  intro q hq
  cases ha : reqSlot s q with
  | none => rfl
  | some a =>
    obtain ⟨h1, k1, j, f, sl⟩ := a
    exact if_neg (h q hq _ ha)

theorem mem_waitersOf (hq : q ∈ s.names) (hr : kget s.regions q.rid = some r) (hy : liveFoldOf s r q.stmt = some y) :
    (slotIndex y.lattice (fieldsOf r.header q.name), q.write) ∈ waitersOf s r.hall (foldKey r.ctx q.stmt) :=
  List.mem_filterMap.mpr ⟨q, hq, by rw [reqSlot_eq hr hy]; exact if_pos ⟨rfl, rfl⟩⟩

theorem kget_kdel_self {α : Type} (m : KMap α) (k : Nat) : kget (kdel m k) k = none := by
  induction m with
  | nil => rfl
  | cons p m ih =>
    obtain ⟨j, v⟩ := p
    by_cases h : j = k
    · simpa [kdel, h] using ih
    · simpa [kdel, h, kget] using ih

theorem kget_bareSlots_none {m : KMap FoldSlot} (h : kget m i = none) : kget (bareSlots m) i = none := by
  induction m with
  | nil => rfl
  | cons p m ih =>
    obtain ⟨j, v⟩ := p
    by_cases hj : j = i
    · simp [kget, hj] at h
    · have := ih (by simpa [kget, hj] using h)
      by_cases hv : v.state = .empty <;> simpa [bareSlots, hv, kget, hj] using this

theorem kget_bareSlots_occupied {m : KMap FoldSlot} (h : kget m i = some sl) (ho : sl.state ≠ .empty) :
    kget (bareSlots m) i = some { sl with wr := false, rd := false } := by
  induction m with
  | nil => cases h
  | cons p m ih =>
    obtain ⟨j, v⟩ := p
    by_cases hj : j = i
    · obtain rfl : v = sl := by simpa [kget, hj] using h
      simp [bareSlots, ho, kget, hj]
    · have := ih (by simpa [kget, hj] using h)
      by_cases hv : v.state = .empty <;> simpa [bareSlots, hv, kget, hj] using this

theorem kget_none_of_below {α : Type} {m : KMap α} {k : Nat} (h : ∀ p ∈ m, k < p.1) : kget m k = none := by
  by_contra hne
  obtain ⟨v, hv⟩ := Option.ne_none_iff_exists'.mp hne
  exact absurd (h _ (mem_of_kget hv)) (lt_irrefl k)

theorem kget_bareSlots_empty {m : KMap FoldSlot} (hm : rising (m.map (·.1)) = true) (h : kget m i = some sl) (ho : sl.state = .empty) :
    kget (bareSlots m) i = none := by
  rw [rising_iff] at hm
  induction m with
  | nil => cases h
  | cons p m ih =>
    obtain ⟨j, v⟩ := p
    rw [List.map_cons, List.pairwise_cons] at hm
    by_cases hj : j = i
    · obtain rfl : v = sl := by simpa [kget, hj] using h
      have hrest := kget_bareSlots_none (kget_none_of_below (m := m) (k := i) fun p hp => hj ▸ hm.1 _ (List.mem_map_of_mem hp))
      simpa [bareSlots, ho] using hrest
    · have := ih hm.2 (by simpa [kget, hj] using h)
      by_cases hv : v.state = .empty <;> simpa [bareSlots, hv, kget, hj] using this

/-- A slot without its flags; an Empty one is like one that is not listed. -/
theorem kgetD_bareSlots_empty {m : KMap FoldSlot} (hm : rising (m.map (·.1)) = true) (h : (kgetD m i emptySlot).state = .empty) :
    kgetD (bareSlots m) i emptySlot = emptySlot := by
  unfold kgetD at *
  cases hk : kget m i with
  | none => rw [kget_bareSlots_none hk]; rfl
  | some sl => rw [hk] at h; rw [kget_bareSlots_empty hm hk h]; rfl

theorem kgetD_bareSlots_occupied {m : KMap FoldSlot} (h : (kgetD m i emptySlot).state ≠ .empty) :
    kgetD (bareSlots m) i emptySlot = { kgetD m i emptySlot with wr := false, rd := false } := by
  unfold kgetD at *
  cases hk : kget m i with
  | none => rw [hk] at h; exact absurd rfl h
  | some sl => rw [hk] at h; rw [kget_bareSlots_occupied hk h]; rfl

theorem kgetD_bareSlots_state {m : KMap FoldSlot} (hm : rising (m.map (·.1)) = true) (i : Nat) :
    (kgetD (bareSlots m) i emptySlot).state = (kgetD m i emptySlot).state := by
  by_cases h : (kgetD m i emptySlot).state = .empty
  · rw [kgetD_bareSlots_empty hm h, h]; rfl
  · rw [kgetD_bareSlots_occupied h]

/-- An occupied slot that is stored where no request waits. -/
theorem kgetD_bareSlots_put (m : KMap FoldSlot) (i : Nat) (ho : sl.state ≠ .empty) :
    kgetD (bareSlots (slotsPut m i sl)) i emptySlot = { sl with wr := false, rd := false } := by
  rw [slotsPut, if_neg fun h => ho h.1]
  unfold kgetD
  rw [kget_bareSlots_occupied (kget_kset_self m i sl) ho]; rfl

/-- A slot that is emptied where no request waits. -/
theorem kgetD_bareSlots_emptied (m : KMap FoldSlot) (i : Nat) : kgetD (bareSlots (slotsPut m i emptySlot)) i emptySlot = emptySlot := by
  rw [slotsPut, if_pos ⟨rfl, by decide, by decide⟩]
  unfold kgetD
  rw [kget_bareSlots_none (kget_kdel_self m i)]; rfl

/-- A slot after the flags of requests that wait: its occupant is as it was. -/
theorem kgetD_flagged (i : Nat) : ∀ (l : List (Nat × Bool)) (m : KMap FoldSlot),
    kgetD (l.foldl flagSlot m) i emptySlot =
      { kgetD m i emptySlot with
        wr := (kgetD m i emptySlot).wr || l.contains (i, true), rd := (kgetD m i emptySlot).rd || l.contains (i, false) }
  | [], m => by simp
  | (j, w) :: l, m => by
    rw [List.foldl_cons, kgetD_flagged i l]
    have hone : kgetD (flagSlot m (j, w)) i emptySlot =
        if i = j then (if w then { kgetD m i emptySlot with wr := true } else { kgetD m i emptySlot with rd := true }) else kgetD m i emptySlot := by
      simp only [flagSlot, kgetD, kget_kset]
      by_cases hj : i = j
      · subst hj; simp
      · simp [hj]
    rw [hone]
    by_cases hj : i = j
    · subst hj; cases w <;> simp
    · simp [hj]

/-- A slot at which a read waits. -/
theorem kgetD_flagged_read {l : List (Nat × Bool)} (m : KMap FoldSlot) (h : l.contains (i, false) = true) :
    kgetD (l.foldl flagSlot m) i emptySlot =
      { kgetD m i emptySlot with wr := (kgetD m i emptySlot).wr || l.contains (i, true), rd := true } := by
  rw [kgetD_flagged, h, Bool.or_true]

/-! ### Requests that are not of a fold -/

/-- Where no request waits on a fold none is served (R85). -/
theorem settle_unawaited {hall key : Nat} (h : unawaited s hall key) : ∀ n, Reaches (settle hall key n) s () s
  | 0 => Reaches.pure () s
  | n + 1 => by
    have hnone : ∀ p : NameReq → Bool, (∀ q, p q = true → ∃ a, reqSlot s q = some a ∧ a.1 = hall ∧ a.2.1 = key) → s.names.find? p = none :=
      fun p hp => List.find?_eq_none.mpr fun q hq hpq => by
        obtain ⟨a, ha, hkey⟩ := hp q hpq
        exact h q hq a ha hkey
    refine (Reaches.get s).bind ?_
    dsimp only
    rw [hnone _ ?_, hnone _ ?_]
    · exact Reaches.pure () s
    all_goals
      intro q hpq
      cases ha : reqSlot s q with
      | none => simp [ha] at hpq
      | some a =>
        simp only [ha, Bool.and_eq_true, beq_iff_eq] at hpq
        exact ⟨a, rfl, hpq.1.1⟩

theorem settleFold_unawaited (hy : liveFoldOf s r stmt = some y) (h : unawaited s r.hall (foldKey r.ctx stmt)) :
    Reaches (settleFold r.hall (foldKey r.ctx stmt)) s () (withFold s r stmt { y with slots := bareSlots y.slots }) := by
  have hflag := reflag_reaches hy
  rw [waitersOf_unawaited h] at hflag
  exact (Reaches.get s).bind ((settle_unawaited h _).bind hflag)

/-! ### A request at its slot (R81, R83) -/

/-- A request that is served where no other waits: its slot is stored, and its answer goes (R81, R83). -/
theorem presentName_served {sl' : FoldSlot} (hr : kget s.regions q.rid = some r) (hy : liveFoldOf s r q.stmt = some y)
    (hview : slotView q y (slotOf r y q.name) = .serve sl') (hun : unawaited s r.hall (foldKey r.ctx q.stmt))
    (hans : Reaches (answerName q (slotOf r y q.name))
      (withFold s r q.stmt { y with slots := slotsPut y.slots (slotIndex y.lattice (fieldsOf r.header q.name)) sl' }) () u)
    (hhalls : u.halls = (withFold s r q.stmt { y with slots := slotsPut y.slots (slotIndex y.lattice (fieldsOf r.header q.name)) sl' }).halls)
    (hk : Kin s u) (hn : u.names = s.names) :
    Reaches (presentName q) s ()
      (withFold u r q.stmt { y with slots := bareSlots (slotsPut y.slots (slotIndex y.lattice (fieldsOf r.header q.name)) sl') }) := by
  have htry : Reaches (tryName q) s true u := by
    refine (Reaches.get s).bind ?_
    simp only [reqSlot_eq hr hy, hview]
    exact (putSlot_reaches hy _ _).bind (hans.bind (Reaches.pure _ _))
  obtain ⟨r', hr', hcore⟩ := hk.get hr
  have hyu : liveFoldOf u r q.stmt = some { y with slots := slotsPut y.slots (slotIndex y.lattice (fieldsOf r.header q.name)) sl' } := by
    rw [← liveFoldOf_withFold hy]
    simp only [liveFoldOf, hallAt, hhalls]
  have hhall : r'.hall = r.hall := core_hall hcore
  have hctx : r'.ctx = r.ctx := (congrArg Region.ctx hcore :)
  have hyu' : liveFoldOf u r' q.stmt = liveFoldOf u r q.stmt := by rw [liveFoldOf, hhall, hctx]; rfl
  refine htry.bind ((Reaches.get u).bind ?_)
  simp only [reqSlot_eq hr' (hyu'.trans hyu), hhall, hctx, if_true]
  exact settleFold_unawaited hyu (unawaited_of_kin hun hy hk hn)

/-- A request that its slot does not answer waits behind the others (R81, R83, R87). -/
theorem presentName_waits (hr : kget s.regions q.rid = some r) (hy : liveFoldOf s r q.stmt = some y)
    (hview : slotView q y (slotOf r y q.name) = .waits) :
    Reaches (presentName q) s () (withFold { s with names := s.names ++ [q] } r q.stmt
      { y with slots := (waitersOf { s with names := s.names ++ [q] } r.hall (foldKey r.ctx q.stmt)).foldl flagSlot (bareSlots y.slots) }) := by
  have htry : Reaches (tryName q) s false s := by
    refine (Reaches.get s).bind ?_
    simp only [reqSlot_eq hr hy, hview]
    exact Reaches.pure _ s
  refine htry.bind ((Reaches.get s).bind ?_)
  simp only [reqSlot_eq hr hy, Bool.false_eq_true, if_false]
  exact (Reaches.eff _ s).bind (reflag_reaches (s := { s with names := s.names ++ [q] }) hy)

/-! ### Replies (R52, R130) -/

/-- Sending changes regions and channels alone. -/
theorem stirred_frame (rid : Nat) (s : State) : ∃ R, stirred rid s = { s with regions := R } := by
  unfold stirred
  split
  · exact ⟨_, rfl⟩
  · exact ⟨s.regions, rfl⟩

theorem foldl_sentOn_frame (t : Token) : ∀ (l : List Edge) (s : State), ∃ C, l.foldl (sentOn t) s = { s with chans := C }
  | [], s => ⟨s.chans, rfl⟩
  | e :: l, s => by
    obtain ⟨C, h⟩ := foldl_sentOn_frame t l (sentOn t s e)
    exact ⟨C, h⟩

theorem emitted_frame (rid cell : Nat) (d : Dest) (t : Token) (s : State) : ∃ R C, emitted rid cell d t s = { s with regions := R, chans := C } := by
  unfold emitted
  split
  · next r _ =>
    obtain ⟨C, hc⟩ := foldl_sentOn_frame t (destEdges s rid r cell d t.tag) s
    obtain ⟨R, hr⟩ := stirred_frame rid { s with chans := C }
    exact ⟨R, C, by rw [hc, hr]⟩
  · exact ⟨s.regions, s.chans, rfl⟩

/-- Tokens go the same ways whatever the halls hold. -/
theorem stirred_halls (rid : Nat) (s : State) (H : List Hall) : stirred rid { s with halls := H } = { stirred rid s with halls := H } := by
  simp only [stirred]
  cases kget s.regions rid <;> rfl

theorem foldl_sentOn_halls (t : Token) (H : List Hall) : ∀ (l : List Edge) (s : State),
    l.foldl (sentOn t) { s with halls := H } = { l.foldl (sentOn t) s with halls := H }
  | [], _ => rfl
  | e :: l, s => foldl_sentOn_halls t H l (sentOn t s e)

theorem emitted_halls (rid cell : Nat) (d : Dest) (t : Token) (s : State) (H : List Hall) :
    emitted rid cell d t { s with halls := H } = { emitted rid cell d t s with halls := H } := by
  simp only [emitted]
  cases kget s.regions rid with
  | none => rfl
  | some r => exact (congrArg (stirred rid) (foldl_sentOn_halls t H _ s)).trans (stirred_halls rid _ H)

/-- A reply's tokens sent, the first to da, the second to db. -/
def replied (rid cell : Nat) (da db : Dest) (a b : Token) (s : State) : State := stirred rid (emitted rid cell db b (emitted rid cell da a s))

theorem replied_frame (rid cell : Nat) (da db : Dest) (a b : Token) (s : State) : ∃ R C, replied rid cell da db a b s = { s with regions := R, chans := C } := by
  obtain ⟨R1, C1, h1⟩ := emitted_frame rid cell da a s
  obtain ⟨R2, C2, h2⟩ := emitted_frame rid cell db b { s with regions := R1, chans := C1 }
  obtain ⟨R3, h3⟩ := stirred_frame rid { s with regions := R2, chans := C2 }
  exact ⟨R3, C2, by rw [replied, h1, h2, h3]⟩

theorem replied_halls (rid cell : Nat) (da db : Dest) (a b : Token) (s : State) (H : List Hall) :
    replied rid cell da db a b { s with halls := H } = { replied rid cell da db a b s with halls := H } := by
  simp only [replied, emitted_halls, stirred_halls]

theorem replied_kin (rid cell : Nat) (da db : Dest) (a b : Token) (s : State) : Kin s (replied rid cell da db a b s) :=
  ((emitted_kin _ _ _ _ _).trans (emitted_kin _ _ _ _ _)).trans (stirred_kin _ _)

theorem replied_mem (rid cell : Nat) (da db : Dest) (a b : Token) (s : State) : (replied rid cell da db a b s).mem = s.mem := by
  obtain ⟨R, C, h⟩ := replied_frame rid cell da db a b s
  rw [h]

theorem replied_names (rid cell : Nat) (da db : Dest) (a b : Token) (s : State) : (replied rid cell da db a b s).names = s.names := by
  obtain ⟨R, C, h⟩ := replied_frame rid cell da db a b s
  rw [h]

theorem liveFoldOf_replied {rid cell : Nat} {da db : Dest} {a b : Token} (hy : liveFoldOf s r stmt = some y) :
    liveFoldOf (replied rid cell da db a b s) r stmt = some y := by
  obtain ⟨R, C, h⟩ := replied_frame rid cell da db a b s
  rw [h]
  exact hy

/-- A reply leaves at once where its tokens have places (R52). -/
theorem sendReply_reaches {p : Req} {a b : Token} (hp : p.retry = false) (hroom : roomAll s p.rid p.cell [(p.da, a.tag), (p.db, b.tag)] = true) :
    Reaches (sendReply p (some a) (some b)) s () (replied p.rid p.cell p.da p.db (a.after s p.lane.past) (b.after s p.lane.past) s) := by
  have hroom' : roomAll s p.rid p.cell [(p.da, (a.after s p.lane.past).tag), (p.db, (b.after s p.lane.past).tag)] = true := hroom
  refine (Reaches.get s).bind ?_
  simp only [hp, Bool.false_eq_true, if_false, Option.map_some, List.cons_append, List.nil_append, List.map_cons, List.map_nil, hroom', if_true]
  exact Reaches.bind (Reaches.each_cons (emitTo_reaches _ _ _ _ _) (Reaches.each_cons (emitTo_reaches _ _ _ _ _) (Reaches.each_nil _ _))) (stir_reaches _ _)

/-- A node's request that is served where no other waits, and answers at once with two tokens. -/
theorem presentName_replies {sl' : FoldSlot} {a b : Token} (hr : kget s.regions q.rid = some r) (hy : liveFoldOf s r q.stmt = some y)
    (hview : slotView q y (slotOf r y q.name) = .serve sl') (hun : unawaited s r.hall (foldKey r.ctx q.stmt))
    (hans : answerName q (slotOf r y q.name) = sendReply q.req (some a) (some b)) (hretry : q.retry = false)
    (hroom : roomAll s q.rid q.cell [(q.da, a.tag), (q.db, b.tag)] = true) :
    Reaches (presentName q) s ()
      (withFold (replied q.rid q.cell q.da q.db (a.after s q.lane.past) (b.after s q.lane.past) s) r q.stmt
        { y with slots := bareSlots (slotsPut y.slots (slotIndex y.lattice (fieldsOf r.header q.name)) sl') }) := by
  generalize hi : slotIndex y.lattice (fieldsOf r.header q.name) = i
  let y1 : Fold := { y with slots := slotsPut y.slots i sl' }
  let s1 := withFold s r q.stmt y1
  obtain ⟨R, C, hframe⟩ := replied_frame q.rid q.cell q.da q.db (a.after s q.lane.past) (b.after s q.lane.past) s
  have hreply : Reaches (answerName q (slotOf r y q.name)) s1 () { s1 with regions := R, chans := C } := by
    rw [hans]
    refine (sendReply_reaches (s := s1) (p := q.req) hretry hroom).congr ?_
    show replied q.rid q.cell q.da q.db (a.after s1 q.lane.past) (b.after s1 q.lane.past) { s with halls := s1.halls } = _
    rw [after_withFold, after_withFold, replied_halls, hframe]
    rfl
  have hkin : Kin s { s1 with regions := R, chans := C } := by
    have hk := replied_kin q.rid q.cell q.da q.db (a.after s q.lane.past) (b.after s q.lane.past) s
    rw [hframe] at hk
    exact hk.trans (Kin.of_regions rfl)
  subst hi
  refine (presentName_served hr hy hview hun hreply rfl hkin rfl).congr ?_
  rw [hframe]
  exact withFold_withFold (s := { s with regions := R, chans := C }) hy y1 _

end Sys2Proof.Machine

/-! PROOFS. NRD, NWR, NPROBE, and the trap of a name outside its level's extent (R74, R81 to R88, R296, R426). -/
namespace Sys2Proof.Machine
open Sys2Proof.Claims

variable {s t u : State} {r r' : Region} {f : NodeRec} {x : Issue} {l : Lane} {n : Nat} {y : Fold}

/-! ### A lane's name and its request -/

theorem findName_names (h : Names s r f l n y) : findName s r f l = .ok (n, y) := by
  obtain ⟨hn, hy, -⟩ := h
  simp only [findName, hn, hy]

theorem findName_out_of_range (h : nameOf r f l.tag = none) : findName s r f l = .error (.trap 0x29 (stmtOf f) 0) := by
  simp only [findName, h]

theorem live_of_names (h : Names s r f l n y) : liveFoldOf s r (stmtOf f) = some y := h.2.1

theorem trapWaiting_withFold (s : State) (r : Region) (stmt : Nat) (z : Fold) : trapWaiting (withFold s r stmt z) = trapWaiting s := rfl

theorem slotNow_eq {stmt : Nat} (h : liveFoldOf t r stmt = some y) : slotNow t r stmt n = some (slotOf r y n) := by
  rw [liveFoldOf] at h
  rw [slotNow, h]; rfl

/-- A node of one lane that starts an access and sends nothing of its own. -/
theorem accessNode_next {body : Issue → Region → Lane → M LaneOut} (hf : Fires s x r) (hl : x.lanes = [l]) (hfi : firing f l = true)
    (hb : Reaches (body x r l) s (.emit none none) t) (ht : trapWaiting t = none) :
    runNode (lanesM f .access body) s = .next { t with issue := none } :=
  node_next (accessLane_reaches hf hl hfi hb) ht

/-! ### NRD (R81, R82, R87) -/

theorem execNrd_eq (f : NodeRec) (take : Bool) (s : State) : exec (if take then .nrdTake f else .nrdPeek f) s = runNode (readName take f) s := by
  cases take <;> rfl

theorem nrd_next {take : Bool} (hf : Fires s x r) (hl : x.lanes = [l]) (hfi : firing f l = true) (hn : Names s r f l n y)
    (hq : Reaches (presentName (nameReq s x r f l n take false 0 [])) s () t) (ht : trapWaiting t = none) :
    exec (if take then .nrdTake f else .nrdPeek f) s = .next { t with issue := none } := by
  rw [execNrd_eq]
  refine accessNode_next hf hl hfi ?_ ht
  refine (Reaches.get s).bind ?_
  simp only [findName_names hn]
  exact hq.bind (Reaches.pure _ t)

/-- The slot that an NRD of its occupant leaves: TAKE counts a use, and a Full slot whose last use it takes is Empty (R81). -/
def readLeaves (take : Bool) (sl : FoldSlot) : FoldSlot :=
  let u := if take then sl.uses - 1 else sl.uses
  if take ∧ u = 0 ∧ sl.state = .full then emptySlot else { sl with uses := u }

/-- An NRD of the occupant of a Full slot, or of a slot that its own invocation holds (R81). -/
theorem readSlot_serves {q : NameReq} {lat : Lattice} {sl : FoldSlot} (hname : sl.iv = q.name)
    (hst : sl.state = .full ∨ (sl.state = .held ∧ q.inv = some sl.inv)) (huses : q.take = true → 0 < sl.uses) (hbad : sl.bad = false)
    (hword : if q.ty = .tile then (pktHdr sl.tile).ok = true else q.word < lat.size / 4) :
    readSlot q lat sl = .serve (readLeaves q.take sl) := by
  obtain ⟨iv, stmt, st, uses, wr, rd, inv, tile, bad⟩ := sl
  obtain rfl : iv = q.name := hname
  obtain rfl : bad = false := hbad
  have hin : ¬ (q.ty ≠ .tile ∧ lat.size / 4 ≤ q.word) := by
    rintro ⟨hty, hge⟩
    rw [if_neg hty] at hword
    exact absurd hword (Nat.not_lt.mpr hge)
  have hhdr : ¬ (q.ty = .tile ∧ ¬ (pktHdr tile).ok = true) := by
    rintro ⟨hty, hno⟩
    rw [if_pos hty] at hword
    exact hno hword
  have hzero : ¬ (q.take = true ∧ uses = 0) := fun ⟨htake, h0⟩ => absurd (huses htake) (by simp [h0])
  rw [readSlot, if_neg hin]
  rcases hst with rfl | ⟨rfl, hinv⟩
  · simp only [lt_irrefl, if_false, hzero, hhdr, reduceCtorEq, false_and, Bool.false_eq_true, not_false_eq_true, true_and, readLeaves]
    exact (apply_ite Served.serve _ _ _).symm
  · have hown : q.inv = some inv := hinv
    simp only [lt_irrefl, if_false, hzero, hhdr, hown, reduceCtorEq, ne_eq, not_true_eq_false, and_false, Bool.false_eq_true, not_false_eq_true, true_and,
      readLeaves]

/-- The value that an NRD sends (R82). -/
theorem answerName_read {q : NameReq} {sl : FoldSlot} (hcell : q.cell ≠ 64) (hw : q.write = false) (hbad : sl.bad = false) :
    answerName q sl = sendReply q.req (some (tileValue q.ty q.lane.tag q.word sl.tile)) (some (completion q.lane)) := by
  simp only [answerName, hcell, hw, hbad, if_false, Bool.false_eq_true]

/-- The slot that an NRD leaves where no request waits. -/
theorem kgetD_readLeaves {m : KMap FoldSlot} {i : Nat} {take : Bool} {sl : FoldSlot} (ho : sl.state ≠ .empty) (huses : take = true → 0 < sl.uses) :
    kgetD (bareSlots (slotsPut m i (readLeaves take sl))) i emptySlot =
      if take then (if sl.uses = 1 ∧ sl.state = .full then emptySlot else { sl with uses := sl.uses - 1, wr := false, rd := false })
      else { sl with wr := false, rd := false } := by
  cases take with
  | false => exact kgetD_bareSlots_put m i ho
  | true =>
    have hone : sl.uses - 1 = 0 ↔ sl.uses = 1 := by
      have := huses rfl
      omega
    by_cases hlast : sl.uses = 1 ∧ sl.state = .full
    · simp only [readLeaves, hlast, and_self, if_true]
      exact kgetD_bareSlots_emptied m i
    · simp only [readLeaves, hone, hlast, and_false, if_false, if_true]
      exact kgetD_bareSlots_put m i (sl := { sl with uses := sl.uses - 1 }) ho

/-- An NRD is served at once from the slot of its occupant (R81, R82). -/
theorem nrd_served : nameReadServed := by
  intro f take s x r l n y hf hl hfi hretry hcell hn sl hiv hst huses hbad hword hroom hun v sent
  let q := nameReq s x r f l n take false 0 []
  have hy := live_of_names hn
  have hview : slotView q y (slotOf r y q.name) = .serve (readLeaves take sl) := by
    rw [slotView, hn.2.2]
    exact readSlot_serves (q := q) hiv hst huses hbad hword
  have hans := answerName_read (q := q) (sl := slotOf r y q.name) (Nat.ne_of_lt hcell) rfl hbad
  have hreach := presentName_replies (q := q) hf.2.1 hy hview hun hans hretry (by unfold tileValue; split <;> exact hroom)
  have hysent : liveFoldOf sent r (stmtOf f) = some y := liveFoldOf_replied hy
  have ho : sl.state ≠ .empty := by rcases hst with h | ⟨h, -⟩ <;> simp [h]
  refine ⟨_, nrd_next hf hl hfi hn hreach ((replied_kin _ _ _ _ _ _ s).2 hf.2.2), rfl, rfl, replied_mem _ _ _ _ _ _ s, replied_names _ _ _ _ _ _ s, ?_⟩
  refine (slotNow_eq (liveFoldOf_withFold hysent _)).trans (congrArg some ?_)
  exact kgetD_readLeaves ho huses

/-- An NRD that its slot does not answer (R81, R87). -/
theorem readSlot_waits {q : NameReq} {lat : Lattice} {sl : FoldSlot} (hst : sl.state = .empty ∨ (sl.state ≠ .moving ∧ sl.iv < q.name))
    (hword : q.ty = .tile ∨ q.word < lat.size / 4) : readSlot q lat sl = .waits := by
  have hin : ¬ (q.ty ≠ .tile ∧ lat.size / 4 ≤ q.word) := by
    rintro ⟨hty, hge⟩
    exact hword.elim hty fun h => absurd h (Nat.not_lt.mpr hge)
  rw [readSlot, if_neg hin]
  cases hs : sl.state with
  | empty => rfl
  | moving => rfl
  | full | held =>
    have hlt : sl.iv < q.name := by simpa [hs] using hst
    simp [hlt, Nat.lt_asymm hlt]

/-- An NRD waits behind the requests before it at a slot that is Empty or holds an earlier name (R81, R87). -/
theorem nrd_waits : nameReadWaits := by
  intro f take s x r l n y hf hl hfi hn hst hword hrise
  let q := nameReq s x r f l n take false 0 []
  have hy := live_of_names hn
  have hview : slotView q y (slotOf r y q.name) = .waits := by
    rw [slotView, hn.2.2]
    exact readSlot_waits (q := q) hst hword
  have hreach := presentName_waits (q := q) hf.2.1 hy hview
  let s1 : State := { s with names := s.names ++ [q] }
  have hmem := List.contains_iff_mem.mpr (mem_waitersOf (s := s1) (q := q) (List.mem_append_right _ (List.mem_singleton_self q)) hf.2.1 hy)
  refine ⟨_, _, nrd_next hf hl hfi hn hreach hf.2.2, rfl, rfl, rfl, rfl,
    (slotNow_eq (liveFoldOf_withFold (s := s1) hy _)).trans (congrArg some (kgetD_flagged_read _ hmem)), rfl, kgetD_bareSlots_state hrise _, fun ho => ?_⟩
  rw [kgetD_bareSlots_occupied ho]
  rfl

/-- Settles O26: a read is served from the slot of its occupant, and waits at one that is Empty or holds an earlier name. -/
theorem nameReadsComplete : Obligations.NameReadsComplete := ⟨nrd_served, nrd_waits⟩

/-! ### NWR (R83, R296) -/

/-- An NWR to an Empty slot (R83). -/
def written (q : NameReq) (lat : Lattice) (sl : FoldSlot) : FoldSlot :=
  { iv := q.name, stmt := q.stmt, state := if q.inv.isSome then .held else .full, uses := q.uses, wr := sl.wr, rd := sl.rd
    inv := q.inv.getD 0, tile := (q.data ++ List.replicate (lat.size - q.data.length) 0).take lat.size }

theorem writeSlot_empty {q : NameReq} {lat : Lattice} {sl : FoldSlot} (h : sl.state = .empty) : writeSlot q lat sl = .serve (written q lat sl) := by
  rw [writeSlot, h]
  rfl

theorem written_occupied (q : NameReq) (lat : Lattice) (sl : FoldSlot) : (written q lat sl).state ≠ .empty := by
  unfold written
  dsimp only
  split <;> simp

theorem answerName_write {q : NameReq} (hcell : q.cell ≠ 64) (hw : q.write = true) (sl : FoldSlot) :
    answerName q sl = sendReply q.req (some (completion q.lane)) (some (completion q.lane)) := by
  simp only [answerName, hcell, hw, if_false, if_true]

theorem nwr_next {data : List Byte} (hf : Fires s x r) (hl : x.lanes = [l]) (hfi : firing f l = true) (hn : Names s r f l n y) (hcheck : y.check = .accepted)
    (hu0 : 0 < useCount l y) (hu1 : useCount l y ≤ 65535)
    (htile : f.ty = .tile → (pktHdr (operand f l 0).packet).ok = true ∧ (operand f l 0).packet.length ≤ y.lattice.size)
    (hdata : data = if f.ty = .tile then (operand f l 0).packet else bytesOfNat 4 (opv f l 0).toNat)
    (hq : Reaches (presentName (nameReq s x r f l n false true (useCount l y) data)) s () t) (ht : trapWaiting t = none) :
    exec (.nwr f) s = .next { t with issue := none } := by
  have huse : ¬ (useCount l y = 0 ∨ 65535 < useCount l y) := by omega
  have hpkt : ¬ (f.ty = .tile ∧ (¬ (pktHdr (operand f l 0).packet).ok = true ∨ y.lattice.size < (operand f l 0).packet.length)) := by
    rintro ⟨hty, h⟩
    obtain ⟨hok, hlen⟩ := htile hty
    exact h.elim (fun h => h hok) (fun h => absurd hlen (Nat.not_le.mpr h))
  refine accessNode_next hf hl hfi ((Reaches.get s).bind ?_) ht
  simp only [findName_names hn, hcheck, ne_eq, not_true_eq_false, if_false, huse, hpkt, ← hdata]
  exact hq.bind (Reaches.pure _ t)

/-- Settles O27: an NWR to an Empty slot is served at once, and leaves the slot as `written` says. -/
theorem nameWritten : Obligations.NameWritten := by
  intro f s x r l n y hf hl hfi hretry hcell hn hcheck hempty hu0 hu1 htile hroom hun data done sent
  let q := nameReq s x r f l n false true (useCount l y) data
  have hy := live_of_names hn
  have hview : slotView q y (slotOf r y q.name) = .serve (written q y.lattice (slotOf r y n)) := by
    rw [slotView, hn.2.2]
    exact writeSlot_empty hempty
  have hreach := presentName_replies (q := q) hf.2.1 hy hview hun (answerName_write (q := q) (Nat.ne_of_lt hcell) rfl _) hretry hroom
  have hysent : liveFoldOf sent r (stmtOf f) = some y := liveFoldOf_replied hy
  refine ⟨_, nwr_next hf hl hfi hn hcheck hu0 hu1 htile rfl hreach ((replied_kin _ _ _ _ _ _ s).2 hf.2.2), rfl, rfl,
    replied_mem _ _ _ _ _ _ s, replied_names _ _ _ _ _ _ s, ?_⟩
  refine (slotNow_eq (liveFoldOf_withFold hysent _)).trans (congrArg some ?_)
  exact kgetD_bareSlots_put _ _ (written_occupied q y.lattice (slotOf r y n))

/-! ### What tokens and discard marks leave of the folds and invocations -/

/-- The halls' folds, and their open invocations without their discard marks. -/
def nameView (s : State) : List (KMap Fold × List (Nat × Nat × Nat)) :=
  s.halls.map (fun h => (h.folds, h.invs.map (fun p => (p.1, p.2.rid, p.2.first))))

theorem nameView_hall (h : nameView u = nameView s) (k : Nat) :
    (hallAt u k).folds = (hallAt s k).folds ∧
      (hallAt u k).invs.map (fun p => (p.1, p.2.rid, p.2.first)) = (hallAt s k).invs.map (fun p => (p.1, p.2.rid, p.2.first)) := by
  have e := congrArg (·[k]?) h
  simp only [nameView, List.getElem?_map] at e
  unfold hallAt
  cases hu : u.halls[k]? <;> cases hs : s.halls[k]? <;> rw [hu, hs] at e
  · exact ⟨rfl, rfl⟩
  · cases e
  · cases e
  · simpa using e

/-- A change of a hall that its folds and invocations do not show. -/
theorem nameView_onHall {k : Nat} {g : Hall → Hall} (hf : (g (hallAt s k)).folds = (hallAt s k).folds)
    (hi : (g (hallAt s k)).invs.map (fun p => (p.1, p.2.rid, p.2.first)) = (hallAt s k).invs.map (fun p => (p.1, p.2.rid, p.2.first))) :
    nameView (onHall k g s) = nameView s := by
  have e : nameView (onHall k g s) = nameView (onHall k id s) := by
    simp only [nameView, onHall, List.map_set, hf, hi, id]
  rw [e, onHall_same s k rfl]

/-- A pending poison is replaced in a region's parts or in an overflow queue (R408). -/
theorem replaceAt_view (c : Chan) (t : Token) (s : State) : ∃ a u, Reaches (replaceAt c t) s a u ∧ nameView u = nameView s := by
  have hregion : ∀ (k : Nat) (g : Region → Region), ∃ a u, Reaches (modRegion k g >>= fun _ => pure true) s a u ∧ nameView u = nameView s := fun k g => by
    cases hr : kget s.regions k with
    | none => exact ⟨true, _, (modRegion_none g k hr).bind (Reaches.pure true _), rfl⟩
    | some r => exact ⟨true, _, (modRegion_reaches g k hr).bind (Reaches.pure true _), rfl⟩
  have hno : ∃ a u, Reaches (pure false : M Bool) s a u ∧ nameView u = nameView s := ⟨false, s, Reaches.pure _ s, rfl⟩
  suffices h : ∃ a u, Reaches (replaceAt c t) s a u ∧ nameView u = nameView s from h
  unfold replaceAt
  have hget : ∀ {m : State → M Bool}, (∃ a u, Reaches (m s) s a u ∧ nameView u = nameView s) → ∃ a u, Reaches (get' >>= m) s a u ∧ nameView u = nameView s :=
    fun ⟨a, u, h1, h2⟩ => ⟨a, u, (Reaches.get s).bind h1, h2⟩
  refine hget ?_
  split
  · split
    · split
      · exact hregion _ _
      · exact hno
    · exact hno
  · split
    · exact hno
    · split
      · exact hregion _ _
      · exact hno
  · split
    · exact hno
    · split
      · exact ⟨true, _, (Reaches.eff _ s).bind (Reaches.pure _ _), rfl⟩
      · split
        · exact ⟨true, _, (modHall_reaches _ _ s).bind (Reaches.pure _ _), nameView_onHall rfl rfl⟩
        · exact hno

theorem replacePending_view (rid cell : Nat) (d : Dest) (t : Token) : Keeps nameView (replacePending rid cell d t) := by
  refine Keeps.get fun s => ?_
  split
  · exact Keeps.pure
  · refine Keeps.each _ fun e _ => Keeps.get fun s v => ?_
    obtain ⟨a, u, hu, hview⟩ := replaceAt_view (edgeChan s e) t v
    have hrest : ∀ {m : M Unit}, (∃ w, Reaches m u () w ∧ nameView w = nameView u) → ∃ w, Reaches (replaceAt (edgeChan s e) t >>= fun a => if a then pure () else m) v () w ∧ nameView w = nameView v := by
      rintro m ⟨w, hw, hvw⟩
      cases a with
      | true => exact ⟨u, hu.bind (Reaches.pure () u), hview⟩
      | false => exact ⟨w, hu.bind hw, hvw.trans hview⟩
    refine hrest ?_
    split
    · exact ⟨_, Reaches.eff _ u, rfl⟩
    · split
      · exact ⟨_, Reaches.eff _ u, rfl⟩
      · exact ⟨_, sendEdge_reaches t e u, rfl⟩

theorem delivered_view (x : Issue) (d : Dest) (t : Token) (s : State) : nameView (delivered x d t s) = nameView s := by
  unfold delivered
  split
  · obtain ⟨u, hu, hview⟩ := replacePending_view x.rid x.cell d t s
    rw [hu.leaves, hview]
  · obtain ⟨R, C, h⟩ := emitted_frame x.rid x.cell d t s
    rw [h]; rfl

theorem laneSent_view (f : NodeRec) (x : Issue) (l : Lane) (out : Option Token × Option Token) (s : State) :
    nameView (laneSent f x l out s) = nameView s := by
  obtain ⟨a, b⟩ := out
  cases a <;> cases b <;> simp only [laneSent, delivered_view]

/-- An entry written back with what a view shows of it. -/
theorem map_kset {α β : Type} {g : Nat × α → β} {m : KMap α} {k : Nat} {v w : α} (hm : rising (m.map (·.1)) = true) (hk : kget m k = some v)
    (hg : g (k, w) = g (k, v)) : (kset m k w).map g = m.map g := by
  rw [rising_iff] at hm
  induction m with
  | nil => cases hk
  | cons p m ih =>
    obtain ⟨j, z⟩ := p
    rw [List.map_cons, List.pairwise_cons] at hm
    by_cases hj : j = k
    · subst hj
      obtain rfl : z = v := by simpa [kget] using hk
      simp [kset, hg]
    · have hk' : kget m k = some v := by simpa [kget, hj] using hk
      have hlt : j < k := hm.1 k (List.mem_map_of_mem (f := (·.1)) (mem_of_kget hk'))
      simp [kset, Nat.lt_asymm hlt, Ne.symm hj, ih hm.2 hk']

theorem discarding_view {rid : Nat} (tag code : Nat) (hr : kget u.regions rid = some r) (hi : rising ((hallAt u r.hall).invs.map (·.1)) = true) :
    nameView (discarding rid tag code u) = nameView u := by
  simp only [discarding, hr]
  cases tagInv u r rid tag with
  | none => rfl
  | some k =>
    cases hik : kget (hallAt u r.hall).invs k with
    | none => simp only [hik]
    | some i =>
      simp only [hik]
      exact nameView_onHall (k := r.hall) (g := fun h => { h with invs := kset h.invs k { i with discarded := some (i.discarded.getD code) } })
        rfl (map_kset hi hik rfl)

theorem discarding_kin (rid tag code : Nat) (u : State) : Kin u (discarding rid tag code u) := by
  unfold discarding
  split
  · exact Kin.refl u
  · split
    · exact Kin.refl u
    · split
      · exact Kin.refl u
      · exact Kin.of_regions rfl

/-! ### NPROBE (R88, R296) -/

theorem nameOf_core (h : r'.core = r.core) (f : NodeRec) (tag : Nat) : nameOf r' f tag = nameOf r f tag := by
  unfold nameOf boundId
  rw [core_active h, core_header h]

/-- The invocation of a tag, by what a view shows. -/
theorem tagInv_view (hv : nameView u = nameView s) (h : r'.core = r.core) (rid tag : Nat) : tagInv u r' rid tag = tagInv s r rid tag := by
  have hfind : ∀ (m : KMap Invocation) (a b : Nat), (m.find? (fun p => p.2.rid == a && p.2.first == b)).map (·.1) =
      ((m.map (fun p => (p.1, p.2.rid, p.2.first))).find? (fun p => p.2.1 == a && p.2.2 == b)).map (·.1) := by
    intro m a b
    rw [List.find?_map, Option.map_map]
    rfl
  have hopen : openInv u r' rid = openInv s r rid := by
    funext id
    rw [openInv, openInv, hfind, hfind, core_hall h, core_header h, (nameView_hall hv r.hall).2]
  rw [tagInv, tagInv, hopen, boundId, boundId, core_active h]

/-- NPROBE's value, as R88 lists its codes. -/
theorem probe_code (n : Nat) (inv : Option Nat) (gate : Bool) (sl : FoldSlot) : (if gate then 3 else probeValue n inv sl) =
    if gate ∨ sl.state = .moving then 3 else if sl.state = .empty ∨ sl.iv < n then 0 else if n < sl.iv then 2
      else if sl.state = .full ∨ inv = some sl.inv then 1 + sl.uses * 65536 else 3 := by
  cases gate with
  | true => simp
  | false =>
    unfold probeValue
    cases sl.state <;> simp

/-- A state with the regions, folds and invocations of another, but for what tokens and discard marks change. -/
def SameNames (s u : State) : Prop := Kin s u ∧ nameView u = nameView s

theorem SameNames.laneSent {out : Option Token × Option Token} (h : SameNames s u) : SameNames s (laneSent f x l out u) :=
  ⟨h.1.trans (laneSent_kin f x l out u), (laneSent_view f x l out u).trans h.2⟩

theorem SameNames.discarding {tag code : Nat} (h : SameNames s u) (hr : kget s.regions x.rid = some r)
    (hi : rising ((hallAt s r.hall).invs.map (·.1)) = true) : SameNames s (discarding x.rid tag code u) := by
  obtain ⟨r', hr', hcore⟩ := h.1.get hr
  have hkeys := congrArg (List.map (·.1)) (nameView_hall h.2 r.hall).2
  simp only [List.map_map] at hkeys
  refine ⟨h.1.trans (discarding_kin _ _ _ u), (discarding_view tag code hr' ?_).trans h.2⟩
  rw [core_hall hcore]
  exact (congrArg rising hkeys).trans hi

theorem SameNames.laneStart {out : Lane → Option Token × Option Token} (h : SameNames s u) (hr : kget s.regions x.rid = some r)
    (hi : rising ((hallAt s r.hall).invs.map (·.1)) = true) : SameNames s (laneStart f x (fun l u => Machine.laneSent f x l (out l) u) u l) := by
  unfold Machine.laneStart
  split
  · exact h.laneSent.discarding hr hi
  · split
    · exact h.laneSent
    · exact h

/-- A name's fold and slot, by what a view shows. -/
theorem SameNames.findName (h : SameNames s u) (hc : r'.core = r.core) (hn : nameOf r f l.tag = some n)
    (hy : kget (hallAt s r.hall).folds (foldKey r.ctx (stmtOf f)) = some y) : findName u r' f l = .ok (n, y) := by
  have hctx : r'.ctx = r.ctx := (congrArg Region.ctx hc :)
  simp only [Machine.findName, nameOf_core hc, hn, core_hall hc, hctx, (nameView_hall h.2 r.hall).1, hy]

/-- Settles O28: each lane's code is of the slot as the step found it, since tokens and discard marks change no fold and no open invocation. -/
theorem probeCompletes : Obligations.ProbeCompletes := by
  intro f s x r hf hi hnames code
  have hkeep : ∀ u l, SameNames s u → SameNames s (laneStart f x (fun l u => laneSent f x l (sameOnBoth (fun l => BitVec.ofNat 32 (code l)) l) u) u l) :=
    fun u l h => h.laneStart hf.2.1 hi
  rw [lanesStart_eq]
  refine node_next (accessLanes_reaches hf _ (SameNames s) ⟨Kin.refl s, rfl⟩ ?_ fun u l _ => hkeep u l)
    ((foldl_keeps (SameNames s) hkeep x.lanes s ⟨Kin.refl s, rfl⟩).1.2 hf.2.2)
  intro u l hl hfi hu
  obtain ⟨n, y, hn, hy⟩ := hnames l hl hfi
  obtain ⟨r', hr', hcore⟩ := hu.1.get hf.2.1
  refine ⟨r', sameOnBoth (fun l => BitVec.ofNat 32 (code l)) l, u, hr', (Reaches.get u).bind ?_, rfl⟩
  simp only [hu.findName hcore hn hy, probe_code, tagInv_view hu.2 hcore, core_header hcore]
  refine Reaches.answer ?_ u
  simp only [both, sameOnBoth, code, hn, hy, Option.getD_some]
  rfl

/-! ### NRANGE (R74, R426) -/

/-- Settles O29: the lane finds no name, so it traps before it presents a request. -/
theorem nameRangeTrapTaken : Obligations.NameRangeTrapTaken := by
  intro i f s x r l hi hf hl hfi hh hn
  simp only [List.mem_cons, List.not_mem_nil, or_false] at hi
  have hfind := findName_out_of_range (s := s) hn
  rcases hi with rfl | rfl | rfl | rfl
  all_goals
    refine node_trap hf hl hfi hh ((Reaches.get s).bind ?_)
    simp only [hfind]
    exact Reaches.pure _ s

end Sys2Proof.Machine

/-! PROOFS. FOLD where a hall lists one line of its cache twice, which the statement about the name commands does not exclude: reading the
descriptor's first word puts its line in the way that the wrong entry names, and that way is under the way-change walker (R110, R119, R327). -/
namespace Sys2Proof.Machine
open Sys2Proof.Claims

variable {s : State}

/-- A read that waits for a row or a way stalls (R110, R439). -/
theorem readAt_busy {hall vf va a n : Nat} (hans : answers s a = none) (hb : rowBusy s hall a = true) :
    Raises (readAt hall vf va a n) s { code := stallCode } := by
  refine (Reaches.get s).raises ?_
  simp only [hans, hb, Bool.or_true, if_true]
  exact stall_raises s

section
variable {r : Region} {b : Buffer} {off n align pa : Nat} {e : TlbEntry}

/-- A sequencer's load in memory, on a page that the translation cache holds, is a read at its location (R101, R105). -/
theorem loadIn_held (hr : kget s.regions s.who = some r) (hcode : accessCode (some b) .read off n align false = none) (hb : b.scratch = none)
    (hpage : tlbLookup s r.hall r.vf (b.base + off) = some (pa, e)) (es : List Effect) :
    loadIn (some b) off n align { cur := s, effs := es } = readAt r.hall r.vf (b.base + off) pa n { cur := s, effs := es } := by
  have hread : pageGrants e.write e.atomic .read = true := rfl
  simp [loadIn, home, placeIn, checkAccess_ok hcode, hb, locate, locateNow, hpage, hread, bind_run, hr]

/-- What such a read does, the load does. -/
theorem loadIn_reaches {bs : List Byte} {t : State} (hr : kget s.regions s.who = some r) (hcode : accessCode (some b) .read off n align false = none)
    (hb : b.scratch = none) (hpage : tlbLookup s r.hall r.vf (b.base + off) = some (pa, e))
    (h : Reaches (readAt r.hall r.vf (b.base + off) pa n) s bs t) : Reaches (loadIn (some b) off n align) s bs t :=
  fun s0 es hs => by rw [loadIn_held hr hcode hb hpage]; exact h s0 es hs

/-- A trap of such a read is the load's. -/
theorem loadIn_raises {x : TrapRec} (hr : kget s.regions s.who = some r) (hcode : accessCode (some b) .read off n align false = none)
    (hb : b.scratch = none) (hpage : tlbLookup s r.hall r.vf (b.base + off) = some (pa, e))
    (h : Raises (readAt r.hall r.vf (b.base + off) pa n) s x) : Raises (loadIn (some b) off n align) s x :=
  fun s0 es hs => by rw [loadIn_held hr hcode hb hpage]; exact h s0 es hs

end

/-- A command that has ended does not wait. -/
theorem goOn_waiting {r : Region} (hr : kget s.regions s.who = some r) : (issuer (goOn s)).waiting = false := by
  rw [goOn, issuer_withIssuer _ (.inr ⟨r, hr⟩)]
  split
  · rfl
  · unfold Sequencer.onward
    split <;> rfl

theorem waits_waiting {r : Region} (hr : kget s.regions s.who = some r) : (issuer (waits s)).waiting = true := by
  rw [waits, issuer_withIssuer _ (.inr ⟨r, hr⟩)]
  split
  · assumption
  · rfl

/-- Memory moved by an offset reads at the offset as it read before. -/
theorem readByte_moved (m : Memory) (c a : Nat) : readByte (m.map (fun p => (c + p.1, p.2))) (c + a) = readByte m a := by
  induction m with
  | nil => rfl
  | cons p m ih => simp [readByte, ih]

namespace LineListedTwice

/-- The page of the function's first 64 KiB begins at line `a`. -/
def page (a : Nat) : TlbEntry := { base := 64 * a, size := 16, write := false, atomic := false, filled := 0 }

/-- Line `b` is listed in way 1, and 1,024 times in way 0. -/
def copies (b : Nat) : KMap CacheLine := (b, { mesi := .shared, way := 1 }) :: List.replicate 1024 (b, { mesi := .shared, way := 0 })

/-- In every tile, ways 0 and 1 are cache, way 2 is context 0's fold space and the rest is scratch; way 1 changes use. -/
def hall (a b : Nat) : Hall :=
  { vtuse := List.replicate 12 0x1111111111111400, walking := (List.range 12).map (fun t => { tile := t, way := 1, use := 1 })
    cache := copies b, tlb := [(16, page a)] }

def region : Region :=
  { hall := 0, ctx := 0, shape := 0, origin := 0, vf := 0, wing := 0, root := true, parent := none, fres := 0, state := .idle
    seq := Sequencer.zero, header := 0, program := { acts := [] } }

/-- The 256 bytes of the descriptor. -/
def buffer : Buffer := { scratch := none, base := 0, len := 256, read := true, write := false, atomic := false }

/-- A descriptor of statement 0: a slot of 16 bytes, one use, the area at 0. -/
def described : Memory := [(0, 16), (4, 1)]

/-- The machine: the descriptor lies in memory from line `a`. -/
def state (a b : Nat) : State :=
  { State.reset with
    who := 0, mem := described.map (fun p => (64 * a + p.1, p.2)), halls := hall a b :: List.replicate 63 Hall.reset, regions := [(0, region)]
    vfs := [(0, { handles := [(0, { visible := some buffer })] })] }

/-- FOLD of statement 0, whose descriptor is at offset 0 of handle 0. -/
def foldRecord : CmdRec := { ty := .f32, md := 0, d := 0, s := 0, t := 0, ext := 0, imm := 0 }

/-- The fold's lattice. -/
def lattice : Lattice :=
  { stmt := 0, size := 16, uses := 1, skewed := false, m := [], stride := [], coef := [], modulus := 1, base := 0, dists := [[]] }

variable {a b : Nat}

theorem state_issues : RegionIssues (state a b) region true := ⟨(by decide : (0 : Nat) ≠ serviceRid), rfl, rfl, fun _ => rfl⟩

/-! ### The descriptor can be read -/

theorem page_held {o : Nat} (hs : (hallAt s 0).tlb = [(16, page a)]) (ho : o < 256) : tlbLookup s 0 0 o = some (64 * a + o, page a) := by
  have hkey : tlbKey 0 o 16 = 16 := by rw [tlbKey, Nat.div_eq_of_lt (by omega)]; rfl
  have hmod : o % 2 ^ 16 = o := Nat.mod_eq_of_lt (by omega)
  have hat : kget (hallAt s 0).tlb 16 = some (page a) := by rw [hs]; rfl
  rw [tlbLookup, pageSizes, List.findSome?_cons, hkey, hat, hmod]
  rfl

theorem memory_answers {o : Nat} (ha : a < 64) (ho : o < 256) (s : State) :
    isScratch (64 * a + o) = false ∧ rangeMt (64 * a + o) = some 0 ∧ answers s (64 * a + o) = none := by
  have hmt : rangeMt (64 * a + o) = some 0 := by rw [rangeMt, if_pos (by omega)]
  refine ⟨decide_eq_false (by omega), hmt, ?_⟩
  simp only [answers, hmt]

theorem mem_copies {p : Nat × CacheLine} (h : p ∈ copies b) : p.1 = b := by
  rcases List.mem_cons.mp h with rfl | h
  · rfl
  · rw [List.eq_of_mem_replicate h]

theorem copies_other {k : Nat} (h : k ≠ b) : kget (copies b) k = none := by
  by_contra hne
  obtain ⟨v, hv⟩ := Option.ne_none_iff_exists'.mp hne
  exact h (mem_copies (mem_of_kget hv))

theorem word_takeable {o : Nat} (ha : a < 64) (hab : ∀ k < 4, a + k ≠ b) (ho : o < 256) (n : Nat) :
    takeable (state a b) 0 (64 * a + o) n ∧ poisoned (state a b) (64 * a + o) n = false ∧ untested (state a b) 0 (64 * a + o) := by
  obtain ⟨hscr, -, hans⟩ := memory_answers ha ho (state a b)
  have hkey : cacheKey (64 * a + o) = a + o / 64 := by rw [cacheKey]; omega
  have hline : kget (hallAt (state a b) 0).cache (cacheKey (64 * a + o)) = none := hkey ▸ copies_other (hab _ (by omega))
  refine ⟨⟨hans, fun _ _ => rfl, ?_⟩, ?_, fun x hx => by cases hx⟩
  · have hstall : wayStalls (state a b) 0 (64 * a + o) = false := by
      simp only [wayStalls, hscr, hline, Option.any_none, Bool.false_eq_true, if_false]
    simp only [rowBusy, hstall, copyTest, hline, Option.isSome_none, Bool.false_and, Bool.or_false]
    rfl
  · exact List.any_eq_false.mpr fun x _ => by simp [state, State.reset]

/-- The bytes of the descriptor. -/
def bytes : List Byte := (List.range 32).flatMap (fun k => (List.range 8).map (fun o => readByte described (8 * k + o)))

theorem reference_zero (s : State) : areg s 0 = 0 := rfl

theorem describes_lattice (ha : a < 64) (hab : ∀ k < 4, a + k ≠ b) : describesFold (state a b) region (areg (state a b) 0) lattice := by
  rw [reference_zero]
  have hcode : accessCode (some buffer) .read ((0 : BitVec 64).toNat % 2 ^ 32) 256 1 false = none := by decide
  refine ⟨bytes, ⟨⟨rfl, rfl, rfl⟩, buffer, rfl, hcode, fun o => 64 * a + o, ?_, ?_⟩, ?_⟩
  · rintro p hp
    obtain ⟨k, hk, rfl⟩ := List.mem_map.mp hp
    have hlt : k < 32 := List.mem_range.mp hk
    refine ⟨?_, word_takeable ha hab (by dsimp only; omega) _⟩
    show (tlbLookup (state a b) 0 0 (0 + (0 + 8 * k))).bind _ = _
    rw [page_held rfl (by omega), Nat.zero_add, Nat.zero_add]
    rfl
  · show bytes = ((List.range 32).map _).flatMap _
    rw [List.flatMap_map, bytes]
    refine List.flatMap_congr fun k hk => ?_
    have hlt : k < 32 := List.mem_range.mp hk
    have h8 : min 8 (256 - 8 * k) = 8 := by omega
    simp only [readBytes, h8, Nat.add_assoc]
    exact List.map_congr_left fun o _ => (readByte_moved described (64 * a) (8 * k + o)).symm
  · show latticeOf 0 (foldSpace (hall a b) 0) bytes = some lattice
    have hspace : foldSpace (hall a b) 0 = foldSpace (hall 0 0) 0 := rfl
    rw [hspace]
    decide +kernel

/-! ### The first word's line takes the place of the line listed twice -/

/-- A hall of which line `a` of the cache is in way 1. -/
def misplaced (a b : Nat) : Hall := { hall a b with cache := [(a, { mesi := .exclusive, way := 1 })] }

/-- The machine once line `a` has come into the cache. -/
def read (a b : Nat) : State := { state a b with tick := 1, halls := misplaced a b :: List.replicate 63 Hall.reset }

theorem home_lt (x : Nat) : homeOf x < 12 := Nat.mod_lt _ (by decide)

theorem cacheable_first (ha : a < 64) : cacheable (state a b) (hallAt (state a b) 0) (64 * a) = true := by
  obtain ⟨hscr, hmt, -⟩ := memory_answers (o := 0) ha (by decide) (state a b)
  have hway : ∀ t < 12, wayUse (hall 0 0) t 0 = 0 := by decide +kernel
  have hany : (List.range 16).any (fun w => wayUse (hall a b) (homeOf (64 * a)) w == 0) = true :=
    List.any_eq_true.mpr ⟨0, by simp, beq_iff_eq.mpr (hway _ (home_lt _))⟩
  rw [Nat.add_zero] at hscr hmt
  simp only [cacheable, hscr, hmt, Bool.not_false, Bool.true_and, beq_self_eq_true, Bool.true_or, Bool.and_true]
  exact Bool.and_eq_true_iff.mpr ⟨rfl, hany⟩

theorem class_ways {t : Nat} (ht : t < 12) : classWays (hall a b) t none = [0] := by
  have h : ∀ t < 12, classWays (hall 0 0) t none = [0] := by decide +kernel
  exact h t ht

theorem way_lines {t : Nat} (ht : Config.homeTile b % 12 = t) : wayLines (hall a b) t 0 = List.replicate 1024 b := by
  have hfirst : (Config.homeTile b % 12 == t && (1 : Nat) == 0) = false := by simp
  have hrest : (Config.homeTile b % 12 == t && (0 : Nat) == 0) = true := by simp [ht]
  simp only [wayLines, hall, copies, List.filter_cons, hfirst, List.filter_replicate, hrest, Bool.false_eq_true, if_false, if_true, List.map_replicate]

theorem copies_listed (b : Nat) : kget (copies b) b = some { mesi := .shared, way := 1 } := if_pos rfl

theorem copies_dropped (b : Nat) : kdel (copies b) b = [] :=
  List.filter_eq_nil_iff.mpr fun p hp => by simp [mem_copies hp]

/-- No way of the line's class has a place, so a line that stands in way 0 makes room; its first entry names way 1 (R119). -/
theorem allocate_misplaces (hhome : Config.homeTile a % 12 = Config.homeTile b % 12) :
    Reaches (allocate 0 none (64 * a) .exclusive) (state a b) () (read a b) := by
  have hkey : 64 * a / 64 = a := Nat.mul_div_cancel_left a (by decide)
  have hways : classWays (hallAt (state a b) 0) (homeOf (64 * a)) none = [0] := class_ways (home_lt _)
  have hlines : wayLines (hallAt (state a b) 0) (homeOf (64 * a)) 0 = List.replicate 1024 b := way_lines (by rw [homeOf, hkey, hhome])
  have hlisted : kget (hallAt (state a b) 0).cache b = some { mesi := .shared, way := 1 } := copies_listed b
  have hfull : ([0] : List Nat).find? (fun w => decide ((wayLines (hallAt (state a b) 0) (homeOf (64 * a)) w).length < 1024)) = none := by
    rw [List.find?_eq_none]
    intro w hw
    rw [List.mem_singleton.mp hw, hlines, List.length_replicate]
    decide
  have hout : (([0] : List Nat).flatMap (wayLines (hallAt (state a b) 0) (homeOf (64 * a)))).filter
      (fun l => !(kget (hallAt (state a b) 0).cache l).any (·.quarantined)) = List.replicate 1024 b := by
    rw [List.flatMap_cons, List.flatMap_nil, List.append_nil, hlines, List.filter_replicate, hlisted]
    rfl
  have hpick : ∀ n : Nat, (List.replicate 1024 b)[n % (List.replicate 1024 b).length]? = some b := fun n => by
    rw [List.length_replicate, List.getElem?_replicate, if_pos (Nat.mod_lt _ (by decide))]
  refine (Reaches.get _).bind ?_
  simp only [hways, hfull, hout]
  refine (fresh_reaches _).bind ?_
  simp only [hpick, hlisted, Option.map_some, Option.getD_some]
  refine (modHall_reaches _ _ _).congr ?_
  have hput : kset (kdel (copies b) b) (cacheKey (64 * a)) ({ mesi := .exclusive, way := 1 } : CacheLine) = [(a, { mesi := .exclusive, way := 1 })] := by
    rw [copies_dropped, cacheKey, hkey]; rfl
  show ({ state a b with
      tick := 1
      halls := { hall a b with cache := kset (kdel (copies b) b) (cacheKey (64 * a)) { mesi := .exclusive, way := 1 } } :: List.replicate 63 Hall.reset } : State) = read a b
  rw [hput]
  rfl

theorem no_other_copy (x : Nat) : (List.range 64).filter (fun h => h != 0 && (kget (hallAt (state a b) h).cache (cacheKey x)).isSome) = [] := by
  rw [List.filter_eq_nil_iff]
  intro h _
  cases h with
  | zero => simp
  | succ h =>
    have hreset : hallAt (state a b) (h + 1) = Hall.reset := by
      simp only [hallAt, state, List.getElem?_cons_succ, List.getElem?_replicate]
      split <;> rfl
    simp [hreset, Hall.reset]

/-- The descriptor's first word is read. -/
theorem readAt_first (ha : a < 64) (hab : ∀ k < 4, a + k ≠ b) (hhome : Config.homeTile a % 12 = Config.homeTile b % 12) :
    Reaches (readAt 0 0 0 (64 * a) 8) (state a b) (readBytes (state a b).mem (64 * a) 8) (read a b) := by
  obtain ⟨⟨hans, -, hrow⟩, hmark, -⟩ := word_takeable (o := 0) ha hab (by decide) 8
  obtain ⟨hscr, -, -⟩ := memory_answers (o := 0) ha (by decide) (state a b)
  rw [Nat.add_zero] at hans hrow hmark hscr
  have hpin : ([64 * a] : List Nat).any (fun x => pinnedByOther (state a b) x none) = false := rfl
  have hlines : ∀ a < 64, linesOf (64 * a) 8 = [64 * a] := by decide +kernel
  have hnone : kget (hallAt (state a b) 0).cache (cacheKey (64 * a)) = none := copies_other (k := 64 * a / 64) (by have := hab 0 (by decide); omega)
  have hcache : Reaches (cacheRead 0 0 (0 + 64 * a - 64 * a) (64 * a)) (state a b) () (read a b) := by
    refine (Reaches.get _).bind ?_
    simp only [cacheable_first ha, hnone, no_other_copy, Option.isNone_none, and_self, if_true]
    exact (Reaches.each_nil _ _).bind (allocate_misplaces hhome)
  refine (Reaches.get _).bind ?_
  simp only [hans, hrow, hmark, hpin, hlines a ha, Bool.or_self, Bool.false_eq_true, if_false]
  refine Reaches.bind (Reaches.each_cons ?_ (Reaches.each_nil _ _)) (Reaches.pure _ _)
  simp only [hscr, Bool.false_eq_true, if_false]
  exact hcache

/-- The second word lies in the same line, of which the way now changes use (R110). -/
theorem readAt_second (ha : a < 64) : Raises (readAt 0 0 8 (64 * a + 8) 8) (read a b) { code := stallCode } := by
  obtain ⟨hscr, -, hans⟩ := memory_answers (o := 8) ha (by decide) (read a b)
  have hkey : cacheKey (64 * a + 8) = a := by rw [cacheKey]; omega
  have hline : kget (hallAt (read a b) 0).cache (cacheKey (64 * a + 8)) = some { mesi := .exclusive, way := 1 } := by
    rw [hkey]; exact if_pos rfl
  have hwalk : ∀ t < 12, isWalking (hall 0 0) t 1 = true := by decide +kernel
  have hstall : wayStalls (read a b) 0 (64 * a + 8) = true := by
    simp only [wayStalls, hscr, hline, Option.any_some, Bool.false_eq_true, if_false]
    exact hwalk _ (home_lt _)
  exact readAt_busy hans (by simp only [rowBusy, hstall, Bool.or_true])

/-- FOLD's descriptor is read up to its second word. -/
theorem descriptor_stalls (ha : a < 64) (hab : ∀ k < 4, a + k ≠ b) (hhome : Config.homeTile a % 12 = Config.homeTile b % 12) :
    Raises (descriptor 0 256) (state a b) { code := stallCode } := by
  have hfirst : Reaches (loadIn (some buffer) 0 8 1) (state a b) _ (read a b) :=
    loadIn_reaches (r := region) rfl rfl rfl (page_held (a := a) (o := 0) rfl (by decide)) (readAt_first ha hab hhome)
  have hsecond : Raises (loadIn (some buffer) 8 8 1) (read a b) { code := stallCode } :=
    loadIn_raises (r := region) rfl rfl rfl (page_held (a := a) (o := 8) rfl (by decide)) (readAt_second ha)
  refine (checkRef_reaches (v := 0) ⟨rfl, rfl, rfl⟩ _).raises ((refBuffer_reaches (v := 0) (b := buffer) rfl rfl).raises ?_)
  exact Raises.first (hfirst.raises hsecond.first.first)

theorem fold_waits (ha : a < 64) (hab : ∀ k < 4, a + k ≠ b) (hhome : Config.homeTile a % 12 = Config.homeTile b % 12) :
    exec (.fold foldRecord) (state a b) = .next (waits (state a b)) := by
  refine command_stall state_issues (by decide) ?_
  refine (myRegion_reaches (r := region) rfl).raises ((reg_reaches _ _).raises ?_)
  exact Raises.first (descriptor_stalls ha hab hhome)

theorem nothing_declared : declareFault (hall a b) 0 lattice = none := by
  have h : declareFault (hall a b) 0 lattice = declareFault (hall 0 0) 0 lattice := rfl
  rw [h]
  decide +kernel

/-- A FOLD that ends does not leave its sequencer waiting. -/
theorem fold_refutes (ha : a < 64) (hab : ∀ k < 4, a + k ≠ b) (hhome : Config.homeTile a % 12 = Config.homeTile b % 12) :
    ¬ Obligations.NameCommandsComplete := fun h => by
  have hdesc := describes_lattice (b := b) ha hab
  obtain ⟨t, ht, hleads⟩ := h (.fold foldRecord) _ (state a b) region rfl state_issues ⟨lattice, hdesc, rfl, nothing_declared⟩
  obtain ⟨u, hread, hend⟩ := hleads lattice hdesc
  obtain rfl : waits (state a b) = t := by rw [fold_waits ha hab hhome] at ht; cases ht; rfl
  have hissuer : kget u.regions u.who = some region := by rw [hread.regions, hread.who]; rfl
  have hstill := waits_waiting (s := state a b) (r := region) rfl
  rw [hend, goOn_waiting (s := withFold u region lattice.stmt _) hissuer] at hstill
  cases hstill

end LineListedTwice

/-- Two of thirteen lines, four apart, have one home tile. -/
theorem homes_meet : ∃ i j : Fin 13, i ≠ j ∧ Config.homeTile (4 * i) % 12 = Config.homeTile (4 * j) % 12 := by
  obtain ⟨i, j, hne, h⟩ := Fintype.exists_ne_map_eq_of_card_lt (fun i : Fin 13 => (⟨Config.homeTile (4 * i) % 12, Nat.mod_lt _ (by decide)⟩ : Fin 12)) (by decide)
  exact ⟨i, j, hne, congrArg Fin.val h⟩

/-- Refutes O38: in `LineListedTwice.state` a hall's cache lists one line under two ways, which no premise excludes. FOLD then waits at its
descriptor's second word, though each word could be read on the state before: the first word's line has taken the listed line's place, in a
way that changes use. -/
theorem not_nameCommandsComplete : ¬ Obligations.NameCommandsComplete := by
  obtain ⟨i, j, hne, h⟩ := homes_meet
  have hij : (i : Nat) ≠ j := fun e => hne (Fin.ext e)
  exact LineListedTwice.fold_refutes (by omega) (fun k hk => by omega) h

end Sys2Proof.Machine

/-! PROOFS. What actions spare: parts of the state that they leave as they are, whatever else they do. -/
namespace Sys2Proof.Machine
open Sys2Proof.Claims

variable {s t : State}

/-! ### The combinators -/

section
variable {α β γ : Type} {g : State → γ} {m : M α}

/-- An action, where it answers, leaves `g` of the state as it was. -/
def Spares (g : State → γ) (m : M α) : Prop := ∀ l a l', m l = .ok (a, l') → g l'.cur = g l.cur

theorem Reaches.spared {a : α} (h : Reaches m s a t) (hm : Spares g m) : g t = g s := by
  obtain ⟨es, h, -⟩ := h s [] rfl
  exact hm _ _ _ h

theorem Spares.pure (a : α) : Spares g (pure a : M α) := by
  rintro l b l' ⟨⟩
  rfl

theorem Spares.trap (e : TrapRec) : Spares g (Machine.trap e : M α) := by
  rintro l b l' ⟨⟩

theorem Spares.eff {e : Effect} (h : ∀ s, g (e.apply s) = g s) : Spares g (Machine.eff e) := by
  rintro l b l' ⟨⟩
  exact h l.cur

theorem Spares.bind {f : α → M β} (h : Spares g m) (k : ∀ a, Spares g (f a)) : Spares g (m >>= f) := by
  intro l b l' e
  rw [bind_run] at e
  split at e
  next a u hm => exact (k a u b l' e).trans (h l a u hm)
  · cases e

theorem Spares.get {f : State → M β} (h : ∀ s, Spares g (f s)) : Spares g (get' >>= f) :=
  Spares.bind (by rintro l b l' ⟨⟩; rfl) h

theorem Spares.ite {c : Prop} [Decidable c] {m k : M α} (h : Spares g m) (hk : Spares g k) : Spares g (if c then m else k) := by
  split
  · exact h
  · exact hk

theorem Spares.each {f : α → M Unit} (h : ∀ a, Spares g (f a)) : ∀ l, Spares g (Machine.each l f)
  | [] => .pure ()
  | a :: l => (h a).bind fun _ => Spares.each h l

theorem Spares.whenM {m : M Unit} (h : Spares g m) (c : Bool) : Spares g (Machine.whenM c m) := .ite h (.pure ())

/-- What an attempt does not carry out, it undoes. -/
theorem Spares.attempt (h : Spares g m) : Spares g (Machine.attempt m) := by
  intro l b l' e
  unfold Machine.attempt at e
  split at e
  next hm => cases e; exact h _ _ _ hm
  · cases e; rfl

end

section
variable {γ : Type} {g : State → γ}

theorem Spares.modRegion (h : ∀ s R, g { s with regions := R } = g s) (k : Nat) (f : Region → Region) : Spares g (Machine.modRegion k f) := by
  refine .get fun s => ?_
  split
  · exact .eff fun s => h s _
  · exact .pure ()

theorem Spares.modHall {f : Hall → Hall} (h : ∀ s k, g { s with halls := s.halls.set k (f (hallAt s k)) } = g s) (k : Nat) : Spares g (Machine.modHall k f) := by
  rintro l b l' ⟨⟩
  exact h l.cur k

/-- What tokens do not touch: a part of the state that neither regions, channels nor overflow queues show in. -/
structure Untold (g : State → γ) : Prop where
  regions : ∀ s R, g { s with regions := R } = g s
  chans : ∀ s C, g { s with chans := C } = g s
  overflow : ∀ s k l, g { s with halls := s.halls.set k { hallAt s k with overflow := l } } = g s

variable (hg : Untold g)
include hg

theorem sendEdge_spares (t : Token) (e : Edge) : Spares g (sendEdge t e) := .get fun _ => .eff fun s => hg.chans s _

theorem stir_spares (rid : Nat) : Spares g (stir rid) := .get fun _ => .modRegion hg.regions _ _

theorem emitTo_spares (rid cell : Nat) (d : Dest) (t : Token) : Spares g (emitTo rid cell d t) := by
  refine .get fun s => ?_
  split
  · exact .pure ()
  · exact (Spares.each (fun e => sendEdge_spares hg t e) _).bind fun _ => stir_spares hg rid

theorem replaceAt_spares (c : Chan) (t : Token) : Spares g (replaceAt c t) := by
  have hregion : ∀ k f, Spares g (modRegion k f >>= fun _ => pure true) := fun k f => (Spares.modRegion hg.regions k f).bind fun _ => .pure true
  refine .get fun s => ?_
  split
  · split
    · exact .ite (hregion _ _) (.pure false)
    · exact .pure false
  · split
    · exact .pure false
    · split
      · exact hregion _ _
      · exact .pure false
  · split
    · exact .pure false
    · split
      · exact (Spares.eff fun s => hg.regions s _).bind fun _ => .pure true
      · split
        · exact (Spares.modHall (fun s k => hg.overflow s k _) _).bind fun _ => .pure true
        · exact .pure false

theorem replacePending_spares (rid cell : Nat) (d : Dest) (t : Token) : Spares g (replacePending rid cell d t) := by
  refine .get fun s => ?_
  split
  · exact .pure ()
  · refine .each (fun e => .get fun s => (replaceAt_spares hg _ t).bind fun done => .ite (.pure ()) ?_) _
    split
    · exact .eff fun s => hg.chans s _
    · split
      · exact .eff fun s => hg.chans s _
      · exact sendEdge_spares hg t e

theorem sendLane_spares (x : Issue) (d : Dest) (t : Token) : Spares g (sendLane x d t) :=
  .ite (replacePending_spares hg _ _ d t) (emitTo_spares hg _ _ d t)

theorem delivered_spared (x : Issue) (d : Dest) (t : Token) (s : State) : g (delivered x d t s) = g s :=
  (delivered_reaches x d t s).spared (sendLane_spares hg x d t)

theorem laneSent_spared (f : NodeRec) (x : Issue) (l : Lane) (out : Option Token × Option Token) (s : State) : g (laneSent f x l out s) = g s := by
  obtain ⟨a, b⟩ := out
  cases a <;> cases b <;> simp only [laneSent, delivered_spared hg]

end

end Sys2Proof.Machine

/-! PROOFS. How a node's access starts: its request waits to be served, a fence's wait is a request too, a miss waits for a walk, and an
access that R101 does not accept traps (R100 to R105, R289 to R295, R431). -/
namespace Sys2Proof.Machine
open Sys2Proof.Claims

variable {s t u : State} {r r' : Region} {f : NodeRec} {x : Issue} {l : Lane} {a : AccessKind} {q : Req}

/-! ### The access of a lane -/

/-- What a lane of a node does that only starts an access; a packet without a legal header has none, and traps (R291, R292). -/
def accessBody (f : NodeRec) (k : Issue → Lane → Option AccessKind) : Issue → Region → Lane → M LaneOut := fun x _ l =>
  match k x l with
  | some a => accessLane x f l a
  | none => pure (.trap 0x22 (opv f l 0).toNat 0)

theorem storeFE_body (beyond : Bool) (f : NodeRec) : storeFE beyond f = lanesM f .access (accessBody f (filling beyond f).2) := by
  unfold storeFE
  congr
  funext x r l
  cases hd : storeData f l <;> simp only [accessBody, filling, hd, Option.map_none, Option.map_some]

/-- The nodes of the table run their accesses lane by lane (R290, R292 to R294). -/
theorem exec_access {i : Instr} {k : Issue → Lane → Option AccessKind} (h : accessOf i = some (f, k)) (s : State) :
    exec i s = runNode (lanesM f .access (accessBody f k)) s := by
  unfold accessOf at h
  split at h <;> cases h
  case h_4 => exact congrArg (runNode · s) (storeFE_body false f)
  case h_5 => exact congrArg (runNode · s) (storeFE_body true f)
  all_goals rfl

/-- What a lane's access gives when it starts: nothing yet (R130). -/
theorem accessBody_starts {k : Issue → Lane → Option AccessKind} (hk : k x l = some a) (h : Reaches (startAccess x f l a) s (.ok q) t) :
    Reaches (accessBody f k x r l) s (.emit none none) t := by
  simp only [accessBody, hk]
  exact h.bind (Reaches.pure _ t)

/-- What a lane's access gives when it does not start. -/
theorem accessBody_stops {k : Issue → Lane → Option AccessKind} {o : LaneOut} (hk : k x l = some a)
    (h : Reaches (startAccess x f l a) s (.error o) s) : Reaches (accessBody f k x r l) s o s := by
  simp only [accessBody, hk]
  exact h.bind (Reaches.pure _ s)

theorem addReq_reaches (q : Req) (s : State) : Reaches (addReq q) s () { s with reqs := s.reqs ++ [q] } :=
  (Reaches.get s).bind (Reaches.eff _ s)

/-- An access whose location is at hand becomes a request behind the others (R100 to R105). -/
theorem startAccess_located (hr : kget s.regions x.rid = some r) (h : located s r x f l a = some q) :
    Reaches (startAccess x f l a) s (.ok { q with number := s.tick }) (queued q s) := by
  have hadd : ∀ q : Req, Reaches (addReq { q with number := s.tick } >>= fun _ => pure (Except.ok { q with number := s.tick } : Except LaneOut Req))
      { s with tick := s.tick + 1 } (.ok { q with number := s.tick }) (queued q s) := fun q => (addReq_reaches _ _).bind (Reaches.pure _ _)
  simp only [located, handleBuffer] at h
  refine (Reaches.get s).bind ?_
  cases hb : (handleAt s r.vf r.ctx (f.ex.toNat % 256)).visible with
  | none => simp [hb] at h
  | some b =>
    simp only [hb] at h
    split at h
    · cases h
    next hcheck =>
    have hc : checkAccess (some b) a.right (opv f l 0).toNat a.len a.align = .ok (b.scratch, b.base + (opv f l 0).toNat) := by
      simp only [not_or, not_not, Bool.not_eq_false] at hcheck
      obtain ⟨halign, hbound, hright⟩ := hcheck
      simp [checkAccess, halign, hright, hbound]
    simp only [hr, hb, hc]
    cases hs : b.scratch with
    | some hall =>
      simp only [hs, Option.some.injEq] at h
      subst h
      simp only [reduceCtorEq, and_false, if_false]
      exact (fresh_reaches s).bind (hadd (request s r x f l a.op _ _ (some (scratchAddr hall _))))
    | none =>
      simp only [hs] at h
      split at h
      · cases h
      next hscr =>
      simp only [hscr, Bool.false_eq_true, false_and, if_false]
      refine (fresh_reaches s).bind ?_
      cases ht : tlbLookup s r.hall r.vf (b.base + (opv f l 0).toNat) with
      | none => simp [ht] at h
      | some p =>
        obtain ⟨pa, e⟩ := p
        simp only [ht] at h
        split at h
        next hg =>
          cases h
          have ht' : tlbLookup { s with tick := s.tick + 1 } r.hall r.vf (b.base + (opv f l 0).toNat) = some (pa, e) := ht
          simp only [hg, if_true]
          exact hadd (request s r x f l a.op _ _ (some pa))
        · cases h


/-- An access that R101 and R431 do not accept gives its code, with the offset as operand. -/
theorem startAccess_stops {c : Nat} (hr : kget s.regions x.rid = some r)
    (h : accessCode (handleBuffer s r f) a.right (opv f l 0).toNat a.len a.align a.scratchOnly = some c) :
    Reaches (startAccess x f l a) s (.error (.trap c (opv f l 0).toNat 0)) s := by
  refine (Reaches.get s).bind ?_
  simp only [handleBuffer] at h
  cases hb : (handleAt s r.vf r.ctx (f.ex.toNat % 256)).visible with
  | none =>
    rw [hb] at h
    cases h
    simp only [hr, hb, checkAccess]
    exact Reaches.pure _ s
  | some b =>
    simp only [hb, accessCode] at h
    simp only [hr, hb, checkAccess, gt_iff_lt]
    split at h
    next halign => cases h; simp only [halign, ne_eq, not_false_eq_true, if_true]; exact Reaches.pure _ s
    next halign =>
    split at h
    next hbound => cases h; simp only [halign, hbound, if_true, if_false]; exact Reaches.pure _ s
    next hbound =>
    split at h
    next hright => cases h; simp only [halign, hbound, hright, Bool.not_false, if_true, if_false]; exact Reaches.pure _ s
    next hright =>
    split at h
    next hscr => cases h; simp only [halign, hbound, hright, hscr, Bool.not_true, Bool.false_eq_true, and_self, if_true, if_false]; exact Reaches.pure _ s
    · cases h

/-- Settles O25: the lane's access gives the code of the first check that fails, and nothing else has happened. -/
theorem accessTrapTaken : Obligations.AccessTrapTaken := by
  intro i f k s x r l a c hi hf hl hfi hk hh hc
  rw [exec_access hi]
  exact node_trap hf hl hfi hh (accessBody_stops hk (startAccess_stops hf.2.1 hc))

/-! ### Lanes one after another -/

/-- What an access reads of the state: the buffers and the translations. -/
def accessView (s : State) : KMap VFn × Nat × List (KMap TlbEntry) := (s.vfs, s.moves, s.halls.map (·.tlb))

theorem accessView_onHall {k : Nat} {g : Hall → Hall} (h : (g (hallAt s k)).tlb = (hallAt s k).tlb) : accessView (onHall k g s) = accessView s := by
  have e : accessView (onHall k g s) = accessView (onHall k id s) := by simp only [accessView, onHall, List.map_set, h, id]
  rw [e, onHall_same s k rfl]

theorem accessView_untold : Untold accessView where
  regions _ _ := rfl
  chans _ _ := rfl
  overflow _ _ l := accessView_onHall (g := fun h => { h with overflow := l }) rfl

theorem accessView_discarding (rid tag code : Nat) (u : State) : accessView (discarding rid tag code u) = accessView u := by
  unfold discarding
  repeat' split
  · rfl
  · rfl
  · rfl
  · exact accessView_onHall (g := fun h => { h with invs := kset h.invs _ _ }) rfl

theorem tlb_of_accessView (h : accessView u = accessView s) (k : Nat) : (hallAt u k).tlb = (hallAt s k).tlb := by
  have e : u.halls[k]?.map (·.tlb) = s.halls[k]?.map (·.tlb) := by simpa [accessView] using congrArg (·[k]?) (congrArg (·.2.2) h)
  unfold hallAt
  cases hu : u.halls[k]? <;> cases hs : s.halls[k]? <;> simp_all

/-- A state in which the lanes before have sent their poison or started their accesses. -/
def SameAccess (s u : State) : Prop := Kin s u ∧ accessView u = accessView s

theorem core_vf (h : r'.core = r.core) : r'.vf = r.vf := (congrArg Region.vf h :)
theorem core_ctx (h : r'.core = r.core) : r'.ctx = r.ctx := (congrArg Region.ctx h :)

/-- A lane's request is the one that the state before the issue gives. -/
theorem SameAccess.located (h : SameAccess s u) (hc : r'.core = r.core) : located u r' x f l a = located s r x f l a := by
  have hvfs : u.vfs = s.vfs := congrArg (·.1) h.2
  have hmoves : u.moves = s.moves := congrArg (·.2.1) h.2
  have htlb : ∀ va, tlbLookup u r.hall r.vf va = tlbLookup s r.hall r.vf va := fun va => by simp only [tlbLookup, tlb_of_accessView h.2]
  simp only [Claims.located, handleBuffer, handleAt, vfAt, request, boundId, hvfs, hmoves, core_vf hc, core_ctx hc, core_hall hc, core_active hc, htlb]

theorem SameAccess.queued (h : SameAccess s u) (q : Req) : SameAccess s (queued q u) := ⟨h.1.trans (Kin.of_regions rfl), h.2⟩

theorem SameAccess.laneStart {q : Lane → Req} (h : SameAccess s u) : SameAccess s (laneStart f x (fun l => Claims.queued (q l)) u l) := by
  unfold Machine.laneStart
  split
  · exact ⟨(h.1.trans (laneSent_kin f x l _ u)).trans (discarding_kin _ _ _ _),
      (accessView_discarding _ _ _ _).trans ((laneSent_spared accessView_untold f x l _ u).trans h.2)⟩
  · split
    · exact h.queued _
    · exact h

/-- A node whose lanes each add a request. -/
theorem queueNode_next {body : Issue → Region → Lane → M LaneOut} {q : Lane → Req} (hf : Fires s x r)
    (hb : ∀ u r' l, l ∈ x.lanes → firing f l = true → SameAccess s u → kget u.regions x.rid = some r' → r'.core = r.core →
      Reaches (body x r' l) u (.emit none none) (queued (q l) u)) :
    runNode (lanesM f .access body) s = .next (lanesStart f x (fun l => queued (q l)) s) := by
  have hkeep : ∀ u l, SameAccess s u → SameAccess s (laneStart f x (fun l => queued (q l)) u l) := fun u l h => h.laneStart
  have hs : SameAccess s s := ⟨Kin.refl s, rfl⟩
  rw [lanesStart_eq]
  refine node_next (accessLanes_reaches hf _ (SameAccess s) hs (fun u l hl hfi hu => ?_) fun u l _ => hkeep u l)
    ((foldl_keeps (SameAccess s) hkeep x.lanes s hs).1.2 hf.2.2)
  obtain ⟨r', hr', hcore⟩ := hu.1.get hf.2.1
  exact ⟨r', (none, none), queued (q l) u, hr', hb u r' l hl hfi hu hr' hcore, rfl⟩

/-- Settles O21: the lanes before change neither buffers nor translations, so each lane's request is the one of the state before. -/
theorem accessesStart : Obligations.AccessesStart := by
  intro i f k q s x r hi hf hq
  rw [exec_access hi]
  refine queueNode_next hf fun u r' l hl hfi hu hr' hcore => ?_
  obtain ⟨a, hk, ha⟩ := Option.bind_eq_some_iff.mp (hq l hl hfi)
  exact accessBody_starts hk (startAccess_located hr' ((hu.located hcore).trans ha))

/-- Settles O22: each lane's wait is a request that no location and no part of the memory system holds. -/
theorem fenceStarts : Obligations.FenceStarts := by
  intro f s x r hf
  refine queueNode_next hf fun u r' l hl hfi hu hr' hcore => ?_
  have hwid : boundId r' l.tag = boundId r l.tag := by simp only [boundId, core_active hcore]
  refine (fresh_reaches u).bind ?_
  rw [hwid]
  exact (addReq_reaches _ _).bind (Reaches.pure _ _)

/-! ### A miss (R7, R105) -/

/-- The walks that a miss of a hall may join: of its die, for the same function and page, and met by no invalidation. -/
def joinable (s : State) (hall vf va : Nat) : Walk → Bool := fun w =>
  w.vf == vf && dieOf w.hall == dieOf hall && !w.stale && samePage s vf (w.page * 65536) va

theorem joinWalk_joins {hall vf va : Nat} {w : Walk} (h : s.walks.find? (joinable s hall vf va) = some w) :
    Reaches (joinWalk hall vf va) s w.number
      { s with walks := s.walks.map (fun y => if y.number = w.number then { y with joined := addNat y.joined hall } else y) } := by
  refine (Reaches.get s).bind ?_
  unfold joinable at h
  simp only [h]
  exact (Reaches.eff _ s).bind (Reaches.pure _ _)

theorem joinWalk_starts {hall vf va : Nat} (h : s.walks.find? (joinable s hall vf va) = none) :
    Reaches (joinWalk hall vf va) s s.tick
      { s with tick := s.tick + 1, walks := s.walks ++ [{ vf := vf, page := va / 65536, hall := hall, joined := [hall], number := s.tick
                                                          started := (s.walks.filter (fun w => w.started && dieOf w.hall == dieOf hall)).length < 64 }] } := by
  refine (Reaches.get s).bind ?_
  unfold joinable at h
  simp only [h]
  exact (fresh_reaches s).bind ((Reaches.eff _ _).bind (Reaches.pure _ _))

/-- The state with a miss counted in a region's perf register 4 (R306). -/
def missed (rid : Nat) (s : State) : State :=
  onRegion rid (fun r => { r with sys := { r.sys with perf := r.sys.perf.set 4 ((r.sys.perf[4]?).getD 0 + 1) } }) s

theorem missed_reqs (rid : Nat) (s : State) : (missed rid s).reqs = s.reqs := by
  unfold missed onRegion
  split <;> rfl

/-- An access that misses waits for the walk that it joins. -/
theorem startAccess_misses {b : Buffer} {w : Nat} (hr : kget s.regions x.rid = some r) (hb : handleBuffer s r f = some b) (hscr : b.scratch = none)
    (honly : a.scratchOnly = false) (hcode : accessCode (some b) a.right (opv f l 0).toNat a.len a.align false = none)
    (hmiss : tlbLookup s r.hall r.vf (b.base + (opv f l 0).toNat) = none)
    (hwalk : Reaches (joinWalk r.hall r.vf (b.base + (opv f l 0).toNat)) { s with tick := s.tick + 1 } w u) (hreqs : u.reqs = s.reqs) :
    let q := request s r x f l a.op (b.base + (opv f l 0).toNat) (if a.byHeader then b.len - (opv f l 0).toNat else a.len) none
    let q' : Req := { q with phase := .walking, walk := w, need := b.base + (opv f l 0).toNat, number := s.tick }
    Reaches (startAccess x f l a) s (.ok q') { missed x.rid u with reqs := s.reqs ++ [q'] } := by
  intro q q'
  refine (Reaches.get s).bind ?_
  rw [handleBuffer] at hb
  have hmiss' : tlbLookup { s with tick := s.tick + 1 } r.hall r.vf (b.base + (opv f l 0).toNat) = none := hmiss
  simp only [hr, hb, checkAccess_ok hcode, hscr, honly, Bool.false_eq_true, false_and, if_false]
  refine (fresh_reaches s).bind ?_
  simp only [hmiss]
  refine hwalk.bind ((onRegion_reaches _ _ u).bind (((addReq_reaches q' _).congr ?_).bind (Reaches.pure _ _)))
  rw [← hreqs, ← missed_reqs x.rid u]
  rfl

/-- Settles O24: the miss joins a walk or starts one (`joinWalk_joins`, `joinWalk_starts`), and its request is behind the others. -/
theorem pageMissWalks : Obligations.PageMissWalks := by
  intro i f k s x r l a b hi hf hl hfi hk hb hscr honly hcode va hmiss q missed' waits
  have hstep : ∀ {w u}, Reaches (joinWalk r.hall r.vf va) { s with tick := s.tick + 1 } w u → u.reqs = s.reqs → u.regions = s.regions →
      exec i s = .next { missed x.rid u with issue := none, reqs := s.reqs ++ [{ q with phase := .walking, walk := w, need := va, number := s.tick }] } := by
    intro w u hwalk hreqs hregions
    have hquiet : trapWaiting u = none := by unfold trapWaiting; rw [hregions]; exact hf.2.2
    rw [exec_access hi]
    exact accessNode_next hf hl hfi (accessBody_starts hk (startAccess_misses hf.2.1 hb hscr honly hcode hmiss hwalk hreqs))
      (onRegion_quiet x.rid (fun _ => rfl) (fun _ => rfl) (fun _ => rfl) (fun _ => rfl) hquiet)
  split
  next w hw => exact hstep (joinWalk_joins (s := { s with tick := s.tick + 1 }) hw) rfl rfl
  next hw =>
    have hnext := hstep (joinWalk_starts (s := { s with tick := s.tick + 1 }) hw) rfl rfl
    refine ⟨_, hnext, ?_, rfl, ?_⟩ <;> simp only [missed, onRegion, hf.2.1]

end Sys2Proof.Machine

/-! PROOFS. STRM.END of a stream whose tile number does not fit its field of a control word, which the statement about the sequencer's memory
commands does not exclude: the carry turns the stream's finish bit into one for a cell's counters (R240, R323). -/
namespace Sys2Proof.Machine
open Sys2Proof.Claims

variable {s : State} {r : Region} {f : CmdRec}

/-- A region after STRM.END: what its busy streams have in progress ends first, and the others send their finish bits (R113, R323). -/
def streamsEnded (f : CmdRec) (r : Region) : Region :=
  let y : Region := { r with streams := r.streams.map (fun p =>
    if (maskStreams f.imm.toNat).contains p.1 then (p.1, if p.2.running && p.2.busy then { p.2 with ending := true } else p.2) else p) }
  ((y.streams.filter (fun p => (maskStreams f.imm.toNat).contains p.1 && p.2.running && !p.2.busy)).map (fun p => streamWord 2 y p.2.desc)).foldl takeControl y

theorem execStrmEnd_next (hi : RegionIssues s r false) (hq : trapWaiting { s with regions := kset s.regions s.who (streamsEnded f r) } = none) :
    exec (.strmEnd f) s = .next (goOn { s with regions := kset s.regions s.who (streamsEnded f r) }) := by
  obtain ⟨-, hr, -, -⟩ := id hi
  refine command_region (n := .done) hi (by decide) ?_ hq
  refine (myRegion_reaches hr).bind ((modRegion_reaches _ _ hr).bind (Reaches.bind (a := ()) ?_ (Reaches.pure _ _)))
  refine (modRegion_reaches _ _ (kget_kset_self _ _ _)).congr ?_
  rw [kset_kset]
  rfl

/-- What the issuer's next command leaves of a region but its sequencer. -/
theorem goOn_run (hr : kget s.regions s.who = some r) (hw : s.who ≠ serviceRid) : (kget (goOn s).regions s.who).map (·.run) = some r.run := by
  rw [goOn, withIssuer_region _ hw hr, kget_kset_self]
  rfl

namespace TileOutOfField

/-- A stream that runs on tile 1,984: with the bit that says that tiles are meant, its number is 16 times the place of the context's field, so the
word's 32 bits keep neither. -/
def stream : Stream :=
  { desc := { tile := 1984, slot := 0, write := false, fmt := .i32, fe := 0, handle := 0, origin := 0, count := 1, dims := [] }, running := true }

/-- Its region, whose iteration chain counts. -/
def region : Region :=
  { hall := 0, ctx := 0, shape := 0, origin := 0, vf := 0, wing := 0, root := true, parent := none, fres := 0, state := .running
    seq := Sequencer.zero, header := 0, program := { acts := [] }, run := { counting := true }, streams := [(0, stream)] }

def state : State := { State.reset with who := 0, regions := [(0, region)] }

/-- STRM.END of stream 0. -/
def endRecord : CmdRec := { ty := .untyped, md := 0, d := 0, s := 0, t := 0, ext := 0, imm := 1 }

theorem state_issues : RegionIssues state region false := ⟨(by decide : (0 : Nat) ≠ serviceRid), rfl, rfl, nofun⟩

/-- The finish bit stops the chain. -/
theorem chain_stops : (streamsEnded endRecord region).run.counting = false := by decide

end TileOutOfField

open TileOutOfField in
/-- Refutes O37: in `TileOutOfField.state` STRM.END stops the iteration chain of the region, and so changes more of it than its streams and the
words that its control network has carried. -/
theorem not_memoryCommandsComplete : ¬ Obligations.MemoryCommandsComplete := fun h => by
  obtain ⟨t, ht, r', -, hgo, -⟩ := h (.strmEnd endRecord) _ state region rfl state_issues trivial
  have hstops := goOn_run (s := { state with regions := kset state.regions state.who (streamsEnded endRecord region) }) (kget_kset_self _ _ _) state_issues.1
  have hcounts := goOn_run (s := onRegion state.who (fun y => { y with streams := r'.streams, control := r'.control }) state) rfl state_issues.1
  have hnext := execStrmEnd_next (f := endRecord) state_issues rfl
  have heq : goOn _ = t := Host.Outcome.next.inj (hnext.symm.trans ht)
  rw [heq, hgo] at hstops
  have hrun := congrArg Run.counting (Option.some.inj (hstops.symm.trans hcounts))
  rw [chain_stops] at hrun
  cases hrun

end Sys2Proof.Machine

/-! PROOFS. PF_RESET where the list of regions is out of order, which `Inv` excludes and the statement about the host's steps does not: a region
that ends is then listed twice, and its release asks for one entry of the registrar more than there is room for (R222, R453, R458). -/
namespace Sys2Proof.Machine
open Sys2Proof.Claims

/-- The wings that a step leaves. -/
def wingsLeft : Host.Outcome State Fault Refusal → Option Nat
  | .next t => some t.wings.length
  | _ => none

namespace RegionsOutOfOrder

/-- A root region of wing 0. -/
def region (origin : Nat) (st : RegionState) : Region :=
  { hall := 0, ctx := 0, shape := 0, origin := origin, vf := 0, wing := 0, root := true, parent := none, fres := 0, state := st
    seq := Sequencer.zero, header := 0, program := { acts := [] } }

/-- Every epoch fuse is blown, and the count leaves three entries. -/
def registrar : Registrar := { epoch := 4096, count := 2 ^ 32 - 3 }

/-- Region 0, which runs, is listed behind region 1, which is under scrub: an entry for each of them and one for the wing are asked for. -/
def state : State :=
  { State.reset with
    input := .absent, halls := [], wings := [(0, { x0 := 0, y0 := 0, width := 0, height := 0, tenant := 0 })]
    regions := [(1, region 1 .free), (0, region 0 .running)], pkg := { State.reset.pkg with registrar := registrar } }

/-- The fourth entry has no place, so PF_RESET waits, and the wing stays. -/
theorem wing_stays : wingsLeft (exec .pfReset state) = some 1 := by decide +kernel

end RegionsOutOfOrder

open RegionsOutOfOrder in
/-- Refutes O47: in `RegionsOutOfOrder.state` the registrar has room for every region, image and wing, and PF_RESET releases no wing. -/
theorem not_hostEventsComplete : ¬ Obligations.HostEventsComplete := fun h => by
  obtain ⟨t, ht, -, hnone, -⟩ := h .pfReset _ state rfl rfl ⟨rfl, by decide, .inl (by decide)⟩
  have hleft := wing_stays
  rw [ht, wingsLeft, hnone] at hleft
  cases hleft

end Sys2Proof.Machine

/-! PROOFS. The tests in progress and the counts of errors: nothing but an error and the end of a test changes them (R439). -/
namespace Sys2Proof.Machine
open Sys2Proof.Claims

variable {s t : State}

/-- The self-tests in progress, and the errors that were counted at each place. -/
def errorTests (s : State) : List SelfTest × KMap (List Nat) := (s.pkg.tests, s.pkg.errCounts)

/-- An action starts and ends no test, and counts no error. -/
abbrev Untested {α : Type} (m : M α) : Prop := Spares errorTests m

theorem errorTests_untold : Untold errorTests := ⟨fun _ _ => rfl, fun _ _ => rfl, fun _ _ _ => rfl⟩

theorem modRegion_untested {k : Nat} {f : Region → Region} : Untested (modRegion k f) := .modRegion (fun _ _ => rfl) k f

theorem modHall_untested {k : Nat} {f : Hall → Hall} : Untested (modHall k f) := .modHall (fun _ _ => rfl) k

theorem modVf_untested {k : Nat} {f : VFn → VFn} : Untested (modVf k f) := .get fun _ => .eff fun _ => rfl

theorem modWing_untested {k : Nat} {f : Wing → Wing} : Untested (modWing k f) := by
  refine .get fun s => ?_
  split
  · exact .eff fun _ => rfl
  · exact .pure ()

theorem modPkg_untested {f : Package → Package} (h : ∀ p, (f p).tests = p.tests ∧ (f p).errCounts = p.errCounts) : Untested (modPkg f) := by
  rintro l a l' ⟨⟩
  obtain ⟨htests, hcounts⟩ := h l.cur.pkg
  exact Prod.ext htests hcounts

theorem stir_untested {rid : Nat} : Untested (stir rid) := stir_spares errorTests_untold rid

theorem emitTo_untested {rid cell : Nat} {d : Dest} {t : Token} : Untested (emitTo rid cell d t) := emitTo_spares errorTests_untold rid cell d t

theorem replacePending_untested {rid cell : Nat} {d : Dest} {t : Token} : Untested (replacePending rid cell d t) :=
  replacePending_spares errorTests_untold rid cell d t

theorem putBytes_untested : ∀ (bs : List Byte) (a : Nat), Untested (putBytes a bs)
  | [], _ => .pure ()
  | _ :: bs, a => (Spares.eff fun _ => rfl).bind fun _ => putBytes_untested bs (a + 1)

theorem msi_untested {fn v : Nat} : Untested (msi fn v) := modPkg_untested fun p => by
  split
  · exact ⟨rfl, rfl⟩
  · exact ⟨rfl, rfl⟩

theorem modFold_untested {h k : Nat} {g : Fold → Fold} : Untested (modFold h k g) := modHall_untested

theorem fresh_untested : Untested fresh := .get fun _ => (Spares.eff fun _ => rfl).bind fun _ => .pure _

theorem raiseNode_untested {rid cell node : Nat} {retry : Bool} {t : TrapRec} {lanes : List (Nat × Lane × List Dest)} : Untested (raiseNode rid cell node retry t lanes) := by
  unfold raiseNode
  repeat' first | (with_reducible first | exact Spares.pure _ | refine Spares.get fun _ => ?_ | refine Spares.bind ?_ fun _ => ?_ | refine Spares.each (fun _ => ?_) _ | exact modRegion_untested | exact emitTo_untested) | split

theorem sendReply_untested {q : Req} {a b : Option Token} : Untested (sendReply q a b) := by
  unfold sendReply
  repeat' first | (with_reducible first | refine Spares.get fun _ => ?_ | refine Spares.bind ?_ fun _ => ?_ | exact Spares.eff fun _ => rfl | refine Spares.each (fun _ => ?_) _ | exact stir_untested | exact emitTo_untested | exact replacePending_untested | exact fresh_untested) | split | dsimp only

theorem raiseLate_untested {rid cell node : Nat} {da db : Dest} {retry : Bool} {l : Lane} {t : TrapRec} : Untested (raiseLate rid cell node da db retry l t) :=
  raiseNode_untested

theorem putSlot_untested {hall key i : Nat} {sl : FoldSlot} : Untested (putSlot hall key i sl) := modFold_untested

theorem seedEnds_untested {q : NameReq} {o : Option TrapRec} : Untested (seedEnds q o) := modRegion_untested

theorem answerName_untested {q : NameReq} {sl : FoldSlot} : Untested (answerName q sl) := by
  unfold answerName
  repeat' first | (with_reducible first | exact sendReply_untested | exact seedEnds_untested) | split

theorem tryName_untested {q : NameReq} : Untested (tryName q) := by
  unfold tryName
  repeat' first | (with_reducible first | exact Spares.pure _ | refine Spares.get fun _ => ?_ | refine Spares.bind ?_ fun _ => ?_ | exact raiseLate_untested | exact putSlot_untested | exact seedEnds_untested | exact answerName_untested) | split

theorem reflag_untested {hall key : Nat} : Untested (reflag hall key) := .get fun _ => modFold_untested

theorem settle_untested (hall key : Nat) : ∀ n, Untested (settle hall key n)
  | 0 => .pure _
  | n + 1 => by
    have ih := settle_untested hall key n
    unfold settle
    repeat' first | (with_reducible first | apply ih | exact Spares.pure _ | refine Spares.get fun _ => ?_ | refine Spares.bind ?_ fun _ => ?_ | exact Spares.eff fun _ => rfl | exact tryName_untested) | split | dsimp only

theorem settleFold_untested {hall key : Nat} : Untested (settleFold hall key) := .get fun _ => (settle_untested _ _ _).bind fun _ => reflag_untested

theorem presentName_untested {q : NameReq} : Untested (presentName q) := by
  unfold presentName
  repeat' first | (with_reducible first | exact Spares.pure _ | refine Spares.get fun _ => ?_ | refine Spares.bind ?_ fun _ => ?_ | exact Spares.eff fun _ => rfl | exact tryName_untested | exact reflag_untested | exact settleFold_untested) | split

theorem endMove_untested {hall key : Nat} {h : BitVec 128} : Untested (endMove hall key h) := by
  unfold endMove
  repeat' first | (with_reducible first | exact Spares.pure _ | refine Spares.get fun _ => ?_ | refine Spares.bind ?_ fun _ => ?_ | exact Spares.eff fun _ => rfl | refine Spares.each (fun _ => ?_) _ | exact modFold_untested | exact settleFold_untested | exact presentName_untested) | split

theorem pushError_untested {ws : List (BitVec 64)} : Untested (pushError ws) := by
  unfold pushError
  repeat' first | (with_reducible first | refine Spares.get fun _ => ?_ | refine Spares.bind ?_ fun _ => ?_ | exact modPkg_untested fun _ => ⟨rfl, rfl⟩ | exact putBytes_untested _ _ | exact msi_untested) | split

theorem allocate_untested {hall : Nat} {k : Option Nat} {a : Nat} {m : Mesi} : Untested (allocate hall k a m) := by
  unfold allocate
  repeat' first | (with_reducible first | exact Spares.pure _ | refine Spares.get fun _ => ?_ | refine Spares.bind ?_ fun _ => ?_ | exact modHall_untested | exact fresh_untested) | split | dsimp only

theorem cacheWrite_untested {hall vf va a : Nat} : Untested (cacheWrite hall vf va a) := by
  unfold cacheWrite
  repeat' first | (with_reducible first | exact Spares.pure _ | refine Spares.get fun _ => ?_ | refine Spares.bind ?_ fun _ => ?_ | refine Spares.each (fun _ => ?_) _ | refine Spares.whenM ?_ _ | exact modHall_untested | exact allocate_untested) | split

theorem performBytes_untested {hall vf va a : Nat} {bs : List Byte} : Untested (performBytes hall vf va a bs) :=
  .get fun _ => (putBytes_untested _ _).bind fun _ => .each (fun _ => (Spares.whenM (.eff fun _ => rfl) _).bind fun _ => cacheWrite_untested) _

theorem fillGranules_untested {a n : Nat} : Untested (fillGranules a n) := by
  unfold fillGranules
  repeat' first | (with_reducible first | exact Spares.pure _ | exact Spares.eff fun _ => rfl | refine Spares.each (fun _ => ?_) _) | split

theorem raiseVersions_untested {l : List Nat} : Untested (raiseVersions l) := .get fun _ => .each (fun _ => .whenM (.eff fun _ => rfl) _) _

theorem locateNow_untested {hall vf va : Nat} {r : Right} : Untested (locateNow hall vf va r) := by
  unfold locateNow
  repeat' first | (with_reducible first | exact Spares.pure _ | refine Spares.get fun _ => ?_ | refine Spares.bind ?_ fun _ => ?_ | exact Spares.trap _ | exact modHall_untested) | split

theorem guestWrite_untested {hall vf va : Nat} {bs : List Byte} : Untested (guestWrite hall vf va bs) := by
  unfold guestWrite
  repeat' first | (with_reducible first | exact Spares.pure _ | refine Spares.bind ?_ fun _ => ?_ | refine Spares.each (fun _ => ?_) _ | refine Spares.attempt ?_ | exact performBytes_untested | exact raiseVersions_untested | exact locateNow_untested) | split

theorem errorRecord_untested {a b c d e f g h i j k : Nat} : Untested (errorRecord a b c d e f g h i j k) :=
  .get fun _ => Spares.bind (modPkg_untested fun _ => ⟨rfl, rfl⟩) fun _ => pushError_untested

theorem recordFor_untested {a b c d e : Nat} {t : TrapRec} {w : Nat} {l : List Nat} : Untested (recordFor a b c d e t w l) :=
  .get fun _ => modVf_untested.bind fun _ => guestWrite_untested.bind fun _ => (Spares.whenM errorRecord_untested _).bind fun _ => msi_untested

theorem faultRecord_untested {a b c : Nat} {t : TrapRec} {w : Nat} {l : List Nat} : Untested (faultRecord a b c t w l) := by
  unfold faultRecord
  repeat' first | (with_reducible first | refine Spares.get fun _ => ?_ | exact recordFor_untested) | split

theorem serveFE_untested {q : Req} {n : Nat} : Untested (serveFE q n) := by
  unfold serveFE
  repeat' first | (with_reducible first | exact Spares.pure _ | refine Spares.get fun _ => ?_ | refine Spares.bind ?_ fun _ => ?_ | exact Spares.eff fun _ => rfl | refine Spares.each (fun _ => ?_) _ | refine Spares.whenM ?_ _ | exact sendReply_untested | exact performBytes_untested | exact fillGranules_untested | exact raiseVersions_untested) | split

theorem tryFE_untested {q : Req} : Untested (tryFE q) := by
  unfold tryFE
  repeat' first | (with_reducible first | exact Spares.pure _ | refine Spares.get fun _ => ?_ | refine Spares.bind ?_ fun _ => ?_ | exact raiseLate_untested | exact serveFE_untested) | split

theorem settleFrom_untested : ∀ n, Untested (settleFrom n)
  | 0 => .pure _
  | n + 1 => by
    have ih := settleFrom_untested n
    unfold settleFrom
    repeat' first | (with_reducible first | apply ih | exact Spares.pure _ | refine Spares.get fun _ => ?_ | refine Spares.bind ?_ fun _ => ?_ | exact Spares.eff fun _ => rfl | exact tryFE_untested) | split

theorem settleGranules_untested : Untested settleGranules := .get fun _ => settleFrom_untested _

theorem closeSlots_untested {hall inv : Nat} {c : Bool} : Untested (closeSlots hall inv c) :=
  .get fun _ => (Spares.each (fun _ => modFold_untested) _).bind fun _ => .each (fun _ => settleFold_untested) _

theorem freeInv_untested {hall inv : Nat} : Untested (freeInv hall inv) := modHall_untested.bind fun _ => .get fun _ => .eff fun _ => rfl

theorem discardInv_untested {hall inv : Nat} {r : Bool} : Untested (discardInv hall inv r) := by
  unfold discardInv
  repeat' first | (with_reducible first | exact Spares.pure _ | refine Spares.get fun _ => ?_ | refine Spares.bind ?_ fun _ => ?_ | refine Spares.whenM ?_ _ | exact faultRecord_untested | exact settleGranules_untested | exact closeSlots_untested | exact freeInv_untested) | split

theorem cancelRepair_untested {die number : Nat} : Untested (cancelRepair die number) := by
  unfold cancelRepair
  repeat' first | (with_reducible first | exact Spares.pure _ | refine Spares.get fun _ => ?_ | refine Spares.bind ?_ fun _ => ?_ | exact Spares.eff fun _ => rfl | exact modWing_untested) | split

theorem cancelRepairsOf_untested {vf rid : Nat} : Untested (cancelRepairsOf vf rid) := .get fun _ => .each (fun _ => .each (fun _ => cancelRepair_untested) _) _

theorem freeRegion_untested {rid : Nat} {v : BitVec 64} : Untested (freeRegion rid v) := by
  unfold freeRegion
  repeat' first | (with_reducible first | exact Spares.pure _ | refine Spares.get fun _ => ?_ | refine Spares.bind ?_ fun _ => ?_ | exact Spares.eff fun _ => rfl | refine Spares.each (fun _ => ?_) _ | exact modRegion_untested | exact modHall_untested | exact modVf_untested | exact modWing_untested | exact modPkg_untested fun _ => ⟨rfl, rfl⟩ | exact endMove_untested | exact cancelRepairsOf_untested) | split

theorem finalPoison_untested {rid : Nat} {t : TrapRec} : Untested (finalPoison rid t) := by
  unfold finalPoison
  repeat' first | (with_reducible first | exact Spares.pure _ | refine Spares.get fun _ => ?_ | refine Spares.each (fun _ => ?_) _ | exact replacePending_untested) | split

theorem faultOne_untested {rid : Nat} {t : TrapRec} {d k : Nat} : Untested (faultOne rid t d k) := by
  unfold faultOne
  repeat' first | (with_reducible first | exact Spares.pure _ | refine Spares.get fun _ => ?_ | refine Spares.bind ?_ fun _ => ?_ | refine Spares.each (fun _ => ?_) _ | exact faultRecord_untested | exact discardInv_untested | exact freeRegion_untested | exact finalPoison_untested) | split

theorem regionFault_untested {rid : Nat} {t : TrapRec} {d k : Nat} : Untested (regionFault rid t d k) := by
  unfold regionFault
  repeat' first | (with_reducible first | refine Spares.get fun _ => ?_ | refine Spares.each (fun _ => ?_) _ | exact faultOne_untested) | split

theorem takeTrap_untested {rid : Nat} {r : Region} : Untested (takeTrap rid r) := by
  unfold takeTrap
  repeat' first | (with_reducible first | exact Spares.pure _ | exact Spares.eff fun _ => rfl | exact regionFault_untested) | split

theorem deliver_untested : ∀ n, Untested (deliver n)
  | 0 => .pure _
  | n + 1 => by
    have ih := deliver_untested n
    unfold deliver
    repeat' first | (with_reducible first | apply ih | exact Spares.pure _ | refine Spares.get fun _ => ?_ | refine Spares.bind ?_ fun _ => ?_ | exact takeTrap_untested) | split

theorem deliverTraps_untested : Untested deliverTraps := .get fun _ => deliver_untested _

theorem freeLine_untested {a : Nat} : Untested (freeLine a) := fresh_untested.bind fun _ => .each (fun _ => .eff fun _ => rfl) _

theorem storeQuarantined_untested {line : Nat} : Untested (storeQuarantined line) := by
  unfold storeQuarantined
  repeat' first | (with_reducible first | exact Spares.pure _ | refine Spares.get fun _ => ?_ | refine Spares.bind ?_ fun _ => ?_ | exact modPkg_untested fun _ => ⟨rfl, rfl⟩ | exact errorRecord_untested | exact freeLine_untested) | split

theorem flushWay_untested {hall tile way : Nat} : Untested (flushWay hall tile way) :=
  .get fun _ => modHall_untested.bind fun _ => .each (fun _ => storeQuarantined_untested) _

theorem changeWays_untested {hall : Nat} {h : Hall} {moved : Nat × Nat → Nat × Nat} : Untested (changeWays hall h moved) :=
  .get fun _ => (Spares.whenM (.eff fun _ => rfl) _).bind fun _ => .eff fun _ => rfl

theorem balanceHall_untested {hall : Nat} : Untested (balanceHall hall) := by
  unfold balanceHall
  repeat' first | (with_reducible first | exact Spares.pure _ | refine Spares.get fun _ => ?_ | exact modHall_untested) | split

theorem faultUsers_untested {p : Nat → Region → Bool} : Untested (faultUsers p) := .get fun _ => .each (fun _ => regionFault_untested) _

theorem retireUnit_untested {kind hall index way : Nat} : Untested (retireUnit kind hall index way) := by
  unfold retireUnit
  repeat' first | (with_reducible first | exact Spares.pure _ | refine Spares.get fun _ => ?_ | refine Spares.bind ?_ fun _ => ?_ | exact modPkg_untested fun _ => ⟨rfl, rfl⟩ | exact errorRecord_untested) | split

theorem retireCell_untested {hall cell : Nat} : Untested (retireCell hall cell) := faultUsers_untested.bind fun _ => retireUnit_untested

theorem retirePlinth_untested {hall k : Nat} : Untested (retirePlinth hall k) := .get fun _ => faultUsers_untested.bind fun _ => retireUnit_untested

theorem retireConservator_untested {die : Nat} : Untested (retireConservator die) := by
  unfold retireConservator
  repeat' first | (with_reducible first | exact Spares.pure _ | refine Spares.get fun _ => ?_ | refine Spares.bind ?_ fun _ => ?_ | exact Spares.eff fun _ => rfl | refine Spares.each (fun _ => ?_) _ | exact cancelRepair_untested | exact retireUnit_untested) | split

theorem retireWay_untested {hall tile way : Nat} : Untested (retireWay hall tile way) := by
  unfold retireWay
  repeat' first | (with_reducible first | refine Spares.get fun _ => ?_ | refine Spares.bind ?_ fun _ => ?_ | exact flushWay_untested | exact changeWays_untested | exact balanceHall_untested | exact faultUsers_untested | exact retireUnit_untested) | split

theorem lastingError_untested {t : SelfTest} : Untested (lastingError t) := by
  unfold lastingError
  repeat' first | (with_reducible first | refine Spares.get fun _ => ?_ | refine Spares.bind ?_ fun _ => ?_ | exact modHall_untested | exact modPkg_untested fun _ => ⟨rfl, rfl⟩ | exact retireUnit_untested | exact retireCell_untested | exact retirePlinth_untested | exact retireConservator_untested | exact retireWay_untested) | split | dsimp only

theorem reportTest_untested {t : SelfTest} {lasting : Bool} : Untested (reportTest t lasting) := by
  unfold reportTest
  repeat' first | (with_reducible first | exact Spares.pure _ | refine Spares.get fun _ => ?_ | refine Spares.bind ?_ fun _ => ?_ | exact fresh_untested | exact errorRecord_untested | exact faultRecord_untested) | split

end Sys2Proof.Machine

/-! PROOFS. The actions of the memory system that never trap: serving a request, an error in a structure, the end of a test and of a walk, a way that changes
its use, and a stream's access. -/
namespace Sys2Proof.Machine
open Sys2Proof.Claims

variable {s t : State}

/-- An action whose beginning reads the state. -/
theorem Sure.read {α : Type} {f : State → M α} (h : ∀ s, Sure (f s)) : Sure (get' >>= f) := Sure.get.bind h

theorem Plain.read {α : Type} {f : State → M α} (h : ∀ s, Plain (f s)) : Plain (get' >>= f) := Plain.get.bind h

theorem Sure.ite {α : Type} {c : Prop} [Decidable c] {m k : M α} (h : Sure m) (hk : Sure k) : Sure (if c then m else k) := by
  split
  · exact h
  · exact hk

/-! ### Requests -/

theorem dropReq_sure (n : Nat) : Sure (dropReq n) := .read fun _ => .eff _

theorem putReq_sure (q : Req) : Sure (putReq q) := .read fun _ => .eff _

theorem poisonReq_sure (q : Req) (code : Nat) : Sure (poisonReq q code) := (dropReq_sure _).bind fun _ => sendReply_sure _ _ _

theorem trapReq_sure (q : Req) (code w8 w9 : Nat) : Sure (trapReq q code w8 w9) := (dropReq_sure _).bind fun _ => raiseLate_sure _ _ _ _ _ _ _ _

theorem trapWalk_sure (q : Req) (e : XFault) (va : Nat) : Sure (trapWalk q e va) := .read fun _ => trapReq_sure _ _ _ _

theorem stopPiece_sure (q : Req) : ∀ e, Sure (stopPiece q e)
  | .fault f va => trapWalk_sure q f va
  | .miss _ => .read fun _ => (joinWalk_sure _ _ _).bind fun _ => (countMiss_sure _).bind fun _ => putReq_sure _

theorem endLoad_sure (q : Req) (bs : List Byte) : Sure (endLoad q bs) := (dropReq_sure _).bind fun _ => sendReply_sure _ _ _

theorem serveLoad_sure (q : Req) : Sure (serveLoad q) := by
  unfold serveLoad
  repeat' first | (with_reducible first | refine Sure.read fun _ => ?_ | refine Sure.bind ?_ fun _ => ?_ | refine Sure.whenM ?_ _ | refine Sure.each (fun _ => ?_) _ | exact stopPiece_sure _ _ | exact putReq_sure _ | exact poisonReq_sure _ _ | exact cacheRead_sure _ _ _ _ | exact endLoad_sure _ _ | exact trapReq_sure _ _ _ _) | split | dsimp only

theorem fillAndServe_sure (a n : Nat) : Sure (fillAndServe a n) := (fillGranules_sure a n).bind fun _ => settleGranules_sure.whenM _

theorem performWrite_sure (hall vf va a : Nat) (bs : List Byte) : Sure (performWrite hall vf va a bs) :=
  (performBytes_sure _ _ _ _ _).bind fun _ => (Sure.each (fun _ => raiseVersions_sure _) _).bind fun _ => fillAndServe_sure _ _

theorem putPieces_sure (q : Req) (l : List (Nat × Nat × Nat)) (data : List Byte) (atomic : Bool) : Sure (putPieces q l data atomic) := by
  refine .read fun s => ?_
  dsimp only
  split
  · exact .each (fun _ => modHall_sure _ _) l
  · exact .each (fun _ => performWrite_sure _ _ _ _ _) l

theorem serveStore_sure (q : Req) (data : List Byte) : Sure (serveStore q data) := by
  unfold serveStore
  repeat' first | (with_reducible first | refine Sure.read fun _ => ?_ | refine Sure.bind ?_ fun _ => ?_ | exact stopPiece_sure _ _ | exact putReq_sure _ | exact trapReq_sure _ _ _ _ | exact dropReq_sure _ | exact putPieces_sure _ _ _ _ | exact sendReply_sure _ _ _) | split

theorem serveAtomic_sure (q : Req) (new : BitVec 32 → Option (BitVec 32) × Conds) : Sure (serveAtomic q new) := by
  unfold serveAtomic
  repeat' first | (with_reducible first | exact Sure.pure _ | refine Sure.read fun _ => ?_ | refine Sure.bind ?_ fun _ => ?_ | refine Sure.each (fun _ => ?_) _ | exact stopPiece_sure _ _ | exact putReq_sure _ | exact trapReq_sure _ _ _ _ | exact poisonReq_sure _ _ | exact markDiscard_sure _ _ _ | exact dropReq_sure _ | exact putPieces_sure _ _ _ _ | exact modHall_sure _ _ | exact sendReply_sure _ _ _) | split | dsimp only [pinLine]

theorem annexFence_sure (hall : Nat) : Sure (annexFence hall) :=
  .read fun _ => .ite (.pure false) ((Sure.each (fun _ => modHall_sure _ _) _).bind fun _ => .pure true)

theorem serveFence_sure (q : Req) (scope : Nat) : Sure (serveFence q scope) := by
  refine .read fun s => .ite (Sure.bind (.ite (annexFence_sure _) (.pure true)) fun ok => .ite ?_ (poisonReq_sure q _)) (.pure ())
  exact (dropReq_sure _).bind fun _ => sendReply_sure _ _ _

theorem servePosted_sure (q : Req) (data : List Byte) (serial : Nat) : Sure (servePosted q data serial) :=
  .read fun _ => .ite (.pure ()) ((dropReq_sure _).bind fun _ => performWrite_sure _ _ _ _ _)

theorem arriveFE_sure (q : Req) : Sure (arriveFE q) :=
  (dropReq_sure _).bind fun _ => (tryFE_sure q).bind fun _ => .ite settleGranules_sure (addReq_sure _)

theorem serveDrain_sure (q : Req) (k row : Nat) (data : List Byte) : Sure (serveDrain q k row data) := by
  unfold serveDrain
  repeat' first | (with_reducible first | refine Sure.read fun _ => ?_ | refine Sure.bind ?_ fun _ => ?_ | refine Sure.each (fun _ => ?_) _ | exact stopPiece_sure _ _ | exact putReq_sure _ | exact dropReq_sure _ | exact drainTrap_sure _ _ _ _ _ | exact performWrite_sure _ _ _ _ _ | exact modPlinth_sure _ _ _ | exact settlePlinth_sure _ _) | split

theorem serveReq_sure (q : Req) : Sure (serveReq q) := by
  refine .read fun s => .ite (putReq_sure _) ?_
  cases q.op with
  | load => exact serveLoad_sure q
  | store d => exact serveStore_sure q d
  | loadFE take => exact arriveFE_sure q
  | storeFE full d => exact arriveFE_sure q
  | amo op arg md => exact serveAtomic_sure q _
  | cas e n => exact serveAtomic_sure q _
  | fence scope => exact serveFence_sure q scope
  | reply a b => exact (dropReq_sure _).bind fun _ => sendReply_sure _ _ _
  | posted d serial => exact servePosted_sure q d serial
  | drain k row d => exact serveDrain_sure q k row d

/-! ### Errors in stored data, and self-tests -/

theorem correctedAt_sure (g : Guarded) : Sure (correctedAt g) := by
  unfold correctedAt startTest
  exact modPkg_sure _

theorem readError_sure (g : Guarded) (hall : Nat) : Sure (readError g hall) := by
  have hmark : Sure (do eff (.mark (lineOf g.addr) true); startTest (errClass g.place false) g.place g.addr g.vf) := (Sure.eff _).bind fun _ => modPkg_sure _
  refine .read fun s => ?_
  split
  · exact .ite ((modHall_sure _ _).bind fun _ => correctedAt_sure g) hmark
  · exact hmark

theorem answerReq_sure (q : Req) (e : MemReply) : Sure (answerReq q e) := by
  have hserve : Sure (do
      serveReq q
      let s ← get'
      whenM ((s.reqs.find? (fun x => x.number == q.number)).all (fun x => x.got.length != q.got.length)) (stir q.rid)) :=
    (serveReq_sure q).bind fun _ => .read fun _ => (stir_sure _).whenM _
  refine .read fun s => ?_
  dsimp only
  split
  · exact (correctedAt_sure _).bind fun _ => hserve
  · exact (readError_sure _ _).bind fun _ => hserve
  · exact hserve

theorem poisonWaiters_sure (hall key : Nat) : Sure (poisonWaiters hall key) :=
  .read fun _ => (Sure.eff _).bind fun _ => .each (fun _ => .ite (seedEnds_sure _ _) (sendReply_sure _ _ _)) _

theorem spoilRow_sure (hall k row : Nat) : Sure (spoilRow hall k row) := by
  unfold spoilRow
  repeat' first | (with_reducible first | exact Sure.pure _ | refine Sure.read fun _ => ?_ | refine Sure.bind ?_ fun _ => ?_ | exact modPlinth_sure _ _ _ | exact modRegion_sure _ _ | exact discardTag_sure _ _ _) | split | dsimp only

theorem dropFold_sure (hall key : Nat) : Sure (dropFold hall key) := (poisonWaiters_sure hall key).bind fun _ => modHall_sure _ _

theorem readAt_plain (hall vf va a n : Nat) : Plain (readAt hall vf va a n) := by
  unfold readAt
  repeat' first | (with_reducible first | exact Plain.pure _ | exact Plain.trap _ | refine Plain.read fun _ => ?_ | refine Plain.bind ?_ fun _ => ?_ | refine Plain.each (fun _ => ?_) _ | exact (cacheRead_sure _ _ _ _).plain) | split | exact Plain.trap _

theorem placeNow_plain (hall vf : Nat) (scr : Option Nat) (va : Nat) (right : Right) : Plain (placeNow hall vf scr va right) := by
  cases scr with
  | some h => exact .pure _
  | none => exact locateNow_plain _ _ _ _

theorem readBuf_plain (hall vf : Nat) (b : Option Buffer) (off n : Nat) : Plain (readBuf hall vf b off n) := by
  unfold readBuf
  split
  · exact .trap _
  · exact (Plain.collect (fun _ => (placeNow_plain _ _ _ _ _).bind fun _ => readAt_plain _ _ _ _ _) _).bind fun _ => .pure _

theorem reloadSlot_plain (hall k slot : Nat) : Plain (reloadSlot hall k slot) := by
  have hread : ∀ vf b off, Plain (do let head ← readBuf hall vf b off 8; readBuf hall vf b off (pktHdr head).length) :=
    fun vf b off => (readBuf_plain _ _ _ _ _).bind fun _ => readBuf_plain _ _ _ _ _
  refine .read fun s => ?_
  dsimp only
  split
  · split
    · exact .pure ()
    · refine (Sure.attempt (hread _ _ _)).plain.bind fun x => ?_
      split
      · exact (modPlinth_sure _ _ _).plain
      · split
        · exact .trap _
        · exact (modPlinth_sure _ _ _).plain
  · exact .pure ()

/-- An error of a structure is carried out, but that of a vitrine slot: its reload may wait. -/
theorem structureError_sure {kind : Nat} (a b c : Nat) (h : kind ≠ 1) : Sure (structureError kind a b c) := by
  unfold structureError
  repeat' first | (with_reducible first | exact Sure.pure _ | refine Sure.read fun _ => ?_ | refine Sure.bind ?_ fun _ => ?_ | refine Sure.whenM ?_ _ | exact Sure.eff _ | exact absurd rfl h | exact spoilRow_sure _ _ _ | exact markDiscard_sure _ _ _ | exact dropFold_sure _ _ | exact modRegion_sure _ _ | exact modFold_sure _ _ _ | exact modWing_sure _ _ | exact settleGranules_sure | exact regionFault_sure _ _ _ _) | split | dsimp only [raiseSeq, modGallery]

theorem structureError_plain (kind a b c : Nat) : Plain (structureError kind a b c) := by
  by_cases h : kind = 1
  · subst h
    exact .read fun _ => reloadSlot_plain a b c
  · exact (structureError_sure a b c h).plain

theorem freeLine_sure (a : Nat) : Sure (freeLine a) := fresh_sure.bind fun _ => .each (fun _ => .eff _) _

theorem storeQuarantined_sure (line : Nat) : Sure (storeQuarantined line) := by
  refine .read fun s => (modPkg_sure _).bind fun _ => ?_
  split
  · exact (freeLine_sure _).bind fun _ => errorRecord_sure _ _ _ _ _ _ _ _ _ _ _
  · exact .pure ()

theorem flushWay_sure (hall tile way : Nat) : Sure (flushWay hall tile way) :=
  .read fun _ => (modHall_sure _ _).bind fun _ => .each (fun _ => storeQuarantined_sure _) _

theorem changeWays_sure (hall : Nat) (h : Hall) (moved : Nat × Nat → Nat × Nat) : Sure (changeWays hall h moved) :=
  .read fun _ => (Sure.whenM (.eff _) _).bind fun _ => .eff _

theorem balanceHall_sure (hall : Nat) : Sure (balanceHall hall) := by
  refine .read fun s => ?_
  split
  · exact modHall_sure _ _
  · exact .pure ()

theorem faultUsers_sure (p : Nat → Region → Bool) : Sure (faultUsers p) := .read fun _ => .each (fun _ => regionFault_sure _ _ _ _) _

theorem retireUnit_sure (kind hall index way : Nat) : Sure (retireUnit kind hall index way) :=
  .read fun _ => .ite (.pure ()) ((modPkg_sure _).bind fun _ => errorRecord_sure _ _ _ _ _ _ _ _ _ _ _)

theorem retireCell_sure (hall cell : Nat) : Sure (retireCell hall cell) := (faultUsers_sure _).bind fun _ => retireUnit_sure _ _ _ _

theorem retirePlinth_sure (hall k : Nat) : Sure (retirePlinth hall k) := .read fun _ => (faultUsers_sure _).bind fun _ => retireUnit_sure _ _ _ _

theorem retireConservator_sure (die : Nat) : Sure (retireConservator die) := by
  refine .read fun s => ?_
  split
  · exact .pure ()
  · exact (Sure.each (fun _ => cancelRepair_sure _ _) _).bind fun _ => .read fun _ => (Sure.eff _).bind fun _ => retireUnit_sure _ _ _ _

theorem retireWay_sure (hall tile way : Nat) : Sure (retireWay hall tile way) := by
  refine .read fun s => Sure.bind ?_ fun _ => (balanceHall_sure _).bind fun _ => retireUnit_sure _ _ _ _
  split
  · exact (flushWay_sure _ _ _).bind fun _ => .read fun _ => changeWays_sure _ _ _
  · exact (flushWay_sure _ _ _).bind fun _ => .read fun _ => changeWays_sure _ _ _
  · exact (faultUsers_sure _).bind fun _ => .read fun _ => changeWays_sure _ _ _

theorem lastingError_sure (t : SelfTest) : Sure (lastingError t) := by
  unfold lastingError
  repeat' first | (with_reducible first | refine Sure.read fun _ => ?_ | refine Sure.bind ?_ fun _ => ?_ | exact modHall_sure _ _ | exact modPkg_sure _ | exact retireUnit_sure _ _ _ _ | exact retireCell_sure _ _ | exact retirePlinth_sure _ _ | exact retireConservator_sure _ | exact retireWay_sure _ _ _) | split | dsimp only

theorem reportTest_sure (t : SelfTest) (lasting : Bool) : Sure (reportTest t lasting) := by
  refine fresh_sure.bind fun _ => .read fun _ => (errorRecord_sure _ _ _ _ _ _ _ _ _ _ _).bind fun _ => ?_
  split
  · exact faultRecord_sure _ _ _ _ _ _
  · exact .pure ()

/-! ### Walks -/

theorem walkFault_sure (vf : Nat) (q : Req) (e : XFault) : Sure (walkFault vf q e) := by
  unfold walkFault
  split
  · exact (dropReq_sure _).bind fun _ => .read fun _ => drainTrap_sure _ _ _ _ _
  · exact trapWalk_sure _ _ _

theorem walked_sure (vf page : Nat) (r : Except XFault Stage) (q : Req) : Sure (walked vf page r q) := by
  have hmiss : Sure (do let w ← joinWalk (ridHall q.rid) vf q.need; putReq { q with walk := w }) := (joinWalk_sure _ _ _).bind fun _ => putReq_sure _
  refine .read fun s => ?_
  cases r with
  | error e => exact .ite hmiss (walkFault_sure _ _ _)
  | ok st => exact .ite hmiss (.ite (walkFault_sure _ _ _) (.ite (putReq_sure _) (putReq_sure _)))

/-! ### Streams -/

theorem streamFault_sure (rid code off w8 w9 : Nat) : Sure (streamFault rid code off w8 w9) := regionFault_sure _ _ _ _

theorem modStream_sure (rid k : Nat) (g : Stream → Stream) : Sure (modStream rid k g) := modRegion_sure _ _

theorem findPage_plain (hall vf va : Nat) (right : Right) (walk : Option (Nat × Nat)) : Plain (findPage hall vf va right walk) := by
  unfold findPage
  repeat' first | (with_reducible first | exact Plain.pure _ | refine Plain.read fun _ => ?_ | refine Plain.bind ?_ fun _ => ?_ | exact locateNow_plain _ _ _ _ | exact (joinWalk_sure _ _ _).plain) | split

theorem elementAt_sure (rid k : Nat) (r : Region) (x : Stream) (right : Right) (len align o : Nat) {go : Nat → M Unit} (h : ∀ a, Sure (go a)) :
    Sure (elementAt rid k r x right len align o go) := by
  unfold elementAt
  repeat' first | (with_reducible first | refine Sure.read fun _ => ?_ | refine Sure.bind ?_ fun _ => ?_ | refine Sure.whenM ?_ _ | exact h _ | exact streamFault_sure _ _ _ _ _ | exact Sure.attempt (findPage_plain _ _ _ _ _) | exact countMiss_sure _ | exact modStream_sure _ _ _) | split | dsimp only

theorem passElement_sure (rid k : Nat) (push : Bool) : Sure (passElement rid k push) :=
  (modStream_sure _ _ _).bind fun _ => (modRegion_sure _ _).bind fun _ => stir_sure _

theorem passPart_sure (rid k : Nat) (bs : List Byte) : Sure (passPart rid k bs) := (modStream_sure _ _ _).bind fun _ => stir_sure _

theorem pushElement_sure (rid k : Nat) (x : Stream) (edges : List Edge) (a n : Nat) (t : Token) : Sure (pushElement rid k x edges a n t) :=
  (Sure.whenM ((Sure.each (fun _ => .eff _) _).bind fun _ => settleGranules_sure) _).bind fun _ => (Sure.each (sendEdge_sure t) _).bind fun _ => passElement_sure _ _ _

theorem readPart_sure (rid k : Nat) (r : Region) (x : Stream) (edges : List Edge) (o a : Nat) : Sure (readPart rid k r x edges o a) := by
  unfold readPart
  repeat' first | (with_reducible first | exact Sure.pure _ | refine Sure.read fun _ => ?_ | refine Sure.bind ?_ fun _ => ?_ | refine Sure.each (fun _ => ?_) _ | exact streamFault_sure _ _ _ _ _ | exact cacheRead_sure _ _ _ _ | exact passPart_sure _ _ _ | exact pushElement_sure _ _ _ _ _ _ _) | split | dsimp only

theorem streamRead_sure (rid k : Nat) (r : Region) (x : Stream) : Sure (streamRead rid k r x) :=
  .read fun _ => .ite (.pure ()) (elementAt_sure _ _ _ _ _ _ _ _ fun _ => readPart_sure _ _ _ _ _ _ _)

theorem poisonReport_sure (rid k : Nat) (r : Region) (x : Stream) (t : Token) : Sure (poisonReport rid k r x t) :=
  ((faultRecord_sure _ _ _ _ _ _).bind fun _ => modStream_sure _ _ _).whenM _

theorem writePart_sure (rid k : Nat) (r : Region) (x : Stream) (bs : List Byte) (o a : Nat) : Sure (writePart rid k r x bs o a) := by
  unfold writePart
  repeat' first | (with_reducible first | exact Sure.pure _ | refine Sure.read fun _ => ?_ | refine Sure.bind ?_ fun _ => ?_ | exact streamFault_sure _ _ _ _ _ | exact performWrite_sure _ _ _ _ _ | exact passPart_sure _ _ _ | exact passElement_sure _ _ _) | split | dsimp only

theorem streamWrite_sure (rid k : Nat) (r : Region) (x : Stream) (t : Token) : Sure (streamWrite rid k r x t) :=
  .ite (.pure ()) (.ite ((poisonReport_sure _ _ _ _ _).bind fun _ => passElement_sure _ _ _) (.ite (streamFault_sure _ _ _ _ _)
    (elementAt_sure _ _ _ _ _ _ _ _ fun _ => writePart_sure _ _ _ _ _ _ _)))

end Sys2Proof.Machine

/-! PROOFS. The steps of the memory system (R102 to R107, R110 to R116, R122, R130, R360, R382, R434 to R440, R444, R446). -/
namespace Sys2Proof.Machine
open Sys2Proof.Claims

variable {s t u : State} {m : M Unit}

/-! ### An event -/

/-- An event whose action reaches a state answers what the traps that it raised leave. -/
theorem event_delivers (h : Reaches m s () u) : ∃ t, runEvent m s = .next t ∧ Reaches deliverTraps u () t := by
  obtain ⟨t, ht⟩ := deliverTraps_sure.settles u
  exact ⟨t, Reaches.next (m := m >>= fun _ => deliverTraps) (h.bind ht) fun _ => pure (), ht⟩

/-- What holds of every state that the traps may leave, holds of the state that the event answers. -/
theorem event_leads {P : State → Prop} (h : ∃ u, Reaches m s () u ∧ ∀ t, Reaches deliverTraps u () t → P t) : ∃ t, runEvent m s = .next t ∧ P t := by
  obtain ⟨u, hu, hp⟩ := h
  obtain ⟨t, ht, hd⟩ := event_delivers hu
  exact ⟨t, ht, hp t hd⟩

/-- An event that reaches what an action reaches, settles as that action does. -/
theorem event_settles {k : M Unit} (hk : Sure k) (h : ∀ u, Reaches k s () u → Reaches m s () u) : ∃ t, runEvent m s = .next t ∧ settles k s t := by
  obtain ⟨u, hu⟩ := hk.settles s
  exact event_leads ⟨u, h u hu, fun t ht => ⟨u, hu, ht⟩⟩

/-- An event that raises no trap answers the state that it reaches. -/
theorem event_next (h : Reaches m s () u) (hq : trapWaiting u = none) : runEvent m s = .next u :=
  Reaches.next (m := m >>= fun _ => deliverTraps) (h.bind (deliverTraps_reaches hq)) fun _ => pure ()

/-- An event that traps has no effect. -/
theorem event_raises {e : TrapRec} (h : Raises m s e) : runEvent m s = .next s :=
  Raises.next (m := m >>= fun _ => deliverTraps) (k := fun _ => pure ()) h.first (Reaches.pure () s)

theorem Reaches.not_raises {e : TrapRec} (h : Reaches m s () u) : ¬ Raises m s e := fun hr => by
  obtain ⟨es, hok, -⟩ := h s [] rfl
  rw [hr s [] rfl] at hok
  cases hok

/-! ### Requests (R102, R111, R130, R438) -/

theorem memoryAccessComplete_next {number : Nat} {e : MemReply} {q : Req} (hin : s.input = .reply number e) (hf : s.reqs.find? (fun q => q.number == number) = some q)
    (hm : mayServe s q = true) (hg : q.phase ≠ .granule) : ∃ t, exec .memoryAccessComplete s = .next t ∧ settles (answerReq q e) s t := by
  show ∃ t, execMemoryAccessComplete s = .next t ∧ _
  rw [execMemoryAccessComplete, hin]
  refine event_settles (answerReq_sure q e) fun u hu => (Reaches.get s).bind ?_
  simp only [hf]
  rw [if_pos ⟨hm, hg⟩]
  exact hu

/-! ### Errors in structures (R434 to R440) -/

section
variable {kind a b c : Nat} {g : Guarded}

/-- An error starts the test of the place that holds it (R439). -/
theorem startTest_reaches (g : Guarded) (corrected : Bool) (vf : Option Nat) (s : State) :
    Reaches (startTest (errClass g.place corrected) g.place g.addr vf) s () (tested g corrected vf s) := (Reaches.get s).bind (Reaches.eff _ s)

theorem guardedError_corrected (hg : guardedAt s (kind % 16) a b c = some g) (hk : 16 ≤ kind) : Reaches (guardedError kind a b c) s () (tested g true none s) := by
  refine (Reaches.get s).bind ?_
  simp only [hg, hk, if_true]
  exact startTest_reaches g true none s

theorem guardedError_read (hg : guardedAt s 8 a b c = some g) (h : Reaches (readError g b) s () u) : Reaches (guardedError 8 a b c) s () u := by
  refine (Reaches.get s).bind ?_
  simp only [hg]
  exact h

theorem guardedError_reaches (hg : guardedAt s (kind % 16) a b c = some g) (hk : ¬ 16 ≤ kind) (h8 : kind ≠ 8)
    (h : Reaches (structureError kind a b c) (tested g false g.vf s) () u) : Reaches (guardedError kind a b c) s () u := by
  refine (Reaches.get s).bind ?_
  simp only [hg, hk, h8, if_false]
  exact (startTest_reaches g false g.vf s).bind h

theorem guardedError_raises {e : TrapRec} (hg : guardedAt s (kind % 16) a b c = some g) (hk : ¬ 16 ≤ kind) (h8 : kind ≠ 8)
    (h : Raises (structureError kind a b c) (tested g false g.vf s) e) : Raises (guardedError kind a b c) s e := by
  refine (Reaches.get s).raises ?_
  simp only [hg, hk, h8, if_false]
  exact (startTest_reaches g false g.vf s).raises h

/-- A vitrine slot without recorded parameters, or none at all, is not reloaded. -/
theorem reloadSlot_bare {hall k slot : Nat} (h : ∀ v, kget (plinthAt s hall k).slots slot = some v → v.ref = none) : Reaches (reloadSlot hall k slot) s () s := by
  refine (Reaches.get s).bind ?_
  dsimp only
  split
  next v r hv hr => rw [h v hv]; exact Reaches.pure () s
  · exact Reaches.pure () s

/-- The error of a structure is carried out where it is no vitrine slot's, or the slot has no recorded parameters. -/
theorem structureError_bare (h : kind ≠ 1 ∨ ∀ v, kget (plinthAt s a b).slots c = some v → v.ref = none) : ∃ u, Reaches (structureError kind a b c) s () u := by
  by_cases hk : kind = 1
  · subst hk
    exact ⟨s, (Reaches.get s).bind (reloadSlot_bare (h.resolve_left fun hne => hne rfl))⟩
  · exact (structureError_sure a b c hk).settles s

theorem structureError_next (hin : s.input = .quad kind a b c) (hg : guardedAt s (kind % 16) a b c = some g) (hk : ¬ 16 ≤ kind) (h8 : kind ≠ 8) :
    ∃ t, exec .memoryAccessComplete s = .next t ∧ unlessHeld (kind ≠ 1 ∨ ∀ v, kget (plinthAt s a b).slots c = some v → v.ref = none) s t
      (settles (structureError kind a b c) (tested g false g.vf s) t) := by
  have hexec : exec .memoryAccessComplete s = runEvent (guardedError kind a b c) s := by
    show execMemoryAccessComplete s = _
    rw [execMemoryAccessComplete, hin]
  rw [hexec]
  obtain ⟨⟨⟩, u, hu⟩ | ⟨e, he⟩ := structureError_plain kind a b c (tested g false g.vf s)
  · obtain ⟨t, ht, hd⟩ := event_delivers (guardedError_reaches hg hk h8 hu)
    exact ⟨t, ht, .inl ⟨u, hu, hd⟩⟩
  · refine ⟨s, event_raises (guardedError_raises hg hk h8 he), .inr ⟨fun hbare => ?_, rfl⟩⟩
    obtain ⟨u, hu⟩ := structureError_bare (s := tested g false g.vf s) hbare
    exact hu.not_raises he

theorem quad_next (hin : s.input = .quad kind a b c) (hq : trapWaiting s = none) (hg : guardedAt s (kind % 16) a b c = some g) :
    ∃ t, exec .memoryAccessComplete s = .next t ∧ if 16 ≤ kind then t = tested g true none s else if kind = 8 then settles (readError g b) s t
      else unlessHeld (kind ≠ 1 ∨ ∀ v, kget (plinthAt s a b).slots c = some v → v.ref = none) s t (settles (structureError kind a b c) (tested g false g.vf s) t) := by
  by_cases hk : 16 ≤ kind
  · simp only [hk, if_true]
    refine ⟨_, ?_, rfl⟩
    show execMemoryAccessComplete s = _
    rw [execMemoryAccessComplete, hin]
    exact event_next (guardedError_corrected hg hk) hq
  · by_cases h8 : kind = 8
    · subst h8
      show ∃ t, execMemoryAccessComplete s = .next t ∧ settles (readError g b) s t
      rw [execMemoryAccessComplete, hin]
      exact event_settles (readError_sure g b) fun u hu => guardedError_read hg hu
    · simp only [hk, h8, if_false]
      exact structureError_next hin hg hk h8

end

/-! ### Self-tests (R439, R440) -/

/-- A test that ends finds a lasting error: its last read failed, or the place has had three errors before within the time that counts. -/
def testLasts (s : State) (x : SelfTest) (failed : Bool) : Bool := failed || decide (3 ≤ (recentErrors s x).length)

/-- The package once the tests of a place have ended: they leave, and its count of errors goes on or ends. -/
def testsEnded (s : State) (x : SelfTest) (lasting : Bool) (p : Package) : Package :=
  { p with tests := p.tests.filter (fun y => y.place != x.place)
           errCounts := if lasting then kdel p.errCounts x.place else kset p.errCounts x.place (recentErrors s x ++ [s.timeNs]) }

/-- What the end of a test brings beside: what a lasting error brings, and the reports of the tests of its place. -/
def testResults (x : SelfTest) (lasting : Bool) (mine : List SelfTest) : M Unit := do
  whenM lasting (lastingError x)
  each mine (fun y => reportTest y lasting)

theorem testResults_sure (x : SelfTest) (lasting : Bool) (mine : List SelfTest) : Sure (testResults x lasting mine) :=
  ((lastingError_sure x).whenM _).bind fun _ => .each (fun _ => reportTest_sure _ _) _

theorem testResults_untested {x : SelfTest} {lasting : Bool} {mine : List SelfTest} : Untested (testResults x lasting mine) :=
  (lastingError_untested.whenM _).bind fun _ => .each (fun _ => reportTest_untested) _

theorem testsEnded_count (s : State) (x : SelfTest) (lasting : Bool) (p : Package) :
    kgetD (testsEnded s x lasting p).errCounts x.place [] = if lasting then [] else recentErrors s x ++ [s.timeNs] := by
  cases lasting with
  | true => simp only [testsEnded, if_true, kgetD, kget_kdel_self, Option.getD_none]
  | false => simp only [testsEnded, Bool.false_eq_true, if_false, kgetD, kget_kset_self, Option.getD_some]

theorem selfTestEnd_next {k : Nat} {failed : Bool} {x : SelfTest} (hin : s.input = .flagged k failed) (hx : s.pkg.tests[k]? = some x) :
    ∃ t, exec .selfTestEnd s = .next t ∧ errorTests t = errorTests (onPkg (testsEnded s x (testLasts s x failed)) s) := by
  obtain ⟨u, hu⟩ := (testResults_sure x (testLasts s x failed) (s.pkg.tests.filter (fun y => y.place == x.place))).settles
    (onPkg (testsEnded s x (testLasts s x failed)) s)
  show ∃ t, execSelfTestEnd s = .next t ∧ _
  rw [execSelfTestEnd, hin]
  refine event_leads ⟨u, (Reaches.get s).bind ?_, fun t hd => (hd.spared deliverTraps_untested).trans (hu.spared testResults_untested)⟩
  simp only [hx]
  exact Reaches.bind (a := ()) ((Reaches.get s).bind (Reaches.eff _ s)) hu

/-! ### Walks (R105, R106) -/

theorem tlbFills_reach (w : Walk) (st : Stage) (s : State) :
    Reaches (each w.joined (fun h => modHall h (fun x => tlbFill s.tick x w.vf (w.page * 65536) st))) s ()
      (w.joined.foldl (fun u h => onHall h (fun x => tlbFill u.tick x w.vf (w.page * 65536) st) u) s) :=
  Reaches.each_fold (fun u => u.tick = s.tick) w.joined s rfl fun u h _ hu => ⟨hu ▸ modHall_reaches h _ u, hu⟩

theorem translationWalkComplete_next {w : Walk} (hin : s.input = .index w.number) (hw : s.walks.find? (fun x => x.number == w.number && x.started) = some w) :
    ∃ t, exec .translationWalkComplete s = .next t ∧
      settles (each (s.reqs.filter (fun q => q.phase == .walking && q.walk == w.number)) (walked w.vf (w.page * 65536) (translate s w.vf (w.page * 65536)))) (walkOver w s) t := by
  obtain ⟨u, hu⟩ := (Sure.each (walked_sure w.vf (w.page * 65536) (translate s w.vf (w.page * 65536)))
    (s.reqs.filter (fun q => q.phase == .walking && q.walk == w.number))).settles (walkOver w s)
  show ∃ t, execTranslationWalkComplete s = .next t ∧ _
  rw [execTranslationWalkComplete, hin]
  refine event_leads ⟨u, (Reaches.get s).bind ?_, fun t hd => ⟨u, hu, hd⟩⟩
  simp only [hw]
  refine (Reaches.eff _ s).bind ?_
  refine Reaches.bind (a := ()) (t := walkOver w s) ?_ hu
  unfold walkOver
  cases translate s w.vf (w.page * 65536) with
  | error e => exact Reaches.pure () _
  | ok st =>
    cases w.stale with
    | true => exact Reaches.pure () _
    | false => exact tlbFills_reach w st _

/-! ### Ways that change use (R110, R120) -/

theorem wayChangeWalkEnd_next {hall tile way : Nat} {w : WayWalk} (hin : s.input = .triple hall tile way) (hr : hallRuns (hallAt s hall) = true)
    (hw : (hallAt s hall).walking.find? (fun w => w.tile == tile && w.way == way) = some w) :
    ∃ t, exec .wayChangeWalkEnd s = .next t ∧ ∃ u v, (if wayUse (hallAt s hall) tile way = 0 then Reaches (flushWay hall tile way) s () u else u = s) ∧
      Reaches (changeWays hall (setWay { leaveWay tile way (hallAt u hall) with
        reserved := match w.range with | some k => kset (leaveWay tile way (hallAt u hall)).reserved (16 * tile + way) k | none => (leaveWay tile way (hallAt u hall)).reserved } tile way w.use) id) u () v ∧
      settles (balanceHall hall) v t := by
  obtain ⟨u, hu⟩ : ∃ u, if wayUse (hallAt s hall) tile way = 0 then Reaches (flushWay hall tile way) s () u else u = s := by
    split
    · exact (flushWay_sure hall tile way).settles s
    · exact ⟨s, rfl⟩
  obtain ⟨v, hv⟩ := (changeWays_sure hall _ id).settles u
  obtain ⟨x, hx⟩ := (balanceHall_sure hall).settles v
  show ∃ t, execWayChangeWalkEnd s = .next t ∧ _
  rw [execWayChangeWalkEnd, hin]
  refine event_leads ⟨x, (Reaches.get s).bind ?_, fun t hd => ⟨u, v, hu, hv, x, hx, hd⟩⟩
  simp only [hw, hr, Bool.not_true, Bool.false_eq_true, if_false]
  refine Reaches.bind (a := ()) (t := u) ?_ ((Reaches.get u).bind (hv.bind hx))
  split at hu
  next h0 => simp only [h0, beq_self_eq_true, whenM_true]; exact hu
  next h0 => simp only [beq_eq_false_iff_ne.mpr h0, whenM_false]; exact hu ▸ Reaches.pure () s

/-! ### Slots that are zeroed, and barriers that lift (R114, R360) -/

theorem slotZeroingEnd_next {hall k slot : Nat} (hin : s.input = .triple hall k slot) (hq : trapWaiting s = none) (hr : hallRuns (hallAt s hall) = true)
    (hk : ((hallAt s hall).plinths[k]?).isSome = true) :
    exec .slotZeroingEnd s = .next (onHall hall (fun h => { h with plinths := h.plinths.set k { plinthAt s hall k with zeroing := (plinthAt s hall k).zeroing.filter (· != slot) } }) s) := by
  obtain ⟨p, hp⟩ := Option.isSome_iff_exists.mp hk
  show execSlotZeroingEnd s = _
  rw [execSlotZeroingEnd, hin]
  refine event_next ((Reaches.get s).bind ?_) hq
  simp only [hr, whenM_true]
  refine (modHall_reaches hall _ s).congr ?_
  simp only [onHall, plinthAt, hp, Option.getD_some]

theorem streamBarrierLift_next {rid : Nat} {r : Region} (hin : s.input = .index rid) (hq : trapWaiting s = none) (hr : regionIs s rid r) (hb : ∃ p ∈ r.streams, p.2.barred = true)
    (hall : ∀ p ∈ r.streams, p.2.barred = true ∨ p.2.running = false ∨ p.2.gallery.isSome = true) :
    exec .streamBarrierLift s = .next (onRegion rid (fun r => { r with streams := r.streams.map (fun p => (p.1, { p.2 with barred := false })) }) s) := by
  have hdrained : r.streams.any (fun p => p.2.barred) ∧ r.streams.all (fun p => p.2.barred || !p.2.running || p.2.gallery.isSome) :=
    ⟨List.any_eq_true.mpr hb, List.all_eq_true.mpr fun p hp => by simpa [or_assoc] using hall p hp⟩
  show execStreamBarrierLift s = _
  rw [execStreamBarrierLift, hin]
  refine event_next ((Reaches.get s).bind ?_) (onRegion_quiet rid (fun _ => rfl) (fun _ => rfl) (fun _ => rfl) (fun _ => rfl) hq)
  rw [regionIs] at hr
  simp only [hr]
  rw [if_pos hdrained]
  exact onRegion_reaches rid _ s

end Sys2Proof.Machine

/-! PROOFS. The steps of the memory system: back-invalidate snoops (R121 to R123). -/
namespace Sys2Proof.Machine
open Sys2Proof.Claims

variable {s t u : State}

theorem kget_kdel_of_ne {α : Type} (m : KMap α) {j k : Nat} (h : j ≠ k) : kget (kdel m k) j = kget m j := by
  induction m with
  | nil => rfl
  | cons p m ih =>
    obtain ⟨i, v⟩ := p
    by_cases hi : i = k
    · subst hi
      simpa [kdel, kget, h.symm] using ih
    · by_cases hj : i = j <;> simp_all [kdel, kget]

/-! ### Copies -/

/-- A hall after a snoop of a line: its copy, where it has one, has changed as the snoop asks. -/
def hallSnooped (a : Nat) (g : CacheLine → Option CacheLine) (x : Hall) : Hall :=
  match kget x.cache (cacheKey a) with
  | none => x
  | some c => { x with cache := match g c with | some c => kset x.cache (cacheKey a) c | none => kdel x.cache (cacheKey a) }

theorem hallSnooped_tlb (a : Nat) (g : CacheLine → Option CacheLine) (x : Hall) : (hallSnooped a g x).tlb = x.tlb := by
  unfold hallSnooped
  split <;> rfl

theorem hallSnooped_line (a : Nat) (g : CacheLine → Option CacheLine) (x : Hall) :
    kget (hallSnooped a g x).cache (cacheKey a) = (kget x.cache (cacheKey a)).bind g := by
  unfold hallSnooped
  split
  next h => rw [h]; rfl
  next c h =>
    rw [h, Option.bind_some]
    cases g c with
    | none => exact kget_kdel_self _ _
    | some d => exact kget_kset_self _ _ _

theorem hallSnooped_other (a : Nat) (g : CacheLine → Option CacheLine) (x : Hall) {k : Nat} (hk : k ≠ cacheKey a) :
    kget (hallSnooped a g x).cache k = kget x.cache k := by
  unfold hallSnooped
  split
  · rfl
  next c h =>
    cases g c with
    | none => exact kget_kdel_of_ne _ hk
    | some d => exact kget_kset_of_ne _ _ hk

/-- The state after a snoop has changed the copies of every hall. -/
def copiesSnooped (a : Nat) (g : CacheLine → Option CacheLine) (s : State) : State := { s with halls := s.halls.map (hallSnooped a g) }

/-- What a snoop does to one hall of `s`. -/
def snoopHall (s : State) (a : Nat) (g : CacheLine → Option CacheLine) (h : Nat) : M Unit :=
  match kget (hallAt s h).cache (cacheKey a) with
  | none => pure ()
  | some c => modHall h (fun x => { x with cache := match g c with | some c => kset x.cache (cacheKey a) c | none => kdel x.cache (cacheKey a) })

theorem snoopHall_reaches {a h : Nat} {g : CacheLine → Option CacheLine} (hh : hallAt u h = hallAt s h) :
    Reaches (snoopHall s a g h) u () (onHall h (hallSnooped a g) u) := by
  unfold snoopHall
  cases hc : kget (hallAt s h).cache (cacheKey a) with
  | none =>
    have hsame : hallSnooped a g (hallAt u h) = hallAt u h := by rw [hh, hallSnooped, hc]
    exact (Reaches.pure () u).congr (onHall_same u h hsame).symm
  | some c =>
    refine (modHall_reaches h _ u).congr ?_
    rw [onHall, onHall, hallSnooped, hh, hc]

/-- The halls one after another: those of `pre` have changed, and those of `post` come. -/
theorem snoopHalls_reach {a : Nat} {g : CacheLine → Option CacheLine} : ∀ (post pre : List Hall) (u : State), s.halls = pre ++ post →
    u.halls = pre.map (hallSnooped a g) ++ post →
    Reaches (each (List.range' pre.length post.length) (snoopHall s a g)) u () { u with halls := (pre ++ post).map (hallSnooped a g) }
  | [], pre, u, _, hu => (Reaches.pure () u).congr (by rw [List.append_nil, ← List.append_nil (pre.map _), ← hu])
  | x :: post, pre, u, hs, hu => by
    have hlen : (pre.map (hallSnooped a g)).length = pre.length := List.length_map _
    have hthere : hallAt u pre.length = x := by rw [hallAt, hu, List.getElem?_append_right (Nat.le_of_eq hlen), hlen, Nat.sub_self]; rfl
    have hfirst : hallAt s pre.length = x := by rw [hallAt, hs, List.getElem?_append_right le_rfl, Nat.sub_self]; rfl
    have hstep := snoopHall_reaches (a := a) (g := g) (hthere.trans hfirst.symm)
    have hnext : (onHall pre.length (hallSnooped a g) u).halls = (pre ++ [x]).map (hallSnooped a g) ++ post := by
      rw [onHall, hthere, hu, ← hlen, List.set_append_right _ _ le_rfl, Nat.sub_self]
      simp
    have hrest := snoopHalls_reach post (pre ++ [x]) _ (by simpa using hs) hnext
    rw [List.length_append, List.append_assoc] at hrest
    exact hstep.each_cons hrest

theorem snoopCopies_reaches (a : Nat) (g : CacheLine → Option CacheLine) (s : State) : Reaches (snoopCopies a g) s () (copiesSnooped a g s) := by
  refine (Reaches.get s).bind ?_
  have h := snoopHalls_reach (s := s) (a := a) (g := g) s.halls [] s rfl rfl
  rw [List.length_nil, ← List.range_eq_range'] at h
  exact h

/-! ### Fills -/

theorem copiesSnooped_hallTlb (a : Nat) (g : CacheLine → Option CacheLine) (s : State) (h : Nat) :
    (hallAt (copiesSnooped a g s) h).tlb = (hallAt s h).tlb := by
  simp only [hallAt, copiesSnooped, List.getElem?_map]
  cases s.halls[h]? with
  | none => rfl
  | some x => exact hallSnooped_tlb a g x

theorem pageLoc_copiesSnooped (a : Nat) (g : CacheLine → Option CacheLine) (s : State) (q : Req) (right : Right) (off : Nat) :
    pageLoc (copiesSnooped a g s) q right off = pageLoc s q right off := by
  unfold pageLoc tlbLookup
  simp only [copiesSnooped_hallTlb]
  rfl

theorem piecesFrom_copiesSnooped (a : Nat) (g : CacheLine → Option CacheLine) (s : State) (q : Req) (right : Right) :
    ∀ n off stop, piecesFrom (copiesSnooped a g s) q right n off stop = piecesFrom s q right n off stop
  | 0, _, _ => rfl
  | n + 1, _, _ => by simp only [piecesFrom, pageLoc_copiesSnooped, piecesFrom_copiesSnooped a g s q right n]

/-- The copies of lines do not say which bytes a request touches next. -/
theorem nextPieces_copiesSnooped (a : Nat) (g : CacheLine → Option CacheLine) (s : State) (q : Req) : nextPieces (copiesSnooped a g s) q = nextPieces s q := by
  simp only [nextPieces, pieces, piecesFrom_copiesSnooped]

/-- The state after a snoop of a line: every copy has changed, and what the outstanding fills of the line bring is not cached (R122, R123). -/
def lineSnooped (a : Nat) (g : CacheLine → Option CacheLine) (s : State) : State :=
  { copiesSnooped a g s with
    reqs := s.reqs.map (fun q => if (nextPieces s q).any (fun p => (linesOf p.1 p.2.2).contains (lineOf a)) then { q with snooped := true } else q) }

theorem snoop_reaches (a : Nat) (g : CacheLine → Option CacheLine) (s : State) : Reaches (snoop a g) s () (lineSnooped a g s) := by
  refine (snoopCopies_reaches a g s).bind ((Reaches.get _).bind ((Reaches.eff _ _).congr ?_))
  simp only [nextPieces_copiesSnooped]
  rfl

theorem snoopedTo_of_lineSnooped {a : Nat} {g : CacheLine → Option CacheLine} (hr : t.reqs = (lineSnooped a g s).reqs) (hh : t.halls = (lineSnooped a g s).halls) :
    snoopedTo g a s t := by
  refine ⟨hr, fun h x hx => ⟨hallSnooped a g x, ?_, fun k hk => hallSnooped_other a g x hk, hallSnooped_line a g x⟩⟩
  rw [hh]
  simp only [lineSnooped, copiesSnooped, List.getElem?_map, hx, Option.map_some]

/-! ### The bytes that another host wrote -/

/-- Memory with bytes written from an address on. -/
def bytesPut : Memory → Nat → List Byte → Memory
  | m, _, [] => m
  | m, a, b :: bs => bytesPut (writeByte m a b) (a + 1) bs

theorem putBytes_reaches : ∀ (bs : List Byte) (a : Nat) (s : State), Reaches (putBytes a bs) s () { s with mem := bytesPut s.mem a bs }
  | [], _, s => Reaches.pure () s
  | _ :: bs, a, s => (Reaches.eff _ s).bind (putBytes_reaches bs (a + 1) _)

theorem readByte_bytesPut : ∀ (bs : List Byte) {m : Memory} (a b : Nat), Memory.wf m = true →
    readByte (bytesPut m a bs) b = if a ≤ b ∧ b < a + bs.length then (bs[b - a]?).getD 0 else readByte m b
  | [], m, a, b, _ => by rw [bytesPut, if_neg (by simp only [List.length_nil]; omega)]
  | v :: bs, m, a, b, hm => by
    rw [bytesPut, readByte_bytesPut bs (a + 1) b (writeByte_wf a v hm), List.length_cons]
    by_cases hb : b = a
    · subst hb
      rw [if_neg (by omega), if_pos (by omega), readByte_writeByte_self _ v hm, Nat.sub_self]
      rfl
    · rw [readByte_writeByte_of_ne _ _ hb]
      by_cases hin : a + 1 ≤ b ∧ b < a + 1 + bs.length
      · rw [if_pos hin, if_pos (by omega), show b - a = b - (a + 1) + 1 by omega]
        rfl
      · rw [if_neg hin, if_neg (by omega)]

/-- What the markers of lines and the versions of handles do not show in. -/
def unversioned (s : State) : Memory × List Hall × List Req × KMap Region := (s.mem, s.halls, s.reqs, s.regions)

theorem raiseVersions_keeps (l : List Nat) : Keeps unversioned (raiseVersions l) :=
  .get fun _ => .each _ fun _ _ => .whenM (.eff fun _ => rfl) _

/-! ### The events -/

/-- A snoop of a line that it may take changes no memory. -/
theorem bisnp_next {a : Nat} {g : CacheLine → Option CacheLine} (hq : trapWaiting s = none) (hs : snooped s a = true) :
    ∃ t, runEvent (do let s ← get'; whenM (snooped s a) (snoop a g)) s = .next t ∧ snoopedTo g a s t ∧ t.mem = s.mem := by
  refine ⟨lineSnooped a g s, event_next ((Reaches.get s).bind ?_) hq, snoopedTo_of_lineSnooped rfl rfl, rfl⟩
  simp only [hs, whenM_true]
  exact snoop_reaches a g s

theorem bisnpinv_written {a : Nat} {bs : List Byte} (hin : s.input = .cxl a (some bs)) (hq : trapWaiting s = none) (hs : snooped s a = true) (hlen : bs.length = 64)
    (hwf : Memory.wf s.mem = true) : ∃ t, exec .bisnpinv s = .next t ∧ snoopedTo (fun _ => none) a s t ∧
      ∀ b, readByte t.mem b = if lineOf a ≤ b ∧ b < lineOf a + 64 then (bs[b - lineOf a]?).getD 0 else readByte s.mem b := by
  let u := lineSnooped a (fun _ => none) s
  have hmarks : Keeps unversioned (do
      whenM (decide (64 ≤ bs.length)) (eff (.mark (lineOf a) false))
      each (granulesOf (lineOf a) (min 64 bs.length)) (fun g => raiseVersions [16 * g])) :=
    (Keeps.whenM (.eff fun _ => rfl) _).bind (.each _ fun g _ => raiseVersions_keeps _)
  obtain ⟨t, ht, hkept⟩ := hmarks { u with mem := bytesPut u.mem (lineOf a) (bs.take 64) }
  have hmem : t.mem = bytesPut s.mem (lineOf a) bs := by
    rw [← List.take_of_length_le hlen.le]
    exact congrArg (·.1) hkept
  have hregions : t.regions = s.regions := congrArg (·.2.2.2) hkept
  refine ⟨t, ?_, snoopedTo_of_lineSnooped (congrArg (·.2.2.1) hkept) (congrArg (·.2.1) hkept), fun b => ?_⟩
  · show execBisnpinv s = _
    rw [execBisnpinv, hin]
    refine event_next ((Reaches.get s).bind ?_) (by unfold trapWaiting; rw [hregions]; exact hq)
    simp only [hs, whenM_true]
    exact (snoop_reaches a _ s).bind ((putBytes_reaches _ _ _).bind ht)
  · rw [hmem, readByte_bytesPut bs (lineOf a) b hwf, hlen]

end Sys2Proof.Machine

/-! PROOFS. The steps of the memory system: streams (R112 to R116, R240, R382). -/
namespace Sys2Proof.Machine
open Sys2Proof.Claims

variable {s t u : State} {r : Region} {x : Stream} {rid k : Nat}

theorem onRegion_onRegion (rid : Nat) (f g : Region → Region) (s : State) : onRegion rid g (onRegion rid f s) = onRegion rid (fun r => g (f r)) s := by
  cases hr : kget s.regions rid with
  | none => simp only [onRegion, hr]
  | some r => simp only [onRegion, hr, kget_kset_self, kset_kset]

/-! ### The control network -/

theorem takeControl_control (r : Region) (w : BitVec 32) : (takeControl r w).control = r.control ++ [w] := by
  unfold takeControl
  dsimp only
  repeat' split
  all_goals rfl

/-- A control word raises no trap and stops no region. -/
theorem takeControl_raisesNothing (r : Region) (w : BitVec 32) :
    (takeControl r w).trap = r.trap ∧ (takeControl r w).traps = r.traps ∧ (takeControl r w).state = r.state ∧ (takeControl r w).saved = r.saved := by
  unfold takeControl
  dsimp only
  repeat' split
  all_goals exact ⟨rfl, rfl, rfl, rfl⟩

/-- A change of a region that raises no trap and stops no region. -/
theorem onRegion_raisesNothing (rid : Nat) {g : Region → Region} (h : ∀ r, (g r).trap = r.trap ∧ (g r).traps = r.traps ∧ (g r).state = r.state ∧ (g r).saved = r.saved)
    (hq : trapWaiting s = none) : trapWaiting (onRegion rid g s) = none :=
  onRegion_quiet rid (fun r => (h r).1) (fun r => (h r).2.1) (fun r => (h r).2.2.1) (fun r => (h r).2.2.2) hq

theorem controlSent_reaches (rid : Nat) (g : Region → BitVec 32) (s : State) :
    Reaches (do modRegion rid (fun r => takeControl r (g r)); stir rid) s () (stirred rid (onRegion rid (fun r => takeControl r (g r)) s)) :=
  (onRegion_reaches rid _ s).bind (stir_reaches rid _)

theorem controlSent_quiet (rid : Nat) (g : Region → BitVec 32) (hq : trapWaiting s = none) :
    trapWaiting (stirred rid (onRegion rid (fun r => takeControl r (g r)) s)) = none :=
  (stirred_kin rid _).2 (onRegion_raisesNothing rid (fun r => takeControl_raisesNothing r (g r)) hq)

theorem streamDrained_next (hin : s.input = .pair rid k) (hq : trapWaiting s = none) (hr : regionIs s rid r) (hx : kget r.streams k = some x) (hrun : x.running = true)
    (hend : streamTotal x.desc ≤ x.next) :
    exec .streamDrained s = .next (stirred rid (onRegion rid (fun r => takeControl r (streamWord 2 r x.desc)) s)) := by
  rw [regionIs] at hr
  show execStreamDrained s = _
  rw [execStreamDrained, hin]
  refine event_next ((Reaches.get s).bind ?_) (controlSent_quiet rid (fun r => streamWord 2 r x.desc) hq)
  simp only [hr, hx, hrun, hend, decide_true, Bool.and_self, whenM_true]
  exact controlSent_reaches rid (fun r => streamWord 2 r x.desc) s

/-! ### An element that passes -/

theorem elementPassed_raisesNothing (k : Nat) (push : Bool) (r : Region) : (elementPassed k push r).trap = r.trap ∧ (elementPassed k push r).traps = r.traps ∧
    (elementPassed k push r).state = r.state ∧ (elementPassed k push r).saved = r.saved := by
  unfold elementPassed
  split
  · dsimp only
    split
    · exact takeControl_raisesNothing _ _
    · exact ⟨rfl, rfl, rfl, rfl⟩
  · exact ⟨rfl, rfl, rfl, rfl⟩

theorem passElement_reaches (rid k : Nat) (push : Bool) (s : State) : Reaches (passElement rid k push) s () (stirred rid (onRegion rid (elementPassed k push) s)) := by
  refine (onRegion_reaches rid _ s).bind (((onRegion_reaches rid _ _).congr ?_).bind (stir_reaches rid _))
  rw [onRegion_onRegion]
  congr 1
  funext r
  unfold elementPassed
  cases hx : kget r.streams k with
  | none => simp only [hx]
  | some x => simp only [kget_kset_self]

/-- A token sent along edges. -/
theorem sendEdges_reach (t : Token) (l : List Edge) (s : State) : Reaches (each l (sendEdge t)) s () (l.foldl (sentOn t) s) :=
  Reaches.each_fold (fun _ => True) l s trivial fun u e _ _ => ⟨sendEdge_reaches t e u, trivial⟩

/-- An element of a stream without a full/empty mode enters its circuit. -/
theorem pushElement_reaches (hfe : x.desc.fe = 0) (rid k : Nat) (edges : List Edge) (a n : Nat) (t : Token) (s : State) :
    Reaches (pushElement rid k x edges a n t) s () (stirred rid (onRegion rid (elementPassed k true) (edges.foldl (sentOn t) s))) := by
  refine Reaches.bind (a := ()) (t := s) ?_ ((sendEdges_reach t edges s).bind (passElement_reaches rid k true _))
  rw [hfe]
  exact Reaches.pure () s

/-! ### A scalar read of scratch -/

theorem answers_scratch {a : Nat} (ha : isScratch a = true) : answers s a = none := by
  rw [isScratch, decide_eq_true_eq] at ha
  have hmt : rangeMt a = none := by rw [rangeMt, if_neg (by omega), if_neg (by omega), if_neg (by omega)]
  rw [answers, hmt]

theorem unreadable_scratch {a n : Nat} (ha : isScratch a = true) (hp : poisoned s a n = false) : unreadable s [(a, 0, n)] = none := by
  simp only [unreadable, silentPiece, markedPiece, List.filterMap_cons, List.filterMap_nil, answers_scratch ha, List.head?_nil, List.any_cons, List.any_nil, hp, Bool.or_false,
    Bool.false_eq_true, if_false]

theorem readReady_scalar {hall a n : Nat} (hfe : x.desc.fe = 0) (hpin : ∀ l ∈ linesOf a n, pinnedByOther s l none = false) (hrow : rowBusy s hall a = false) :
    readReady s hall x a n = true := by
  have hany : (linesOf a n).any (fun l => pinnedByOther s l none) = false := by simpa using hpin
  simp only [readReady, feActs, hany, hrow, hfe, bne_self_eq_false, Bool.false_and, Bool.not_false, Bool.true_or, Bool.and_self]

/-- Scratch bytes are in no cache. -/
theorem scratchReads_reach {hall vf va a n : Nat} (ha : isScratch a = true) (s : State) :
    Reaches (each (linesOf a n) (fun l => if isScratch l then pure () else cacheRead hall vf (va + l - a) l)) s () s := by
  suffices h : ∀ l : List Nat, (∀ y ∈ l, isScratch y = true) → Reaches (each l (fun y => if isScratch y then pure () else cacheRead hall vf (va + y - a) y)) s () s from
    h _ fun y hy => isScratch_of_mem_linesOf ha hy
  intro l hl
  induction l with
  | nil => exact Reaches.each_nil _ s
  | cons y l ih =>
    refine Reaches.each_cons (t := s) ?_ (ih fun z hz => hl z (List.mem_cons_of_mem _ hz))
    rw [if_pos (hl y List.mem_cons_self)]
    exact Reaches.pure () s

/-- The token of a scalar element read at a location. -/
def scalarToken (s : State) (x : Stream) (a : Nat) : Token :=
  { value := extend x.desc.fmt (BitVec.ofNat 32 (leNat (readBytes s.mem a (tyBytes x.desc.fmt)))), tag := x.pushed % 4096 }

theorem readPart_scalar {a : Nat} (hfmt : x.desc.fmt ≠ .tile) (hfe : x.desc.fe = 0) (hdone : x.done = []) (ha : isScratch a = true)
    (hpin : ∀ l ∈ linesOf a (tyBytes x.desc.fmt), pinnedByOther s l none = false) (hrow : rowBusy s r.hall a = false) (hp : poisoned s a (tyBytes x.desc.fmt) = false)
    (edges : List Edge) :
    Reaches (readPart rid k r x edges 0 a) s () (stirred rid (onRegion rid (elementPassed k true) (edges.foldl (sentOn (scalarToken s x a)) s))) := by
  have hready := readReady_scalar hfe hpin hrow
  have hreadable := unreadable_scratch ha hp
  have hsize : ∀ head, elementSize s r x head = tyBytes x.desc.fmt := fun head => by rw [elementSize, if_pos hfmt]
  have hlen : ¬ (readBytes s.mem a (tyBytes x.desc.fmt)).length < tyBytes x.desc.fmt := by simp [readBytes]
  refine (Reaches.get s).bind ?_
  simp only [hfmt, if_false, if_true, hready, Bool.not_true, Bool.false_eq_true, hreadable, hsize, ne_eq, not_false_eq_true, true_or, false_and, hdone, List.nil_append]
  refine (scratchReads_reach ha s).bind ?_
  simp only [hlen, if_false, loadToken, hfmt]
  exact pushElement_reaches hfe rid k edges a _ _ s

theorem streamRead_scalar {a : Nat} (h : scalarAt s r x .read a) (hp : poisoned s a (tyBytes x.desc.fmt) = false)
    (hfree : (circuitEdges s rid r 0 (38 + k) (x.pushed % 4096)).all (edgeFree s 1) = true) :
    Reaches (streamRead rid k r x) s ()
      (stirred rid (onRegion rid (elementPassed k true) ((circuitEdges s rid r 0 (38 + k) (x.pushed % 4096)).foldl (sentOn (scalarToken s x a)) s))) := by
  obtain ⟨hfmt, hfe, hdone, hoff, h, va, hcheck, rfl, ha, hpin, hrow⟩ := h
  refine (Reaches.get s).bind ?_
  simp only [hfree, Bool.not_true, Bool.false_eq_true, if_false, hfmt]
  refine (Reaches.get s).bind ?_
  simp only [if_neg (not_lt.mpr hoff), hcheck, hdone, List.length_nil, Nat.add_zero]
  exact readPart_scalar hfmt hfe hdone ha hpin hrow hp _

/-! ### The element of a write stream -/

theorem takeHead_reaches (key : Nat) (s : State) : Reaches (takeHead key) s () (headTaken key s) := by
  refine (Reaches.get s).bind ?_
  unfold headTaken
  cases kget s.chans key with
  | none => exact Reaches.pure () s
  | some c => exact Reaches.eff _ s

theorem headTaken_kin (key : Nat) (s : State) : Kin s (headTaken key s) := by
  unfold headTaken
  split
  · exact Kin.of_regions rfl
  · exact Kin.refl s

theorem takeElement_reaches {key : Nat} {c : Chan} {y : Token} (hc : kget s.chans key = some c) {rid k : Nat} (hsrc : c.src = rid) (hplace : c.place = .stream k) (hy : c.queue.head? = some y) :
    Reaches (takeElement rid k key) s () (stirred rid (onRegion rid (elementTaken k y) (headTaken key s))) := by
  obtain ⟨src, hall, ctx, wing, place, depth, outside, queue, flight, freed, unacked, lost⟩ := c
  obtain ⟨rest, rfl⟩ : ∃ rest, queue = y :: rest := List.head?_eq_some_iff.mp hy
  cases hsrc
  cases hplace
  refine (Reaches.get s).bind ?_
  simp only [hc, beq_self_eq_true, Bool.and_self, whenM_true]
  exact (takeHead_reaches key s).bind ((onRegion_reaches _ _ _).bind (stir_reaches _ _))

theorem elementTaken_raisesNothing (k : Nat) (y : Token) (r : Region) : (elementTaken k y r).trap = r.trap ∧ (elementTaken k y r).traps = r.traps ∧
    (elementTaken k y r).state = r.state ∧ (elementTaken k y r).saved = r.saved := by
  unfold elementTaken
  split
  · exact ⟨rfl, rfl, rfl, rfl⟩
  · exact ⟨rfl, rfl, rfl, rfl⟩

/-! ### The event -/

/-- The access of a stream that goes on. -/
def streamGoesOn (rid k key : Nat) (r : Region) (x : Stream) : M Unit :=
  if x.desc.write then (match x.held with | some y => streamWrite rid k r x y | none => takeElement rid k key) else streamRead rid k r x

/-- STREAM_ACCESS of a stream that goes on comes to its access. -/
theorem streamAccess_goesOn {rid k key : Nat} (hin : s.input = .triple rid k key) (h : streamIn s rid k r x) (hu : Reaches (streamGoesOn rid k key r x) s () u) :
    ∃ m, exec .streamAccess s = runEvent m s ∧ Reaches m s () u := by
  obtain ⟨hr, hx, hruns, hrunning, hbarred, hnext, hgallery⟩ := h
  rw [regionIs] at hr
  refine ⟨_, (by show execStreamAccess s = _; rw [execStreamAccess, hin]), (Reaches.get s).bind ?_⟩
  unfold withRegion
  refine (Reaches.get s).bind ?_
  unfold streamGoesOn at hu
  simp only [hr, hx, hruns, streamGoes, hrunning, hnext, hgallery, hbarred, decide_true, Option.isSome_none, Bool.and_self, Bool.not_true, Bool.or_self, Bool.false_eq_true, if_false]
  cases hw : x.desc.write with
  | true =>
    simp only [hw, if_true] at hu
    simp only [Bool.not_true, Bool.false_eq_true, if_false]
    exact hu
  | false => simpa only [hw, if_true, Bool.not_false, Bool.false_eq_true, if_false] using hu

/-- A read stream's access: a scalar element of scratch that may be read enters its circuit. -/
theorem streamAccess_reads {rid k key : Nat} (hin : s.input = .triple rid k key) (hq : trapWaiting s = none) (h : streamIn s rid k r x) (hw : x.desc.write = false) :
    ∃ t, exec .streamAccess s = .next t ∧ settles (streamRead rid k r x) s t ∧ ∀ a, scalarAt s r x .read a → poisoned s a (tyBytes x.desc.fmt) = false →
      (circuitEdges s rid r 0 (38 + k) (x.pushed % 4096)).all (edgeFree s 1) = true →
      t = stirred rid (onRegion rid (elementPassed k true) ((circuitEdges s rid r 0 (38 + k) (x.pushed % 4096)).foldl (sentOn (scalarToken s x a)) s)) := by
  have hgoes : ∀ u, Reaches (streamRead rid k r x) s () u → Reaches (streamGoesOn rid k key r x) s () u := fun u hu => by
    rw [streamGoesOn, if_neg (by rw [hw]; exact Bool.false_ne_true)]
    exact hu
  obtain ⟨u, hu⟩ := (streamRead_sure rid k r x).settles s
  obtain ⟨m, hexec, hm⟩ := streamAccess_goesOn hin h (hgoes u hu)
  rw [hexec]
  refine event_leads ⟨u, hm, fun t hd => ⟨⟨u, hu, hd⟩, fun a ha hp hfree => ?_⟩⟩
  have hscalar := streamRead_scalar (rid := rid) (k := k) ha hp hfree
  have hquiet := (stirred_kin rid _).2 (onRegion_raisesNothing rid (elementPassed_raisesNothing k true)
    ((foldl_kin _ (sentOn_kin (scalarToken s x a)) (circuitEdges s rid r 0 (38 + k) (x.pushed % 4096)) s).2 hq))
  rw [← hu.leaves, hscalar.leaves] at hd
  rw [← hd.leaves, (deliverTraps_reaches hquiet).leaves]

/-- A write stream's access of the token that it holds. -/
theorem streamAccess_writes {rid k key : Nat} {y : Token} (hin : s.input = .triple rid k key) (h : streamIn s rid k r x) (hw : x.desc.write = true) (hy : x.held = some y) :
    ∃ t, exec .streamAccess s = .next t ∧ settles (streamWrite rid k r x y) s t := by
  obtain ⟨u, hu⟩ := (streamWrite_sure rid k r x y).settles s
  have hgoes : Reaches (streamGoesOn rid k key r x) s () u := by
    rw [streamGoesOn, if_pos hw, hy]
    exact hu
  obtain ⟨m, hexec, hm⟩ := streamAccess_goesOn hin h hgoes
  rw [hexec]
  exact event_leads ⟨u, hm, fun t hd => ⟨u, hu, hd⟩⟩

/-- A write stream that holds no token takes the next one of its circuit. -/
theorem streamAccess_takes {rid k key : Nat} {c : Chan} {y : Token} (hin : s.input = .triple rid k key) (hq : trapWaiting s = none) (h : streamIn s rid k r x)
    (hw : x.desc.write = true) (hheld : x.held = none) (hc : kget s.chans key = some c) (hsrc : c.src = rid) (hplace : c.place = .stream k) (hy : c.queue.head? = some y) :
    exec .streamAccess s = .next (stirred rid (onRegion rid (elementTaken k y) (headTaken key s))) := by
  have hgoes : Reaches (streamGoesOn rid k key r x) s () (stirred rid (onRegion rid (elementTaken k y) (headTaken key s))) := by
    rw [streamGoesOn, if_pos hw, hheld]
    exact takeElement_reaches hc hsrc hplace hy
  obtain ⟨m, hexec, hm⟩ := streamAccess_goesOn hin h hgoes
  rw [hexec]
  exact event_next hm ((stirred_kin rid _).2 (onRegion_raisesNothing rid (elementTaken_raisesNothing k y) ((headTaken_kin key s).2 hq)))

/-- STREAM_ACCESS of a stream that goes on: a read, a write of the token that it holds, or the taking of one (R112, R382). -/
theorem streamAccess_next {rid k key : Nat} (hin : s.input = .triple rid k key) (hq : trapWaiting s = none) (h : streamIn s rid k r x)
    (hchan : x.desc.write = true → x.held = none → ∃ c y, kget s.chans key = some c ∧ c.src = rid ∧ c.place = .stream k ∧ c.queue.head? = some y)
    {e : EventEffects} (he : memoryEvent .streamAccess (.triple rid k key) = some e) : ∃ t, exec .streamAccess s = .next t ∧ e.leads s t := by
  have hone : ∀ {r' x'}, streamIn s rid k r' x' → r' = r ∧ x' = x := fun {r' x'} h' => by
    have hr : r' = r := Option.some.inj (h'.1.symm.trans h.1)
    subst hr
    exact ⟨rfl, Option.some.inj (h'.2.1.symm.trans h.2.1)⟩
  cases he
  cases hw : x.desc.write with
  | false =>
    obtain ⟨t, ht, hreads⟩ := streamAccess_reads hin hq h hw
    refine ⟨t, ht, fun r' x' h' => ?_⟩
    obtain ⟨rfl, rfl⟩ := hone h'
    rw [if_neg (by rw [hw]; exact Bool.false_ne_true)]
    exact hreads
  | true =>
    cases hheld : x.held with
    | some y =>
      obtain ⟨t, ht, hwrites⟩ := streamAccess_writes hin h hw hheld
      refine ⟨t, ht, fun r' x' h' => ?_⟩
      obtain ⟨rfl, rfl⟩ := hone h'
      rw [if_pos hw, hheld]
      exact hwrites
    | none =>
      obtain ⟨c, y, hc, hsrc, hplace, hy⟩ := hchan hw hheld
      refine ⟨_, streamAccess_takes hin hq h hw hheld hc hsrc hplace hy, fun r' x' h' => ?_⟩
      obtain ⟨rfl, rfl⟩ := hone h'
      rw [if_pos hw, hheld]
      intro c' y' hc' hy'
      cases hc.symm.trans hc'
      cases hy.symm.trans hy'
      rfl

/-! ### Every event of the table -/

/-- What holds of the one value that there is holds of every value that there is. -/
theorem forall_of_some {α : Type} {o : Option α} {P : α → Prop} {a : α} (h : o = some a) (hp : P a) : ∀ b, o = some b → P b := fun _ hb =>
  Option.some.inj (h.symm.trans hb) ▸ hp

/-- Settles O49: event by event, `memoryAccessComplete_next` to `slotZeroingEnd_next`. -/
theorem memoryEventsComplete : Obligations.MemoryEventsComplete := by
  intro i e s he hq hn
  generalize hin : s.input = input at he
  unfold memoryEvent at he
  split at he <;> cases he
  case h_1 number e' =>
    obtain ⟨q, hf, hm, hg⟩ := hn
    obtain ⟨t, ht, hs⟩ := memoryAccessComplete_next hin hf hm hg
    exact ⟨t, ht, forall_of_some hf hs⟩
  case h_2 kind a b c =>
    obtain ⟨g, hg⟩ := Option.isSome_iff_exists.mp hn
    obtain ⟨t, ht, hs⟩ := quad_next hin hq hg
    exact ⟨t, ht, forall_of_some hg hs⟩
  case h_3 k failed =>
    obtain ⟨x, hx⟩ := Option.isSome_iff_exists.mp hn
    obtain ⟨t, ht, hs⟩ := selfTestEnd_next hin hx
    exact ⟨t, ht, forall_of_some hx ⟨congrArg (·.1) hs, (congrArg (fun p => kgetD p.2 x.place []) hs).trans (testsEnded_count s x _ s.pkg)⟩⟩
  case h_4 number =>
    obtain ⟨w, hw⟩ := Option.isSome_iff_exists.mp hn
    obtain ⟨rfl, -⟩ : w.number = number ∧ w.started = true := by simpa using List.find?_some hw
    obtain ⟨t, ht, hs⟩ := translationWalkComplete_next hin hw
    exact ⟨t, ht, forall_of_some hw hs⟩
  case h_5 hall tile way =>
    obtain ⟨hr, hsome⟩ := hn
    obtain ⟨w, hw⟩ := Option.isSome_iff_exists.mp hsome
    obtain ⟨t, ht, hs⟩ := wayChangeWalkEnd_next hin hr hw
    exact ⟨t, ht, forall_of_some hw hs⟩
  case h_6 a =>
    show ∃ t, execBisnpinv s = .next t ∧ _
    rw [execBisnpinv, hin]
    exact bisnp_next hq hn
  case h_7 a bs =>
    obtain ⟨hs, hlen, hwf⟩ := hn
    exact bisnpinv_written hin hq hs hlen hwf
  case h_8 a =>
    show ∃ t, execBisnpdata s = .next t ∧ _
    rw [execBisnpdata, hin]
    exact bisnp_next hq hn
  case h_9 a =>
    show ∃ t, execBisnpcur s = .next t ∧ _
    rw [execBisnpcur, hin]
    exact bisnp_next hq hn
  case h_10 rid k key =>
    obtain ⟨r, x, hx, hchan⟩ := hn
    exact streamAccess_next hin hq hx hchan rfl
  case h_11 rid =>
    obtain ⟨r, hr, hb, hall⟩ := hn
    exact ⟨_, streamBarrierLift_next hin hq hr hb hall, rfl⟩
  case h_12 rid k =>
    obtain ⟨r, x, hr, hx, hrun, hend⟩ := hn
    refine ⟨_, streamDrained_next hin hq hr hx hrun hend, fun r' x' hr' hx' => ?_⟩
    cases (hr.symm.trans hr' : some r = some r')
    cases hx.symm.trans hx'
    exact ⟨rfl, takeControl_control _ _⟩
  case h_13 hall k slot =>
    obtain ⟨hr, hk⟩ := hn
    exact ⟨_, slotZeroingEnd_next hin hq hr hk, rfl⟩

end Sys2Proof.Machine

/-! PROOFS. The scalar nodes that compute: the integer nodes whose exact result may leave its type, and the floating and special nodes
(R147, R257, R260, R263, R267, R271 to R275). -/
namespace Sys2Proof.Machine
open Sys2Proof.Claims

variable {s : State} {r : Region} {f : NodeRec} {x : Issue} {i : Instr}

/-! ### Exact results (R147, R267) -/

/-- IOV alone stands where the result is in its type, or where nothing is to be made of it (R396). -/
theorem fate_iov {en : BitVec 64} {t : Ty} {z : Int} (h : (intMin t ≤ z ∧ z ≤ intMax t) ∨ disposition en 2 = 0) :
    fate en { iov := !inRange t z } = .stands := by
  rcases h with ⟨hlo, hhi⟩ | hd
  · simp [fate, Conds.codes, inRange, hlo, hhi]
  · cases hz : inRange t z <;> simp [fate, Conds.codes, hd]

/-- An integer shifted beyond its type wraps to 0. -/
theorem wraps_shifted {t : Ty} (ht : isInt t = true) (a : Int) {m : Nat} (hm : 32 ≤ m) : wraps t (a * 2 ^ m) = wraps t 0 := by
  have hdvd : ((2 ^ tyWidth t : Nat) : Int) ∣ a * 2 ^ m := by
    push_cast
    exact Dvd.dvd.mul_left (pow_dvd_pow 2 ((tyWidth_le t ht).trans hm)) a
  have e : BitVec.ofInt (tyWidth t) (a * 2 ^ m) = BitVec.ofInt (tyWidth t) 0 := by
    apply BitVec.eq_of_toNat_eq
    rw [BitVec.toNat_ofInt, BitVec.toNat_ofInt, Int.emod_eq_zero_of_dvd hdvd, Int.zero_emod]
  rw [wraps, wraps, e]

theorem intMin_bounds (t : Ty) : -2 ^ 32 < intMin t ∧ intMin t ≤ 0 := by cases t <;> decide

theorem intMax_bounds (t : Ty) : 0 ≤ intMax t ∧ intMax t < 2 ^ 32 := by cases t <;> decide

/-- Shifting by 32 or more brings every integer but 0 beyond 2^32, on its own side. -/
theorem shifted_beyond {m : Nat} (hm : 32 ≤ m) (a : Int) :
    (a < 0 ∧ a * 2 ^ m ≤ -2 ^ 32) ∨ a * 2 ^ m = 0 ∧ a = 0 ∨ (0 < a ∧ 2 ^ 32 ≤ a * 2 ^ m) := by
  have hpow : (2 : Int) ^ 32 ≤ 2 ^ m := pow_le_pow_right₀ (by decide) hm
  rcases lt_trichotomy a 0 with h | rfl | h
  · exact .inl ⟨h, by nlinarith⟩
  · exact .inr (.inl ⟨zero_mul _, rfl⟩)
  · exact .inr (.inr ⟨h, by nlinarith⟩)

/-- A shift of 64 or more leaves the type as a shift of 64 does: on the same side, and with the same result (R267). -/
theorem shifted_far (t : Ty) (ht : isInt t = true) (md : Nat) (a : Int) (n : Nat) :
    result t md (a * 2 ^ min n 64) = result t md (a * 2 ^ n) ∧ inRange t (a * 2 ^ min n 64) = inRange t (a * 2 ^ n) := by
  rcases Nat.le_total n 64 with hn | hn
  · rw [min_eq_left hn]
    exact ⟨rfl, rfl⟩
  rw [min_eq_right hn]
  obtain ⟨hlo, hlo'⟩ := intMin_bounds t
  obtain ⟨hhi', hhi⟩ := intMax_bounds t
  have h64 := shifted_beyond (show 32 ≤ 64 by decide) a
  have hn' := shifted_beyond (show 32 ≤ n by omega) a
  have hclamp : max (intMin t) (min (intMax t) (a * 2 ^ 64)) = max (intMin t) (min (intMax t) (a * 2 ^ n)) := by omega
  refine ⟨?_, ?_⟩
  · rw [result, result, hclamp]
    split
    · rfl
    · rw [wraps_shifted ht a (by decide), wraps_shifted ht a (by omega)]
  · rw [inRange, inRange, Bool.eq_iff_iff]
    simp only [Bool.and_eq_true, decide_eq_true_eq]
    omega

/-! ### The integer nodes -/

/-- The operation of an integer node: the exact result, and IOV where that leaves the type. -/
def exactOp (t : Ty) (z : (Nat → BitVec 32) → Int) (md : Nat) (v : Nat → BitVec 32) : BitVec 32 × Conds :=
  (result t md (z v), { iov := !inRange t (z v) })

/-- Each integer node runs the operation of its exact result. -/
theorem exec_exactResult {z : Ty → (Nat → BitVec 32) → Int} (hi : exactResult i = some (f, z)) (ht : isInt f.ty = true) (s : State) :
    exec i s = runNode (pureNode f (exactOp f.ty (z f.ty))) s := by
  have hop : ∀ g : Nat → (Nat → BitVec 32) → BitVec 32 × Conds, exec i s = runNode (pureNode f g) s →
      (∀ md v, g md v = exactOp f.ty (z f.ty) md v) → exec i s = runNode (pureNode f (exactOp f.ty (z f.ty))) s := fun g he hg => by
    rw [he, funext fun md => funext (hg md)]
  unfold exactResult at hi
  split at hi
  case h_1 | h_2 | h_3 | h_4 | h_6 =>
    cases hi
    refine hop _ rfl fun md v => ?_
    simp only [addOp, subOp, mulOp, madOp, negOp, intBin, intResult_eq _ _ _ ht, intOf_eq _ _ ht, exactOp]
  case h_5 =>
    cases hi
    refine hop (absOp f.ty) rfl fun md v => ?_
    have habs : ∀ a : Int, (if a < 0 then -a else a) = |a| := fun a => by
      split
      next h => exact (abs_of_neg h).symm
      next h => exact (abs_of_nonneg (not_lt.mp h)).symm
    simp only [absOp, intResult_eq _ _ _ ht, intOf_eq _ _ ht, exactOp, habs]
  case h_7 =>
    cases hi
    refine hop (shlOp f.ty) rfl fun md v => ?_
    obtain ⟨hresult, hrange⟩ := shifted_far f.ty ht md (reads f.ty (v 0)) (v 1).toNat
    simp only [shlOp, intResult_eq _ _ _ ht, intOf_eq _ _ ht, exactOp, Nat.cast_pow, Nat.cast_ofNat, hresult, hrange]
  case h_8 => cases hi

/-- Settles O1: each node runs the operation of its exact result, and IOV stands in every lane. -/
theorem integerNodesComplete : Obligations.IntegerNodesComplete := by
  intro i f z s x r hi ht hf hz
  rw [exec_exactResult hi ht]
  exact pureNode_next hf fun l hl hfi => fate_iov (hz l hl hfi)

/-! ### The floating and special nodes -/

/-- Each floating or special node of one result runs its operation. -/
theorem exec_floatResult {g : Nat → (Nat → BitVec 32) → BitVec 32 × Conds} (hi : floatResult i = some (f, g)) (s : State) :
    exec i s = runNode (pureNode f g) s := by
  unfold floatResult at hi
  split at hi
  all_goals cases hi
  all_goals rfl

/-- Settles O6: each node of one result runs its operation, and SINCOS sends its two; the conditions stand in every lane. -/
theorem floatNodesComplete : Obligations.FloatNodesComplete := by
  constructor
  · intro i f g s x r hi hf hg
    rw [exec_floatResult hi]
    exact pureNode_next hf hg
  · intro f s x r hf hg
    exact valueNode_next hf _ fun l hl hfi => ⟨rfl, hg l hl hfi⟩

end Sys2Proof.Machine

/-! PROOFS. MXROW asks for the places of its tokens before each of its moves (R365, R366), and a list of regions out of order lets its own
row take them away. -/
namespace Sys2Proof.Machine
open Sys2Proof.Claims

/-- The row of a plinth that a step leaves under a number. -/
def rowLeft (r : Region) (k n : Nat) : Host.Outcome State Fault Refusal → Option AccRow
  | .next t => kget (rowsNow t r k) n
  | _ => none

namespace RegionsOverlap

/-- A region of cell 0 of hall 0, with its nodes. -/
def region (nodes : KMap NodeEntry) : Region :=
  { hall := 0, ctx := 0, shape := 0, origin := 0, vf := 0, wing := 0, root := true, parent := none, fres := 0, state := .running
    seq := Sequencer.zero, header := 0, program := { acts := [] }, active := { nodes := nodes } }

/-- MXROW at plinth 0 with slot 0 as its group; its completion goes to node 1. -/
def rowNode : NodeRec :=
  { ty := .tile, md := 0, da := .discard, db := .node 1 0, ls := .absent, pg := .ungated, gather := 1, ax := 0, ex := 0x100, lit := 0 }

def entry : NodeEntry := { record := (encode { instr := .mxrow rowNode, seq := none }).getD 0, base := 0, size := 0 }

/-- The region that fires: it has no node 1. -/
def sender : Region := region [(0, entry)]

/-- A region that covers the same cell, and has node 1. -/
def receiver : Region := region [(1, entry)]

/-- A packet of one element, 1 in FP16, with LASTK: as A and as B. -/
def packet : Pkt :=
  { hdr := { fmt := 8, rows := 1, cols := 1, scl := 0, spm := 0, lastk := 1, kch := 0, rowtag := 0 }, rows := [{ els := [0x3C00] }] }

def slot : VitSlot := { packet := packet.bytes, tr := false, ref := none }

/-- Emit mode: with LASTK the row's values leave, and the row is to be free again. -/
def config : MxCfg := { afmt := .f16, n := 1, keep := false, sparse := false }

def plinth : Plinth := { holder := some 0, slotHolder := [(0, 0)], slots := [(0, slot)], cfg := some config }

def lane : Lane := { tag := 0, ops := [(0, tileToken 0 packet.bytes)] }

def issue : Issue := { rid := 0, cell := 0, node := 0, lanes := [lane] }

/-- The completion's channel: it leads out of the sender, to the region that covers cell 0. -/
def channel : Chan := { src := 0, hall := 0, ctx := 0, wing := 0, place := .port 0 1 0, depth := 4, outside := true }

/-- Region 0, which fires, is listed behind region 1, which covers the same cell. -/
def state : State :=
  { State.reset with
    issue := some issue, halls := [{ Hall.reset with plinths := [plinth] }], regions := [(1, receiver), (0, sender)]
    chans := [(chanKey 0 0 68 0 0, channel)] }

theorem packet_read : pktOf packet.bytes = some packet := by decide +kernel

theorem node_there : (kget sender.active.nodes 0).bind (fun e => nodeFields e.record) = some rowNode := by decide +kernel

/-- At the issue region 1 is the first that covers cell 0, and takes the completion. -/
theorem places_free : roomAll state 0 0 [(.discard, 0), (.node 1 0, 0)] = true := by decide +kernel

/-- The row's entry restarts region 0's silence timer, which lists region 0 first: it has no node 1, so the packet waits for a place, and
its row stays. -/
theorem row_stays : (rowLeft sender 0 0 (exec (.mxrow rowNode) state)).isSome = true := by decide +kernel

/-- With every disposition 00 whatever is raised stands (R396). -/
theorem conds_stand (c : Conds) : fate sender.sys.trapEn c = .stands := by
  rcases c with ⟨dz, iov, fiv, fof, fuf⟩
  revert dz iov fiv fof fuf
  decide

end RegionsOverlap

open RegionsOverlap in
/-- Refutes O30: in `RegionsOverlap.state` the packet's places are free when it is issued, and its row, which has LASTK in emit mode,
is not freed. -/
theorem not_rowJoins : ¬ Obligations.RowJoins := fun h => by
  obtain ⟨t, ht, -, hrow, -⟩ := h rowNode state issue sender lane config packet packet slot ⟨rfl, rfl, rfl⟩ rfl rfl rfl rfl rfl node_there
    ⟨rfl, rfl⟩ rfl packet_read rfl rfl (by decide) rfl rfl rfl packet_read rfl rfl (conds_stand _) places_free
  have hstays := row_stays
  rw [ht] at hstays
  have hfree : kget (rowsNow t sender 0) 0 = none := hrow
  rw [rowLeft, hfree] at hstays
  cases hstays

end Sys2Proof.Machine

/-! PROOFS. ACC: a tag's first pair takes its rows, and a count that comes alone is kept (R167, R168, R372). -/
namespace Sys2Proof.Machine
open Sys2Proof.Claims

variable {s t : State} {r : Region} {f : NodeRec} {x : Issue} {l : Lane} {cfg : MxCfg} {k : Nat} {p : Plinth}

/-! ### Regions and plinths that have changed -/

theorem kget_onRegion (rid : Nat) (g : Region → Region) (hr : kget s.regions rid = some r) : kget (onRegion rid g s).regions rid = some (g r) := by
  simp [onRegion, hr]

theorem onRegion_elsewhere (rid : Nat) (g : Region → Region) (s : State) :
    (onRegion rid g s).halls = s.halls ∧ (onRegion rid g s).chans = s.chans ∧ (onRegion rid g s).mem = s.mem := by
  unfold onRegion
  split <;> exact ⟨rfl, rfl, rfl⟩

theorem plinthAt_of_halls (h : t.halls = s.halls) (hall k : Nat) : plinthAt t hall k = plinthAt s hall k := by
  rw [plinthAt, hallAt, h, plinthAt, hallAt]

/-- A plinth that a region holds is there, and reads as it was changed. -/
theorem plinthAt_withPlinth_held {rid : Nat} (h : (plinthAt s r.hall k).holder = some rid) : plinthAt (withPlinth s r k p) r.hall k = p := by
  have hk : k < (hallAt s r.hall).plinths.length := by
    refine Nat.lt_of_not_le fun hk => ?_
    rw [plinthAt, List.getElem?_eq_none hk] at h
    cases h
  have hhall : r.hall < s.halls.length := by
    refine Nat.lt_of_not_le fun hh => ?_
    have hreset : hallAt s r.hall = Hall.reset := by rw [hallAt, List.getElem?_eq_none hh]; rfl
    rw [hreset] at hk
    have hnone : ∀ j < Hall.reset.plinths.length, (Hall.reset.plinths[j]?.getD {}).holder = none := by decide
    rw [plinthAt, hreset, hnone k hk] at h
    cases h
  rw [plinthAt, hallAt, withPlinth, List.getElem?_set_self hhall, Option.getD_some, List.getElem?_set_self hk, Option.getD_some]

theorem holder_of_plinthOk {rid : Nat} {slots : List Nat} (h : plinthOk p rid slots = some cfg) : p.holder = some rid := by
  unfold plinthOk at h
  split at h
  next hp => exact hp.1
  · cases h

/-! ### The rows that ACC takes (R162, R372) -/

/-- A row that ACC holds. -/
def accRow (num : List Csa) : AccRow := { tag := accRowTag, complete := false, nextChunk := 0, elems := num }

/-- Writes at other numbers leave a number's value alone. -/
theorem kget_foldl_kset_of_not_mem {α β : Type} {g : β → α} {n : Nat} : ∀ (l : List (Nat × β)) (m : KMap α), n ∉ l.map (·.1) →
    kget (l.foldl (fun m q => kset m q.1 (g q.2)) m) n = kget m n
  | [], _, _ => rfl
  | q :: l, m, hn => by
    rw [List.map_cons, List.mem_cons, not_or] at hn
    rw [List.foldl_cons, kget_foldl_kset_of_not_mem l _ hn.2, kget_kset_of_ne _ _ hn.1]

/-- Values written one after another, each number once, read as they were written. -/
theorem kget_foldl_kset {α β : Type} {g : β → α} {n : Nat} {b : β} : ∀ (l : List (Nat × β)) (m : KMap α), (l.map (·.1)).Nodup → (n, b) ∈ l →
    kget (l.foldl (fun m q => kset m q.1 (g q.2)) m) n = some (g b)
  | [], _, _, h => absurd h List.not_mem_nil
  | q :: l, m, hd, h => by
    obtain ⟨hq, hd⟩ := List.nodup_cons.mp hd
    rcases List.mem_cons.mp h with rfl | h
    · rw [List.foldl_cons, kget_foldl_kset_of_not_mem l _ hq, kget_kset_self]
    · exact kget_foldl_kset l _ hd h

theorem freeRows_nodup {n : Nat} {rows : List Nat} (h : freeRows p n = some rows) : rows.Nodup ∧ rows.length = n := by
  unfold freeRows at h
  dsimp only at h
  split at h
  next hlen =>
    cases h
    exact ⟨((List.nodup_range.filter _).sublist (List.take_sublist _ _)), hlen⟩
  · cases h

/-- A packet that is taken apart has as many rows as its header says (R159). -/
theorem pktOf_rows {bs : List Byte} {q : Pkt} (h : pktOf bs = some q) : q.rows.length = q.hdr.rows := by
  unfold pktOf at h
  dsimp only at h
  split at h
  · cases h
  · cases h
    simp only [List.length_map, List.length_range]

theorem pairOf_rows {bs : List Byte} {sc v : Pkt} (h : pairOf bs = some (sc, v)) : sc.rows.length = sc.hdr.rows := by
  unfold pairOf at h
  split at h
  next hsc _ =>
    split at h
    · cases h
      exact pktOf_rows hsc
    · cases h
  · cases h

/-! ### The counts of a tile result (R169) -/

theorem counted_elsewhere (rid : Nat) (o : TileOut) (s : State) :
    (counted rid o s).halls = s.halls ∧ (counted rid o s).chans = s.chans ∧ (counted rid o s).mem = s.mem := by
  unfold counted
  split
  · exact onRegion_elsewhere _ _ s
  · exact ⟨rfl, rfl, rfl⟩

theorem counted_acc (rid : Nat) (o : TileOut) (hr : kget s.regions rid = some r) :
    ∃ r', kget (counted rid o s).regions rid = some r' ∧ r'.acc = r.acc := by
  unfold counted
  split
  · exact ⟨_, kget_onRegion _ _ hr, rfl⟩
  · exact ⟨r, hr, rfl⟩

theorem counted_quiet (rid : Nat) (o : TileOut) (hq : trapWaiting s = none) : trapWaiting (counted rid o s) = none := by
  unfold counted
  split
  · exact onRegion_quiet _ (fun _ => rfl) (fun _ => rfl) (fun _ => rfl) (fun _ => rfl) hq
  · exact hq

/-! ### A node of one lane that reads plinths -/

/-- The lane's operation answers, its conditions stand, and what it changes is done; it sends nothing. -/
theorem attention_silent {feeds : Issue → Region → Lane → Option (List Dest)} {g : Issue → Region → Lane → M (Except (Nat × Nat) (TileOut × M Unit))}
    {o : TileOut} {change : M Unit} (hf : Fires s x r) (hl : x.lanes = [l]) (hfi : firing f l = true) (hg : Reaches (g x r l) s (.ok (o, change)) s)
    (ho : o.da = none ∧ o.db = none) (hfate : fate r.sys.trapEn o.conds = .stands) (hc : Reaches change s () t) :
    Reaches (attentionNode f feeds g) s () (counted x.rid o t) := by
  refine accessLane_reaches hf hl hfi (hg.bind ?_)
  simp only [judge, hfate, ho.1, ho.2]
  exact hc.bind ((counted_reaches x.rid o t).bind (Reaches.pure _ _))

/-! ### A tag that is kept -/

/-- The rows of a plinth with those of a tag written. -/
def accRows (st : AccTag) (num : List (List Csa)) (m : KMap AccRow) : KMap AccRow :=
  (st.rows.zip num).foldl (fun m q => kset m q.1 (accRow q.2)) m

/-- The state with a tag kept in its region, and its rows in the plinth. -/
def accKept (x : Issue) (r : Region) (k tag : Nat) (st : AccTag) (num : List (List Csa)) (s : State) : State :=
  let u := onRegion x.rid (fun r => { r with acc := kset r.acc (accKey x tag) st }) s
  withPlinth u r k { plinthAt u r.hall k with rows := accRows st num (plinthAt u r.hall k).rows }

theorem accKeep_reaches {tag : Nat} {st : AccTag} {num : List (List Csa)} {out : TileOut} (ho : out.da = none) (s : State) :
    Reaches (accKeep x r k tag st num out) s () (accKept x r k tag st num s) := by
  rw [accKeep, ho]
  exact (onRegion_reaches _ _ s).bind (modPlinth_reaches r k _ _)

/-! ### ACC's step -/

/-- The answer of ACC's lane: a pair joins its tag, and what comes alone is a count (R372). -/
def accAnswer (f : NodeRec) (x : Issue) (r : Region) (l : Lane) (p : Plinth) (cfg : MxCfg) : Option (Except (Nat × Nat) (TileOut × M Unit)) :=
  if (kget l.ops 0).isSome then accPair f x r l p cfg else some (accCount f x r l p)

section
variable (hf : Fires s x r) (hl : x.lanes = [l]) (hfi : firing f l = true) (hp : Plinthed s x r f (slotGroup f.ex.toNat) cfg)
  {o : TileOut} {change : M Unit} (ha : accAnswer f x r l (plinthAt s r.hall (f.ex.toNat % 4)) cfg = some (.ok (o, change)))
  (ho : o.da = none ∧ o.db = none) (hfate : fate r.sys.trapEn o.conds = .stands)
include hf hl hfi hp ha ho hfate

/-- ACC whose lane answers, sends nothing, and leaves the plinth's packets alone. -/
theorem execAcc_next (hc : Reaches change s () t) (hjobs : (plinthAt t r.hall (f.ex.toNat % 4)).jobs = []) (hq : trapWaiting t = none) :
    exec (.acc f) s = .next { counted x.rid o t with issue := none } := by
  refine node_next ((myIssue_reaches hf.1 hf.2.1).bind ((attention_silent hf hl hfi ?_ ho hfate hc).bind (settlePlinth_idle ?_)))
    (counted_quiet _ _ hq)
  · refine (Reaches.get s).bind ?_
    simp only [hp.1]
    unfold accAnswer at ha
    split at ha
    next hpair => rw [if_pos hpair, ha]; exact Reaches.pure _ s
    next hpair => rw [if_neg hpair, Option.some.inj ha]; exact Reaches.pure _ s
  · rw [plinthAt_of_halls (counted_elsewhere _ _ t).1, hjobs]

/-- ACC of a lane whose answer keeps its tag, after a change of the plinth's slots or none. -/
theorem execAcc_keeps {u : State} {st : AccTag} {num : List (List Csa)}
    (hc : Reaches change s () (accKept x r (f.ex.toNat % 4) l.tag st num u))
    (hu : u.regions = s.regions ∧ u.chans = s.chans ∧ u.mem = s.mem)
    (hplinth : (plinthAt u r.hall (f.ex.toNat % 4)).holder = some x.rid ∧ (plinthAt u r.hall (f.ex.toNat % 4)).jobs = []) :
    ∃ t r', exec (.acc f) s = .next t ∧ t.chans = s.chans ∧ t.mem = s.mem ∧ kget t.regions x.rid = some r' ∧
      kget r'.acc (accKey x l.tag) = some st ∧
      rowsNow t r (f.ex.toNat % 4) = accRows st num (plinthAt u r.hall (f.ex.toNat % 4)).rows := by
  obtain ⟨hregions, hchans, hmem⟩ := hu
  obtain ⟨hholder, hjobs⟩ := hplinth
  let v := onRegion x.rid (fun r => { r with acc := kset r.acc (accKey x l.tag) st }) u
  obtain ⟨hvhalls, hvchans, hvmem⟩ := onRegion_elsewhere x.rid (fun r => { r with acc := kset r.acc (accKey x l.tag) st }) u
  have hv : plinthAt v r.hall (f.ex.toNat % 4) = plinthAt u r.hall (f.ex.toNat % 4) := plinthAt_of_halls hvhalls _ _
  have hkept := plinthAt_withPlinth_held (s := v) (r := r) (k := f.ex.toNat % 4)
    (p := { plinthAt v r.hall (f.ex.toNat % 4) with rows := accRows st num (plinthAt v r.hall (f.ex.toNat % 4)).rows }) (hv ▸ hholder)
  have hvregion : kget v.regions x.rid = some { r with acc := kset r.acc (accKey x l.tag) st } := kget_onRegion _ _ (hregions ▸ hf.2.1)
  have hvquiet : trapWaiting v = none :=
    onRegion_quiet _ (fun _ => rfl) (fun _ => rfl) (fun _ => rfl) (fun _ => rfl) ((Kin.of_regions hregions).2 hf.2.2)
  obtain ⟨hthalls, htchans, htmem⟩ := counted_elsewhere x.rid o (accKept x r (f.ex.toNat % 4) l.tag st num u)
  obtain ⟨r', hr', hacc⟩ := counted_acc x.rid o (s := accKept x r (f.ex.toNat % 4) l.tag st num u) hvregion
  refine ⟨_, r', execAcc_next hf hl hfi hp ha ho hfate hc ?_ hvquiet, htchans.trans (hvchans.trans hchans), htmem.trans (hvmem.trans hmem), hr', ?_, ?_⟩
  · exact (congrArg Plinth.jobs hkept).trans ((congrArg Plinth.jobs hv).trans hjobs)
  · rw [hacc, kget_kset_self]
  · have e := (congrArg Plinth.rows (plinthAt_of_halls hthalls r.hall (f.ex.toNat % 4))).trans (congrArg Plinth.rows hkept)
    rw [hv] at e
    exact e

end

/-! ### The first pair of a tag (R167, R168, R372) -/

/-- A query's row before its first pair. -/
def softZero (v : Pkt) : SoftRow := { max := none, den := .fin 0 0, num := List.replicate v.hdr.cols (.fin 0 0) }

/-- The queries' rows after a tag's first pair. -/
def firstJoined (cfg : MxCfg) (sc v : Pkt) : List SoftRow :=
  sc.rows.map (fun q => softJoin cfg.afmt v (q.els.map (elemVal 6 0)) (softZero v))

/-- A tag after its first pair. -/
def firstTag (f : NodeRec) (joined : List SoftRow) (rows : List Nat) : AccTag :=
  { maxima := joined.map (·.max), dens := joined.map (·.den), rows := rows, joined := 1, count := if litAt f 1 then some f.lit.toNat else none }

/-- Every query of a tag's first pair joins a row that is zero. -/
theorem firstJoined_eq (cfg : MxCfg) {sc : Pkt} (hsc : sc.rows.length = sc.hdr.rows) (v : Pkt) :
    ((List.replicate sc.hdr.rows (softZero v)).zip sc.rows).map (fun q => softJoin cfg.afmt v (q.2.els.map (elemVal 6 0)) q.1) =
      firstJoined cfg sc v := by
  have hzip : ∀ l : List Row, (List.replicate l.length (softZero v)).zip l = l.map (fun q => (softZero v, q)) := fun l => by
    induction l with
    | nil => rfl
    | cons q l ih => rw [List.length_cons, List.replicate_succ, List.zip_cons_cons, ih, List.map_cons]
  rw [← hsc, hzip, List.map_map]
  rfl

/-- What a tag's first pair changes: a slot takes the pair's values, and the tag is kept. -/
def pairKept (x : Issue) (r : Region) (k slot : Nat) (vit : VitSlot) (tag : Nat) (st : AccTag) (num : List (List Csa)) (out : TileOut) : M Unit := do
  modPlinth r.hall k (fun p => { p with slots := kset p.slots slot vit, rotor := p.rotor + 1 })
  accKeep x r k tag st num out

/-- The first pair of a tag joins, and a count other than 1 lets nothing leave. -/
theorem accPair_first {sc v : Pkt} {rows : List Nat} (hpair : pairOf (operand f l 0).packet = some (sc, v))
    (hfmt : cfg.afmt = .f8e4 ∨ cfg.afmt = .f8e5) (hn : v.hdr.cols ≤ cfg.n) (h0 : (if litAt f 1 then some f.lit.toNat else none) ≠ some 0)
    (h1 : (if litAt f 1 then some f.lit.toNat else none) ≠ some 1) (hnew : kget r.acc (accKey x l.tag) = none)
    (hrows : freeRows p sc.hdr.rows = some rows) :
    ∃ o out slot vit, accPair f x r l p cfg = some (.ok (o, pairKept x r (f.ex.toNat % 4) slot vit l.tag
        (firstTag f (firstJoined cfg sc v) rows) ((firstJoined cfg sc v).map (·.num)) out)) ∧
      out.da = none ∧ (o.da = none ∧ o.db = none) ∧ o.conds = (firstJoined cfg sc v).foldl (fun c y => c.or y.conds) {} := by
  have hafter := firstJoined_eq cfg (pairOf_rows hpair) v
  have hout : accOut l (firstTag f (firstJoined cfg sc v) rows) ((firstJoined cfg sc v).map (·.num)) = { da := none, db := none } :=
    if_neg fun h => h1 h.1
  have hlit : ¬ (litAt f 1 = true ∧ f.lit = 0) := fun ⟨hl, h⟩ => h0 (by rw [if_pos hl, h]; rfl)
  have hcfg : ¬ ((cfg.afmt ≠ .f8e4 ∧ cfg.afmt ≠ .f8e5) ∨ cfg.n < v.hdr.cols) := by
    rintro (⟨h4, h5⟩ | h)
    · exact hfmt.elim h4 h5
    · exact absurd hn (Nat.not_le.mpr h)
  unfold softZero at hafter
  unfold firstTag at hout
  unfold accPair
  simp only [hpair, if_neg hlit, if_neg hcfg, hnew, Option.getD_none, List.isEmpty_nil, hrows, Bool.not_true, Bool.false_eq_true, false_and,
    if_false, if_true, hafter, Nat.zero_add, hout]
  exact ⟨_, _, _, _, rfl, rfl, ⟨rfl, rfl⟩, rfl⟩

/-- A first count other than that of the pairs that have joined is kept, and nothing leaves. -/
theorem accCount_kept {st : AccTag} (hst : kget r.acc (accKey x l.tag) = some st) (hcount : st.count = none) (h0 : (opv f l 1).toNat ≠ 0)
    (hjoined : st.joined ≠ (opv f l 1).toNat) :
    ∃ out num, accCount f x r l p = .ok (out, accKeep x r (f.ex.toNat % 4) l.tag { st with count := some (opv f l 1).toNat } num out) ∧
      (out.da = none ∧ out.db = none) ∧ out.conds = {} := by
  have hout : ∀ num, accOut l { st with count := some (opv f l 1).toNat } num = { da := none, db := none } := fun num =>
    if_neg fun h => hjoined (Option.some.inj h.1).symm
  unfold accCount
  simp only [if_neg h0, hst, Option.bind_some, hcount, Option.isSome_none, Bool.false_eq_true, if_false, Option.getD_some, hout]
  exact ⟨_, _, rfl, ⟨rfl, rfl⟩, rfl⟩

/-- The rows of a tag's first pair, as the plinth holds them. -/
theorem accRows_read {st : AccTag} {num : List (List Csa)} (hd : st.rows.Nodup) (hlen : st.rows.length = num.length) (m : KMap AccRow) {j : Nat}
    (hj : j < st.rows.length) : kget (accRows st num m) st.rows[j] = num[j]?.map accRow := by
  have hjn : j < num.length := hlen ▸ hj
  rw [List.getElem?_eq_getElem hjn, Option.map_some]
  refine kget_foldl_kset _ m ?_ ?_
  · rwa [List.map_fst_zip hlen.le]
  · have hz : j < (st.rows.zip num).length := by rw [List.length_zip]; omega
    have e : (st.rows.zip num)[j] = (st.rows[j], num[j]) := List.getElem_zip
    exact e ▸ List.getElem_mem hz

/-- Settles O33: the lane's answer keeps its tag, by `accPair_first` and by `accCount_kept`. -/
theorem pairAccumulates : Obligations.PairAccumulates := by
  intro f s x r l cfg k p count hf hl hfi hp
  have hheld := holder_of_plinthOk hp.1
  constructor
  · intro sc v rows hpair hof hfmt hn h0 h1 hnew hrows zero joined hfate
    obtain ⟨o, out, slot, vit, ha, hout, ho, hconds⟩ := accPair_first (x := x) hof hfmt hn h0 h1 hnew hrows
    obtain ⟨hnodup, hlen⟩ := freeRows_nodup hrows
    let u := withPlinth s r k { p with slots := kset p.slots slot vit, rotor := p.rotor + 1 }
    have hu : plinthAt u r.hall k = { p with slots := kset p.slots slot vit, rotor := p.rotor + 1 } := plinthAt_withPlinth_held hheld
    have hnum : rows.length = ((firstJoined cfg sc v).map (·.num)).length := by
      rw [hlen, List.length_map, firstJoined, List.length_map, pairOf_rows hof]
    obtain ⟨t, r', ht, hchans, hmem, hr', hacc, hkept⟩ := execAcc_keeps (u := u) hf hl hfi hp ((if_pos hpair).trans ha) ho (hconds ▸ hfate)
      ((modPlinth_reaches r k _ s).bind (accKeep_reaches hout u)) ⟨rfl, rfl, rfl⟩ ⟨hu ▸ hheld, hu ▸ hp.2⟩
    refine ⟨t, r', ht, hchans, hmem, hr', hacc, fun j hj => ?_⟩
    rw [hkept]
    refine (accRows_read (st := firstTag f (firstJoined cfg sc v) rows) hnodup hnum _ hj).trans ?_
    rw [List.getElem?_map, Option.map_map]
    rfl
  · intro st hpair hst hcount h0 hjoined
    obtain ⟨out, num, ha, ho, hconds⟩ := accCount_kept (p := p) hst hcount h0 hjoined
    have hfate : fate r.sys.trapEn out.conds = .stands := by rw [hconds]; rfl
    have hcountOnly : ¬ (kget l.ops 0).isSome = true := Bool.eq_false_iff.mp hpair
    obtain ⟨t, r', ht, hchans, -, hr', hacc, -⟩ := execAcc_keeps (u := s) hf hl hfi hp ((if_neg hcountOnly).trans (congrArg some ha)) ho hfate
      (accKeep_reaches ho.1 s) ⟨rfl, rfl, rfl⟩ ⟨hheld, hp.2⟩
    exact ⟨t, r', ht, hchans, hr', hacc⟩

end Sys2Proof.Machine

/-! PROOFS. REPAIR by a sequencer whose list of registers ends before aD, which neither `Inv` nor the statement about the gallery commands
excludes: nothing takes the repair's number, so aD reads as 0 (R37, R378). Every other premise is met by an ordinary gallery. -/
namespace Sys2Proof.Machine
open Sys2Proof.Claims

/-- A register as a step leaves it. -/
def registerLeft (i : BitVec 5) : Host.Outcome State Fault Refusal → Option Reg
  | .next t => some (areg t i)
  | _ => none

namespace RegistersEnd

/-- A thread region of one act, before its sequencer has any register. -/
def bare : Region :=
  { hall := 0, ctx := 0, shape := 0, origin := 0, vf := 0, wing := 0, root := true, parent := none, fres := 0, state := .idle
    seq := { regs := [] }, header := BitVec.ofNat 128 (2 ^ 70), program := { acts := [[]] } }

/-- The region: its sequencer has the register a1 alone, which names the region itself. -/
def region : Region := { bare with seq := { regs := [BitVec.ofNat 64 (identOf bare)] } }

/-- A Spliced segment of 16 positions. -/
def segment : Segment :=
  { state := .spliced, wmark := 0, start := 0, len := 16, rot := 0, skip := 0, handle := 0, doc := 1, ver := 1, lstride := 64, reg := 0, id := 0 }

/-- A gallery of one layer and one link, which holds the segment. -/
def gallery : Gallery :=
  { layers := 1, heads := 1, dim := 16, fmt := .f16, base := 0, owner := 0, rq := 2, ks := 3, vs := 4, vf := 0, ctx := 0
    links := [{ hall := 0, tile := 0, limit := 16, segs := [segment] }] }

def state : State :=
  { State.reset with
    who := 0, regions := [(0, region)]
    wings := [(0, { x0 := 0, y0 := 0, width := 1, height := 1, tenant := 0, galleries := [(0, gallery)] })] }

/-- REPAIR of gallery 0 at position 0, with one probe layer, by the region that a1 names; its number goes to a2. -/
def repairRecord : CmdRec := { ty := .f32, md := 0, d := 2, s := 0, t := 1, ext := 0, imm := 0x100 }

theorem state_issues : RegionIssues state region false := ⟨(by decide : (0 : Nat) ≠ serviceRid), rfl, rfl, nofun⟩

theorem repair_needs : ∀ e, galleryEffect (.repair repairRecord) = some e → e.needs state region := by
  rintro _ ⟨⟩
  exact ⟨gallery, 0, region, _, segment, 0, ⟨_, rfl, rfl, rfl⟩, by decide +kernel, rfl, rfl, by decide, by decide, by decide, rfl, rfl, .inl rfl,
    by decide, by decide⟩

/-- The repair's number is written nowhere. -/
theorem number_lost : registerLeft 2 (exec (.repair repairRecord) state) = some 0 := by decide +kernel

/-- No conservator has counted a repair. -/
theorem counts_zero {die n : Nat} (h : (state.conservators[die]?).map (·.count) = some n) : n = 0 := by
  obtain ⟨c, hc, rfl⟩ := Option.map_eq_some_iff.mp h
  have hall : ∀ c ∈ state.conservators, c.count = 0 := by decide
  exact hall c (List.mem_of_getElem? hc)

/-- The number of a conservator's first repair is odd. -/
theorem first_number_ne_zero (die : Nat) : BitVec.ofNat 64 (die * 2 ^ 62 + 1 % 2 ^ 32) ≠ 0 := fun h => by
  have := congrArg BitVec.toNat h
  rw [BitVec.toNat_ofNat] at this
  simp only [BitVec.ofNat_eq_ofNat, BitVec.toNat_zero] at this
  omega

end RegistersEnd

open RegistersEnd in
/-- Refutes O41: in `RegistersEnd.state` REPAIR is accepted, but the register that its number is to go to is not there and reads as 0. -/
theorem not_galleryCommandsComplete : ¬ Obligations.GalleryCommandsComplete := fun h => by
  obtain ⟨t, ht, die, n, hreg, -, -, hold, hn⟩ := h (.repair repairRecord) _ state region (.inl rfl) state_issues (repair_needs _ rfl)
  have hleft := number_lost
  rw [ht, registerLeft, Option.some.injEq] at hleft
  have hzero := counts_zero hold
  obtain rfl : n = 1 := by omega
  exact first_number_ne_zero die ((hreg (by decide)).symm.trans hleft)

end Sys2Proof.Machine

/-! PROOFS. RING_SLOT_FILLED where the list of functions holds one function twice, which `Inv` excludes and the statement about the engines'
steps does not: a piece of a message is written, the versions of both listings rise (R140), and the second one takes the place of the first
with its rings (R127, R192). -/
namespace Sys2Proof.Machine
open Sys2Proof.Claims

/-- An action leaves one state. -/
theorem Reaches.unique {α : Type} {m : M α} {s t u : State} {a b : α} (h : Reaches m s a t) (k : Reaches m s b u) : t = u :=
  h.leaves.symm.trans k.leaves

/-- A ring that has changed reads as it has changed. -/
theorem ringAt_ringTo (vf k : Nat) (x : Ring) (s : State) : ringAt (ringTo vf k x s) vf k = some x := by
  simp [ringAt, ringTo, onVf, vfAt, kgetD]

/-- The rings of a function as a step leaves them. -/
def ringLeft (vf k : Nat) : Host.Outcome State Fault Refusal → Option Ring
  | .next t => ringAt t vf k
  | _ => none

namespace RingListedTwice

/-- 64 bytes of hall 0's scratch, which both listings have as a buffer. -/
def slots : Buffer := { scratch := some 0, base := 0, len := 64, read := true, write := true, atomic := false }

/-- A ring that a message of one byte has reached. -/
def ring : Ring := { members := [], handle := 0, ctx := 0, slotSize := 16, slot0 := 0, opened := [], opener := none, arriving := [[7]] }

/-- The machine: its list of functions lists function 0 twice, and the second listing has no ring. -/
def state : State :=
  { State.reset with
    input := .pair 0 0
    vfs := [(0, { handles := [(0, { visible := some slots })], rings := [(0, ring)] }), (0, { handles := [(0, { visible := some slots })] })] }

theorem ring_receives : receives state 0 0 ring [7] slots := ⟨rfl, rfl, rfl, by decide, rfl, rfl⟩

theorem piece_next : slotPiece ring [7] slots = some (0, 1) := by decide

theorem piece_located : pieceAt state 0 ring slots (0, 1) (scratchAddr 0 0) := ⟨rfl, rfl, by decide +kernel, by decide +kernel⟩

/-- The step leaves the second listing in the first one's place. -/
theorem ring_lost : ringLeft 0 0 (exec .ringSlotFilled state) = none := by decide +kernel

/-- The write of the piece. -/
def written : M Unit := performWrite (ringHall state 0) 0 (slots.base + slotOffset ring + 0) (scratchAddr 0 0) (([7].drop 0).take 1)

theorem written_quiet : trapWaiting (leaves written state) = none := by decide +kernel

end RingListedTwice

open RingListedTwice in
/-- Refutes O50: in `RingListedTwice.state` RING_SLOT_FILLED writes a piece of the message and loses the ring, where the ring was to have come
one piece further. -/
theorem not_engineEventsComplete : ¬ Obligations.EngineEventsComplete := fun h => by
  obtain ⟨t, ht, hleads⟩ := h.2 .ringSlotFilled _ state rfl rfl
    ⟨ring, [7], slots, ring_receives, .inr ⟨(0, 1), scratchAddr 0 0, piece_next, piece_located⟩⟩
  obtain ⟨u, hwrite, hend⟩ := (hleads ring [7] slots ring_receives).2 (0, 1) (scratchAddr 0 0) piece_next piece_located
  have hquiet : trapWaiting u = none := by rw [← hwrite.leaves]; exact written_quiet
  obtain rfl := hend.unique (deliverTraps_reaches hquiet)
  have hlost := ring_lost
  rw [ht, ringLeft, ringAt_ringTo] at hlost
  cases hlost

end Sys2Proof.Machine

/-! PROOFS. Records packed from fields and taken apart, and the decoder and the encoder as two readings of one layout (R227 to R243). -/
namespace Sys2Proof.Laws.OpcodeTable
open Sys2Proof Sys2Proof.Machine

/-- The tables and the rules agree on every instruction, by the lemma of each. -/
theorem rows_agree (i : Instr) : Statement i := by
  cases i
  exacts [
    pass _, const _, sink _, join _, add _, sub _, mul _, mulh _, mad _, div _, rem _, min _, max _, abs _, neg _, and _, or _, xor _, not _, shl _, shr _, sar _,
    rotl _, clz _, popc _, bfx _, bfi _, sel _, cmp _, idx _, wid _, fadd _, fsub _, fmul _, ffma _, fmin _, fmax _, fabs _, fneg _, fcmp _, fcvt _, itof _, ftoi _,
    exp2 _, log2 _, rcp _, rsq _, sqrt _, sincos _, tanh _, frnd _, fscale _, fclass _, steer _, merge _, cmerge _, gate _, pnot _, pand _, por _, pxor _, tagnew _,
    tagret _, tagset _, tagget _, count _, init _, fire _, order _, done _, trapn _, ptest _, ld _, st _, ldfeTake _, ldfePeek _, stfe _, stfeOvw _, amoAdd _, amoAnd _,
    amoOr _, amoXor _, amoMin _, amoMax _, amoSwap _, amoFadd _, cas _, fence _, nrdTake _, nrdPeek _, nwr _, nprobe _, vmap _, vfma _, vredSum _, vredMax _, vredMin _,
    vscanSum _, vscanMax _, vscanMin _, vcmpm _, vcompress _, vexpand _, vtopk _, vtopkIdx _, vsoft _, vquant _, vdeq _, vcvt _, vtransp _, vslice _, vcat _, vhdr _,
    vhdrSet _, vbcast _, vmaskKeep _, vmaskCausal _, vmaskLength _, mxrow _, mxdrain _, mxsteer _, score _, pair _, acc _, norm _, rope _, jmp _, br _, call _, ret _,
    li _, lih _, mov _, addCmd _, subCmd _, mulCmd _, andCmd _, orCmd _, xorCmd _, shlCmd _, shrCmd _, sarCmd _, cmpCmd _, minCmd _, maxCmd _, lds _, sts _, mfs _,
    mts _, wait _, sig _, time _, timeCyc _, perf _, fuse _, split _, cfgLoad _, cfgRun _, cfgNext _, launch _, circ _, quiesce _, quiesceProbe _, ctxSave _, ctxLoad _,
    ctxSwap _, bufMap _, bufUnmap _, cap _, strmDef _, strmDim _, strmGo _, strmBar _, strmEnd _, rsv _, samp _, fenceCmd _, flush _, inv _, feFill _, feEmpty _, pref _,
    fold _, foldchk _, refold _, nstat _, ndrop _, nseed _, copy _, copySh _, publ _, mcast _, ringOpen _, ringPut _, ringTake _, collSum _, collMax _, collMin _,
    collRs _, collAg _, collBc _, ewait _, ecancel _, claim _, release _, opld _, mxCfg _, mxRoute _, mxGo _, mxStop _, galOpen _, galClose _, galAppend _, splice _,
    galCut _, prov _, provRev _, repair _, repairWait _, deltaBind _, deltaRun _, deltaRef _, deltaInv _, deltaStat _, trap _, tretRetry _, sysc _, hcall _, hcallTake _,
    hcallArg _, hcallRet _, freeze _, thaw _, snap _, wingDef _, wingDefRel _, wingRoute _, vfBind _, vfBindRel _, scrub _, audit _, nop, halt, next, cfgSeal,
    tretPoison, tretDiscard, tretAbort, passQ, constQ, addQ, subQ, mulQ, mulhQ, madQ, divQ, remQ, minQ, maxQ, absQ, negQ, andQ, orQ, xorQ, notQ, shlQ, shrQ, sarQ, rotlQ,
    clzQ, popcQ, bfxQ, bfiQ, selQ, cmpQ, idxQ, widQ, faddQ, fsubQ, fmulQ, ffmaQ, fminQ, fmaxQ, fabsQ, fnegQ, fcmpQ, fcvtQ, itofQ, ftoiQ, exp2Q, log2Q, rcpQ, rsqQ, sqrtQ,
    sincosQ, tanhQ, frndQ, fscaleQ, fclassQ, pnotQ, pandQ, porQ, pxorQ, emit, emitp, fralloc, frfree, go, tinv, translationInvalidationDone, registerWrite, rescrubClear,
    errptrConsumerWrite, registrarConsumerAdvance, registrarExport, powerGood, lifeCycleTransition, attestationReport, hallTemperatureReading, thermalHold,
    thermalHoldEnd, hbmThrottle, hbmThrottleEnd, thermtrip, dvfsWindowEnd, clockStepEnd, sliceEnd, sliceWallCap, quiescenceScan, silenceExpiry, memoryWaitExpiry,
    sequencerWaitExpiry, snapshotTimeout, swapWaitExpiry, cellIssue, tokenArrival, overflowReinject, meshPacketArrival, handoverAck, bufferPlaceFree, counterStep,
    threadAdmit, configLoadEnd, runComplete, blockSchedulerDecision, invocationCommit, memoryAccessComplete, translationWalkComplete, wayChangeWalkEnd, bisnpinv,
    bisnpdata, bisnpcur, streamAccess, streamBarrierLift, streamDrained, galleryBlockRead, galleryReadAtLink, limitShiftWave, repairLayerDone, repairCopyDone,
    repairCancel, deltaRunEnd, engineCommandComplete, engineCommandFault, ringSlotFilled, ringCreditReturn, ringBreak, markerArrival, contextScrubComplete,
    frameScrubStart, frameScrubDone, selfTestEnd, annexPortLost, annexRequestTimeout, annexPortRetrain, xipexFlitReceive, xipexCrcError, xipexLinkDown, hostLinkError,
    hostCompletionTimeout, functionLevelReset, pfReset, routeTableError, hostCxlMemAccess, slotZeroingEnd, hostLinkUp, xipexRetrainEnd, keyLoaded]

end Sys2Proof.Laws.OpcodeTable

namespace Sys2Proof
open Machine

/-! ### Fields of a record, lowest first -/

/-- The number whose fields, lowest first, have the given widths and values. -/
def pack : List Nat → List Nat → Nat
  | w :: ws, v :: vs => v + 2 ^ w * pack ws vs
  | _, _ => 0

/-- The fields of a record from bit `lo` on, of the given widths. -/
def fieldsFrom (r : Rec) : Nat → List Nat → List Nat
  | _, [] => []
  | lo, w :: ws => bitField r lo w :: fieldsFrom r (lo + w) ws

/-- Each value fits its width. -/
abbrev Fit (ws vs : List Nat) : Prop := List.Forall₂ (fun w v => v < 2 ^ w) ws vs

theorem bitField_lt (r : Rec) (lo w : Nat) : bitField r lo w < 2 ^ w := Nat.mod_lt _ (Nat.two_pow_pos w)

theorem pack_lt {ws vs : List Nat} (h : Fit ws vs) : pack ws vs < 2 ^ ws.sum := by
  induction h with
  | nil => exact Nat.one_pos
  | @cons w v ws vs hv _ ih =>
    rw [pack, List.sum_cons, Nat.pow_add]
    calc v + 2 ^ w * pack ws vs < 2 ^ w * (pack ws vs + 1) := by rw [Nat.mul_add]; omega
      _ ≤ 2 ^ w * 2 ^ ws.sum := Nat.mul_le_mul_left _ ih

/-- What is packed above bit `lo` is taken apart again. -/
theorem fieldsFrom_of_div {ws vs : List Nat} (h : Fit ws vs) (r : Rec) :
    ∀ lo, r.toNat / 2 ^ lo = pack ws vs → fieldsFrom r lo ws = vs := by
  induction h with
  | nil => exact fun _ _ => rfl
  | @cons w v ws vs hv _ ih =>
    intro lo hr
    rw [pack] at hr
    have hfield : bitField r lo w = v := by rw [bitField, hr, Nat.add_mul_mod_self_left, Nat.mod_eq_of_lt hv]
    have hrest : r.toNat / 2 ^ (lo + w) = pack ws vs := by
      rw [Nat.pow_add, ← Nat.div_div_eq_div_mul, hr, Nat.add_mul_div_left _ _ (Nat.two_pow_pos w), Nat.div_eq_of_lt hv, Nat.zero_add]
    rw [fieldsFrom, hfield, ih _ hrest]

/-- The fields of a record, packed again, are its bits. -/
theorem pack_fieldsFrom (r : Rec) : ∀ (ws : List Nat) (lo : Nat), pack ws (fieldsFrom r lo ws) = r.toNat / 2 ^ lo % 2 ^ ws.sum
  | [], lo => by simp [pack, Nat.mod_one]
  | w :: ws, lo => by
    rw [fieldsFrom, pack, pack_fieldsFrom r ws, List.sum_cons, Nat.pow_add 2 w, Nat.mod_mul, Nat.pow_add, ← Nat.div_div_eq_div_mul, bitField]

/-- A record is packed from the values that its fields have, and from no others. -/
theorem packed_eq_iff {ws vs : List Nat} (hws : ws.sum = 96) (h : Fit ws vs) (r : Rec) :
    BitVec.ofNat 96 (pack ws vs) = r ↔ fieldsFrom r 0 ws = vs := by
  constructor
  · rintro rfl
    refine fieldsFrom_of_div h _ 0 ?_
    rw [Nat.pow_zero, Nat.div_one, BitVec.toNat_ofNat, Nat.mod_eq_of_lt (hws ▸ pack_lt h)]
  · rintro rfl
    rw [pack_fieldsFrom, hws, Nat.pow_zero, Nat.div_one, Nat.mod_eq_of_lt r.isLt, BitVec.ofNat_toNat, BitVec.setWidth_eq]

/-! ### Codes of fields -/

theorem ofNat_eq_iff {w n : Nat} (h : n < 2 ^ w) (x : BitVec w) : BitVec.ofNat w n = x ↔ n = x.toNat := by
  rw [← BitVec.toNat_inj, BitVec.toNat_ofNat, Nat.mod_eq_of_lt h]

theorem tyOfCode_eq_iff {c : Nat} (h : c < 2 ^ 4) (t : Ty) : tyOfCode c = t ↔ c = tyCode t := by
  revert c; cases t <;> decide

theorem litSelOfCode_eq_iff {c : Nat} (h : c < 2 ^ 2) (l : LitSel) : litSelOfCode c = l ↔ c = litSelCode l := by
  revert c; cases l <;> decide

theorem gateOfCode_eq_iff {c : Nat} (h : c < 2 ^ 3) (g : Gate) : gateOfCode c = some g ↔ c = gateCode g := by
  revert c; cases g <;> decide

theorem destOfCode_eq_iff (b : Nat) (d : Dest) : destOfCode b = some d ↔ b = destCode d := by
  constructor
  · intro h
    unfold destOfCode at h
    split_ifs at h <;> cases h <;> simp only [destCode, Fin.ofNat] <;> omega
  · rintro rfl
    cases d with
    | node n p => revert n p; decide
    | out k => revert k; decide
    | predOut k => revert k; decide
    | discard => rfl

theorem qsrcOfCode_eq_iff {c : Nat} (h : c < 2 ^ 4) (q : QSrc) : qsrcOfCode c = q ↔ c = qsrcCode q := by
  cases q with
  | w i => revert c i; decide
  | m i => revert c i; decide
  | q i => revert c i; decide
  | tg => revert c; decide
  | im => revert c; decide
  | zr => revert c; decide

theorem qdstOfCode_eq_iff {c : Nat} (h : c < 2 ^ 4) (q : QDst) : qdstOfCode c = some q ↔ c = qdstCode q := by
  cases q with
  | w i => revert c i; decide
  | da => revert c; decide
  | db => revert c; decide
  | discard => revert c; decide

theorem lastBit_eq_iff {c : Nat} (h : c < 2 ^ 1) (b : Bool) : (c == 1) = b ↔ c = b.toNat := by
  revert c; cases b <;> decide

theorem tyCode_lt (t : Ty) : tyCode t < 2 ^ 4 := by cases t <;> decide
theorem litSelCode_lt (l : LitSel) : litSelCode l < 2 ^ 2 := by cases l <;> decide
theorem gateCode_lt (g : Gate) : gateCode g < 2 ^ 3 := by cases g <;> decide
theorem destCode_lt (d : Dest) : destCode d < 2 ^ 8 := by cases d <;> simp only [destCode] <;> omega
theorem qsrcCode_lt (q : QSrc) : qsrcCode q < 2 ^ 4 := by cases q <;> simp only [qsrcCode] <;> omega
theorem qdstCode_lt (q : QDst) : qdstCode q < 2 ^ 4 := by cases q <;> simp only [qdstCode] <;> omega

/-! ### The three forms -/

/-- The widths of the fields of an N-form record, and their values (R228). -/
def nodeWidths : List Nat := [32, 16, 6, 3, 3, 2, 8, 8, 4, 4, 8, 2]
def nodeValues (op : Nat) (f : NodeRec) : List Nat :=
  [f.lit.toNat, f.ex.toNat, f.ax.toNat, f.gather.toNat, gateCode f.pg, litSelCode f.ls, destCode f.db, destCode f.da, f.md.toNat, tyCode f.ty, op, 0]

/-- The widths of the fields of a Q-form record, with the bits that must be zero, and their values (R231). -/
def seqWidths : List Nat := [32, 29, 1, 4, 4, 4, 4, 4, 4, 8, 2]
def seqValues (op : Nat) (f : SeqRec) : List Nat :=
  [f.im.toNat, 0, f.last.toNat, qsrcCode f.qc, qsrcCode f.qb, qsrcCode f.qa, qdstCode f.qd, f.md.toNat, tyCode f.ty, op, 1]

/-- The widths of the fields of a C-form record, and their values (R233). -/
def cmdWidths : List Nat := [32, 31, 5, 5, 5, 4, 4, 8, 2]
def cmdValues (op : Nat) (f : CmdRec) : List Nat :=
  [f.imm.toNat, f.ext.toNat, f.t.toNat, f.s.toNat, f.d.toNat, f.md.toNat, tyCode f.ty, op, 2]

theorem encodeNode_eq_pack (op : Nat) (f : NodeRec) : encodeNode op f = BitVec.ofNat 96 (pack nodeWidths (nodeValues op f)) := by
  refine congrArg (BitVec.ofNat 96) ?_
  simp only [nodeWidths, nodeValues, pack]
  ring

theorem encodeSeq_eq_pack (op : Nat) (f : SeqRec) : encodeSeq op f = BitVec.ofNat 96 (pack seqWidths (seqValues op f)) := by
  refine congrArg (BitVec.ofNat 96) ?_
  simp only [seqWidths, seqValues, pack]
  ring

theorem encodeCmd_eq_pack (op : Nat) (f : CmdRec) : encodeCmd op f = BitVec.ofNat 96 (pack cmdWidths (cmdValues op f)) := by
  refine congrArg (BitVec.ofNat 96) ?_
  simp only [cmdWidths, cmdValues, pack]
  ring

theorem nodeValues_fit {op : Nat} (h : op < 2 ^ 8) (f : NodeRec) : Fit nodeWidths (nodeValues op f) :=
  .cons f.lit.isLt <| .cons f.ex.isLt <| .cons f.ax.isLt <| .cons f.gather.isLt <| .cons (gateCode_lt _) <| .cons (litSelCode_lt _) <|
    .cons (destCode_lt _) <| .cons (destCode_lt _) <| .cons f.md.isLt <| .cons (tyCode_lt _) <| .cons h <| .cons (by decide) .nil

theorem seqValues_fit {op : Nat} (h : op < 2 ^ 8) (f : SeqRec) : Fit seqWidths (seqValues op f) :=
  .cons f.im.isLt <| .cons (by decide) <| .cons f.last.toNat_lt <| .cons (qsrcCode_lt _) <| .cons (qsrcCode_lt _) <| .cons (qsrcCode_lt _) <|
    .cons (qdstCode_lt _) <| .cons f.md.isLt <| .cons (tyCode_lt _) <| .cons h <| .cons (by decide) .nil

theorem cmdValues_fit {op : Nat} (h : op < 2 ^ 8) (f : CmdRec) : Fit cmdWidths (cmdValues op f) :=
  .cons f.imm.isLt <| .cons f.ext.isLt <| .cons f.t.isLt <| .cons f.s.isLt <| .cons f.d.isLt <| .cons f.md.isLt <| .cons (tyCode_lt _) <|
    .cons h <| .cons (by decide) .nil

theorem nodeFields_eq_some_iff (r : Rec) (f : NodeRec) : nodeFields r = some f ↔
    destOfCode (bitField r 70 8) = some f.da ∧ destOfCode (bitField r 62 8) = some f.db ∧ gateOfCode (bitField r 57 3) = some f.pg ∧
    tyOfCode (bitField r 82 4) = f.ty ∧ BitVec.ofNat 4 (bitField r 78 4) = f.md ∧ litSelOfCode (bitField r 60 2) = f.ls ∧
    BitVec.ofNat 3 (bitField r 54 3) = f.gather ∧ BitVec.ofNat 6 (bitField r 48 6) = f.ax ∧ BitVec.ofNat 16 (bitField r 32 16) = f.ex ∧
    BitVec.ofNat 32 (bitField r 0 32) = f.lit := by
  obtain ⟨ty, md, da, db, ls, pg, gather, ax, ex, lit⟩ := f
  unfold nodeFields
  split
  next hda hdb hpg => simp only [hda, hdb, hpg, Option.some.injEq, NodeRec.mk.injEq]; tauto
  next hnone => exact ⟨nofun, fun ⟨hda, hdb, hpg, _⟩ => absurd hpg (hnone _ _ _ hda hdb)⟩

/-- A record is the N-form record of an opcode and fields when those are what its bits hold (R228). -/
theorem encodeNode_eq_iff {op : Nat} (h : op < 2 ^ 8) (f : NodeRec) (r : Rec) :
    encodeNode op f = r ↔ bitField r 94 2 = 0 ∧ bitField r 86 8 = op ∧ nodeFields r = some f := by
  rw [encodeNode_eq_pack, packed_eq_iff rfl (nodeValues_fit h f), nodeFields_eq_some_iff, destOfCode_eq_iff, destOfCode_eq_iff,
    gateOfCode_eq_iff (bitField_lt r _ _), tyOfCode_eq_iff (bitField_lt r _ _), ofNat_eq_iff (bitField_lt r _ _),
    litSelOfCode_eq_iff (bitField_lt r _ _), ofNat_eq_iff (bitField_lt r _ _), ofNat_eq_iff (bitField_lt r _ _),
    ofNat_eq_iff (bitField_lt r _ _), ofNat_eq_iff (bitField_lt r _ _)]
  simp only [nodeWidths, nodeValues, fieldsFrom, List.cons.injEq, and_true, Nat.reduceAdd]
  tauto

theorem seqFields_eq_some_iff (r : Rec) (f : SeqRec) : seqFields r = some f ↔
    qdstOfCode (bitField r 74 4) = some f.qd ∧ bitField r 32 29 = 0 ∧ tyOfCode (bitField r 82 4) = f.ty ∧
    BitVec.ofNat 4 (bitField r 78 4) = f.md ∧ qsrcOfCode (bitField r 70 4) = f.qa ∧ qsrcOfCode (bitField r 66 4) = f.qb ∧
    qsrcOfCode (bitField r 62 4) = f.qc ∧ (bitField r 61 1 == 1) = f.last ∧ BitVec.ofNat 32 (bitField r 0 32) = f.im := by
  obtain ⟨ty, md, qd, qa, qb, qc, last, im⟩ := f
  unfold seqFields
  split
  next hqd =>
    split
    next hzero => simp only [hqd, hzero, Option.some.injEq, SeqRec.mk.injEq]; tauto
    next hzero => exact ⟨nofun, fun ⟨_, h, _⟩ => absurd h hzero⟩
  next hnone => simp [hnone]

/-- A record is the Q-form record of an opcode and fields when those are what its bits hold, and the others are zero (R231). -/
theorem encodeSeq_eq_iff {op : Nat} (h : op < 2 ^ 8) (f : SeqRec) (r : Rec) :
    encodeSeq op f = r ↔ bitField r 94 2 = 1 ∧ bitField r 86 8 = op ∧ seqFields r = some f := by
  rw [encodeSeq_eq_pack, packed_eq_iff rfl (seqValues_fit h f), seqFields_eq_some_iff, qdstOfCode_eq_iff (bitField_lt r _ _),
    tyOfCode_eq_iff (bitField_lt r _ _), ofNat_eq_iff (bitField_lt r _ _), qsrcOfCode_eq_iff (bitField_lt r _ _),
    qsrcOfCode_eq_iff (bitField_lt r _ _), qsrcOfCode_eq_iff (bitField_lt r _ _), lastBit_eq_iff (bitField_lt r _ _),
    ofNat_eq_iff (bitField_lt r _ _)]
  simp only [seqWidths, seqValues, fieldsFrom, List.cons.injEq, and_true, Nat.reduceAdd]
  tauto

theorem cmdFields_eq_iff (r : Rec) (f : CmdRec) : cmdFields r = f ↔
    tyOfCode (bitField r 82 4) = f.ty ∧ BitVec.ofNat 4 (bitField r 78 4) = f.md ∧ BitVec.ofNat 5 (bitField r 73 5) = f.d ∧
    BitVec.ofNat 5 (bitField r 68 5) = f.s ∧ BitVec.ofNat 5 (bitField r 63 5) = f.t ∧ BitVec.ofNat 31 (bitField r 32 31) = f.ext ∧
    BitVec.ofNat 32 (bitField r 0 32) = f.imm := by
  rw [cmdFields, CmdRec.mk.injEq]

/-- A record is the C-form record of an opcode and fields when those are what its bits hold (R233). -/
theorem encodeCmd_eq_iff {op : Nat} (h : op < 2 ^ 8) (f : CmdRec) (r : Rec) :
    encodeCmd op f = r ↔ bitField r 94 2 = 2 ∧ bitField r 86 8 = op ∧ cmdFields r = f := by
  rw [encodeCmd_eq_pack, packed_eq_iff rfl (cmdValues_fit h f), cmdFields_eq_iff, tyOfCode_eq_iff (bitField_lt r _ _),
    ofNat_eq_iff (bitField_lt r _ _), ofNat_eq_iff (bitField_lt r _ _), ofNat_eq_iff (bitField_lt r _ _), ofNat_eq_iff (bitField_lt r _ _),
    ofNat_eq_iff (bitField_lt r _ _), ofNat_eq_iff (bitField_lt r _ _)]
  simp only [cmdWidths, cmdValues, fieldsFrom, List.cons.injEq, and_true, Nat.reduceAdd]
  tauto

/-! ### The opcode maps and the rules (R241 to R243) -/

theorem nodeRule_of_nodeOf {op : Nat} {f : NodeRec} {i : Instr} (h : nodeOf op f = some i) :
    op < 2 ^ 8 ∧ ∃ rule, nodeRule i = some (f, rule) ∧ rule.op = op := by
  unfold nodeOf at h
  split at h <;> (try split at h) <;> cases h <;> exact ⟨by decide, _, rfl, rfl⟩

theorem seqRule_of_seqOf {op : Nat} {i : Instr} (h : seqOf op = some i) : op < 2 ^ 8 ∧ ∃ rule, seqRule i = some rule ∧ rule.op = op := by
  unfold seqOf at h
  split at h <;> cases h <;> exact ⟨by decide, _, rfl, rfl⟩

theorem cmdRule_of_cmdOf {op : Nat} {f : CmdRec} {i : Instr} (h : cmdOf op f = some i) :
    op < 2 ^ 8 ∧ nodeRule i = none ∧ ∃ g rule, cmdRule i = some (g, rule) ∧ rule.op = op := by
  unfold cmdOf at h
  split at h <;> (try split at h) <;> cases h <;> exact ⟨by decide, rfl, _, _, rfl, rfl⟩

theorem keepsFields_iff {i : Instr} {g : CmdRec} {rule : CmdRule} (h : cmdRule i = some (g, rule)) (f : CmdRec) :
    keepsFields i f = true ↔ g = f := by
  simp [keepsFields, h]

/-! ### The decoder -/

theorem decode_eq_ok_iff (r : Rec) (d : Decoded) : decode r = .ok d ↔ decodeRaw r = .ok d ∧ d.wf = true := by
  unfold decode
  cases decodeRaw r with
  | error e => exact ⟨nofun, nofun⟩
  | ok d' =>
    by_cases hwf : d'.wf = true
    · simp only [hwf, if_true, Except.ok.injEq]
      exact ⟨fun h => ⟨h, h ▸ hwf⟩, And.left⟩
    · simp only [hwf, Bool.false_eq_true, if_false, reduceCtorEq, false_iff, Except.ok.injEq]
      exact fun ⟨h, hd⟩ => hwf (h ▸ hd)

theorem decodeRaw_node {r : Rec} {f : NodeRec} {i : Instr} (hform : bitField r 94 2 = 0) (hf : nodeFields r = some f)
    (hi : nodeOf (bitField r 86 8) f = some i) : decodeRaw r = .ok { instr := i } := by
  simp [decodeRaw, hform, hf, hi]

theorem decodeRaw_seq {r : Rec} {f : SeqRec} {i : Instr} (hform : bitField r 94 2 = 1) (hf : seqFields r = some f)
    (hi : seqOf (bitField r 86 8) = some i) : decodeRaw r = .ok { instr := i, seq := some f } := by
  simp [decodeRaw, hform, hf, hi]

theorem decodeRaw_cmd {r : Rec} {i : Instr} (hform : bitField r 94 2 = 2) (hi : cmdOf (bitField r 86 8) (cmdFields r) = some i)
    (hk : keepsFields i (cmdFields r) = true) : decodeRaw r = .ok { instr := i } := by
  simp [decodeRaw, hform, hi, hk]

/-- What a record that is not refused holds, by its form. -/
theorem decodeRaw_cases {r : Rec} {d : Decoded} (h : decodeRaw r = .ok d) :
    (∃ f i, bitField r 94 2 = 0 ∧ nodeFields r = some f ∧ nodeOf (bitField r 86 8) f = some i ∧ d = { instr := i }) ∨
    (∃ f i, bitField r 94 2 = 1 ∧ seqFields r = some f ∧ seqOf (bitField r 86 8) = some i ∧ d = { instr := i, seq := some f }) ∨
    ∃ i, bitField r 94 2 = 2 ∧ cmdOf (bitField r 86 8) (cmdFields r) = some i ∧ keepsFields i (cmdFields r) = true ∧ d = { instr := i } := by
  unfold decodeRaw at h
  dsimp only at h
  split at h
  next hform =>
    split at h
    · cases h
    next f hf =>
      split at h
      next i hi => cases h; exact .inl ⟨f, i, hform, hf, hi, rfl⟩
      · cases h
  next hform =>
    split at h
    · cases h
    next f hf =>
      split at h
      next i hi => cases h; exact .inr (.inl ⟨f, i, hform, hf, hi, rfl⟩)
      · cases h
  next hform =>
    split at h
    next i hi =>
      split at h
      next hk => cases h; exact .inr (.inr ⟨i, hform, hi, hk, rfl⟩)
      · cases h
    · cases h
  · cases h

/-! ### The encoder -/

theorem encode_node {i : Instr} {f : NodeRec} {rule : NodeRule} (h : nodeRule i = some (f, rule)) :
    encode { instr := i } = some (encodeNode rule.op f) := by
  simp [encode, h]

theorem encode_seq {i : Instr} {rule : SeqRule} (h : seqRule i = some rule) (f : SeqRec) :
    encode { instr := i, seq := some f } = some (encodeSeq rule.op f) := by
  simp [encode, h]

theorem encode_cmd {i : Instr} {f : CmdRec} {rule : CmdRule} (hn : nodeRule i = none) (h : cmdRule i = some (f, rule)) :
    encode { instr := i } = some (encodeCmd rule.op f) := by
  simp [encode, hn, h]

/-- What is well formed is a node's record, a sequence's record, or a command's. -/
theorem Decoded.wf_cases {d : Decoded} (h : d.wf = true) :
    (∃ i f rule, d = { instr := i } ∧ i.wf = true ∧ nodeRule i = some (f, rule)) ∨
    (∃ i f rule, d = { instr := i, seq := some f } ∧ seqRule i = some rule) ∨
    ∃ i f rule, d = { instr := i } ∧ i.wf = true ∧ nodeRule i = none ∧ cmdRule i = some (f, rule) := by
  obtain ⟨i, seq⟩ := d
  cases seq with
  | some f =>
    cases hs : seqRule i with
    | some rule => exact .inr (.inl ⟨i, f, rule, rfl, hs⟩)
    | none => simp [Decoded.wf, seqFieldsAdmit, hs] at h
  | none =>
    simp only [Decoded.wf, Bool.and_eq_true, Option.isNone_iff_eq_none] at h
    obtain ⟨hwf, hs⟩ := h
    cases hn : nodeRule i with
    | some p => exact .inl ⟨i, p.1, p.2, rfl, hwf, hn⟩
    | none =>
      cases hc : cmdRule i with
      | some p => exact .inr (.inr ⟨i, p.1, p.2, rfl, hwf, hn, hc⟩)
      | none => simp [Instr.wf, admits, hn, hs, hc] at hwf

/-- What is well formed is encoded, and decoded again. -/
theorem decode_of_encode {d : Decoded} (h : d.wf = true) : ∃ r, encode d = some r ∧ decode r = .ok d := by
  obtain ⟨i, f, rule, rfl, hwf, hn⟩ | ⟨i, f, rule, rfl, hs⟩ | ⟨i, f, rule, rfl, hwf, hn, hc⟩ := Decoded.wf_cases h
  · have hi : nodeOf rule.op f = some i := (Laws.OpcodeTable.rows_agree i).1 _ hn hwf
    obtain ⟨hform, hop, hf⟩ := (encodeNode_eq_iff (nodeRule_of_nodeOf hi).1 f _).mp rfl
    exact ⟨_, encode_node hn, (decode_eq_ok_iff _ _).mpr ⟨decodeRaw_node hform hf (by rw [hop, hi]), h⟩⟩
  · have hi : seqOf rule.op = some i := (Laws.OpcodeTable.rows_agree i).2.1 _ hs
    obtain ⟨hform, hop, hf⟩ := (encodeSeq_eq_iff (seqRule_of_seqOf hi).1 f _).mp rfl
    exact ⟨_, encode_seq hs f, (decode_eq_ok_iff _ _).mpr ⟨decodeRaw_seq hform hf (by rw [hop, hi]), h⟩⟩
  · have hi : cmdOf rule.op f = some i := (Laws.OpcodeTable.rows_agree i).2.2 _ hc hwf
    obtain ⟨hform, hop, hf⟩ := (encodeCmd_eq_iff (cmdRule_of_cmdOf hi).1 f _).mp rfl
    exact ⟨_, encode_cmd hn hc, (decode_eq_ok_iff _ _).mpr
      ⟨decodeRaw_cmd hform (by rw [hop, hf, hi]) ((keepsFields_iff hc _).mpr hf.symm), h⟩⟩

/-- A record that decodes is the record of what it holds. -/
theorem encode_of_decode {r : Rec} {d : Decoded} (h : decode r = .ok d) : encode d = some r := by
  obtain ⟨f, i, hform, hf, hi, rfl⟩ | ⟨f, i, hform, hf, hi, rfl⟩ | ⟨i, hform, hi, hk, rfl⟩ := decodeRaw_cases ((decode_eq_ok_iff r d).mp h).1
  · obtain ⟨hop, rule, hn, hrule⟩ := nodeRule_of_nodeOf hi
    rw [encode_node hn, hrule, (encodeNode_eq_iff hop f r).mpr ⟨hform, rfl, hf⟩]
  · obtain ⟨hop, rule, hs, hrule⟩ := seqRule_of_seqOf hi
    rw [encode_seq hs, hrule, (encodeSeq_eq_iff hop f r).mpr ⟨hform, rfl, hf⟩]
  · obtain ⟨hop, hn, g, rule, hc, hrule⟩ := cmdRule_of_cmdOf hi
    rw [encode_cmd hn hc, hrule, (encodeCmd_eq_iff hop g r).mpr ⟨hform, rfl, ((keepsFields_iff hc _).mp hk).symm⟩]

/-- Settles O56: a record and what it holds determine each other (`encodeNode_eq_iff` and its two companions), and the opcode maps and the
rows' rules agree (`Laws.OpcodeTable.rows_agree`). -/
theorem decodeEncode : Obligations.DecodeEncode :=
  ⟨fun _ => decode_of_encode, fun _ _ => encode_of_decode⟩

end Sys2Proof

/-! PROOFS. The sequencer's scalar commands and counters, and its system registers (R244 to R246, R303, R304, R306, R396). -/
namespace Sys2Proof.Machine
open Sys2Proof.Claims

variable {s : State} {r : Region} {f : CmdRec}

/-! ### Values of 64 bits as numbers (R236, R303) -/

theorem ofNat_self (v : BitVec 64) : BitVec.ofNat 64 v.toNat = v := by rw [BitVec.ofNat_toNat, BitVec.setWidth_eq]

theorem toNat_append_add {m n : Nat} (a : BitVec m) (b : BitVec n) : (a ++ b).toNat = a.toNat * 2 ^ n + b.toNat := by
  rw [BitVec.toNat_append, ← Nat.shiftLeft_add_eq_or_of_lt b.isLt, Nat.shiftLeft_eq]

theorem ofNat_unsigned (w : Nat) (z : Int) : BitVec.ofNat w (unsigned w z) = BitVec.ofInt w z := by
  apply BitVec.eq_of_toNat_eq
  rw [BitVec.toNat_ofNat, BitVec.toNat_ofInt, unsigned]
  exact Nat.mod_eq_of_lt (unsigned_lt _ _)

theorem ofNat_sub (a b : BitVec 64) : BitVec.ofNat 64 (a.toNat + (2 ^ 64 - b.toNat)) = a - b := by
  apply BitVec.eq_of_toNat_eq
  rw [BitVec.toNat_ofNat, BitVec.toNat_sub, Nat.add_comm]

theorem ofNat_shl (v : BitVec 64) (n : Nat) : BitVec.ofNat 64 (v.toNat * 2 ^ n) = v <<< n := by
  apply BitVec.eq_of_toNat_eq
  rw [BitVec.toNat_ofNat, BitVec.toNat_shiftLeft, Nat.shiftLeft_eq]

theorem ofNat_shr (v : BitVec 64) (n : Nat) : BitVec.ofNat 64 (v.toNat / 2 ^ n) = v >>> n := by
  rw [← Nat.shiftRight_eq_div_pow, ← BitVec.toNat_ushiftRight, ofNat_self]

/-- The quotient of a signed value by a power of two, rounded down, is its arithmetic shift. -/
theorem ofNat_sar (v : BitVec 64) (n : Nat) : BitVec.ofNat 64 (unsigned 64 (signed 64 v.toNat / (2 ^ n : Nat))) = v.sshiftRight n := by
  rw [signed_toInt 64 _ (by decide), ofNat_self, ofNat_unsigned, BitVec.sshiftRight, Int.shiftRight_eq_div_pow]

theorem ofNat_lih (hi : BitVec 32) (v : BitVec 64) : BitVec.ofNat 64 (hi.toNat * 2 ^ 32 + v.toNat % 2 ^ 32) = hi ++ v.setWidth 32 := by
  rw [← ofNat_self (hi ++ v.setWidth 32), toNat_append_add, BitVec.toNat_setWidth]

theorem ofNat_low9 (v : BitVec 64) : BitVec.ofNat 64 (v.toNat % 512) = v &&& 0x1FF := by
  rw [← Nat.and_two_pow_sub_one_eq_mod v.toNat 9, ← ofNat_self (v &&& 0x1FF), BitVec.toNat_and]
  rfl

/-- The one of two values that a comparison chooses. -/
theorem ofNat_choose (p : Prop) [Decidable p] (a b : BitVec 64) : BitVec.ofNat 64 (if p then a.toNat else b.toNat) = if p then a else b := by
  rw [← apply_ite BitVec.toNat, ofNat_self]

theorem seqInt_eq (t : Ty) (v : BitVec 64) : seqInt t v.toNat = seqReads t v := by
  unfold seqInt seqReads
  split
  · rw [signed_toInt 64 _ (by decide), ofNat_self]
  · rfl

/-- The sign of a difference has the condition that the two integers have. -/
theorem condHolds_sub (a b : Int) : ∀ md, condHolds md (some (a - b)) = holds md a b
  | 0 => by simp [condHolds, holds, Bool.beq_eq_decide_eq, sub_eq_zero]
  | 1 => by simp [condHolds, holds, bne, Bool.beq_eq_decide_eq, sub_eq_zero]
  | 2 => decide_eq_decide.mpr sub_neg
  | 3 => decide_eq_decide.mpr sub_nonpos
  | 4 => decide_eq_decide.mpr sub_pos
  | 5 => decide_eq_decide.mpr sub_nonneg
  | 6 | 7 | _ + 8 => rfl

/-! ### Commands that write a value to aD (R303) -/

theorem setReg_done (d : BitVec 5) (n : Nat) (s : State) : Reaches (do setReg d n; pure Next.done) s .done (setA s d (BitVec.ofNat 64 n)) :=
  (setReg_reaches d n s).bind (Reaches.pure _ _)

/-- A command that every sequencer has and that ends with its write to aD. -/
theorem write_next {body : M Next} {n : Nat} {v : BitVec 64} (hi : Issues s) (hb : Reaches body s .done (setA s f.d (BitVec.ofNat 64 n)))
    (hv : BitVec.ofNat 64 n = v) : runCommand .anywhere true body s = .next (goOn (setA s f.d v)) :=
  hv ▸ command_any (n := .done) hi hb (setA_quiet _ _ hi.quiet)

/-- A command that computes writes what it computes of aS and B. -/
theorem alu_next {g : Nat → Nat → Nat} {v : BitVec 64} (hi : Issues s) (hg : BitVec.ofNat 64 (g (areg s f.s).toNat (opB s f).toNat) = v) :
    runCommand .anywhere true (alu f g) s = .next (goOn (setA s f.d v)) :=
  write_next hi ((reg_reaches f.s s).bind ((operandB_reaches f s).bind (setReg_done _ _ s))) hg

theorem execNop_next (hi : Issues s) : execNop s = .next (goOn s) :=
  command_any (n := .done) hi (Reaches.pure _ s) hi.quiet

theorem execLi_next (hi : Issues s) : execLi f s = .next (goOn (setA s f.d (f.imm.signExtend 64))) :=
  write_next hi (setReg_done _ _ s) (ofNat_self _)

theorem execLih_next (hi : Issues s) : execLih f s = .next (goOn (setA s f.d (f.imm ++ (areg s f.d).setWidth 32))) :=
  write_next hi ((reg_reaches f.d s).bind (setReg_done _ _ s)) (ofNat_lih _ _)

theorem execMov_next (hi : Issues s) : execMov f s = .next (goOn (setA s f.d (areg s f.s))) :=
  write_next hi ((reg_reaches f.s s).bind (setReg_done _ _ s)) (ofNat_self _)

theorem execCmpCmd_next (hi : Issues s) : execCmpCmd f s =
    .next (goOn (setA s f.d (if holds f.md.toNat (seqReads f.ty (areg s f.s)) (seqReads f.ty (opB s f)) then 1 else 0))) :=
  alu_next hi (by rw [condHolds_sub, seqInt_eq, seqInt_eq]; exact ofNat_choose _ 1 0)

theorem execMinCmd_next (hi : Issues s) : execMinCmd f s =
    .next (goOn (setA s f.d (if seqReads f.ty (areg s f.s) ≤ seqReads f.ty (opB s f) then areg s f.s else opB s f))) :=
  alu_next hi (by rw [seqInt_eq, seqInt_eq, ofNat_choose])

theorem execMaxCmd_next (hi : Issues s) : execMaxCmd f s =
    .next (goOn (setA s f.d (if seqReads f.ty (areg s f.s) ≤ seqReads f.ty (opB s f) then opB s f else areg s f.s))) :=
  alu_next hi (by rw [seqInt_eq, seqInt_eq, ofNat_choose])

theorem execTime_next (hi : Issues s) : execTime f s = .next (goOn (setA s f.d (BitVec.ofNat 64 s.timeNs))) :=
  write_next hi ((Reaches.get s).bind (setReg_done _ _ s)) rfl

/-- Each scalar command writes its value. -/
theorem scalarResult_next {i : Instr} {v : CmdRec → State → BitVec 64} (h : scalarResult i = some (f, v)) (hi : Issues s) :
    exec i s = .next (goOn (setA s f.d (v f s))) := by
  unfold scalarResult at h
  split at h <;> cases h
  · exact execLi_next hi
  · exact execLih_next hi
  · exact execMov_next hi
  · exact alu_next hi (by rw [BitVec.ofNat_add, ofNat_self, ofNat_self])
  · exact alu_next hi (ofNat_sub _ _)
  · exact alu_next hi (by rw [BitVec.ofNat_mul, ofNat_self, ofNat_self])
  · exact alu_next hi (by rw [← BitVec.toNat_and, ofNat_self])
  · exact alu_next hi (by rw [← BitVec.toNat_or, ofNat_self])
  · exact alu_next hi (by rw [← BitVec.toNat_xor, ofNat_self])
  · exact alu_next hi (ofNat_shl _ _)
  · exact alu_next hi (ofNat_shr _ _)
  · exact alu_next hi (ofNat_sar _ _)
  · exact execCmpCmd_next hi
  · exact execMinCmd_next hi
  · exact execMaxCmd_next hi
  · exact execTime_next hi

/-! ### Counters (R306) -/

/-- A region's command that ends with its write to aD. -/
theorem regionWrite_next {body : M Next} {u : State} {n : Nat} (hi : RegionIssues s r true) (hu : trapWaiting u = none)
    (hb : Reaches body s .done (setA u f.d (BitVec.ofNat 64 n))) :
    runCommand .anywhere true body s = .next (goOn (setA u f.d (BitVec.ofNat 64 n))) :=
  command_region (n := .done) hi (by decide) hb (setA_quiet _ _ hu)

theorem execTimeCyc_next (hi : RegionIssues s r true) : execTimeCyc f s =
    .next (goOn (setA { s with tick := s.tick + 1 } f.d (BitVec.ofNat 64 (Config.freeReading s.tick)))) :=
  have ⟨_, _, hq, _⟩ := hi
  regionWrite_next hi hq ((fresh_reaches s).bind (setReg_done _ _ _))

theorem execPerf_next (hi : RegionIssues s r true) : execPerf f s =
    .next (goOn (setA { s with tick := s.tick + 1 } f.d (BitVec.ofNat 64 (min (2 ^ 64 - 1)
      (if f.imm.toNat = 0 ∨ f.imm.toNat = 5 then Config.freeReading s.tick else (r.sys.perf[f.imm.toNat]?).getD 0))))) := by
  have ⟨_, hr, hq, _⟩ := hi
  refine regionWrite_next hi hq ((Reaches.get s).bind ((fresh_reaches s).bind ?_))
  rw [hr, Nat.min_comm]
  exact setReg_done _ _ _

/-- Settles O34: a scalar command ends with its write to aD (`write_next`), and the number that it writes is the value of 64 bits. -/
theorem scalarCommandsComplete : Obligations.ScalarCommandsComplete :=
  ⟨fun _ _ _ _ h hi => scalarResult_next h hi, fun _ hi => execNop_next hi, fun _ _ _ hi => ⟨execTimeCyc_next hi, execPerf_next hi⟩⟩

/-! ### System registers (R244 to R246) -/

/-- A system register is one of the region's own scope, or one of its hall, wing or function. -/
theorem systemRegister_eq (s : State) (r : Region) (n : Nat) :
    (regionRegister s r n).or (outerRegister s { hall := r.hall, vf := r.vf, ctx := r.ctx, wing := r.wing } n) = systemRegister s r n := by
  unfold systemRegister
  split
  case h_8 | h_9 | h_10 | h_12 | h_13 =>
    refine congrArg some ?_
    split
    next h => rw [h, Option.map_some, Option.getD_some]
    next h => rw [h, Option.map_none, Option.getD_none]
  case h_16 => simp [regionRegister, outerRegister, *]
  all_goals rfl

theorem execMfs_next {v : Nat} (hi : RegionIssues s r true) (hv : systemRegister s r f.imm.toNat = some v) :
    execMfs f s = .next (goOn (setA s f.d (BitVec.ofNat 64 v))) := by
  have ⟨_, hr, hq, _⟩ := hi
  refine regionWrite_next hi hq ((Reaches.get s).bind ((home_reaches hr).bind ?_))
  rw [← systemRegister_eq, Option.or_eq_some_iff] at hv
  obtain hv | ⟨hnone, hv⟩ := hv
  · simp only [hr, hv]
    exact setReg_done _ _ _
  · simp only [hr, hnone, hv]
    exact setReg_done _ _ _

/-- The disposition field that a write to TRAPEN leaves (R396). -/
def dispositionAfter (old new : BitVec 64) (i : Nat) : BitVec 2 :=
  if new.extractLsb' (2 * i) 2 = 3#2 then old.extractLsb' (2 * i) 2 else new.extractLsb' (2 * i) 2

theorem dispField_eq (old new : BitVec 64) (i : Nat) : dispField old.toNat new.toNat i = (dispositionAfter old new i).toNat := by
  rw [dispField, dispositionAfter, bits_toNat, bits_toNat, apply_ite BitVec.toNat]
  exact if_congr (BitVec.toNat_inj (y := 3#2)) rfl rfl

theorem trapEnAfter_eq (old new : BitVec 64) : trapEnAfter old new = new.extractLsb' 32 32 ++ 0#22 ++ dispositionAfter old new 4 ++
    dispositionAfter old new 3 ++ dispositionAfter old new 2 ++ dispositionAfter old new 1 ++ dispositionAfter old new 0 := rfl

theorem ofNat_trapEnWrite (old new : BitVec 64) : BitVec.ofNat 64 (trapEnWrite old.toNat new.toNat) = trapEnAfter old new := by
  have hhigh : new.toNat / 2 ^ 32 % 2 ^ 32 = (new.extractLsb' 32 32).toNat := bits_toNat new 32 32
  rw [← ofNat_self (trapEnAfter old new), trapEnAfter_eq, trapEnWrite, hhigh]
  congr 1
  simp only [toNat_append_add, dispField_eq, List.range, List.range.loop, List.map_cons, List.map_nil, List.foldl_cons, List.foldl_nil,
    BitVec.toNat_ofNat]
  omega

theorem regionWrite_eq (y : RegionRegs) (n : Nat) (v : BitVec 64) : regionWrite y n v.toNat = regionRegsAfter y n v := by
  unfold regionRegsAfter
  split
  case h_1 | h_2 => exact if_congr (BitVec.toNat_inj (y := 0)) rfl rfl
  case h_4 => exact congrArg (fun w => { y with trapEn := w }) (ofNat_trapEnWrite _ _)
  case h_5 => exact congrArg (fun w => { y with trapVec := w }) (ofNat_low9 v)
  case h_6 => simp [regionWrite, *]
  rfl

/-- MTS of a register of the region's own scope. -/
theorem execMts_region (hi : RegionIssues s r true) (hle : f.imm.toNat ≤ 0xB) (hne : f.imm.toNat ≠ 2) :
    execMts f s = .next (goOn (onRegion s.who (fun r => { r with sys := regionRegsAfter r.sys f.imm.toNat (areg s f.s) }) s)) := by
  have ⟨_, hr, hq, _⟩ := hi
  have hscope : regionScope f.imm.toNat = true := by simp [regionScope, hle, hne]
  refine command_region (n := .done) hi (by decide) ((Reaches.get s).bind ((reg_reaches f.s s).bind ((home_reaches hr).bind ?_)))
    (onRegion_quiet _ (fun _ => rfl) (fun _ => rfl) (fun _ => rfl) (fun _ => rfl) hq)
  simp only [hscope, if_true, regionWrite_eq]
  exact (onRegion_reaches _ _ s).bind (Reaches.pure _ _)

/-- MTS of FREQ is ignored. -/
theorem execMts_freq (hi : RegionIssues s r true) (hn : f.imm.toNat = 0x13) : execMts f s = .next (goOn s) := by
  have ⟨_, hr, hq, _⟩ := hi
  refine command_region (n := .done) hi (by decide) ((Reaches.get s).bind ((reg_reaches f.s s).bind ((home_reaches hr).bind ?_))) hq
  simp only [hn, if_true]
  exact Reaches.pure _ _

/-- Settles O35: MFS finds every system register in one of the model's two lists (`systemRegister_eq`), and MTS leaves the fields that the
rules give (`regionWrite_eq`). -/
theorem systemRegistersComplete : Obligations.SystemRegistersComplete :=
  fun _ _ _ hi => ⟨fun _ hv => execMfs_next hi hv, execMts_region hi, execMts_freq hi⟩

end Sys2Proof.Machine

/-! PROOFS. What a step runs (R228 to R230), and the words of the specification's examples (R233). -/
namespace Sys2Proof.Machine
open Sys2Proof.Claims

variable {s u : State}

/-- A step makes the move that comes next. -/
theorem step_of_moving {m : Turn} (h : moving s m u) : step s = stepTurn m u := by
  obtain ⟨rest, hnext, hpower, rfl⟩ := h
  rw [step, hnext, hpower]

theorem stepFire_of_decode {r : Rec} {d : Decoded} (hr : nodeRecord u = some r) (hd : decode r = .ok d) : stepFire u = exec d.instr u := by
  simp only [stepFire, latchedInstr, hr, hd]

theorem stepSeq_of_decode {k : Nat} {r : Rec} {i : Instr} {f : SeqRec} (hr : seqRecord u k = some r)
    (hd : decode r = .ok { instr := i, seq := some f }) : stepSeq k u = exec i { u with seqNow := some (k, f) } := by
  simp only [stepSeq, hr, hd]

theorem stepRecord_of_decode {r : Rec} {i : Instr} (hform : recForm r = 2) (hd : decode r = .ok { instr := i }) :
    stepRecord r true u = exec i u := by
  simp only [stepRecord, hd, hform, beq_self_eq_true, Bool.and_self, if_true]

theorem stepTurn_cmd {rid : Nat} {r : Region} {c : Rec} {placed : Bool} (hr : kget u.regions rid = some r) (hfree : sequencerFree r = true)
    (hc : commandAt r = some (c, placed)) : stepTurn (.cmd rid) u = stepRecord c placed { u with who := rid } := by
  simp only [stepTurn, hr, hfree, hc, if_true]

theorem stepTurn_issue {hall cell : Nat} {v : State} (h : exec .cellIssue { u with input := .pair hall cell } = .next v) :
    stepTurn (.issue hall cell) u = if v.issue.isSome then stepFire v else .next v := by
  simp only [stepTurn, h]

theorem stepTurn_event {i : Instr} (hi : isEvent i = true) (x : Input) : stepTurn (.event i x) u = exec i { u with input := x } := by
  simp only [stepTurn, hi, if_true]

/-- Settles O58: a step is the move that comes next (`step_of_moving`), and each kind of move runs what it has decoded. -/
theorem stepRunsDecoded : Obligations.StepRunsDecoded := by
  refine ⟨?fire, ?sequence, ?command, ?service, ?issue, ?event⟩
  case fire =>
    intro s u r d hm hr hd
    rw [step_of_moving hm, stepTurn, stepFire_of_decode hr hd]
  case sequence =>
    intro s u k r i f hm hr hd
    rw [step_of_moving hm, stepTurn, stepSeq_of_decode hr hd]
  case command =>
    intro s u rid r c i hm hr hfree hc hform hd
    rw [step_of_moving hm, stepTurn_cmd hr hfree hc, stepRecord_of_decode hform hd]
  case service =>
    intro s u i hm hform hd
    rw [step_of_moving hm, stepTurn, stepRecord_of_decode hform hd]
  case issue =>
    intro s u hall cell v hm hv
    rw [step_of_moving hm, stepTurn_issue hv]
  case event =>
    intro s u i x hm hi
    rw [step_of_moving hm, stepTurn_event hi]

/-- Settles O57: the decoder, run on each word. -/
theorem decodesWords : Obligations.DecodesWords := ⟨rfl, rfl, rfl, rfl, rfl, rfl, rfl, rfl, rfl, rfl, rfl⟩

end Sys2Proof.Machine

/-! PROOFS. The integer nodes and records that raise no condition, as operations on bit vectors of their type's width, and the predicate nodes
(R236, R263, R264, R266, R267, R276). -/
namespace Sys2Proof.Machine
open Sys2Proof.Claims

variable {s : State} {r : Region} {f : NodeRec} {x : Issue} {i : Instr} {t : Ty}

/-! ### Bits of a type -/

theorem lowBits_eq (t : Ty) (v : BitVec 32) : lowBits t v = (narrow t v).toNat := (BitVec.toNat_setWidth _ _).symm

/-- Bits of the type's width are written as they are. -/
theorem ofBits_toNat (ht : isInt t = true) (b : BitVec (tyWidth t)) : ofBits t b.toNat = widen t b := by
  rw [ofBits, ofInt_eq t _ ht, wraps, BitVec.ofInt_natCast, BitVec.ofNat_toNat, BitVec.setWidth_eq]

/-- An operand of a type is below 2^32. -/
theorem narrow_lt (ht : isInt t = true) (v : BitVec 32) : (narrow t v).toNat < 2 ^ 32 :=
  (narrow t v).isLt.trans_le (Nat.pow_le_pow_right (by decide) (tyWidth_le t ht))

/-- Shifting a number below 2^64 to the right by more than 64 leaves what shifting it by 64 does. -/
theorem div_two_pow_min {a : Nat} (ha : a < 2 ^ 64) (n : Nat) : a / 2 ^ min n 64 = a / 2 ^ n := by
  rcases Nat.le_total n 64 with h | h
  · rw [min_eq_left h]
  · rw [min_eq_right h, Nat.div_eq_of_lt ha, Nat.div_eq_of_lt (ha.trans_le (Nat.pow_le_pow_right (by decide) h))]

/-- Shifting an integer of 64 bits and a sign by more than 64 leaves what shifting it by 64 does, too. -/
theorem ediv_two_pow_min {a : Int} (hlo : -2 ^ 64 ≤ a) (hhi : a < 2 ^ 64) (n : Nat) :
    a / ((2 ^ min n 64 : Nat) : Int) = a / ((2 ^ n : Nat) : Int) := by
  rcases lt_or_ge a 0 with h | h
  · obtain ⟨b, rfl⟩ := Int.eq_negSucc_of_lt_zero h
    have hb : b < 2 ^ 64 := by omega
    have hdiv : ∀ m : Nat, Int.negSucc b / ((2 ^ m : Nat) : Int) = -(((b / 2 ^ m : Nat) : Int) + 1) := fun m =>
      Int.negSucc_ediv b (by positivity)
    rw [hdiv, hdiv, div_two_pow_min hb]
  · obtain ⟨b, rfl⟩ := Int.eq_ofNat_of_zero_le h
    rw [← Int.natCast_ediv, ← Int.natCast_ediv, div_two_pow_min (by omega)]

/-! ### Shifts and counts of bits (R266, R267) -/

theorem shiftRight_eq (ht : isInt t = true) (v : BitVec 32) (n : Nat) : lowBits t v / 2 ^ min n 64 = (narrow t v >>> n).toNat := by
  rw [lowBits_eq, div_two_pow_min ((narrow_lt ht v).trans (by decide)), BitVec.toNat_ushiftRight, Nat.shiftRight_eq_div_pow]

theorem sshiftRight_eq (ht : isInt t = true) (v : BitVec 32) (n : Nat) :
    BitVec.ofInt (tyWidth t) (signed (tyWidth t) (lowBits t v) / ((2 ^ min n 64 : Nat) : Int)) = (narrow t v).sshiftRight n := by
  have hlow : signed (tyWidth t) (lowBits t v) = (narrow t v).toInt := by
    rw [signed_toInt _ _ (tyWidth_pos t ht), lowBits_eq, BitVec.ofNat_toNat, BitVec.setWidth_eq]
  have hlo := BitVec.le_toInt (narrow t v)
  have hhi := BitVec.toInt_lt (x := narrow t v)
  have hpow : (2 : Int) ^ (tyWidth t - 1) ≤ 2 ^ 64 := pow_le_pow_right₀ (by decide) (by have := tyWidth_le t ht; omega)
  rw [hlow, ediv_two_pow_min (by omega) (by omega), ← Int.shiftRight_eq_div_pow, ← BitVec.toInt_sshiftRight, BitVec.ofInt_toInt]

theorem rotateLeft_eq (ht : isInt t = true) (v : BitVec 32) (n : Nat) :
    lowBits t v * 2 ^ (n % tyWidth t) % 2 ^ tyWidth t + lowBits t v / 2 ^ (tyWidth t - n % tyWidth t) = ((narrow t v).rotateLeft n).toNat := by
  have hw := tyWidth_pos t ht
  generalize hk : n % tyWidth t = k
  have hkw : k < tyWidth t := hk ▸ Nat.mod_lt n hw
  have hsplit : 2 ^ tyWidth t = 2 ^ (tyWidth t - k) * 2 ^ k := by rw [← pow_add, Nat.sub_add_cancel hkw.le]
  have hhigh : lowBits t v / 2 ^ (tyWidth t - k) < 2 ^ k :=
    Nat.div_lt_of_lt_mul (by rw [← hsplit, lowBits_eq]; exact (narrow t v).isLt)
  rw [BitVec.toNat_rotateLeft, hk, lowBits_eq, Nat.shiftLeft_eq, Nat.shiftRight_eq_div_pow, hsplit, Nat.mul_mod_mul_right, mul_comm _ (2 ^ k)]
  exact Nat.two_pow_add_eq_or_of_lt (lowBits_eq t v ▸ hhigh) _

/-- So many of the first `w` numbers are below `k`. -/
theorem countP_range_lt (w k : Nat) : (List.range w).countP (fun i => decide (i < k)) = min w k := by
  induction w with
  | zero => simp
  | succ w ih =>
    rw [List.range_succ, List.countP_append, ih, List.countP_singleton]
    split <;> simp only [decide_eq_true_eq] at * <;> omega

/-- The leading zeros of a number other than 0 are counted from its highest one. -/
theorem leadingZeros_eq {w : Nat} (b : BitVec w) : leadingZeros b = if b.toNat = 0 then w else w - 1 - b.toNat.log2 := by
  unfold leadingZeros
  split
  next h => simp [h]
  next h =>
    have hlt : b.toNat.log2 < w := (Nat.log2_lt h).mpr b.isLt
    have hiff : ∀ i ∈ List.range w, b.toNat < 2 ^ (w - 1 - i) ↔ i < w - 1 - b.toNat.log2 := fun i _ => by
      rw [← Nat.log2_lt h]
      omega
    calc (List.range w).countP (fun i => decide (b.toNat < 2 ^ (w - 1 - i)))
      _ = (List.range w).countP (fun i => decide (i < w - 1 - b.toNat.log2)) := List.countP_congr fun i hi => by simpa using hiff i hi
      _ = w - 1 - b.toNat.log2 := by rw [countP_range_lt]; omega

theorem clz_eq (v : BitVec 32) :
    (if lowBits t v = 0 then tyWidth t else tyWidth t - 1 - Nat.log2 (lowBits t v)) = leadingZeros (narrow t v) := by
  rw [leadingZeros_eq, lowBits_eq]

theorem popc_eq (v : BitVec 32) :
    ((List.range (tyWidth t)).filter (fun i => bits (lowBits t v) i 1 == 1)).length = ones (narrow t v) := by
  simp only [← List.countP_eq_length_filter, lowBits_eq, bits_one, ones]

/-! ### The operation that a node shares with its record -/

/-- The operation of each node of `bitResult`. -/
def bitOperation : Instr → Option (NodeRec × (Ty → Nat → Ops → BitVec 32 × Conds))
  | .mulh f => some (f, mulhOp)
  | .min f => some (f, minOp)
  | .max f => some (f, maxOp)
  | .and f => some (f, andOp)
  | .or f => some (f, orOp)
  | .xor f => some (f, xorOp)
  | .not f => some (f, notOp)
  | .shr f => some (f, shrOp)
  | .sar f => some (f, sarOp)
  | .rotl f => some (f, rotlOp)
  | .clz f => some (f, clzOp)
  | .popc f => some (f, popcOp)
  | .cmp f => some (f, cmpOp)
  | _ => none

/-- Each such node runs its operation. -/
theorem exec_bitOperation {op : Ty → Nat → Ops → BitVec 32 × Conds} (hi : bitOperation i = some (f, op)) (s : State) :
    exec i s = runNode (pureNode f (op f.ty)) s := by
  unfold bitOperation at hi
  split at hi
  all_goals cases hi
  all_goals rfl

/-- The record of a sequence runs the operation of its node. -/
theorem exec_bitRecord {c : NodeRec → Instr} {g : NodeRec} {op : Ty → Nat → Ops → BitVec 32 × Conds} (hi : bitRecord i = some c)
    (hop : bitOperation (c g) = some (g, op)) (s : State) : exec i s = runSeq (pureSeq (fun f => op f.ty)) s := by
  unfold bitRecord at hi
  split at hi
  all_goals cases hi
  all_goals cases hop
  all_goals rfl

/-- The operation of each such node gives its result, and raises no condition. -/
theorem bitOperation_result {v : Ty → Nat → (Nat → BitVec 32) → BitVec 32} (hi : bitResult i = some (f, v)) :
    ∃ op, bitOperation i = some (f, op) ∧ ∀ t, isInt t = true → ∀ md a, op t md a = (v t md a, {}) := by
  unfold bitResult at hi
  split at hi <;> cases hi
  case h_1 =>
    refine ⟨mulhOp, rfl, fun t ht md a => ?_⟩
    simp only [mulhOp, ofInt_eq t _ ht, intOf_eq t _ ht, Nat.cast_pow, Nat.cast_ofNat]
  case h_2 => exact ⟨minOp, rfl, fun t ht md a => by simp only [minOp, ofInt_eq t _ ht, intOf_eq t _ ht]⟩
  case h_3 => exact ⟨maxOp, rfl, fun t ht md a => by simp only [maxOp, ofInt_eq t _ ht, intOf_eq t _ ht]⟩
  case h_4 => exact ⟨andOp, rfl, fun t ht md a => by rw [andOp, lowBits_eq, lowBits_eq, ← BitVec.toNat_and, ofBits_toNat ht]⟩
  case h_5 => exact ⟨orOp, rfl, fun t ht md a => by rw [orOp, lowBits_eq, lowBits_eq, ← BitVec.toNat_or, ofBits_toNat ht]⟩
  case h_6 => exact ⟨xorOp, rfl, fun t ht md a => by rw [xorOp, lowBits_eq, lowBits_eq, ← BitVec.toNat_xor, ofBits_toNat ht]⟩
  case h_7 => exact ⟨notOp, rfl, fun t ht md a => by rw [notOp, lowBits_eq, ← BitVec.toNat_not, ofBits_toNat ht]⟩
  case h_8 => exact ⟨shrOp, rfl, fun t ht md a => by rw [shrOp, shiftRight_eq ht, ofBits_toNat ht]⟩
  case h_9 => exact ⟨sarOp, rfl, fun t ht md a => by rw [sarOp, ofInt_eq t _ ht, wraps, sshiftRight_eq ht]⟩
  case h_10 => exact ⟨rotlOp, rfl, fun t ht md a => by simp only [rotlOp, rotateLeft_eq ht, ofBits_toNat ht]⟩
  case h_11 => exact ⟨clzOp, rfl, fun t ht md a => by simp only [clzOp, clz_eq, ofInt_eq t _ ht]⟩
  case h_12 => exact ⟨popcOp, rfl, fun t ht md a => by simp only [popcOp, popc_eq, ofInt_eq t _ ht]⟩
  case h_13 => exact ⟨cmpOp, rfl, fun t ht md a => by simp only [cmpOp, condHolds_sub, intOf_eq t _ ht]⟩

/-- No condition stands (R396). -/
theorem fate_none (en : BitVec 64) : fate en {} = .stands := rfl

/-- Settles O3: a node and its record run one operation, which gives the result and raises no condition. -/
theorem bitNodesComplete : Obligations.BitNodesComplete := by
  constructor
  · intro i f v s x r hi ht hf
    obtain ⟨op, hop, hv⟩ := bitOperation_result hi
    rw [exec_bitOperation hop, funext fun md => funext (hv f.ty ht md)]
    exact pureNode_next hf fun _ _ _ => fate_none _
  · intro i c g v s r n q f lanes qs hi hv ht hr
    obtain ⟨op, hop, hv⟩ := bitOperation_result hv
    rw [exec_bitRecord hi hop, pureSeq_next hr]
    · simp only [hv (rowRec q f).ty ht]
      rfl
    · intro l _ _
      simp only [hv (rowRec q f).ty ht]
      exact fate_none _

/-! ### The predicate nodes (R276) -/

theorem truth_eq (v : BitVec 32) : truth v = (v.toNat % 2 == 1) := by
  rw [truth, ← bits_one, bits, Nat.pow_zero, Nat.div_one, Nat.pow_one]

/-- Each predicate node runs the operation of its result. -/
theorem exec_predicateResult {v : (Nat → BitVec 32) → Bool} (hi : predicateResult i = some (f, v)) (s : State) :
    exec i s = runNode (pureNode f (fun _ a => (pred (v a), {}))) s := by
  have hop : ∀ g : Ops → BitVec 32, exec i s = runNode (pureNode f (fun _ a => (g a, {}))) s → (∀ a, g a = pred (v a)) →
      exec i s = runNode (pureNode f (fun _ a => (pred (v a), {}))) s := fun g he hg => by
    rw [he, funext hg]
  unfold predicateResult at hi
  split at hi <;> cases hi
  case h_1 =>
    refine hop pnotOp rfl fun a => ?_
    rcases Nat.mod_two_eq_zero_or_one (a 0).toNat with h | h <;> simp [pnotOp, truth_eq, h]
  case h_2 => exact hop pandOp rfl fun a => by simp only [pandOp, truth_eq]
  case h_3 => exact hop porOp rfl fun a => by simp only [porOp, truth_eq]
  case h_4 =>
    refine hop pxorOp rfl fun a => ?_
    rcases Nat.mod_two_eq_zero_or_one (a 0).toNat with h | h <;> rcases Nat.mod_two_eq_zero_or_one (a 1).toNat with h' | h' <;>
      simp [pxorOp, truth_eq, h, h']

/-- Settles O5: each node runs the operation of its result, which raises no condition. -/
theorem predicateNodesComplete : Obligations.PredicateNodesComplete := by
  intro i f v s x r hi hf
  rw [exec_predicateResult hi]
  exact pureNode_next hf fun _ _ _ => fate_none _

end Sys2Proof.Machine

/-! PROOFS. The nodes of integer quotients (R265) and of bit fields (R268). -/
namespace Sys2Proof.Machine
open Sys2Proof.Claims

variable {s : State} {r : Region} {f : NodeRec} {x : Issue} {t : Ty} {en : BitVec 64}

/-! ### Quotients and remainders (R265) -/

theorem reads_ge_intMin (t : Ty) (v : BitVec 32) : intMin t ≤ reads t v := by
  unfold intMin reads
  split
  · have := BitVec.le_toInt (narrow t v)
    push_cast
    exact this
  · exact Int.natCast_nonneg _

theorem reads_nonneg (h : isSigned t = false) (v : BitVec 32) : 0 ≤ reads t v := by
  rw [reads, h]
  exact Int.natCast_nonneg _

/-- The quotient by 0 is in its type's range, and has all bits set (R265). -/
theorem quotient_zero (ht : isInt t = true) (a : Int) :
    (intMin t ≤ quotient t a 0 ∧ quotient t a 0 ≤ intMax t) ∧ wraps t (quotient t a 0) = wraps t ((2 ^ tyWidth t : Nat) - 1) := by
  rw [quotient, if_pos rfl]
  cases t
  case i32 | n32 | i16 | n16 | i8 | n8 => exact ⟨⟨by decide, by decide⟩, by decide⟩
  all_goals cases ht

/-- A result in its type's range is written as it is, clamped or not (R147). -/
theorem result_inRange {z : Int} (md : Nat) (hlo : intMin t ≤ z) (hhi : z ≤ intMax t) : result t md z = wraps t z := by
  rw [result, min_eq_right hhi, max_eq_right hlo, ite_self]

/-- A quotient is no farther from 0 than what is divided, so it is above the type's least value. -/
theorem quotient_ge_intMin (ht : isInt t = true) (v w : BitVec 32) : intMin t ≤ quotient t (reads t v) (reads t w) := by
  by_cases hw : reads t w = 0
  · rw [hw]
    exact (quotient_zero ht _).1.1
  rw [quotient, if_neg hw]
  cases hs : isSigned t with
  | false =>
    rw [intMin, hs]
    exact Int.tdiv_nonneg (reads_nonneg hs v) (reads_nonneg hs w)
  | true =>
    have habs := Int.natAbs_tdiv_le_natAbs (reads t v) (reads t w)
    have hlo := reads_ge_intMin t v
    have hhi : reads t v ≤ -intMin t := by
      have := BitVec.toInt_lt (x := narrow t v)
      rw [intMin, reads, hs, if_pos rfl, if_pos rfl]
      push_cast
      omega
    omega

/-- What DIV gives: its quotient, DZ for a divisor of 0, and IOV where the quotient by another leaves the type (R265). -/
theorem divOp_eq (ht : isInt t = true) (md : Nat) (a : Ops) : divOp t md a =
    (result t md (quotient t (reads t (a 0)) (reads t (a 1))),
      if reads t (a 1) = 0 then { dz := true } else { iov := !inRange t (quotient t (reads t (a 0)) (reads t (a 1))) }) := by
  unfold divOp
  simp only [intOf_eq t _ ht, intResult_eq t _ _ ht, ofInt_eq t _ ht]
  by_cases hb : reads t (a 1) = 0
  · obtain ⟨⟨hlo, hhi⟩, hbits⟩ := quotient_zero ht (reads t (a 0))
    simp only [hb, if_true, result_inRange md hlo hhi, hbits]
  · simp only [hb, if_false, quotient]

/-- What REM gives: its remainder, and DZ for a divisor of 0 (R265). -/
theorem remOp_eq (ht : isInt t = true) (md : Nat) (a : Ops) : remOp t md a =
    (wraps t (if reads t (a 1) = 0 then reads t (a 0) else reads t (a 0) - reads t (a 1) * (reads t (a 0)).tdiv (reads t (a 1))),
      { dz := decide (reads t (a 1) = 0) }) := by
  unfold remOp
  simp only [intOf_eq t _ ht, ofInt_eq t _ ht, Int.tmod_def]
  by_cases hb : reads t (a 1) = 0 <;> simp only [hb, if_true, if_false, decide_true, decide_false]

/-- DZ alone stands where nothing is to be made of it (R396). -/
theorem fate_dz {dz : Bool} (h : dz = true → disposition en 1 = 0) : fate en { dz := dz } = .stands := by
  cases dz with
  | false => rfl
  | true => simp [fate, Conds.codes, h rfl]

/-- Settles O2: DIV and REM run their operations, and neither DZ nor IOV stops a lane. -/
theorem divisionCompletes : Obligations.DivisionCompletes := by
  intro f s x r ht hf hdz
  have hzero : ∀ l ∈ x.lanes, firing f l = true → reads f.ty (opv f l 1) = 0 → disposition r.sys.trapEn 1 = 0 := fun l hl hfi hb =>
    (hdz l hl hfi).resolve_left (not_not_intro hb)
  constructor
  · intro hiov
    have hrun : exec (.div f) s = runNode (pureNode f (divOp f.ty)) s := rfl
    rw [hrun, funext fun md => funext (divOp_eq ht md)]
    refine pureNode_next hf fun l hl hfi => ?_
    dsimp only
    split
    next hb => exact fate_dz fun _ => hzero l hl hfi hb
    next hb => exact fate_iov ((hiov l hl hfi).imp_left fun h => ⟨quotient_ge_intMin ht _ _, h⟩)
  · have hrun : exec (.rem f) s = runNode (pureNode f (remOp f.ty)) s := rfl
    rw [hrun, funext fun md => funext (remOp_eq ht md)]
    exact pureNode_next hf fun l hl hfi => fate_dz fun hb => hzero l hl hfi (of_decide_eq_true hb)

/-! ### Bit fields (R268) -/

theorem bfOk_eq (t : Ty) (c : BitVec 32) : bfOk t c = controlOk t c := by
  unfold bfOk controlOk bits
  rw [Bool.eq_iff_iff]
  simp only [Bool.and_eq_true, beq_iff_eq, decide_eq_true_eq]
  omega

/-- The length that an admitted control word gives. -/
theorem control_length {c : BitVec 32} (h : controlOk t c = true) : bits c.toNat 8 8 = c.toNat / 256 := by
  simp only [controlOk, Bool.and_eq_true, decide_eq_true_eq] at h
  simp only [bits]
  omega

theorem control_position (c : BitVec 32) : bits c.toNat 0 8 = c.toNat % 256 := by simp [bits]

/-- A number of `n` bits as two's complement. -/
theorem signed_of_lt {n f : Nat} (hf : f < 2 ^ n) :
    signed n f = if (2 : Int) ^ (n - 1) ≤ f then (f : Int) - 2 ^ n else f := by
  have hcast : ((2 : Int) ^ (n - 1) ≤ f) ↔ ¬ f < 2 ^ (n - 1) := by
    rw [not_lt, ← Nat.cast_le (α := Int), Nat.cast_pow, Nat.cast_ofNat]
  rw [signed, Nat.mod_eq_of_lt hf, Nat.cast_pow, Nat.cast_ofNat]
  simp only [hcast, ite_not]

/-- BFX's value is the field (R268). -/
theorem bfxOp_eq (ht : isInt t = true) (md : Nat) {a : Ops} (hc : controlOk t (a 1) = true) : (bfxOp t md a).1 = extracted t (a 0) (a 1) := by
  have hzero : wraps t 0 = 0 := by simp [wraps, widen, BitVec.signExtend]
  simp only [bfxOp, extracted, control_length hc, control_position, lowBits_eq, ofInt_eq t _ ht]
  by_cases hlen : (a 1).toNat / 256 = 0
  · simp only [hlen, if_true, hzero]
  · have hlt := Nat.mod_lt ((narrow t (a 0)).toNat / 2 ^ ((a 1).toNat % 256)) (Nat.two_pow_pos ((a 1).toNat / 256))
    simp only [hlen, if_false, signed_of_lt hlt]
    push_cast
    cases isSigned t <;> simp

/-- The bits of a number in which a field of another has been put. -/
theorem testBit_insert (x y pos len j : Nat) :
    (x % 2 ^ pos + y % 2 ^ len * 2 ^ pos + x / 2 ^ (pos + len) * 2 ^ (pos + len)).testBit j =
      if pos ≤ j ∧ j < pos + len then y.testBit (j - pos) else x.testBit j := by
  have hsplit : x % 2 ^ pos + y % 2 ^ len * 2 ^ pos + x / 2 ^ (pos + len) * 2 ^ (pos + len) =
      2 ^ pos * (2 ^ len * (x / 2 ^ (pos + len)) + y % 2 ^ len) + x % 2 ^ pos := by
    rw [pow_add]
    ring
  rw [hsplit, Nat.testBit_two_pow_mul_add _ (Nat.mod_lt _ (Nat.two_pow_pos _)), Nat.testBit_two_pow_mul_add _ (Nat.mod_lt _ (Nat.two_pow_pos _))]
  by_cases hlow : j < pos
  · rw [if_pos hlow, if_neg (by omega), Nat.testBit_mod_two_pow, decide_eq_true hlow, Bool.true_and]
  · rw [if_neg hlow]
    by_cases hin : j - pos < len
    · rw [if_pos hin, if_pos (by omega), Nat.testBit_mod_two_pow, decide_eq_true hin, Bool.true_and]
    · rw [if_neg hin, if_neg (by omega), Nat.testBit_div_two_pow]
      congr 1
      omega

/-- A field put into bits, as R268 says it with a mask. -/
theorem insert_eq {w : Nat} (x y : BitVec w) (pos len : Nat) :
    BitVec.ofNat w (x.toNat % 2 ^ pos + y.toNat % 2 ^ len * 2 ^ pos + x.toNat / 2 ^ (pos + len) * 2 ^ (pos + len)) =
      (x &&& ~~~ BitVec.ofNat w ((2 ^ len - 1) * 2 ^ pos)) ||| BitVec.ofNat w (y.toNat % 2 ^ len * 2 ^ pos) := by
  apply BitVec.eq_of_getLsbD_eq
  intro j hj
  simp only [BitVec.getLsbD_or, BitVec.getLsbD_and, BitVec.getLsbD_not, BitVec.getLsbD_ofNat, hj, decide_true, Bool.true_and, testBit_insert,
    Nat.testBit_mul_two_pow, Nat.testBit_mod_two_pow, BitVec.testBit_toNat]
  by_cases hlow : pos ≤ j
  · have hin : j < pos + len ↔ j - pos < len := by omega
    by_cases hlen : j - pos < len <;> simp [hlow, hin, hlen]
  · simp [hlow]

/-- BFI's value is its first operand with the field in it (R268). -/
theorem bfiOp_eq (ht : isInt t = true) (md : Nat) {a : Ops} (hc : controlOk t (a 2) = true) : (bfiOp t md a).1 = inserted t (a 0) (a 1) (a 2) := by
  have hbits : ∀ n, ofBits t n = widen t (BitVec.ofNat (tyWidth t) n) := fun n => by
    rw [ofBits, ofInt_eq t _ ht, wraps, BitVec.ofInt_natCast]
  simp only [bfiOp, inserted, control_length hc, control_position, lowBits_eq, hbits, insert_eq]

/-- Settles O4: an admitted control word raises no trap, and the values are `bfxOp_eq`'s and `bfiOp_eq`'s. -/
theorem bitFieldNodesComplete : Obligations.BitFieldNodesComplete := by
  intro f s x r ht hf
  constructor
  · intro hc
    refine valueNode_next hf _ fun l hl hfi => ?_
    rw [bfOk_eq, if_pos (hc l hl hfi), bfxOp_eq ht _ (hc l hl hfi)]
    exact ⟨rfl, fate_none _⟩
  · intro hc
    refine valueNode_next hf _ fun l hl hfi => ?_
    rw [bfOk_eq, if_pos (hc l hl hfi), bfiOp_eq ht _ (hc l hl hfi)]
    exact ⟨rfl, fate_none _⟩

end Sys2Proof.Machine

/-! PROOFS. The nodes that move, choose and name tokens, and the records of a sequence with a rule of their own (R258, R262, R268 to R270, R275 to
R278, R281, R285, R286). -/
namespace Sys2Proof.Machine
open Sys2Proof.Claims

variable {s : State} {r : Region} {f : NodeRec} {x : Issue} {i : Instr}

/-! ### Identifiers (R270) -/

/-- The low 32 bits of a number, as a value. -/
theorem ofNat_mod32 (n : Nat) : BitVec.ofNat 32 (n % 2 ^ 32) = BitVec.ofNat 32 n := by
  apply BitVec.eq_of_toNat_eq
  simp only [BitVec.toNat_ofNat, Nat.mod_mod]

/-- IDX's value. -/
theorem ofNat_idxValue (r : Region) (tag level : Nat) :
    BitVec.ofNat 32 (idxValue r tag level) = BitVec.ofNat 32 (hdrField r.header ((boundId r tag).getD 0) level) := ofNat_mod32 _

/-- WID's value. -/
theorem ofNat_widValue (r : Region) (tag half : Nat) :
    BitVec.ofNat 32 (widValue r tag half) = BitVec.ofNat 32 ((boundId r tag).getD 0 / 2 ^ (32 * half)) := ofNat_mod32 _

/-- The low bit of a value, as a predicate. -/
theorem ofNat_mod_two (v : BitVec 32) : BitVec.ofNat 32 (v.toNat % 2) = pred (truth v) := by
  rw [truth_eq]
  rcases Nat.mod_two_eq_zero_or_one v.toNat with h | h <;> rw [h] <;> rfl

/-! ### The moving nodes -/

/-- A node whose lanes send what the lane and the lasting parts of the region give. -/
theorem movingNode_next {out : Lane → Option Token × Option Token} {g : Region → Lane → LaneOut} (hf : Fires s x r)
    (hg : ∀ r' l, r'.core = r.core → g r' l = .emit (out l).1 (out l).2) :
    runNode (lanesM f .both (fun _ r l => pure (g r l))) s = .next (nodeDone f x out s) :=
  node_emit hf out fun u r' l _ _ hcore => Reaches.answer (hg r' l hcore) u

/-- A moving node that computes values, and raises no condition. -/
theorem movingValue_next {v : Lane → BitVec 32} (hf : Fires s x r) :
    runNode (valueNode f (fun _ l => (both l (v l), {}))) s = .next (nodeDone f x (sameOnBoth v) s) :=
  valueNode_next hf (sameOnBoth v) fun _ _ _ => ⟨rfl, fate_none _⟩

/-- Each moving node sends what its rule names. -/
theorem exec_moved {v : Region → Lane → Option Token × Option Token} (hi : moved i = some (f, v)) (hf : Fires s x r) :
    exec i s = .next (nodeDone f x (v r) s) := by
  unfold moved at hi
  split at hi <;> cases hi
  case h_1 | h_3 | h_9 | h_12 | h_13 => exact movingNode_next hf fun _ _ _ => rfl
  case h_2 | h_4 | h_11 => exact movingValue_next hf
  case h_5 =>
    refine movingNode_next hf fun r' l hcore => ?_
    rw [ofNat_idxValue, boundId, core_header hcore, core_active hcore]
    rfl
  case h_6 =>
    refine movingNode_next hf fun r' l hcore => ?_
    rw [ofNat_widValue, boundId, core_active hcore]
    rfl
  case h_7 | h_10 =>
    refine movingNode_next hf fun _ l _ => ?_
    dsimp only
    split <;> rfl
  case h_8 =>
    refine movingNode_next hf fun _ l _ => ?_
    cases h0 : kget l.ops 0 <;> cases h1 : kget l.ops 1 <;> simp [h0, h1, passTok, tokenOnBoth]

/-- A lane of SINK takes its operands, poison too, and sends nothing (R262, R407). -/
theorem sinkLanes_reaches (hf : Fires s x r) : Reaches (lanesM f .swallow (fun _ _ _ => pure (.emit none none))) s () s := by
  refine (myIssue_reaches hf.1 hf.2.1).bind ?_
  dsimp only
  refine ((collect_none (h := fun _ u => u) (fun u => u = s) x.lanes.zipIdx s rfl ?_).congr (List.foldl_fixed (a := s) x.lanes.zipIdx)).bind ?_
  · rintro p - u rfl
    refine ⟨?_, rfl⟩
    simp only [reduceCtorEq, if_false]
    cases hp : firstPoison p.1 with
    | some t => exact (Reaches.get u).bind ((Reaches.pure () u).bind ((Reaches.pure () u).bind (Reaches.pure none u)))
    | none =>
      dsimp only
      split
      · refine (Reaches.get u).bind ?_
        rw [hf.2.1]
        exact (Reaches.pure _ u).bind (laneOut_emit x f p.2 p.1 none none u)
      · exact Reaches.pure none u
  · have hnone : (x.lanes.zipIdx.map fun _ => (none : Option (Nat × Lane × TrapRec))).filterMap id = [] := by
      simp [List.filterMap_map]
    rw [hnone]
    exact Reaches.pure () _

theorem execSink_next (hf : Fires s x r) : exec (.sink f) s = .next { s with issue := none } := node_next (sinkLanes_reaches hf) hf.2.2

/-- Settles O7: each moving node by its rule, and SINK, which only ends its issue. -/
theorem movingNodesComplete : Obligations.MovingNodesComplete :=
  fun _ _ _ _ _ _ hf => ⟨fun hi => exec_moved hi hf, execSink_next hf⟩

/-! ### Records with a rule of their own -/

variable {n : Nat} {q : SeqRun} {lanes : List SeqLane} {qs : InQueues}

/-- A record whose conditions stand in every live lane leaves what `out` says of the lane. -/
theorem ownRule_next {g : Region → SeqRun → SeqLane → SeqRec → (QSrc → BitVec 32) → SeqOut} {f : SeqRec} {out : SeqLane → SeqOut}
    (h : Runs s r n q f lanes qs)
    (hg : ∀ l ∈ lanes, l.live = true → rowOut g r q f l = out l ∧ (out l).fault = none ∧ fate r.sys.trapEn (out l).conds = .stands) :
    runSeq (seqRow g) s = .next (rowDone q.rid n q f lanes qs out s) := by
  rw [seqRow_next h fun l hl hv => (hg l hl hv).1 ▸ (hg l hl hv).2]
  exact congrArg _ (rowDone_congr fun l hl hv => by simp [(hg l hl hv).1])

/-- CONST, SEL, IDX, WID, EMIT and EMITP of a sequence (R258, R262, R269, R270, R285). -/
theorem emitRecords_run : emitRecordsRun := by
  intro i g s r n q f lanes qs hi hr
  unfold recordOut at hi
  split at hi <;> cases hi
  case h_1 => exact ownRule_next hr fun l _ _ => ⟨rfl, rfl, fate_none _⟩
  case h_2 =>
    refine ownRule_next hr fun l _ _ => ⟨?_, rfl, fate_none _⟩
    simp only [rowOut, truth_eq, beq_iff_eq]
    rfl
  case h_3 => exact ownRule_next hr fun l _ _ => ⟨congrArg (fun v => ({ value := v } : SeqOut)) (ofNat_idxValue r _ _), rfl, fate_none _⟩
  case h_4 => exact ownRule_next hr fun l _ _ => ⟨congrArg (fun v => ({ value := v } : SeqOut)) (ofNat_widValue r _ _), rfl, fate_none _⟩
  case h_5 => exact ownRule_next hr fun l _ _ => ⟨rfl, rfl, fate_none _⟩
  case h_6 =>
    exact ownRule_next hr fun l _ _ => ⟨congrArg (fun v => ({ emit := some (true, v) } : SeqOut)) (ofNat_mod_two _), rfl, fate_none _⟩

/-- What SINCOS gives a lane: the sine, the cosine as a second value, and the conditions of both (R275). -/
def sincosOut (f : SeqRec) (v : QSrc → BitVec 32) : SeqOut :=
  let a := sinOp f.ty f.md.toNat (fun _ => v f.qa)
  let b := cosOp f.ty f.md.toNat (fun _ => v f.qa)
  { value := a.1, second := some b.1, conds := a.2.or b.2 }

/-- BFX, BFI and SINCOS of a sequence (R258, R268, R275). -/
theorem fieldRecords_run : fieldRecordsRun := by
  intro s r n q f lanes qs hr
  refine ⟨fun ht hc => ?bfx, fun ht hc => ?bfi, fun hfate => ?sincos⟩
  case bfx =>
    refine ownRule_next hr fun l hl hv => ⟨?_, rfl, fate_none _⟩
    have hok := hc l hl hv
    refine (if_pos ((bfOk_eq _ _).trans hok)).trans (congrArg (fun v => ({ value := v } : SeqOut)) ?_)
    exact bfxOp_eq ht 0 hok
  case bfi =>
    refine ownRule_next hr fun l hl hv => ⟨?_, rfl, fate_none _⟩
    have hok := hc l hl hv
    refine (if_pos ((bfOk_eq _ _).trans hok)).trans (congrArg (fun v => ({ value := v } : SeqOut)) ?_)
    exact bfiOp_eq ht 0 hok
  case sincos =>
    have hrun := seqRow_next (g := fun _ _ _ f v => sincosOut f v) hr fun l hl hv => ⟨rfl, hfate l hl hv⟩
    exact hrun.trans (congrArg _ (rowDone_congr fun _ _ _ => ⟨rfl, rfl, rfl⟩))

/-- Settles O13: each record by what it gives a lane, which raises no trap and no condition that stops it. -/
theorem ownRuleRecordsComplete : Obligations.OwnRuleRecordsComplete := ⟨emitRecords_run, fieldRecords_run⟩

end Sys2Proof.Machine

/-! PROOFS. Nodes of which every lane traps, and lanes whose results are final poison (R260, R288, R396, R398, R401, R406). -/
namespace Sys2Proof.Machine
open Sys2Proof.Claims

variable {s u : State} {r : Region} {f : NodeRec} {x : Issue} {l : Lane} {i : Instr} {en : BitVec 64}

/-! ### Final poison in place of results (R396, R406) -/

/-- What a lane does, with final poison as the tokens that it sends. -/
def LaneOut.asTokens (l : Lane) : LaneOut → LaneOut
  | .poison k => .emit (some (poisonTok l k)) (some (poisonTok l k))
  | o => o

theorem laneOut_asTokens (x : Issue) (f : NodeRec) (n : Nat) (l : Lane) (o : LaneOut) : laneOut x f n l (o.asTokens l) = laneOut x f n l o := by
  cases o with
  | emit a b => rfl
  | trap => rfl
  | poison k => simp only [LaneOut.asTokens, laneOut, sendBoth, bind_assoc]

/-- A node whose lanes end in results or final poison sends the one or the other. -/
theorem lanesM_asTokens (f : NodeRec) (rule : PoisonRule) (g : Issue → Region → Lane → LaneOut) :
    lanesM f rule (fun x r l => pure (g x r l)) = lanesM f rule (fun x r l => pure ((g x r l).asTokens l)) := by
  simp only [lanesM, pure_bind, laneOut_asTokens]

/-- A node of one result: each lane's value and conditions, judged by the region's dispositions (R257, R396). -/
theorem pureNode_eq (f : NodeRec) (g : Nat → (Nat → BitVec 32) → BitVec 32 × Conds) : pureNode f g = lanesM f .both (fun x r l =>
    pure (judge r.sys.trapEn (opv f l 0).toNat (both l (g (mdOf x f) (opv f l)).1) (g (mdOf x f) (opv f l)).2)) := rfl

/-- A node of one result each of whose lanes sends its result or final poison. -/
theorem pureNode_tokens {g : Nat → (Nat → BitVec 32) → BitVec 32 × Conds} {out : Lane → Option Token × Option Token} (hf : Fires s x r)
    (hg : ∀ l, (judge r.sys.trapEn (opv f l 0).toNat (both l (g (mdOf x f) (opv f l)).1) (g (mdOf x f) (opv f l)).2).asTokens l =
      .emit (out l).1 (out l).2) :
    runNode (pureNode f g) s = .next (nodeDone f x out s) := by
  rw [pureNode_eq, lanesM_asTokens]
  refine node_emit hf out fun u r' l _ _ hcore => Reaches.answer ?_ u
  rw [core_sys hcore]
  exact hg l

/-! ### IOV by its disposition (R396) -/

theorem inRange_iff {t : Ty} {z : Int} : inRange t z = true ↔ intMin t ≤ z ∧ z ≤ intMax t := by simp [inRange]

theorem fate_iov_poison (h : disposition en 2 = 1) : fate en { iov := true } = .poison 2 := by simp [fate, Conds.codes, h]

theorem fate_iov_trap (h : disposition en 2 = 2) : fate en { iov := true } = .trap 2 := by simp [fate, Conds.codes, h]

/-- Settles O11: a result in its type stands, and IOV puts final poison in the place of another. -/
theorem overflowPoisons : Obligations.OverflowPoisons := by
  intro i f z s x r hi ht hf hd
  rw [exec_exactResult hi ht]
  refine pureNode_tokens hf fun l => ?_
  by_cases hz : intMin f.ty ≤ z f.ty (opv f l) ∧ z f.ty (opv f l) ≤ intMax f.ty
  · simp only [exactOp, judge, fate_iov (.inl hz), if_pos hz]
    rfl
  · have hrange : inRange f.ty (z f.ty (opv f l)) = false := Bool.eq_false_iff.mpr fun h => hz (inRange_iff.mp h)
    simp only [exactOp, judge, hrange, Bool.not_false, fate_iov_poison hd, if_neg hz]
    rfl

/-! ### Every lane of an issue traps (R401) -/

/-- A loop whose rounds only answer. -/
theorem collect_answers {α β : Type} {g : α → M β} {b : α → β} : ∀ l : List α, (∀ a ∈ l, Reaches (g a) s (b a) s) →
    Reaches (collect l g) s (l.map b) s
  | [], _ => Reaches.collect_nil g s
  | a :: l, h => (h a (by simp)).collect_cons (collect_answers l fun c hc => h c (by simp [hc]))

/-- The mask of lanes numbered from `n` (R398). -/
theorem laneMask_zipIdx {α : Type} : ∀ (l : List α) (n m : Nat), (l.zipIdx n).foldl (fun m p => m + 2 ^ p.2) m + 2 ^ n = m + 2 ^ (n + l.length)
  | [], n, m => rfl
  | a :: l, n, m => by
    have ih := laneMask_zipIdx l (n + 1) (m + 2 ^ n)
    have hpow : 2 ^ (n + 1) = 2 ^ n + 2 ^ n := by rw [Nat.pow_succ, Nat.mul_two]
    rw [List.zipIdx_cons, List.foldl_cons, List.length_cons, Nat.add_comm l.length, ← Nat.add_assoc]
    dsimp only
    omega

/-- The pending poison of a lane that traps leaves on both destinations (R401). -/
theorem pendLane_reaches (f : NodeRec) (x : Issue) (t : Token) (s : State) :
    Reaches (each [f.da, f.db] (fun d => emitTo x.rid x.cell d t)) s () (emitted x.rid x.cell f.db t (emitted x.rid x.cell f.da t s)) :=
  Reaches.each_cons (f := fun d => emitTo x.rid x.cell d t) (emitTo_reaches _ _ _ _ _)
    (Reaches.each_cons (emitTo_reaches _ _ _ _ _) (Reaches.each_nil _ _))

/-- The lanes of an issue, each with its number and the destinations that it would have fed. -/
def fedLanes (f : NodeRec) (x : Issue) : List (Nat × Lane × List Dest) := x.lanes.zipIdx.map (fun p => (p.2, p.1, [f.da, f.db]))

/-- Each lane of an issue leaves its pending poison; a retried one has left it before (R401, R408). -/
theorem pendLanes_reaches (f : NodeRec) (x : Issue) (src code : Nat) (s : State) :
    Reaches (each (if x.retry then [] else fedLanes f x) (fun p => each p.2.2 (fun d =>
      emitTo x.rid x.cell d { value := poisonValue true src code, tag := p.2.1.tag, kind := .poison }))) s ()
      (x.lanes.foldl (pended f x src code) s) := by
  cases hx : x.retry with
  | true =>
    have hsame : ∀ u l, pended f x src code u l = u := fun u l => if_pos hx
    simp only [if_true, funext fun u => funext (hsame u), List.foldl_fixed]
    exact Reaches.each_nil _ s
  | false =>
    have hone : ∀ u l, pended f x src code u l =
        emitted x.rid x.cell f.db { value := poisonValue true src code, tag := l.tag, kind := .poison }
          (emitted x.rid x.cell f.da { value := poisonValue true src code, tag := l.tag, kind := .poison } u) := fun u l =>
      if_neg (by simp [hx])
    simp only [Bool.false_eq_true, if_false]
    refine (Reaches.each_fold (g := fun u p => pended f x src code u p.2.1) (fun _ => True) (fedLanes f x) s trivial
      fun u p hp _ => ⟨?_, trivial⟩).congr ?_
    · obtain ⟨q, -, rfl⟩ := List.mem_map.mp hp
      rw [hone]
      exact pendLane_reaches f x _ u
    · rw [fedLanes, List.foldl_map]
      exact foldl_zipIdx (fun l u => pended f x src code u l) x.lanes 0 s

/-- The trap that a faulting lane hands on: the lane would have fed both destinations (R401). -/
def faulted (f : NodeRec) (src code operand : Nat) : TrapRec := { code := code, operand := operand, src := src, fed := [[f.da, f.db]] }

/-- A node's trap is raised behind the pending poison of its lanes, with what the first of them gives (R401). -/
theorem raiseNode_cons {rid cell node n : Nat} {retry : Bool} {t : TrapRec} {lanes rest : List (Nat × Lane × List Dest)} {d : List Dest}
    (hr : kget s.regions rid = some r) (hl : lanes = (n, l, d) :: rest)
    (hpend : Reaches (each (if retry then [] else lanes) (fun p => each p.2.2 (fun d =>
      emitTo rid cell d { value := poisonValue true t.src t.code, tag := p.2.1.tag, kind := .poison }))) s () u) (hk : Kin s u) :
    Reaches (raiseNode rid cell node retry t lanes) s () (raised rid { t with
      iv := (boundId r l.tag).getD 0, act := r.seq.act, cmd := min r.seq.index 63, cell := cell, node := node
      laneMask := lanes.foldl (fun m p => m + 2 ^ p.1) 0, held := lanes.map (·.2.1), fed := lanes.map (·.2.2) } u) := by
  subst hl
  obtain ⟨r', hr', -⟩ := hk.get hr
  refine (Reaches.get s).bind ?_
  simp only [hr]
  refine hpend.bind ((modRegion_reaches _ _ hr').congr ?_)
  simp only [raised, onRegion, hr']

/-- The trap of a node of which every lane faults, with what its lanes give (R398, R401). -/
theorem nodeTrap_all {ls : List Lane} (hl : x.lanes = l :: ls) (src code operand : Nat) :
    { faulted f src code operand with
      iv := (boundId r l.tag).getD 0, act := r.seq.act, cmd := min r.seq.index 63, cell := x.cell, node := x.node
      laneMask := (fedLanes f x).foldl (fun m p => m + 2 ^ p.1) 0, held := (fedLanes f x).map (·.2.1), fed := (fedLanes f x).map (·.2.2) } =
    nodeTrap f r x src code operand := by
  have hmask : (fedLanes f x).foldl (fun m p => m + 2 ^ p.1) 0 = 2 ^ x.lanes.length - 1 := by
    have h := laneMask_zipIdx x.lanes 0 0
    simp only [Nat.zero_add, Nat.pow_zero] at h
    rw [fedLanes, List.foldl_map]
    exact Nat.eq_sub_of_add_eq h
  have hheld : (fedLanes f x).map (·.2.1) = x.lanes := by
    rw [fedLanes, List.map_map]
    exact List.zipIdx_map_fst 0 x.lanes
  have hfed : (fedLanes f x).map (·.2.2) = x.lanes.map (fun _ => [f.da, f.db]) := by
    conv_rhs => rw [← List.zipIdx_map_fst 0 x.lanes, List.map_map]
    rw [fedLanes, List.map_map]
    rfl
  rw [hmask, hheld, hfed, nodeTrap, hl]
  rfl

/-- The lanes of an issue that all trap are raised as one trap, with the operand of the lowest, behind their pending poison (R401, R405). -/
theorem raiseLanes_all {ls : List Lane} {src code : Nat} {operand : Lane → Nat} (hr : kget s.regions x.rid = some r) (hl : x.lanes = l :: ls) :
    Reaches (raiseLanes x (x.lanes.zipIdx.map (fun p => (p.2, p.1, faulted f src code (operand p.1))))) s ()
      (raised x.rid (nodeTrap f r x src code (operand l)) (x.lanes.foldl (pended f x src code) s)) := by
  have hfed : (x.lanes.zipIdx.map (fun p => (p.2, p.1, faulted f src code (operand p.1)))).map (fun t => (t.1, t.2.1, t.2.2.fed.flatten)) =
      fedLanes f x := by
    rw [fedLanes, List.map_map]
    rfl
  have hraise : raiseLanes x (x.lanes.zipIdx.map (fun p => (p.2, p.1, faulted f src code (operand p.1)))) =
      raiseNode x.rid x.cell x.node x.retry (faulted f src code (operand l)) (fedLanes f x) := by
    rw [← hfed, hl]
    rfl
  have hcons : fedLanes f x = (0, l, [f.da, f.db]) :: (ls.zipIdx 1).map (fun p => (p.2, p.1, [f.da, f.db])) := by rw [fedLanes, hl]; rfl
  rw [hraise, ← nodeTrap_all hl]
  exact raiseNode_cons hr hcons (pendLanes_reaches f x src code s) (foldl_kin _ (fun u l => pended_kin f x src code u l) x.lanes s)

/-- The step of a node that ends in a trap raised in its region: the handler starts (R401, R403). -/
theorem runNode_raised {m : M Unit} {e : TrapRec} (hf : Fires s x r) (hh : Handles r) (hk : Kin s u) (hm : Reaches m s () (raised x.rid e u)) :
    runNode m s = .next { onRegion x.rid (handling e) u with issue := none } := by
  obtain ⟨r', hr', hcore⟩ := hk.get hf.2.1
  have hissue : ∀ g, { onRegion x.rid g u with issue := none } = onRegion x.rid g { u with issue := none } := fun g => by
    simp only [onRegion, hr']
  have hdeliver := deliverTraps_raised (s := { u with issue := none }) (e := e) (hk.2 hf.2.2) hr' (hh.of_core hcore)
  rw [hissue]
  unfold runNode runE
  refine Reaches.next (hm.bind ((Reaches.eff (.issue none) _).bind ?_)) _
  rw [apply_issue, raised, hissue]
  exact hdeliver

/-- A node of which every lane traps: the region's handler starts (R401). -/
theorem nodeLanes_trap {rule : PoisonRule} {body : Issue → Region → Lane → M LaneOut} {ls : List Lane} {src code : Nat} {operand : Lane → Nat}
    (hf : Fires s x r) (hl : x.lanes = l :: ls) (hfi : ∀ l ∈ x.lanes, firing f l = true) (hh : Handles r)
    (hb : ∀ l ∈ x.lanes, Reaches (body x r l) s (.trap code (operand l) src) s) :
    runNode (lanesM f rule body) s = .next { onRegion x.rid (handling (nodeTrap f r x src code (operand l)))
      (x.lanes.foldl (pended f x src code) s) with issue := none } := by
  refine runNode_raised hf hh (foldl_kin _ (fun u l => pended_kin f x src code u l) x.lanes s) ((myIssue_reaches hf.1 hf.2.1).bind ?_)
  dsimp only
  refine (collect_answers (b := fun p => some (p.2, p.1, faulted f src code (operand p.1))) x.lanes.zipIdx fun p hp => ?_).bind ?_
  · have hmem : p.1 ∈ x.lanes := (List.mem_zipIdx hp).2.2 ▸ List.getElem_mem _
    obtain ⟨hpoison, hgate⟩ : firstPoison p.1 = none ∧ gateOpen f p.1 = true := by simpa [firing] using hfi p.1 hmem
    simp only [hpoison, ite_self, hgate, Bool.true_or, if_true]
    refine (Reaches.get s).bind ?_
    simp only [hf.2.1]
    exact (hb p.1 hmem).bind ((Reaches.get s).bind (Reaches.pure _ s))
  · have hsome : (x.lanes.zipIdx.map fun p => some (p.2, p.1, faulted f src code (operand p.1))).filterMap id =
        x.lanes.zipIdx.map (fun p => (p.2, p.1, faulted f src code (operand p.1))) := by
      rw [List.filterMap_map]
      exact congrFun List.filterMap_eq_map _
    rw [hsome]
    exact raiseLanes_all hf.2.1 hl

/-- Settles O9: every lane of TRAPN traps with the literal's cause. -/
theorem programTrapTaken : Obligations.ProgramTrapTaken := by
  intro f s x r l0 ls hf hl hfi hh
  exact nodeLanes_trap (operand := fun l => (opv f l 0).toNat) hf hl hfi hh fun l _ => Reaches.pure _ s

/-- Settles O10: IOV traps in every lane. -/
theorem overflowTrapTaken : Obligations.OverflowTrapTaken := by
  intro i f z s x r l0 ls hi ht hf hl hfi hh hz hd
  rw [exec_exactResult hi ht, pureNode_eq]
  refine nodeLanes_trap (operand := fun l => (opv f l 0).toNat) hf hl hfi hh fun l hmem => Reaches.answer ?_ s
  have hrange : inRange f.ty (z f.ty (opv f l)) = false := Bool.eq_false_iff.mpr fun h => by
    have := inRange_iff.mp h
    have := hz l hmem
    omega
  simp only [exactOp, judge, hrange, Bool.not_false, fate_iov_trap hd]

end Sys2Proof.Machine

/-! PROOFS. RING.TAKE by a sequencer whose list of registers ends before aD, which neither `Inv` nor the statement about the engine commands
excludes: the slot is taken, but nothing takes the reference to it, so aD reads as 0 (R37, R332). Every other premise is met by an ordinary
ring. -/
namespace Sys2Proof.Machine
open Sys2Proof.Claims

namespace TakerRegistersEnd
open RegistersEnd

/-- An open ring of packages 0 and 1, of which slot 0 is filled; its slots are in the buffer of handle 1. -/
def ring : Ring := { members := [0, 1], handle := 1, ctx := 0, slotSize := 16, slot0 := 0, opened := [0, 1], opener := none, filled := 1 }

/-- The machine: the issuer's sequencer has no register, and its function has the ring under number 0. -/
def state : State := { State.reset with who := 0, regions := [(0, bare)], vfs := [(0, { rings := [(0, ring)] })] }

/-- RING.TAKE of ring 0, with the reference to a1 and to no channel. -/
def takeRecord : CmdRec := { ty := .f32, md := 0, d := 1, s := 0, t := 0, ext := 0, imm := 0 }

theorem state_issues : RegionIssues state bare true := ⟨(by decide : (0 : Nat) ≠ serviceRid), rfl, rfl, fun _ => rfl⟩

theorem ring_open : openRingOf state bare (takeRecord.imm.toNat % 16) ring := ⟨rfl, rfl, rfl⟩

theorem slot_ready : canTake state bare takeRecord ring := ⟨by decide, by decide⟩

/-- The reference is written nowhere. -/
theorem reference_lost : registerLeft 1 (exec (.ringTake takeRecord) state) = some 0 := by decide +kernel

end TakerRegistersEnd

open TakerRegistersEnd in
/-- Refutes O39: in `TakerRegistersEnd.state` RING.TAKE takes a filled slot, but the register that its reference is to go to is not there and
reads as 0. -/
theorem not_engineCommandsComplete : ¬ Obligations.EngineCommandsComplete := fun h => by
  obtain ⟨t, ht, hleads⟩ := h (.ringTake takeRecord) _ state RegistersEnd.bare rfl state_issues ⟨ring, ring_open⟩
  obtain ⟨-, hreg, -⟩ := (hleads ring ring_open).1 slot_ready
  have hleft := reference_lost
  rw [ht, registerLeft, Option.some.injEq] at hleft
  exact absurd ((hreg (by decide)).symm.trans hleft) (by decide)

end Sys2Proof.Machine

/-! PROOFS. CIRC and AUDIT where a hall lists one line of its cache twice, which neither `Inv` nor the statements about the control commands
and about the trap commands exclude. Each of the descriptor's words can be read on the state before, but reading the first one puts its line
in the way that the wrong entry names; that way is under the way-change walker, so the second word has to wait (R110, R119, R299). -/
namespace Sys2Proof.Machine
open Sys2Proof.Claims

variable {s t : State}

/-- Where the one way of a line's class holds another line alone, at least as often as it has places, that line makes room: the new one stands in the
way that the old one's first entry names (R119). -/
theorem allocate_evicts {k a l w n : Nat} {range : Option Nat} {m : Mesi} {c : CacheLine} (hways : classWays (hallAt s k) (homeOf a) range = [w])
    (hlines : wayLines (hallAt s k) (homeOf a) w = List.replicate n l) (hn : 1024 ≤ n)
    (hl : kget (hallAt s k).cache l = some c) (hq : c.quarantined = false) :
    Reaches (allocate k range a m) s ()
      (onHall k (fun x => { x with cache := kset (kdel x.cache l) (cacheKey a) { mesi := m, way := c.way, range := range } }) { s with tick := s.tick + 1 }) := by
  have hfull : ([w] : List Nat).find? (fun w => decide ((wayLines (hallAt s k) (homeOf a) w).length < 1024)) = none := by
    simp [hlines, hn]
  have hout : (([w] : List Nat).flatMap (wayLines (hallAt s k) (homeOf a))).filter (fun l => !(kget (hallAt s k).cache l).any (·.quarantined)) =
      List.replicate n l := by
    simp [hlines, hl, hq]
  have hpick : ∀ i : Nat, (List.replicate n l)[i % (List.replicate n l).length]? = some l := fun i => by
    rw [List.length_replicate, List.getElem?_replicate, if_pos (Nat.mod_lt _ (by omega))]
  refine (Reaches.get s).bind ?_
  simp only [hways, hfull, hout]
  refine (fresh_reaches s).bind ?_
  simp only [hpick, hl, Option.map_some, Option.getD_some]
  exact modHall_reaches _ _ _

/-- Bytes of one line that no hall has a copy of are read, and the line comes into the hall's vault (R111). -/
theorem readAt_allocates {hall vf va a l n : Nat} (ht : takeable s hall a n) (hp : poisoned s a n = false) (hl : linesOf a n = [l])
    (hscr : isScratch l = false) (hc : cacheable s (hallAt s hall) l = true) (hnone : kget (hallAt s hall).cache (cacheKey l) = none)
    (hothers : (List.range 64).filter (fun h => h != hall && (kget (hallAt s h).cache (cacheKey l)).isSome) = [])
    (h : Reaches (allocate hall (retainedBy s hall vf (va + l - a) l) l .exclusive) s () t) :
    Reaches (readAt hall vf va a n) s (readBytes s.mem a n) t := by
  obtain ⟨hans, hpins, hrow⟩ := ht
  have hpin : (linesOf a n).any (fun x => pinnedByOther s x none) = false := List.any_eq_false.mpr fun x hx => by simp [hpins x hx]
  refine (Reaches.get s).bind ?_
  simp only [hans, hpin, hrow, hp, Bool.or_self, Bool.false_eq_true, if_false]
  rw [hl]
  refine Reaches.bind (Reaches.each_cons ?_ (Reaches.each_nil _ t)) (Reaches.pure _ t)
  simp only [hscr, Bool.false_eq_true, if_false]
  refine (Reaches.get s).bind ?_
  simp only [hc, hnone, hothers, Option.isNone_none, and_self, if_true]
  exact (Reaches.each_nil _ s).bind h

theorem onRegion_who (rid : Nat) (g : Region → Region) (s : State) : (onRegion rid g s).who = s.who := by
  unfold onRegion; split <;> rfl

namespace BlankDescriptor
open LineListedTwice

variable {a b : Nat}

/-- The machine of `LineListedTwice.state` with no byte of memory written: the 32 bytes at offset 0 of handle 0 are 0. -/
def state (a b : Nat) : State := { LineListedTwice.state a b with mem := [] }

/-- The machine once line `a` has come into the cache. -/
def read (a b : Nat) : State := { LineListedTwice.read a b with mem := [] }

theorem state_issues (h : Bool) : RegionIssues (state a b) region h := ⟨(by decide : (0 : Nat) ≠ serviceRid), rfl, rfl, nofun⟩

theorem blank_at_reference (ha : a < 64) (hab : ∀ k < 4, a + k ≠ b) : atReference (state a b) region (areg (state a b) 0) 32 (List.replicate 32 0) := by
  rw [reference_zero]
  refine ⟨⟨rfl, rfl, rfl⟩, buffer, rfl, (by decide), fun o => 64 * a + o, ?_, rfl⟩
  rintro p hp
  obtain ⟨k, hk, rfl⟩ := List.mem_map.mp hp
  have hlt : k < 4 := List.mem_range.mp hk
  refine ⟨?_, word_takeable ha hab (by dsimp only; omega) _⟩
  show (tlbLookup (state a b) 0 0 (0 + (0 + 8 * k))).bind _ = _
  rw [page_held rfl (by omega), Nat.zero_add, Nat.zero_add]
  rfl

/-- The first line of the descriptor takes the place of the line listed twice (R119). -/
theorem allocate_misplaces (hhome : Config.homeTile a % 12 = Config.homeTile b % 12) :
    Reaches (allocate 0 none (64 * a) .exclusive) (state a b) () (read a b) := by
  have hkey : 64 * a / 64 = a := Nat.mul_div_cancel_left a (by decide)
  have hways : classWays (hallAt (state a b) 0) (homeOf (64 * a)) none = [0] := class_ways (home_lt _)
  have hlines : wayLines (hallAt (state a b) 0) (homeOf (64 * a)) 0 = List.replicate 1024 b := way_lines (by rw [homeOf, hkey, hhome])
  have hput : kset (kdel (copies b) b) (cacheKey (64 * a)) ({ mesi := .exclusive, way := 1 } : CacheLine) = [(a, { mesi := .exclusive, way := 1 })] := by
    rw [copies_dropped, cacheKey, hkey]; rfl
  have hlisted : kget (hallAt (state a b) 0).cache b = some { mesi := .shared, way := 1 } := copies_listed b
  refine (allocate_evicts hways hlines le_rfl hlisted rfl).congr ?_
  show ({ state a b with
      tick := 1
      halls := { hall a b with cache := kset (kdel (copies b) b) (cacheKey (64 * a)) { mesi := .exclusive, way := 1 } } :: List.replicate 63 Hall.reset } : State) = read a b
  rw [hput]
  rfl

/-- The second word lies in the same line, of which the way now changes use (R110). -/
theorem readAt_second (ha : a < 64) : Raises (readAt 0 0 8 (64 * a + 8) 8) (read a b) { code := stallCode } := by
  obtain ⟨hscr, -, hans⟩ := memory_answers (o := 8) ha (by decide) (read a b)
  have hkey : cacheKey (64 * a + 8) = a := by rw [cacheKey]; omega
  have hline : kget (hallAt (read a b) 0).cache (cacheKey (64 * a + 8)) = some { mesi := .exclusive, way := 1 } := by
    rw [hkey]; exact if_pos rfl
  have hwalk : ∀ t < 12, isWalking (hall 0 0) t 1 = true := by decide +kernel
  have hstall : wayStalls (read a b) 0 (64 * a + 8) = true := by
    simp only [wayStalls, hscr, hline, Option.any_some, Bool.false_eq_true, if_false]
    exact hwalk _ (home_lt _)
  exact readAt_busy hans (by simp only [rowBusy, hstall, Bool.or_true])

/-- A command whose descriptor is at offset 0 of handle 0; as CIRC's, it names out-port 0 of cell 0. -/
def record : CmdRec := { ty := .f32, md := 0, d := 0, s := 0, t := 0, ext := 0, imm := 0 }

theorem circ_target : circTarget region record.imm.toNat = some 0 := by decide

section
variable (ha : a < 64) (hab : ∀ k < 4, a + k ≠ b) (hhome : Config.homeTile a % 12 = Config.homeTile b % 12)
include ha hab hhome

/-- The descriptor's first word is read. -/
theorem readAt_first : Reaches (readAt 0 0 0 (64 * a) 8) (state a b) (readBytes (state a b).mem (64 * a) 8) (read a b) := by
  obtain ⟨htake, hmark, -⟩ := word_takeable (o := 0) ha hab (by decide) 8
  have hlines : ∀ a < 64, linesOf (64 * a) 8 = [64 * a] := by decide +kernel
  have hnone : kget (hallAt (state a b) 0).cache (cacheKey (64 * a)) = none := copies_other (k := 64 * a / 64) (by have := hab 0 (by decide); omega)
  exact readAt_allocates htake hmark (hlines a ha) (memory_answers (o := 0) ha (by decide) (state a b)).1 (cacheable_first (b := b) ha) hnone
    (no_other_copy (a := a) (b := b) _) (allocate_misplaces hhome)

/-- The descriptor is read up to its second word. -/
theorem descriptor_stalls : Raises (descriptor 0 32) (state a b) { code := stallCode } := by
  have hfirst : Reaches (loadIn (some buffer) 0 8 1) (state a b) _ (read a b) :=
    loadIn_reaches (r := region) rfl rfl rfl (page_held (a := a) (o := 0) rfl (by decide)) (readAt_first ha hab hhome)
  have hsecond : Raises (loadIn (some buffer) 8 8 1) (read a b) { code := stallCode } :=
    loadIn_raises (r := region) rfl rfl rfl (page_held (a := a) (o := 8) rfl (by decide)) (readAt_second ha)
  refine (checkRef_reaches (v := 0) ⟨rfl, rfl, rfl⟩ _).raises ((refBuffer_reaches (v := 0) (b := buffer) rfl rfl).raises ?_)
  exact Raises.first (hfirst.raises hsecond.first.first)

theorem circ_waits : exec (.circ record) (state a b) = .next (waits (state a b)) := by
  refine command_stall (state_issues _) (by decide) ?_
  refine (myRegion_reaches (r := region) rfl).raises ((reg_reaches _ _).raises ?_)
  simp only [circ_target]
  exact Raises.first (descriptor_stalls ha hab hhome)

/-- A CIRC that ends does not leave its sequencer waiting. -/
theorem circ_refutes : ¬ Obligations.ControlCommandsComplete := fun h => by
  have hentry := blank_at_reference (b := b) ha hab
  have hok : circuitOk 1 region region.active (BitVec.ofNat 256 (leNat (List.replicate 32 0))) = true := by decide +kernel
  obtain ⟨t, ht, hleads⟩ := h.1 (.circ record) _ (state a b) region rfl (state_issues _) ⟨0, _, circ_target, hentry, hok⟩
  obtain ⟨u, hread, hend⟩ := hleads 0 _ circ_target hentry
  obtain rfl : waits (state a b) = t := by rw [circ_waits ha hab hhome] at ht; cases ht; rfl
  have hissuer : kget u.regions (state a b).who = some region := by rw [hread.regions]; rfl
  have hstill := waits_waiting (s := state a b) (r := region) rfl
  rw [hend, goOn_waiting (by rw [onRegion_who, hread.who]; exact kget_onRegion _ _ hissuer)] at hstill
  cases hstill

theorem audit_waits : exec (.audit record) (state a b) = .next (waits (state a b)) := by
  refine command_stall (state_issues _) (by decide) ?_
  exact (reg_reaches _ _).raises ((home_reaches (r := region) rfl).raises (Raises.first (descriptor_stalls ha hab hhome)))

/-- An AUDIT that waits has logged nothing. -/
theorem audit_refutes : ¬ Obligations.TrapCommandsComplete := fun h => by
  have hdata := blank_at_reference (b := b) ha hab
  obtain ⟨t, ht, hleads⟩ := h.1 (.audit record) _ (state a b) region rfl (state_issues _) ⟨rfl, _, hdata⟩
  obtain ⟨-, -, e, hentries, -⟩ := hleads _ hdata
  obtain rfl : waits (state a b) = t := by rw [audit_waits ha hab hhome] at ht; cases ht; rfl
  have hnone : (waits (state a b)).pkg.registrar.entries = [] := rfl
  rw [hnone] at hentries
  cases hentries

end

end BlankDescriptor

/-- A line of the first 64, and one beyond its descriptor with the same home tile (R111). -/
theorem lines_share_home : ∃ a b, a < 64 ∧ (∀ k < 4, a + k ≠ b) ∧ Config.homeTile a % 12 = Config.homeTile b % 12 := by
  obtain ⟨i, j, hne, h⟩ := homes_meet
  have hij : (i : Nat) ≠ j := fun e => hne (Fin.ext e)
  exact ⟨4 * i, 4 * j, by omega, fun k hk => by omega, h⟩

/-- Refutes O36: in `BlankDescriptor.state` CIRC waits at its descriptor's second word, though each word could be read on the state before, and
sets no circuit. -/
theorem not_controlCommandsComplete : ¬ Obligations.ControlCommandsComplete := by
  obtain ⟨a, b, ha, hab, hhome⟩ := lines_share_home
  exact BlankDescriptor.circ_refutes ha hab hhome

/-- Refutes O42: in `BlankDescriptor.state` AUDIT waits at its descriptor's second word, though each word could be read on the state before, and
logs no entry. -/
theorem not_trapCommandsComplete : ¬ Obligations.TrapCommandsComplete := by
  obtain ⟨a, b, ha, hab, hhome⟩ := lines_share_home
  exact BlankDescriptor.audit_refutes ha hab hhome

end Sys2Proof.Machine

/-! PROOFS. After a thermal trip (R461). -/
namespace Sys2Proof.Machine

variable {s : State} {m : Turn} {rest : List Turn}

/-- A move of power-good is made also after a trip (R461). -/
theorem step_powerGood {x : Input} (hm : nextTurn s = (.event .powerGood x, rest)) :
    step s = exec .powerGood { beginTurn s (.event .powerGood x) rest with input := x } := by
  have hmade : step s = stepTurn (.event .powerGood x) (beginTurn s (.event .powerGood x) rest) := by
    unfold step
    rw [hm]
    cases s.pkg.tripped <;> rfl
  rw [hmade, stepTurn_event rfl]

/-- After a trip every other move ends the machine (R461). -/
theorem step_tripped (ht : s.pkg.tripped = true) (hm : nextTurn s = (m, rest)) (hother : ∀ x, m ≠ .event .powerGood x) : step s = .fault .powerLost := by
  unfold step
  rw [hm, ht]
  dsimp only
  split
  next x _ => exact absurd rfl (hother x)
  next => rfl
  next => contradiction

/-- Settles O59: power-good is the one move that a trip leaves. -/
theorem powerLossStops : Obligations.PowerLossStops := by
  intro s m rest ht hm
  refine ⟨?_, step_tripped ht hm⟩
  rintro x rfl
  exact step_powerGood hm

end Sys2Proof.Machine

/-! PROOFS. The tile nodes: what each gives a lane, the trap of a packet without a legal header, and the shapes of R355, R357 and R358
element by element (R340 to R358, R416, R431). -/
namespace Sys2Proof.Machine
open Sys2Proof.Claims

variable {s u : State} {r : Region} {f : NodeRec} {x : Issue} {l : Lane} {i : Instr} {g : TileOp} {p : Pkt}

/-- Each tile node runs its operation. -/
theorem exec_tile (hi : tileOp i = some (f, g)) (s : State) : exec i s = runNode (tileNode f g) s := by
  unfold tileOp at hi
  split at hi
  all_goals cases hi
  all_goals rfl

/-- Settles O14: each tile node runs its operation, whose results stand in every lane that fires. -/
theorem tileNodesComplete : Obligations.TileNodesComplete := by
  intro i f g o s x r hi hf hg
  rw [exec_tile hi]
  exact tileNode_next hf o hg

/-! ### A packet without a legal header (R416, R431) -/

theorem onPlain_noPacket {fmts : List Nat} {nullFmt : Pkt → Nat} {h : Nat → Lane → Pkt → Except (Nat × Nat) TileOut} {md : Nat}
    (hp : portPkt f l 0 = none) : onPlain f fmts nullFmt h md l = hdrTrap f l := by simp only [onPlain, hp]

theorem moveOn_noPacket {h : Nat → Lane → Pkt → Except (Nat × Nat) TileOut} {md : Nat} (hp : portPkt f l 0 = none) :
    moveOn f h md l = hdrTrap f l := by simp only [moveOn, hp]

theorem vred_noPacket {op md : Nat} (hp : portPkt f l 0 = none) : vred op f md l = hdrTrap f l := onPlain_noPacket hp

theorem vscan_noPacket {op md : Nat} (hp : portPkt f l 0 = none) : vscan op f md l = hdrTrap f l := onPlain_noPacket hp

theorem vmask_noPacket {test : Lane → Pkt → Option (Nat → Nat → Bool)} {md : Nat} (hp : portPkt f l 0 = none) : vmask f test md l = hdrTrap f l :=
  onPlain_noPacket hp

theorem vtopk_noPacket {idx : Bool} {md : Nat} (hp : portPkt f l 0 = none) : vtopk idx f md l = hdrTrap f l := by simp only [vtopk, hp]

/-- Every tile node but VBCAST, whose port 0 holds a scalar, asks for a packet on port 0. -/
theorem tileOp_noPacket (hi : tileOp i = some (f, g)) (hb : ∀ n, i ≠ .vbcast n) {md : Nat} (hp : portPkt f l 0 = none) : g md l = hdrTrap f l := by
  unfold tileOp at hi
  split at hi <;> cases hi
  case h_4 | h_5 | h_6 => exact vred_noPacket hp
  case h_7 | h_8 | h_9 => exact vscan_noPacket hp
  case h_10 | h_11 => exact moveOn_noPacket hp
  case h_12 | h_13 => exact vtopk_noPacket hp
  case h_16 => simp only [vdeqOut, hp]
  case h_19 => simp only [vsliceOut, hp]
  case h_20 => simp only [vcatOut, hp]
  case h_21 => simp only [vhdrOut, hp]
  case h_22 => simp only [vhdrSetOut, hp]
  case h_23 => exact absurd rfl (hb f)
  case h_24 | h_25 | h_26 => exact vmask_noPacket hp
  all_goals exact onPlain_noPacket hp

/-- Settles O16: every lane of a tile node without its packet traps with HDR. -/
theorem headerTrapTaken : Obligations.HeaderTrapTaken := by
  intro i f g s x r l0 ls hi hb hf hl hno hh
  rw [exec_tile hi]
  refine nodeLanes_trap (operand := fun l => (opv f l 0).toNat) hf hl (fun l hm => (hno l hm).1) hh fun l hm => ?_
  simp only [tileOp_noPacket hi hb (hno l hm).2, hdrTrap]
  exact Reaches.pure _ s

/-! ### Plain packets (R159, R342, R343) -/

/-- An element of a packet has the bits of its format (R159). -/
theorem pktOf_element_lt {bs : List Byte} (h : pktOf bs = some p) {row : Row} (hr : row ∈ p.rows) {v : Nat} (hv : v ∈ row.els) :
    v < 2 ^ elemBits p.hdr.fmt := by
  unfold pktOf at h
  dsimp only at h
  split at h
  · cases h
  · cases h
    obtain ⟨i, -, rfl⟩ := List.mem_map.mp hr
    obtain ⟨j, -, rfl⟩ := List.mem_map.mp hv
    exact Nat.mod_lt _ (Nat.two_pow_pos _)

/-- An element of a numeric format fits a word. -/
theorem elemBits_num {n : Nat} (h : n ≤ 10) : elemBits n = fmtWidth n ∧ elemBits n ≤ 32 := by
  have hall : ∀ n < 11, elemBits n = fmtWidth n ∧ elemBits n ≤ 32 := by decide
  exact hall n (by omega)

/-- A packet of a numeric format without scales and masks is a plain operand (R343). -/
theorem plain_num (hfmt : p.hdr.fmt ≤ 10) (hscl : p.hdr.scl = 0) (hspm : p.hdr.spm = 0) : p.plain fmtsNum = true := by
  have hall : ∀ n < 11, fmtsNum.contains n = true := by decide
  simp only [Pkt.plain, hall p.hdr.fmt (by omega), hscl, hspm, BEq.rfl, Bool.and_self]

theorem onPlain_plain {fmts : List Nat} {nullFmt : Pkt → Nat} {h : Nat → Lane → Pkt → Except (Nat × Nat) TileOut} {md : Nat}
    (hp : portPkt f l 0 = some p) (hrows : p.hdr.rows ≠ 0) (hplain : p.plain fmts = true) : onPlain f fmts nullFmt h md l = h md l p := by
  simp only [onPlain, hp, if_neg hrows, if_pos hplain]

/-- A result of port 0's shape and format, where port 0 has no scales and masks, has port 0's header (R342). -/
theorem resultPkt_same {rows : List (List Nat)} (hrows : rows.length = p.hdr.rows) (hscl : p.hdr.scl = 0) (hspm : p.hdr.spm = 0) :
    resultPkt p.hdr p.hdr.fmt rows p.hdr.cols = { hdr := p.hdr, rows := rows.map (fun e => { els := e }) } := by
  obtain ⟨⟨fmt, n, cols, scl, spm, lastk, kch, rowtag⟩, _, _, _⟩ := p
  dsimp only at hrows hscl hspm
  subst hrows hscl hspm
  rfl

/-- A tile node of one lane that gives one packet sends it to both destinations. -/
theorem tileNode_packet (hf : Fires s x r) (hl : x.lanes = [l]) (hg : g (mdOf x f) l = .ok (bothPkt l p)) :
    runNode (tileNode f g) s = .next (nodeDone f x (tokenOnBoth (fun l => tileToken l.tag p.bytes)) s) := by
  have hcount : ∀ l u, counted x.rid (bothPkt l p) u = u := fun _ _ => if_neg (Nat.lt_irrefl 0)
  refine (tileNode_next hf (fun l => bothPkt l p) fun l' hm _ => ?_).trans ?_
  · rw [hl, List.mem_singleton] at hm
    exact ⟨hm ▸ hg, fate_none _⟩
  · simp only [tileDone, hcount, ite_self]
    rfl

/-! ### Element by element (R355, R358) -/

/-- The columns of a packet, element by element. -/
theorem columns_els (p : Pkt) (cols : Nat) :
    columns cols p.els = (List.range cols).map (fun j => (List.range p.rows.length).map (fun i => p.el i j)) := by
  refine List.map_congr_left fun j _ => List.ext_getElem (by simp [Pkt.els]) fun i hi _ => ?_
  have hlt : i < p.rows.length := by simpa [Pkt.els] using hi
  simp [Pkt.els, Pkt.el, hlt]

/-- Elements and a fill of a format's width pass through a word unchanged. -/
theorem mapEls_filled {fmt fill : Nat} {keep : Nat → Nat → Bool} (hels : ∀ row ∈ p.rows, ∀ v ∈ row.els, v < 2 ^ elemBits fmt)
    (hfill : fill < 2 ^ elemBits fmt) (hw : elemBits fmt ≤ 32) :
    (mapEls p fmt (fun i j v => (BitVec.ofNat 32 (if keep i j then v else fill), {}))).1 = resultPkt p.hdr fmt (filled p fill keep) p.hdr.cols := by
  have hpass : ∀ v < 2 ^ elemBits fmt, (BitVec.ofNat 32 v).toNat % 2 ^ elemBits fmt = v := fun v hv => by
    rw [BitVec.toNat_ofNat, Nat.mod_eq_of_lt (hv.trans_le (Nat.pow_le_pow_right (by decide) hw)), Nat.mod_eq_of_lt hv]
  refine congrArg (resultPkt p.hdr fmt · p.hdr.cols) ?_
  rw [List.map_map]
  refine List.map_congr_left fun row hrow => ?_
  refine (List.map_map ..).trans (List.map_congr_left fun e he => hpass _ ?_)
  split
  · exact hels row.1 (List.fst_mem_of_mem_zipIdx hrow) e.1 (List.fst_mem_of_mem_zipIdx he)
  · exact hfill

/-- VMASK keeps the elements that its test holds for, and fills the others with its literal (R358). -/
theorem vmask_filled {test : Lane → Pkt → Option (Nat → Nat → Bool)} {keep : Nat → Nat → Bool} {md : Nat} (hp : portPkt f l 0 = some p)
    (hrows : p.hdr.rows ≠ 0) (hfmt : p.hdr.fmt ≤ 10) (hscl : p.hdr.scl = 0) (hspm : p.hdr.spm = 0) (hlit : f.lit.toNat < 2 ^ fmtWidth p.hdr.fmt)
    (hk : test l p = some keep) :
    vmask f test md l = .ok (bothPkt l { hdr := p.hdr, rows := (filled p f.lit.toNat keep).map (fun e => { els := e }) }) := by
  obtain ⟨hwidth, hword⟩ := elemBits_num hfmt
  have hlength : (filled p f.lit.toNat keep).length = p.hdr.rows := by
    rw [filled, List.length_map, List.length_zipIdx, pktOf_rows hp]
  rw [vmask, onPlain_plain hp hrows (plain_num hfmt hscl hspm)]
  simp only [hk, if_neg (Nat.not_le.mpr hlit)]
  rw [mapEls_filled (fun _ hrow _ hv => pktOf_element_lt hp hrow hv) (hwidth ▸ hlit) hword, resultPkt_same hlength hscl hspm]

/-- VTRANSP's packet (R355). -/
theorem vtransp_columns {md : Nat} (hp : portPkt f l 0 = some p) (hrows : p.hdr.rows ≠ 0) (hfmt : p.hdr.fmt ≤ 10) (hscl : p.hdr.scl = 0)
    (hspm : p.hdr.spm = 0) : vtranspOut f md l = .ok (bothPkt l
      { hdr := { p.hdr with rows := p.hdr.cols, cols := p.hdr.rows }
        rows := (List.range p.hdr.cols).map (fun j => { els := (List.range p.hdr.rows).map (fun i => p.el i j) }) }) := by
  rw [vtranspOut, onPlain_plain hp hrows (plain_num hfmt hscl hspm), columns_els, pktOf_rows hp]
  simp only [resultPkt, List.length_map, List.length_range, List.map_map, hscl, hspm]
  rfl

/-- Settles O15: each node gives its one lane the packet of its rule. -/
theorem tileShapesByRule : Obligations.TileShapesByRule := by
  intro f s x r l hf hl hfi one
  refine ⟨tileNode_packet hf hl rfl, fun p hp hrows hfmt hscl hspm => ⟨?_, fun hlit => ⟨?_, ?_⟩⟩⟩
  · exact tileNode_packet hf hl (vtransp_columns hp hrows hfmt hscl hspm)
  · refine tileNode_packet hf hl (vmask_filled hp hrows hfmt hscl hspm hlit ?_)
    simp only [Nat.cast_add]
  · refine tileNode_packet hf hl (vmask_filled hp hrows hfmt hscl hspm hlit ?_)
    simp only [Nat.cast_add]

end Sys2Proof.Machine

/-! PROOFS. The nodes that read plinths: SCORE, PAIR, NORM and ROPE, MXDRAIN, and MXSTEER's ports (R367 to R374). -/
namespace Sys2Proof.Machine
open Sys2Proof.Claims

variable {s t u : State} {r : Region} {f : NodeRec} {x : Issue} {l : Lane} {i : Instr} {cfg : MxCfg}

/-! ### What tokens leave of the plinths -/

/-- The plinths of the halls. -/
def plinthView (s : State) : List (List Plinth) := s.halls.map (·.plinths)

theorem plinthView_onHall {k : Nat} {g : Hall → Hall} (h : (g (hallAt s k)).plinths = (hallAt s k).plinths) : plinthView (onHall k g s) = plinthView s := by
  have e : plinthView (onHall k g s) = plinthView (onHall k id s) := by simp only [plinthView, onHall, List.map_set, h, id]
  rw [e, onHall_same s k rfl]

theorem plinthView_untold : Untold plinthView where
  regions _ _ := rfl
  chans _ _ := rfl
  overflow _ _ l := plinthView_onHall (g := fun h => { h with overflow := l }) rfl

theorem plinthAt_of_view (h : plinthView u = plinthView s) (hall k : Nat) : plinthAt u hall k = plinthAt s hall k := by
  have e : u.halls[hall]?.map (·.plinths) = s.halls[hall]?.map (·.plinths) := by simpa [plinthView] using congrArg (·[hall]?) h
  unfold plinthAt hallAt
  cases hu : u.halls[hall]? <;> cases hs : s.halls[hall]? <;> simp_all

/-! ### Attention nodes (R369 to R374) -/

/-- A state in which the lanes before have sent their results, as far as an attention node reads it. -/
def Attended (rid : Nat) (r : Region) (s u : State) : Prop :=
  trapWaiting u = none ∧ plinthView u = plinthView s ∧ ∃ r', kget u.regions rid = some r' ∧ r'.sys.trapEn = r.sys.trapEn ∧ r'.hall = r.hall

theorem Attended.laneSent {out : Option Token × Option Token} (h : Attended x.rid r s u) : Attended x.rid r s (laneSent f x l out u) := by
  obtain ⟨hquiet, hview, r', hr', hen, hhall⟩ := h
  have hk := laneSent_kin f x l out u
  obtain ⟨q, hq, hcore⟩ := hk.get hr'
  exact ⟨hk.2 hquiet, (laneSent_spared plinthView_untold f x l out u).trans hview, q, hq, core_sys hcore ▸ hen, core_hall hcore ▸ hhall⟩

theorem Attended.counted {rid : Nat} (h : Attended rid r s u) (o : TileOut) : Attended rid r s (counted rid o u) := by
  obtain ⟨hquiet, hview, r', hr', hen, hhall⟩ := h
  have hhalls : (Machine.counted rid o u).halls = u.halls := (counted_elsewhere rid o u).1
  refine ⟨counted_quiet rid o hquiet, by rw [plinthView, hhalls]; exact hview, ?_⟩
  unfold Machine.counted
  split
  · exact ⟨_, kget_onRegion _ _ hr', hen, hhall⟩
  · exact ⟨r', hr', hen, hhall⟩

/-- An attention node of which no lane holds poison, and whose firing lanes all give results that their conditions let stand; it reads the
region's hall and the plinths alone. -/
theorem quietNode_next {g : Issue → Region → State → Lane → Except (Nat × Nat) TileOut} (hf : Fires s x r) (o : Lane → TileOut)
    (hreads : ∀ u r' l, r'.hall = r.hall → plinthView u = plinthView s → g x r' u l = g x r s l) (hp : ∀ l ∈ x.lanes, firstPoison l = none)
    (hg : ∀ l ∈ x.lanes, firing f l = true → g x r s l = .ok (o l) ∧ fate r.sys.trapEn (o l).conds = .stands) :
    runNode (quietNode f g) s = .next (tileDone f x o s) := by
  let go : Lane → State → State := fun l u => laneSent f x l ((o l).da, (o l).db) (counted x.rid (o l) u)
  have hs : Attended x.rid r s s := ⟨hf.2.2, rfl, r, hf.2.1, rfl, rfl⟩
  have hlane : ∀ u, ∀ l ∈ x.lanes, laneStart f x go u l =
      laneSent f x l (laneTokens f l ((o l).da, (o l).db)) (if firing f l then counted x.rid (o l) u else u) := fun u l hl => by
    simp only [laneStart, laneTokens, firing, hp l hl, Option.isNone_none, Bool.true_and]
    split <;> rfl
  have hkeep : ∀ u, ∀ l ∈ x.lanes, Attended x.rid r s u → Attended x.rid r s (laneStart f x go u l) := fun u l hl hu => by
    rw [hlane u l hl]
    split
    · exact (hu.counted _).laneSent
    · exact hu.laneSent
  have hreach : Reaches (quietNode f g) s () (x.lanes.foldl (laneStart f x go) s) := by
    unfold quietNode attentionNode
    refine accessLanes_reaches hf go (Attended x.rid r s) hs (fun u l hl hfi hu => ?_) hkeep
    obtain ⟨-, hview, r', hr', hen, hhall⟩ := hu
    obtain ⟨hok, hfate⟩ := hg l hl hfi
    refine ⟨r', ((o l).da, (o l).db), counted x.rid (o l) u, hr', Reaches.bind ((Reaches.get u).bind (Reaches.pure _ u)) ?_, rfl⟩
    simp only [hreads u r' l hhall hview, hok, Except.map, judge, hen, hfate]
    exact (Reaches.pure () u).bind ((counted_reaches _ _ _).bind (Reaches.pure _ _))
  have hquiet := (List.foldlRecOn x.lanes (laneStart f x go) hs fun u hu l hl => hkeep u l hl hu).1
  rw [List.foldl_ext _ _ s fun u l hl => hlane u l hl] at hreach hquiet
  exact node_next hreach hquiet

/-- Each attention node runs its operation. -/
theorem exec_attention {g : Issue → Region → State → Lane → Except (Nat × Nat) TileOut} (hi : attentionOut i = some (f, g)) (s : State) :
    exec i s = runNode (quietNode f g) s := by
  unfold attentionOut at hi
  split at hi
  all_goals cases hi
  all_goals rfl

/-- What an attention node gives depends on its region's hall and on the plinths alone. -/
theorem attentionOut_reads {g : Issue → Region → State → Lane → Except (Nat × Nat) TileOut} {r' : Region} (hi : attentionOut i = some (f, g))
    (hhall : r'.hall = r.hall) (hview : plinthView u = plinthView s) : g x r' u l = g x r s l := by
  unfold attentionOut at hi
  split at hi <;> cases hi
  case h_1 => simp only [hhall, plinthAt_of_view hview]
  all_goals rfl

/-- Settles O17: each attention node runs its operation, which reads what the lanes before it leave alone. -/
theorem attentionNodesComplete : Obligations.AttentionNodesComplete := by
  intro i f g o s x r hi hf hp hg
  rw [exec_attention hi]
  exact quietNode_next hf o (fun _ _ _ hhall hview => attentionOut_reads hi hhall hview) hp hg

/-! ### MXDRAIN (R367) -/

/-- A node of one lane at a plinth with no packet in work: its lane's results are sent, and the plinth has nothing to go on with. -/
theorem plinthNode_next {rule : PoisonRule} {body : Issue → Region → Lane → M LaneOut} {out : Option Token × Option Token} {k : Nat}
    (hf : Fires s x r) (hl : x.lanes = [l]) (hfi : firing f l = true) (hb : Reaches (body x r l) s (.emit out.1 out.2) t)
    (hjobs : (plinthAt t r.hall k).jobs = []) (hq : trapWaiting t = none) :
    runNode (do
      let i ← myIssue
      lanesM f rule body
      match i with
      | some (_, r) => settlePlinth r.hall k
      | none => pure ()) s = .next { laneSent f x l out t with issue := none } := by
  refine node_next ((myIssue_reaches hf.1 hf.2.1).bind ((lanesM_one hf hl hfi hb (laneOut_emit x f 0 l _ _ t) (Reaches.pure () _)).bind
    (settlePlinth_idle ?_))) ((laneSent_kin f x l out t).2 hq)
  rw [plinthAt_of_view (laneSent_spared plinthView_untold f x l _ t), hjobs]

/-- Rows of which none holds poison emit none. -/
theorem rowsPoison_none {rs : List AccRow} (h : ∀ y ∈ rs, y.poison = none) : rowsPoison rs = none := List.findSome?_eq_none_iff.mpr h

/-- The packet of the rows that MXDRAIN takes. -/
def drainPacket (f : NodeRec) (l : Lane) (cfg : MxCfg) (rs : List AccRow) : Token :=
  tileToken l.tag (csaPkt (rs.map (·.elems)) cfg.n 1 0 ((opv f l 0).toNat % 2 ^ 24)).bytes

/-- A plinth without the rows of some tags. -/
def Plinth.drained (p : Plinth) (tags : List Nat) : Plinth := { p with rows := p.rows.filter (fun q => !(tags.map (· % 128)).contains q.1) }

section
variable (hf : Fires s x r) (hl : x.lanes = [l]) (hfi : firing f l = true) (hp : Plinthed s x r f [] cfg) (hkeep : cfg.keep = true)
  (hdrain : (plinthAt s r.hall (f.ex.toNat % 4)).drain = none)
include hf hl hfi hp hkeep hdrain

/-- Complete rows of which none holds poison are freed, and leave as one packet. -/
theorem drain_sends {rs : List AccRow} (hrs : completeRows (plinthAt s r.hall (f.ex.toNat % 4)) (drainTags f l) = some rs)
    (hpoison : ∀ y ∈ rs, y.poison = none) :
    exec (.mxdrain f) s = .next { laneSent f x l (some (drainPacket f l cfg rs), some (drainPacket f l cfg rs))
      (withPlinth s r (f.ex.toNat % 4) ((plinthAt s r.hall (f.ex.toNat % 4)).drained (drainTags f l))) with issue := none } := by
  obtain ⟨hcfg, hjobs⟩ := hp
  refine plinthNode_next (out := (some (drainPacket f l cfg rs), some (drainPacket f l cfg rs))) hf hl hfi ((Reaches.get s).bind ?_)
    (withPlinth_jobs hjobs hjobs) hf.2.2
  simp only [hcfg, hkeep, hdrain, Option.isSome_none, Bool.not_true, Bool.false_eq_true, or_self, if_false, hrs, rowsPoison_none hpoison]
  exact (modPlinth_reaches r _ _ s).bind (Reaches.pure _ _)

/-- While a row is not complete the node's match goes back to its cell's ready queue (R56, R367). -/
theorem drain_waits (hrs : completeRows (plinthAt s r.hall (f.ex.toNat % 4)) (drainTags f l) = none) :
    exec (.mxdrain f) s = .next { onRegion x.rid (fun r =>
      { r with ready := insertInst { cell := x.cell, node := x.node, lane := l } r.ready }) s with issue := none } := by
  obtain ⟨hcfg, hjobs⟩ := hp
  refine plinthNode_next (out := (none, none)) (t := onRegion x.rid (fun r =>
    { r with ready := insertInst { cell := x.cell, node := x.node, lane := l } r.ready }) s) hf hl hfi ((Reaches.get s).bind ?_) ?_
    (onRegion_quiet x.rid (fun _ => rfl) (fun _ => rfl) (fun _ => rfl) (fun _ => rfl) hf.2.2)
  · simp only [hcfg, hkeep, hdrain, Option.isSome_none, Bool.not_true, Bool.false_eq_true, or_self, if_false, hrs]
    exact (onRegion_reaches _ _ s).bind (Reaches.pure _ _)
  · rw [plinthAt_of_halls (onRegion_elsewhere _ _ s).1, hjobs]

end

/-- Settles O31: complete rows are sent (`drain_sends`), and a row that is not complete makes the node wait (`drain_waits`). -/
theorem drainCompletes : Obligations.DrainCompletes := by
  intro f s x r l cfg k p tags packet freed hf hl hfi hp hkeep hdrain
  exact ⟨fun _ => drain_sends hf hl hfi hp hkeep hdrain, drain_waits hf hl hfi hp hkeep hdrain⟩

/-! ### MXSTEER (R368) -/

/-- A lane's packet on the data out-ports that its route entry names, in ascending order. -/
def steered (f : NodeRec) (x : Issue) (r : Region) (l : Lane) (u : State) : State :=
  ((List.finRange 16).filter (fun j => (kgetD r.routes (opv f l 1).toNat 0 / 2 ^ j.val) % 2 == 1)).foldl
    (fun v j => delivered x (.out j) (({ operand f l 0 with tag := l.tag } : Token).after u l.past) v) u

theorem steered_reaches (f : NodeRec) (x : Issue) (r : Region) (l : Lane) (u : State) :
    Reaches (each ((List.finRange 16).filter (fun j => bits (kgetD r.routes (opv f l 1).toNat 0) j.val 1 == 1)) (fun j =>
      sendLane x (.out j) (({ operand f l 0 with tag := l.tag } : Token).after u l.past))) u () (steered f x r l u) :=
  Reaches.each_fold (fun _ => True) _ u trivial fun v j _ _ => ⟨delivered_reaches x (.out j) _ v, trivial⟩

theorem steered_kin (f : NodeRec) (x : Issue) (r : Region) (l : Lane) (u : State) : Kin u (steered f x r l u) :=
  foldl_kin _ (fun v j => delivered_kin x (.out j) _ v) _ u

/-- A lane that fires sends its results. -/
theorem laneTokens_firing (h : firing f l = true) (out : Option Token × Option Token) : laneTokens f l out = out := by
  obtain ⟨hpoison, hgate⟩ : firstPoison l = none ∧ gateOpen f l = true := by simpa [firing] using h
  simp only [laneTokens, hpoison, hgate, if_true]

/-- A lane that fires sends its packet and nothing else; another sends its poison or nothing. -/
theorem steerLane_eq (f : NodeRec) (x : Issue) (r : Region) (l : Lane) (u : State) :
    laneSent f x l (laneTokens f l (none, none)) (if firing f l then steered f x r l u else u) =
      if firing f l then steered f x r l u else laneSent f x l (laneTokens f l (none, none)) u := by
  split
  next h => rw [laneTokens_firing h]; rfl
  · rfl

/-- MXSTEER whose lanes name route entries that there are (R368). -/
theorem execMxsteer_next (hf : Fires s x r) (he : ∀ l ∈ x.lanes, firing f l = true → (opv f l 1).toNat ≤ 7) :
    exec (.mxsteer f) s = .next { x.lanes.foldl (fun u l =>
      laneSent f x l (laneTokens f l (none, none)) (if firing f l then steered f x r l u else u)) s with issue := none } := by
  have hkeep : ∀ u l, Kin s u → Kin s (laneSent f x l (laneTokens f l (none, none)) (if firing f l then steered f x r l u else u)) := fun u l hu => by
    refine Kin.trans ?_ (laneSent_kin f x l _ _)
    split
    · exact hu.trans (steered_kin f x r l u)
    · exact hu
  refine node_next (lanes_reaches hf (steered f x r) (fun _ _ => (none, none)) (Kin s) (Kin.refl s) (fun u l hl hfi hu => ?_) fun u l _ => hkeep u l)
    ((foldl_keeps (Kin s) hkeep x.lanes s (Kin.refl s)).2 hf.2.2)
  obtain ⟨r', hr', hcore⟩ := hu.get hf.2.1
  have hroutes : r'.routes = r.routes := (congrArg Region.routes hcore :)
  refine ⟨r', hr', ?_⟩
  simp only [if_neg (Nat.not_lt.mpr (he l hl hfi)), hroutes]
  exact (Reaches.get u).bind ((steered_reaches f x r l u).bind (Reaches.pure _ _))

/-- Settles O32: a lane that fires sends its packet on the ports of its entry, and every lane whose entry is above 7 traps. -/
theorem steerCompletes : Obligations.SteerCompletes := by
  intro f s x r hf
  constructor
  · intro he
    rw [execMxsteer_next hf he]
    simp only [steerLane_eq]
    rfl
  · intro l0 ls hl hlanes hh
    refine nodeLanes_trap (operand := fun l => (opv f l 0).toNat) hf hl (fun l hm => (hlanes l hm).1) hh fun l hm => ?_
    simp only [if_pos (hlanes l hm).2]
    exact Reaches.pure _ s

end Sys2Proof.Machine

/-! PROOFS. Tags that their loop region has not drawn (R422, R431). -/
namespace Sys2Proof.Machine
open Sys2Proof.Claims

variable {s : State} {r : Region} {f : NodeRec} {x : Issue} {l0 : Lane} {ls : List Lane}

/-- TAGRET under tags that are not drawn (R422). -/
theorem execTagret_trap (hf : Fires s x r) (hl : x.lanes = l0 :: ls) (hfi : ∀ l ∈ x.lanes, firing f l = true) (hh : Handles r)
    (hfree : ∀ l ∈ x.lanes, tagDrawn r (f.ax.toNat % 16) l.tag = false) :
    exec (.tagret f) s = .next { onRegion x.rid (handling (nodeTrap f r x 0 0x21 (opv f l0 0).toNat))
      (x.lanes.foldl (pended f x 0 0x21) s) with issue := none } := by
  refine nodeLanes_trap (operand := fun l => (opv f l 0).toNat) hf hl hfi hh fun l hm => ?_
  simp only [hfree l hm, Bool.false_eq_true, if_false]
  exact Reaches.pure _ s

/-- DONE that retires under tags that are not drawn (R287, R422). -/
theorem execDone_trap (hf : Fires s x r) (hl : x.lanes = l0 :: ls) (hfi : ∀ l ∈ x.lanes, firing f l = true) (hh : Handles r)
    (hfree : ∀ l ∈ x.lanes, tagDrawn r 0 l.tag = false ∧ (opv f l 0).toNat = 0xFFFFFFFF) :
    exec (.done f) s = .next { onRegion x.rid (handling (nodeTrap f r x 0 0x21 (opv f l0 0).toNat))
      (x.lanes.foldl (pended f x 0 0x21) s) with issue := none } := by
  refine nodeLanes_trap (operand := fun l => (opv f l 0).toNat) hf hl hfi hh fun l hm => (Reaches.get s).bind ?_
  obtain ⟨hpoison, -⟩ : firstPoison l = none ∧ gateOpen f l = true := by simpa [firing] using hfi l hm
  obtain ⟨htag, hretires⟩ := hfree l hm
  have hlegal : ¬ ((hdrThread r.header ∧ 256 ≤ 0xFFFFFFFF ∧ 0xFFFFFFFF < 0xFFFFFFFF)
      ∨ (hdrThread r.header ∧ 0xFFFFFFFF < 256 ∧ isHandlerAct r.program 0xFFFFFFFF) ∨ (¬ hdrThread r.header ∧ 0xFFFFFFFF ≠ 0xFFFFFFFF)) := by
    simp
  simp only [hpoison, hretires, if_neg hlegal, htag, Bool.not_false, Bool.true_or, if_true]
  exact Reaches.pure _ s

/-- Settles O18: both nodes trap with TAG in every lane. -/
theorem freeTagTrapTaken : Obligations.FreeTagTrapTaken :=
  fun _ _ _ _ _ _ hf hl hfi hh => ⟨execTagret_trap hf hl hfi hh, execDone_trap hf hl hfi hh⟩

end Sys2Proof.Machine
